-- ==== Sys2Proof/Word.lean ====
section
/-! DEFINITION. The word types of the machine (R4, R36) and their plainest arithmetic. -/

namespace Sys2Proof

/-- A byte of memory (R4). -/
abbrev Byte := BitVec 8

/-- A 32-bit register container (R36). -/
abbrev Word := BitVec 32

/-- A 64-bit register (R36). -/
abbrev DWord := BitVec 64

/-- A 57-bit virtual or physical address (R71, R351). -/
abbrev Addr := BitVec 57

/-- A 128-bit quantity: an instruction word zero-extended, or a 16-byte operand. -/
abbrev QWord := BitVec 128

/-- A tile record (R36, R257). -/
abbrev TRec := BitVec 256

end Sys2Proof
end

