-- ==== Sys2Proof/Syntax.lean ====
section
/-! DEFINITION. The instructions and device steps of spec/opcode_table.json, one constructor per row,
with their operands as the formats of "Instruction Formats and Opcode Map" (R174 to R187) hold them. -/

namespace Sys2Proof

/-! ### Operand fields -/

/-- The header fields every instruction carries (R174): the guard, the version and the control bits. -/
structure Hdr where
  /-- GRD bit 4: the guard is negated. -/
  neg : Bool
  /-- GRD bits 3:0: the guard predicate P0 to P15. -/
  grd : BitVec 4
  /-- VER 01 when true, VER 00 when false (R176). -/
  ver1 : Bool
  /-- CTL (R176): the lookahead count of a long-latency instruction under VER 01. -/
  ctl : BitVec 4
  deriving DecidableEq, Repr

/-- A 10-bit operand field (Table 2.2, Table 10.7). -/
inductive Opnd where
  | v (i : BitVec 8)
  | q (i : BitVec 4)
  | l (i : BitVec 2)
  | s (i : BitVec 6)
  | b (i : BitVec 6)
  /-- Inline integer, index 0x80 to 0xBF. -/
  | inl (i : BitVec 6)
  /-- Named constant, index 0xC0 to 0xC7. -/
  | named (i : BitVec 3)
  /-- The LIT word of format L, index 0xE0. -/
  | lit (w : Word)
  deriving DecidableEq, Repr

/-- A destination (Table 10.6); `none` is DSEL 11 with D 0x00. -/
inductive Dst where
  | v (i : BitVec 8)
  | q (i : BitVec 4)
  | s (i : BitVec 6)
  | b (i : BitVec 6)
  | none
  deriving DecidableEq, Repr

/-- A predicate field (R179). -/
structure PredF where
  neg : Bool
  p : BitVec 4
  deriving DecidableEq, Repr

/-- The integer codes of SUB (Table 10.14). -/
inductive IntTy where
  | i32 | n32 | i64 | n64 | i16 | n16 | i8 | n8
  deriving DecidableEq, Repr

/-- The FP codes of SUB (Table 10.14). -/
inductive FpTy where
  | f32 | f16 | bf16
  deriving DecidableEq, Repr

/-- The type codes of Table 10.8. -/
inductive Ty where
  | b8 | b16 | b32 | b64 | b128 | i8 | i16 | i32 | i64 | n8 | n16 | n32 | n64
  | f64 | f32 | f16 | bf16 | e4m3 | e5m2 | e3m2 | e2m3 | e2m1
  | mxi8 | mxe5m2 | mxe4m3 | mxe3m2 | mxe2m3 | mxe2m1
  deriving DecidableEq, Repr

/-- The rounding modes of Table 3.2. -/
inductive Rnd where
  | rne | rz | rd | ru | rs
  deriving DecidableEq, Repr

/-- The scopes of Table 10.9. -/
inductive Scope where
  | grp | blk | quad | die | pkg | pod | sys
  deriving DecidableEq, Repr

/-- The orders of Table 10.9. -/
inductive Order where
  | rlx | acq | rel | acqrel
  deriving DecidableEq, Repr

/-- The spaces of Table 10.9. -/
inductive Space where
  | g | s | c | l
  deriving DecidableEq, Repr

/-- The conditions of cmp and wait.v (R192, R250). -/
inductive Cond where
  | eq | ne | lt | le | gt | ge
  deriving DecidableEq, Repr

/-- The conditions of fcmp (Table 12.2). -/
inductive FCond where
  | eq | ne | lt | le | gt | ge | un | ord
  deriving DecidableEq, Repr

/-- The engine classes of Table 13.6. -/
inductive Cls where
  | copy | mtx | gs | send | coll | pg
  deriving DecidableEq, Repr

/-- The operations of atom, red and ring.up (Table 13.3, Table 6.2). -/
inductive AOp where
  | add | min | max | and | or | xor | xch
  deriving DecidableEq, Repr

/-! ### Operand records of the instruction families -/

/-- Integer and address instructions (R190 to R193); fields an instruction does not use are `.v 0`. -/
structure IntOp where
  ty : IntTy
  sat : Bool
  d : Dst
  a : Opnd
  b : Opnd
  c : Opnd
  deriving DecidableEq, Repr

structure SelOp where
  ty : IntTy
  d : Dst
  a : Opnd
  b : Opnd
  p : PredF
  deriving DecidableEq, Repr

structure CmpOp where
  ty : IntTy
  pd : BitVec 4
  a : Opnd
  b : Opnd
  cond : Cond
  deriving DecidableEq, Repr

/-- movs (R195): `.first` forms hold SB zero. -/
structure MovsOp where
  wide : Bool
  first : Bool
  d : Dst
  a : Opnd
  lane : Opnd
  deriving DecidableEq, Repr

inductive XMode where
  | at | below | above | mask
  deriving DecidableEq, Repr

structure XlaneOp where
  mode : XMode
  d : Dst
  a : Opnd
  b : Opnd
  c : Opnd
  deriving DecidableEq, Repr

inductive AgreeMode where
  | every | some | same | odd
  deriving DecidableEq, Repr

inductive LaneMode where
  | iss | lt | rank
  deriving DecidableEq, Repr

/-- Floating-point instructions with an FP code, dot2, pfma and the FP64 instructions (R215). -/
structure FpOp where
  ty : FpTy
  rnd : Rnd
  sat : Bool
  ftz : Bool
  d : Dst
  a : Opnd
  b : Opnd
  c : Opnd
  deriving DecidableEq, Repr

structure FcmpOp where
  ty : FpTy
  ftz : Bool
  pd : BitVec 4
  a : Opnd
  b : Opnd
  cond : FCond
  deriving DecidableEq, Repr

structure QdOp where
  coarse : Bool
  rnd : Rnd
  ftz : Bool
  d : Dst
  a : Opnd
  deriving DecidableEq, Repr

structure CvtOp where
  tyTo : Ty
  tyFr : Ty
  rnd : Rnd
  sat : Bool
  ftz : Bool
  d : Dst
  a : Opnd
  deriving DecidableEq, Repr

/-- pk (R228): `a` names the first register of the run. -/
structure PkOp where
  fmt : Ty
  rnd : Rnd
  sat : Bool
  ftz : Bool
  d : Dst
  a : Opnd
  deriving DecidableEq, Repr

structure UpkOp where
  fmt : Ty
  ftz : Bool
  i : BitVec 3
  d : Dst
  a : Opnd
  deriving DecidableEq, Repr

structure QntOp where
  fmt : Ty
  rnd : Rnd
  pk : Bool
  d : Dst
  a : Opnd
  deriving DecidableEq, Repr

structure DqntOp where
  fmt : Ty
  rnd : Rnd
  ftz : Bool
  i : BitVec 3
  d : Dst
  a : Opnd
  c : Opnd
  deriving DecidableEq, Repr

structure KeyOp where
  inv : Bool
  desc : Bool
  ty : Ty
  d : Dst
  a : Opnd
  deriving DecidableEq, Repr

structure HistOp where
  wide : Bool
  shift : BitVec 6
  width : BitVec 4
  d : Dst
  key : Opnd
  base : Opnd
  deriving DecidableEq, Repr

inductive ScanFn where
  | add | min | max
  deriving DecidableEq, Repr

structure ScanOp where
  fn : ScanFn
  excl : Bool
  all : Bool
  ty : Ty
  rnd : Rnd
  ftz : Bool
  d : Dst
  a : Opnd
  deriving DecidableEq, Repr

/-- The memory operand and MEM word of format X (R184, R237); `off = .inl 0` when no off register is
written, and holds the compare operand of atom.cas (R245). -/
structure MemOp where
  ty : Ty
  space : Space
  strong : Bool
  ord : Order
  scope : Scope
  disp : BitVec 19
  d : Dst
  base : Opnd
  off : Opnd
  data : Opnd
  deriving DecidableEq, Repr

structure WaitVOp where
  cond : Cond
  acq : Bool
  shared : Bool
  scope : Scope
  ty : Ty
  base : Opnd
  a : Opnd
  disp : Word
  deriving DecidableEq, Repr

/-- Copies and index-engine commands (Table 14.3): `bo` with the object in `c`; `col` is idx.gather.col. -/
structure CopyOp where
  bo : Bool
  col : Bool
  a : Opnd
  b : Opnd
  c : Opnd
  tr : BitVec 4
  tk : BitVec 6
  ext : Word
  deriving DecidableEq, Repr

structure MmaOp where
  j : BitVec 3
  acc : BitVec 3
  row0 : Opnd
  col0 : Opnd
  k0 : Opnd
  ta : BitVec 4
  tb : BitVec 4
  aS : Bool
  bS : Bool
  ftz : Bool
  /-- EXT[31:8], the metadata offset of smma (zero in mma). -/
  md : BitVec 24
  deriving DecidableEq, Repr

structure MxStOp where
  acc : BitVec 3
  row0 : Opnd
  col0 : Opnd
  out : BitVec 4
  ta : BitVec 4
  tb : BitVec 4
  rnd : Rnd
  sat : Bool
  ftz : Bool
  sp : Bool
  deriving DecidableEq, Repr

structure RebalOp where
  tot : Bool
  tk : BitVec 6
  d : Dst
  a : Opnd
  b : Opnd
  c : Opnd
  deriving DecidableEq, Repr

/-- ring.rd and ring.up (R289, R290). -/
structure RingWOp where
  ty : Ty
  ord : Order
  scope : Scope
  d : Dst
  a : Opnd
  v : Opnd
  c : Opnd
  disp : Word
  deriving DecidableEq, Repr

/-- The operations of ring.up besides pop (Table 6.2). -/
inductive ROp where
  | add | min | max | and | or | xch | cas
  deriving DecidableEq, Repr

/-- ring.cap and ring.ret (R292, R293). -/
structure RingCOp where
  ord : Order
  scope : Scope
  tk : BitVec 6
  /-- The run of 16: the destination of ring.cap, the source of ring.ret. -/
  run : Dst
  a : Opnd
  disp : Word
  deriving DecidableEq, Repr

/-- A function of the package that reports ready or failed (Tables 24.1, 24.2). -/
inductive Fn where
  | queue | fw | hlink
  | dieCores (d : Fin 8) | sdram (d : Fin 8) | ring (d : Fin 8)
  /-- RDYENG byte d, bit k: Parterre, Pergola, index engine, copy engines, matrix engines, LPDDR. -/
  | engine (d : Fin 8) (k : Fin 6)
  deriving DecidableEq, Repr

/-- An access from outside: the host (Table 23.3) or another package of the pod (R357). -/
inductive ExtAcc where
  | load (n : Nat)
  | store (n : Nat) (data : QWord)
  | atomic (op : AOp) (ty : Ty) (data : QWord)
  | cas (n : Nat) (data cmp : QWord)
  /-- A weak load or store, or an engine's, of another package (R357). -/
  | weakLoad (n : Nat)
  | weakStore (n : Nat) (data : QWord)
  /-- A ring update, a bounded pop, a ring read, and the marks of ring.board and ring.alight, of another package's instruction
  (R357). -/
  | ringUp (op : ROp) (ty : Ty) (data cmp : QWord)
  | ringPop (n : Word)
  | ringRd (ty : Ty)
  | ringBoard
  | ringAlight
  deriving DecidableEq, Repr

/-- Where a deferred weak load takes its value (R86, R91, R94, R98). -/
inductive LoadSrc where
  | home
  | writePath
  /-- The `k`-th value the location has had since its remote-die copy was filled, or, for a constant load, before the
  `k`-th write to its sector (R73). -/
  | remoteCopy (k : Nat)
  /-- Copy `k` of another core's L1, of another quad of the die; of a remote-die copy its `h`-th value (R77). -/
  | peer (core k h : Nat)
  /-- The bytes in `mask` from entry `k` of a core's write path, a byte-masked write that the load races (R89), or, for a
  constant load, the value being written (R73). -/
  | race (ws : List (Nat × Nat × Nat))
  deriving DecidableEq, Repr

/-! ### The instructions and device steps

Slots, cores, quads, dies and blocks of the device steps are numbered through the whole package: core
`64·die + c`, quad `16·die + q`, group slot `128·core + s`, a block by the slot of its group 0. -/

inductive Instr where
  -- Integer and address instructions (R192)
  | add (h : Hdr) (o : IntOp)
  | sub (h : Hdr) (o : IntOp)
  | mulLo (h : Hdr) (o : IntOp)
  | mulHi (h : Hdr) (o : IntOp)
  | mad (h : Hdr) (o : IntOp)
  | min (h : Hdr) (o : IntOp)
  | max (h : Hdr) (o : IntOp)
  | abs (h : Hdr) (o : IntOp)
  | neg (h : Hdr) (o : IntOp)
  | and (h : Hdr) (o : IntOp)
  | or (h : Hdr) (o : IntOp)
  | xor (h : Hdr) (o : IntOp)
  | not (h : Hdr) (o : IntOp)
  | shl (h : Hdr) (o : IntOp)
  | shr (h : Hdr) (o : IntOp)
  | sar (h : Hdr) (o : IntOp)
  | bfx (h : Hdr) (o : IntOp)
  | bfi (h : Hdr) (o : IntOp)
  | popc (h : Hdr) (o : IntOp)
  | clz (h : Hdr) (o : IntOp)
  | ctz (h : Hdr) (o : IntOp)
  | brev (h : Hdr) (o : IntOp)
  | sel (h : Hdr) (o : SelOp)
  | cmp (h : Hdr) (o : CmpOp)
  | lea (h : Hdr) (o : IntOp)
  | mov (h : Hdr) (o : IntOp)
  | moviB32 (h : Hdr) (d : Dst) (w : Word)
  | moviB64 (h : Hdr) (d : Dst) (w : DWord)
  -- Lanes, votes, predicates (R195 to R199)
  | movs (h : Hdr) (o : MovsOp)
  | xlane (h : Hdr) (o : XlaneOp)
  | agree (h : Hdr) (m : AgreeMode) (pd : BitVec 4) (q : PredF)
  | pmask (h : Hdr) (inv : Bool) (d : Dst) (q : PredF)
  | lane (h : Hdr) (m : LaneMode) (d : Dst)
  | pand (h : Hdr) (pd : BitVec 4) (a b : PredF)
  | por (h : Hdr) (pd : BitVec 4) (a b : PredF)
  | pxor (h : Hdr) (pd : BitVec 4) (a b : PredF)
  | pnot (h : Hdr) (pd : BitVec 4) (a : PredF)
  | pmov (h : Hdr) (pd : BitVec 4) (a : PredF)
  | pmovPk (h : Hdr) (d : Dst)
  | pmovUpk (h : Hdr) (a : Opnd)
  -- Control (R200 to R205)
  | bra (h : Hdr) (ofs : Word)
  | braInd (h : Hdr) (a : Opnd)
  | call (h : Hdr) (l : BitVec 8) (ofs : Word)
  | ret (h : Hdr) (a : Opnd)
  | exit (h : Hdr)
  | meetSet (h : Hdr) (ofs : Word)
  | meetSetXch (h : Hdr) (l : BitVec 8) (ofs : Word)
  | meetSetFrom (h : Hdr) (a : Opnd)
  | meet (h : Hdr)
  | meetBrk (h : Hdr)
  | nap (h : Hdr) (a : Opnd)
  | napExpiry (slot lane : Nat)
  -- Regions, the extended set, hints, continuations, traps (R206 to R213)
  | region (h : Hdr) (v1 : BitVec 8) (n1 : BitVec 5) (v2 : BitVec 8) (n2 : BitVec 5)
  | regionEnd (h : Hdr)
  | grow (h : Hdr)
  | growGrant (slot : Nat)
  | growStall (core part : Nat)
  | shrink (h : Hdr)
  | phint (h : Hdr) (base ext : BitVec 8) (spad : BitVec 16)
  | contSet (h : Hdr) (tok : BitVec 6) (ofs : Word)
  | contSetClr (h : Hdr)
  | contResume (h : Hdr) (tok : BitVec 6)
  | trap (h : Hdr) (code : BitVec 8)
  | brkpt (h : Hdr)
  | handlerRecordAppend (slot : Nat)
  | rdsp (h : Hdr) (d : Dst) (num : BitVec 10)
  | wrsp (h : Hdr) (num : BitVec 8) (a : Opnd)
  | lead (h : Hdr) (pd : BitVec 4)
  -- Floating point (R215 to R226)
  | fadd (h : Hdr) (o : FpOp)
  | fsub (h : Hdr) (o : FpOp)
  | fmul (h : Hdr) (o : FpOp)
  | fma (h : Hdr) (o : FpOp)
  | fmin (h : Hdr) (o : FpOp)
  | fmax (h : Hdr) (o : FpOp)
  | frcp (h : Hdr) (o : FpOp)
  | frsq (h : Hdr) (o : FpOp)
  | fsqrt (h : Hdr) (o : FpOp)
  | fexp2 (h : Hdr) (o : FpOp)
  | flog2 (h : Hdr) (o : FpOp)
  | fsin (h : Hdr) (o : FpOp)
  | fcos (h : Hdr) (o : FpOp)
  | fcmp (h : Hdr) (o : FcmpOp)
  | fclass (h : Hdr) (o : FpOp)
  | frnd (h : Hdr) (o : FpOp)
  | dot2 (h : Hdr) (o : FpOp)
  | pfma (h : Hdr) (o : FpOp)
  | pfmaCx (h : Hdr) (o : FpOp)
  | dadd (h : Hdr) (o : FpOp)
  | dmul (h : Hdr) (o : FpOp)
  | dfma (h : Hdr) (o : FpOp)
  -- Conversion, quantisation, keys, histogram, scan, quad differences (R227 to R236)
  | cvt (h : Hdr) (o : CvtOp)
  | pk (h : Hdr) (o : PkOp)
  | upk (h : Hdr) (o : UpkOp)
  | qnt (h : Hdr) (o : QntOp)
  | dqnt (h : Hdr) (o : DqntOp)
  | keyx (h : Hdr) (o : KeyOp)
  | hist (h : Hdr) (o : HistOp)
  | scan (h : Hdr) (o : ScanOp)
  | qdx (h : Hdr) (o : QdOp)
  | qdy (h : Hdr) (o : QdOp)
  -- Memory (R237 to R246)
  | ld (h : Hdr) (o : MemOp)
  | st (h : Hdr) (o : MemOp)
  | ldv (h : Hdr) (o : MemOp)
  | pf (h : Hdr) (o : MemOp)
  | atom (h : Hdr) (op : AOp) (o : MemOp)
  | atomCas (h : Hdr) (o : MemOp)
  | red (h : Hdr) (op : AOp) (o : MemOp)
  -- Fences, waits, barriers (R247 to R255)
  | fence (h : Hdr) (scope : Scope)
  | waitc (h : Hdr) (cls : Cls) (n : Opnd)
  | waitV (h : Hdr) (o : WaitVOp)
  | waitVReread (slot : Nat)
  | barArrive (h : Hdr) (scope : Scope) (id : BitVec 4)
  | barWait (h : Hdr) (scope : Scope) (id : BitVec 4)
  | boInit (h : Hdr) (a : Opnd) (count : Opnd)
  | boExpect (h : Hdr) (a : Opnd) (bytes : Opnd)
  | boArrive (h : Hdr) (d : Dst) (a : Opnd)
  | boArriveOnce (h : Hdr) (d : Dst) (a : Opnd)
  | boArriveExpect (h : Hdr) (d : Dst) (a : Opnd) (bytes : Opnd)
  | boArriveOnceExpect (h : Hdr) (d : Dst) (a : Opnd) (bytes : Opnd)
  | boWait (h : Hdr) (a : Opnd) (phase : Opnd)
  -- Copies, codebooks, matrix and sparse work (R257 to R278)
  | copyT (h : Hdr) (o : CopyOp)
  | copyTCb (h : Hdr) (o : CopyOp)
  | copyG (h : Hdr) (o : CopyOp)
  | copyS (h : Hdr) (o : CopyOp)
  | cbload (h : Hdr) (vec : BitVec 3) (tk : BitVec 6) (a : Opnd) (n : Opnd)
  | cbfree (h : Hdr)
  | tload (h : Hdr) (t : BitVec 4) (shared : Bool) (a : Opnd) (disp : Word)
  | tset (h : Hdr) (t m : BitVec 4) (q : BitVec 2) (a : Opnd)
  | jArm (h : Hdr) (j : BitVec 3) (mask : Opnd)
  | mma (h : Hdr) (o : MmaOp)
  | smma (h : Hdr) (o : MmaOp)
  | mxLd (h : Hdr) (acc : BitVec 3) (sp : Bool) (row0 col0 : Opnd) (tr : BitVec 4)
  | mxSt (h : Hdr) (o : MxStOp)
  | mxZero (h : Hdr) (acc : BitVec 3)
  | idxWalk (h : Hdr) (o : CopyOp)
  | idxGather (h : Hdr) (o : CopyOp)
  | rebal (h : Hdr) (o : RebalOp)
  -- Collections (R279 to R288)
  | collOpen (h : Hdr) (t : BitVec 4) (tk : BitVec 6) (a : Opnd)
  | collIns (h : Hdr) (d : Dst) (tr : BitVec 4) (key ofs pay : Opnd)
  | collRem (h : Hdr) (d : Dst) (tr : BitVec 4) (key ofs pay : Opnd)
  | collCommit (h : Hdr) (tr : BitVec 4) (tk : BitVec 6)
  | commitCollection (op : Nat)
  | collIter (h : Hdr) (t tr : BitVec 4) (lo hi : Opnd)
  | collNext (h : Hdr) (d : Dst) (tr : BitVec 4)
  | collCount (h : Hdr) (d : BitVec 6) (tr : BitVec 4) (lo hi : Opnd)
  | collClose (h : Hdr) (tr : BitVec 4)
  | generationReclaim (die k : Nat)
  -- The Carousel (R289 to R295, 06)
  | ringBoard (h : Hdr) (a : Opnd) (disp : Word)
  | ringAlight (h : Hdr) (a : Opnd) (disp : Word)
  | ringRd (h : Hdr) (o : RingWOp)
  | ringUp (h : Hdr) (op : ROp) (o : RingWOp)
  | ringUpPop (h : Hdr) (o : RingWOp)
  | ringCap (h : Hdr) (o : RingCOp)
  | ringRet (h : Hdr) (o : RingCOp)
  | ringRev (h : Hdr) (d : Dst)
  | ringWait (h : Hdr) (n : Opnd)
  | ringOpApply (die slot stop : Nat)
  | revolutionCount (die stop : Nat)
  | objectBoarding (die : Nat)
  | idleAlight (die slot : Nat)
  | alightWriteback (die slot : Nat)
  | captureTimeout (die slot : Nat)
  | remoteRingOp (die k : Nat)
  -- Pergola, trace, composite (R296 to R302)
  | pgBuild (h : Hdr) (tk : BitVec 6) (a : Opnd)
  | pgRefit (h : Hdr) (tk : BitVec 6) (a : Opnd)
  | pgRebal (h : Hdr) (tk : BitVec 6) (a : Opnd)
  | builderCommand (op : Nat)
  | pgPublish (h : Hdr) (tk : BitVec 6) (a : Opnd)
  | pgStat (h : Hdr) (hdr : Bool) (d : Dst) (a : Opnd)
  | trace (h : Hdr) (any : Bool) (d : Dst) (tk : BitVec 6) (a ray : Opnd)
  | pergolaReclaim (die k : Nat)
  | comp (h : Hdr) (tr : BitVec 4) (tk : BitVec 6) (x y key colour : Opnd)
  -- System and privileged instructions (R214)
  | tret (h : Hdr) (a : Opnd)
  | rdpriv (h : Hdr) (d : Dst) (num : BitVec 10)
  | wrpriv (h : Hdr) (num : BitVec 10) (a : Opnd)
  | saveGroup (h : Hdr) (slot handle : Opnd)
  | saveBlock (h : Hdr) (slot handle : Opnd)
  | restoreGroup (h : Hdr) (slot handle : Opnd)
  | restoreBlock (h : Hdr) (slot handle : Opnd)
  | halt (h : Hdr)
  | haltResume (slot : Nat)
  | intpendClear (h : Hdr) (a : Opnd)
  | xlinv (h : Hdr) (a : Opnd)
  | ringSnapshot (die : Nat)
  | ringSlotAlight (die : Nat)
  | ringDrain (die : Nat)
  | ringDrainEnd (die : Nat)
  | preemptRequest (core : Nat)
  | preemptWithdraw (core : Nat)
  | detach (core : Nat)
  | attach (core toCore toSlot : Nat)
  | go (core : Nat)
  | endBlock (core : Nat)
  | endLaunch (core : Nat)
  | saveDrainComplete (block : Nat)
  | signal (h : Hdr) (a : Opnd)
  | sigtkt (h : Hdr) (a : Opnd)
  | faultSignal (slot : Nat)
  -- Pages and memory (R79, R338, R88, R91, R92, R94)
  | pageMoveStart (die : Nat) (va : Addr) (newPa : Addr) (tier : Bool)
  | pageMoveEnd (k : Nat)
  | mixsizeReport (core k : Nat)
  -- Queues and blocks (R323 to R330, R23, R331)
  | queuePop (q : Nat)
  | blockPlace (launch : Nat) (places : List Nat)
  | staggerExpiry (block : Nat)
  | blockRetire (block : Nat)
  | groupExchange (out in_ : Nat)
  -- Engines and performs (R332, R277, R177, R104, R107)
  | matrixGrant (quad k : Nat)
  | indexCommandStart (die : Nat)
  | resultLand (slot k : Nat) (src : LoadSrc)
  | engineRetire (op : Nat)
  | engineWritePerform (op k : Nat)
  | storePerform (core k : Nat)
  | leaseExpiry (core k : Nat)
  | remoteCopyDrop (core k : Nat)
  -- The host and the pod (R352 to R359)
  | hostAccess (pa : Addr) (a : ExtAcc)
  | doorbell (q : Nat) (n : DWord)
  | hostInterrupt (cores : List Nat)
  | hostint (h : Hdr) (a : Opnd)
  | podRemoteAccess (pa : Addr) (a : ExtAcc)
  | sendAccept (core k : Nat)
  | sendDeliver (part : Nat) (rxofs : Nat) (data : List Byte)
  | partmapWrite (h : Hdr) (a : Opnd)
  | ucieModuleTrain (m : Fin 8) (up : Bool)
  -- Bring-up, errors, power (R360 to R369)
  | packageReset
  | firmwareVerification (header body : List Byte) (settings : List (BitVec 10 × DWord))
  | functionReady (f : Fn)
  | functionFail (f : Fn)
  | attaddr (h : Hdr) (a : Opnd)
  | correctedError (die kind unit bank : Nat)
  | eccWindowEnd (die : Nat)
  | eccwinWrite (h : Hdr) (a : Opnd)
  | memUncorr (block : Nat) (kind : BitVec 3) (pa : Addr)
  | throttleStep (die : Nat) (draw : Nat)
  | headroomCrit (die : Nat) (draw : Nat)
  | thermalTrip (die : Nat) (temp : BitVec 16)
  | thermalRelease (die : Nat) (temp : BitVec 16)
  | remoteBarrierArrival (sys : Bool) (id : BitVec 16) (members arrived exited : Nat) (popped : Bool)
  | scaleUpRouteChange (ports : BitVec 18) (scaleOut : Bool)
  deriving DecidableEq, Repr

end Sys2Proof
end

