-- ==== Sys2Proof/WellFormed.lean ====
section
/-! DEFINITION. Well-formed instructions: every check that the instruction word alone decides (R188, steps 5
and 6), as far as it can be broken by a term of Syntax. A term that fails one of them is the reading of a word
that faults with ILLEGAL_INSTR. Device steps have no encoding and are well formed. -/

namespace Sys2Proof

/-- Width of an integer code in bits. -/
def IntTy.width : IntTy → Nat
  | .i32 | .n32 => 32
  | .i64 | .n64 => 64
  | .i16 | .n16 => 16
  | .i8 | .n8 => 8

/-- The .iN codes read patterns as two's complement (R190). -/
def IntTy.signed : IntTy → Bool
  | .i32 | .i64 | .i16 | .i8 => true
  | .n32 | .n64 | .n16 | .n8 => false

/-- 64-bit operands are pairs (R190). -/
def IntTy.wide (t : IntTy) : Bool := t.width == 64

/-- Under VER 01 a short-class instruction must have CTL 0000 (R176). -/
def Hdr.short (h : Hdr) : Bool := !h.ver1 || h.ctl == 0

/-- A field that the instruction does not use (R179). -/
def Opnd.zero (o : Opnd) : Bool := o == .v 0

def Opnd.isLit : Opnd → Bool
  | .lit _ => true
  | _ => false

def Opnd.isNamed : Opnd → Bool
  | .named _ => true
  | _ => false

/-- A register selector (not an immediate). -/
def Opnd.isReg : Opnd → Bool
  | .v _ | .q _ | .l _ | .s _ | .b _ => true
  | .inl _ | .named _ | .lit _ => false

/-- The pair rules of R179 and R190 for a 64-bit operand. -/
def Opnd.pairOk : Opnd → Bool
  | .v i => i != 255
  | .q i => i != 15
  | .l i => i != 3
  | _ => true

def Dst.pairOk : Dst → Bool
  | .v i => i != 255
  | .q i => i != 15
  | _ => true

def Dst.isNone : Dst → Bool
  | .none => true
  | _ => false

/-- V and Q destinations (per thread). -/
def Dst.isVQ : Dst → Bool
  | .v _ | .q _ => true
  | _ => false

/-- An integer operand of the given width: no named constant (Table 10.7). -/
def Opnd.intOk (wide : Bool) (o : Opnd) : Bool := !o.isNamed && (!wide || o.pairOk)

/-- A 32-bit operand of formats S, B, X and E: no LIT word and no named constant. -/
def Opnd.op32 (o : Opnd) : Bool := !o.isNamed && !o.isLit

/-- A 64-bit operand of formats without a LIT word. -/
def Opnd.op64 (o : Opnd) : Bool := o.op32 && o.pairOk

/-- A floating-point operand in a 32-bit container. -/
def Opnd.fpOk (lit : Bool) (o : Opnd) : Bool := lit || !o.isLit

def Dst.intOk (wide : Bool) (d : Dst) : Bool := !d.isNone && (!wide || d.pairOk)

/-- A run of `n` registers in a destination (R279): V or Q only, not past V255 or Q15. -/
def Dst.runOk (n : Nat) : Dst → Bool
  | .v i => i.toNat + n ≤ 256
  | .q i => i.toNat + n ≤ 16
  | _ => false

def Opnd.runOk (n : Nat) : Opnd → Bool
  | .v i => i.toNat + n ≤ 256
  | .q i => i.toNat + n ≤ 16
  | _ => false

/-- The LIT words of an instruction's operands are the one LIT word of the instruction (R181). -/
def litsAgree : List Opnd → Bool
  | [] => true
  | .lit w :: t => t.all (fun o => match o with | .lit w' => w' == w | _ => true) && litsAgree t
  | _ :: t => litsAgree t

/-! ### Per family -/

/-- Arity 1, 2 or 3: the unused fields are zero. -/
def IntOp.arity (o : IntOp) (n : Nat) : Bool := (2 ≤ n || o.b.zero) && (3 ≤ n || o.c.zero)

def IntOp.ok (o : IntOp) (n : Nat) (satOk : Bool) : Bool :=
  o.arity n && (satOk || !o.sat) && o.d.intOk o.ty.wide && o.a.intOk o.ty.wide && o.b.intOk o.ty.wide &&
    o.c.intOk o.ty.wide && litsAgree [o.a, o.b, o.c]

/-- lea (R192, R193): a is 64 bits wide, b has the type's width, c is read for its low six bits. -/
def IntOp.leaOk (o : IntOp) : Bool :=
  (o.ty == .i32 || o.ty == .n32 || o.ty == .i64 || o.ty == .n64) && !o.sat && o.d.intOk true && o.a.intOk true &&
    o.b.intOk o.ty.wide && o.c.intOk o.ty.wide && litsAgree [o.a, o.b, o.c]

/-- bfx and bfi read pl at 32 bits (R190, R192). -/
def IntOp.bfxOk (o : IntOp) : Bool :=
  o.c.zero && !o.sat && o.d.intOk o.ty.wide && o.a.intOk o.ty.wide && o.b.intOk false && litsAgree [o.a, o.b]

def IntOp.bfiOk (o : IntOp) : Bool :=
  !o.sat && o.d.intOk o.ty.wide && o.a.intOk o.ty.wide && o.b.intOk o.ty.wide && o.c.intOk false &&
    litsAgree [o.a, o.b, o.c]

/-- Which rounding modes Table 12.1 accepts. -/
inductive RndSet where
  | rne | four | five
  deriving DecidableEq, Repr

def RndSet.ok : RndSet → Rnd → Bool
  | .rne, r => r == .rne
  | .four, r => r != .rs
  | .five, _ => true

/-- FP-code instructions (Table 12.1): arity, accepted modes, .sat, .ftz (only .f32), LIT allowed. -/
def FpOp.ok (o : FpOp) (n : Nat) (rs : RndSet) (sat ftz lit : Bool) : Bool :=
  (2 ≤ n || o.b.zero) && (3 ≤ n || o.c.zero) && rs.ok o.rnd && (sat || !o.sat) && (!o.ftz || (ftz && o.ty == .f32)) &&
    !o.d.isNone && o.a.fpOk lit && o.b.fpOk lit && o.c.fpOk lit && litsAgree [o.a, o.b, o.c]

/-- dot2 and pfma: SUB names .f16 or .bf16. -/
def FpOp.pairTy (o : FpOp) : Bool := o.ty != .f32

/-- FP64 instructions: SUB 000, pairs throughout. -/
def FpOp.f64Ok (o : FpOp) (n : Nat) : Bool :=
  o.ty == .f32 && (2 ≤ n || o.b.zero) && (3 ≤ n || o.c.zero) && o.rnd != .rs && !o.ftz && !o.d.isNone && o.d.pairOk &&
    o.a.pairOk && o.b.pairOk && o.c.pairOk && litsAgree [o.a, o.b, o.c]

/-- The formats of pk and upk with their element counts (R228). -/
def Ty.packCount : Ty → Option Nat
  | .f16 | .bf16 => some 2
  | .e5m2 | .e4m3 | .mxi8 => some 4
  | .e3m2 | .e2m3 => some 5
  | .e2m1 => some 8
  | _ => none

def Ty.isMx : Ty → Bool
  | .mxi8 | .mxe5m2 | .mxe4m3 | .mxe3m2 | .mxe2m3 | .mxe2m1 => true
  | _ => false

def Ty.isInt : Ty → Bool
  | .i8 | .i16 | .i32 | .i64 | .n8 | .n16 | .n32 | .n64 => true
  | _ => false

/-- The floating-point types of cvt and keyx. -/
def Ty.isFp : Ty → Bool
  | .f64 | .f32 | .f16 | .bf16 => true
  | _ => false

/-- Types held in a 64-bit pair. -/
def Ty.wide : Ty → Bool
  | .b64 | .i64 | .n64 | .f64 => true
  | _ => false

def CvtOp.modesOk (o : CvtOp) : Bool :=
  if o.tyTo.isFp then
    o.rnd != .rs || o.tyTo == .f32 || o.tyTo == .f16 || o.tyTo == .bf16
  else if o.tyFr.isFp then o.rnd != .rs
  else o.rnd == .rne

def CvtOp.ok (o : CvtOp) : Bool :=
  (o.tyTo.isInt || o.tyTo.isFp) && (o.tyFr.isInt || o.tyFr.isFp) && o.modesOk &&
    (!o.ftz || o.tyTo == .f32 || o.tyFr == .f32) && !o.d.isNone && (!o.tyTo.wide || o.d.pairOk) &&
    (!o.tyFr.wide || o.a.pairOk) && (o.tyFr.isFp || !o.a.isNamed)

def PkOp.ok (o : PkOp) : Bool :=
  match o.fmt.packCount with
  | none => false
  | some n => !o.d.isNone && o.a.runOk n

def UpkOp.ok (o : UpkOp) : Bool :=
  match o.fmt.packCount with
  | none => false
  | some n => o.i.toNat < n && !o.d.isNone && !o.a.isNamed

def QntOp.ok (o : QntOp) : Bool := o.fmt.isMx && !o.d.isNone

def DqntOp.ok (o : DqntOp) : Bool :=
  match o.fmt.packCount with
  | none => false
  | some n => 2 < n && o.i.toNat < n && o.rnd != .rs && !o.d.isNone && !o.a.isNamed && !o.c.isNamed &&
      litsAgree [o.a, o.c]

def KeyOp.ok (o : KeyOp) : Bool :=
  (o.ty.isInt || o.ty.isFp) && !o.d.isNone && (!o.ty.wide || (o.d.pairOk && o.a.pairOk)) && ((o.ty.isFp && !o.inv) || !o.a.isNamed)

def HistOp.ok (o : HistOp) : Bool :=
  0 < o.width.toNat && o.width.toNat ≤ 11 && o.shift.toNat + o.width.toNat ≤ (if o.wide then 64 else 32) &&
    o.key.intOk o.wide && o.base.intOk false && litsAgree [o.key, o.base]

def ScanOp.ok (o : ScanOp) : Bool :=
  !(o.excl && o.all) && (o.ty == .f32 || o.ty == .i32 || o.ty == .n32) &&
    ((o.ty == .f32 && o.fn == .add && o.rnd != .rs) || o.rnd == .rne) && (!o.ftz || (o.ty == .f32 && o.fn == .add)) &&
    !o.d.isNone && (o.ty == .f32 || !o.a.isNamed)

def QdOp.ok (o : QdOp) : Bool := o.rnd != .rs && !o.d.isNone

/-! ### Memory and synchronisation -/

/-- Access size in bytes of MTY (R239). -/
def Ty.bytes : Ty → Nat
  | .b8 | .i8 | .n8 => 1
  | .b16 | .i16 | .n16 | .f16 | .bf16 => 2
  | .b32 | .i32 | .n32 | .f32 => 4
  | .b64 | .i64 | .n64 | .f64 => 8
  | .b128 => 16
  | _ => 1

/-- Registers of an `n`-byte operand (R239). -/
def regCount (n : Nat) : Nat := Nat.max 1 (n / 4)

/-- Base of a memory operand (R237): a 64-bit S, B or even V pair; in scratchpad a 32-bit register. -/
def baseOk (sp : Space) (o : Opnd) : Bool :=
  match sp, o with
  | .s, .v _ | .s, .q _ | .s, .l _ | .s, .s _ | .s, .b _ => true
  | _, .s _ | _, .b _ => true
  | _, .v i => i.toNat % 2 == 0
  | _, _ => false

def offOk : Opnd → Bool
  | .v _ | .q _ | .l _ => true
  | .inl i => i == 0
  | _ => false

/-- A source of `n` bytes (R239). Named constants belong to floating-point types (Table 10.7). -/
def dataOk (ty : Ty) (o : Opnd) : Bool :=
  match o with
  | .v i => i.toNat + regCount ty.bytes ≤ 256
  | .q i => i.toNat + regCount ty.bytes ≤ 16
  | .l _ => false
  | .s _ | .b _ => regCount ty.bytes ≤ 2
  | .inl _ => ty.bytes ≤ 8
  | .named _ => ty.isFp
  | .lit _ => false

def mdstOk (ty : Ty) (d : Dst) : Bool :=
  match d with
  | .v i => i.toNat + regCount ty.bytes ≤ 256
  | .q i => i.toNat + regCount ty.bytes ≤ 16
  | .s _ | .b _ => regCount ty.bytes ≤ 2
  | .none => false

def MemOp.strengthOk (o : MemOp) : Bool := o.strong || o.ord == .rlx

def ldTy : Ty → Bool
  | .b8 | .i8 | .b16 | .i16 | .b32 | .b64 | .b128 => true
  | _ => false

def stTy : Ty → Bool
  | .b8 | .b16 | .b32 | .b64 | .b128 => true
  | _ => false

def MemOp.ldOk (o : MemOp) : Bool :=
  ldTy o.ty && o.strengthOk && (o.ord == .rlx || o.ord == .acq) && (!o.strong || o.space == .g || o.space == .s) &&
    mdstOk o.ty o.d && baseOk o.space o.base && offOk o.off && o.data.zero

def MemOp.ldvOk (o : MemOp) : Bool :=
  (o.ty == .b32 || o.ty == .b64) && o.space == .g && o.strengthOk && (o.ord == .rlx || o.ord == .acq) &&
    mdstOk o.ty o.d && baseOk o.space o.base && offOk o.off && o.data.zero

def MemOp.stOk (o : MemOp) : Bool :=
  stTy o.ty && o.strengthOk && (o.ord == .rlx || o.ord == .rel) && o.space != .c &&
    (!o.strong || o.space != .l) && o.d.isNone && baseOk o.space o.base && offOk o.off && dataOk o.ty o.data

def MemOp.pfOk (o : MemOp) : Bool :=
  o.ty == .b8 && o.space != .s && !o.strong && o.ord == .rlx && o.d.isNone && baseOk o.space o.base &&
    offOk o.off && o.data.zero

/-- Table 13.2. -/
def AOp.tyOk (op : AOp) (t : Ty) : Bool :=
  match op with
  | .add => t == .i32 || t == .n32 || t == .i64 || t == .n64 || t == .f32 || t == .f64
  | .min | .max => t == .i32 || t == .n32 || t == .i64 || t == .n64 || t == .f32
  | .and | .or | .xor | .xch => t == .b32 || t == .b64

def MemOp.atomOk (o : MemOp) (op : AOp) : Bool :=
  op.tyOk o.ty && (o.space == .g || o.space == .s) && o.strong && (o.d.isNone || mdstOk o.ty o.d) &&
    baseOk o.space o.base && offOk o.off && dataOk o.ty o.data

def MemOp.casOk (o : MemOp) : Bool :=
  (o.ty == .b32 || o.ty == .b64 || o.ty == .b128) && (o.space == .g || o.space == .s) && o.strong &&
    (o.d.isNone || mdstOk o.ty o.d) && baseOk o.space o.base && dataOk o.ty o.off && dataOk o.ty o.data

def MemOp.redOk (o : MemOp) (op : AOp) : Bool :=
  op != .xch && op.tyOk o.ty && o.space == .g && !o.strong && o.ord == .rlx && o.d.isNone && baseOk o.space o.base &&
    offOk o.off && dataOk o.ty o.data

/-- Barrier scopes and ids (R251). -/
def barOk (sc : Scope) (id : BitVec 4) : Bool := sc == .blk || (sc != .grp && id == 0)

def WaitVOp.ok (o : WaitVOp) : Bool :=
  (o.ty == .b32 || o.ty == .n32 || o.ty == .i32 || o.ty == .b64 || o.ty == .n64 || o.ty == .i64) &&
    baseOk (if o.shared then .s else .g) o.base && o.a.op32 && (!o.ty.wide || o.a.pairOk)

/-- An object offset (R254): a 32-bit register or an inline constant. -/
def Opnd.objOk (o : Opnd) : Bool := o.op32

/-- Phase destination of bo.arrive. -/
def boDst : Dst → Bool
  | .v _ | .q _ | .s _ | .b _ | .none => true

/-! ### Engines, collections, ring, Pergola -/

def CopyOp.tileOk (o : CopyOp) : Bool :=
  !o.col && o.a.op32 && o.b.op32 && (if o.bo then o.c.op32 else o.c.zero)

def CopyOp.walkOk (o : CopyOp) : Bool :=
  !o.col && o.a.op32 && o.b.zero && o.tr == 0 && (if o.bo then o.c.op32 else o.c.zero)

def CopyOp.gatherOk (o : CopyOp) : Bool :=
  o.a.op32 && o.b.op32 && (if o.bo then o.c.op32 else o.c.zero)

def MmaOp.ok (o : MmaOp) : Bool :=
  o.row0.op32 && o.col0.op32 && o.k0.op32 && (!(o.aS && o.bS) || o.k0 == .inl 0)

def MxStOp.ok (o : MxStOp) : Bool := o.rnd != .rs && o.row0.op32 && o.col0.op32 && (!o.sp || o.col0 == .inl 0)

def RebalOp.ok (o : RebalOp) : Bool :=
  o.d.isVQ && o.d.pairOk && o.a.op32 && o.b.op32 && o.c.op32 && (o.tot || o.tk == 0)

/-- The scopes a ring instruction accepts (R279). -/
def ringScope : Scope → Bool
  | .die | .pkg | .pod | .sys => true
  | _ => false

def RingWOp.rdOk (o : RingWOp) : Bool :=
  (o.ty == .b32 || o.ty == .b64) && (o.ord == .rlx || o.ord == .acq) && ringScope o.scope && !o.d.isNone &&
    mdstOk o.ty o.d && o.a.op64 && o.v.zero && o.c.zero

/-- Types of ring.up (Table 15.6). -/
def ROp.tyOk (op : ROp) (t : Ty) : Bool :=
  match op with
  | .add | .min | .max => t == .i32 || t == .n32 || t == .i64 || t == .n64
  | .and | .or | .xch | .cas => t == .b32 || t == .b64

def RingWOp.upOk (o : RingWOp) (op : ROp) : Bool :=
  op.tyOk o.ty && ringScope o.scope && (o.d.isNone || mdstOk o.ty o.d) && o.a.op64 && o.v.op32 && o.c.op32 &&
    (!o.ty.wide || (o.v.pairOk && o.c.pairOk)) && (op == .cas || o.c.zero)

def RingWOp.popOk (o : RingWOp) : Bool :=
  o.ty == .b128 && ringScope o.scope && o.d.runOk 4 && o.a.op64 && o.v.op32 && o.c.zero

def RingCOp.capOk (o : RingCOp) : Bool :=
  (o.ord == .rlx || o.ord == .acq) && ringScope o.scope && o.run.runOk 16 && o.a.op64

def RingCOp.retOk (o : RingCOp) : Bool :=
  (o.ord == .rlx || o.ord == .rel) && ringScope o.scope && o.run.runOk 16 && o.a.zero && o.disp == 0

/-! ### Special and privileged registers -/

/-- Width (64-bit when true), readable, writable of each assigned register number
(Tables 2.4, 21.1, 22.1, 23.4, 24.1); `none` where no table assigns the number. -/
def regInfo (n : Nat) : Option (Bool × Bool × Bool) :=
  match n with
  | 0x00 | 0x01 | 0x02 | 0x03 | 0x04 | 0x05 | 0x06 | 0x07 | 0x0C | 0x0D => some (false, true, false)
  | 0x08 => some (true, true, true)
  | 0x09 | 0x0A | 0x0B => some (true, true, false)
  | 0x40 => some (false, true, false)
  | 0x41 | 0x42 | 0x43 | 0x45 => some (true, true, true)
  | 0x44 => some (false, true, false)
  | 0x46 | 0x47 | 0x48 | 0x49 => some (false, true, true)
  | 0x4A | 0x4B | 0x4D => some (true, true, false)
  | 0x4C => some (false, false, true)
  | 0x80 | 0x81 | 0x83 | 0x86 | 0x8A => some (true, true, true)
  | 0x82 | 0x85 | 0x89 => some (true, false, true)
  | 0x84 => some (false, true, true)
  | 0x87 => some (false, false, true)
  | 0x88 => some (false, true, false)
  | 0x100 | 0x101 | 0x105 => some (false, true, false)
  | 0x102 | 0x103 => some (false, true, true)
  | 0x104 => some (false, false, true)
  | 0x106 | 0x107 | 0x108 => some (true, true, true)
  | 0x109 => some (true, true, false)
  | 0x180 | 0x182 | 0x186 | 0x188 | 0x193 | 0x199 | 0x19B => some (false, true, false)
  | 0x181 | 0x183 | 0x194 => some (true, true, false)
  | 0x184 => some (true, true, true)
  | 0x185 | 0x190 | 0x191 | 0x192 | 0x198 | 0x19A => some (false, true, true)
  | 0x187 => some (true, false, true)
  | _ => none

def readOk (d : Dst) (n : Nat) : Bool :=
  match regInfo n with
  | some (w, r, _) => r && d.intOk w
  | none => false

def writeOk (a : Opnd) (n : Nat) : Bool :=
  match regInfo n with
  | some (w, _, wr) => wr && a.op32 && (!w || a.pairOk)
  | none => false

/-- The registers whose write is a step of its own in the opcode table. -/
def ownWrite (n : Nat) : Bool :=
  n == 0x47 || n == 0x82 || n == 0x85 || n == 0x89 || n == 0x102 || n == 0x104 || n == 0x187 || n == 0x190

/-- Well-formedness of an instruction (R188, steps 5 and 6). -/
def Instr.wf : Instr → Bool
  | .add h o | .sub h o | .mulLo h o => h.short && o.ok 2 true
  | .mulHi h o => h.short && o.ok 2 false
  | .mad h o => h.short && o.ok 3 true
  | .min h o | .max h o => h.short && o.ok 2 false
  | .abs h o | .neg h o => h.short && o.ok 1 true
  | .and h o | .or h o | .xor h o => h.short && o.ok 2 false
  | .not h o => h.short && o.ok 1 false
  | .shl h o | .shr h o | .sar h o => h.short && o.ok 2 false
  | .bfx h o => h.short && o.bfxOk
  | .bfi h o => h.short && o.bfiOk
  | .popc h o | .clz h o | .ctz h o | .brev h o => h.short && o.ok 1 false
  | .sel h o => h.short && o.d.intOk o.ty.wide && o.a.intOk o.ty.wide && o.b.intOk o.ty.wide && litsAgree [o.a, o.b]
  | .cmp h o => h.short && o.a.intOk o.ty.wide && o.b.intOk o.ty.wide && litsAgree [o.a, o.b]
  | .lea h o => h.short && o.leaOk
  | .mov h o => h.short && o.ok 1 false
  | .moviB32 h d _ => h.short && d.intOk false
  | .moviB64 h d _ => h.short && d.intOk true
  | .movs h o =>
      h.short && (match o.d with | .s _ | .b _ => true | _ => false) && o.a.op32 && (!o.wide || o.a.pairOk) &&
        o.lane.op32 && (!o.first || o.lane.zero)
  | .xlane h o => h.short && o.d.intOk false && o.a.op32 && o.b.op32 && o.c.op32
  | .agree h _ _ _ => h.short
  | .pmask h _ d _ | .lane h _ d => h.short && !d.isNone
  | .pand h _ _ _ | .por h _ _ _ | .pxor h _ _ _ | .pnot h _ _ | .pmov h _ _ => h.short
  | .pmovPk h d => h.short && d.isVQ
  | .pmovUpk h a => h.short && a.op32
  | .bra h _ | .meetSet h _ | .meet h | .meetBrk h | .exit h => h.short
  | .braInd h a | .ret h a | .meetSetFrom h a => h.short && a.op64
  | .call h l _ | .meetSetXch h l _ => h.short && l != 255
  | .nap h a => h.short && a.op32
  | .region h v1 n1 v2 n2 =>
      h.short && n1.toNat + n2.toNat ≤ 16 && v1.toNat + n1.toNat ≤ 256 && v2.toNat + n2.toNat ≤ 256 &&
        (n1 != 0 || v1 == 0) && (n2 != 0 || v2 == 0)
  | .regionEnd h | .grow h | .shrink h | .phint h _ _ _ | .contSet h _ _ | .contSetClr h | .contResume h _
  | .trap h _ | .brkpt h | .lead h _ => h.short
  | .rdsp h d n => h.short && readOk d n.toNat
  | .wrsp h n a => h.short && n == 0x08 && a.op64
  | .fadd h o | .fsub h o | .fmul h o => h.short && o.ok 2 .five true true true
  | .fma h o => h.short && o.ok 3 .five true true true
  | .fmin h o | .fmax h o => h.short && o.ok 2 .rne false true true
  | .frcp _ o | .fsqrt _ o => o.ok 1 .four true true false
  | .frsq _ o | .fexp2 _ o | .flog2 _ o | .fsin _ o | .fcos _ o => o.ok 1 .rne false true false
  | .fcmp h o =>
      h.short && (!o.ftz || o.ty == .f32) && (o.ty == .f32 || o.pd.toNat % 2 == 0) && litsAgree [o.a, o.b]
  | .fclass h o => h.short && o.ok 1 .rne false false true
  | .frnd h o => h.short && o.ok 1 .four false true true
  | .dot2 h o =>
      h.short && o.pairTy && !o.d.isNone && litsAgree [o.a, o.b, o.c]
  | .pfma h o | .pfmaCx h o => h.short && o.pairTy && !o.ftz && !o.d.isNone && litsAgree [o.a, o.b, o.c]
  | .dadd h o | .dmul h o => h.short && o.f64Ok 2
  | .dfma h o => h.short && o.f64Ok 3
  | .cvt h o => h.short && o.ok
  | .pk h o => h.short && o.ok
  | .upk h o => h.short && o.ok
  | .qnt h o => h.short && o.ok
  | .dqnt h o => h.short && o.ok
  | .keyx h o => h.short && o.ok
  | .hist _ o => o.ok
  | .scan _ o => o.ok
  | .qdx h o | .qdy h o => h.short && o.ok
  | .ld _ o => o.ldOk
  | .st h o => h.short && o.stOk
  | .ldv _ o => o.ldvOk
  | .pf h o => h.short && o.pfOk
  | .atom _ op o => o.atomOk op
  | .atomCas _ o => o.casOk
  | .red h op o => h.short && o.redOk op
  | .fence h _ => h.short
  | .waitc h _ n => h.short && n.op32
  | .waitV h o => h.short && o.ok
  | .barArrive h sc id | .barWait h sc id => h.short && barOk sc id
  | .boInit h a c | .boExpect h a c => h.short && a.objOk && c.op32
  | .boArrive h d a | .boArriveOnce h d a => h.short && boDst d && a.objOk
  | .boArriveExpect h d a b | .boArriveOnceExpect h d a b => h.short && boDst d && a.objOk && b.op32
  | .boWait h a p => h.short && a.objOk && p.op32
  | .copyT _ o | .copyTCb _ o | .copyG _ o | .copyS _ o => o.tileOk
  | .cbload _ vec _ a n => vec.toNat ≤ 4 && a.op64 && n.op32
  | .cbfree _ => true
  | .tload _ _ sh a _ => if sh then a.op32 else a.op64
  | .tset _ _ _ _ a => a.op64
  | .jArm _ _ m => m.op32
  | .mma _ o => o.ok && o.md == 0
  | .smma _ o => o.ok
  | .mxLd _ _ sp r c _ => r.op32 && c.op32 && (!sp || c.zero)
  | .mxSt _ o => o.ok
  | .mxZero _ _ => true
  | .idxWalk _ o => o.walkOk
  | .idxGather _ o => o.gatherOk
  | .rebal _ o => o.ok
  | .collOpen _ _ _ a => a.op64
  | .collIns _ d _ k f p | .collRem _ d _ k f p =>
      (d.isNone || d.isVQ) && k.op64 && f.op32 && p.op32
  | .collCommit _ _ _ | .collClose _ _ => true
  | .collIter _ _ _ lo hi | .collCount _ _ _ lo hi => lo.op64 && hi.op64
  | .collNext _ d _ => d.runOk 4
  | .ringBoard h a _ | .ringAlight h a _ => h.short && a.op64
  | .ringRd _ o => o.rdOk
  | .ringUp _ op o => o.upOk op
  | .ringUpPop _ o => o.popOk
  | .ringCap _ o => o.capOk
  | .ringRet h o => h.short && o.retOk
  | .ringRev _ d => !d.isNone && d.pairOk
  | .ringWait h n => h.short && n.op64
  | .pgBuild _ _ a | .pgRefit _ _ a | .pgRebal _ _ a | .pgPublish _ _ a => a.op64
  | .pgStat _ _ d a => d.runOk 8 && a.op64
  | .trace _ any d _ a r => d.runOk (if any then 1 else 5) && a.op64 && r.runOk 8
  | .comp _ _ _ x y k c => x.op32 && y.op32 && k.op32 && c.runOk 4
  | .tret h a => h.short && a.op64
  | .rdpriv h d n => h.short && readOk d n.toNat
  | .wrpriv h n a => h.short && writeOk a n.toNat && !ownWrite n.toNat
  | .saveGroup h a b | .saveBlock h a b | .restoreGroup h a b | .restoreBlock h a b => h.short && a.op64 && b.op64
  | .halt h => h.short
  | .intpendClear h a => h.short && a.op32
  | .partmapWrite h a | .hostint h a | .eccwinWrite h a => h.short && a.op32
  | .xlinv h a | .signal h a | .sigtkt h a | .attaddr h a => h.short && a.op64
  | .napExpiry _ _ | .growGrant _ | .growStall _ _ | .handlerRecordAppend _ | .waitVReread _ | .commitCollection _
  | .generationReclaim _ _ | .ringOpApply _ _ _ | .revolutionCount _ _ | .objectBoarding _ | .idleAlight _ _
  | .alightWriteback _ _ | .captureTimeout _ _ | .remoteRingOp _ _ | .builderCommand _ | .pergolaReclaim _ _
  | .haltResume _ | .ringSnapshot _ | .ringSlotAlight _ | .ringDrain _ | .ringDrainEnd _ | .preemptRequest _
  | .preemptWithdraw _ | .detach _ | .attach _ _ _ | .go _ | .endBlock _ | .endLaunch _ | .saveDrainComplete _
  | .faultSignal _ | .pageMoveStart _ _ _ _ | .pageMoveEnd _ | .mixsizeReport _ _ | .queuePop _ | .blockPlace _ _
  | .staggerExpiry _ | .blockRetire _ | .groupExchange _ _ | .matrixGrant _ _ | .indexCommandStart _
  | .resultLand _ _ _ | .engineRetire _ | .engineWritePerform _ _ | .storePerform _ _ | .leaseExpiry _ _
  | .remoteCopyDrop _ _ | .hostAccess _ _ | .doorbell _ _ | .hostInterrupt _ | .podRemoteAccess _ _
  | .sendAccept _ _ | .sendDeliver _ _ _ | .ucieModuleTrain _ _ | .packageReset | .firmwareVerification _ _ _
  | .functionReady _ | .functionFail _ | .correctedError _ _ _ _ | .eccWindowEnd _ | .memUncorr _ _ _
  | .throttleStep _ _ | .headroomCrit _ _ | .thermalTrip _ _ | .thermalRelease _ _
  | .remoteBarrierArrival _ _ _ _ _ _ | .scaleUpRouteChange _ _ => true

end Sys2Proof
end

