-- ==== Sys2Proof/Decode.lean ====
section
/-! DEFINITION. Decoding and encoding of instruction words (R174 to R189). An instruction is read as one number
whose bit 0 is the least significant bit of its first 32-bit word. -/

namespace Sys2Proof

/-- Why a word is no instruction (R188). -/
inductive Reject where
  /-- ILLEGAL_INSTR: R188 steps 2, 3, 5 and 6. -/
  | illegal
  /-- PRIV_INSTR: R188 steps 4 and 6. -/
  | privileged
  deriving DecidableEq, Repr

/-- Bits `lo + n - 1 : lo` of `w`. -/
def fld (w lo n : Nat) : Nat := w / 2 ^ lo % 2 ^ n

/-! ### Header and fields -/

/-- Length in bytes that LEN gives (R175); `none` for a pad word. -/
def lenBytes (len : Nat) : Option Nat :=
  match len with
  | 0 => some 8
  | 1 => some 12
  | 2 => some 16
  | _ => none

def decHdr (w : Nat) : Hdr :=
  { neg := fld w 20 1 == 1, grd := BitVec.ofNat 4 (fld w 16 4), ver1 := fld w 2 2 == 1,
    ctl := BitVec.ofNat 4 (fld w 12 4) }

def encHdr (h : Hdr) (len op sub d : Nat) : Nat :=
  len + 4 * h.ver1.toNat + 16 * op + 4096 * h.ctl.toNat + 65536 * h.grd.toNat + 1048576 * h.neg.toNat +
    2097152 * sub + 16777216 * d

/-- A 10-bit operand field (Table 2.2, Table 10.7). -/
def decOpnd (lit : Option Word) (f : Nat) : Option Opnd :=
  if f < 256 then some (.v (BitVec.ofNat 8 f))
  else if f < 272 then some (.q (BitVec.ofNat 4 (f - 256)))
  else if f < 512 then none
  else if f < 516 then some (.l (BitVec.ofNat 2 (f - 512)))
  else if f < 768 then none
  else if f < 832 then some (.s (BitVec.ofNat 6 (f - 768)))
  else if f < 896 then some (.b (BitVec.ofNat 6 (f - 832)))
  else if f < 960 then some (.inl (BitVec.ofNat 6 (f - 896)))
  else if f < 968 then some (.named (BitVec.ofNat 3 (f - 960)))
  else if f = 992 then lit.map .lit
  else none

def encOpnd : Opnd → Nat
  | .v i => i.toNat
  | .q i => 256 + i.toNat
  | .l i => 512 + i.toNat
  | .s i => 768 + i.toNat
  | .b i => 832 + i.toNat
  | .inl i => 896 + i.toNat
  | .named i => 960 + i.toNat
  | .lit _ => 992

/-- DSEL and D (Table 10.6); DSEL 11 names no register and D must be 0. -/
def decDst (dsel d : Nat) : Option Dst :=
  match dsel with
  | 0 => some (.v (BitVec.ofNat 8 d))
  | 1 => if d < 16 then some (.q (BitVec.ofNat 4 d)) else none
  | 2 => if d < 64 then some (.s (BitVec.ofNat 6 d)) else if d < 128 then some (.b (BitVec.ofNat 6 (d - 64))) else none
  | _ => if d = 0 then some .none else none

def Dst.sel : Dst → Nat
  | .v _ => 0
  | .q _ => 1
  | .s _ => 2
  | .b _ => 2
  | .none => 3

def Dst.idx : Dst → Nat
  | .v i => i.toNat
  | .q i => i.toNat
  | .s i => i.toNat
  | .b i => 64 + i.toNat
  | .none => 0

def decPred (f : Nat) : Option PredF :=
  if f < 32 then some { neg := fld f 4 1 == 1, p := BitVec.ofNat 4 (fld f 0 4) } else none

def encPred (q : PredF) : Nat := q.p.toNat + 16 * q.neg.toNat

def decIntTy (n : Nat) : IntTy :=
  match n with
  | 0 => .i32 | 1 => .n32 | 2 => .i64 | 3 => .n64 | 4 => .i16 | 5 => .n16 | 6 => .i8 | _ => .n8

def encIntTy : IntTy → Nat
  | .i32 => 0 | .n32 => 1 | .i64 => 2 | .n64 => 3 | .i16 => 4 | .n16 => 5 | .i8 => 6 | .n8 => 7

def decFpTy (n : Nat) : Option FpTy :=
  match n with
  | 0 => some .f32 | 1 => some .f16 | 2 => some .bf16 | _ => none

def encFpTy : FpTy → Nat
  | .f32 => 0 | .f16 => 1 | .bf16 => 2

/-- SUB of dot2 and pfma: 000 .f16, 001 .bf16. -/
def decPairTy (n : Nat) : Option FpTy :=
  match n with
  | 0 => some .f16 | 1 => some .bf16 | _ => none

def encPairTy : FpTy → Nat
  | .bf16 => 1 | _ => 0

/-- Table 10.8. -/
def decTy (n : Nat) : Option Ty :=
  match n with
  | 0 => some .b8 | 1 => some .b16 | 2 => some .b32 | 3 => some .b64 | 4 => some .b128 | 5 => some .i8 | 6 => some .i16
  | 7 => some .i32 | 8 => some .i64 | 9 => some .n8 | 10 => some .n16 | 11 => some .n32 | 12 => some .n64
  | 13 => some .f64 | 14 => some .f32 | 15 => some .f16 | 16 => some .bf16 | 17 => some .e4m3 | 18 => some .e5m2
  | 19 => some .e3m2 | 20 => some .e2m3 | 21 => some .e2m1 | 22 => some .mxi8 | 23 => some .mxe5m2
  | 24 => some .mxe4m3 | 25 => some .mxe3m2 | 26 => some .mxe2m3 | 27 => some .mxe2m1 | _ => none

def encTy : Ty → Nat
  | .b8 => 0 | .b16 => 1 | .b32 => 2 | .b64 => 3 | .b128 => 4 | .i8 => 5 | .i16 => 6 | .i32 => 7 | .i64 => 8
  | .n8 => 9 | .n16 => 10 | .n32 => 11 | .n64 => 12 | .f64 => 13 | .f32 => 14 | .f16 => 15 | .bf16 => 16 | .e4m3 => 17
  | .e5m2 => 18 | .e3m2 => 19 | .e2m3 => 20 | .e2m1 => 21 | .mxi8 => 22 | .mxe5m2 => 23 | .mxe4m3 => 24
  | .mxe3m2 => 25 | .mxe2m3 => 26 | .mxe2m1 => 27

def decRnd (n : Nat) : Option Rnd :=
  match n with
  | 0 => some .rne | 1 => some .rz | 2 => some .rd | 3 => some .ru | 4 => some .rs | _ => none

def encRnd : Rnd → Nat
  | .rne => 0 | .rz => 1 | .rd => 2 | .ru => 3 | .rs => 4

def decScope (n : Nat) : Option Scope :=
  match n with
  | 0 => some .grp | 1 => some .blk | 2 => some .quad | 3 => some .die | 4 => some .pkg | 5 => some .pod | 6 => some .sys
  | _ => none

def encScope : Scope → Nat
  | .grp => 0 | .blk => 1 | .quad => 2 | .die => 3 | .pkg => 4 | .pod => 5 | .sys => 6

def decOrder (n : Nat) : Order :=
  match n with
  | 0 => .rlx | 1 => .acq | 2 => .rel | _ => .acqrel

def encOrder : Order → Nat
  | .rlx => 0 | .acq => 1 | .rel => 2 | .acqrel => 3

def decSpace (n : Nat) : Space :=
  match n with
  | 0 => .g | 1 => .s | 2 => .c | _ => .l

def encSpace : Space → Nat
  | .g => 0 | .s => 1 | .c => 2 | .l => 3

def decCond (n : Nat) : Option Cond :=
  match n with
  | 0 => some .eq | 1 => some .ne | 2 => some .lt | 3 => some .le | 4 => some .gt | 5 => some .ge | _ => none

def encCond : Cond → Nat
  | .eq => 0 | .ne => 1 | .lt => 2 | .le => 3 | .gt => 4 | .ge => 5

def decFCond (n : Nat) : Option FCond :=
  match n with
  | 0 => some .eq | 1 => some .ne | 2 => some .lt | 3 => some .le | 4 => some .gt | 5 => some .ge | 6 => some .un
  | 7 => some .ord | _ => none

def encFCond : FCond → Nat
  | .eq => 0 | .ne => 1 | .lt => 2 | .le => 3 | .gt => 4 | .ge => 5 | .un => 6 | .ord => 7

def decCls (n : Nat) : Option Cls :=
  match n with
  | 0 => some .copy | 1 => some .mtx | 2 => some .gs | 3 => some .send | 4 => some .coll | 5 => some .pg | _ => none

def encCls : Cls → Nat
  | .copy => 0 | .mtx => 1 | .gs => 2 | .send => 3 | .coll => 4 | .pg => 5

/-- SUB of atom (0 to 6) and red (0 to 5), Table 10.14; cas (7) is a constructor of its own. -/
def decAOp (n : Nat) : Option AOp :=
  match n with
  | 0 => some .add | 1 => some .min | 2 => some .max | 3 => some .and | 4 => some .or | 5 => some .xor | 6 => some .xch
  | _ => none

def encAOp : AOp → Nat
  | .add => 0 | .min => 1 | .max => 2 | .and => 3 | .or => 4 | .xor => 5 | .xch => 6

/-- SUB of ring.up (Table 10.14); pop (7) is a constructor of its own. -/
def decROp (n : Nat) : Option ROp :=
  match n with
  | 0 => some .add | 1 => some .min | 2 => some .max | 3 => some .and | 4 => some .or | 5 => some .xch | 6 => some .cas
  | _ => none

def encROp : ROp → Nat
  | .add => 0 | .min => 1 | .max => 2 | .and => 3 | .or => 4 | .xch => 5 | .cas => 6

/-! ### The words after the header -/

/-- The header's minor fields and the second word. -/
structure Raw where
  h : Hdr
  len : Nat
  op : Nat
  sub : Nat
  d : Nat
  dsel : Nat
  sa : Nat
  sb : Nat
  sc : Nat
  /-- Word 3: MOD, MEM, REC or the LIT of format I. -/
  w2 : Nat
  /-- Word 4: LIT or EXT. -/
  w3 : Nat
  deriving DecidableEq, Repr

/-- The fields of an instruction; words beyond its length read as zero. -/
def decRaw (w : Nat) : Raw :=
  { h := decHdr w, len := fld w 0 2, op := fld w 4 8, sub := fld w 21 3, d := fld w 24 8,
    dsel := fld w 62 2, sa := fld w 52 10, sb := fld w 42 10, sc := fld w 32 10,
    w2 := if fld w 0 2 = 0 then 0 else fld w 64 32, w3 := if fld w 0 2 = 2 then fld w 96 32 else 0 }

def encRaw (r : Raw) : Nat :=
  encHdr r.h r.len r.op r.sub r.d + 2 ^ 62 * r.dsel + 2 ^ 52 * r.sa + 2 ^ 42 * r.sb + 2 ^ 32 * r.sc +
    2 ^ 64 * r.w2 + 2 ^ 96 * r.w3

/-- OFS of format B: the whole second word (Table 10.5). -/
def Raw.ofs (r : Raw) : Word := BitVec.ofNat 32 (r.dsel * 2 ^ 30 + r.sa * 2 ^ 20 + r.sb * 2 ^ 10 + r.sc)

/-- The MOD word (Table 10.10). -/
structure Mod where
  rnd : Rnd
  sat : Bool
  ftz : Bool
  tya : Nat
  tyb : Nat
  xop : Nat
  deriving DecidableEq, Repr

def decMod (w2 : Nat) : Option Mod :=
  if fld w2 16 1 = 0 then
    (decRnd (fld w2 29 3)).map fun r =>
      { rnd := r, sat := fld w2 28 1 == 1, ftz := fld w2 27 1 == 1, tya := fld w2 22 5, tyb := fld w2 17 5,
        xop := fld w2 0 16 }
  else none

def encMod (m : Mod) : Nat :=
  m.xop + 2 ^ 17 * m.tyb + 2 ^ 22 * m.tya + 2 ^ 27 * m.ftz.toNat + 2 ^ 28 * m.sat.toNat + 2 ^ 29 * encRnd m.rnd

/-- The LIT word of format L, offered to the operand fields. -/
def Raw.lit (r : Raw) : Option Word := if r.len = 2 then some (BitVec.ofNat 32 r.w3) else none

/-- A LIT word that no operand field selects must be zero (R179). -/
def Raw.litUsed (r : Raw) : Bool := r.len != 2 || r.w3 == 0 || r.sa == 992 || r.sb == 992 || r.sc == 992

/-- Formats S, M and L with the lengths an opcode allows; the MOD word is read, and is 0 in format S. -/
def Raw.alu (r : Raw) (s l : Bool) : Option Mod :=
  if (s || r.len != 0) && (l || r.len != 2) && r.len != 3 && r.litUsed then decMod r.w2 else none

/-- RND, SAT, FTZ, TYA, TYB and XOP all at their defaults. -/
def Mod.plain (m : Mod) : Bool :=
  m.rnd == .rne && !m.sat && !m.ftz && m.tya == 0 && m.tyb == 0 && m.xop == 0

def Mod.noTy (m : Mod) : Bool := m.tya == 0 && m.tyb == 0 && m.xop == 0

/-- Format S alone. -/
def Raw.fmtS (r : Raw) : Bool := r.len == 0

/-- Format S with DSEL 11 and D 0x00. -/
def Raw.noDst (r : Raw) : Bool := r.dsel == 3 && r.d == 0

/-! ### Decoding by family -/

def decInt (k : Hdr → IntOp → Instr) (r : Raw) : Option Instr := do
  let m ← r.alu true true
  let d ← decDst r.dsel r.d
  let a ← decOpnd r.lit r.sa
  let b ← decOpnd r.lit r.sb
  let c ← decOpnd r.lit r.sc
  if m.rnd == .rne && !m.ftz && m.noTy then
    some (k r.h { ty := decIntTy r.sub, sat := m.sat, d := d, a := a, b := b, c := c })
  else none

def decSel (r : Raw) : Option Instr := do
  let m ← r.alu true true
  let d ← decDst r.dsel r.d
  let a ← decOpnd r.lit r.sa
  let b ← decOpnd r.lit r.sb
  let p ← decPred r.sc
  if m.plain then some (.sel r.h { ty := decIntTy r.sub, d := d, a := a, b := b, p := p }) else none

def decCmp (r : Raw) : Option Instr := do
  let m ← r.alu true true
  let a ← decOpnd r.lit r.sa
  let b ← decOpnd r.lit r.sb
  let c ← decCond r.sc
  if m.plain && r.dsel == 3 && r.d < 16 then
    some (.cmp r.h { ty := decIntTy r.sub, pd := BitVec.ofNat 4 r.d, a := a, b := b, cond := c })
  else none

/-- Format I (R194): the second word holds DSEL and zeros. -/
def decMovi (r : Raw) : Option Instr := do
  let d ← decDst r.dsel r.d
  if r.sa == 0 && r.sb == 0 && r.sc == 0 then
    match r.sub, r.len with
    | 0, 1 => some (.moviB32 r.h d (BitVec.ofNat 32 r.w2))
    | 1, 1 => some (.moviB64 r.h d ((BitVec.ofNat 32 r.w2).signExtend 64))
    | 1, 2 => some (.moviB64 r.h d (BitVec.ofNat 64 (r.w2 + 2 ^ 32 * r.w3)))
    | _, _ => none
  else none

def decMovs (r : Raw) : Option Instr := do
  let m ← r.alu true false
  let d ← decDst r.dsel r.d
  let a ← decOpnd none r.sa
  let l ← decOpnd none r.sb
  if m.plain && r.sc == 0 && (r.sub == 0 || r.sub == 1 || r.sub == 4 || r.sub == 5) then
    some (.movs r.h { wide := r.sub % 2 == 1, first := 4 ≤ r.sub, d := d, a := a, lane := l })
  else none

def decXMode (n : Nat) : Option XMode :=
  match n with
  | 0 => some .at | 1 => some .below | 2 => some .above | 3 => some .mask | _ => none

def encXMode : XMode → Nat
  | .at => 0 | .below => 1 | .above => 2 | .mask => 3

def decAgreeMode (n : Nat) : Option AgreeMode :=
  match n with
  | 0 => some .every | 1 => some .some | 2 => some .same | 3 => some .odd | _ => none

def encAgreeMode : AgreeMode → Nat
  | .every => 0 | .some => 1 | .same => 2 | .odd => 3

def decLaneMode (n : Nat) : Option LaneMode :=
  match n with
  | 0 => some .iss | 1 => some .lt | 2 => some .rank | _ => none

def encLaneMode : LaneMode → Nat
  | .iss => 0 | .lt => 1 | .rank => 2

def decLanes (r : Raw) : Option Instr := do
  let m ← r.alu true false
  if m.plain then
    match r.op with
    | 0x1C =>
        let md ← decXMode r.sub
        let d ← decDst r.dsel r.d
        let a ← decOpnd none r.sa
        let b ← decOpnd none r.sb
        let c ← decOpnd none r.sc
        some (.xlane r.h { mode := md, d := d, a := a, b := b, c := c })
    | 0x1D =>
        let md ← decAgreeMode r.sub
        let q ← decPred r.sa
        if r.dsel == 3 && r.d < 16 && r.sb == 0 && r.sc == 0 then some (.agree r.h md (BitVec.ofNat 4 r.d) q) else none
    | 0x1E =>
        let d ← decDst r.dsel r.d
        let q ← decPred r.sa
        if r.sub < 2 && r.sb == 0 && r.sc == 0 then some (.pmask r.h (r.sub == 1) d q) else none
    | 0x1F =>
        let md ← decLaneMode r.sub
        let d ← decDst r.dsel r.d
        if r.sa == 0 && r.sb == 0 && r.sc == 0 then some (.lane r.h md d) else none
    | _ => none
  else none

/-- Predicates, control, convergence and register management (0x20 to 0x39; Tables 11.2 and 11.4). -/
def decPredicates (r : Raw) : Option Instr :=
  if r.fmtS then
    match r.op, r.sub with
    | 0x20, 0 => do
        let a ← decPred r.sa
        let b ← decPred r.sb
        if r.dsel == 3 && r.d < 16 && r.sc == 0 then some (.pand r.h (BitVec.ofNat 4 r.d) a b) else none
    | 0x21, 0 => do
        let a ← decPred r.sa
        let b ← decPred r.sb
        if r.dsel == 3 && r.d < 16 && r.sc == 0 then some (.por r.h (BitVec.ofNat 4 r.d) a b) else none
    | 0x22, 0 => do
        let a ← decPred r.sa
        let b ← decPred r.sb
        if r.dsel == 3 && r.d < 16 && r.sc == 0 then some (.pxor r.h (BitVec.ofNat 4 r.d) a b) else none
    | 0x23, 0 => do
        let a ← decPred r.sa
        if r.dsel == 3 && r.d < 16 && r.sb == 0 && r.sc == 0 then some (.pnot r.h (BitVec.ofNat 4 r.d) a) else none
    | 0x24, 0 => do
        let a ← decPred r.sa
        if r.dsel == 3 && r.d < 16 && r.sb == 0 && r.sc == 0 then some (.pmov r.h (BitVec.ofNat 4 r.d) a) else none
    | 0x24, 1 => do
        let d ← decDst r.dsel r.d
        if r.sa == 0 && r.sb == 0 && r.sc == 0 then some (.pmovPk r.h d) else none
    | 0x24, 2 => do
        let a ← decOpnd none r.sa
        if r.noDst && r.sb == 0 && r.sc == 0 then some (.pmovUpk r.h a) else none
    | _, _ => none
  else none

/-- Format S with DSEL 11, D 0x00 and a second word of zeros. -/
def decBare (k : Hdr → Instr) (r : Raw) : Option Instr :=
  if r.noDst && r.sa == 0 && r.sb == 0 && r.sc == 0 then some (k r.h) else none

/-- Format S with DSEL 11, D 0x00 and SA alone. -/
def decSA (k : Hdr → Opnd → Instr) (r : Raw) : Option Instr := do
  let a ← decOpnd none r.sa
  if r.noDst && r.sb == 0 && r.sc == 0 then some (k r.h a) else none

def decControl (r : Raw) : Option Instr :=
  if r.fmtS then
    match r.op, r.sub with
    | 0x25, 0 => if r.d == 0 then some (.bra r.h r.ofs) else none
    | 0x26, 0 => decSA .braInd r
    | 0x27, 0 => some (.call r.h (BitVec.ofNat 8 r.d) r.ofs)
    | 0x28, 0 => decSA .ret r
    | 0x29, 0 => decBare .exit r
    | 0x2A, 0 => if r.d == 0 then some (.meetSet r.h r.ofs) else none
    | 0x2A, 1 => decSA .meetSetFrom r
    | 0x2A, 2 => some (.meetSetXch r.h (BitVec.ofNat 8 r.d) r.ofs)
    | 0x2B, 0 => decBare .meet r
    | 0x2C, 0 => decBare .meetBrk r
    | 0x2D, 0 => decSA .nap r
    | 0x2E, 0 =>
        -- Table 11.5: word bits 29:25 N1, 24:20 N2, 19:12 v2, 11:0 zero
        if r.dsel == 3 && r.ofs.toNat % 4096 == 0 then
          some (.region r.h (BitVec.ofNat 8 r.d) (BitVec.ofNat 5 (fld r.ofs.toNat 25 5))
            (BitVec.ofNat 8 (fld r.ofs.toNat 12 8)) (BitVec.ofNat 5 (fld r.ofs.toNat 20 5)))
        else none
    | 0x2F, 0 => decBare .regionEnd r
    | _, _ => none
  else none

def decRegs (r : Raw) : Option Instr :=
  if r.fmtS then
    match r.op, r.sub with
    | 0x30, 0 => decBare .grow r
    | 0x31, 0 => decBare .shrink r
    | 0x32, 0 =>
        -- Table 11.6: word bits 29:22 EXT, 21:6 SPADM, 5:0 zero
        if r.dsel == 3 && r.ofs.toNat % 64 == 0 then
          some (.phint r.h (BitVec.ofNat 8 r.d) (BitVec.ofNat 8 (fld r.ofs.toNat 22 8))
            (BitVec.ofNat 16 (fld r.ofs.toNat 6 16)))
        else none
    | 0x33, 0 => if r.d < 64 then some (.contSet r.h (BitVec.ofNat 6 r.d) r.ofs) else none
    | 0x33, 1 => decBare .contSetClr r
    | 0x34, 0 =>
        if r.noDst && r.sb == 0 && r.sc == 0 then
          match decOpnd none r.sa with
          | some (.s i) => some (.contResume r.h i)
          | _ => none
        else none
    | 0x35, 0 =>
        if r.dsel == 3 && r.sa == 0 && r.sb == 0 && r.sc == 0 then some (.trap r.h (BitVec.ofNat 8 r.d)) else none
    | 0x36, 0 => decBare .brkpt r
    | 0x37, 0 => do
        let d ← decDst r.dsel r.d
        if r.sa == 0 && r.sc == 0 then some (.rdsp r.h d (BitVec.ofNat 10 r.sb)) else none
    | 0x38, 0 => do
        let a ← decOpnd none r.sa
        if r.dsel == 3 && r.sb == 0 && r.sc == 0 then some (.wrsp r.h (BitVec.ofNat 8 r.d) a) else none
    | 0x39, 0 =>
        if r.dsel == 3 && r.d < 16 && r.sa == 0 && r.sb == 0 && r.sc == 0 then some (.lead r.h (BitVec.ofNat 4 r.d))
        else none
    | _, _ => none
  else none

/-- An FP-code instruction; `l` says whether format L is allowed. -/
def decFp (k : Hdr → FpOp → Instr) (l : Bool) (r : Raw) : Option Instr := do
  let m ← r.alu true l
  let t ← decFpTy r.sub
  let d ← decDst r.dsel r.d
  let a ← decOpnd r.lit r.sa
  let b ← decOpnd r.lit r.sb
  let c ← decOpnd r.lit r.sc
  if m.noTy then some (k r.h { ty := t, rnd := m.rnd, sat := m.sat, ftz := m.ftz, d := d, a := a, b := b, c := c })
  else none

def decFcmp (r : Raw) : Option Instr := do
  let m ← r.alu true true
  let t ← decFpTy r.sub
  let a ← decOpnd r.lit r.sa
  let b ← decOpnd r.lit r.sb
  let c ← decFCond r.sc
  if m.noTy && m.rnd == .rne && !m.sat && r.dsel == 3 && r.d < 16 then
    some (.fcmp r.h { ty := t, ftz := m.ftz, pd := BitVec.ofNat 4 r.d, a := a, b := b, cond := c })
  else none

/-- dot2, and pfma with its .cx form (XOP[0]). -/
def decPair (r : Raw) : Option Instr := do
  let m ← r.alu true true
  let t ← decPairTy r.sub
  let d ← decDst r.dsel r.d
  let a ← decOpnd r.lit r.sa
  let b ← decOpnd r.lit r.sb
  let c ← decOpnd r.lit r.sc
  let o : FpOp := { ty := t, rnd := m.rnd, sat := m.sat, ftz := m.ftz, d := d, a := a, b := b, c := c }
  if m.tya == 0 && m.tyb == 0 then
    match r.op, m.xop with
    | 0x50, 0 => some (.dot2 r.h o)
    | 0x51, 0 => some (.pfma r.h o)
    | 0x51, 1 => some (.pfmaCx r.h o)
    | _, _ => none
  else none

def decF64 (k : Hdr → FpOp → Instr) (r : Raw) : Option Instr := if r.sub = 0 then decFp k true r else none

def decQd (k : Hdr → QdOp → Instr) (r : Raw) : Option Instr := do
  let m ← r.alu true true
  let d ← decDst r.dsel r.d
  let a ← decOpnd r.lit r.sa
  if m.noTy && !m.sat && r.sub < 2 && r.sb == 0 && r.sc == 0 then
    some (k r.h { coarse := r.sub == 1, rnd := m.rnd, ftz := m.ftz, d := d, a := a })
  else none

/-- Conversions, packing, quantisation and keys (0x60 to 0x65). -/
def decConv (r : Raw) : Option Instr := do
  let m ← r.alu false true
  let d ← decDst r.dsel r.d
  let a ← decOpnd r.lit r.sa
  let ta ← decTy m.tya
  let tb ← decTy m.tyb
  if r.sc == 0 then
    match r.op with
    | 0x60 =>
        if r.sub == 0 && r.sb == 0 && m.xop == 0 then
          some (.cvt r.h { tyTo := ta, tyFr := tb, rnd := m.rnd, sat := m.sat, ftz := m.ftz, d := d, a := a })
        else none
    | 0x61 =>
        if r.sub == 0 && r.sb == 0 && m.xop == 0 && tb == .f32 then
          some (.pk r.h { fmt := ta, rnd := m.rnd, sat := m.sat, ftz := m.ftz, d := d, a := a })
        else none
    | 0x62 =>
        if r.sub == 0 && r.sb == 0 && m.xop < 8 && ta == .f32 && m.rnd == .rne && !m.sat then
          some (.upk r.h { fmt := tb, ftz := m.ftz, i := BitVec.ofNat 3 m.xop, d := d, a := a })
        else none
    | 0x63 =>
        if r.sub == 0 && r.sb == 0 && m.xop < 2 && tb == .f32 && !m.sat && !m.ftz then
          some (.qnt r.h { fmt := ta, rnd := m.rnd, pk := m.xop == 1, d := d, a := a })
        else none
    | 0x64 => do
        let c ← decOpnd r.lit r.sb
        if r.sub == 0 && m.xop < 8 && ta == .f32 && !m.sat then
          some (.dqnt r.h { fmt := tb, rnd := m.rnd, ftz := m.ftz, i := BitVec.ofNat 3 m.xop, d := d, a := a, c := c })
        else none
    | 0x65 =>
        if r.sub < 4 && r.sb == 0 && m.xop == 0 && m.tyb == 0 && m.rnd == .rne && !m.sat && !m.ftz then
          some (.keyx r.h { inv := 2 ≤ r.sub, desc := r.sub % 2 == 1, ty := ta, d := d, a := a })
        else none
    | _ => none
  else none

def decHist (r : Raw) : Option Instr := do
  let m ← r.alu false true
  let d ← decDst r.dsel r.d
  let a ← decOpnd r.lit r.sa
  let b ← decOpnd r.lit r.sb
  if r.sub < 2 && r.sc == 0 && m.rnd == .rne && !m.sat && !m.ftz && m.tya == 0 && m.tyb == 0 && m.xop < 1024 then
    some (.hist r.h
      { wide := r.sub == 1, shift := BitVec.ofNat 6 (fld m.xop 0 6),
        width := BitVec.ofNat 4 (fld m.xop 6 4), d := d, key := a, base := b })
  else none

def decScanFn (n : Nat) : Option ScanFn :=
  match n with
  | 0 => some .add | 1 => some .min | 2 => some .max | _ => none

def encScanFn : ScanFn → Nat
  | .add => 0 | .min => 1 | .max => 2

def decScan (r : Raw) : Option Instr := do
  let m ← r.alu false true
  let f ← decScanFn (r.sub % 4)
  let d ← decDst r.dsel r.d
  let a ← decOpnd r.lit r.sa
  let t ← decTy m.tya
  if r.sb == 0 && r.sc == 0 && !m.sat && m.tyb == 0 && m.xop < 2 then
    some (.scan r.h { fn := f, excl := 4 ≤ r.sub, all := m.xop == 1, ty := t, rnd := m.rnd, ftz := m.ftz, d := d, a := a })
  else none

/-- Format X (R184, R237 to R239). -/
def decMem (r : Raw) : Option Instr := do
  let ty ← decTy (fld r.w2 0 5)
  let sc ← decScope (fld r.w2 5 3)
  let d ← decDst r.dsel r.d
  let base ← decOpnd none r.sa
  let off ← decOpnd none r.sb
  let data ← decOpnd none r.sc
  let o : MemOp :=
    { ty := ty, space := decSpace (fld r.w2 11 2), strong := fld r.w2 10 1 == 1, ord := decOrder (fld r.w2 8 2),
      scope := sc, disp := BitVec.ofNat 19 (fld r.w2 13 19), d := d, base := base, off := off, data := data }
  if r.len == 1 then
    match r.op, r.sub with
    | 0x70, 0 => some (.ld r.h o)
    | 0x71, 0 => some (.st r.h o)
    | 0x72, 0 => some (.ldv r.h o)
    | 0x73, 0 => some (.pf r.h o)
    | 0x74, 7 => some (.atomCas r.h o)
    | 0x74, n => (decAOp n).map fun op => .atom r.h op o
    | 0x75, n => (decAOp n).map fun op => .red r.h op o
    | _, _ => none
  else none

/-- REC and EXT (Table 10.12). -/
structure Rec where
  tr : Nat
  tk : Nat
  xr : Nat
  scope : Nat
  ty : Nat
  xf : Nat
  deriving DecidableEq, Repr

def decRec (w2 : Nat) : Rec :=
  { tr := fld w2 28 4, tk := fld w2 22 6, xr := fld w2 18 4, scope := fld w2 15 3, ty := fld w2 10 5, xf := fld w2 0 10 }

def encRec (e : Rec) : Nat :=
  e.xf + 2 ^ 10 * e.ty + 2 ^ 15 * e.scope + 2 ^ 18 * e.xr + 2 ^ 22 * e.tk + 2 ^ 28 * e.tr

def decSync (r : Raw) : Option Instr :=
  if r.op = 0x92 then do
    let e := decRec r.w2
    let sc ← decScope e.scope
    let ty ← decTy e.ty
    let c ← decCond (e.xf % 8)
    let base ← decOpnd none r.sa
    let a ← decOpnd none r.sb
    if r.len == 2 && r.sub == 0 && r.noDst && r.sc == 0 && e.tr == 0 && e.tk == 0 && e.xr == 0 && e.xf < 32 then
      some (.waitV r.h
        { cond := c, acq := fld e.xf 3 1 == 1, shared := fld e.xf 4 1 == 1, scope := sc, ty := ty,
          base := base, a := a, disp := BitVec.ofNat 32 r.w3 })
    else none
  else if r.fmtS && r.sc == 0 then
    match r.op, r.sub with
    | 0x90, 0 => do
        let sc ← decScope r.d
        if r.dsel == 3 && r.sa == 0 && r.sb == 0 then some (.fence r.h sc) else none
    | 0x91, 0 => do
        let c ← decCls r.d
        let n ← decOpnd none r.sa
        if r.dsel == 3 && r.sb == 0 then some (.waitc r.h c n) else none
    | 0x93, 0 => do
        let sc ← decScope (r.d % 16)
        if r.dsel == 3 && r.sa == 0 && r.sb == 0 then some (.barArrive r.h sc (BitVec.ofNat 4 (r.d / 16))) else none
    | 0x94, 0 => do
        let sc ← decScope (r.d % 16)
        if r.dsel == 3 && r.sa == 0 && r.sb == 0 then some (.barWait r.h sc (BitVec.ofNat 4 (r.d / 16))) else none
    | 0x95, 0 => do
        let a ← decOpnd none r.sa
        let b ← decOpnd none r.sb
        if r.noDst then some (.boInit r.h a b) else none
    | 0x96, 0 => do
        let a ← decOpnd none r.sa
        let b ← decOpnd none r.sb
        if r.noDst then some (.boExpect r.h a b) else none
    | 0x97, 0 => do
        let d ← decDst r.dsel r.d
        let a ← decOpnd none r.sa
        if r.sb == 0 then some (.boArrive r.h d a) else none
    | 0x97, 1 => do
        let d ← decDst r.dsel r.d
        let a ← decOpnd none r.sa
        if r.sb == 0 then some (.boArriveOnce r.h d a) else none
    | 0x97, 2 => do
        let d ← decDst r.dsel r.d
        let a ← decOpnd none r.sa
        let b ← decOpnd none r.sb
        some (.boArriveExpect r.h d a b)
    | 0x97, 3 => do
        let d ← decDst r.dsel r.d
        let a ← decOpnd none r.sa
        let b ← decOpnd none r.sb
        some (.boArriveOnceExpect r.h d a b)
    | 0x98, 0 => do
        let a ← decOpnd none r.sa
        let b ← decOpnd none r.sb
        if r.noDst then some (.boWait r.h a b) else none
    | _, _ => none
  else none

/-- The operand fields of format E. -/
structure EOps where
  a : Opnd
  b : Opnd
  c : Opnd
  deriving DecidableEq, Repr

def decEOps (r : Raw) : Option EOps := do
  let a ← decOpnd none r.sa
  let b ← decOpnd none r.sb
  let c ← decOpnd none r.sc
  some { a := a, b := b, c := c }

def Raw.copyOp (r : Raw) (e : Rec) (x : EOps) (bo col : Bool) : CopyOp :=
  { bo := bo, col := col, a := x.a, b := x.b, c := x.c, tr := BitVec.ofNat 4 e.tr, tk := BitVec.ofNat 6 e.tk,
    ext := BitVec.ofNat 32 r.w3 }

/-- Engine instructions (Table 14.3), formats E with SUB 000. -/
def decEngine (r : Raw) : Option Instr := do
  let e := decRec r.w2
  let x ← decEOps r
  if r.len == 2 && r.sub == 0 && e.xr == 0 && e.scope == 0 && e.ty == 0 then
    match r.op with
    | 0xA0 =>
        if r.noDst && e.xf < 4 then
          let o := r.copyOp e x (fld e.xf 1 1 == 1) false
          some (if fld e.xf 0 1 = 1 then .copyTCb r.h o else .copyT r.h o)
        else none
    | 0xA1 => if r.noDst && (e.xf == 0 || e.xf == 2) then some (.copyG r.h (r.copyOp e x (e.xf == 2) false)) else none
    | 0xA2 => if r.noDst && (e.xf == 0 || e.xf == 2) then some (.copyS r.h (r.copyOp e x (e.xf == 2) false)) else none
    | 0xA3 =>
        if r.noDst && r.sc == 0 && e.tr == 0 && e.xf < 8 && r.w3 == 0 then
          some (.cbload r.h (BitVec.ofNat 3 e.xf) (BitVec.ofNat 6 e.tk) x.a x.b)
        else none
    | 0xA4 =>
        if r.noDst && r.sa == 0 && r.sb == 0 && r.sc == 0 && r.w2 == 0 && r.w3 == 0 then some (.cbfree r.h) else none
    | 0xB0 =>
        if r.dsel == 3 && r.d < 16 && r.sb == 0 && r.sc == 0 && e.tr == 0 && e.tk == 0 && e.xf < 2 then
          some (.tload r.h (BitVec.ofNat 4 r.d) (e.xf == 1) x.a (BitVec.ofNat 32 r.w3))
        else none
    | 0xB1 =>
        if r.dsel == 3 && r.d < 16 && r.sb == 0 && r.sc == 0 && e.tr == 0 && e.tk == 0 && e.xf < 4 && r.w3 < 16 then
          some (.tset r.h (BitVec.ofNat 4 r.d) (BitVec.ofNat 4 r.w3) (BitVec.ofNat 2 e.xf) x.a)
        else none
    | 0xB2 =>
        if r.dsel == 3 && r.d % 16 == 0 && r.d < 128 && r.sb == 0 && r.sc == 0 && r.w2 == 0 && r.w3 == 0 then
          some (.jArm r.h (BitVec.ofNat 3 (r.d / 16)) x.a)
        else none
    | 0xB3 | 0xB4 =>
        if r.dsel == 3 && fld r.d 3 1 == 0 && fld r.d 7 1 == 0 && e.tk == 0 && e.xf < 8 && fld r.w3 4 4 == 0 then
          let o : MmaOp :=
            { j := BitVec.ofNat 3 (fld r.d 4 3), acc := BitVec.ofNat 3 (fld r.d 0 3), row0 := x.a, col0 := x.b, k0 := x.c,
              ta := BitVec.ofNat 4 e.tr, tb := BitVec.ofNat 4 (fld r.w3 0 4), aS := fld e.xf 0 1 == 1,
              bS := fld e.xf 1 1 == 1, ftz := fld e.xf 2 1 == 1, md := BitVec.ofNat 24 (fld r.w3 8 24) }
          some (if r.op = 0xB3 then .mma r.h o else .smma r.h o)
        else none
    | 0xB5 =>
        if r.dsel == 3 && r.d < 8 && r.sc == 0 && e.tk == 0 && e.xf < 2 && r.w3 == 0 then
          some (.mxLd r.h (BitVec.ofNat 3 r.d) (e.xf == 1) x.a x.b (BitVec.ofNat 4 e.tr))
        else none
    | 0xB6 => do
        let rn ← decRnd (e.xf % 8)
        if r.dsel == 3 && r.d < 8 && r.sc == 0 && e.tk == 0 && e.xf < 64 && r.w3 < 256 then
          some (.mxSt r.h
            { acc := BitVec.ofNat 3 r.d, row0 := x.a, col0 := x.b, out := BitVec.ofNat 4 e.tr,
              ta := BitVec.ofNat 4 (fld r.w3 0 4), tb := BitVec.ofNat 4 (fld r.w3 4 4), rnd := rn,
              sat := fld e.xf 3 1 == 1, ftz := fld e.xf 4 1 == 1, sp := fld e.xf 5 1 == 1 })
        else none
    | 0xB7 =>
        if r.dsel == 3 && r.d < 8 && r.sa == 0 && r.sb == 0 && r.sc == 0 && r.w2 == 0 && r.w3 == 0 then
          some (.mxZero r.h (BitVec.ofNat 3 r.d))
        else none
    | 0xB8 => if r.noDst && (e.xf == 0 || e.xf == 2) then some (.idxWalk r.h (r.copyOp e x (e.xf == 2) false)) else none
    | 0xB9 =>
        if r.noDst && e.xf < 4 then
          some (.idxGather r.h (r.copyOp e x (fld e.xf 1 1 == 1) (fld e.xf 0 1 == 1)))
        else none
    | 0xBA => do
        let d ← decDst r.dsel r.d
        if e.tr == 0 && e.xf < 2 && r.w3 == 0 then
          some (.rebal r.h { tot := e.xf == 1, tk := BitVec.ofNat 6 e.tk, d := d, a := x.a, b := x.b, c := x.c })
        else none
    | _ => none
  else none

/-- Collection instructions (Table 15.1). -/
def decColl (r : Raw) : Option Instr := do
  let e := decRec r.w2
  let x ← decEOps r
  let tr := BitVec.ofNat 4 e.tr
  let tk := BitVec.ofNat 6 e.tk
  if r.len == 2 && r.sub == 0 && e.xr == 0 && e.scope == 0 && e.ty == 0 && e.xf == 0 && r.w3 == 0 then
    match r.op with
    | 0xC0 =>
        if r.dsel == 3 && r.d < 16 && r.sb == 0 && r.sc == 0 && e.tr == 0 then
          some (.collOpen r.h (BitVec.ofNat 4 r.d) tk x.a)
        else none
    | 0xC1 => do
        let d ← decDst r.dsel r.d
        if e.tk == 0 then some (.collIns r.h d tr x.a x.b x.c) else none
    | 0xC2 => do
        let d ← decDst r.dsel r.d
        if e.tk == 0 then some (.collRem r.h d tr x.a x.b x.c) else none
    | 0xC3 => if r.noDst && r.sa == 0 && r.sb == 0 && r.sc == 0 then some (.collCommit r.h tr tk) else none
    | 0xC4 =>
        if r.dsel == 3 && r.d < 16 && r.sc == 0 && e.tk == 0 then
          some (.collIter r.h (BitVec.ofNat 4 r.d) tr x.a x.b)
        else none
    | 0xC5 => do
        let d ← decDst r.dsel r.d
        if r.sa == 0 && r.sb == 0 && r.sc == 0 && e.tk == 0 then some (.collNext r.h d tr) else none
    | 0xC6 =>
        if r.dsel == 2 && r.d < 64 && r.sc == 0 && e.tk == 0 then
          some (.collCount r.h (BitVec.ofNat 6 r.d) tr x.a x.b)
        else none
    | 0xC7 => if r.noDst && r.sa == 0 && r.sb == 0 && r.sc == 0 && e.tk == 0 then some (.collClose r.h tr) else none
    | _ => none
  else none

/-- Ring instructions (Table 15.1, Table 15.6). -/
def decRing (r : Raw) : Option Instr := do
  let e := decRec r.w2
  let x ← decEOps r
  let sc ← decScope e.scope
  let ty ← decTy e.ty
  let tk := BitVec.ofNat 6 e.tk
  let disp := BitVec.ofNat 32 r.w3
  if r.len == 2 && e.xr == 0 && e.tr == 0 && e.xf < 4 then
    match r.op with
    | 0xD0 =>
        if r.sub == 0 && r.noDst && r.sb == 0 && r.sc == 0 && e.tk == 0 && e.ty == 0 && e.xf == 0 && sc == .die then
          some (.ringBoard r.h x.a disp)
        else none
    | 0xD1 =>
        if r.sub == 0 && r.noDst && r.sb == 0 && r.sc == 0 && e.tk == 0 && e.ty == 0 && e.xf == 0 && sc == .die then
          some (.ringAlight r.h x.a disp)
        else none
    | 0xD2 => do
        let d ← decDst r.dsel r.d
        if r.sub == 0 && e.tk == 0 then
          some (.ringRd r.h { ty := ty, ord := decOrder e.xf, scope := sc, d := d, a := x.a, v := x.b, c := x.c, disp := disp })
        else none
    | 0xD3 => do
        let d ← decDst r.dsel r.d
        let o : RingWOp := { ty := ty, ord := decOrder e.xf, scope := sc, d := d, a := x.a, v := x.b, c := x.c, disp := disp }
        if e.tk == 0 then
          if r.sub = 7 then some (.ringUpPop r.h o) else (decROp r.sub).map fun op => .ringUp r.h op o
        else none
    | 0xD4 => do
        let d ← decDst r.dsel r.d
        if r.sub == 0 && r.sb == 0 && r.sc == 0 && e.ty == 0 then
          some (.ringCap r.h { ord := decOrder e.xf, scope := sc, tk := tk, run := d, a := x.a, disp := disp })
        else none
    | 0xD5 =>
        if r.sub == 0 && r.noDst && r.sb == 0 && r.sc == 0 && e.ty == 0 && r.w3 == 0 then
          match x.a with
          | .v i => some (.ringRet r.h { ord := decOrder e.xf, scope := sc, tk := tk, run := .v i, a := .v 0, disp := 0 })
          | .q i => some (.ringRet r.h { ord := decOrder e.xf, scope := sc, tk := tk, run := .q i, a := .v 0, disp := 0 })
          | _ => none
        else none
    | 0xD6 => do
        let d ← decDst r.dsel r.d
        if r.sub == 0 && r.sa == 0 && r.sb == 0 && r.sc == 0 && e.tk == 0 && e.ty == 0 && e.xf == 0 && r.w3 == 0 && sc == .die then
          some (.ringRev r.h d)
        else none
    | 0xD7 =>
        if r.sub == 0 && r.noDst && r.sb == 0 && r.sc == 0 && e.tk == 0 && e.ty == 0 && e.xf == 0 && r.w3 == 0 && sc == .die then
          some (.ringWait r.h x.a)
        else none
    | _ => none
  else none

/-- Pergola, trace and composite (Table 15.1). -/
def decPg (r : Raw) : Option Instr := do
  let e := decRec r.w2
  let x ← decEOps r
  let tk := BitVec.ofNat 6 e.tk
  if r.len == 2 && r.sub == 0 && e.xr == 0 && e.scope == 0 && e.ty == 0 then
    match r.op with
    | 0xD8 =>
        if r.noDst && r.sb == 0 && r.sc == 0 && e.tr == 0 && e.xf == 0 && r.w3 == 0 then some (.pgBuild r.h tk x.a) else none
    | 0xD9 =>
        if r.noDst && r.sb == 0 && r.sc == 0 && e.tr == 0 && e.xf == 0 && r.w3 == 0 then some (.pgRefit r.h tk x.a) else none
    | 0xDA =>
        if r.noDst && r.sb == 0 && r.sc == 0 && e.tr == 0 && e.xf == 0 && r.w3 == 0 then some (.pgRebal r.h tk x.a) else none
    | 0xDB =>
        if r.noDst && r.sb == 0 && r.sc == 0 && e.tr == 0 && e.xf == 0 && r.w3 == 0 then some (.pgPublish r.h tk x.a)
        else none
    | 0xDC => do
        let d ← decDst r.dsel r.d
        if r.sb == 0 && r.sc == 0 && e.tr == 0 && e.tk == 0 && e.xf < 2 && r.w3 == 0 then
          some (.pgStat r.h (e.xf == 1) d x.a)
        else none
    | 0xDD => do
        let d ← decDst r.dsel r.d
        if r.sc == 0 && e.tr == 0 && e.xf < 2 && r.w3 == 0 then some (.trace r.h (e.xf == 1) d tk x.a x.b) else none
    | 0xDE => do
        let c ← decOpnd none r.w3
        if r.noDst && e.xf == 0 then some (.comp r.h (BitVec.ofNat 4 e.tr) tk x.a x.b x.c c) else none
    | _ => none
  else none

/-- System and privileged instructions (Table 11.9). -/
def decPriv (r : Raw) : Option Instr :=
  match r.op, r.sub with
  | 0xF0, 0 => if r.fmtS then decSA .tret r else none
  | 0xF1, 0 => do
      let d ← decDst r.dsel r.d
      if r.fmtS && r.sa == 0 && r.sc == 0 then some (.rdpriv r.h d (BitVec.ofNat 10 r.sb)) else none
  | 0xF2, 0 => do
      let a ← decOpnd none r.sa
      if r.fmtS && r.noDst && r.sc == 0 then
        match r.sb with
        | 0x47 => some (.intpendClear r.h a)
        | 0x82 => some (.xlinv r.h a)
        | 0x85 => some (.signal r.h a)
        | 0x89 => some (.sigtkt r.h a)
        | 0x102 => some (.partmapWrite r.h a)
        | 0x104 => some (.hostint r.h a)
        | 0x187 => some (.attaddr r.h a)
        | 0x190 => some (.eccwinWrite r.h a)
        | n => some (.wrpriv r.h (BitVec.ofNat 10 n) a)
      else none
  | 0xF3, s => do
      let x ← decEOps r
      if r.len == 2 && s < 2 && r.noDst && r.sc == 0 && r.w2 == 0 && r.w3 == 0 then
        some (if s = 0 then .saveGroup r.h x.a x.b else .saveBlock r.h x.a x.b)
      else none
  | 0xF4, s => do
      let x ← decEOps r
      if r.len == 2 && s < 2 && r.noDst && r.sc == 0 && r.w2 == 0 && r.w3 == 0 then
        some (if s = 0 then .restoreGroup r.h x.a x.b else .restoreBlock r.h x.a x.b)
      else none
  | 0xF5, 0 => if r.fmtS then decBare .halt r else none
  | _, _ => none

/-- The integer opcodes 0x00 to 0x19 that take the shape of R192's IntegerOp. -/
def intCtor (op : Nat) : Option (Hdr → IntOp → Instr) :=
  match op with
  | 0x00 => some .add | 0x01 => some .sub | 0x02 => some .mulLo | 0x03 => some .mulHi | 0x04 => some .mad
  | 0x05 => some .min | 0x06 => some .max | 0x07 => some .abs | 0x08 => some .neg | 0x09 => some .and
  | 0x0A => some .or | 0x0B => some .xor | 0x0C => some .not | 0x0D => some .shl | 0x0E => some .shr
  | 0x0F => some .sar | 0x10 => some .bfx | 0x11 => some .bfi | 0x12 => some .popc | 0x13 => some .clz
  | 0x14 => some .ctz | 0x15 => some .brev | 0x18 => some .lea | 0x19 => some .mov | _ => none

/-- The opcodes 0x40 to 0x4F of one FP-code shape, with whether format L is allowed. -/
def fpCtor (op : Nat) : Option ((Hdr → FpOp → Instr) × Bool) :=
  match op with
  | 0x40 => some (.fadd, true) | 0x41 => some (.fsub, true) | 0x42 => some (.fmul, true) | 0x43 => some (.fma, true)
  | 0x44 => some (.fmin, true) | 0x45 => some (.fmax, true) | 0x46 => some (.frcp, false) | 0x47 => some (.frsq, false)
  | 0x48 => some (.fsqrt, false) | 0x49 => some (.fexp2, false) | 0x4A => some (.flog2, false)
  | 0x4B => some (.fsin, false) | 0x4C => some (.fcos, false) | 0x4E => some (.fclass, true) | 0x4F => some (.frnd, true)
  | _ => none

/-- The instruction of the opcode map (Table 10.13) that the fields give, before the checks of WellFormed. -/
def decRow (r : Raw) : Option Instr :=
  match r.op / 16 with
  | 0x0 => (intCtor r.op).bind fun k => decInt k r
  | 0x1 =>
      match r.op with
      | 0x16 => decSel r
      | 0x17 => decCmp r
      | 0x1A => decMovi r
      | 0x1B => decMovs r
      | 0x1C | 0x1D | 0x1E | 0x1F => decLanes r
      | _ => (intCtor r.op).bind fun k => decInt k r
  | 0x2 => if r.op < 0x25 then decPredicates r else decControl r
  | 0x3 => decRegs r
  | 0x4 => if r.op = 0x4D then decFcmp r else (fpCtor r.op).bind fun k => decFp k.1 k.2 r
  | 0x5 =>
      match r.op with
      | 0x50 | 0x51 => decPair r
      | 0x52 => decF64 .dadd r
      | 0x53 => decF64 .dmul r
      | 0x54 => decF64 .dfma r
      | _ => none
  | 0x6 =>
      match r.op with
      | 0x66 => decHist r
      | 0x67 => decScan r
      | 0x68 => decQd .qdx r
      | 0x69 => decQd .qdy r
      | _ => decConv r
  | 0x7 => decMem r
  | 0x9 => decSync r
  | 0xA | 0xB => decEngine r
  | 0xC => decColl r
  | 0xD => if r.op < 0xD8 then decRing r else decPg r
  | 0xF => decPriv r
  | _ => none

/-- Reserved opcodes of Table 10.13. -/
def reservedOp (op : Nat) : Bool :=
  (0x3A ≤ op && op < 0x40) || (0x55 ≤ op && op < 0x60) || (0x6A ≤ op && op < 0x70) || (0x76 ≤ op && op < 0x90) ||
    (0x99 ≤ op && op < 0xA0) || (0xA5 ≤ op && op < 0xB0) || (0xBB ≤ op && op < 0xC0) || (0xC8 ≤ op && op < 0xD0) ||
    op == 0xDF || (0xE0 ≤ op && op < 0xF0) || 0xF6 ≤ op

/-- rdsp and wrsp of a number of 0x40 or above belong to privileged mode (R47, R188 step 6). -/
def Instr.privNumber : Instr → Bool
  | .rdsp _ _ n => 0x40 ≤ n.toNat
  | .wrsp _ n _ => 0x40 ≤ n.toNat
  | _ => false

/-- The checks of steps 5 and 6 of such a word that do not concern the number. -/
def Instr.numberOk : Instr → Bool
  | .rdsp h d n => h.short && d.intOk (((regInfo n.toNat).map (·.1)).getD false)
  | .wrsp h n a => h.short && a.op32 && (!((regInfo n.toNat).map (·.1)).getD false || a.pairOk)
  | _ => true

/-- R188 steps 2 to 6 and R189: the instruction of the word `w`, or why there is none. `priv` is the group's mode. -/
def decode (priv : Bool) (w : Nat) : Except Reject Instr :=
  let r := decRaw w
  if 2 ≤ fld w 2 2 then .error .illegal
  else if r.op < 0xF0 && reservedOp r.op then .error .illegal
  else if 0xF0 ≤ r.op && !priv then .error .privileged
  else
    match decRow r with
    | none => .error .illegal
    | some i =>
        if i.privNumber && !priv then .error (if i.numberOk then .privileged else .illegal)
        else if !i.wf then .error .illegal
        else if w % 2 ^ 64 = 0 then .error .illegal
        else .ok i

/-- The host's question: the instruction our decoder reads from a table row's bits. -/
def decodeTableWord (nbits w : Nat) : Option Instr :=
  match decode true (w % 2 ^ Nat.min nbits 128) with
  | .ok i => some i
  | .error _ => none

/-! ### Encoding -/

/-- The LIT word of a list of operands, if any of them selects it. -/
def litOf : List Opnd → Option Word
  | [] => none
  | .lit w :: _ => some w
  | _ :: t => litOf t

/-- Formats S, M and L: the shortest form that holds the fields (R179). -/
def encAlu (h : Hdr) (op sub d dsel : Nat) (a b c : Nat) (lit : Option Word) (s : Bool) (m : Mod) : Nat :=
  let len := match lit with
    | some _ => 2
    | none => if s && encMod m == 0 then 0 else 1
  encRaw { h := h, len := len, op := op, sub := sub, d := d, dsel := dsel, sa := a, sb := b, sc := c, w2 := encMod m,
           w3 := (lit.getD 0).toNat }

def Mod.default : Mod := { rnd := .rne, sat := false, ftz := false, tya := 0, tyb := 0, xop := 0 }

def encInt (op : Nat) (h : Hdr) (o : IntOp) : Nat :=
  encAlu h op (encIntTy o.ty) o.d.idx o.d.sel (encOpnd o.a) (encOpnd o.b) (encOpnd o.c) (litOf [o.a, o.b, o.c]) true
    { Mod.default with sat := o.sat }

def encFp (op sub : Nat) (xop : Nat) (h : Hdr) (o : FpOp) : Nat :=
  encAlu h op sub o.d.idx o.d.sel (encOpnd o.a) (encOpnd o.b) (encOpnd o.c) (litOf [o.a, o.b, o.c]) true
    { Mod.default with rnd := o.rnd, sat := o.sat, ftz := o.ftz, xop := xop }

/-- Format S, with DSEL and the operand fields given. -/
def encS (h : Hdr) (op sub d dsel a b c : Nat) : Nat :=
  encRaw { h := h, len := 0, op := op, sub := sub, d := d, dsel := dsel, sa := a, sb := b, sc := c, w2 := 0, w3 := 0 }

/-- Format B (Table 10.5). -/
def encB (h : Hdr) (op sub d : Nat) (ofs : Word) : Nat :=
  encS h op sub d (fld ofs.toNat 30 2) (fld ofs.toNat 20 10) (fld ofs.toNat 10 10) (fld ofs.toNat 0 10)

def encX (op sub : Nat) (h : Hdr) (o : MemOp) : Nat :=
  encRaw { h := h, len := 1, op := op, sub := sub, d := o.d.idx, dsel := o.d.sel, sa := encOpnd o.base,
           sb := encOpnd o.off, sc := encOpnd o.data,
           w2 := encTy o.ty + 2 ^ 5 * encScope o.scope + 2 ^ 8 * encOrder o.ord + 2 ^ 10 * o.strong.toNat +
             2 ^ 11 * encSpace o.space + 2 ^ 13 * o.disp.toNat,
           w3 := 0 }

def encE (h : Hdr) (op sub d dsel a b c : Nat) (e : Rec) (ext : Nat) : Nat :=
  encRaw { h := h, len := 2, op := op, sub := sub, d := d, dsel := dsel, sa := a, sb := b, sc := c, w2 := encRec e,
           w3 := ext }

def Rec.zero : Rec := { tr := 0, tk := 0, xr := 0, scope := 0, ty := 0, xf := 0 }

def encCopy (op xf0 : Nat) (h : Hdr) (o : CopyOp) : Nat :=
  encE h op 0 0 3 (encOpnd o.a) (encOpnd o.b) (encOpnd o.c)
    { Rec.zero with tr := o.tr.toNat, tk := o.tk.toNat, xf := xf0 + 2 * o.bo.toNat } o.ext.toNat

def encMma (op : Nat) (h : Hdr) (o : MmaOp) : Nat :=
  encE h op 0 (16 * o.j.toNat + o.acc.toNat) 3 (encOpnd o.row0) (encOpnd o.col0) (encOpnd o.k0)
    { Rec.zero with tr := o.ta.toNat, xf := o.aS.toNat + 2 * o.bS.toNat + 4 * o.ftz.toNat }
    (o.tb.toNat + 256 * o.md.toNat)

def encRingW (op sub : Nat) (h : Hdr) (o : RingWOp) : Nat :=
  encE h op sub o.d.idx o.d.sel (encOpnd o.a) (encOpnd o.v) (encOpnd o.c)
    { Rec.zero with scope := encScope o.scope, ty := encTy o.ty, xf := encOrder o.ord } o.disp.toNat

/-- The instruction as one number (bit 0 the least significant bit of its first word); `none` for a device
step, which has no encoding. -/
def encode : Instr → Option Nat
  | .add h o => some (encInt 0x00 h o)
  | .sub h o => some (encInt 0x01 h o)
  | .mulLo h o => some (encInt 0x02 h o)
  | .mulHi h o => some (encInt 0x03 h o)
  | .mad h o => some (encInt 0x04 h o)
  | .min h o => some (encInt 0x05 h o)
  | .max h o => some (encInt 0x06 h o)
  | .abs h o => some (encInt 0x07 h o)
  | .neg h o => some (encInt 0x08 h o)
  | .and h o => some (encInt 0x09 h o)
  | .or h o => some (encInt 0x0A h o)
  | .xor h o => some (encInt 0x0B h o)
  | .not h o => some (encInt 0x0C h o)
  | .shl h o => some (encInt 0x0D h o)
  | .shr h o => some (encInt 0x0E h o)
  | .sar h o => some (encInt 0x0F h o)
  | .bfx h o => some (encInt 0x10 h o)
  | .bfi h o => some (encInt 0x11 h o)
  | .popc h o => some (encInt 0x12 h o)
  | .clz h o => some (encInt 0x13 h o)
  | .ctz h o => some (encInt 0x14 h o)
  | .brev h o => some (encInt 0x15 h o)
  | .lea h o => some (encInt 0x18 h o)
  | .mov h o => some (encInt 0x19 h o)
  | .sel h o =>
      some (encAlu h 0x16 (encIntTy o.ty) o.d.idx o.d.sel (encOpnd o.a) (encOpnd o.b) (encPred o.p) (litOf [o.a, o.b])
        true Mod.default)
  | .cmp h o =>
      some (encAlu h 0x17 (encIntTy o.ty) o.pd.toNat 3 (encOpnd o.a) (encOpnd o.b) (encCond o.cond) (litOf [o.a, o.b])
        true Mod.default)
  | .moviB32 h d w =>
      some (encRaw { h := h, len := 1, op := 0x1A, sub := 0, d := d.idx, dsel := d.sel, sa := 0, sb := 0, sc := 0,
                     w2 := w.toNat, w3 := 0 })
  | .moviB64 h d w =>
      some (
        if (w.truncate 32 : BitVec 32).signExtend 64 = w then
          encRaw { h := h, len := 1, op := 0x1A, sub := 1, d := d.idx, dsel := d.sel, sa := 0, sb := 0, sc := 0,
                   w2 := w.toNat % 2 ^ 32, w3 := 0 }
        else
          encRaw { h := h, len := 2, op := 0x1A, sub := 1, d := d.idx, dsel := d.sel, sa := 0, sb := 0, sc := 0,
                   w2 := w.toNat % 2 ^ 32, w3 := w.toNat / 2 ^ 32 })
  | .movs h o =>
      some (encS h 0x1B (o.wide.toNat + 4 * o.first.toNat) o.d.idx o.d.sel (encOpnd o.a) (encOpnd o.lane) 0)
  | .xlane h o =>
      some (encS h 0x1C (encXMode o.mode) o.d.idx o.d.sel (encOpnd o.a) (encOpnd o.b) (encOpnd o.c))
  | .agree h m pd q => some (encS h 0x1D (encAgreeMode m) pd.toNat 3 (encPred q) 0 0)
  | .pmask h inv d q => some (encS h 0x1E inv.toNat d.idx d.sel (encPred q) 0 0)
  | .lane h m d => some (encS h 0x1F (encLaneMode m) d.idx d.sel 0 0 0)
  | .pand h pd a b => some (encS h 0x20 0 pd.toNat 3 (encPred a) (encPred b) 0)
  | .por h pd a b => some (encS h 0x21 0 pd.toNat 3 (encPred a) (encPred b) 0)
  | .pxor h pd a b => some (encS h 0x22 0 pd.toNat 3 (encPred a) (encPred b) 0)
  | .pnot h pd a => some (encS h 0x23 0 pd.toNat 3 (encPred a) 0 0)
  | .pmov h pd a => some (encS h 0x24 0 pd.toNat 3 (encPred a) 0 0)
  | .pmovPk h d => some (encS h 0x24 1 d.idx d.sel 0 0 0)
  | .pmovUpk h a => some (encS h 0x24 2 0 3 (encOpnd a) 0 0)
  | .bra h ofs => some (encB h 0x25 0 0 ofs)
  | .braInd h a => some (encS h 0x26 0 0 3 (encOpnd a) 0 0)
  | .call h l ofs => some (encB h 0x27 0 l.toNat ofs)
  | .ret h a => some (encS h 0x28 0 0 3 (encOpnd a) 0 0)
  | .exit h => some (encS h 0x29 0 0 3 0 0 0)
  | .meetSet h ofs => some (encB h 0x2A 0 0 ofs)
  | .meetSetXch h l ofs => some (encB h 0x2A 2 l.toNat ofs)
  | .meetSetFrom h a => some (encS h 0x2A 1 0 3 (encOpnd a) 0 0)
  | .meet h => some (encS h 0x2B 0 0 3 0 0 0)
  | .meetBrk h => some (encS h 0x2C 0 0 3 0 0 0)
  | .nap h a => some (encS h 0x2D 0 0 3 (encOpnd a) 0 0)
  | .region h v1 n1 v2 n2 =>
      some (encB h 0x2E 0 v1.toNat
        (BitVec.ofNat 32 (3 * 2 ^ 30 + n1.toNat * 2 ^ 25 + n2.toNat * 2 ^ 20 + v2.toNat * 2 ^ 12)))
  | .regionEnd h => some (encS h 0x2F 0 0 3 0 0 0)
  | .grow h => some (encS h 0x30 0 0 3 0 0 0)
  | .shrink h => some (encS h 0x31 0 0 3 0 0 0)
  | .phint h b e s =>
      some (encB h 0x32 0 b.toNat (BitVec.ofNat 32 (3 * 2 ^ 30 + e.toNat * 2 ^ 22 + s.toNat * 2 ^ 6)))
  | .contSet h t ofs => some (encB h 0x33 0 t.toNat ofs)
  | .contSetClr h => some (encS h 0x33 1 0 3 0 0 0)
  | .contResume h t => some (encS h 0x34 0 0 3 (768 + t.toNat) 0 0)
  | .trap h c => some (encS h 0x35 0 c.toNat 3 0 0 0)
  | .brkpt h => some (encS h 0x36 0 0 3 0 0 0)
  | .rdsp h d n => some (encS h 0x37 0 d.idx d.sel 0 n.toNat 0)
  | .wrsp h n a => some (encS h 0x38 0 n.toNat 3 (encOpnd a) 0 0)
  | .lead h pd => some (encS h 0x39 0 pd.toNat 3 0 0 0)
  | .fadd h o => some (encFp 0x40 (encFpTy o.ty) 0 h o)
  | .fsub h o => some (encFp 0x41 (encFpTy o.ty) 0 h o)
  | .fmul h o => some (encFp 0x42 (encFpTy o.ty) 0 h o)
  | .fma h o => some (encFp 0x43 (encFpTy o.ty) 0 h o)
  | .fmin h o => some (encFp 0x44 (encFpTy o.ty) 0 h o)
  | .fmax h o => some (encFp 0x45 (encFpTy o.ty) 0 h o)
  | .frcp h o => some (encFp 0x46 (encFpTy o.ty) 0 h o)
  | .frsq h o => some (encFp 0x47 (encFpTy o.ty) 0 h o)
  | .fsqrt h o => some (encFp 0x48 (encFpTy o.ty) 0 h o)
  | .fexp2 h o => some (encFp 0x49 (encFpTy o.ty) 0 h o)
  | .flog2 h o => some (encFp 0x4A (encFpTy o.ty) 0 h o)
  | .fsin h o => some (encFp 0x4B (encFpTy o.ty) 0 h o)
  | .fcos h o => some (encFp 0x4C (encFpTy o.ty) 0 h o)
  | .fcmp h o =>
      some (encAlu h 0x4D (encFpTy o.ty) o.pd.toNat 3 (encOpnd o.a) (encOpnd o.b) (encFCond o.cond) (litOf [o.a, o.b])
        true { Mod.default with ftz := o.ftz })
  | .fclass h o => some (encFp 0x4E (encFpTy o.ty) 0 h o)
  | .frnd h o => some (encFp 0x4F (encFpTy o.ty) 0 h o)
  | .dot2 h o => some (encFp 0x50 (encPairTy o.ty) 0 h o)
  | .pfma h o => some (encFp 0x51 (encPairTy o.ty) 0 h o)
  | .pfmaCx h o => some (encFp 0x51 (encPairTy o.ty) 1 h o)
  | .dadd h o => some (encFp 0x52 0 0 h o)
  | .dmul h o => some (encFp 0x53 0 0 h o)
  | .dfma h o => some (encFp 0x54 0 0 h o)
  | .cvt h o =>
      some (encAlu h 0x60 0 o.d.idx o.d.sel (encOpnd o.a) 0 0 (litOf [o.a]) false
        { rnd := o.rnd, sat := o.sat, ftz := o.ftz, tya := encTy o.tyTo, tyb := encTy o.tyFr, xop := 0 })
  | .pk h o =>
      some (encAlu h 0x61 0 o.d.idx o.d.sel (encOpnd o.a) 0 0 none false
        { rnd := o.rnd, sat := o.sat, ftz := o.ftz, tya := encTy o.fmt, tyb := encTy .f32, xop := 0 })
  | .upk h o =>
      some (encAlu h 0x62 0 o.d.idx o.d.sel (encOpnd o.a) 0 0 (litOf [o.a]) false
        { Mod.default with ftz := o.ftz, tya := encTy .f32, tyb := encTy o.fmt, xop := o.i.toNat })
  | .qnt h o =>
      some (encAlu h 0x63 0 o.d.idx o.d.sel (encOpnd o.a) 0 0 (litOf [o.a]) false
        { Mod.default with rnd := o.rnd, tya := encTy o.fmt, tyb := encTy .f32, xop := o.pk.toNat })
  | .dqnt h o =>
      some (encAlu h 0x64 0 o.d.idx o.d.sel (encOpnd o.a) (encOpnd o.c) 0 (litOf [o.a, o.c]) false
        { Mod.default with rnd := o.rnd, ftz := o.ftz, tya := encTy .f32, tyb := encTy o.fmt, xop := o.i.toNat })
  | .keyx h o =>
      some (encAlu h 0x65 (2 * o.inv.toNat + o.desc.toNat) o.d.idx o.d.sel (encOpnd o.a) 0 0 (litOf [o.a]) false
        { Mod.default with tya := encTy o.ty })
  | .hist h o =>
      some (encAlu h 0x66 o.wide.toNat o.d.idx o.d.sel (encOpnd o.key) (encOpnd o.base) 0 (litOf [o.key, o.base]) false
        { Mod.default with xop := o.shift.toNat + 64 * o.width.toNat })
  | .scan h o =>
      some (encAlu h 0x67 (encScanFn o.fn + 4 * o.excl.toNat) o.d.idx o.d.sel (encOpnd o.a) 0 0 (litOf [o.a]) false
        { Mod.default with rnd := o.rnd, ftz := o.ftz, tya := encTy o.ty, xop := o.all.toNat })
  | .qdx h o =>
      some (encAlu h 0x68 o.coarse.toNat o.d.idx o.d.sel (encOpnd o.a) 0 0 (litOf [o.a]) true
        { Mod.default with rnd := o.rnd, ftz := o.ftz })
  | .qdy h o =>
      some (encAlu h 0x69 o.coarse.toNat o.d.idx o.d.sel (encOpnd o.a) 0 0 (litOf [o.a]) true
        { Mod.default with rnd := o.rnd, ftz := o.ftz })
  | .ld h o => some (encX 0x70 0 h o)
  | .st h o => some (encX 0x71 0 h o)
  | .ldv h o => some (encX 0x72 0 h o)
  | .pf h o => some (encX 0x73 0 h o)
  | .atom h op o => some (encX 0x74 (encAOp op) h o)
  | .atomCas h o => some (encX 0x74 7 h o)
  | .red h op o => some (encX 0x75 (encAOp op) h o)
  | .fence h sc => some (encS h 0x90 0 (encScope sc) 3 0 0 0)
  | .waitc h c n => some (encS h 0x91 0 (encCls c) 3 (encOpnd n) 0 0)
  | .waitV h o =>
      some (encE h 0x92 0 0 3 (encOpnd o.base) (encOpnd o.a) 0
        { Rec.zero with scope := encScope o.scope, ty := encTy o.ty,
                        xf := encCond o.cond + 8 * o.acq.toNat + 16 * o.shared.toNat } o.disp.toNat)
  | .barArrive h sc id => some (encS h 0x93 0 (encScope sc + 16 * id.toNat) 3 0 0 0)
  | .barWait h sc id => some (encS h 0x94 0 (encScope sc + 16 * id.toNat) 3 0 0 0)
  | .boInit h a c => some (encS h 0x95 0 0 3 (encOpnd a) (encOpnd c) 0)
  | .boExpect h a b => some (encS h 0x96 0 0 3 (encOpnd a) (encOpnd b) 0)
  | .boArrive h d a => some (encS h 0x97 0 d.idx d.sel (encOpnd a) 0 0)
  | .boArriveOnce h d a => some (encS h 0x97 1 d.idx d.sel (encOpnd a) 0 0)
  | .boArriveExpect h d a b => some (encS h 0x97 2 d.idx d.sel (encOpnd a) (encOpnd b) 0)
  | .boArriveOnceExpect h d a b => some (encS h 0x97 3 d.idx d.sel (encOpnd a) (encOpnd b) 0)
  | .boWait h a p => some (encS h 0x98 0 0 3 (encOpnd a) (encOpnd p) 0)
  | .copyT h o => some (encCopy 0xA0 0 h o)
  | .copyTCb h o => some (encCopy 0xA0 1 h o)
  | .copyG h o => some (encCopy 0xA1 0 h o)
  | .copyS h o => some (encCopy 0xA2 0 h o)
  | .cbload h vec tk a n =>
      some (encE h 0xA3 0 0 3 (encOpnd a) (encOpnd n) 0 { Rec.zero with tk := tk.toNat, xf := vec.toNat } 0)
  | .cbfree h => some (encE h 0xA4 0 0 3 0 0 0 Rec.zero 0)
  | .tload h t sh a disp => some (encE h 0xB0 0 t.toNat 3 (encOpnd a) 0 0 { Rec.zero with xf := sh.toNat } disp.toNat)
  | .tset h t m q a => some (encE h 0xB1 0 t.toNat 3 (encOpnd a) 0 0 { Rec.zero with xf := q.toNat } m.toNat)
  | .jArm h j m => some (encE h 0xB2 0 (16 * j.toNat) 3 (encOpnd m) 0 0 Rec.zero 0)
  | .mma h o => some (encMma 0xB3 h o)
  | .smma h o => some (encMma 0xB4 h o)
  | .mxLd h acc sp r c tr =>
      some (encE h 0xB5 0 acc.toNat 3 (encOpnd r) (encOpnd c) 0 { Rec.zero with tr := tr.toNat, xf := sp.toNat } 0)
  | .mxSt h o =>
      some (encE h 0xB6 0 o.acc.toNat 3 (encOpnd o.row0) (encOpnd o.col0) 0
        { Rec.zero with tr := o.out.toNat, xf := encRnd o.rnd + 8 * o.sat.toNat + 16 * o.ftz.toNat + 32 * o.sp.toNat }
        (o.ta.toNat + 16 * o.tb.toNat))
  | .mxZero h acc => some (encE h 0xB7 0 acc.toNat 3 0 0 0 Rec.zero 0)
  | .idxWalk h o => some (encCopy 0xB8 0 h o)
  | .idxGather h o => some (encCopy 0xB9 o.col.toNat h o)
  | .rebal h o =>
      some (encE h 0xBA 0 o.d.idx o.d.sel (encOpnd o.a) (encOpnd o.b) (encOpnd o.c)
        { Rec.zero with tk := o.tk.toNat, xf := o.tot.toNat } 0)
  | .collOpen h t tk a => some (encE h 0xC0 0 t.toNat 3 (encOpnd a) 0 0 { Rec.zero with tk := tk.toNat } 0)
  | .collIns h d tr k f p =>
      some (encE h 0xC1 0 d.idx d.sel (encOpnd k) (encOpnd f) (encOpnd p) { Rec.zero with tr := tr.toNat } 0)
  | .collRem h d tr k f p =>
      some (encE h 0xC2 0 d.idx d.sel (encOpnd k) (encOpnd f) (encOpnd p) { Rec.zero with tr := tr.toNat } 0)
  | .collCommit h tr tk => some (encE h 0xC3 0 0 3 0 0 0 { Rec.zero with tr := tr.toNat, tk := tk.toNat } 0)
  | .collIter h t tr lo hi =>
      some (encE h 0xC4 0 t.toNat 3 (encOpnd lo) (encOpnd hi) 0 { Rec.zero with tr := tr.toNat } 0)
  | .collNext h d tr => some (encE h 0xC5 0 d.idx d.sel 0 0 0 { Rec.zero with tr := tr.toNat } 0)
  | .collCount h d tr lo hi =>
      some (encE h 0xC6 0 d.toNat 2 (encOpnd lo) (encOpnd hi) 0 { Rec.zero with tr := tr.toNat } 0)
  | .collClose h tr => some (encE h 0xC7 0 0 3 0 0 0 { Rec.zero with tr := tr.toNat } 0)
  | .ringBoard h a disp => some (encE h 0xD0 0 0 3 (encOpnd a) 0 0 { Rec.zero with scope := 3 } disp.toNat)
  | .ringAlight h a disp => some (encE h 0xD1 0 0 3 (encOpnd a) 0 0 { Rec.zero with scope := 3 } disp.toNat)
  | .ringRd h o => some (encRingW 0xD2 0 h o)
  | .ringUp h op o => some (encRingW 0xD3 (encROp op) h o)
  | .ringUpPop h o => some (encRingW 0xD3 7 h o)
  | .ringCap h o =>
      some (encE h 0xD4 0 o.run.idx o.run.sel (encOpnd o.a) 0 0
        { Rec.zero with tk := o.tk.toNat, scope := encScope o.scope, xf := encOrder o.ord } o.disp.toNat)
  | .ringRet h o =>
      some (encE h 0xD5 0 0 3 (256 * o.run.sel + o.run.idx) 0 0
        { Rec.zero with tk := o.tk.toNat, scope := encScope o.scope, xf := encOrder o.ord } 0)
  | .ringRev h d => some (encE h 0xD6 0 d.idx d.sel 0 0 0 { Rec.zero with scope := 3 } 0)
  | .ringWait h n => some (encE h 0xD7 0 0 3 (encOpnd n) 0 0 { Rec.zero with scope := 3 } 0)
  | .pgBuild h tk a => some (encE h 0xD8 0 0 3 (encOpnd a) 0 0 { Rec.zero with tk := tk.toNat } 0)
  | .pgRefit h tk a => some (encE h 0xD9 0 0 3 (encOpnd a) 0 0 { Rec.zero with tk := tk.toNat } 0)
  | .pgRebal h tk a => some (encE h 0xDA 0 0 3 (encOpnd a) 0 0 { Rec.zero with tk := tk.toNat } 0)
  | .pgPublish h tk a => some (encE h 0xDB 0 0 3 (encOpnd a) 0 0 { Rec.zero with tk := tk.toNat } 0)
  | .pgStat h hd d a => some (encE h 0xDC 0 d.idx d.sel (encOpnd a) 0 0 { Rec.zero with xf := hd.toNat } 0)
  | .trace h any d tk a r =>
      some (encE h 0xDD 0 d.idx d.sel (encOpnd a) (encOpnd r) 0 { Rec.zero with tk := tk.toNat, xf := any.toNat } 0)
  | .comp h tr tk x y k c =>
      some (encE h 0xDE 0 0 3 (encOpnd x) (encOpnd y) (encOpnd k) { Rec.zero with tr := tr.toNat, tk := tk.toNat }
        (encOpnd c))
  | .tret h a => some (encS h 0xF0 0 0 3 (encOpnd a) 0 0)
  | .rdpriv h d n => some (encS h 0xF1 0 d.idx d.sel 0 n.toNat 0)
  | .wrpriv h n a => some (encS h 0xF2 0 0 3 (encOpnd a) n.toNat 0)
  | .saveGroup h a b => some (encE h 0xF3 0 0 3 (encOpnd a) (encOpnd b) 0 Rec.zero 0)
  | .saveBlock h a b => some (encE h 0xF3 1 0 3 (encOpnd a) (encOpnd b) 0 Rec.zero 0)
  | .restoreGroup h a b => some (encE h 0xF4 0 0 3 (encOpnd a) (encOpnd b) 0 Rec.zero 0)
  | .restoreBlock h a b => some (encE h 0xF4 1 0 3 (encOpnd a) (encOpnd b) 0 Rec.zero 0)
  | .halt h => some (encS h 0xF5 0 0 3 0 0 0)
  | .intpendClear h a => some (encS h 0xF2 0 0 3 (encOpnd a) 0x47 0)
  | .xlinv h a => some (encS h 0xF2 0 0 3 (encOpnd a) 0x82 0)
  | .signal h a => some (encS h 0xF2 0 0 3 (encOpnd a) 0x85 0)
  | .sigtkt h a => some (encS h 0xF2 0 0 3 (encOpnd a) 0x89 0)
  | .partmapWrite h a => some (encS h 0xF2 0 0 3 (encOpnd a) 0x102 0)
  | .hostint h a => some (encS h 0xF2 0 0 3 (encOpnd a) 0x104 0)
  | .attaddr h a => some (encS h 0xF2 0 0 3 (encOpnd a) 0x187 0)
  | .eccwinWrite h a => some (encS h 0xF2 0 0 3 (encOpnd a) 0x190 0)
  | _ => none

/-- The bytes of an instruction's words in memory order (R4, R174). -/
def encodeBytes (w : Nat) : List Byte :=
  let n := (lenBytes (fld w 0 2)).getD 4
  (List.range n).map fun k => BitVec.ofNat 8 (w / 2 ^ (8 * k))

end Sys2Proof
end

