-- ==== Sys2Proof/Config.lean ====
section
/-! DEFINITION. The free values: what the spec leaves open and the machine nevertheless needs. Each is a constant
with no body, so nothing can be proved of its value. -/

namespace Sys2Proof.Config

/-- A fresh undefined 32-bit value (R7, R48, R236), read at a counter of State. -/
opaque freeWord : Nat → Word

/-- A fresh undefined 64-bit value (R7), read at a counter of State. -/
opaque freeDWord : Nat → DWord

/-- A fresh undefined byte (R48, R88), read at a counter of State. -/
opaque freeByte : Nat → Byte

/-- What a leaf entry whose mapping is undefined (R338) holds, by its address and the cycle. -/
opaque freeEntry : Nat → Nat → QWord

/-- A fresh implementation choice, read at a counter of State; a user reduces it into the range the spec gives. -/
opaque choice : Nat → Nat

/-- By turn and granule: whether a walker has read the page-table entry there since the last strong access to it (R339). -/
opaque walked : Nat → Nat → Bool

/-- By turn and address: whether a byte that an engine reads for itself, racing a pending write, is the new one (R89). -/
opaque raced : Nat → Nat → Bool

/-- By turn and address: a byte that an engine reads of a pool or an arena into which a program has written (R137, R151). -/
opaque spoilt : Nat → Nat → Byte

/-- Approximated functions (R223, R224): which of the values within the stated bound a stepping returns, for a
function number and an operand pattern. -/
opaque approx : Nat → Nat → Nat

/-- The pool slot that COMMIT_COLLECTION takes (R135), among those the spec allows. -/
opaque poolChoice : Nat → Nat

/-- The shape choices of a Pergola build (R150, R153). -/
opaque treeChoice : Nat → Nat → Nat

/-- SHA3-256 of a byte string (R363, R365), left uninterpreted. -/
opaque sha3 : List Byte → List Byte

/-- ML-DSA signature check of a message under a key digest (R363), left uninterpreted. -/
opaque sigOk : List Byte → List Byte → List Byte → Bool

/-- ML-DSA signature that the device makes of an attestation report (R365), left uninterpreted. -/
opaque sign : List Byte → List Byte

/-- The digests of the four fused public keys (R363), fixed for the package. -/
opaque keyDigest : Nat → List Byte

end Sys2Proof.Config
end

