-- ==== Sys2Proof/Machine/Sparse.lean ====
section
/-! DEFINITION. Finite maps with a default: sorted lists of key and value pairs, the form in which State holds
registers and tables that are mostly at their reset value. -/

namespace Sys2Proof.Machine

/-- A finite map from numbers, kept in rising key order by `sset`. -/
abbrev Sparse (α : Type) := List (Nat × α)

/-- The entry at `k`, if one is listed. -/
def sget? {α : Type} (m : Sparse α) (k : Nat) : Option α :=
  match m with
  | [] => none
  | (k', v) :: t => if k' = k then some v else sget? t k

/-- The entry at `k`, or the default. -/
def sget {α : Type} (m : Sparse α) (k : Nat) (d : α) : α := (sget? m k).getD d

/-- `m` with `v` at `k`. -/
def sset {α : Type} (m : Sparse α) (k : Nat) (v : α) : Sparse α :=
  match m with
  | [] => [(k, v)]
  | (k', v') :: t =>
      if k < k' then (k, v) :: (k', v') :: t
      else if k = k' then (k, v) :: t
      else (k', v') :: sset t k v

/-- `m` without the entry at `k`. -/
def sdel {α : Type} (m : Sparse α) (k : Nat) : Sparse α := m.filter fun e => e.1 != k

/-- Change the entry at `k`, if one is listed. -/
def supd {α : Type} (m : Sparse α) (k : Nat) (f : α → α) : Sparse α :=
  match sget? m k with
  | some v => sset m k (f v)
  | none => m

end Sys2Proof.Machine
end

