-- ==== Sys2Proof/Machine/State.lean ====
section
/-! DEFINITION. The state of the package: memory, and every register and unit the spec gives the machine
(INVENTORY.md, State). Plain data throughout. Numbers of cores, quads, slots and blocks run through the package:
core `64·die + c`, quad `16·die + q`, group slot `128·core + s`, a block by the slot of its group 0. -/

namespace Sys2Proof.Machine

/-- Bytes by key, rising, no key listed with the value an unlisted one reads as. Keys below 2^57 are physical
addresses (R71, R351); scratchpad windows lie above (`spadKey`). -/
abbrev Memory := List Host.Cell

/-! ### Agents and order (R99, R103)

An agent counts epochs, which end at its fences, releases and acquires. A clock says, by agent, how many of its epochs come
before something. -/

abbrev Clock := Sparse Nat

/-- An agent of the memory model: 0 is the host, 1 another package, 2 a walker, 3 what writes completion records; the groups
follow. Its block, with the same
numbers, and the slot it stands in. -/
structure Agent where
  uid : Nat
  blk : Nat
  slot : Nat
  deriving DecidableEq, Repr

/-- What an access keeps of its issue: its group's epoch, what comes before it, the name below which accesses of its block come
before it by a fence or an acquire (R103), and whether it is a release. -/
structure Stamp where
  ep : Nat
  vc : Clock
  sync : Nat
  rel : Bool
  deriving DecidableEq, Repr

/-- A strong access that has performed (R88): address, size, agent, epoch and scope. -/
structure Strong where
  pa : Nat
  n : Nat
  who : Agent
  ep : Nat
  scope : Scope
  deriving DecidableEq, Repr

/-- A release that an acquire may still read (R103): its bytes, agent and scope, and what comes before it. -/
structure Msg where
  pa : Nat
  n : Nat
  who : Agent
  scope : Scope
  vc : Clock
  deriving DecidableEq, Repr

/-! ### Threads -/

/-- R12, Table 2.7. -/
inductive TState where
  | runnable | held | waiting | orphaned | exited
  deriving DecidableEq, Repr

/-- Why a thread waits. -/
inductive Why where
  /-- The instruction has had no effect yet; it issues again (R51). -/
  | hold
  /-- The instruction has issued and its completion is tried again (R51), with the operand values of its issue, by
  lane. -/
  | cont (args : List (Nat × List Nat))
  /-- nap (R203): the cycle at which it began and the cycles each lane asked for. -/
  | nap (start : Nat) (ns : List (Nat × Nat))
  /-- grow (R39). -/
  | grow
  /-- The fault of the instruction is taken once every result owed to the group has landed (R342). -/
  | fault
  deriving DecidableEq, Repr

/-- A wait: its reason and the issue in which it began; threads that began to wait together share one. -/
structure Wait where
  why : Why
  iss : Nat
  /-- The instruction's word and length. -/
  word : Nat
  len : Nat
  deriving DecidableEq, Repr

structure Thread where
  pc : Addr
  m : Option Addr
  stamp : Nat
  st : TState
  wait : Option Wait
  parked : Bool
  p : BitVec 15
  l0 : Word
  l1 : Word
  l2 : Word
  l3 : Word
  /-- Qi ↦ V index (QMAP and QVALID of Table 2.7). -/
  q : Sparse (BitVec 8)
  seed : DWord
  helper : Bool
  pixx : Word
  pixy : Word
  deriving DecidableEq, Repr

/-! ### Registers owed a result -/

/-- A resolved register destination. -/
inductive Reg where
  /-- V register `n` of a lane. -/
  | v (lane n : Nat)
  | s (n : Nat)
  | b (n : Nat)
  /-- Half `h` of T register `n`. -/
  | t (n h : Nat)
  deriving DecidableEq, Repr

/-- How a narrow value fills its container (R239). -/
inductive Ext where
  | zero | sign
  deriving DecidableEq, Repr

/-- A deferred load of one lane (R86). -/
structure LoadP where
  lane : Nat
  va : Addr
  /-- The physical address and size. -/
  pa : Nat
  n : Nat
  /-- A local load (R341), and the addresses of its further 4-byte words. -/
  loc : Bool
  more : List Nat
  /-- The page is read-only (R77). -/
  ro : Bool
  ext : Ext
  /-- A constant load (R73). -/
  cst : Bool
  /-- Not ldv (R242): it may take a lease, and the write path may serve it (R98). -/
  cached : Bool
  strong : Bool
  acq : Bool
  scope : Scope
  /-- The page's lease length (R91). -/
  lease : Nat
  /-- The destination is an S or B register (R239). -/
  wide : Bool
  instr : QWord
  /-- The instruction's executing lanes. -/
  lanes : Word
  iss : Stamp
  /-- The turn at which a later strong access of its thread performed before it, and the narrower of their scopes (R99). -/
  passed : Option (Nat × Scope)
  deriving DecidableEq, Repr

/-- What an outstanding long-latency result waits for. -/
inductive Payload where
  /-- The value is known: one 32-bit word per V destination, or one 64-bit value for S and B. -/
  | ready (ws : List Word)
  | load (l : LoadP)
  /-- An atomic, a ring operation or an engine operation will give it. -/
  | pend
  deriving DecidableEq, Repr

/-- A long-latency result outstanding (R176, R177). `wins` holds, per lane with a window, how many instructions of it
that lane has still to issue. -/
structure Owed where
  id : Nat
  wins : List (Nat × Nat)
  dst : List Reg
  pay : Payload
  deriving DecidableEq, Repr

/-! ### Groups -/

/-- Why a whole group is stopped (R208, R333, R345). -/
inductive Stop where
  | phint | trap | halt
  deriving DecidableEq, Repr

/-- The fault the parked threads wait on (R32, R210). -/
structure Parked where
  pc : Addr
  tok : Nat
  cause : Nat
  /-- Bits 56:16 of the faulting address (Table 11.8). -/
  page : Nat
  signalled : Bool
  /-- It was signalled while the group was stopped: the token is written again before the group goes on (R349). -/
  late : Bool
  deriving DecidableEq, Repr

/-- A held MIXSIZE report (R370, Table 2.9). -/
structure HeldMix where
  addr : Addr
  instr : QWord
  lanes : Word
  deriving DecidableEq, Repr

/-- A group's state at one barrier (R51, R252). -/
structure BarSt where
  arr : Bool
  owe : Bool
  phase : Nat
  deriving DecidableEq, Repr

/-- What a trap frame records (Table 22.5). -/
structure FaultRec where
  cause : Nat
  addr : Addr
  pc : Addr
  lanes : Word
  ver : Nat
  prec : Bool
  data : DWord
  instr : QWord
  /-- A serviceable fault goes to the continuation when there is one (R32). -/
  svc : Bool
  deriving DecidableEq, Repr

/-- A capture a group holds or has lost to the time limit (R120, R121). -/
structure Capture where
  die : Nat
  slot : Nat
  timedOut : Bool
  deriving DecidableEq, Repr

/-- The extended set that a restore still has to load (R350): its registers, and whether go has been given meanwhile. -/
structure ExtIn where
  regs : Sparse Word
  go : Bool
  deriving DecidableEq, Repr

structure Group where
  blk : Nat
  gidx : Nat
  thr : Sparse Thread
  /-- V registers, keyed `256·lane + n`. -/
  v : Sparse Word
  sreg : Sparse DWord
  /-- S registers that an operation still owes a status word (R43). -/
  spend : List Nat
  t : Sparse TRec
  issue : Nat
  /-- Outstanding operations per class code of Table 13.6. -/
  cnt : Sparse Nat
  horizon : Nat
  acks : Nat
  cv : Bool
  contPc : Addr
  contTok : Nat
  extH : Bool
  /-- The cycle at which a waiting grow began (R40). -/
  growW : Option Nat
  /-- V64 to V255 of a restored group that waits for its pair's extended set (R350). -/
  extIn : Option ExtIn
  mBase : BitVec 8
  mExt : BitVec 8
  mSpad : BitVec 16
  pk : Option Parked
  hmix : Option HeldMix
  /-- By barrier: 0 to 15 .blk, 16 to 20 .quad to .sys (Table 2.9). -/
  bar : Sparse BarSt
  stop : Option Stop
  /-- The lanes that issued the instruction whose trap stopped the group; tret returns them to the frame's PC. -/
  stopLanes : List Nat
  /-- Handler records still to append, oldest first (R345 step 4): frame address and cause. -/
  append : List (Nat × Nat)
  pendFault : Option FaultRec
  cap : Option Capture
  /-- Iterators opened and not closed: the descriptor's address, and the generation object's (R142). -/
  iters : List (Nat × Nat)
  /-- Acquiring accesses that have not performed (R102), and stores that a load of the group raced and that have not (R89):
  later accesses of the group wait for them. -/
  acq : List Nat
  /-- Accesses named before it come before the group's last fence or acquire (R103). -/
  sync : Nat
  /-- Its epoch, and what comes before its accesses (R103). -/
  ep : Nat
  vc : Clock
  active : Bool
  /-- One more than the cycle at which the pending group became ready, 0 while it is not (R331). -/
  since : Nat
  /-- Its place in the rotation: one more than the cycle of its last issue (R28). -/
  turn : Nat
  owed : List Owed
  deriving DecidableEq, Repr

/-! ### Blocks and launches -/

/-- A hardware barrier's phase and the members arrived in it (R50, R252). -/
structure Bar where
  phase : Nat
  /-- Slots of the groups arrived in the current phase. -/
  arrived : List Nat
  /-- What comes before the arrivals of the current phase, and before those of the last completed one (R103). -/
  vc : Clock
  done : Clock
  deriving DecidableEq, Repr

/-- The states of a join register (R50). -/
inductive JState where
  | idle | armed | issued
  deriving DecidableEq, Repr

/-- A join register: sets of thread numbers `32·g + l` (R50, R268). -/
structure Join where
  declared : List Nat
  signed : List Nat
  word : QWord
  st : JState
  deriving DecidableEq, Repr

/-- The codebook a block holds (R265, R350). -/
structure Codebook where
  addr : Addr
  entries : Nat
  vec : Nat
  data : List Byte
  deriving DecidableEq, Repr

structure Block where
  launch : Nat
  idx : Nat
  gcnt : Nat
  vbase : Nat
  spad : Nat
  /-- Where its scratchpad window lies in the core's, in KiB (R326). -/
  win : Nat
  acc : Nat
  priv : Bool
  localKb : Nat
  gridx : Nat
  gridy : Nat
  b : Sparse DWord
  bown : Sparse Nat
  /-- One more than the cycle at which a B register was last taken (R44). -/
  bnew : Nat
  bars : Sparse Bar
  joins : Sparse Join
  /-- Accumulators, keyed `4096·a + 64·row + col`. -/
  accs : Sparse Word
  cb : Option Codebook
  /-- The core that asked for a save (R348), and whether the drain is complete (R349). -/
  preq : Option Nat
  drained : Bool
  /-- The stagger (R330), none once it has passed: the cycles that follow the first issue of the named block, or, that
  block having issued, the cycle of first issue. -/
  stagger : Option (Option Nat × Nat)
  /-- Records that its threads have announced, in a launch with FUSE = 1: the object, the count at offset 8 before and
  after (R26). -/
  fed : List (Nat × Nat × Nat)
  /-- The quad on which the block was created: its barriers at .quad and .die (R18, R252). -/
  unit : Nat
  /-- The codebook record of R350 for the block's last cbload, and the SPADM map of its last save. -/
  cbRec : Nat
  saved : Nat
  deriving DecidableEq, Repr

/-- A launch record's fields (Table 1.3). -/
structure LRec where
  kaddr : Addr
  sysc : Bool
  help : Bool
  gang : Nat
  pri : Nat
  gpb : Nat
  gw : Nat
  nblk : Nat
  fuse : Bool
  nextq : Nat
  vbase : Nat
  spad : Nat
  acc : Nat
  arg : Addr
  depmap : Addr
  compl : Addr
  inl0 : DWord
  inl1 : DWord
  deriving DecidableEq, Repr

/-- A launch in progress (R323 to R326). -/
structure Launch where
  rec_ : LRec
  queue : Nat
  /-- The die whose page tables translate the launch's addresses: the lowest of its partition (assumption 12). -/
  xdie : Nat
  popTime : Nat
  /-- The cycle of its pop, or since, of the last placing of a block (R327). -/
  waitFrom : Nat
  pri : Nat
  heavy : Bool
  dieMask : Nat
  localKb : Nat
  priv : Bool
  /-- Gang code in force: the record's, or .pkg for an enrolled launch (R325). -/
  gang : Nat
  pbid : Nat
  pbsys : Bool
  pbn : Nat
  /-- The blocks, by launch and index, that appended its record to their launch's NEXTQ (R26). -/
  after : List (Nat × Nat)
  created : List Nat
  retired : List Nat
  ending : Bool
  status : Nat
  bars : Sparse Bar
  /-- What comes before its blocks: the releases that its pop acquired; and before the end of its grid: what the blocks retired so
  far have done (R23, R103, R323). -/
  vc : Clock
  ran : Clock
  deriving DecidableEq, Repr

/-! ### Cores: the write path and L1 -/

/-- What a write-path entry does at its home. -/
inductive WKind where
  | store
  | atomic (op : AOp)
  | cas (cmp : Nat)
  /-- A reduction of the engine operation `id` (R246). -/
  | red (op : AOp) (id : Nat)
  deriving DecidableEq, Repr

/-- A store, atomic or reduction on its way to its home (R86, R98). `data` is little-endian over `n` bytes. -/
structure WEntry where
  id : Nat
  slot : Nat
  lane : Nat
  /-- Further lanes whose values a reduction combines (R246). -/
  also : List Nat
  pa : Nat
  n : Nat
  /-- A word of a local store (R341): fences do not act on it (R74). -/
  loc : Bool
  ty : Ty
  data : Nat
  kind : WKind
  strong : Bool
  acq : Bool
  scope : Scope
  /-- The result owed for the old value, and how it fills its register. -/
  owed : Option Nat
  wide : Bool
  /-- The virtual address and instruction word, for a MIXSIZE report (R88). -/
  va : Addr
  instr : QWord
  lanes : Word
  iss : Stamp
  /-- The turn at which a later strong access of its thread performed before it, and the narrower of their scopes (R99). -/
  passed : Option (Nat × Scope)
  /-- Threads of the core, by slot and lane, whose loads it has served (R95). -/
  readBy : List (Nat × Nat)
  deriving DecidableEq, Repr

/-- An L1 copy of a 128-byte sector: a lease (R91), or a remote-die copy with the contents the sector has had since
the fill, oldest first (R94). A peer's copy forwarded is one more of the same (R77). -/
structure L1Copy where
  sector : Nat
  endRev : Nat
  remote : Bool
  hist : List (List Byte)
  deriving DecidableEq, Repr

/-! ### The ring (06) -/

/-- A slot (Table 6.1). Its STATE is read off these fields at a cycle. -/
structure RSlot where
  /-- An object holds the slot. -/
  used : Bool
  /-- The object's physical address. -/
  obj : Nat
  /-- The payload, 64 bytes. -/
  data : Nat
  /-- The gate passage from which the object rides; before it boards (R116). -/
  from_ : Nat
  captured : Bool
  cstop : Nat
  /-- The capturing group's slot. -/
  cgrp : Nat
  /-- The deadline revolution, in full. -/
  cdl : Nat
  /-- The revolution of the last operation, in full. -/
  touch : Nat
  /-- Marked for alighting: it alights from the first gate passage at or after the cycle while not captured, with the
  cause WHY. -/
  mark : Option (Nat × Nat)
  /-- WHY of the last alighting (Table 6.1). -/
  why : Nat
  /-- The write-back is tried from this cycle on (R122). -/
  wb : Nat
  /-- The stop and revolution of the last release of a capture (R121). -/
  rel : Option (Nat × Nat)
  /-- The cycle of the last ordinary access, and of the gate core's last operation, at the gate (R119). -/
  lastOrd : Option Nat
  lastOwn : Option Nat
  deriving DecidableEq, Repr

/-- A ring operation's lane: its word's offset in the object, operands, and where the old value is owed. -/
structure RLane where
  lane : Nat
  ofs : Nat
  v : Nat
  c : Nat
  helper : Bool
  owed : Option Nat
  deriving DecidableEq, Repr

/-- What a ring operation does to its object. -/
inductive RAct where
  | rd
  | up (op : ROp) (signed : Bool)
  | pop
  | cap (tok : Nat)
  /-- The payload returned; none returns it as captured. -/
  | ret (tok : Nat) (data : Option Nat)
  /-- The step of a collection or Pergola instruction on its generation object (R129), by operation. -/
  | gen (op : Nat)
  /-- One more or one less on pin word `i` of a generation object (R128). -/
  | pin (i : Nat) (up : Bool)
  /-- A doorbell's addition to the count of queue `q`, the host's or a group's (R353). -/
  | bell (v q : Nat) (host : Bool)
  deriving DecidableEq, Repr

/-- An issued ring operation on one object (R119, R125). -/
structure RingOp where
  id : Nat
  /-- The instruction; its operations on several objects share it. -/
  ins : Nat
  /-- The issuing group; none for the host and the engines. -/
  slot : Option Nat
  stop : Nat
  remote : Bool
  obj : Nat
  lanes : List RLane
  act : RAct
  /-- Bytes of the word. -/
  n : Nat
  acq : Bool
  /-- An unpin of the device's own: a release at its scope, whose waits are made at the passage (R101, R288). -/
  rel : Bool
  scope : Scope
  /-- Passages before this cycle do not count. -/
  since : Nat
  /-- The result register is S or B. -/
  wide : Bool
  iss : Stamp
  deriving DecidableEq, Repr

/-- A boarding asked for at the gate, and the slot marked for it on a full ring (R116, R124). -/
structure Board where
  obj : Nat
  slot : Option Nat
  /-- The cycle by which the object is read at the latest, where its slot is free and its line's leases are over (R124). -/
  due : Nat
  deriving DecidableEq, Repr

/-! ### Engine operations (13, 14) -/

/-- Where a byte that an engine moves comes from. -/
inductive BSrc where
  /-- A key of memory or scratchpad. -/
  | key (k : Nat)
  | val (b : Byte)
  /-- Byte `i` of the codebook vector whose index is the byte at a key (R266). -/
  | cb (k i : Nat)
  /-- The byte that a key gave when it was read. -/
  | got (k : Nat) (b : Byte)
  deriving DecidableEq, Repr

/-- Where an engine writes: a key of memory or scratchpad, scale-out space, or the engine itself (an operand). -/
inductive BDst where
  | key (k : Nat)
  | send (sys ofs : Nat)
  | buf
  deriving DecidableEq, Repr

/-- One granule of at most 16 bytes that an engine operation moves (R87): first its bytes are read, then it performs. -/
structure EPart where
  src : List BSrc
  dst : BDst
  val : Option (List Byte)
  deriving DecidableEq, Repr

/-- A collection as an instruction reaches it (Table 7.1): virtual addresses, the generation object's physical address,
and the pages of the staging area and the pool. -/
structure CDesc where
  desc : Nat
  gobj : Nat
  gpa : Nat
  w : Nat
  f : Nat
  k : Nat
  pw : Nat
  stg : Nat
  scap : Nat
  pool : Nat
  pcap : Nat
  stgPages : List Nat
  poolPages : List Nat
  deriving DecidableEq, Repr

/-- One thread's element to stage, and where its status is owed (R283). -/
structure StageLane where
  key : Nat
  ofs : Nat
  pay : Nat
  owed : Option Nat
  deriving DecidableEq, Repr

/-- A Pergola structure as an instruction reaches it (Table 8.1): the generation object's physical address, virtual
addresses, and the pages of the arena and of the source primitives. -/
structure PDesc where
  gpa : Nat
  ptype : Nat
  leafMax : Nat
  dgp : Bool
  nprim : Nat
  acap : Nat
  prim : Nat
  arena : Nat
  arenaPages : List Nat
  primPages : List Nat
  deriving DecidableEq, Repr

/-- A thread's ray (R298): its eight FP32 words, and where its hit record is owed. -/
structure Ray where
  lane : Nat
  helper : Bool
  vals : List Nat
  owed : Option Nat
  deriving DecidableEq, Repr

/-- A fragment of a comp (R301): its pixel's address, key and colour. -/
structure Frag where
  pa : Nat
  key : Nat
  col : List Nat
  deriving DecidableEq, Repr

/-- What an engine operation does beyond its writes. -/
inductive EKind where
  /-- A tile copy or row gather; copy.t.cb with its codebook (R266). -/
  | copy (cb : Option Codebook)
  /-- Reductions of a red, or a send. -/
  | plain
  /-- A codebook to load (R265); its data are the operation's granules. -/
  | codebook (cb : Codebook)
  /-- K, the operands' types, the metadata's presence, .ftz, and the join register (R270, R271). -/
  | mma (acc k : Nat) (ta tb : Ty) (sparse ftz : Bool) (join : Nat)
  | mxLd (acc : Nat)
  | mxZero (acc : Nat)
  /-- The output record, where the tile goes (row and column, or scratchpad offset), scales and modifiers (R274). -/
  | mxSt (acc : Nat) (o : TRec) (shared : Bool) (row col : Nat) (ta tb : TRec) (rnd : Rnd) (sat ftz helper : Bool)
  /-- Destination granules of an mx.st, once granted, are ordinary granules. -/
  | walk
  | gather
  /-- coll.open of a descriptor into a T register (R281), with the results owed. -/
  | collOpen (desc : Nat) (lo hi : Nat)
  | collStage (remove : Bool) (c : CDesc) (lanes : List StageLane)
  /-- A commit, with the records it publishes once it has started, and, once its chunks are on their way, what it
  publishes: payload, status word and chunks (R140). -/
  | collCommit (c : CDesc) (n : Option Nat) (pub : Option (Nat × Nat × List Nat))
  | collIter (c : CDesc) (lo hi : Nat) (owedLo owedHi : Nat)
  | collCount (c : CDesc) (lo hi : Nat) (owed : Nat)
  /-- An iterator (two results) or a count (one) of the group in a slot that has pinned the generation of a payload, and waits to
  read its pool (R117). -/
  | collPinned (slot : Nat) (c : CDesc) (data lo hi : Nat) (owed : List Nat)
  /-- A builder command (0 build, 1 refit, 2 rebal); whether it has claimed the structure; once it has written what it
  writes, its candidate's header and blocks, none for want of one, and its word (R154). -/
  | pgBuild (cmd : Nat) (p : PDesc) (claimed : Bool) (out : Option (Option (Nat × List Nat) × Nat))
  | pgPublish (p : PDesc)
  /-- pg.stat with its results owed (R297). -/
  | pgStat (p : PDesc) (owed : List Nat)
  /-- A trace; once it has pinned, the pin word (R158). -/
  | trace (any : Bool) (p : PDesc) (rays : List Ray) (pin : Option Nat)
  /-- Fragments still to perform, in order (R301). -/
  | comp (frags : List Frag)
  deriving DecidableEq, Repr

/-- An issued engine operation. -/
structure EOp where
  id : Nat
  cls : Cls
  /-- The groups in whose counters it counts; the issuing group first. -/
  slots : List Nat
  blk : Nat
  tok : Option Nat
  word : DWord
  /-- The barrier object it names (R262). -/
  bo : Option Nat
  parts : List EPart
  /-- Reductions or sends still to perform. -/
  left : Nat
  /-- A grant, command or build it still waits for. -/
  waits : Bool
  /-- Scratchpad ranges it reads and writes: offset and length (R108). -/
  spr : List (Nat × Nat)
  spw : List (Nat × Nat)
  kind : EKind
  /-- Stores that its reads raced: its writes wait for them (R89). -/
  raced : List Nat
  deriving DecidableEq, Repr

/-- A leaf entry whose mapping is undefined in a partition: what it maps there (R338). -/
structure Torn where
  entry : Nat
  part : Nat
  va : Nat
  size : Nat
  deriving DecidableEq, Repr

/-- A send the link layer has not accepted yet, or has (R358, R359). -/
structure Send where
  op : Nat
  slot : Nat
  sys : Nat
  ofs : Nat
  data : List Byte
  /-- A fenced send. -/
  fenced : Bool
  deriving DecidableEq, Repr

/-- A generation of a collection, by its generation object, and the pool chunks it uses (R143). -/
structure CGen where
  gpa : Nat
  gen : Nat
  chunks : List Nat
  deriving DecidableEq, Repr

/-- A generation of a Pergola structure, or its candidate, by generation object: the arena blocks it uses, shared ones
included (R151, R158). -/
structure PGen where
  gpa : Nat
  gen : Option Nat
  blocks : List Nat
  deriving DecidableEq, Repr

/-- A reservation-table entry of a quad (R272, R332). -/
structure Resv where
  op : Nat
  /-- Grants that passed it over. -/
  passed : Nat
  since : Nat
  deriving DecidableEq, Repr

/-- A command written to PCMD or RINGCMD that holds its thread (R334, R348). -/
inductive CmdSt where
  | waiting | started | done
  /-- It ends with HANDLE_BAD. -/
  | bad
  deriving DecidableEq, Repr

structure Cmd where
  id : Nat
  code : Nat
  /-- The group that wrote it. -/
  slot : Nat
  /-- PARG, or RINGSEL, when the command was written. -/
  arg : Nat
  st : CmdSt
  /-- The cycle of the write. -/
  since : Nat
  deriving DecidableEq, Repr

structure Core where
  path : List WEntry
  copies : List L1Copy
  intPend : Word
  intMask : Word
  parg : DWord
  pstat : Word
  /-- PCMD commands in order of arrival (R348). -/
  pcmds : List Cmd
  /-- By partition, one more than the cycle in which it last issued (R28). -/
  issued : Sparse Nat
  deriving DecidableEq, Repr

/-! ### Dies, partitions, package -/

structure Die where
  ptRoot : DWord
  frameBase : DWord
  hTmpl : DWord
  hq : Word
  locBase : DWord
  pwrCtl : DWord
  stagger : Word
  ringSel : Word
  ringHlo : DWord
  ringHhi : DWord
  /-- Largest lease end granted per 512-byte line (R92). -/
  leases : Sparse Nat
  slots : Sparse RSlot
  ringQ : List RingOp
  boardQ : List Board
  /-- The drain in force (R334): the group slot that wrote RINGCMD. -/
  drain : Option Nat
  /-- Reservation tables, by quad of the die. -/
  resv : Sparse (List Resv)
  /-- Generations whose chunks are not reclaimed (R143). -/
  gens : List CGen
  /-- Pergola generations and candidates whose blocks are not reclaimed, with their structures (R158). -/
  trees : List (PGen × PDesc)
  /-- Index-engine commands in order of arrival (R277). -/
  idxQ : List Nat
  /-- RINGCMD commands in order of arrival (R334). -/
  ringCmds : List Cmd
  /-- PBUDGET, the average draw, TEMP, TLIMIT (R328, R369). -/
  pbudget : Word
  draw : Nat
  temp : Nat
  tlimit : Word
  /-- The throttle level, and whether it is held at 7 (R329, R369). -/
  level : Nat
  trip : Bool
  /-- The 4,096-cycle window, and whether HEADROOM was 0, and at or above LOW, throughout it so far (R329). -/
  win : Nat
  winZero : Bool
  winHigh : Bool
  eccWin : Word
  eccThr : Word
  eccSel : Word
  eccLast : DWord
  /-- Counts and LAST by bank, keyed `4096·KIND + 64·UNIT + BANK` (R366). -/
  eccCnt : Sparse (Nat × Bool)
  /-- The cycle at which the window of R366 began. -/
  eccStart : Nat
  deriving DecidableEq, Repr

/-- A .pod or .sys barrier of one id (R325): the local part, and what the other packages have reported. -/
structure PodBar where
  bar : Bar
  members : Nat
  arrived : Nat
  exited : Nat
  /-- Launches popped so far, here and in the other packages, and PBN. -/
  pops : Nat
  pbn : Nat
  deriving DecidableEq, Repr

structure Part where
  qbase : DWord
  qctl : DWord
  dbgctl : DWord
  qrange : Word
  rxBase : DWord
  rxSize : DWord
  soDrop : DWord
  sysId : Word
  deriving DecidableEq, Repr

/-- A detached block (R348): its key in `blocks` while it is detached, its ticket, and the bytes of its groups'
local windows (R341). -/
structure Ticket where
  key : Nat
  ticket : Nat
  locals : List (List Byte)
  deriving DecidableEq, Repr

/-- A page in migration (R338): the die, its leaf entry, where it lies and goes, its size, the new tier; operations
named before `mark` may still use the old address. -/
structure Move where
  die : Nat
  leaf : Nat
  old : Nat
  new : Nat
  size : Nat
  tier : Bool
  mark : Nat
  deriving DecidableEq, Repr

/-- Records that a block since retired had announced, in a launch with FUSE = 1 (R26): NEXTQ, the object with its count
before and after, and the block by launch and index. -/
structure Fed where
  queue : Nat
  what : Nat × Nat × Nat
  launch : Nat
  idx : Nat
  deriving DecidableEq, Repr

structure Pkg where
  lrejq : DWord
  podId : Word
  partMap : Word
  /-- By `2·PBID + PBSYS` (R325). -/
  podBars : Sparse PodBar
  /-- The strong accesses to each sector, the last one first (R88). -/
  mix : Sparse (List Strong)
  /-- By object, the releases that an acquire may still read, and the host's epoch and what comes before its accesses (R103,
  R353). -/
  msgs : Sparse (List Msg)
  hostEp : Nat
  hostVc : Clock
  /-- What a sector held before each write to it, with the cycle of the write, oldest first (R73). -/
  consts : Sparse (List (Nat × List Byte))
  /-- Leaf entries that software has changed other than as R338 says, until XLINV covers what they map. -/
  torn : List Torn
  /-- Queues whose producers have broken a rule of R324, and objects read as records and not written since. -/
  broken : List Nat
  stale : List Nat
  /-- Granules of pools and arenas that their engines have written, by address over 16: as they did, or by others since (R137,
  R151). -/
  made : Sparse Bool
  /-- By object, the turn of the last write to it; and the counts at offset 8 that adds to it have left, with the turn of each,
  oldest first (R324). -/
  wrote : Sparse Nat
  told : Sparse (List (Nat × Nat))
  fed : List Fed
  /-- Writes in scale-out space that the link layer has not accepted yet, and those it has, in order of acceptance: what is to be
  written at another package leaves the model there (R358). -/
  sends : List Send
  outbox : List Send
  tickets : List Ticket
  moves : List Move
  /-- Sectors marked poisoned, with the bytes not rewritten since (R84). -/
  poison : Sparse Nat
  rdyPkg : Word
  failPkg : Word
  rdyEng : DWord
  failEng : DWord
  rdyAddr : DWord
  rdyVec : Word
  fwStat : Word
  attStat : Word
  linkStat : Word
  /-- UCIe modules that have failed training (R352). -/
  ucieDown : List Nat
  soRoute : DWord
  /-- The fused rollback counter and revoked keys (R363). -/
  rollback : Nat
  revoked : List Nat
  /-- The digest of the firmware header bytes 0x000 to 0x54F (R365). -/
  fwDigest : List Byte
  /-- Attestation reports since reset (R365), and the last ready record's number (R362). -/
  reports : Nat
  /-- PKGPWR: the package's draw as last measured (Table 24.1). -/
  pkgPwr : BitVec 16
  readySeq : Nat
  /-- Interrupt vectors sent to the host, oldest first (R354). -/
  hostInts : List Nat
  /-- Queues whose doorbells, rung by the host, have applied: acknowledgements sent to it, oldest first (R353). -/
  bellAcks : List Nat
  deriving DecidableEq, Repr

/-! ### Who moves next -/

inductive Who where
  /-- The group in a slot issues (R14). -/
  | group (slot : Nat)
  /-- A waiting thread's wait is looked at again (R34). -/
  | wake (slot lane : Nat)
  /-- A device step of the opcode table. -/
  | device (i : Instr)
  deriving DecidableEq, Repr

/-- A turn: time passes by `dt` cycles, then the agent moves. -/
structure Turn where
  dt : Nat
  who : Who
  deriving DecidableEq, Repr

/-- The issue in progress: the group's slot, the issuing lanes in order, their PC, the instruction's length and word,
and whether the issue was stamped when its wait began. -/
structure Cur where
  slot : Nat
  lanes : List Nat
  pc : Addr
  len : Nat
  word : Nat
  stamped : Bool
  deriving DecidableEq, Repr

/-- Everything but memory. -/
structure Dev where
  now : Nat
  cur : Cur
  groups : Sparse Group
  blocks : Sparse Block
  launches : Sparse Launch
  cores : Sparse Core
  dies : Sparse Die
  parts : Sparse Part
  pkg : Pkg
  ops : List EOp
  turns : List Turn
  tick : Nat
  free : Nat
  nextId : Nat
  deriving DecidableEq, Repr

structure State where
  mem : Memory
  d : Dev
  deriving DecidableEq, Repr

/-- Reasons a step stops. -/
inductive Fault where
  /-- Raised by every instruction meaning when `cur` names no resident group: no machine issues an instruction for a
  group that is not there. Safe. -/
  | noIssuingGroup
  deriving DecidableEq, Repr

inductive Refusal where
  /-- Raised by an arm of `exec` that has no meaning yet, by name. Safe. -/
  | notModelled (mnemonic : String)
  deriving DecidableEq, Repr

/-! ### Reset -/

def Core.reset : Core :=
  { path := [], copies := [], intPend := 0, intMask := 0, parg := 0, pstat := 0, pcmds := [], issued := [] }

def Die.reset : Die :=
  { ptRoot := 0, frameBase := 0, hTmpl := 0, hq := 0, locBase := 0, pwrCtl := 0x100500190, stagger := 0, ringSel := 0,
    ringHlo := 0, ringHhi := 0, leases := [], slots := [], ringQ := [], boardQ := [], drain := none, resv := [], gens := [], trees := [], idxQ := [], ringCmds := [],
    pbudget := 0x398, draw := 0, temp := 0, tlimit := 0x2F8, level := 0, trip := false, win := 0, winZero := false, winHigh := true,
    eccWin := 0x400, eccThr := 0x10, eccSel := 0, eccLast := 0, eccCnt := [], eccStart := 0 }

def Part.reset : Part :=
  { qbase := 0, qctl := 0x400000, dbgctl := 0, qrange := 0x40000000, rxBase := 0, rxSize := 0, soDrop := 0, sysId := 0 }

def Pkg.reset : Pkg :=
  { lrejq := 0, podId := 0, partMap := 0, podBars := [], mix := [], msgs := [], hostEp := 0, hostVc := [], consts := [], torn := [], broken := [], stale := [], made := [], wrote := [], told := [], fed := [], sends := [], outbox := [], pkgPwr := 0, tickets := [],
    moves := [], poison := [], rdyPkg := 0, failPkg := 0, rdyEng := 0, failEng := 0, rdyAddr := 0, rdyVec := 0, fwStat := 0,
    attStat := 0, linkStat := 0, ucieDown := [], soRoute := 0, rollback := 0, revoked := [], fwDigest := [], reports := 0, readySeq := 0,
    hostInts := [], bellAcks := [] }

/-- The package right after reset: no thread exists, memory lists nothing. -/
def State.reset : State :=
  { mem := [],
    d :=
      { now := 0, cur := { slot := 0, lanes := [], pc := 0, len := 8, word := 0, stamped := false }, groups := [],
        blocks := [], launches := [], cores := [], dies := [], parts := [], pkg := Pkg.reset, ops := [], turns := [], tick := 0,
        free := 0, nextId := 0 } }

end Sys2Proof.Machine
end

