-- ==== Sys2Proof/Machine/Mem.lean ====
section
/-! DEFINITION. Memory: reading and writing single bytes of the canonical list, and the working copy that one step
reads and writes through. -/

namespace Sys2Proof.Machine

/-! ### The canonical list -/

/-- What a key that is not listed reads as (assumption 1). -/
def memBlank : Byte := 0

/-- The byte at key `k`. -/
def mread (m : Memory) (k : Nat) : Byte :=
  match m with
  | [] => memBlank
  | (k', b) :: t => if k < k' then memBlank else if k = k' then b else mread t k

/-- `m` with byte `b` at key `k`. -/
def mwrite (m : Memory) (k : Nat) (b : Byte) : Memory :=
  match m with
  | [] => if b = memBlank then [] else [(k, b)]
  | (k', b') :: t =>
      if k < k' then (if b = memBlank then (k', b') :: t else (k, b) :: (k', b') :: t)
      else if k = k' then (if b = memBlank then t else (k, b) :: t)
      else (k', b') :: mwrite t k b

/-- `m` with the `n` bytes from key `k` blank. -/
def mclear (m : Memory) (k n : Nat) : Memory := m.filter fun e => e.1 < k || k + n ≤ e.1

/-- Every listed key is at least `lo`, the keys rise, and no listed byte is the blank one. -/
def memWfFrom (lo : Nat) : Memory → Bool
  | [] => true
  | (k, b) :: t => decide (lo ≤ k) && b != memBlank && memWfFrom (k + 1) t

/-- The canonical form. -/
def memWf (m : Memory) : Bool := memWfFrom 0 m

/-! ### The working copy of a step -/

/-- A change to memory. -/
inductive MemEff where
  | byte (k : Nat) (b : Byte)
  | clear (k n : Nat)
  deriving DecidableEq, Repr

def MemEff.apply (m : Memory) : MemEff → Memory
  | .byte k b => mwrite m k b
  | .clear k n => mclear m k n

/-- Memory as it stood when the step began, what the step has written (newest first), and the rest of the state. -/
structure Work where
  base : Memory
  log : List MemEff
  d : Dev
  deriving DecidableEq, Repr

def begin_ (s : State) : Work := { base := s.mem, log := [], d := s.d }

/-- The state a step leaves. Memory changes only here. -/
def commit (m : Memory) (w : Work) : State :=
  { mem := w.log.foldr (fun e m => e.apply m) m, d := w.d }

/-- The latest byte a log gives for key `k`. -/
def logRead : List MemEff → Nat → Option Byte
  | [], _ => none
  | .byte k' b :: t, k => if k = k' then some b else logRead t k
  | .clear k' n :: t, k => if k' ≤ k ∧ k < k' + n then some memBlank else logRead t k

def Work.byte (w : Work) (k : Nat) : Byte := (logRead w.log k).getD (mread w.base k)

def Work.setByte (w : Work) (k : Nat) (b : Byte) : Work := { w with log := .byte k b :: w.log }

def Work.clear (w : Work) (k n : Nat) : Work := { w with log := .clear k n :: w.log }

/-- Mem[k, n], read little-endian (R8). -/
def Work.load (w : Work) (k : Nat) : Nat → Nat
  | 0 => 0
  | n + 1 => (w.byte k).toNat + 256 * w.load (k + 1) n

/-- Mem[k, n] := x, written little-endian (R8). -/
def Work.store (w : Work) (k : Nat) : Nat → Nat → Work
  | 0, _ => w
  | n + 1, x => (w.setByte k (BitVec.ofNat 8 x)).store (k + 1) n (x / 256)

def Work.loadBytes (w : Work) (k n : Nat) : List Byte := (List.range n).map fun i => w.byte (k + i)

def Work.storeBytes (w : Work) (k : Nat) : List Byte → Work
  | [] => w
  | b :: t => (w.setByte k b).storeBytes (k + 1) t

/-- The key of byte `off` of the scratchpad window of the block whose group 0 is in slot `blk` (R80). -/
def spadKey (blk off : Nat) : Nat := 2 ^ 57 + blk * 2 ^ 19 + off

end Sys2Proof.Machine
end

