-- ==== Sys2Proof/Machine/Phys.lean ====
section
/-! DEFINITION. Places, units and homes: the numbers of cores, dies and slots, physical addresses (R76, R351), readiness
(R361), the revolution clock (R90), where an object's bytes lie (R117), and what every write to memory brings with it:
the histories that copies and constant loads read (R73, R94), poison that it heals (R84), and leaf entries that it makes
undefined (R338). -/

namespace Sys2Proof.Machine

/-! ### Places

A detached block keeps its groups under slots `65536·(k + 1) + slot` (R348), which name no place of a core. -/

def slotCore (slot : Nat) : Nat := slot / 128 % 512
def coreDie (core : Nat) : Nat := core / 64
def slotDie (slot : Nat) : Nat := slot / 8192 % 8
def coreQuad (core : Nat) : Nat := core / 4

/-! ### Reading and writing the units of the package -/

def Dev.core (d : Dev) (c : Nat) : Core := sget d.cores c Core.reset
def Dev.die (d : Dev) (k : Nat) : Die := sget d.dies k Die.reset
def Dev.part (d : Dev) (k : Nat) : Part := sget d.parts k Part.reset

def Work.updDev (w : Work) (f : Dev → Dev) : Work := { w with d := f w.d }
def Work.grp? (w : Work) (slot : Nat) : Option Group := sget? w.d.groups slot
def Work.blk? (w : Work) (b : Nat) : Option Block := sget? w.d.blocks b
def Work.setGrp (w : Work) (slot : Nat) (g : Group) : Work := w.updDev fun d => { d with groups := sset d.groups slot g }
def Work.updGrp (w : Work) (slot : Nat) (f : Group → Group) : Work :=
  w.updDev fun d => { d with groups := supd d.groups slot f }
def Work.updBlk (w : Work) (b : Nat) (f : Block → Block) : Work :=
  w.updDev fun d => { d with blocks := supd d.blocks b f }
def Work.updCore (w : Work) (c : Nat) (f : Core → Core) : Work :=
  w.updDev fun d => { d with cores := sset d.cores c (f (d.core c)) }
def Work.updDie (w : Work) (k : Nat) (f : Die → Die) : Work :=
  w.updDev fun d => { d with dies := sset d.dies k (f (d.die k)) }
def Work.updPart (w : Work) (k : Nat) (f : Part → Part) : Work :=
  w.updDev fun d => { d with parts := sset d.parts k (f (d.part k)) }

def Work.updPkg (w : Work) (f : Pkg → Pkg) : Work := w.updDev fun d => { d with pkg := f d.pkg }

/-! ### Physical addresses -/

/-- Where a physical address lies (Tables 23.1 and 23.2). -/
inductive Home where
  /-- Stacked DRAM or LPDDR homed on a die of the package. -/
  | die (d : Nat)
  /-- Another package of the pod. -/
  | pod
  | host
  | doorbell (q : Nat)
  /-- Scale-out space: system package and offset. -/
  | out (sys ofs : Nat)
  | bad
  deriving DecidableEq, Repr

/-- The die that homes a LOCAL address of DRAM or LPDDR (R76, Table 23.2). -/
def localDie (a : Nat) : Option Nat :=
  if a < 0x3000000000 then some (a / 0x600000000)
  else if 0x10000000000 ≤ a ∧ a < 0x28000000000 then some ((a - 0x10000000000) / 0x3000000000)
  else none

def homeOf (d : Dev) (pa : Nat) : Home :=
  if 2 ^ 56 ≤ pa then .out (pa / 2 ^ 34 % 2 ^ 22) (pa % 2 ^ 34)
  else
    let pkg := pa / 2 ^ 43
    let a := pa % 2 ^ 43
    if pkg = d.pkg.podId.toNat % 2 ^ 13 then
      match localDie a with
      | some k => .die k
      | none =>
          if 0x40000000000 ≤ a ∧ a < 0x40000020000 then .doorbell ((a - 0x40000000000) / 8)
          else if 0x60000000000 ≤ a then .host else .bad
    else if 4608 ≤ pkg then .bad
    else if (localDie a).isSome then .pod else .bad

/-- The partition of a die (R356). -/
def dieParts (d : Dev) (k : Nat) : Nat := d.pkg.partMap.toNat / 2 ^ (3 * k) % 8

/-- May die `k` reach the physical address at all (R351, R356)? `send` says whether a scale-out address is allowed
(R358). -/
def reachable (d : Dev) (k : Nat) (send : Bool) (pa : Nat) : Bool :=
  match homeOf d pa with
  | .die h => dieParts d h == dieParts d k
  | .pod | .host | .doorbell _ => true
  | .out _ _ => send
  | .bad => false

/-! ### Readiness (R361, R357) -/

/-- Bits of RDYPKG and FAILPKG (Table 24.2). -/
def bRING (d : Nat) : Nat := 24 + d
def bSDRAM (d : Nat) : Nat := 16 + d
def bDIE (d : Nat) : Nat := 8 + d

/-- Does a LOCAL address lie in the LPDDR tier? -/
def localTier (pa : Nat) : Bool := decide (0x10000000000 ≤ pa % 2 ^ 43)

/-- An access to the address is served at its home now: the home's memory is ready, a route to it is up. -/
def homeUp (d : Dev) (pa : Nat) : Bool :=
  match homeOf d pa with
  | .die h => d.pkg.rdyPkg.getLsbD (bSDRAM h) && (!localTier pa || d.pkg.rdyEng.getLsbD (8 * h + 5))
  | .pod => d.pkg.linkStat.toNat / 2 ^ 8 % 2 ^ 18 != 0
  | .host => d.pkg.linkStat.toNat % 2 ^ 8 != 0
  | _ => true

/-- The home's memory, or the link to the host, failed its self-test. -/
def homeFailed (d : Dev) (pa : Nat) : Bool :=
  match homeOf d pa with
  | .die h => d.pkg.failPkg.getLsbD (bSDRAM h) || (localTier pa && d.pkg.failEng.getLsbD (8 * h + 5))
  | .host => d.pkg.failPkg.getLsbD 2
  | _ => false

/-! ### The revolution clock (R90, R112) -/

/-- The revolution that stop `s` counts. -/
def stopCount (now s : Nat) : Nat := (now - 2 * s) / 128

/-- The count that a die's home slices read: stop 63's. -/
def homeCount (now : Nat) : Nat := stopCount now 63

/-- The count of the stop of a core. -/
def coreCount (now core : Nat) : Nat := stopCount now (core % 64)

/-- The cycle at which slot `i` passes stop `s` in revolution `n`. -/
def passage (i s n : Nat) : Nat := 128 * n + i / 8 + 2 * s

/-- The first passage of slot `i` past stop `s` at or after cycle `t`. -/
def nextPass (i s t : Nat) : Nat := passage i s ((t - (i / 8 + 2 * s) + 127) / 128)

/-- The revolution of a passage of slot `i` past stop `s` at cycle `c`. -/
def passRev (i s c : Nat) : Nat := (c - (i / 8 + 2 * s)) / 128

/-! ### Riding objects -/

def RSlot.free : RSlot :=
  { used := false, obj := 0, data := 0, from_ := 0, captured := false, cstop := 0, cgrp := 0, cdl := 0, touch := 0,
    mark := none, why := 0, wb := 0, rel := none, lastOrd := none, lastOwn := none }

/-- The object's address of a physical address. -/
def objOf (pa : Nat) : Nat := pa / 64 * 64

/-- The slot in which the object of a physical address lies, and its die. -/
def Dev.rideOf (d : Dev) (pa : Nat) : Option (Nat × Nat × RSlot) :=
  match homeOf d pa with
  | .die h => ((d.die h).slots.find? fun e => e.2.used && e.2.obj == objOf pa).map fun e => (h, e.1, e.2)
  | _ => none

/-- `n` bytes at offset `o` of a payload, and a payload with them changed. -/
def payGet (data o n : Nat) : Nat := data / 2 ^ (8 * o) % 2 ^ (8 * n)
def payPut (data o n x : Nat) : Nat := data - payGet data o n * 2 ^ (8 * o) + x % 2 ^ (8 * n) * 2 ^ (8 * o)

def Work.updSlot (w : Work) (die i : Nat) (f : RSlot → RSlot) : Work :=
  w.updDie die fun e => { e with slots := sset e.slots i (f (sget e.slots i RSlot.free)) }

/-- The byte that a key holds: an object's bytes lie in its slot while it has one. -/
def Work.physByte (w : Work) (k : Nat) : Byte :=
  if k < 2 ^ 57 then
    match w.d.rideOf k with
    | some (_, _, r) => BitVec.ofNat 8 (payGet r.data (k % 64) 1)
    | none => w.byte k
  else w.byte k

def Work.physBytes (w : Work) (k n : Nat) : List Byte := (List.range n).map fun i => w.physByte (k + i)

/-- `n` bytes, at most 16 and aligned, as their home reads them. -/
def Work.homeRead (w : Work) (pa n : Nat) : Nat :=
  match w.d.rideOf pa with
  | some (_, _, r) => payGet r.data (pa % 64) n
  | none => w.load pa n

/-! ### Page-table entries (Tables 22.2, 22.3) -/

/-- Level sizes: index shift, index bits, page size of a leaf, size of the next table (Table 22.2). -/
def lvlShift : Nat → Nat
  | 0 => 41 | 1 => 29 | 2 => 21 | _ => 16
def lvlBits : Nat → Nat
  | 0 => 16 | 1 => 12 | 2 => 8 | _ => 5
def lvlNext : Nat → Nat
  | 0 => 65536 | 1 => 4096 | _ => 512

/-- Fields of an entry (Table 22.3). -/
def eBit (e k : Nat) : Bool := e / 2 ^ k % 2 == 1
def eAddr (e : Nat) : Nat := e / 2 ^ 73 % 2 ^ 48 * 512
def eReserved (e : Nat) : Bool := e / 2 ^ 121 != 0 || e / 2 ^ 16 % 2 ^ 57 != 0 || eBit e 2

/-- Little-endian bytes as a number. -/
def bytesNat (bs : List Byte) : Nat := bs.foldr (fun b x => b.toNat + 256 * x) 0

/-- Bytes of a table of a level. -/
def lvlSize : Nat → Nat
  | 0 => 2 ^ 20
  | n => lvlNext (n - 1)

/-- The table that a die's PTROOT names; 0 is none. -/
def Die.root (e : Die) : Nat := e.ptRoot.toNat % 2 ^ 57 / 2 ^ 20 * 2 ^ 20

def Work.entry16 (w : Work) (a : Nat) : Nat := bytesNat (w.physBytes a 16)

/-- The granules of addresses, one for each run of neighbours. -/
def runs16 : List Nat → List Nat
  | [] => []
  | k :: t =>
      match t with
      | [] => [k / 16 * 16]
      | k' :: _ => if k / 16 = k' / 16 then runs16 t else k / 16 * 16 :: runs16 t

/-- The 16-byte granules that hold something: those of memory and those of riding objects. -/
def Work.granules16 (w : Work) : List Nat :=
  runs16 (w.base.map Prod.fst) ++
    runs16 (w.log.filterMap fun e => match e with | .byte k _ => some k | .clear _ _ => none) ++
    w.d.dies.flatMap fun e => e.2.slots.flatMap fun s => if s.2.used then [0, 16, 32, 48].map (s.2.obj + ·) else []

/-- The partitions whose walks come to a table at `tbl` of level `n`, with the virtual addresses at which it begins there. -/
def Work.tableVas (w : Work) : Nat → Nat → List (Nat × Nat)
  | 0, tbl => ((w.d.dies.filter fun e => e.2.root != 0 && e.2.root == tbl).map fun e => (dieParts w.d e.1, 0)).eraseDups
  | n + 1, tbl =>
      w.granules16.flatMap fun a =>
        let e := w.entry16 a
        if eBit e 0 && !eBit e 1 && !eReserved e && eAddr e == tbl then
          (w.tableVas n (a / lvlSize n * lvlSize n)).map fun q => (q.1, q.2 + a % lvlSize n / 16 * 2 ^ lvlShift n)
        else []

/-- What the valid leaf at an address maps, one entry for each way to it. -/
def Work.leafVas (w : Work) (a : Nat) : List Torn :=
  let e := w.entry16 a
  if eBit e 0 && eBit e 1 then
    [1, 2, 3].flatMap fun n =>
      (w.tableVas n (a / lvlSize n * lvlSize n)).map fun q =>
        { entry := a, part := q.1, va := q.2 + a % lvlSize n / 16 * 2 ^ lvlShift n, size := 2 ^ lvlShift n }
  else []

/-! ### Writes (R73, R84, R94, R338) -/

def sectorOf (pa : Nat) : Nat := pa / 128
def lineOf (pa : Nat) : Nat := pa / 512

def overlap (a n b m : Nat) : Bool := decide (a < b + m) && decide (b < a + n)

/-- The 128 bytes of a sector. -/
def Work.sectorNow (w : Work) (sec : Nat) : List Byte :=
  [128 * sec, 128 * sec + 64].flatMap fun o =>
    match w.d.rideOf o with
    | some (_, _, r) => (List.range 64).map fun i => BitVec.ofNat 8 (payGet r.data i 1)
    | none => w.loadBytes o 64

/-- A sector held `old` and holds `now`: the copies and constant loads that may still return a past value learn them. -/
def Work.noteSector (w : Work) (sec : Nat) (old now : List Byte) : Work :=
  let d := w.d
  { w with d := { d with
      cores := d.cores.map fun e =>
        (e.1, { e.2 with copies := e.2.copies.map fun c =>
          if c.remote ∧ c.sector = sec then { c with hist := c.hist ++ [now] } else c })
      pkg := { d.pkg with consts :=
        if d.launches.isEmpty then d.pkg.consts else sset d.pkg.consts sec (sget d.pkg.consts sec [] ++ [(d.now, old)]) } } }

/-- The leaf entries among the granules of `[pa, pa + n)` whose bytes differ between two states (R338). -/
def Work.tears (w w' : Work) (pa n : Nat) : List Torn :=
  (((List.range ((pa % 16 + n + 15) / 16)).map fun i => pa / 16 * 16 + 16 * i).filter fun a => w.entry16 a != w'.entry16 a).flatMap
    w.leafVas

/-- A change of `n` bytes within one sector, with what it brings about. -/
def Work.rewrite (w : Work) (pa n : Nat) (f : Work → Work) : Work :=
  let w1 := f w
  let torn := (w.tears w1 pa n).filter fun t => !w.d.pkg.torn.contains t
  let w1 := w1.updPkg fun p =>
    { p with stale := p.stale.filter (fun o => o != objOf pa), wrote := sset p.wrote (objOf pa) w.d.tick
             made := p.made.map fun e => (e.1, e.2 && !overlap (16 * e.1) 16 pa n)
             msgs := supd p.msgs (objOf pa) fun l => l.filter fun m => !overlap m.pa m.n pa n }
  let w2 := w1.noteSector (sectorOf pa) (w.sectorNow (sectorOf pa)) (w1.sectorNow (sectorOf pa))
  if torn.isEmpty then w2 else w2.updPkg fun p => { p with torn := p.torn ++ torn }

/-- A write in the way R338 asks for makes no mapping undefined. -/
def Work.properly (w : Work) (f : Work → Work) : Work := (f w).updPkg fun p => { p with torn := w.d.pkg.torn }

/-! ### Poisoned lines (R84) -/

/-- A line with a sector that is still poisoned. -/
def Work.poisoned (w : Work) (pa : Nat) : Bool := w.d.pkg.poison.any fun e => 128 * e.1 / 512 == lineOf pa

/-- Bytes of a poisoned sector have been rewritten. -/
def Work.heal (w : Work) (pa n : Nat) : Work :=
  match sget? w.d.pkg.poison (sectorOf pa) with
  | none => w
  | some m =>
      let m' := m - (m &&& ((2 ^ n - 1) * 2 ^ (pa % 128)))
      w.updPkg fun p => { p with poison := if m' = 0 then sdel p.poison (sectorOf pa) else sset p.poison (sectorOf pa) m' }

/-- `n` bytes are written at their home, all within one object. -/
def Work.homeWrite (w : Work) (pa n x : Nat) : Work :=
  w.rewrite pa n fun w =>
    match w.d.rideOf pa with
    | some (die, i, _) =>
        w.updSlot die i fun r =>
          { r with data := payPut r.data (pa % 64) n x, touch := passRev i 0 w.d.now, lastOrd := some w.d.now }
    | none => (w.store pa n x).heal pa n

/-- `n` 64-byte pieces of a number are written from an object's address on. -/
def Work.writePieces (w : Work) (pa : Nat) : Nat → Nat → Work
  | 0, _ => w
  | n + 1, x => (w.homeWrite pa 64 (x % 2 ^ 512)).writePieces (pa + 64) n (x / 2 ^ 512)

end Sys2Proof.Machine
end

