-- ==== Sys2Proof/Machine/Ops.lean ====
section
/-! DEFINITION. The named operations over groups, blocks and registers, what every instruction does around its own
effect (the checks of R188 step 7 class 1, waits, stamps, meetings), and taking an exception (R345). -/

namespace Sys2Proof.Machine

/-! ### Cause codes (Table 22.4) -/

def cILLEGAL : Nat := 0x1
def cPRIV : Nat := 0x2
def cREG_RANGE : Nat := 0x3
def cEXT_NOTHELD : Nat := 0x4
def cBREG_OWNED : Nat := 0x5
def cGROW_STALL : Nat := 0x6
def cMISALIGN : Nat := 0x10
def cADDR_RANGE : Nat := 0x11
def cSPAD_RANGE : Nat := 0x12
def cLOCAL_RANGE : Nat := 0x13
def cXL_NOMAP : Nat := 0x14
def cXL_PERM : Nat := 0x15
def cXL_BADPTE : Nat := 0x16
def cMIXSIZE : Nat := 0x17
def cRING_INELIG : Nat := 0x18
def cRING_REMOTE : Nat := 0x19
def cBAR_DIVERGED : Nat := 0x20
def cBAR_SCOPE : Nat := 0x21
def cJ_ORPHAN : Nat := 0x22
def cJ_MISMATCH : Nat := 0x23
def cJ_NOTDECL : Nat := 0x24
def cJ_BUSY : Nat := 0x25
def cTREC_BAD : Nat := 0x30
def cCB_NONE : Nat := 0x31
def cUSER_TRAP : Nat := 0x40
def cBRKPT : Nat := 0x41
def cCONT_NESTED : Nat := 0x42
def cHANDLE_BAD : Nat := 0x43
def cFLT_LPDDR : Nat := 0x50
def cFLT_MIGRATE : Nat := 0x51
def cFLT_ABSENT : Nat := 0x52
def cMEM_UNCORR : Nat := 0x60
def cLAUNCH_BAD : Nat := 0x61
def cBLOCK_ENDED : Nat := 0x62

/-- The walk's read waits at a home that is not ready (R361): no cause of Table 22.4. -/
def cWALKWAIT : Nat := 0x10000
/-- The walk reads failed memory or a poisoned line (R84, R361): its block ends. No cause of Table 22.4. -/
def cWALKDEAD : Nat := 0x10001

/-- A fresh free value's index, and the state that has used it. -/
def Work.fresh (w : Work) : Nat × Work := (w.d.free, w.updDev fun d => { d with free := d.free + 1 })

/-- A fresh name for an operation. -/
def Work.newId (w : Work) : Nat × Work := (w.d.nextId, w.updDev fun d => { d with nextId := d.nextId + 1 })

/-! ### Groups and threads -/

def Thread.gone : Thread :=
  { pc := 0, m := none, stamp := 0, st := .exited, wait := none, parked := false, p := 0, l0 := 0, l1 := 0, l2 := 0,
    l3 := 0, q := [], seed := 0, helper := false, pixx := 0, pixy := 0 }

def Group.gone : Group :=
  { blk := 0, gidx := 0, thr := [], v := [], sreg := [], spend := [], t := [], issue := 0, cnt := [], horizon := 0,
    acks := 0, cv := false, contPc := 0, contTok := 0, extH := false, growW := none, extIn := none, mBase := 0xFF, mExt := 0xFF,
    mSpad := 0xFFFF, pk := none, hmix := none, bar := [], stop := none, stopLanes := [], append := [], pendFault := none, cap := none, iters := [], acq := [], sync := 0, ep := 0, vc := [],
    active := false, since := 0, turn := 0, owed := [] }

def Block.gone : Block :=
  { launch := 0, idx := 0, gcnt := 0, vbase := 0, spad := 0, win := 0, acc := 0, priv := false, localKb := 0, gridx := 0,
    gridy := 0, b := [], bown := [], bnew := 0, bars := [], joins := [], accs := [], cb := none, preq := none, drained := false,
    stagger := none, fed := [], unit := 0, cbRec := 0, saved := 0xFFFF }

def Group.thread (g : Group) (l : Nat) : Thread := sget g.thr l Thread.gone
def Group.setThread (g : Group) (l : Nat) (t : Thread) : Group := { g with thr := sset g.thr l t }
def Group.updThread (g : Group) (l : Nat) (f : Thread → Thread) : Group := g.setThread l (f (g.thread l))

/-- The lanes of a group that satisfy `p`, in order. -/
def Group.lanesWith (g : Group) (p : Thread → Bool) : List Nat := (List.range 32).filter fun l => p (g.thread l)

def Thread.alive (t : Thread) : Bool := t.st != .exited
def Thread.runs (t : Thread) : Bool := t.st == .runnable

def Group.live (g : Group) : List Nat := g.lanesWith Thread.alive

/-- The slot, group and block that issue. -/
def Work.slot (w : Work) : Nat := w.d.cur.slot
def Work.g (w : Work) : Group := (w.grp? w.slot).getD Group.gone
def Work.blk (w : Work) : Block := (w.blk? w.g.blk).getD Block.gone
def Work.updG (w : Work) (f : Group → Group) : Work := w.updGrp w.slot f
def Work.updB (w : Work) (f : Block → Block) : Work := w.updBlk w.g.blk f
def Work.coreNo (w : Work) : Nat := slotCore w.slot
def Work.dieNo (w : Work) : Nat := slotDie w.slot

/-- A lane mask (Table 22.5). -/
def maskOf (ls : List Nat) : Word := BitVec.ofNat 32 ((ls.map fun l => 2 ^ l).sum)

/-! ### Predicates and registers -/

/-- P15 reads true (R46). -/
def Thread.pred (t : Thread) (p : BitVec 4) : Bool := p.toNat == 15 || t.p.getLsbD p.toNat

def Thread.predF (t : Thread) (q : PredF) : Bool := t.pred q.p != q.neg

/-- A write to P15 is discarded (R46). -/
def Thread.setPred (t : Thread) (p : BitVec 4) (b : Bool) : Thread :=
  if p.toNat = 15 then t
  else { t with p := if b then t.p ||| (1#15 <<< p.toNat) else t.p &&& ~~~(1#15 <<< p.toNat) }

def Group.readV (g : Group) (l n : Nat) : Word := sget g.v (256 * l + n) 0
def Group.writeV (g : Group) (l n : Nat) (x : Word) : Group := { g with v := sset g.v (256 * l + n) x }

/-- The V register that Qi names in a lane (R41). -/
def Thread.qmap (t : Thread) (i : Nat) : Option Nat := (sget? t.q i).map BitVec.toNat

def Group.readQ (g : Group) (l i : Nat) : Word :=
  match (g.thread l).qmap i with
  | some n => g.readV l n
  | none => 0

def Group.writeQ (g : Group) (l i : Nat) (x : Word) : Group :=
  match (g.thread l).qmap i with
  | some n => g.writeV l n x
  | none => g

def Group.readS (g : Group) (n : Nat) : DWord := sget g.sreg n 0
def Group.writeS (g : Group) (n : Nat) (x : DWord) : Group := { g with sreg := sset g.sreg n x }
/-- A B register. Before the barrier phase completes another group may read the old value or the new one (R45); here it reads
the new one (DESIGN CHOICE, assumption 70). -/
def Block.readB (b : Block) (n : Nat) : DWord := sget b.b n 0
def Block.writeB (b : Block) (n : Nat) (x : DWord) : Block := { b with b := sset b.b n x }

def Thread.readL (t : Thread) (i : Nat) : Word :=
  match i with
  | 0 => t.l0 | 1 => t.l1 | 2 => t.l2 | _ => t.l3

/-- Push a result into the last-result file (R42). -/
def Thread.push (t : Thread) (x : Word) : Thread := { t with l3 := t.l2, l2 := t.l1, l1 := t.l0, l0 := x }

def Group.readT (g : Group) (n : Nat) : TRec := sget g.t n 0
def Group.writeT (g : Group) (n : Nat) (x : TRec) : Group := { g with t := sset g.t n x }

/-! ### The registers an instruction names (R38, R41, R43, R44, R46) -/

inductive Named where
  | v (n : Nat)
  | q (i : Nat)
  | s (n : Nat)
  | b (n : Nat)
  /-- An accumulator (R46). -/
  | a (n : Nat)
  /-- Half `h` of T register `n`. -/
  | t (n h : Nat)
  deriving DecidableEq, Repr

end Sys2Proof.Machine

namespace Sys2Proof
open Machine

/-- The registers of an operand of `c` registers. -/
def Opnd.names (o : Opnd) (c : Nat) : List Named :=
  match o with
  | .v i => (List.range c).map fun k => .v (i.toNat + k)
  | .q i => (List.range c).map fun k => .q (i.toNat + k)
  | .s i => [.s i.toNat]
  | .b i => [.b i.toNat]
  | .l _ | .inl _ | .named _ | .lit _ => []

def Dst.names (d : Dst) (c : Nat) : List Named :=
  match d with
  | .v i => (List.range c).map fun k => .v (i.toNat + k)
  | .q i => (List.range c).map fun k => .q (i.toNat + k)
  | .s i => [.s i.toNat]
  | .b i => [.b i.toNat]
  | .none => []

end Sys2Proof

namespace Sys2Proof.Machine

/-- The register a name stands for in a lane. -/
def Named.reg (g : Group) (l : Nat) : Named → Option Reg
  | .v n => some (.v l n)
  | .q i => ((g.thread l).qmap i).map fun n => .v l n
  | .s n => some (.s n)
  | .b n => some (.b n)
  | .a _ => none
  | .t n h => some (.t n h)

/-- Both halves of a T register. -/
def tNames (n : BitVec 4) : List Named := [.t n.toNat 0, .t n.toNat 1]

/-- How much of the window of `e` the lane has left. -/
def Owed.left (e : Owed) (l : Nat) : Nat := ((e.wins.find? fun p => p.1 == l).map (·.2)).getD 0

/-- An instruction naming `r` in lane `l` waits for a result (R176, R177). -/
def Group.blocked (g : Group) (ver1 : Bool) (l : Nat) (r : Reg) : Bool :=
  g.owed.any fun e => e.dst.contains r && !(ver1 && 0 < e.left l)

/-- Some issuing thread must wait for a register the instruction names (R43, R176 to R178). A result owed to a B
register is owed by a group of the block, here by the issuing one (R44). -/
def Group.mustWait (g : Group) (ver1 : Bool) (lanes : List Nat) (ns : List Named) : Bool :=
  ns.any fun n =>
    (match n with | .s k => g.spend.contains k | _ => false) ||
      lanes.any fun l => match n.reg g l with | some r => g.blocked ver1 l r | none => false

/-- R38 for one V register. -/
def vCheck (vbase : Nat) (ext : Bool) (n : Nat) : Nat :=
  if n < 64 then (if 8 * vbase ≤ n then cREG_RANGE else 0) else if ext then 0 else cEXT_NOTHELD

/-- The register checks of R188 step 7 class 1 for executing lanes `x`: 0, or the cause. -/
def regCheck (g : Group) (b : Block) (x : List Nat) (src dst : List Named) : Nat :=
  let ns := src ++ dst
  if ns.any (fun n => match n with | .v k => vCheck b.vbase g.extH k == cREG_RANGE | _ => false) then cREG_RANGE
  else if ns.any (fun n => match n with | .v k => vCheck b.vbase g.extH k == cEXT_NOTHELD | _ => false) then cEXT_NOTHELD
  else if ns.any (fun n => match n with | .q i => x.any fun l => ((g.thread l).qmap i).isNone | _ => false) then cREG_RANGE
  else if ns.any (fun n => match n with | .a k => b.acc ≤ k | _ => false) then cREG_RANGE
  else if dst.any (fun n => match n with
      | .b k => match sget? b.bown k with | some o => o != g.gidx | none => false
      | _ => false) then cBREG_OWNED
  else 0

/-- Naming an unowned B register as a destination owns it, at cycle `now` (R44). -/
def Block.own (b : Block) (now gidx : Nat) : List Named → Block
  | [] => b
  | .b k :: t => (if (sget? b.bown k).isSome then b else { b with bown := sset b.bown k gidx, bnew := now + 1 }).own now gidx t
  | _ :: t => b.own now gidx t

/-- The ownership that an instruction takes at its issue, and not again where a wait in it is looked at (R44). -/
def Block.take (b : Block) (stamped : Bool) (now gidx : Nat) (ds : List Named) : Block :=
  if stamped then b else b.own now gidx ds

/-- Windows of a lane close when it stops running (R177). -/
def Group.closeWin (g : Group) (l : Nat) : Group :=
  { g with owed := g.owed.map fun e => { e with wins := e.wins.map fun p => if p.1 = l then (l, 0) else p } }

/-- Every window of the group closes: results land as they become available (R342). -/
def Group.closeAll (g : Group) : Group := (List.range 32).foldl Group.closeWin g

/-- Lanes waiting in a grow, and since when some do (R40). -/
def Group.growers (g : Group) : List Nat := g.lanesWith fun t => t.st == .waiting && (t.wait.map Wait.why) == some .grow
def Group.stillGrows (g : Group) : Group := if g.growers.isEmpty && g.extIn.isNone then { g with growW := none } else g

/-! ### Meetings (R13) -/

/-- A thread whose PC has reached its M becomes held, and its windows close (R177). -/
def Group.arrive (g : Group) (l : Nat) : Group :=
  if (g.thread l).st = .runnable ∧ (g.thread l).m = some (g.thread l).pc then
    (g.closeWin l).updThread l fun t => { t with st := .held }
  else g

/-- Every thread that has not exited and has the M of a held thread is held. -/
def Group.cohortHeld (g : Group) (l : Nat) : Bool :=
  (g.thread l).st == .held && (List.range 32).all fun k =>
    (g.thread k).st == .exited || (g.thread k).m != (g.thread l).m || (g.thread k).st == .held

/-- The threads of complete cohorts of `g0` are released. -/
def Group.release (g0 g : Group) (l : Nat) : Group :=
  if g0.cohortHeld l then g.updThread l fun t => { t with st := .runnable, m := none } else g

/-- Threads whose PC has reached their M become held; complete cohorts are released. -/
def Group.meetings (g : Group) : Group :=
  let g0 := (List.range 32).foldl Group.arrive g
  (List.range 32).foldl (Group.release g0) g0

/-! ### Taking an exception (R345) -/

/-- The group handle of a slot (Table 21.2). -/
def groupHandle (slot : Nat) : Nat := 2 ^ 21 * (slot / 8192) + 2 ^ 15 * (slot / 128 % 64) + 2 ^ 8 * (slot % 128)

def blockHandle (blk : Nat) : Nat := 2 ^ 63 + groupHandle blk

/-- A die's frame area (R344). -/
def Dev.frameArea (d : Dev) (die : Nat) : Nat := (d.die die).frameBase.toNat % 2 ^ 57 / 2 ^ 22 * 2 ^ 22

/-- The address of a slot's trap frame (R344); the notice frame lies 256 bytes on. -/
def Dev.frameAddr (d : Dev) (slot : Nat) : Nat := d.frameArea (slotDie slot) + 512 * (slot % 8192)

/-- The 64 bytes of Table 22.5, as one number. -/
def frameBits (f : FaultRec) (handle : Nat) (priv : Bool) : Nat :=
  1 + 2 ^ 64 * f.data.toNat + 2 ^ 140 * f.prec.toNat + 2 ^ 141 * priv.toNat + 2 ^ 142 * f.ver + 2 ^ 144 * f.cause +
    2 ^ 160 * f.lanes.toNat + 2 ^ 199 * f.pc.toNat + 2 ^ 263 * f.addr.toNat + 2 ^ 320 * handle + 2 ^ 384 * f.instr.toNat

/-- INTPEND bit `k` of a core is set (Table 21.6). -/
def Work.raiseInt (w : Work) (core k : Nat) : Work :=
  w.updCore core fun c => { c with intPend := c.intPend ||| (1#32 <<< k) }

/-- A frame at an address lies in the areas of two dies: its content is undefined (R344). -/
def Dev.frameShared (d : Dev) (addr : Nat) : Bool :=
  decide (1 < ((List.range 8).filter fun k => d.frameArea k ≤ addr ∧ addr < d.frameArea k + 2 ^ 22).length)

/-- A 256-byte frame is written: the 64 bytes of Table 22.5, then zeros; free bytes where two dies' areas overlap (R7,
R344). -/
def Work.frameWrite (w : Work) (addr x : Nat) : Work :=
  if w.d.frameShared addr then
    let n := w.d.free
    (w.updDev fun d => { d with free := d.free + 256 }).writePieces addr 4
      (bytesNat ((List.range 256).map fun i => Config.freeByte (n + i)))
  else w.writePieces addr 4 x

/-- A frame is written, TRAP is set and, when HQ is enabled, a handler record is owed to HQ (R345 steps 2 to 4). -/
def Work.writeFrame (w : Work) (slot addr : Nat) (f : FaultRec) (priv : Bool) : Work :=
  let w := (w.frameWrite addr (frameBits f (groupHandle slot) priv)).raiseInt (slotCore slot) 1
  if (w.d.die (slotDie slot)).hq.getLsbD 31 then w.updGrp slot fun g => { g with append := g.append ++ [(addr, f.cause)] } else w

/-- Threads that waited for the fault to be taken stay at their PC. -/
def Thread.unwait (t : Thread) : Thread := if t.st = .waiting then { t with st := .runnable, wait := none } else t

/-- A trap: the group stops and its frame is written (R345). `lanes` are the instruction's issuing lanes. -/
def Work.takeTrap (w : Work) (slot : Nat) (lanes : List Nat) (f : FaultRec) : Work :=
  let g := (w.grp? slot).getD Group.gone
  let priv := ((w.blk? g.blk).getD Block.gone).priv
  (w.updGrp slot fun g =>
    { g with stop := some .trap, stopLanes := lanes, active := false, pendFault := none }).writeFrame slot
    (w.d.frameAddr slot) f priv

/-- The fault token of Table 11.8. -/
def tokenBits (sig : Bool) (page cause : Nat) : DWord :=
  BitVec.ofNat 64 (2 ^ 63 * sig.toNat + 2 ^ 16 * page + cause)

/-- A serviceable fault goes to the continuation: the token is written, `lanes` are parked with `f.pc` as their saved
PC and continue at CONTPC (R32, R210). FLT_ABSENT writes the notice frame (R347). -/
def Work.enterCont (w : Work) (slot : Nat) (lanes : List Nat) (f : FaultRec) (page : Nat) : Work :=
  let g := (w.grp? slot).getD Group.gone
  let priv := ((w.blk? g.blk).getD Block.gone).priv
  let w := w.updGrp slot fun g =>
    (Group.meetings
      { lanes.foldl (fun g l => g.updThread l fun t =>
            { t with st := .runnable, wait := none, parked := true, pc := g.contPc }) g with
        pk := some { pc := f.pc, tok := g.contTok, cause := f.cause, page := page, signalled := false, late := false }
        sreg := sset g.sreg g.contTok (tokenBits false page f.cause)
        pendFault := none }).stillGrows
  if f.cause = cFLT_ABSENT then
    w.writeFrame slot (w.d.frameAddr slot + 256) { f with data := BitVec.ofNat 64 g.contTok } priv
  else w

def Group.anyParked (g : Group) : Bool := (List.range 32).any fun l => (g.thread l).parked && (g.thread l).alive

/-- A fault of kind F or S of the lanes `lanes` is taken (R32, R33, R345). -/
def Work.takeFault (w : Work) (slot : Nat) (lanes : List Nat) (f : FaultRec) : Work :=
  let g := (w.grp? slot).getD Group.gone
  if f.svc && g.cv && !g.anyParked then
    w.enterCont slot lanes f (if f.cause = cGROW_STALL then 0 else f.addr.toNat / 2 ^ 16)
  else
    let f := if f.svc && g.anyParked then { f with cause := cCONT_NESTED } else f
    (w.updGrp slot fun g => (lanes.foldl (fun g l => g.updThread l Thread.unwait) g).stillGrows).takeTrap slot lanes f

/-! ### Issue -/

/-- How an instruction's own effect ends. -/
inductive Res where
  /-- It is done; the listed lanes continue at the given addresses, every other issuing lane behind it. -/
  | ok (w : Work) (jumps : List (Nat × Addr))
  /-- A fault of kind F with its cause and ADDR. -/
  | trap (cause addr : Nat)
  /-- A serviceable fault (or a translation fault of kind F) with its cause and address. -/
  | xlate (cause addr : Nat)
  /-- It waits before it has had any effect. -/
  | hold
  /-- It has issued; the listed lanes wait in it, for the given reason, every other issuing lane goes on. -/
  | wait (w : Work) (lanes : List Nat) (why : Why) (jumps : List (Nat × Addr))
  deriving DecidableEq, Repr

def Cur.next (c : Cur) : Addr := c.pc + BitVec.ofNat 57 c.len

/-- One more instruction of the lanes has issued: their windows shrink (R177). -/
def Group.stepWins (g : Group) (lanes : List Nat) : Group :=
  { g with owed := g.owed.map fun e =>
      { e with wins := e.wins.map fun p => if lanes.contains p.1 then (p.1, p.2 - 1) else p } }

/-- The partition of the current issue has not used this cycle (R28). -/
def Work.unissue (w : Work) : Work :=
  w.updCore w.coreNo fun c => { c with issued := sdel c.issued (w.slot % 4) }

/-- The issuing lanes wait, with nothing done; the cycle is left to another group where the instruction waits. -/
def Work.holdAll (w : Work) (why : Why) : Work :=
  let c := w.d.cur
  (if why = .hold ∧ !c.stamped then w.unissue else w).updG fun g => c.lanes.foldl (fun g l => (g.closeWin l).updThread l fun t =>
    { t with st := .waiting, wait := some { why := why, iss := g.issue, word := c.word, len := c.len } }) g

/-- A thread of an instruction that has issued as the group's `n`-th: its stamp (R14), and where and how it goes on. -/
def Thread.ends (c : Cur) (n : Nat) (waiting : List Nat) (why : Why) (jumps : List (Nat × Addr)) (l : Nat) (t : Thread) :
    Thread :=
  if t.st = .exited then t
  else
    let t := if c.stamped then t else { t with stamp := n }
    if waiting.contains l then
      { t with st := .waiting,
               wait := some { why := why, iss := (if c.stamped then (t.wait.map Wait.iss).getD n else n),
                              word := c.word, len := c.len } }
    else
      { t with st := .runnable, wait := none, pc := ((jumps.find? fun j => j.1 == l).map (·.2)).getD c.next }

/-- The group after an instruction: the issue counter, the issuing threads, the windows of those that wait, then the
meetings. -/
def Group.ends (c : Cur) (waiting : List Nat) (why : Why) (jumps : List (Nat × Addr)) (g : Group) : Group :=
  let n := if c.stamped then g.issue else g.issue + 1
  (c.lanes.foldl (fun (g : Group) l =>
    (if (g.thread l).st ≠ .exited ∧ waiting.contains l then g.closeWin l else g).updThread l
      (Thread.ends c n waiting why jumps l)) { g with issue := n }).meetings

/-- Stamps (R14), PCs and states of the issuing lanes after an instruction, then the meetings. -/
def Work.finish (w : Work) (waiting : List Nat) (why : Why) (jumps : List (Nat × Addr)) : Work :=
  w.updG (Group.ends w.d.cur waiting why jumps)

/-- The frame of the current instruction for a cause (R342, Table 22.5). -/
def Work.faultRec (w : Work) (cause addr : Nat) (x : List Nat) (svc : Bool) : FaultRec :=
  let c := w.d.cur
  { cause := cause, addr := BitVec.ofNat 57 addr, pc := c.pc, lanes := maskOf x, ver := fld' c.word 2 2, prec := true,
    data := if cause = cBAR_DIVERGED ∨ cause = cBAR_SCOPE then BitVec.ofNat 64 (fld' c.word 24 8) else 0,
    instr := BitVec.ofNat 128 c.word, svc := svc }
where fld' (w lo n : Nat) : Nat := w / 2 ^ lo % 2 ^ n

/-- A fault is to be taken once every result owed to the group has landed: every window closes, and nothing more issues
(R342). -/
def Work.pend (w : Work) (f : FaultRec) : Work := w.updG fun g => { g.closeAll with pendFault := some f }

/-- A fault of the issuing instruction is raised: it is taken at once, or once every owed result has landed (R342). -/
def Work.raise (w : Work) (f : FaultRec) : Work :=
  if w.g.owed.isEmpty then w.takeFault w.slot w.d.cur.lanes f
  else (w.holdAll .fault).pend f

/-- Is the cause one of the serviceable faults (R32)? -/
def isService (cause : Nat) : Bool := cause == cFLT_LPDDR || cause == cFLT_MIGRATE || cause == cFLT_ABSENT

/-- Its walk, for an address, reads what cannot be read: the block is to end, which the wait's next look does. -/
def Work.doom (w : Work) (va : Nat) (x : List Nat) : Work := (w.holdAll .fault).pend (w.faultRec cWALKDEAD va x false)

/-- What the issue of an instruction leaves. One that faults, or waits before any effect, leaves the issue counter and the
stamps as they were (DESIGN CHOICE, assumption 69: R14 does not say whether it counts as an issue). -/
def Res.finish (w : Work) (x : List Nat) : Res → Work
  | .ok w' js => w'.finish [] .hold js
  | .trap c a => if c = cWALKWAIT then w.holdAll .hold else w.raise (w.faultRec c a x false)
  | .xlate c a =>
      if c = cWALKWAIT then w.holdAll .hold else if c = cWALKDEAD then w.doom a x
      else w.raise (w.faultRec c a x (isService c))
  | .hold => w.holdAll .hold
  | .wait w' ls why js => w'.finish ls why js

/-- The executing lanes (R178). -/
def Group.executing (g : Group) (h : Hdr) (lanes : List Nat) : List Nat :=
  lanes.filter fun l => (g.thread l).predF { neg := h.neg, p := h.grd }

/-- The operand values with which a lane's wait began: those kept with the wait, or these at issue. -/
def Work.kept (w : Work) (l : Nat) (now : List Nat) : List Nat :=
  if w.d.cur.stamped then
    match (w.g.thread l).wait.map Wait.why with
    | some (.cont args) => ((args.find? fun p => p.1 == l).map (·.2)).getD now
    | _ => now
  else now

/-- The windows of the issuing lanes have moved on by one instruction (R177). -/
def Work.passed (w : Work) : Work := w.updG fun g => if w.d.cur.stamped then g else g.stepWins w.d.cur.lanes

/-- The work of `issue` once a group is known to issue. -/
def Work.issue (w : Work) (h : Hdr) (src dst : List Named) (body : Work → List Nat → Res) : Work :=
  let lanes := w.d.cur.lanes
  let g := w.g
  if !w.d.cur.stamped && g.mustWait h.ver1 lanes (src ++ dst) then w.holdAll .hold
  else
    let x := g.executing h lanes
    let w := w.passed
    match x with
    | [] => w.finish [] .hold []
    | _ :: _ =>
        match if w.d.cur.stamped then 0 else regCheck g w.blk x src dst with
        | 0 => (body (w.updB fun b => b.take w.d.cur.stamped w.d.now g.gidx dst) x).finish w x
        | c => w.raise (w.faultRec c 0 x false)

/-- An encoded instruction of the issuing group: at its issue the waits on the registers it names (R43, R176 to R178) and the
register checks (R188), then its own effect `body` on the executing lanes. -/
def issue (s : State) (h : Hdr) (src dst : List Named) (body : Work → List Nat → Res) :
    Host.Outcome State Fault Refusal :=
  match (begin_ s).grp? s.d.cur.slot with
  | none => .fault .noIssuingGroup
  | some _ => .next (commit s.mem ((begin_ s).issue h src dst body))

/-! ### Waits -/

/-- Threads that share lane `l`'s wait. -/
def Group.waitMates (g : Group) (l : Nat) : List Nat :=
  g.lanesWith fun t => t.st == .waiting && t.wait == (g.thread l).wait && t.pc == (g.thread l).pc

/-- Waiting lanes go on behind the instruction they wait in. -/
def Work.release (w : Work) (slot : Nat) (ls : List Nat) : Work :=
  w.updGrp slot fun g =>
    (ls.foldl (fun g l => g.updThread l fun t =>
      match t.wait with
      | some wt => { t with st := .runnable, wait := none, pc := t.pc + BitVec.ofNat 57 wt.len }
      | none => t) g).meetings

/-- The cycles lane `l` asked for. -/
def napOf (ns : List (Nat × Nat)) (l : Nat) : Nat := ((ns.find? fun p => p.1 == l).map (·.2)).getD 0

/-- A device step. -/
def device (s : State) (f : Work → Work) : Host.Outcome State Fault Refusal := .next (commit s.mem (f (begin_ s)))

end Sys2Proof.Machine
end

