-- ==== Sys2Proof/Machine/Operands.lean ====
section
/-! DEFINITION. Reading operands and writing results in every form the spec gives (R181, R190, R191, R239). -/

namespace Sys2Proof.Machine

/-- An inline integer (Table 10.7). -/
def inlWord (i : BitVec 6) : Word := i.signExtend 32
def inlDWord (i : BitVec 6) : DWord := i.signExtend 64

/-- The named constants as FP32 patterns (Table 10.7). -/
def namedF32 (i : BitVec 3) : Word :=
  match i.toNat with
  | 0 => 0x3F000000 | 1 => 0xBF000000 | 2 => 0x3E800000 | 3 => 0xBE800000 | 4 => 0x3E22F983 | 5 => 0x40490FDB
  | 6 => 0x3F317218 | _ => 0x3FB8AA3B

/-- A 32-bit operand as a pattern, in a lane; an inline integer and the LIT word supply their pattern. -/
def Work.op32 (w : Work) (l : Nat) : Opnd → Word
  | .v i => w.g.readV l i.toNat
  | .q i => w.g.readQ l i.toNat
  | .l i => (w.g.thread l).readL i.toNat
  | .s i => (w.g.readS i.toNat).truncate 32
  | .b i => (w.blk.readB i.toNat).truncate 32
  | .inl i => inlWord i
  | .named i => namedF32 i
  | .lit x => x

/-- A 64-bit operand as a pattern, in a lane (R190). -/
def Work.op64 (w : Work) (l : Nat) : Opnd → DWord
  | .v i => w.g.readV l (i.toNat + 1) ++ w.g.readV l i.toNat
  | .q i => w.g.readQ l (i.toNat + 1) ++ w.g.readQ l i.toNat
  | .l i => (w.g.thread l).readL i.toNat ++ (w.g.thread l).readL (i.toNat + 1)
  | .s i => w.g.readS i.toNat
  | .b i => w.blk.readB i.toNat
  | .inl i => inlDWord i
  | .named i => (namedF32 i).zeroExtend 64
  | .lit x => x.signExtend 64

/-- Register `k` of a run (R239, R279). -/
def Work.opRun (w : Work) (l : Nat) (o : Opnd) (k : Nat) : Word :=
  match o with
  | .v i => w.g.readV l (i.toNat + k)
  | .q i => w.g.readQ l (i.toNat + k)
  | o => if k = 0 then w.op32 l o else (w.op64 l o >>> 32).truncate 32

/-- A source of `n` bytes, as a number (R239): narrower sources from the low bytes. -/
def Work.opBytes (w : Work) (l : Nat) (o : Opnd) (n : Nat) : Nat :=
  if n ≤ 4 then (w.op32 l o).toNat % 2 ^ (8 * n)
  else if n = 8 then
    (match o with
      | .v _ | .q _ => (w.opRun l o 0).toNat + 2 ^ 32 * (w.opRun l o 1).toNat
      | o => (w.op64 l o).toNat)
  else (w.opRun l o 0).toNat + 2 ^ 32 * (w.opRun l o 1).toNat + 2 ^ 64 * (w.opRun l o 2).toNat +
    2 ^ 96 * (w.opRun l o 3).toNat

/-- The address of format E in a lane: SA plus the displacement in EXT (R267, R279). -/
def Work.extEa (w : Work) (a : Opnd) (disp : Word) (l : Nat) : Int := (((w.op64 l a).toNat : Int) + disp.toInt) % 2 ^ 64

/-! ### Writing results -/

/-- Write a run of words from `n` on to a V run or Q run of a lane. -/
def Group.writeRun (g : Group) (l : Nat) (q : Bool) (n : Nat) : List Word → Group
  | [] => g
  | x :: t => (if q then g.writeQ l n x else g.writeV l n x).writeRun l q (n + 1) t

def Group.pushAll (g : Group) (l : Nat) (xs : List Word) : Group := g.updThread l fun t => xs.foldl Thread.push t

/-- A lane's words to a V or Q destination, pushed into the last-result file when `push` (R42). -/
def Group.writeLane (g : Group) (d : Dst) (push : Bool) (l : Nat) (xs : List Word) : Group :=
  match d with
  | .v i => (fun g => if push then g.pushAll l xs else g) (g.writeRun l false i.toNat xs)
  | .q i => (fun g => if push then g.pushAll l xs else g) (g.writeRun l true i.toNat xs)
  | .s _ | .b _ | .none => g

/-- The low word, or the low and the high word, of a 64-bit value. -/
def splitWords (wide : Bool) (x : DWord) : List Word :=
  if wide then [x.truncate 32, (x >>> 32).truncate 32] else [x.truncate 32]

/-- A result per executing lane to its destination (R190, R191): V and Q take the low 32 bits, or both words when
`wide`; S and B take, once, the whole 64-bit value of the lowest executing lane. All values are read before any is
written. -/
def Work.writeDst (w : Work) (x : List Nat) (d : Dst) (wide push : Bool) (f : Nat → DWord) : Work :=
  match d with
  | .s i => (match x with | l :: _ => w.updG fun g => g.writeS i.toNat (f l) | [] => w)
  | .b i => (match x with | l :: _ => w.updB fun b => b.writeB i.toNat (f l) | [] => w)
  | .v _ | .q _ =>
      let vs := x.map fun l => (l, splitWords wide (f l))
      w.updG fun g => vs.foldl (fun g p => g.writeLane d push p.1 p.2) g
  | .none => w

/-- The resolved registers of a `c`-register destination in a lane. -/
def Group.dstRegs (g : Group) (d : Dst) (c l : Nat) : List Reg :=
  match d with
  | .v i => (List.range c).map fun k => .v l (i.toNat + k)
  | .q i => (List.range c).filterMap fun k => ((g.thread l).qmap (i.toNat + k)).map fun n => .v l n
  | .s i => [.s i.toNat]
  | .b i => [.b i.toNat]
  | .none => []

/-- Write words to resolved registers: one word per V register, one 64-bit value (low word first) for S and B. -/
def Work.writeRegs (w : Work) (slot : Nat) : List Reg → List Word → Work
  | .v l n :: t, x :: xs => (w.updGrp slot fun g => g.writeV l n x).writeRegs slot t xs
  | .s n :: _, lo :: hi :: _ => w.updGrp slot fun g => g.writeS n (hi ++ lo)
  | .b n :: _, lo :: hi :: _ =>
      (match w.grp? slot with
        | some g => w.updBlk g.blk fun b => b.writeB n (hi ++ lo)
        | none => w)
  | .t n h :: t, a :: b :: c :: d :: xs =>
      (w.updGrp slot fun g =>
        let old := (g.readT n).toNat
        let part := old / 2 ^ (128 * h) % 2 ^ 128
        let x := a.toNat + 2 ^ 32 * b.toNat + 2 ^ 64 * c.toNat + 2 ^ 96 * d.toNat
        g.writeT n (BitVec.ofNat 256 (old - part * 2 ^ (128 * h) + x * 2 ^ (128 * h)))).writeRegs slot t xs
  | _, _ => w

end Sys2Proof.Machine

namespace Sys2Proof
open Machine

/-- The lookahead window of a long-latency instruction (R176): none under VER 00. -/
def Hdr.window (h : Hdr) : Nat := if h.ver1 then h.ctl.toNat else 0

end Sys2Proof

namespace Sys2Proof.Machine

/-- A long-latency result is owed (R177): per executing lane for V and Q; once for S and B, with a window in every issuing
lane, whose next instructions wait as a whole (R178). `pay l` is what lane `l` waits for; nothing is owed where no register
is named. -/
def Work.owe (w : Work) (h : Hdr) (x : List Nat) (d : Dst) (c : Nat) (pay : Nat → Payload) : Work :=
  match d with
  | .none => w
  | .s _ | .b _ =>
      (match x with
        | [] => w
        | l :: _ =>
            let r := w.newId
            r.2.updG fun g =>
              { g with owed := g.owed ++ [{ id := r.1, wins := w.d.cur.lanes.map fun l => (l, h.window), dst := g.dstRegs d c l,
                                            pay := pay l }] })
  | .v _ | .q _ =>
      x.foldl (fun w l =>
        let r := w.newId
        r.2.updG fun g =>
          { g with owed := g.owed ++ [{ id := r.1, wins := [(l, h.window)], dst := g.dstRegs d c l, pay := pay l }] }) w

/-- The words of a ready result: one per register for V and Q, the 64-bit value for S and B. -/
def readyWords (d : Dst) (wide : Bool) (x : DWord) : List Word :=
  match d with
  | .s _ | .b _ => splitWords true x
  | _ => splitWords wide x

end Sys2Proof.Machine
end

