-- ==== Sys2Proof/Machine/Order.lean ====
section
/-! DEFINITION. Agents and scopes (R16, R99), happens-before (R103), and what order there is among strong accesses that others
have passed (R97). -/

namespace Sys2Proof.Machine

/-! ### Agents -/

def Agent.host : Agent := { uid := 0, blk := 0, slot := 0 }
def Agent.pod : Agent := { uid := 1, blk := 1, slot := 0 }
def Agent.walker : Agent := { uid := 2, blk := 2, slot := 0 }
/-- What writes completion records (R23). -/
def Agent.grid : Agent := { uid := 3, blk := 3, slot := 0 }

/-- A block's name, the same wherever it lies (R348). -/
def Block.name (b : Block) : Nat := 2 ^ 32 * b.launch + b.idx + 4

/-- The group in a slot. -/
def Work.agentOf (w : Work) (slot : Nat) : Agent :=
  let g := (w.grp? slot).getD Group.gone
  let n := ((w.blk? g.blk).getD Block.gone).name
  { uid := 128 * n + g.gidx, blk := n, slot := slot }

/-- Does the scope of an access of `a` include `b` (Table 1.2)? -/
def scopeIncludes (sc : Scope) (a b : Agent) : Bool :=
  match sc with
  | .grp => a.uid == b.uid
  | .blk => a.blk == b.blk
  | .quad => decide (3 < a.uid) && decide (3 < b.uid) && a.slot / 512 == b.slot / 512
  | .die => decide (3 < a.uid) && (b.uid == 2 || (decide (3 < b.uid) && slotDie a.slot == slotDie b.slot))
  | .pkg => decide (1 < a.uid) && decide (1 < b.uid)
  | .pod => b.uid != 0
  | .sys => true

/-- The scopes of two accesses include each other's agents: an ordering promise between them holds (R99). -/
def related (sa : Scope) (a : Agent) (sb : Scope) (b : Agent) : Bool := scopeIncludes sa a b && scopeIncludes sb b a

/-! ### Happens-before (R103; assumption 14) -/

def Clock.join (a b : Clock) : Clock := b.foldl (fun (c : Clock) e => sset c e.1 (max e.2 (sget c e.1 0))) a

/-- A strong access happens before one with clock `c` before it. -/
def Strong.before (r : Strong) (c : Clock) : Bool := decide (r.ep < sget c r.who.uid 0)

/-- A group's accesses so far come before those that follow: its epoch ends. -/
def Work.closeEp (w : Work) (slot : Nat) : Work :=
  let u := (w.agentOf slot).uid
  w.updGrp slot fun g => { g with ep := g.ep + 1, vc := sset g.vc u (max (g.ep + 1) (sget g.vc u 0)) }

/-- What an access of the issuing group keeps of its issue. -/
def Work.stamp (w : Work) (rel : Bool) : Stamp := { ep := w.g.ep, vc := w.g.vc, sync := w.g.sync, rel := rel }

def Stamp.none : Stamp := { ep := 0, vc := [], sync := 0, rel := false }

/-- A release or acquire is to issue: what its group has done comes before it. -/
def Work.openSync (w : Work) (on : Bool) : Work := if on then w.closeEp w.slot else w

/-- A release of `n` bytes has performed: acquires that read them will learn what comes before it. -/
def Work.tell (w : Work) (pa n : Nat) (who : Agent) (sc : Scope) (ep : Nat) (vc : Clock) : Work :=
  w.updPkg fun p => { p with msgs := sset p.msgs (objOf pa) (sget p.msgs (objOf pa) [] ++
    [{ pa := pa, n := n, who := who, scope := sc, vc := sset vc who.uid (ep + 1) }]) }

/-- What an acquire of an agent that reads `n` bytes learns from the releases that wrote them (R99, R103). -/
def Work.heard (w : Work) (pa n : Nat) (who : Agent) (sc : Scope) : Clock :=
  ((sget w.d.pkg.msgs (objOf pa) []).filter fun m => overlap m.pa m.n pa n && related m.scope m.who sc who).foldl
    (fun c m => Clock.join c m.vc) []

/-- A group learns what comes before its later accesses. -/
def Work.learnVc (w : Work) (slot : Nat) (c : Clock) : Work := w.updGrp slot fun g => { g with vc := Clock.join g.vc c }
def Work.learn (w : Work) (slot pa n : Nat) (sc : Scope) : Work := w.learnVc slot (w.heard pa n (w.agentOf slot) sc)

/-- A change of bytes that reads the values before it leaves the releases there to be read (R103). -/
def Work.retelling (w : Work) (f : Work → Work) : Work := (f w).updPkg fun p => { p with msgs := w.d.pkg.msgs }

/-- Scratchpad bytes are written. -/
def Work.spadDrop (w : Work) (k n : Nat) : Work :=
  w.updPkg fun p => { p with msgs := supd p.msgs (objOf k) fun l => l.filter fun m => !overlap m.pa m.n k n }

/-- Every access named so far comes before what the group does from here on, where R103 orders it at all. -/
def Work.synced (w : Work) (slot : Nat) : Work :=
  (w.updGrp slot fun g => { g with sync := w.d.nextId }).closeEp slot

/-- What a block has done comes before the completion of a hardware barrier, or its retirement. -/
def Work.blockClock (w : Work) (b : Block) (blk : Nat) : Clock :=
  (List.range b.gcnt).foldl (fun c k =>
    match w.grp? (blk + k) with
    | some g => Clock.join c (sset g.vc (w.agentOf (blk + k)).uid (g.ep + 1))
    | none => c) []

/-- Records of a scratchpad window are forgotten, or move with it. -/
def Work.spadRecords (w : Work) (blk kb : Nat) (dest : Option Nat) : Work :=
  let lo := spadKey blk 0
  let hi := lo + 1024 * kb
  let on := fun k => decide (lo ≤ k) && decide (k < hi)
  let at_ := fun n k => spadKey n 0 + (k - lo)
  w.updPkg fun p =>
    let mix := p.mix.filter fun e => !on (128 * e.1)
    let msgs := p.msgs.filter fun e => !on e.1
    match dest with
    | none => { p with mix := mix, msgs := msgs }
    | some n =>
        { p with
          mix := (p.mix.filter fun e => on (128 * e.1)).foldl (fun m e =>
            sset m (at_ n (128 * e.1) / 128) (e.2.map fun r => { r with pa := at_ n r.pa })) mix
          msgs := (p.msgs.filter fun e => on e.1).foldl (fun m e =>
            sset m (at_ n e.1) (e.2.map fun r => { r with pa := at_ n r.pa })) msgs }

/-- The host releases: its accesses so far come before the release, its later ones after (R352, R353). -/
def Work.hostClose (w : Work) : Work :=
  w.updPkg fun p => { p with hostEp := p.hostEp + 1, hostVc := sset p.hostVc 0 (p.hostEp + 1) }

/-- A host load carries order (R23), as an acquire. -/
def Work.hostLearn (w : Work) (pa n : Nat) : Work :=
  (w.updPkg fun p => { p with hostVc := Clock.join p.hostVc (w.heard pa n Agent.host .sys) }).hostClose

/-! ### Strong accesses that a later one of their thread has passed (R97, R99; assumption 88)

A strong access may perform before an earlier one of its thread where an agent lies outside the scope of one of them. To the
agents inside both the earlier one appears to have performed at that instant: their accesses to its bytes wait for it. -/

def scopeRank : Scope → Nat
  | .grp => 0 | .blk => 1 | .quad => 2 | .die => 3 | .pkg => 4 | .pod => 5 | .sys => 6

def narrower (a b : Scope) : Scope := if scopeRank a ≤ scopeRank b then a else b

/-- A strong access that has been passed and is still to perform: its agent, its bytes, whether it writes, its name, the turn at
which it was passed, and the scope. -/
structure Late where
  who : Agent
  bytes : List (Nat × Nat)
  writes : Bool
  id : Nat
  turn : Nat
  scope : Scope

/-- The runs of bytes that a load reads: one, or the 4-byte words of a wide local load. -/
def LoadP.pieces (p : LoadP) : List (Nat × Nat) :=
  if p.more.isEmpty then [(p.pa, p.n)] else (p.pa :: p.more).map fun a => (a, 4)

def Work.lates (w : Work) : List Late :=
  (w.d.cores.flatMap fun c => c.2.path.filterMap fun e => e.passed.map fun t =>
    { who := w.agentOf e.slot, bytes := [(e.pa, e.n)], writes := true, id := e.id, turn := t.1, scope := t.2 }) ++
    w.d.groups.flatMap fun g => g.2.owed.filterMap fun o =>
      match o.pay with
      | .load p => p.passed.map fun t =>
          { who := w.agentOf g.1, bytes := p.pieces, writes := false, id := o.id, turn := t.1, scope := t.2 }
      | _ => none

/-- An access `id` of an agent to runs of bytes, strong with a scope or weak, must wait for one of those, which has been passed
before it was, if it was. -/
def Work.lateBefore (w : Work) (bytes : List (Nat × Nat)) (writes : Bool) (who : Agent) (sc : Option Scope) (id : Nat)
    (passed : Option (Nat × Scope)) : Bool :=
  w.lates.any fun y =>
    y.id != id && (writes || y.writes) && scopeIncludes y.scope y.who who &&
      (match sc with | some s => scopeIncludes s who y.who | none => true) &&
      (y.bytes.any fun b => bytes.any fun c => overlap b.1 b.2 c.1 c.2) &&
      match passed with
      | some (u, s) => !scopeIncludes s who y.who || decide (y.turn < u) || (y.turn == u && decide (y.id < id))
      | none => true

end Sys2Proof.Machine
end

