-- ==== Sys2Proof/Machine/Translate.lean ====
section
/-! DEFINITION. Translation (R336, R337, R339). -/

namespace Sys2Proof.Machine

/-! ### Page tables -/

/-- Kinds of access of R337. -/
inductive XKind where
  | fetch | load | store | rmw | ring | engR | engW
  deriving DecidableEq, Repr

/-- What a leaf gives: the physical address and the page's attributes (Table 22.3). -/
structure Leaf where
  pa : Nat
  lease : Nat
  ring : Bool
  wr : Bool
  tier : Bool
  mig : Bool
  /-- Where the leaf entry lies, and the size of its page. -/
  at_ : Nat
  size : Nat
  deriving DecidableEq, Repr

/-- R337 step 2: the checks at a leaf. -/
def leafCheck (kind : XKind) (user : Bool) (e : Nat) : Nat :=
  let rd := eBit e 3
  let wr := eBit e 4
  let perm :=
    match kind with
    | .fetch => eBit e 5
    | .load | .engR => rd
    | .store | .engW => wr
    | .rmw | .ring => rd && wr
  if user && !eBit e 6 then cXL_PERM
  else if kind = .ring ∧ !eBit e 7 then cRING_INELIG
  else if !perm then cXL_PERM
  else if eBit e 14 then cFLT_MIGRATE
  else if eBit e 15 && eBit e 13 then cFLT_LPDDR
  else 0

/-- The 16 bytes of an entry as a walker reads them at their home (R339); free where the mapping is undefined (R338). -/
def Work.walkEntry (w : Work) (a : Nat) : Nat :=
  if w.d.pkg.torn.any fun t => t.entry == a then (Config.freeEntry a w.d.now).toNat else w.entry16 a

/-- The walk from a table at `tbl`, with `n` levels below level 3 still to go (R337 step 1): the entry that decides,
its address and its level, or the cause. -/
def walk (w : Work) (va : Nat) : Nat → Nat → Nat → Except Nat (Nat × Nat × Nat)
  | 0, _, _ => .error cXL_BADPTE
  | n + 1, lvl, tbl =>
      let at_ := tbl + 16 * (va / 2 ^ lvlShift lvl % 2 ^ lvlBits lvl)
      let e := w.walkEntry at_
      let leaf := eBit e 1
      let align := if leaf then 2 ^ lvlShift lvl else lvlNext lvl
      if homeFailed w.d at_ || w.poisoned at_ then .error cWALKDEAD
      else if !homeUp w.d at_ || w.lateBefore [(at_, 16)] false Agent.walker (some .pkg) w.d.nextId none then .error cWALKWAIT
      else if eReserved e || (leaf && lvl == 0) || (!leaf && lvl == 3) || eAddr e % align != 0 then .error cXL_BADPTE
      else if !eBit e 0 then .error (if leaf && eBit e 12 then cFLT_ABSENT else cXL_NOMAP)
      else if leaf then .ok (e, at_, lvl)
      else walk w va n (lvl + 1) (eAddr e)

/-- The entries that a walk looks at, in order. -/
def entries (w : Work) (va : Nat) : Nat → Nat → Nat → List Nat
  | 0, _, _ => []
  | n + 1, lvl, tbl =>
      let at_ := tbl + 16 * (va / 2 ^ lvlShift lvl % 2 ^ lvlBits lvl)
      let e := w.walkEntry at_
      at_ :: if eBit e 1 then [] else entries w va n (lvl + 1) (eAddr e)


/-- Translate(va, kind) on a die (R336, R337), and the reach of the physical address (R351, R356, R358). -/
def Work.translate (w : Work) (die : Nat) (va : Nat) (kind : XKind) (user : Bool) : Except Nat Leaf :=
  let root := (w.d.die die).root
  if root = 0 then .error cXL_NOMAP
  else
    match walk w va 4 0 root with
    | .error c => .error c
    | .ok (e, at_, lvl) =>
        match leafCheck kind user e with
        | 0 =>
            let size := 2 ^ lvlShift lvl
            let pa := eAddr e + va % size
            if reachable w.d die (kind == .store || kind == .engW) pa then
              .ok { pa := pa, lease := (if e / 2 ^ 8 % 16 = 0 then 4 else e / 2 ^ 8 % 16), ring := eBit e 7,
                    wr := eBit e 4, tier := eBit e 15, mig := eBit e 14, at_ := at_, size := size }
            else .error cXL_PERM
        | c => .error c

/-- The leaf that maps an address, whatever its MIG, TIER and permissions. -/
def Work.leafAt (w : Work) (die va : Nat) : Option (Nat × Nat × Nat) :=
  let root := (w.d.die die).root
  if root = 0 then none
  else
    match walk w va 4 0 root with
    | .ok r => some r
    | .error _ => none

/-- A page is in migration or, where asked for, lies in LPDDR with FLT set; so it is taken while the leaf cannot be read. -/
def Work.pageMoves (w : Work) (die va : Nat) (tier : Bool) : Bool :=
  let root := (w.d.die die).root
  root != 0 && match walk w va 4 0 root with
    | .ok (e, _, _) => eBit e 14 || (tier && eBit e 15 && eBit e 13)
    | .error c => c == cWALKWAIT

end Sys2Proof.Machine
end

