-- ==== Sys2Proof/Machine/Home.lean ====
section
/-! DEFINITION. Homes: the states of a slot (R116, R117, R122), leases and pins (R91, R92, R108), remote-die copies (R94),
the record of strong accesses (R88), results, and the waits of fences (R100). -/

namespace Sys2Proof.Machine

/-! ### Slots (R116, R117, R122) -/

/-- STATE of Table 6.1 at a cycle. -/
inductive RState where
  | free | riding | captured | alighting | boarding
  deriving DecidableEq, Repr

/-- The gate passage at which a marked slot alights (R122). -/
def RSlot.alightAt (k : RSlot) (i : Nat) : Option Nat := k.mark.map fun m => nextPass i 0 m.1

def RSlot.state (k : RSlot) (i now : Nat) : RState :=
  if !k.used then .free
  else if now < k.from_ then .boarding
  else if k.captured then .captured
  else match k.alightAt i with
    | some g => if g ≤ now then .alighting else .riding
    | none => .riding

/-- Operations apply to the slot: it rides, or alights and its revolution is not over (R122). -/
def RSlot.applies (k : RSlot) (i now : Nat) : Bool :=
  match k.state i now with
  | .riding => true
  | .alighting => (match k.alightAt i with | some g => decide (now < g + 128) | none => true)
  | _ => false

/-- An ordinary access performs at the gate: the slot passes it now, and the gate core's own operation has not applied
at this passage (R117, R119). -/
def RSlot.gateOk (k : RSlot) (i now : Nat) : Bool :=
  k.applies i now && nextPass i 0 now == now && k.lastOwn != some now

/-- May an ordinary access to the bytes perform at this instant (R117, R361)? -/
def Work.gateNow (w : Work) (pa : Nat) : Bool :=
  homeUp w.d pa &&
    match w.d.rideOf pa with
    | some (_, i, r) => r.gateOk i w.d.now
    | none => true

/-- Bytes are read together: their homes are ready, and the first that lies in a riding object is at the gate (R117; DESIGN
CHOICE, assumption 81, where several objects of them ride). -/
def Work.readNow (w : Work) (ks : List Nat) : Bool :=
  ks.all (homeUp w.d) && match ks.find? fun k => (w.d.rideOf k).isSome with | some k => w.gateNow k | none => true

/-! ### Copies (R73, R91, R94) -/

/-- A line holds granules that a matrix operation has fetched and not consumed (R108). -/
def Work.pinned (w : Work) (pa : Nat) : Bool :=
  w.d.ops.any fun e => e.cls == .mtx && e.waits && e.parts.any fun p => p.dst == .buf &&
    p.src.any fun b => match b with | .got k _ => decide (k < 2 ^ 57) && lineOf k == lineOf pa | _ => false

/-- A write to a line waits for its leases and its pins (R92, R108). -/
def Work.leaseFree (w : Work) (pa : Nat) : Bool :=
  (match homeOf w.d pa with
    | .die h => decide (sget (w.d.die h).leases (lineOf pa) 0 ≤ homeCount w.d.now)
    | _ => true) && !w.pinned pa

/-- A write to the line has arrived and has not performed: a store or reduction on its way, an engine's granule or
fragment, a boarding's read, or an object's return to its home (R92, R116, R122). -/
def Work.writeComing (w : Work) (pa : Nat) : Bool :=
  let here := fun a => decide (a < 2 ^ 57) && lineOf a == lineOf pa
  (w.d.cores.any fun e => e.2.path.any fun e => here e.pa) ||
    (w.d.ops.any fun e =>
      (e.parts.any fun p => p.val.isSome && match p.dst with | .key k => here k | _ => false) ||
        (match e.kind with | .comp fs => fs.any fun f => here f.pa | _ => false)) ||
    w.d.dies.any fun e => (e.2.boardQ.any fun b => here b.obj) || e.2.slots.any fun s => s.2.used && s.2.mark.isSome && here s.2.obj

/-- Remote-die copies of a core are dropped (R94, R100, R102). -/
def Work.dropRemote (w : Work) (core : Nat) : Work :=
  w.updCore core fun c => { c with copies := c.copies.filter fun k => !k.remote }

/-- Those of one line are. -/
def Work.dropLine (w : Work) (core pa : Nat) : Work :=
  w.updCore core fun c => { c with copies := c.copies.filter fun k => !(k.remote && 128 * k.sector / 512 == lineOf pa) }

/-- Is a scope .quad or wider? -/
def wideScope : Scope → Bool
  | .grp | .blk => false
  | _ => true

/-- An ordinary access has performed at the gate (Table 6.1, TOUCH). -/
def Work.homeTouch (w : Work) (pa : Nat) : Work :=
  match w.d.rideOf pa with
  | some (die, i, _) => w.updSlot die i fun r => { r with touch := passRev i 0 w.d.now, lastOrd := some w.d.now }
  | none => w

/-! ### Strong accesses of different sizes (R88) -/

/-- Is the MIXSIZE trap enabled for the home of the address? -/
def Work.mixMode (w : Work) (pa : Nat) : Bool :=
  match homeOf w.d pa with
  | .die h => (w.d.part (dieParts w.d h)).dbgctl.getLsbD 0
  | _ => false

/-- Do walkers read the granule as an entry of a page table, with strong accesses of 16 bytes (R339)? -/
def Work.isEntry (w : Work) (a : Nat) : Bool := [0, 1, 2, 3].any fun n => !(w.tableVas n (a / lvlSize n * lvlSize n)).isEmpty

/-- A walker's read of a granule. -/
def walkerRead (a : Nat) : Strong := { pa := a / 16 * 16, n := 16, who := Agent.walker, ep := 0, scope := .pkg }

/-- The strong accesses to an address's sector, the last one first: a walker may have made it, at a granule that is an entry
(R339; assumption 105). -/
def Work.strongs (w : Work) (pa : Nat) : List Strong :=
  (((List.range 8).find? fun i =>
      w.isEntry (128 * sectorOf pa + 16 * i) && Config.walked w.d.tick (8 * sectorOf pa + i)).map fun i =>
    walkerRead (128 * sectorOf pa + 16 * i)).toList ++ sget w.d.pkg.mix (sectorOf pa) []

/-- Does a strong access overlap the last one to its sector, of a different size? -/
def Work.mixed (w : Work) (pa n : Nat) : Bool :=
  match w.strongs pa with
  | r :: _ => r.n != n && overlap pa n r.pa r.n
  | [] => false

/-- The bytes of `[a, a + n)` that lie in `[b, b + m)` become undefined. -/
def Work.scramble (w : Work) (a n b m : Nat) : Work :=
  ((List.range n).filter fun i => b ≤ a + i ∧ a + i < b + m).foldl (fun w i =>
    let f := w.fresh
    if a < 2 ^ 57 then f.2.homeWrite (a + i) 1 (Config.freeByte f.1).toNat else f.2.setByte (a + i) (Config.freeByte f.1)) w

/-- The bytes that a strong access shares with an earlier one of another size may become undefined, where neither happens
before the other and their scopes include each other's agents (R88, R99, R103; assumption 14). -/
def Work.clash (w : Work) (a : Strong) (c : Clock) (r : Strong) : Work :=
  if r.n != a.n && overlap a.pa a.n r.pa r.n && !r.before c && related r.scope r.who a.scope a.who then
    let f := w.fresh
    if Config.choice f.1 % 2 = 1 then f.2.scramble a.pa a.n r.pa r.n else f.2
  else w

/-- A strong access with clock `c` before it has performed, at a granule that walkers read (`entry`) or not: it is recorded, and
bytes that it shares with accesses of another size may have become undefined (R88, R339). -/
def Work.noteStrong (w : Work) (entry : Bool) (a : Strong) (c : Clock) : Work :=
  let l := sget w.d.pkg.mix (sectorOf a.pa) []
  let others := if entry then walkerRead a.pa :: l else l
  (others.foldl (fun w r => w.clash a c r) w).updPkg fun p =>
    { p with mix := sset p.mix (sectorOf a.pa) (a :: l.filter fun r => { r with ep := a.ep } != a) }

/-! ### Results -/

/-- The value that an owed result waited for is known (R177). -/
def Work.deliver (w : Work) (slot : Nat) (id : Option Nat) (ws : List Word) : Work :=
  match id with
  | none => w
  | some k => w.updGrp slot fun g =>
      { g with owed := g.owed.map fun e => if e.id = k then { e with pay := .ready ws } else e }

/-- The words of an `n`-byte value: one register each of a run, or the 64-bit container of an S or B register (R239). -/
def valWords (wide : Bool) (n : Nat) (ext : Ext) (x : Nat) : List Word :=
  let e : Nat :=
    match ext with
    | .zero => x
    | .sign => if n < 8 ∧ 2 ^ (8 * n - 1) ≤ x then x + (2 ^ 64 - 2 ^ (8 * n)) else x
  if wide then [BitVec.ofNat 32 e, BitVec.ofNat 32 (e / 2 ^ 32)]
  else (List.range (regCount n)).map fun i => BitVec.ofNat 32 (e / 2 ^ (32 * i))

def Dst.isWide (d : Dst) : Bool :=
  match d with
  | .s _ | .b _ => true
  | _ => false

/-- A token's status word is written (R43, R106). -/
def Work.writeTok (w : Work) (slot : Nat) (tok : Option Nat) (x : DWord) : Work :=
  match tok with
  | none => w
  | some t => w.updGrp slot fun g => { (g.writeS t x) with spend := g.spend.filter fun k => k != t }

/-- A token becomes pending at issue. -/
def Work.pendTok (w : Work) (tok : Nat) : Work := w.updG fun g => { g with spend := tok :: g.spend }

/-- The outstanding operations of a class change by one (T13.6). -/
def Cls.code : Cls → Nat
  | .copy => 0 | .mtx => 1 | .gs => 2 | .send => 3 | .coll => 4 | .pg => 5

def Group.count (g : Group) (c : Cls) : Nat := sget g.cnt (Cls.code c) 0

def Work.addCount (w : Work) (slots : List Nat) (c : Cls) : Work :=
  slots.foldl (fun w s => w.updGrp s fun g => { g with cnt := sset g.cnt (Cls.code c) (g.count c + 1) }) w

def Work.subCount (w : Work) (slots : List Nat) (c : Cls) : Work :=
  slots.foldl (fun w s => w.updGrp s fun g => { g with cnt := sset g.cnt (Cls.code c) (g.count c - 1) }) w

/-- A new engine operation enters, counted in its groups' counters (R104, R261). -/
def Work.addOp (w : Work) (e : EOp) : Work :=
  (w.updDev fun d => { d with ops := d.ops ++ [e] }).addCount e.slots e.cls

def Work.op? (w : Work) (id : Nat) : Option EOp := w.d.ops.find? fun e => e.id == id

def Work.updOp (w : Work) (id : Nat) (f : EOp → EOp) : Work :=
  w.updDev fun d => { d with ops := d.ops.map fun e => if e.id = id then f e else e }

/-- Acquiring accesses of a group that have performed (R102). -/
def Work.acquired (w : Work) (slot id : Nat) (sc : Scope) : Work :=
  let w := (w.updGrp slot fun g => { g with acq := g.acq.filter fun k => k != id }).synced slot
  if wideScope sc then w.dropRemote (slotCore slot) else w

/-! ### Pieces of a load -/

/-- The addresses of its bytes. -/
def LoadP.keys (p : LoadP) : List Nat := p.pieces.flatMap fun q => (List.range q.2).map (q.1 + ·)

/-- It reads some of the bytes from `a`. -/
def LoadP.meets (p : LoadP) (a m : Nat) : Bool := p.pieces.any fun q => overlap q.1 q.2 a m

/-- A number is written to scratchpad: a byte that a copy.s has in flight and has not read yet becomes undefined for it (R7,
R263). -/
def Work.spadStore (w : Work) (k n x : Nat) : Work :=
  let w := w.store k n x
  let hit := fun (b : BSrc) => match b with | .key a => decide (k ≤ a) && decide (a < k + n) | _ => false
  if w.d.ops.any fun e => e.cls == .copy && e.parts.any fun p => p.src.any hit then
    let f := w.d.free
    let lose := fun (b : BSrc) => match b with
      | .key a => if hit (.key a) then .val (Config.freeByte (f + (a - k))) else .key a
      | b => b
    let op := fun (e : EOp) => if e.cls == .copy then { e with parts := e.parts.map fun p => { p with src := p.src.map lose } } else e
    w.updDev fun d => { d with free := f + n, ops := d.ops.map op }
  else w

/-- Is the entry an access of the lane? -/
def WEntry.of (e : WEntry) (slot l : Nat) : Bool := e.slot == slot && (e.lane == l || e.also.contains l)

/-- An entry of its block comes before what a group does from the name `sync` on (R98, R103). -/
def Work.synchronous (w : Work) (slot sync : Nat) (e : WEntry) : Bool :=
  ((w.grp? e.slot).getD Group.gone).blk == ((w.grp? slot).getD Group.gone).blk && decide (e.id < sync)

/-- A strong access of one of the lanes of the group is still to perform, older than `id`. -/
def Work.strongBefore (w : Work) (slot : Nat) (ls : List Nat) (id : Nat) : Bool :=
  ((w.d.core (slotCore slot)).path.any fun e => e.slot == slot && ls.contains e.lane && e.strong && decide (e.id < id)) ||
    ((w.grp? slot).getD Group.gone).owed.any fun e =>
      match e.pay with
      | .load p => ls.contains p.lane && p.strong && decide (e.id < id)
      | _ => false

/-- A strong access of the issuing group, or of the group in a slot as it stands, for the record. -/
def Work.strongOf (w : Work) (slot pa n ep : Nat) (sc : Scope) : Strong :=
  { pa := pa, n := n, who := w.agentOf slot, ep := ep, scope := sc }

/-! ### Fences (R100, Table 5.2) -/

/-- Ring operations of a group that have not performed (R129). -/
def Work.ringBusy (w : Work) (slot : Nat) : Bool :=
  w.d.dies.any fun e => e.2.ringQ.any fun o => o.slot == some slot

/-- A fence does not wait for the entry: a reduction (R109), or a word of a local store (R74). -/
def WEntry.free (e : WEntry) : Bool := e.loc || match e.kind with | .red _ _ => true | _ => false

/-- Acknowledgements still to come for words of local stores of a group. -/
def Work.localAcks (w : Work) (slot : Nat) : Nat :=
  ((w.d.core (slotCore slot)).path.filter fun e =>
    e.slot == slot && e.loc && homeOf w.d e.pa != .die (slotDie slot)).length

/-- The waits that a fence at a scope makes are over. -/
def Work.fenceOk (w : Work) (slot : Nat) (sc : Scope) : Bool :=
  match w.grp? slot with
  | none => true
  | some g =>
      let core := slotCore slot
      g.owed.all (fun e => match e.pay with | .load p => p.loc | _ => true) && !w.ringBusy slot && g.acq.isEmpty &&
        (!wideScope sc ||
          ((w.d.core core).path.all (fun e => e.slot != slot || e.free) && g.acks == w.localAcks slot &&
            decide (g.horizon + 1 ≤ coreCount w.d.now core)))

/-- The waits of a release at .pkg that follows, in the group, the accesses older than `id` (R100, R101). -/
def Work.relDone (w : Work) (slot id : Nat) : Bool :=
  match w.grp? slot with
  | none => true
  | some g =>
      g.owed.all (fun e => match e.pay with | .load p => p.loc || decide (id < e.id) | _ => true) &&
        (w.d.core (slotCore slot)).path.all (fun e => e.slot != slot || e.free || decide (id < e.id)) &&
        w.d.dies.all (fun e => e.2.ringQ.all fun o => o.slot != some slot || decide (id ≤ o.ins)) &&
        g.acq.all (fun a => decide (id < a)) && decide (g.horizon + 1 ≤ coreCount w.d.now (slotCore slot))

/-- What the fence does when they are over. -/
def Work.fenceDone (w : Work) (slot : Nat) (sc : Scope) : Work :=
  let w := w.synced slot
  if wideScope sc then w.dropRemote (slotCore slot) else w

end Sys2Proof.Machine
end

