-- ==== Sys2Proof/Machine/Ring.lean ====
section
/-! DEFINITION. The ring's machinery (06): boarding, operations in passing, capture, alighting, a full ring. -/

namespace Sys2Proof.Machine

/-! ### Boarding and eviction (R116, R124) -/

/-- Slots that the boardings before have reserved. -/
def Die.reserved (e : Die) : List Nat := e.boardQ.filterMap Board.slot

def Die.slotUsed (e : Die) (i : Nat) : Bool := (sget e.slots i RSlot.free).used

/-- Slots free for a boarding that has none marked for it. -/
def Die.freeSlots (e : Die) : List Nat := (List.range 1024).filter fun i => !e.slotUsed i && !e.reserved.contains i

/-- The riding, unmarked slot whose TOUCH is oldest, the lower slot on a tie. -/
def Die.oldest (e : Die) (now : Nat) : Option Nat :=
  (e.slots.filter fun s => s.2.state s.1 now == .riding && s.2.mark.isNone).foldl (fun b s =>
    match b with
    | none => some s.1
    | some k => if s.2.touch < (sget e.slots k RSlot.free).touch then some s.1 else some k) none

/-- EVICTION_MARK: one marked slot for each boarding that finds no free slot, `n` of them being free for the boardings
in front. -/
def Die.evictFrom (now : Nat) : Die → Nat → List Board → Die × List Board
  | e, _, [] => (e, [])
  | e, n, b :: t =>
      match b.slot with
      | some _ =>
          let r := Die.evictFrom now e n t
          (r.1, b :: r.2)
      | none =>
          if n = 0 then
            match e.oldest now with
            | some k =>
                let e := { e with slots := supd e.slots k fun r => { r with mark := some (now, 3) } }
                let r := Die.evictFrom now e n t
                (r.1, { b with slot := some k } :: r.2)
            | none =>
                let r := Die.evictFrom now e n t
                (r.1, b :: r.2)
          else
            let r := Die.evictFrom now e (n - 1) t
            (r.1, b :: r.2)

def Work.evict (w : Work) (die : Nat) : Work :=
  w.updDie die fun e =>
    if e.drain.isSome then e
    else
      let r := Die.evictFrom w.d.now e e.freeSlots.length e.boardQ
      { r.1 with boardQ := r.2 }

/-- A boarding is asked for, unless the object has a slot or a boarding waits (R116, R291). -/
def Work.askBoard (w : Work) (die obj : Nat) : Work :=
  let e := w.d.die die
  if e.slots.any (fun s => s.2.used && s.2.obj == obj) || e.boardQ.any (fun b => b.obj == obj) then w
  else (w.updDie die fun e => { e with boardQ := e.boardQ ++
    [{ obj := obj, slot := none, due := w.d.now + 512 * (e.boardQ.length + 1) - 128 }] }).evict die

/-- The slot that the boarding at the head of the queue takes, if there is one now. -/
def Work.boardSlot (w : Work) (die : Nat) (b : Board) : Option Nat × Work :=
  let e := w.d.die die
  match b.slot with
  | some k => (if e.slotUsed k then none else some k, w)
  | none =>
      match e.freeSlots with
      | [] => (none, w)
      | k :: t =>
          let f := w.fresh
          (some ((k :: t).getD (Config.choice f.1 % (t.length + 1)) k), f.2)

/-- OBJECT_BOARDING: the boarding at the head of the queue takes its slot, reads the object under R92 and rides from the
slot's next gate passage. -/
def Work.board (w : Work) (die : Nat) : Work :=
  let e := w.d.die die
  match e.boardQ with
  | [] => w
  | b :: _ =>
      if e.drain.isSome || !w.leaseFree b.obj || !homeUp w.d b.obj then w
      else
        match w.boardSlot die b with
        | (none, w) => w
        | (some i, w) =>
            let g := nextPass i 0 (w.d.now + 1)
            let data := w.load b.obj 64
            ((w.updDie die fun e => { e with boardQ := e.boardQ.tail }).updSlot die i fun r =>
              { r with used := true, obj := b.obj, data := data, from_ := g, captured := false, touch := passRev i 0 g,
                       mark := none, why := 0, wb := 0, rel := none, lastOrd := none, lastOwn := none }).evict die

/-! ### Words of an object (R118, Table 6.2) -/

def ringNew (op : ROp) (signed : Bool) (n old v c : Nat) : Nat :=
  let b := 8 * n
  let s : Nat → Int := fun x => if signed then (BitVec.ofNat b x).toInt else (x : Int)
  match op with
  | .add => (old + v) % 2 ^ b
  | .min => if s v < s old then v else old
  | .max => if s old < s v then v else old
  | .and => old &&& v
  | .or => old ||| v
  | .xch => v
  | .cas => if old = c then v else old

/-- The bounded pop: how many records it takes. -/
def popTake (h l v : Nat) : Nat := if h < l then min v (l - h) else 0

def popWords (h k : Nat) : List Word :=
  [BitVec.ofNat 32 h, BitVec.ofNat 32 (h / 2 ^ 32), BitVec.ofNat 32 k, if k = 0 then 0x100 else 0]

/-- One lane of an operation: the payload after it and the words returned. -/
def laneStep (a : RAct) (n : Nat) (wide : Bool) (data : Nat) (l : RLane) : Nat × List Word :=
  let old := payGet data l.ofs n
  match a with
  | .rd => (data, valWords wide n .zero old)
  | .up op sg =>
      (if l.helper then data else payPut data l.ofs n (ringNew op sg n old l.v l.c), valWords wide n .zero old)
  | .pop =>
      let h := payGet data l.ofs 8
      let k := popTake h (payGet data (l.ofs + 8) 8) l.v
      (if l.helper then data else payPut data l.ofs 8 (h + k), popWords h k)
  | .pin i up =>
      let x := payGet data (32 + 8 * i) 8
      (payPut data (32 + 8 * i) 8 ((if up then x + 1 else x + 2 ^ 64 - 1) % 2 ^ 64), [])
  | .bell v _ _ => (payPut data 8 8 ((payGet data 8 8 + v) % 2 ^ 64), [])
  | .cap _ | .ret _ _ | .gen _ => (data, [])

/-- The lanes in lane order. -/
def runLanes (op : RingOp) : List RLane → Nat × Work → Nat × Work
  | [], r => r
  | l :: t, (data, w) =>
      let s := laneStep op.act op.n op.wide data l
      runLanes op t (s.1, (match op.slot with | some g => w.deliver g l.owed s.2 | none => w))

/-! ### Applying an operation (R119, R120) -/

/-- The payload as words. -/
def payWords (data : Nat) : List Word := (List.range 16).map fun i => BitVec.ofNat 32 (data / 2 ^ (32 * i))

/-- The words that an operation accesses, a strong access each (R88, R111); a capture, a return and a step of an engine have
none (assumption 14). -/
def RingOp.words (op : RingOp) : List (Nat × Nat) :=
  let ls := op.lanes.filter fun l => !l.helper
  match op.act with
  | .rd => op.lanes.map fun l => (op.obj + l.ofs, op.n)
  | .up _ _ => ls.map fun l => (op.obj + l.ofs, op.n)
  | .pop => ls.flatMap fun l => [(op.obj + l.ofs, 8), (op.obj + l.ofs + 8, 8)]
  | .pin i _ => [(op.obj + 32 + 8 * i, 8)]
  | .bell _ _ _ => [(op.obj + 8, 8)]
  | .cap _ | .ret _ _ | .gen _ => []

def Work.ringAgent (w : Work) (op : RingOp) : Agent :=
  match op.slot, op.act with
  | some g, _ => w.agentOf g
  | none, .bell _ _ true => Agent.host
  | none, _ => Agent.pod

/-- Its place in the order, as it performs in `v`: its words are recorded, an acquire learns, a release tells (R88, R103, R111). -/
def Work.ringOrders (w v : Work) (op : RingOp) : Work :=
  let who := w.ringAgent op
  let spans := if op.words.isEmpty then [(op.obj, 64)] else op.words
  let w := op.words.foldl (fun w p => w.noteStrong (v.isEntry (p.1 / 16 * 16))
    { pa := p.1, n := p.2, who := who, ep := op.iss.ep, scope := op.scope } op.iss.vc) w
  let w := match op.slot with
    | some g => if op.acq then spans.foldl (fun w p => w.learn g p.1 p.2 op.scope) w else w
    | none => w
  if op.iss.rel then spans.foldl (fun w p => w.tell p.1 p.2 who op.scope op.iss.ep op.iss.vc) w else w

/-- An operation has performed in `v`: it leaves the queue, its acquire and its acknowledgement arrive (R102, R111, R125); a host's
doorbell is acknowledged to the host (R353). -/
def Work.ringDone (w v : Work) (die : Nat) (op : RingOp) : Work :=
  let w := (w.updDie die fun e => { e with ringQ := e.ringQ.filter fun o => o.id != op.id }).ringOrders v op
  match op.slot with
  | none => (match op.act with
      | .bell _ q true => w.updPkg fun p => { p with bellAcks := p.bellAcks ++ [q] }
      | _ => w)
  | some g =>
      let w := if op.remote then w.updGrp g fun g => { g with acks := g.acks - 1 } else w
      if op.acq && !(w.d.dies.any fun e => e.2.ringQ.any fun o => o.ins == op.ins) then w.acquired g op.ins op.scope
      else w

/-- The steps of collection and Pergola instructions on a generation object: operation, payload ↦ state, payload. -/
abbrev GenHook := Work → RingOp → Nat → Nat → Work × Nat

/-- The operation's effect on a payload, capture and return apart. -/
def Work.opEffect (w : Work) (hook : GenHook) (op : RingOp) (data : Nat) : Nat × Work :=
  match op.act with
  | .gen k => (fun r => (r.2, r.1)) (hook w op k data)
  | _ => runLanes op (if op.lanes.isEmpty then [{ lane := 0, ofs := 0, v := 0, c := 0, helper := false, owed := none }] else op.lanes) (data, w)

/-- A thread of a launch with FUSE = 1 has moved the count at offset 8 of an object: it has appended records, if the object
is NEXTQ's head (R26). -/
def Work.noteFed (w : Work) (op : RingOp) (old new : Nat) : Work :=
  match op.slot.bind w.grp? with
  | none => w
  | some g =>
      let fuse := (((w.blk? g.blk).bind fun b => sget? w.d.launches b.launch).map fun l => l.rec_.fuse).getD false
      if fuse && payGet old 8 8 != payGet new 8 8 then
        w.updBlk g.blk fun b => { b with fed := b.fed ++ [(op.obj, payGet old 8 8, payGet new 8 8)] }
      else w

/-- An add has moved the count at offset 8 of an object: if the object is a queue's head, records are announced (R324). -/
def Work.noteTold (w : Work) (op : RingOp) (old new : Nat) : Work :=
  let adds := match op.act with | .up .add _ | .bell _ _ _ => true | _ => false
  if adds && payGet old 8 8 != payGet new 8 8 then
    w.updPkg fun p => { p with told := sset p.told op.obj (sget p.told op.obj [] ++ [(payGet new 8 8, w.d.tick)]) }
  else w

/-- The operation applies to slot `i` at this passage past its stop. A ring.ret returns the capture that its group holds,
a later one where the first has timed out (DESIGN CHOICE, assumption 74: R121 does not speak of a second capture). -/
def Work.applyOp (w : Work) (hook : GenHook) (die i : Nat) (op : RingOp) : Work :=
  let r := sget (w.d.die die).slots i RSlot.free
  let rev := passRev i op.stop w.d.now
  match op.act with
  | .cap tok =>
      let g := op.slot.getD 0
      let w := op.lanes.foldl (fun w l => w.deliver g l.owed (payWords r.data)) w
      let w := (w.writeTok g (some tok) 0).updGrp g fun g => { g with cap := some { die := die, slot := i, timedOut := false } }
      (w.updSlot die i fun r =>
        { r with captured := true, cstop := op.stop, cgrp := g, cdl := rev + 2, touch := rev }).ringDone w die op
  | .ret tok data =>
      let g := op.slot.getD 0
      let w := (w.writeTok g (some tok) 0).updGrp g fun g => { g with cap := none }
      ((w.retelling fun w => w.rewrite r.obj 64 fun w => w.updSlot die i fun r =>
        { r with data := data.getD r.data, captured := false, touch := rev, rel := some (op.stop, rev),
                 mark := r.mark.map fun m => (max m.1 (w.d.now + 1), m.2) }).ringDone w die op).evict die
  | _ =>
      let e := w.opEffect hook op r.data
      (((e.2.retelling fun w => w.rewrite r.obj 64 fun w => w.updSlot die i fun r =>
        { r with data := e.1, touch := rev }).noteFed op r.data e.1).noteTold op r.data e.1).ringDone w die op

/-- May a ring.cap apply at a passage past stop `t` in revolution `n` (R120, R121)? -/
def RSlot.capOk (r : RSlot) (i now t n : Nat) : Bool :=
  r.state i now == .riding &&
    match r.rel with
    | some (s, m) => if s ≤ t then decide (m + 1 ≤ n) else decide (m + 2 ≤ n)
    | none => true

def isCap : RAct → Bool
  | .cap _ => true
  | _ => false

def isRet : RAct → Bool
  | .ret _ _ => true
  | _ => false

/-- A group that holds a capture cannot capture again (R120). -/
def Work.holdsCap (w : Work) (g : Option Nat) : Bool :=
  match g with
  | some s => (match (w.grp? s).bind Group.cap with | some c => !c.timedOut | none => false)
  | none => false

/-- An ordinary access to its object that one of the operation's threads made before it, or whose value one has read, or that a
fence or acquire of its group puts before it, has not performed (R95, R103, R111); the waits of an unpin of the device's own
are not over (R288). -/
def Work.opWaits (w : Work) (op : RingOp) : Bool :=
  match op.slot with
  | none => false
  | some g =>
      let mine := fun l => op.lanes.isEmpty || op.lanes.any fun r => r.lane == l
      ((w.d.core (slotCore g)).path.any fun e =>
          objOf e.pa == op.obj && ((e.slot == g && decide (e.id < op.ins) && (e.lane :: e.also).any mine) ||
            (e.readBy.any fun p => p.1 == g && mine p.2) || w.synchronous g op.iss.sync e)) ||
        (((w.grp? g).getD Group.gone).owed.any fun e =>
          match e.pay with
          | .load p => decide (e.id < op.ins) && mine p.lane && p.pieces.any fun q => objOf q.1 == op.obj
          | _ => false) ||
        (op.rel && !w.relDone g op.ins)

/-- The operation that applies at this passage among those waiting at the stop, in order of issue. -/
def pickOp (ok : RingOp → Bool) : List RingOp → List (Option Nat) → Option RingOp
  | [], _ => none
  | o :: t, seen =>
      if ok o && !seen.contains o.slot then some o else pickOp ok t (o.slot :: seen)

/-- Operations waiting at a stop for an object. -/
def Die.waitingAt (e : Die) (stop obj now : Nat) : List RingOp :=
  e.ringQ.filter fun o => !o.remote && o.stop == stop && o.obj == obj && decide (o.since ≤ now)

/-- Operations that did not apply wait for later passages. -/
def Work.bump (w : Work) (die stop obj : Nat) : Work :=
  w.updDie die fun e => { e with ringQ := e.ringQ.map fun o =>
    if !o.remote ∧ o.stop = stop ∧ o.obj = obj then { o with since := max o.since (w.d.now + 1) } else o }

/-- RING_OP_APPLY: slot `i` passes a stop. A ring.cap that was issued before the group's first had captured waits here
while the group holds a capture (DESIGN CHOICE, assumption 73: R120 speaks of a capture held at issue). -/
def Work.passStop (w : Work) (hook : GenHook) (die i stop : Nat) : Work :=
  let e := w.d.die die
  let r := sget e.slots i RSlot.free
  let now := w.d.now
  if !r.used || nextPass i stop now != now || decide (now < r.from_) then w
  else
    let ops := e.waitingAt stop r.obj now
    let pick :=
      if r.captured then
        if r.cstop = stop then ops.find? fun o => isRet o.act && o.slot == some r.cgrp else none
      else if r.applies i now then
        pickOp (fun o => !isRet o.act && !w.opWaits o &&
          (!isCap o.act || (r.capOk i now stop (passRev i stop now) && !w.holdsCap o.slot))) ops []
      else none
    match pick with
    | none => if stop = 0 ∧ now = r.from_ then (w.bump die stop r.obj).evict die else w.bump die stop r.obj
    | some op =>
        let w := (w.applyOp hook die i op).bump die stop r.obj
        if stop = 0 then (w.updSlot die i fun r => { r with lastOwn := some now }).evict die else w

/-- REMOTE_RING_OP: operation `k` of those from other dies applies at the gate (R125); for an object homed outside the
package, at its home. -/
def Work.remoteOp (w : Work) (hook : GenHook) (die k : Nat) : Work :=
  let e := w.d.die die
  let ops := e.ringQ.filter RingOp.remote
  match ops.drop k with
  | [] => w
  | op :: _ =>
      if ((ops.take k).any fun o => o.slot == op.slot && o.obj == op.obj) || w.opWaits op then w
      else
        match homeOf w.d op.obj with
        | .die _ =>
            (match e.slots.find? fun s => s.2.used && s.2.obj == op.obj with
              | none => w
              | some (i, r) =>
                  if r.applies i w.d.now && nextPass i 0 w.d.now == w.d.now && r.lastOrd != some w.d.now &&
                      r.lastOwn != some w.d.now then w.applyOp hook die i op
                  else w)
        | _ =>
            if !homeUp w.d op.obj then w
            else
              let old := w.load op.obj 64
              let r := w.opEffect hook op old
              (((r.2.retelling fun w => w.rewrite op.obj 64 fun w => w.store op.obj 64 r.1).noteFed op old r.1).noteTold op old
                r.1).ringDone w die op

/-! ### Capture's end and alighting (R121, R122, R123) -/

/-- Does a ring.ret of the capturing group wait at its stop? -/
def Die.retWaits (e : Die) (r : RSlot) (now : Nat) : Bool :=
  (e.waitingAt r.cstop r.obj now).any fun o => isRet o.act && o.slot == some r.cgrp

/-- A capture of a group has ended by timeout: a ring.ret issued for it since its slot's last passage, and so not in time at
the stop, receives RING_TIMEOUT and writes nothing. -/
def Work.lateRet (w : Work) (die : Nat) (r : RSlot) : Work :=
  match (w.d.die die).ringQ.find? fun o => isRet o.act && o.slot == some r.cgrp && o.obj == r.obj with
  | none => w
  | some o =>
      ((w.writeTok r.cgrp (match o.act with | .ret t _ => some t | _ => none) 0x101).updGrp r.cgrp fun g =>
        { g with cap := none }).ringDone w die o

/-- CAPTURE_TIMEOUT. -/
def Work.capTimeout (w : Work) (die i : Nat) : Work :=
  let e := w.d.die die
  let r := sget e.slots i RSlot.free
  if r.used && r.captured && w.d.now == passage i r.cstop r.cdl && !e.retWaits r w.d.now then
    (((w.updSlot die i fun r =>
        { r with captured := false, rel := some (r.cstop, r.cdl),
                 mark := r.mark.map fun m => (max m.1 (w.d.now + 1), m.2) }).updGrp r.cgrp fun g =>
      { g with cap := g.cap.map fun c => if c.die = die ∧ c.slot = i then { c with timedOut := true } else c }).lateRet die
        r).evict die
  else w

/-- IDLE_ALIGHT: 64 revolutions without an operation, counted at the gate. -/
def Work.idle (w : Work) (die i : Nat) : Work :=
  let r := sget (w.d.die die).slots i RSlot.free
  if r.state i w.d.now == .riding && r.mark.isNone && nextPass i 0 w.d.now == w.d.now &&
      decide (r.touch + 64 ≤ passRev i 0 w.d.now) then
    w.updSlot die i fun r => { r with mark := some (w.d.now, 2) }
  else w

/-- A ring.alight at the gate, or the drain (R122, R334). -/
def Work.askAlight (w : Work) (die obj why : Nat) : Work :=
  match (w.d.die die).slots.find? fun s => s.2.used && s.2.obj == obj with
  | some (i, r) =>
      if r.mark.isSome then w
      else w.updSlot die i fun r => { r with mark := some (max w.d.now r.from_, why) }
  | none => w

/-- The passage at which an alighting slot's payload is written home. -/
def RSlot.writeAt (r : RSlot) (i : Nat) : Option Nat :=
  if r.used && !r.captured then (r.alightAt i).map fun g => nextPass i 0 (max (g + 128) r.wb) else none

/-- ALIGHT_WRITEBACK: the payload is written to the home under R92 and the slot becomes free; operations that have not
applied board the object again. The header fields of the free slot, WHY among them, stay as they were (DESIGN CHOICE, assumption 111:
R115 gives their reset values only). -/
def Work.writeback (w : Work) (die i : Nat) : Work :=
  let r := sget (w.d.die die).slots i RSlot.free
  if r.writeAt i != some w.d.now then w
  else if !w.leaseFree r.obj then w.updSlot die i fun r => { r with wb := w.d.now + 1 }
  else
    let w := w.retelling fun w => w.rewrite r.obj 64 fun w =>
      ((w.updSlot die i fun r => { r with used := false, mark := none, why := (r.mark.map (·.2)).getD r.why }).store
        r.obj 64 r.data).heal r.obj 64
    if (w.d.die die).ringQ.any fun o => o.obj == r.obj then w.askBoard die r.obj else w.evict die

/-! ### Passages that time brings about -/

/-- The boardings that found no free slot and no slot to mark (R124). -/
def Die.unserved (e : Die) : Bool :=
  e.drain.isNone && decide (e.freeSlots.length < (e.boardQ.filter fun b => b.slot.isNone).length)

/-- The next passage of each kind that slot `i` meets, with its step. At the passage at which a capture times out an
operation that waits at the stop does not apply yet (DESIGN CHOICE, assumption 75: R121 gives no order of the two). -/
def slotDue (now die : Nat) (e : Die) (i : Nat) (r : RSlot) : List (Nat × Instr) :=
  if !r.used then []
  else
    ((e.ringQ.filter fun o => !o.remote && o.obj == r.obj).map fun o =>
      (nextPass i o.stop (max o.since r.from_), Instr.ringOpApply die i o.stop)) ++
    (if r.captured && !e.retWaits r (passage i r.cstop r.cdl) then [(passage i r.cstop r.cdl, Instr.captureTimeout die i)]
      else []) ++
    (match r.writeAt i with | some c => [(c, Instr.alightWriteback die i)] | none => []) ++
    (if r.mark.isNone && !r.captured then
        (nextPass i 0 (max now (passage i 0 (r.touch + 64))), Instr.idleAlight die i) ::
          (if e.unserved && decide (now ≤ r.from_) then [(r.from_, Instr.ringOpApply die i 0)] else [])
      else [])

/-- The cycle at which the leases granted on a line are over (R92). -/
def Die.leasesOver (e : Die) (pa : Nat) : Nat :=
  match sget e.leases (lineOf pa) 0 with
  | 0 => 0
  | n => passage 0 63 n

/-- The boarding at the head of a die's queue takes place by its time at the latest, or as soon as its slot is free and its
line's leases are over (R116, R124). -/
def boardDue (d : Dev) (die : Nat) (e : Die) : List (Nat × Instr) :=
  match e.boardQ with
  | [] => []
  | b :: _ =>
      let slot := match b.slot with | some k => !e.slotUsed k | none => !e.freeSlots.isEmpty
      if d.pkg.rdyPkg.getLsbD (bRING die) && !d.pkg.failPkg.getLsbD (bRING die) && e.drain.isNone && slot && homeUp d b.obj &&
          !({ base := [], log := [], d := d : Work }.pinned b.obj) then
        [(max d.now (max b.due (e.leasesOver b.obj)), .objectBoarding die)]
      else []

/-- A header snapshot is taken at the slot's next gate passage (R334). -/
def snapDue (now die : Nat) (e : Die) : List (Nat × Instr) :=
  (e.ringCmds.filter fun c => c.code == 1 && c.st == .waiting).map fun c =>
    (nextPass c.arg 0 (max now (c.since + 1)), .ringSnapshot die)

/-- The ring's steps that the passing of time brings about. -/
def Dev.ringDue (d : Dev) : List (Nat × Instr) :=
  d.dies.flatMap fun e => boardDue d e.1 e.2 ++ snapDue d.now e.1 e.2 ++ e.2.slots.flatMap fun s => slotDue d.now e.1 e.2 s.1 s.2

/-! ### Issuing ring operations -/

/-- A ring operation enters at its object's die: at the issuing core's stop, or as a remote operation, for which its core's
remote-die copies of the line go (R94). -/
def Work.addRing (w : Work) (home : Nat) (op : RingOp) : Work :=
  let w := w.updDie home fun e => { e with ringQ := e.ringQ ++ [op] }
  let w := match op.slot with
    | some g =>
        if op.remote then (w.updGrp g fun g => { g with acks := g.acks + 1 }).dropLine (slotCore g) op.obj else w
    | none => w
  match homeOf w.d op.obj with
  | .die h => w.askBoard h op.obj
  | _ => w

/-- The die at which an object's operations are held: its home, or the issuing die for one outside the package. -/
def Work.ringDie (w : Work) (die pa : Nat) : Nat :=
  match homeOf w.d pa with
  | .die h => h
  | _ => die

/-- Instructions that the stop of a core holds (R119). -/
def Work.stopHolds (w : Work) (core : Nat) : Nat :=
  (((w.d.die (coreDie core)).ringQ.filter fun o => !o.remote && o.stop == core % 64).map RingOp.ins).eraseDups.length

/-- A doorbell's addition to the head object of queue `q`; the host's is a release of the host (R352, R353). -/
def Work.bell (w : Work) (pa v q : Nat) (host : Bool) : Work :=
  match homeOf w.d pa with
  | .die h =>
      let w := if host then w.hostClose else w
      let iss : Stamp := if host then { Stamp.none with ep := w.d.pkg.hostEp, vc := w.d.pkg.hostVc, rel := true } else Stamp.none
      let r := w.newId
      let w := r.2.addRing h { id := r.1, ins := r.1, slot := none, stop := 0, remote := true, obj := objOf pa, lanes := [],
                               act := .bell v q host, n := 8, acq := false, rel := false, scope := .sys, since := 0, wide := false
                               iss := iss }
      if host then w.hostClose else w
  | _ => w

end Sys2Proof.Machine
end

