-- ==== Sys2Proof/Machine/Desc.lean ====
section
/-! DEFINITION. Queue descriptors (R322, Table 21.4) and doorbells (R324, R352). -/

namespace Sys2Proof.Machine

/-- Bits `lo + n - 1 .. lo` of a number. -/
def bits (x lo n : Nat) : Nat := x / 2 ^ lo % 2 ^ n

/-- The dies of a partition (R356). -/
def Dev.partDies (d : Dev) (p : Nat) : List Nat := (List.range 8).filter fun k => dieParts d k == p

/-- Do the queues of a partition include `q`, one of the package's 16,384 (R322, R356)? -/
def Dev.hasQueue (d : Dev) (q p : Nat) : Bool :=
  let r := (d.part p).qrange.toNat
  decide (q < 16384) && !(d.partDies p).isEmpty && decide (bits r 0 15 ≤ q) && decide (q < bits r 0 15 + bits r 16 15)

/-- The partitions that serve queue `q`: those of it whose QCTL.EN is set. -/
def Dev.servers (d : Dev) (q : Nat) : List Nat := (List.range 8).filter fun p => d.hasQueue q p && (d.part p).qctl.getLsbD 0

/-- The partition in which queue `q` is meant where a number alone names it: the lowest that serves it, or that would (DESIGN
CHOICE, assumption 60, where the ranges of several overlap). -/
def Dev.queuePart (d : Dev) (q : Nat) : Option Nat := (d.servers q ++ (List.range 8).filter (d.hasQueue q)).head?

/-- The die whose page tables translate a queue's addresses: the lowest of its partition. -/
def Dev.partDie (d : Dev) (p : Nat) : Nat := ((d.partDies p).head?).getD 0

/-- The 64 bytes of a descriptor. -/
def Work.descOf (w : Work) (p q : Nat) : Nat := w.homeRead ((w.d.part p).qbase.toNat % 2 ^ 57 / 4096 * 4096 + 64 * q) 64

def dEN (x : Nat) : Bool := bits x 0 1 == 1
def dKIND (x : Nat) : Bool := bits x 1 1 == 1
def dPRIV (x : Nat) : Bool := bits x 32 1 == 1
def dHEAVY (x : Nat) : Bool := bits x 33 1 == 1
def dQPRI (x : Nat) : Nat := bits x 34 3
def dLOG2N (x : Nat) : Nat := bits x 37 5
def dLOCALKB (x : Nat) : Nat := bits x 42 7
def dDIEMASK (x : Nat) : Nat := bits x 56 8
def dPBN (x : Nat) : Nat := bits x 64 32
def dPBSYS (x : Nat) : Bool := bits x 96 1 == 1
def dPBID (x : Nat) : Nat := bits x 112 16
def dRAREA (x : Nat) : Nat := bits x 256 57
def dHOBJ (x : Nat) : Nat := bits x 320 57

def dReserved (x : Nat) : Bool :=
  bits x 2 30 != 0 || bits x 49 7 != 0 || bits x 97 15 != 0 || bits x 128 128 != 0 || bits x 313 7 != 0 || bits x 377 135 != 0

/-- The physical address of a queue's head object. -/
def Work.headPa (w : Work) (p q : Nat) : Option Nat :=
  let x := w.descOf p q
  if dHOBJ x % 64 = 0 then
    match w.translate (w.d.partDie p) (dHOBJ x) .ring false with
    | .ok lf => some lf.pa
    | .error _ => none
  else none

/-- A doorbell, the host's or a group's: an addition of `n` at .rel.sys to offset 8 of the queue's head object (R352). -/
def Work.doorbell (w : Work) (q n : Nat) (host : Bool) : Work :=
  match w.d.queuePart q with
  | none => w
  | some p =>
      match w.headPa p q with
      | some pa => w.bell pa n q host
      | none => w

end Sys2Proof.Machine
end

