-- ==== Sys2Proof/Machine/Gen.lean ====
section
/-! DEFINITION. Generation objects, collection descriptors, handles and iterators (R132 to R137, R281, R282), and the pin
that an iterator holds. -/

namespace Sys2Proof.Machine

/-! ### Ranges of pages -/

/-- Physical addresses of the 64-KiB pages from page `p` on; a failing page gives its first address in the range. -/
def Work.pagesFrom (w : Work) (die : Nat) (kind : XKind) (user : Bool) (va : Nat) : Nat → Nat → Except (Nat × Nat) (List Nat)
  | 0, _ => .ok []
  | n + 1, p =>
      match w.translate die (65536 * p) kind user with
      | .error c => .error (c, max va (65536 * p))
      | .ok lf => (w.pagesFrom die kind user va n (p + 1)).map fun t => lf.pa :: t

/-- The pages of `n` bytes from a virtual address (cause and address where it fails). -/
def Work.mapPages (w : Work) (die : Nat) (kind : XKind) (user : Bool) (va n : Nat) : Except (Nat × Nat) (List Nat) :=
  if n = 0 then .ok []
  else if 2 ^ 57 < va + n then .error (cADDR_RANGE, va % 2 ^ 57)
  else w.pagesFrom die kind user va ((va + n - 1) / 65536 - va / 65536 + 1) (va / 65536)

/-- The physical address of a virtual one in a range that was mapped. -/
def pageAt (pages : List Nat) (va0 va : Nat) : Nat := pages.getD (va / 65536 - va0 / 65536) 0 + va % 65536

/-- The granules of `n` bytes at a virtual address in a range of mapped pages that begins at `va0`: where each lies, and its
bytes. -/
def pageRun (pages : List Nat) (va0 va n : Nat) : List (Nat × Nat) :=
  if n = 0 then []
  else
    (List.range ((va % 16 + n + 15) / 16)).map fun i =>
      let a := max va (va / 16 * 16 + 16 * i)
      (pageAt pages va0 a, min (va + n) (va / 16 * 16 + 16 * (i + 1)) - a)

/-- An address inside `n` bytes of a range of mapped pages that begins at `va0`. -/
def inPages (pages : List Nat) (va0 n a : Nat) : Bool :=
  (List.range pages.length).any fun i =>
    let p := pages.getD i 0
    let va := 65536 * (va0 / 65536 + i) + (a - p)
    decide (p ≤ a) && decide (a < p + 65536) && decide (va0 ≤ va) && decide (va < va0 + n)

/-- A program has written into a pool or an arena: what the generations there hold is undefined (R137, R151). -/
def Work.spoilt (w : Work) (pages : List Nat) (va0 n : Nat) : Bool :=
  w.d.pkg.made.any fun e => !e.2 && inPages pages va0 n (16 * e.1)

/-- It is made anew: nothing of what its engine wrote there counts any longer. -/
def Work.anew (w : Work) (pages : List Nat) (va0 n : Nat) : Work :=
  w.updPkg fun p => { p with made := p.made.filter fun e => !inPages pages va0 n (16 * e.1) }

/-! ### The generation object (Table 7.3) -/

def gGEN (x : Nat) : Nat := bits x 0 63
def gBUSY (x : Nat) : Bool := bits x 63 1 == 1
def gDIR (x : Nat) : Nat := bits x 64 64
def gCOUNT (x : Nat) : Nat := bits x 128 64
def gSTAGE (x : Nat) : Nat := bits x 192 64
def gPIN (x i : Nat) : Nat := bits x (256 + 64 * i) 64

/-- A number with bits `lo + n - 1 .. lo` replaced. -/
def putBits (x lo n v : Nat) : Nat := x - bits x lo n * 2 ^ lo + v % 2 ^ n * 2 ^ lo

/-- Pins plus one. -/
def gPinUp (x i : Nat) : Nat := putBits x (256 + 64 * i) 64 (gPIN x i + 1)

/-- An object's 64 bytes, wherever they lie. -/
def Work.objData (w : Work) (pa : Nat) : Nat :=
  match w.d.rideOf pa with
  | some (_, _, r) => r.data
  | none => w.load pa 64

/-! ### Descriptors (Table 7.1, R133) -/

def cGOBJ (x : Nat) : Nat := bits x 0 57
def cPOOL (x : Nat) : Nat := bits x 64 57
def cPCAP (x : Nat) : Nat := bits x 128 32
def cSCAP (x : Nat) : Nat := bits x 160 32
def cSTG (x : Nat) : Nat := bits x 192 57
def cW (x : Nat) : Nat := bits x 256 6
def cF (x : Nat) : Nat := bits x 264 5
def cK (x : Nat) : Nat := bits x 272 4
def cPW (x : Nat) : Nat := bits x 276 6

/-- The cases of R133 but the last. -/
def collDescBad (x : Nat) : Bool :=
  bits x 57 7 != 0 || bits x 121 7 != 0 || bits x 249 7 != 0 || bits x 262 2 != 0 || bits x 269 3 != 0 || bits x 282 230 != 0 ||
    cW x == 0 || decide (48 < cW x) || decide (24 < cF x) || decide (32 < cPW x) || cSCAP x == 0 || decide (16777216 < cSCAP x) ||
    cPCAP x == 0 || decide (2 ^ 32 - 2 < cPCAP x) || cGOBJ x % 64 != 0 || cPOOL x % 512 != 0 || cSTG x % 16 != 0

/-! ### Handles and iterators (Tables 15.2, 15.3) -/

def handleOf (desc x : Nat) : Nat :=
  2 ^ 248 * 0xC1 + 2 ^ 242 * cW x + 2 ^ 237 * cF x + 2 ^ 233 * cK x + 2 ^ 227 * cPW x + 2 ^ 170 * cGOBJ x + desc

/-- A register that a handle must be in (R282). -/
def handleBad (r : TRec) : Bool :=
  bits r.toNat 248 8 != 0xC1 || bits r.toNat 57 113 != 0 || bits r.toNat 0 6 != 0

def hDESC (r : TRec) : Nat := bits r.toNat 0 57

structure Iter where
  hi : Nat
  key : Nat
  bpos : Nat
  ent : Nat
  chi : Nat
  dira : Nat
  desca : Nat
  pg : Nat
  ended : Bool
  open_ : Bool

def Iter.ofRec (r : TRec) : Iter :=
  let x := r.toNat
  { hi := bits x 208 48, key := bits x 160 48, bpos := bits x 148 12, ent := bits x 136 12, chi := bits x 104 32,
    dira := bits x 56 48 * 512, desca := bits x 5 51 * 64, pg := bits x 3 2, ended := bits x 2 1 == 1, open_ := bits x 1 1 == 1 }

def Iter.toNat (i : Iter) : Nat :=
  2 ^ 208 * (i.hi % 2 ^ 48) + 2 ^ 160 * (i.key % 2 ^ 48) + 2 ^ 148 * (i.bpos % 2 ^ 12) + 2 ^ 136 * (i.ent % 2 ^ 12) +
    2 ^ 104 * (i.chi % 2 ^ 32) + 2 ^ 56 * (i.dira / 512 % 2 ^ 48) + 2 ^ 5 * (i.desca / 64 % 2 ^ 51) + 2 ^ 3 * (i.pg % 4) +
    2 ^ 2 * i.ended.toNat + 2 * i.open_.toNat + 1

def isIter (r : TRec) : Bool := bits r.toNat 0 1 == 1

/-! ### Pins (R128, R142, R288) -/

/-- A pin word changes by a ring operation of the group in a slot; an unpin is a release at .pkg (R288). -/
def Work.pinOp (w : Work) (slot gpa i : Nat) (up : Bool) : Work :=
  let w := if up then w else w.closeEp slot
  let g := (w.grp? slot).getD Group.gone
  let r := w.newId
  let die := slotDie slot
  let remote := decide (w.ringDie 8 gpa ≠ die)
  let w := r.2.addRing (w.ringDie die gpa)
    { id := r.1, ins := r.1, slot := some slot, stop := if remote then 0 else slotCore slot % 64, remote := remote,
      obj := objOf gpa, lanes := [], act := .pin i up, n := 8, acq := false, rel := !up, scope := .pkg, since := w.d.now + 1, wide := false
      iss := { ep := g.ep, vc := g.vc, sync := g.sync, rel := !up } }
  if up then w else w.closeEp slot

/-- Where the leaf of an address maps it, whatever its MIG, TIER and permissions. -/
def Work.leafPa (w : Work) (die va : Nat) : Option Nat :=
  (w.leafAt die va).map fun r => eAddr r.1 + va % 2 ^ lvlShift r.2.2

/-- The generation object of an open iterator: as the group has kept it, or as its descriptor names it now. -/
def Work.iterObj (w : Work) (slot desca : Nat) : Option Nat :=
  match ((w.grp? slot).getD Group.gone).iters.find? fun p => p.1 == desca with
  | some p => some p.2
  | none => (w.leafPa (slotDie slot) desca).bind fun pa => w.leafPa (slotDie slot) (cGOBJ (w.objData pa))

/-- The group keeps one iterator of a descriptor less. -/
def Group.dropIter (g : Group) (desca : Nat) : Group :=
  { g with iters := match g.iters.find? fun p => p.1 == desca with | some p => g.iters.erase p | none => g.iters }

/-- An open iterator's pin is given back. -/
def Work.closeIter (w : Work) (slot : Nat) (r : TRec) : Work :=
  let i := Iter.ofRec r
  if isIter r && i.open_ then
    match w.iterObj slot i.desca with
    | some gpa => (w.pinOp slot gpa i.pg false).updGrp slot fun g => g.dropIter i.desca
    | none => w
  else w

/-- Results known but not yet written to T registers of a group. -/
def Work.landT (w : Work) (slot : Nat) : Work :=
  (((w.grp? slot).getD Group.gone).owed).foldl (fun w e =>
    match e.dst, e.pay with
    | [.t n hf], .ready ws =>
        (w.writeRegs slot [.t n hf] ws).updGrp slot fun g => { g with owed := g.owed.filter fun o => o.id != e.id }
    | _, _ => w) w

/-- Every iterator still open in a group is closed (R142). -/
def Work.closeIters (w : Work) (slot : Nat) : Work :=
  let w := w.landT slot
  match w.grp? slot with
  | none => w
  | some g =>
      (List.range 16).foldl (fun w t =>
        (w.closeIter slot (g.readT t)).updGrp slot fun g =>
          if isIter (g.readT t) then g.writeT t (g.readT t &&& ~~~2#256) else g) w

end Sys2Proof.Machine
end

