-- ==== Sys2Proof/Machine/Exit.lean ====
section
/-! DEFINITION. Hardware barriers' phases (R17, R252, R325), join registers (R268) and what a thread's end does to
them (R202). -/

namespace Sys2Proof.Machine

/-! ### Barriers -/

/-- The groups of a block, by slot (R18, R344). -/
def Block.slots (b : Block) (blk : Nat) : List Nat := (List.range b.gcnt).map fun k => blk + k

def Work.groupLive (w : Work) (slot : Nat) : Bool :=
  match w.grp? slot with
  | some g => !g.live.isEmpty
  | none => false

/-- Non-exited groups of a block. -/
def Work.blockMembers (w : Work) (blk : Nat) : List Nat :=
  match w.blk? blk with
  | some b => (b.slots blk).filter w.groupLive
  | none => []

/-- Resident blocks of a launch. -/
def Work.launchBlocks (w : Work) (launch : Nat) : List Nat :=
  (w.d.blocks.filter fun e => e.2.launch == launch).map (·.1)

def Work.launchMembers (w : Work) (launch : Nat) : List Nat :=
  (w.launchBlocks launch).flatMap w.blockMembers

/-- Barrier numbers of Table 2.9: 0 to 15 .blk, 16 to 20 .quad to .sys. -/
def barNo (sc : Scope) (id : Nat) : Nat :=
  match sc with
  | .quad => 16 | .die => 17 | .pkg => 18 | .pod => 19 | .sys => 20 | _ => id

/-- The unit of a group at a barrier's scope (Table 1.2): that of its block's creation. -/
def Work.barUnit (w : Work) (sc : Scope) (slot : Nat) : Nat :=
  let q := (((w.grp? slot).bind fun g => w.blk? g.blk).map Block.unit).getD (slot / 512)
  match sc with
  | .quad => q
  | .die => q / 16
  | _ => 0

/-- Where the barrier's phase and arrivals are held: a launch's barrier `n` of unit `u` has key `65536·n + u`. -/
def barKey (n u : Nat) : Nat := 65536 * n + u

def Bar.zero : Bar := { phase := 0, arrived := [], vc := [], done := [] }

/-- The phase completes: what came before its arrivals comes before what follows the waits (R103). -/
def Bar.next (b : Bar) : Bar := { phase := b.phase + 1, arrived := [], vc := [], done := Clock.join b.done b.vc }
def PodBar.zero : PodBar := { bar := Bar.zero, members := 0, arrived := 0, exited := 0, pops := 0, pbn := 0 }
def BarSt.zero : BarSt := { arr := false, owe := false, phase := 0 }

/-- The phase that completes clears ARR in its groups (Table 2.9). -/
def Work.clearArr (w : Work) (n : Nat) (slots : List Nat) : Work :=
  slots.foldl (fun w s => w.updGrp s fun g => { g with bar := supd g.bar n fun b => { b with arr := false } }) w

/-- A .blk barrier completes its phase when every non-exited group has arrived; every ownership of the block's B
registers is then cleared (R17, R44, R252). -/
def Work.checkBlkBar (w : Work) (blk n : Nat) : Work :=
  match w.blk? blk with
  | none => w
  | some b =>
      let bar := sget b.bars n Bar.zero
      let ms := w.blockMembers blk
      if !ms.isEmpty && !bar.arrived.isEmpty && ms.all bar.arrived.contains then
        (w.updBlk blk fun b => { b with bars := sset b.bars n bar.next, bown := [] }).clearArr n
          bar.arrived
      else w

/-- A barrier at .quad, .die or .pkg of a launch. -/
def Work.checkWideBar (w : Work) (launch : Nat) (sc : Scope) (u : Nat) : Work :=
  match sget? w.d.launches launch with
  | none => w
  | some ln =>
      let k := barKey (barNo sc 0) u
      let bar := sget ln.bars k Bar.zero
      let ms := (w.launchMembers launch).filter fun s => w.barUnit sc s == u
      if !ms.isEmpty && !bar.arrived.isEmpty && ms.all bar.arrived.contains then
        let ln' := { ln with bars := sset ln.bars k bar.next }
        (w.updDev fun d => { d with launches := sset d.launches launch ln' }).clearArr (barNo sc 0) bar.arrived
      else w

/-- The local groups enrolled under an id at .pod or .sys (R325). -/
def Work.podMembers (w : Work) (pbid : Nat) (sys : Bool) : List Nat :=
  (w.d.launches.filter fun e => e.2.pbid == pbid && e.2.pbsys == sys).flatMap fun e => w.launchMembers e.1

def podKey (pbid : Nat) (sys : Bool) : Nat := 2 * pbid + sys.toNat

/-- Every group of the local launches enrolled under an id exists or has existed. -/
def Work.podCreated (w : Work) (pbid : Nat) (sys : Bool) : Bool :=
  w.d.launches.all fun e =>
    !(e.2.pbid == pbid && e.2.pbsys == sys) || e.2.ending || decide (e.2.rec_.nblk ≤ e.2.created.length)

/-- A .pod or .sys barrier completes when every launch enrolled has been popped and every non-exited group of theirs, here
and in the other packages, has arrived (R16, R325). -/
def Work.checkPodBar (w : Work) (pbid : Nat) (sys : Bool) : Work :=
  let k := podKey pbid sys
  let pb := sget w.d.pkg.podBars k PodBar.zero
  let ms := w.podMembers pbid sys
  if decide (0 < pb.pbn) && decide (pb.pbn ≤ pb.pops) && w.podCreated pbid sys && ms.all pb.bar.arrived.contains && pb.members ≤ pb.arrived + pb.exited &&
      !(pb.bar.arrived.isEmpty && pb.arrived == 0) then
    let pb' := { pb with bar := pb.bar.next, arrived := 0 }
    (w.updDev fun d => { d with pkg := { d.pkg with podBars := sset d.pkg.podBars k pb' } }).clearArr
      (if sys then 20 else 19) pb.bar.arrived
  else w

/-- Every barrier of which a group was a member is looked at again (R17). -/
def Work.checkAllBars (w : Work) (slot : Nat) : Work :=
  match w.grp? slot with
  | none => w
  | some g =>
      let w := (List.range 16).foldl (fun w n => w.checkBlkBar g.blk n) w
      match w.blk? g.blk with
      | none => w
      | some b =>
          let w := [Scope.quad, .die, .pkg].foldl (fun w sc => w.checkWideBar b.launch sc (w.barUnit sc slot)) w
          match sget? w.d.launches b.launch with
          | none => w
          | some ln => if ln.pbid = 0 then w else w.checkPodBar ln.pbid ln.pbsys

/-! ### Join registers -/

def Join.idle : Join := { declared := [], signed := [], word := 0, st := .idle }

/-- The waiting signers of an orphaned join take STATE orphaned; the fault is taken when their group next issues
(R268, R370). -/
def Work.orphan (w : Work) (blk : Nat) (signers : List Nat) : Work :=
  signers.foldl (fun w t => w.updGrp (blk + t / 32) fun g =>
    g.updThread (t % 32) fun th => if th.st = .waiting then { th with st := .orphaned } else th) w

/-- A declared thread that has not signed exits: its armed joins become idle and their signers are orphaned. -/
def Work.joinExit (w : Work) (blk tno : Nat) : Work :=
  (List.range 8).foldl (fun w j =>
    match w.blk? blk with
    | none => w
    | some b =>
        let jr := sget b.joins j Join.idle
        if jr.st = .armed ∧ jr.declared.contains tno ∧ ¬ jr.signed.contains tno then
          (w.updBlk blk fun b => { b with joins := sset b.joins j Join.idle }).orphan blk jr.signed
        else w) w

/-! ### Exit (R202) -/

/-- Results owed to a lane's registers are discarded; its loads still perform. -/
def Group.dropOwed (g : Group) (l : Nat) : Group :=
  { g with owed := g.owed.filterMap fun e =>
      let e := { e with wins := e.wins.filter fun p => p.1 != l }
      match e.dst with
      | .v l' _ :: _ =>
          if l' ≠ l then some e
          else (match e.pay with | .load _ => some { e with dst := [] } | _ => none)
      | _ => some e }

/-- One thread ends: M empty, operand mapping gone, results owed to it discarded. -/
def Group.endThread (g : Group) (l : Nat) : Group :=
  (g.dropOwed l).updThread l fun t => { t with st := .exited, m := none, wait := none, parked := false, q := [] }

/-- A result still lands after its group's last thread has exited: the block reads it in a B register (R44). -/
def Owed.outlives (e : Owed) : Bool := e.dst.any fun r => match r with | .b _ => true | _ => false

/-- The last thread of a group has exited: the extended set and the B ownerships go, and the group leaves every
barrier (R17, R39, R44). -/
def Work.groupGone (w : Work) (slot : Nat) : Work :=
  match w.grp? slot with
  | none => w
  | some g =>
      if g.live.isEmpty then
        let w := (w.closeIters slot).updGrp slot fun g =>
          { g with extH := false, growW := none, extIn := none, active := false, owed := g.owed.filter Owed.outlives, acq := [], stop := none, pk := none, pendFault := none, hmix := none }
        let w := w.updBlk g.blk fun b => { b with bown := b.bown.filter fun e => e.2 != g.gidx }
        w.checkAllBars slot
      else w

/-- The lanes of a group exit (R202). -/
def Work.exitLanes (w : Work) (slot : Nat) (ls : List Nat) : Work :=
  match w.grp? slot with
  | none => w
  | some g =>
      let w := w.updGrp slot fun g => (ls.foldl Group.endThread g).meetings
      let w := ls.foldl (fun w l => w.joinExit g.blk (32 * g.gidx + l)) w
      w.groupGone slot

/-! ### Ending a block (R84, R346) -/

/-- The status of a launch's header becomes `code` when it was 0. -/
def Work.setStatus (w : Work) (launch code : Nat) : Work :=
  w.updDev fun d => { d with launches := supd d.launches launch fun l =>
    { l with status := if l.status = 0 then code else l.status } }

/-- The device ends a block: its threads exit as R202 gives, held faults and records still to append are discarded, and
the status of its launch becomes `code` when it was 0. BLOCK_RETIRE follows once its operations have retired. -/
def Work.endBlk (w : Work) (blk code : Nat) : Work :=
  match w.blk? blk with
  | none => w
  | some b =>
      ((b.slots blk).foldl (fun w s =>
        match w.grp? s with
        | none => w
        | some g =>
            (w.updGrp s fun g => { g with hmix := none, pendFault := none, append := [] }).exitLanes s g.live) w).setStatus
        b.launch code

/-- An error that no code corrects, or a failed function, ends a block (R84, R361): MEMERR is set on its core. -/
def Work.memEnd (w : Work) (blk : Nat) : Work := (w.endBlk blk cMEM_UNCORR).raiseInt (slotCore blk) 4

/-- An access cannot be served: its home's memory failed, or it reads a poisoned line (R84, R361). -/
def Work.deadAt (w : Work) (pa : Nat) (reads : Bool) : Bool := homeFailed w.d pa || (reads && w.poisoned pa)

/-- Where a read of the byte at a virtual address meets what cannot be read: in an entry of its walk, or at the byte. -/
def Work.deadWalk (w : Work) (die va : Nat) : List Nat :=
  let at_ := (w.leafAt die va).map fun r => eAddr r.1 + va % 2 ^ lvlShift r.2.2
  ((entries w va 4 0 (w.d.die die).root ++ at_.toList).find? fun k => w.deadAt k true).toList

/-- ECCLAST of a die becomes an error in storage of a kind (Tables 24.1, 24.7), in the line of an address (R368). -/
def Work.eccNote (w : Work) (die kind pa : Nat) : Work :=
  w.updDie die fun e => { e with eccLast := BitVec.ofNat 64 (2 ^ 61 * kind + pa / 512 * 512) }

/-- The bytes at `ks`, which an access of the block reads, cannot all be served: the block ends. A poisoned line is an error of
its home's L2 slice (R84, R368). -/
def Work.deadEnd (w : Work) (blk : Nat) (ks : List Nat) : Work :=
  let w := match ks.find? w.poisoned with
    | some k => (match homeOf w.d k with | .die h => w.eccNote h 3 k | _ => w)
    | none => w
  w.memEnd blk

/-- A store that reads have raced is over: nothing waits for it any longer (R89). -/
def Work.unrace (w : Work) (id : Nat) : Work := w.updDev fun d => { d with
  groups := d.groups.map fun e =>
    (e.1, if e.2.acq.contains id then { e.2 with acq := e.2.acq.filter fun a => a != id } else e.2)
  ops := d.ops.map fun o => if o.raced.contains id then { o with raced := o.raced.filter fun a => a != id } else o }

/-- A write-path entry that never performs leaves the path. -/
def Work.dropEntry (w : Work) (core : Nat) (e : WEntry) : Work :=
  let w := (w.updCore core fun c => { c with path := c.path.filter fun o => o.id != e.id }).unrace e.id
  let red := match e.kind with | .red _ _ => true | _ => false
  let w := if homeOf w.d e.pa = .die (coreDie core) || red then w
    else w.updGrp e.slot fun g => { g with acks := g.acks - 1 }
  let w := w.updGrp e.slot fun g =>
    { g with owed := g.owed.filter (fun o => some o.id != e.owed), acq := g.acq.filter fun a => a != e.id }
  match e.kind with
  | .red _ id => w.updOp id fun o => { o with left := o.left - 1 }
  | _ => w

/-- An engine operation that never performs leaves its counters, its engine's table or queue, and its pin. -/
def Work.dropOp (w : Work) (e : EOp) : Work :=
  let w := (w.updDev fun d =>
    { d with ops := d.ops.filter (fun o => o.id != e.id)
             dies := d.dies.map fun k => (k.1, { k.2 with
               idxQ := k.2.idxQ.filter fun o => o != e.id
               resv := k.2.resv.map fun q => (q.1, q.2.filter fun r => r.op != e.id) }) }).subCount e.slots e.cls
  match e.kind with
  | .trace _ p _ (some i) => w.pinOp (e.slots.headD 0) p.gpa i false
  | .collPinned slot c data _ _ _ => w.pinOp slot c.gpa (gGEN data % 4) false
  | _ => w

end Sys2Proof.Machine
end

