-- ==== Sys2Proof/Machine/Flags.lean ====
section
/-! DEFINITION. Conditions and the predicates that instructions compute. The machine has no flag register: a
predicate P0 to P14 is the only flag (R36, R46). -/

namespace Sys2Proof.Machine

/-- Cond(a, b) of cmp and wait.v on w-bit patterns (R192, R250). -/
def condInt (c : Cond) (signed : Bool) (w a b : Nat) : Bool :=
  let x : Int := if signed then (BitVec.ofNat w a).toInt else (a : Int)
  let y : Int := if signed then (BitVec.ofNat w b).toInt else (b : Int)
  match c with
  | .eq => x == y
  | .ne => x != y
  | .lt => decide (x < y)
  | .le => decide (x ≤ y)
  | .gt => decide (y < x)
  | .ge => decide (y ≤ x)

/-- Set predicate `pd` of every executing lane. -/
def Work.writePred (w : Work) (x : List Nat) (pd : BitVec 4) (f : Nat → Bool) : Work :=
  let vs := x.map fun l => (l, f l)
  w.updG fun g => vs.foldl (fun g p => g.updThread p.1 fun t => t.setPred pd p.2) g

end Sys2Proof.Machine
end

