-- ==== Sys2Proof/Machine/Control.lean ====
section
/-! DEFINITION. Control, meetings, regions, the extended set, hints, continuations, traps (R200 to R212), and the
device steps that end their waits. -/

namespace Sys2Proof.Machine

/-! ### Branches, calls, exit (R200 to R203) -/

/-- The target of a relative branch (R179). -/
def relTarget (c : Cur) (ofs : Word) : Addr := c.pc + ((ofs.signExtend 57) <<< 2)

/-- Every executing lane continues at `a`. -/
def allTo (x : List Nat) (a : Addr) : List (Nat × Addr) := x.map fun l => (l, a)

def execBra (h : Hdr) (ofs : Word) (s : State) : Host.Outcome State Fault Refusal :=
  issue s h [] [] fun w x => .ok w (allTo x (relTarget w.d.cur ofs))

/-- bra.ind and ret (R200): ADDR_RANGE on bits 63:57, then MISALIGN on bits 1:0. -/
def indirect (s : State) (h : Hdr) (a : Opnd) : Host.Outcome State Fault Refusal :=
  issue s h (a.names 2) [] fun w x =>
    if x.any fun l => 2 ^ 57 ≤ (w.op64 l a).toNat then .trap cADDR_RANGE 0
    else if x.any fun l => (w.op64 l a).toNat % 4 != 0 then .trap cMISALIGN 0
    else .ok w (x.map fun l => (l, (w.op64 l a).truncate 57))

def execBraInd (h : Hdr) (a : Opnd) (s : State) := indirect s h a
def execRet (h : Hdr) (a : Opnd) (s : State) := indirect s h a

/-- call (R201): the link pair takes the address after the call. -/
def execCall (h : Hdr) (l : BitVec 8) (ofs : Word) (s : State) : Host.Outcome State Fault Refusal :=
  issue s h [] ((Dst.v l).names 2) fun w x =>
    .ok (w.writeDst x (.v l) true true fun _ => (w.d.cur.pc + 8).zeroExtend 64) (allTo x (relTarget w.d.cur ofs))

def execExit (h : Hdr) (s : State) : Host.Outcome State Fault Refusal :=
  issue s h [] [] fun w x => .ok (w.exitLanes w.slot x) []

/-- nap (R203): at least n[15:0] cycles in each lane. -/
def execNap (h : Hdr) (a : Opnd) (s : State) : Host.Outcome State Fault Refusal :=
  issue s h (a.names 1) [] fun w x =>
    .wait w x (.nap w.d.now (x.map fun l => (l, (w.op32 l a).toNat % 65536))) []

/-- NAP_EXPIRY (R203): the nap of a lane is over, and that of the lanes that asked for as many cycles with it. -/
def execNapExpiry (slot lane : Nat) (s : State) : Host.Outcome State Fault Refusal :=
  device s fun w =>
    match w.grp? slot with
    | none => w
    | some g =>
        match (g.thread lane).st, (g.thread lane).wait.map Wait.why with
        | .waiting, some (.nap start ns) =>
            if start + napOf ns lane ≤ w.d.now then
              w.release slot ((g.waitMates lane).filter fun l => napOf ns l == napOf ns lane)
            else w
        | _, _ => w

/-! ### Meetings (R204, R205) -/

/-- The M word of a thread (R204). -/
def Thread.mWord (t : Thread) : DWord :=
  match t.m with
  | some a => (1#64 <<< 63) ||| a.zeroExtend 64
  | none => 0

def Work.setM (w : Work) (x : List Nat) (f : Nat → Option Addr) : Work :=
  let vs := x.map fun l => (l, f l)
  w.updG fun g => vs.foldl (fun g p => g.updThread p.1 fun t => { t with m := p.2 }) g

def execMeetSet (h : Hdr) (ofs : Word) (s : State) : Host.Outcome State Fault Refusal :=
  issue s h [] [] fun w x => .ok (w.setM x fun _ => some (relTarget w.d.cur ofs)) []

def execMeetSetXch (h : Hdr) (l : BitVec 8) (ofs : Word) (s : State) : Host.Outcome State Fault Refusal :=
  issue s h [] ((Dst.v l).names 2) fun w x =>
    .ok ((w.writeDst x (.v l) true true fun t => (w.g.thread t).mWord).setM x fun _ => some (relTarget w.d.cur ofs)) []

def execMeetSetFrom (h : Hdr) (a : Opnd) (s : State) : Host.Outcome State Fault Refusal :=
  issue s h (a.names 2) [] fun w x =>
    .ok (w.setM x fun l => if (w.op64 l a).getLsbD 63 then some ((w.op64 l a).truncate 57) else none) []

/-- meet (R205): to M where M is non-empty. -/
def execMeet (h : Hdr) (s : State) : Host.Outcome State Fault Refusal :=
  issue s h [] [] fun w x => .ok w (x.filterMap fun l => (w.g.thread l).m.map fun a => (l, a))

def execMeetBrk (h : Hdr) (s : State) : Host.Outcome State Fault Refusal :=
  issue s h [] [] fun w x => .ok (w.setM x fun _ => none) []

/-! ### Regions (R206) and the extended set (R39, R40) -/

/-- The runs of a region instruction as (Q index, V index). -/
def regionRuns (v1 n1 v2 n2 : Nat) : List (Nat × Nat) :=
  ((List.range n1).map fun i => (i, v1 + i)) ++ ((List.range n2).map fun i => (n1 + i, v2 + i))

def execRegion (h : Hdr) (v1 : BitVec 8) (n1 : BitVec 5) (v2 : BitVec 8) (n2 : BitVec 5) (s : State) :
    Host.Outcome State Fault Refusal :=
  let runs := regionRuns v1.toNat n1.toNat v2.toNat n2.toNat
  issue s h [] [] fun w x =>
    let bad := runs.map fun r => vCheck w.blk.vbase w.g.extH r.2
    if bad.contains cREG_RANGE then .trap cREG_RANGE 0
    else if bad.contains cEXT_NOTHELD then .trap cEXT_NOTHELD 0
    else .ok (w.updG fun g => x.foldl (fun g l => g.updThread l fun t =>
      { t with q := runs.map fun r => (r.1, BitVec.ofNat 8 r.2) }) g) []

def execRegionEnd (h : Hdr) (s : State) : Host.Outcome State Fault Refusal :=
  issue s h [] [] fun w x => .ok (w.updG fun g => x.foldl (fun g l => g.updThread l fun t => { t with q := [] }) g) []

/-- The partner of a slot: slots 2k and 2k + 1 of one partition, which are four core slots apart (R39, R344). -/
def partner (slot : Nat) : Nat := if slot / 4 % 2 = 0 then slot + 4 else slot - 4

/-- Does a group in this slot hold its pair's extended set? -/
def Work.holdsExt (w : Work) (slot : Nat) : Bool :=
  match w.grp? slot with
  | some g => g.extH
  | none => false

/-- V64 to V255 of a group read zero when the set is granted (R39). -/
def Group.grant (g : Group) : Group :=
  { g with extH := true, growW := none, v := g.v.filter fun e => e.1 % 256 < 64 }

/-- The other group of the pair came to wait for the set before a group that waits since cycle `since`. -/
def Work.partnerFirst (w : Work) (slot since : Nat) : Bool :=
  match (w.grp? (partner slot)).bind fun p => if p.stop.isNone || p.extIn.isSome then p.growW else none with
  | some c => decide (c < since) || (c == since && decide (partner slot < slot))
  | none => false

/-- The pair's set is free for a group that waits since cycle `since`. -/
def Work.setFree (w : Work) (slot since : Nat) : Bool := !w.holdsExt (partner slot) && !w.partnerFirst slot since

/-- grow (R39). The groups of a pair share a partition, which issues one instruction a cycle (R28), so no two of them issue
a grow in one cycle. -/
def execGrow (h : Hdr) (s : State) : Host.Outcome State Fault Refusal :=
  issue s h [] [] fun w x =>
    let since := w.g.growW.getD w.d.now
    if w.g.extH then .ok w []
    else if w.setFree w.slot since then .ok ((w.updG Group.grant).release w.slot w.g.growers) []
    else .wait (w.updG fun g => { g with growW := some since }) x .grow []

/-- The set is granted to a restored group: V64 to V255 take their saved values (R350). -/
def Group.grantIn (g : Group) (e : ExtIn) : Group :=
  { g.grant with v := e.regs.foldl (fun m r => sset m r.1 r.2) g.grant.v, extIn := none }

/-- GROW_GRANT (R39): the set is free and the waiting group, of two the one that has waited longer, receives it. A restored
group that waits for it goes on then, if go has been given (R350). -/
def execGrowGrant (slot : Nat) (s : State) : Host.Outcome State Fault Refusal :=
  device s fun w =>
    match w.grp? slot with
    | none => w
    | some g =>
        match g.growW with
        | some since =>
            (match g.extIn with
              | some e =>
                  if w.setFree slot since && decide (slot < 65536) then
                    w.updGrp slot fun g => { g.grantIn e with stop := if e.go then none else g.stop, active := false, since := 0 }
                  else w
              | none =>
                  if w.setFree slot since && g.stop.isNone then (w.updGrp slot Group.grant).release slot g.growers else w)
        | none => w

/-- The resident slots of a partition. -/
def partSlots (core part : Nat) : List Nat := (List.range 32).map fun i => 128 * core + 4 * i + part

/-- shrink (R39, R41): waits for results owed to V64 to V255, then releases the set; its contents are lost. -/
def execShrink (h : Hdr) (s : State) : Host.Outcome State Fault Refusal :=
  issue s h [] [] fun w _ =>
    if !w.g.extH then .ok w []
    else if w.g.owed.any fun e => e.dst.any fun r => match r with | .v _ n => decide (64 ≤ n) | _ => false then .hold
    else
      .ok (w.updG fun g =>
        { g with extH := false, v := g.v.filter fun e => e.1 % 256 < 64,
                 thr := g.thr.map fun e => (e.1, { e.2 with q := e.2.q.filter fun m => m.2.toNat < 64 }) }) []

/-! ### Hints (R208) -/

/-- phint: new maps in force; with a request pending, the group stops behind it when all its runnable threads execute. -/
def execPhint (h : Hdr) (b e : BitVec 8) (sp : BitVec 16) (s : State) : Host.Outcome State Fault Refusal :=
  issue s h [] [] fun w x =>
    let stops := w.blk.preq.isSome && x == w.g.lanesWith Thread.runs
    .ok (w.updG fun g =>
      { g with mBase := b, mExt := e, mSpad := sp, stop := if stops then some .phint else g.stop,
               active := if stops then false else g.active }) []

/-! ### Continuations (R209 to R211) -/

def execContSet (h : Hdr) (tok : BitVec 6) (ofs : Word) (s : State) : Host.Outcome State Fault Refusal :=
  issue s h [] [] fun w _ =>
    .ok (w.updG fun g => { g with cv := true, contPc := relTarget w.d.cur ofs, contTok := tok.toNat }) []

def execContSetClr (h : Hdr) (s : State) : Host.Outcome State Fault Refusal :=
  issue s h [] [] fun w _ => .ok (w.updG fun g => { g with cv := false, contPc := 0 }) []

/-- Parked lanes return to the saved PC; with the last of them the parked fault is over. -/
def Group.unpark (g : Group) (ls : List Nat) : Group :=
  let g := ls.foldl (fun g l => g.updThread l fun t => { t with parked := false }) g
  if g.anyParked then g else { g with pk := none }

/-- cont.resume (R211). -/
def execContResume (h : Hdr) (tok : BitVec 6) (s : State) : Host.Outcome State Fault Refusal :=
  issue s h [.s tok.toNat] [] fun w x =>
    let ps := x.filter fun l => (w.g.thread l).parked
    match ps, w.g.pk with
    | [], _ => .ok w []
    | _ :: _, none => .ok w []
    | _ :: _, some pk =>
        if pk.tok ≠ tok.toNat then .trap cILLEGAL 0
        else if pk.signalled then .ok (w.updG fun g => g.unpark ps) (allTo ps pk.pc)
        else .wait w ps (.cont []) []

/-! ### Traps (R212) -/

/-- A frame written by the instruction itself, once every result owed to the group has landed (R342). -/
def execTrap (h : Hdr) (_code : BitVec 8) (s : State) : Host.Outcome State Fault Refusal :=
  issue s h [] [] fun w x =>
    let f := { w.faultRec cUSER_TRAP 0 x false with pc := w.d.cur.next, prec := false }
    if w.g.owed.isEmpty then .ok (w.takeTrap w.slot w.d.cur.lanes f) []
    else .wait (w.pend f) w.d.cur.lanes .fault []

def execBrkpt (h : Hdr) (s : State) : Host.Outcome State Fault Refusal :=
  issue s h [] [] fun w x =>
    let f := w.faultRec cBRKPT 0 x false
    if w.g.owed.isEmpty then .ok (w.takeTrap w.slot w.d.cur.lanes f) (allTo w.d.cur.lanes w.d.cur.pc)
    else .wait (w.pend f) w.d.cur.lanes .fault []

end Sys2Proof.Machine
end

