-- ==== Sys2Proof/Machine/Num.lean ====
section
/-! DEFINITION. Number formats, rounding, exact sums, the quantiser and ordered keys (R52 to R70). Values are exact:
a sign, a natural number and a power of two. -/

namespace Sys2Proof.Machine

/-- An exact value: (−1)^s · m · 2^e, with a signed zero when m = 0; an infinity; or NaN. -/
inductive FVal where
  | nan
  | inf (s : Bool)
  | fin (s : Bool) (m : Nat) (e : Int)
  deriving DecidableEq, Repr

/-- What the top encodings of a format hold (Table 3.1). -/
inductive Top where
  /-- Infinity and NaN at the all-ones exponent. -/
  | ieee
  /-- E4M3: NaN at S.1111.111 only. -/
  | nanOnly
  /-- Neither. -/
  | finite
  deriving DecidableEq, Repr

/-- A floating-point format (Table 3.1): exponent and mantissa widths and bias. -/
structure Fmt where
  eb : Nat
  mb : Nat
  bias : Nat
  top : Top
  deriving DecidableEq, Repr

def fF64 : Fmt := { eb := 11, mb := 52, bias := 1023, top := .ieee }
def fF32 : Fmt := { eb := 8, mb := 23, bias := 127, top := .ieee }
def fBF16 : Fmt := { eb := 8, mb := 7, bias := 127, top := .ieee }
def fF16 : Fmt := { eb := 5, mb := 10, bias := 15, top := .ieee }
def fE5M2 : Fmt := { eb := 5, mb := 2, bias := 15, top := .ieee }
def fE4M3 : Fmt := { eb := 4, mb := 3, bias := 7, top := .nanOnly }
def fE3M2 : Fmt := { eb := 3, mb := 2, bias := 3, top := .finite }
def fE2M3 : Fmt := { eb := 2, mb := 3, bias := 1, top := .finite }
def fE2M1 : Fmt := { eb := 2, mb := 1, bias := 1, top := .finite }

def Fmt.width (f : Fmt) : Nat := 1 + f.eb + f.mb

/-- The exponent of the least mantissa bit of the subnormals and the first normals. -/
def Fmt.emin (f : Fmt) : Int := 1 - (f.bias : Int) - f.mb

/-- MaxFinite as (significand, exponent). -/
def Fmt.maxFin (f : Fmt) : Nat × Int :=
  match f.top with
  | .ieee => (2 ^ (f.mb + 1) - 1, (2 ^ f.eb - 2 : Int) - f.bias - f.mb)
  | .nanOnly => (2 ^ (f.mb + 1) - 2, (2 ^ f.eb - 1 : Int) - f.bias - f.mb)
  | .finite => (2 ^ (f.mb + 1) - 1, (2 ^ f.eb - 1 : Int) - f.bias - f.mb)

/-- The canonical NaN (R55); formats without NaN write +0. -/
def Fmt.nanBits (f : Fmt) : Nat :=
  match f.top with
  | .ieee => (2 ^ f.eb - 1) * 2 ^ f.mb + 2 ^ (f.mb - 1)
  | .nanOnly => 2 ^ (f.eb + f.mb) - 1
  | .finite => 0

/-- Decode(x, fmt) (R53). -/
def Fmt.decode (f : Fmt) (x : Nat) : FVal :=
  let s := x.testBit (f.eb + f.mb)
  let e := x / 2 ^ f.mb % 2 ^ f.eb
  let m := x % 2 ^ f.mb
  if f.top = .ieee ∧ e = 2 ^ f.eb - 1 then (if m = 0 then .inf s else .nan)
  else if f.top = .nanOnly ∧ e = 2 ^ f.eb - 1 ∧ m = 2 ^ f.mb - 1 then .nan
  else if e = 0 then .fin s m f.emin
  else .fin s (2 ^ f.mb + m) ((e : Int) - 1 + f.emin)

/-- m · 2^k as a natural number when k ≥ 0, and its floor otherwise. -/
def scaleNat (m : Nat) (k : Int) : Nat := if 0 ≤ k then m * 2 ^ k.toNat else m / 2 ^ (-k).toNat

/-- Is m1·2^e1 < m2·2^e2? -/
def magLt (m1 : Nat) (e1 : Int) (m2 : Nat) (e2 : Int) : Bool :=
  let e := min e1 e2
  decide (scaleNat m1 (e1 - e) < scaleNat m2 (e2 - e))

/-- The encoding of a value on the grid of `f`. -/
def Fmt.encode (f : Fmt) (v : FVal) : Nat :=
  match v with
  | .nan => f.nanBits
  | .inf s => s.toNat * 2 ^ (f.eb + f.mb) + (2 ^ f.eb - 1) * 2 ^ f.mb
  | .fin s m e =>
      let sb := s.toNat * 2 ^ (f.eb + f.mb)
      if m = 0 then sb
      else
        let q := max ((Nat.log2 m : Int) + e - f.mb) f.emin
        let n := scaleNat m (e - q)
        if n < 2 ^ f.mb then sb + n else sb + ((q - f.emin + 1).toNat * 2 ^ f.mb + (n - 2 ^ f.mb))

/-! ### Rounding (R58, R59) -/

/-- The choice between the neighbours a (toward zero) and b of an inexact value: true for b. `rem`/2^d is the part
beyond a, `odd` a's lowest bit, `draw` the 16 random bits. -/
def roundUp (r : Rnd) (s odd : Bool) (rem d draw : Nat) : Bool :=
  match r with
  | .rne => decide (2 ^ d < 2 * rem) || (decide (2 * rem = 2 ^ d) && odd)
  | .rz => false
  | .rd => s
  | .ru => !s
  | .rs => decide (draw < rem * 2 ^ 16 / 2 ^ d)

/-- Significand of m·2^e rounded to multiples of 2^q. -/
def roundAt (r : Rnd) (s : Bool) (m : Nat) (e q : Int) (draw : Nat) : Nat :=
  if q ≤ e then m * 2 ^ (e - q).toNat
  else
    let d := (q - e).toNat
    let a := m / 2 ^ d
    let rem := m % 2 ^ d
    if rem = 0 then a else if roundUp r s (a % 2 == 1) rem d draw then a + 1 else a

/-- RoundToFormat (R58): the result as a value on the grid, an infinity or NaN. -/
def Fmt.round (f : Fmt) (r : Rnd) (draw : Nat) (v : FVal) : FVal :=
  match v with
  | .nan => .nan
  | .inf s => if f.top = .ieee then .inf s else .fin s f.maxFin.1 f.maxFin.2
  | .fin s m e =>
      if m = 0 then .fin s 0 0
      else
        let q := max ((Nat.log2 m : Int) + e - f.mb) f.emin
        let n := roundAt r s m e q draw
        if magLt f.maxFin.1 f.maxFin.2 n q then
          let big := FVal.fin s f.maxFin.1 f.maxFin.2
          if f.top ≠ .ieee then big
          else
            match r with
            | .rz => big
            | .rd => if s then .inf s else big
            | .ru => if s then big else .inf s
            | .rne | .rs => .inf s
        else .fin s n q

/-- Sat (R56). -/
def Fmt.sat (f : Fmt) (v : FVal) : FVal :=
  match v with
  | .inf s => .fin s f.maxFin.1 f.maxFin.2
  | .fin s m e => if magLt f.maxFin.1 f.maxFin.2 m e then .fin s f.maxFin.1 f.maxFin.2 else v
  | .nan => .nan

/-- The .ftz flush of an FP32 value (R61). -/
def flush32 (v : FVal) : FVal :=
  match v with
  | .fin s m e => if magLt m e 1 (-126) then .fin s 0 0 else v
  | v => v

/-- Round, saturate, flush, encode (R58, R56, R217). -/
def Fmt.out (f : Fmt) (r : Rnd) (sat ftz : Bool) (draw : Nat) (v : FVal) : Nat :=
  let y := f.round r draw v
  let y := if sat then f.sat y else y
  f.encode (if ftz then flush32 y else y)

/-! ### Exact arithmetic (R55, R60) -/

def FVal.neg (v : FVal) : FVal :=
  match v with
  | .nan => .nan
  | .inf s => .inf (!s)
  | .fin s m e => .fin (!s) m e

def FVal.mul (a b : FVal) : FVal :=
  match a, b with
  | .nan, _ => .nan
  | _, .nan => .nan
  | .inf s, .inf t => .inf (s != t)
  | .inf s, .fin t m _ => if m = 0 then .nan else .inf (s != t)
  | .fin s m _, .inf t => if m = 0 then .nan else .inf (s != t)
  | .fin s m e, .fin t n k => .fin (s != t) (m * n) (e + k)

/-- The signed integer (−1)^s m 2^(e − q), for q ≤ e. -/
def FVal.intAt (v : FVal) (q : Int) : Int :=
  match v with
  | .fin s m e => if s then -(m * 2 ^ (e - q).toNat : Int) else (m * 2 ^ (e - q).toNat : Int)
  | _ => 0

def FVal.isNan (v : FVal) : Bool := v == .nan
def FVal.isInf (s : Bool) (v : FVal) : Bool := v == .inf s

/-- A zero of sign s. -/
def FVal.isZero (s : Bool) (v : FVal) : Bool :=
  match v with
  | .fin t m _ => m == 0 && t == s
  | _ => false

def FVal.expo (v : FVal) : Int :=
  match v with
  | .fin _ _ e => e
  | _ => 0

/-- The exact value of a signed integer times 2^q. -/
def ofIntExp (x : Int) (q : Int) : FVal := .fin (decide (x < 0)) x.natAbs q

/-- The exact sum of a list, with NaN, infinities and zero signs by R55 and R60; `rd` is rounding mode RD. -/
def fsum (l : List FVal) (rd : Bool) : FVal :=
  if l.any FVal.isNan then .nan
  else if l.any (FVal.isInf true) then (if l.any (FVal.isInf false) then .nan else .inf true)
  else if l.any (FVal.isInf false) then .inf false
  else
    let q := l.foldl (fun q v => min q v.expo) 0
    let x := (l.map fun v => v.intAt q).sum
    if x = 0 then (if l.all (FVal.isZero true) then .fin true 0 0 else if l.all (FVal.isZero false) then .fin false 0 0 else .fin rd 0 0)
    else ofIntExp x q

/-- a < b for values that are no NaN; `zs` orders −0 below +0 (R219). -/
def FVal.lt (zs : Bool) (a b : FVal) : Bool :=
  match a, b with
  | .nan, _ => false
  | _, .nan => false
  | .inf s, .inf t => s && !t
  | .inf s, .fin _ _ _ => s
  | .fin _ _ _, .inf t => !t
  | .fin s m e, .fin t n k =>
      if m = 0 ∧ n = 0 then zs && s && !t
      else
        let q := min e k
        decide ((FVal.fin s m e).intAt q < (FVal.fin t n k).intAt q)

/-- a = b as numbers: −0 equals +0. -/
def FVal.eqv (a b : FVal) : Bool := !a.isNan && !b.isNan && !a.lt false b && !b.lt false a

/-! ### Integers -/

/-- Round a value to an integer under a mode, ±∞ and NaN apart. -/
def roundInt (r : Rnd) (s : Bool) (m : Nat) (e : Int) : Int :=
  let n := roundAt r s m e 0 0
  if s then -(n : Int) else n

/-! ### Random bits (R59) -/

/-- One step of a thread's generator: the new state. -/
def nextSeed (s : DWord) : DWord :=
  let s := if s = 0 then 0x9E3779B97F4A7C15 else s
  let s := s ^^^ (s <<< 13)
  let s := s ^^^ (s >>> 7)
  s ^^^ (s <<< 17)

/-- The 16 bits drawn with the state `s` just reached. -/
def drawOf (s : DWord) : Nat := s.toNat / 2 ^ 48

/-! ### MXINT8 and the elements of containers (R52, R54) -/

/-- An element format: a floating format or the MXINT8 integer grid. -/
inductive Elem where
  | fl (f : Fmt)
  | int8
  deriving DecidableEq, Repr

def Elem.width : Elem → Nat
  | .fl f => f.width
  | .int8 => 8

def Elem.decode : Elem → Nat → FVal
  | .fl f, x => f.decode (x % 2 ^ f.width)
  | .int8, x => ofIntExp (BitVec.ofNat 8 x).toInt (-6)

/-- RoundToFormat into an element, then (always, by R57, for the formats without infinity) Sat. -/
def Elem.round (el : Elem) (r : Rnd) (draw : Nat) (v : FVal) : FVal :=
  match el with
  | .fl f => f.round r draw v
  | .int8 =>
      match v with
      | .nan => .nan
      | .inf s => .fin s 127 (-6)
      | .fin s m e => .fin s (min 127 (roundAt r s m e (-6) draw)) (-6)

def Elem.sat (el : Elem) (v : FVal) : FVal :=
  match el with
  | .fl f => f.sat v
  | .int8 => v

/-- The encoding of a value on the element's grid; NaN in a format without NaN gives zero (R55). -/
def Elem.encode (el : Elem) (v : FVal) : Nat :=
  match el with
  | .fl f => f.encode v
  | .int8 =>
      match v with
      | .fin s m e => ((if s then -(scaleNat m (e + 6) : Int) else scaleNat m (e + 6)) % 256).toNat
      | _ => 0

/-- The element formats by type code; mx types name their element. -/
def tyElem (t : Ty) : Elem :=
  match t with
  | .f64 => .fl fF64
  | .f16 => .fl fF16
  | .bf16 => .fl fBF16
  | .e5m2 | .mxe5m2 => .fl fE5M2
  | .e4m3 | .mxe4m3 => .fl fE4M3
  | .e3m2 | .mxe3m2 => .fl fE3M2
  | .e2m3 | .mxe2m3 => .fl fE2M3
  | .e2m1 | .mxe2m1 => .fl fE2M1
  | .mxi8 => .int8
  | _ => .fl fF32

/-- Element `i` of width `w` in a container (R54). -/
def elemBits (x w i : Nat) : Nat := x / 2 ^ (w * i) % 2 ^ w

/-! ### The quantiser (R66) -/

/-- v · 2^k. -/
def FVal.scale (v : FVal) (k : Int) : FVal :=
  match v with
  | .fin s m e => .fin s m (e + k)
  | v => v

/-- EmaxElem (R66). -/
def Elem.emax : Elem → Int
  | .fl f => if f = fE5M2 then 15 else if f = fE4M3 then 8 else if f = fE3M2 then 4 else 2
  | .int8 => 0

/-- Floor(Log2) of the largest magnitude of a block, or none when every element is zero. -/
def blockLog (xs : List FVal) : Option Int :=
  xs.foldl (fun b v =>
    match v with
    | .fin _ m e =>
        if m = 0 then b
        else
          let k := (Nat.log2 m : Int) + e
          some (match b with | none => k | some j => max j k)
    | _ => b) none

def clampExp (e : Int) : Int := min (max e (-127)) 127

/-- The squared error of the block under scale exponent ec, as an exact value. -/
def blockErr (el : Elem) (xs : List FVal) (ec : Int) : FVal :=
  fsum (xs.map fun x =>
    let y := (el.sat (el.round .rne 0 (x.scale (-ec)))).scale ec
    let d := fsum [x, y.neg] false
    d.mul d) false

/-- The scale exponent QuantiseBlock chooses among e0 + 1, e0, e0 − 1: the first of least error. -/
def bestExp (el : Elem) (xs : List FVal) (e0 : Int) : Int :=
  let c1 := clampExp (e0 + 1)
  let c2 := clampExp e0
  let c3 := clampExp (e0 - 1)
  let r1 := blockErr el xs c1
  let r2 := blockErr el xs c2
  let r3 := blockErr el xs c3
  let b := if r2.lt false r1 then (c2, r2) else (c1, r1)
  if r3.lt false b.2 then c3 else b.1

/-- QuantiseBlock (R66): the scale code and the element codes; `draws` supplies RS's random bits. -/
def quantise (el : Elem) (r : Rnd) (draws : List Nat) (xs : List FVal) : Nat × List Nat :=
  if xs.any fun v => v.isNan || v.isInf true || v.isInf false then (0xFF, xs.map fun _ => 0)
  else
    match blockLog xs with
    | none => (0x7F, xs.map fun v => el.encode (.fin (v.isZero true) 0 0))
    | some lg =>
        let b := bestExp el xs (lg - el.emax)
        ((b + 127).toNat, (xs.zip draws).map fun p => el.encode (el.sat (el.round r p.2 (p.1.scale (-b)))))

/-! ### Ordered keys (R67, R232) -/

def Fmt.isNanBits (f : Fmt) (x : Nat) : Bool := (f.decode x).isNan

/-- KeyOf on a `w`-bit pattern; `f` is the floating format, if the type is one. -/
def keyOf (f : Option Fmt) (signed desc : Bool) (w x : Nat) : Nat :=
  let topb := 2 ^ (w - 1)
  let ones := 2 ^ w - 1
  match f with
  | some f =>
      if f.isNanBits x then ones
      else
        let x := if x = topb then 0 else x
        let k := if x < topb then x + topb else ones - x
        if desc then ones - k else k
  | none =>
      let k := if signed then x ^^^ topb else x
      if desc then ones - k else k

def keyInv (f : Option Fmt) (signed desc : Bool) (w k : Nat) : Nat :=
  let topb := 2 ^ (w - 1)
  let ones := 2 ^ w - 1
  match f with
  | some f =>
      if k = ones then f.nanBits
      else
        let k := if desc then ones - k else k
        let b := if topb ≤ k then k - topb else ones - k
        if f.isNanBits b then f.nanBits else b
  | none =>
      let k := if desc then ones - k else k
      if signed then k ^^^ topb else k

/-! ### Correctly rounded reciprocal and root (R223) -/

/-- 1 / (m · 2^e) with 160 or more quotient bits and a last bit that stands for whatever remains. -/
def recipSticky (s : Bool) (m : Nat) (e : Int) : FVal :=
  let p := Nat.log2 m + 160
  let q := 2 ^ p / m
  .fin s (2 * q + (if 2 ^ p % m = 0 then 0 else 1)) (-(p : Int) - e - 1)

/-- Integer square root by bits, from the top. -/
def isqrtAux (n : Nat) : Nat → Nat → Nat
  | 0, r => r
  | b + 1, r => isqrtAux n b (if (r + 2 ^ b) * (r + 2 ^ b) ≤ n then r + 2 ^ b else r)

def isqrt (n : Nat) : Nat := isqrtAux n (Nat.log2 n / 2 + 1) 0

/-- √(m · 2^e) with a last bit that stands for whatever remains. -/
def sqrtSticky (m : Nat) (e : Int) : FVal :=
  let k : Nat := 256 + (if e % 2 = 0 then 0 else 1)
  let n := m * 2 ^ k
  let r := isqrt n
  .fin false (2 * r + (if r * r = n then 0 else 1)) ((e - k) / 2 - 1)

/-! ### Approximated functions (R223, R224)

The exact result in fixed point, to an error far below Table 12.4's bound; the stepping's choice among the values within
the bound is Config's. -/

/-- Fraction bits of the fixed-point work. -/
def fxB : Nat := 200

/-- ln 2 and π to 200 fraction bits. -/
def fxLn2 : Nat := 0xB17217F7D1CF79ABC9E3B39803F2F6AF40F343267298B62D8A
def fxPi : Nat := 0x3243F6A8885A308D313198A2E03707344A4093822299F31D008

/-- Σ_{k ≤ n} x^k / k! for a fixed-point x, from the innermost term outwards. -/
def fxExp (x : Nat) : Nat → Nat
  | 0 => 2 ^ fxB
  | n + 1 => fxExpAux x (n + 1) (2 ^ fxB)
where
  fxExpAux (x : Nat) : Nat → Nat → Nat
    | 0, acc => acc
    | k + 1, acc => fxExpAux x k (2 ^ fxB + x * acc / 2 ^ fxB / (k + 1))

/-- log2 of a fixed-point x in [1, 2), `n` fraction bits, by squaring. -/
def fxLog (x : Nat) : Nat → Nat
  | 0 => 0
  | n + 1 =>
      let y := x * x / 2 ^ fxB
      if 2 ^ (fxB + 1) ≤ y then 2 ^ n + fxLog (y / 2) n else fxLog y n

/-- Σ (−1)^k x^(2k + j) / (2k + j)! for fixed-point x: sine for j = 1, cosine for j = 0, from the innermost term. -/
def fxTrig (x2 : Int) (j : Nat) : Nat → Int → Int
  | 0, acc => acc
  | k + 1, acc => fxTrig x2 j k (2 ^ fxB - x2 * acc / 2 ^ fxB / ((2 * k + 1 + j) * (2 * k + 2 + j) : Int))

/-- Fixed-point of an exact value. -/
def FVal.fx (v : FVal) : Int :=
  match v with
  | .fin s m e => if s then -(scaleNat m (e + fxB) : Int) else scaleNat m (e + fxB)
  | _ => 0

/-- A fixed-point number as an exact value. -/
def ofFx (x : Int) : FVal := ofIntExp x (-(fxB : Int))

/-- One ulp of R223 for an FP32 result of magnitude 2^E. -/
def ulpExp (m : Nat) (e : Int) : Int := max ((Nat.log2 m : Int) + e) (-126) - 23

/-- An FP32 pattern as a rank in numeric order, and back. -/
def f32Rank (b : Nat) : Int := if b < 2 ^ 31 then b else -((b - 2 ^ 31 : Nat) : Int)
def ofF32Rank (r : Int) : Nat := if 0 ≤ r then r.toNat else 2 ^ 31 + (-r).toNat

/-- The stepping's FP32 value between two exact limits (R224); a zero has the sign it chooses, but for fexp2 (number 3), which is
never negative. Where no FP32 value lies between them, which is so for a result of fexp2 beyond MaxFinite, the rules state no
result: any value that is not negative (DESIGN CHOICE, assumption 16). -/
def pickBetween (fn x : Nat) (lo hi : FVal) : Nat :=
  let a := f32Rank (fF32.encode (fF32.round .ru 0 lo))
  let b := f32Rank (fF32.encode (fF32.round .rd 0 hi))
  if b < a then Config.approx fn x % 0x7F800002
  else
    match a + (Config.approx fn x : Int) % (b - a + 1) with
    | .ofNat 0 => if fn = 3 then 0 else 2 ^ 31 * (Config.approx (fn + 8) x % 2)
    | r => ofF32Rank r

/-- lo and hi within the bound `d`·2^k of an exact value; the enclosure's own error, below 2^(k - 100), is taken off, so
that no value between them lies outside the bound (DESIGN CHOICE, assumption 16). -/
def around (v : FVal) (d : Nat) (k : Int) : FVal × FVal :=
  (fsum [v, .fin true d k, .fin false 1 (k - 100)] false, fsum [v, .fin false d k, .fin true 1 (k - 100)] false)

def clampUnit (v : FVal) : FVal :=
  if (FVal.fin false 1 0).lt false v then .fin false 1 0 else if v.lt false (.fin true 1 0) then .fin true 1 0 else v

/-- Which function (R223). -/
inductive TFn where
  | rcp | rsq | sqrt | exp2 | log2 | sin | cos
  deriving DecidableEq, Repr

def TFn.no : TFn → Nat
  | .rcp => 0 | .rsq => 1 | .sqrt => 2 | .exp2 => 3 | .log2 => 4 | .sin => 5 | .cos => 6

/-- Is m·2^e a power of two, and which? -/
def powTwo? (m : Nat) (e : Int) : Option Int := if m = 2 ^ Nat.log2 m then some ((Nat.log2 m : Int) + e) else none

/-- Is m·2^e an integer, and which? -/
def natVal? (m : Nat) (e : Int) : Option Nat :=
  if 0 ≤ e then some (m * 2 ^ e.toNat) else if m % 2 ^ (-e).toNat = 0 then some (m / 2 ^ (-e).toNat) else none

/-- sin or cos of a fixed-point angle. -/
def fxSinCos (cos : Bool) (x : Int) : Int :=
  let twoPi : Int := 2 * fxPi
  let r := x - twoPi * ((x + fxPi) / twoPi)
  let x2 := r * r / 2 ^ fxB
  if cos then fxTrig x2 0 40 (2 ^ fxB) else r * fxTrig x2 1 40 (2 ^ fxB) / 2 ^ fxB

/-- The value of an approximated or correctly rounded function on a finite non-zero input: the exact value to round
(.inl), or the FP32 pattern chosen within the bound (.inr). `key` names type, .ftz and input bits (R224). -/
def tfnFin (f : TFn) (key : Nat) (s : Bool) (m : Nat) (e : Int) : FVal ⊕ Nat :=
  match f with
  | .rcp => .inl (recipSticky s m e)
  | .sqrt => .inl (if s then .nan else sqrtSticky m e)
  | .rsq =>
      if s then .inl .nan
      else
        match sqrtSticky m e with
        | .fin _ n k =>
            let y := recipSticky false n k
            (match y with
              | .fin _ a b => let r := around y 1 (ulpExp a b); .inr (pickBetween f.no key r.1 r.2)
              | _ => .inl .nan)
        | _ => .inl .nan
  | .exp2 =>
      match natVal? m e with
      | some n => .inl (.fin false 1 (if s then -(min n 2000 : Nat) else (min n 2000 : Nat)))
      | none =>
          let x := (FVal.fin s m e).fx
          let k := x / 2 ^ fxB
          let k := if 2000 < k then 2000 else if k < -2000 then -2000 else k
          let fr := (x % 2 ^ fxB).toNat
          let y := fxExp (fr * fxLn2 / 2 ^ fxB) 60
          let v := (ofFx y).scale k
          (match v with
            | .fin _ a b =>
                let r := around v 2 (ulpExp a b)
                .inr (pickBetween f.no key (if r.1.lt false (.fin false 0 0) then .fin false 0 0 else r.1) r.2)
            | _ => .inl .nan)
  | .log2 =>
      if s then .inl .nan
      else
        match powTwo? m e with
        | some k => .inl (ofIntExp k 0)
        | none =>
            let lg := Nat.log2 m
            let y : Int := ((lg : Int) + e) * 2 ^ fxB + (fxLog (scaleNat m (fxB - (lg : Int))) 150 * 2 ^ 50 : Nat)
            let v := ofFx y
            let near := !(magLt m e 1 (-1)) && !(magLt 2 0 m e)
            (match v with
              | .fin _ a b =>
                  let r := if near then around v 1 (-22) else around v 2 (ulpExp a b)
                  .inr (pickBetween f.no key r.1 r.2)
              | _ => .inl .nan)
  | .sin | .cos =>
      if magLt (2 ^ 15) 0 m e then .inr (pickBetween f.no key (.fin true 1 0) (.fin false 1 0))
      else
        let v := ofFx (fxSinCos (f == .cos) (FVal.fin s m e).fx)
        let r := around v 1 (-21)
        .inr (pickBetween f.no key (clampUnit r.1) (clampUnit r.2))

/-- Table 12.3 and NaN: the listed result of a special input. -/
def tfnSpecial (f : TFn) (v : FVal) : FVal :=
  match f, v with
  | _, .nan => .nan
  | .rcp, .inf s => .fin s 0 0
  | .rcp, .fin s _ _ => .inf s
  | .rsq, .inf s => if s then .nan else .fin false 0 0
  | .rsq, .fin s _ _ => .inf s
  | .sqrt, .inf s => if s then .nan else .inf false
  | .sqrt, .fin s _ _ => .fin s 0 0
  | .exp2, .inf s => if s then .fin false 0 0 else .inf false
  | .exp2, .fin _ _ _ => .fin false 1 0
  | .log2, .inf s => if s then .nan else .inf false
  | .log2, .fin _ _ _ => .inf true
  | .sin, .inf _ => .nan
  | .sin, .fin s _ _ => .fin s 0 0
  | .cos, .inf _ => .nan
  | .cos, .fin _ _ _ => .fin false 1 0

/-- R223 on one element of format `f`: the encoded result. -/
def tfn (fn : TFn) (f : Fmt) (r : Rnd) (sat ftz : Bool) (x : Nat) : Nat :=
  let v := f.decode x
  let v := if ftz then flush32 v else v
  let key := x + 2 ^ 40 * (f.mb + 64 * ftz.toNat)
  match v with
  | .fin s m e =>
      if m = 0 then f.out r sat ftz 0 (tfnSpecial fn v)
      else
        match tfnFin fn key s m e with
        | .inl y => f.out r sat ftz 0 y
        | .inr b => f.out .rne sat ftz 0 (fF32.decode b)
  | v => f.out r sat ftz 0 (tfnSpecial fn v)

end Sys2Proof.Machine
end

