-- ==== Sys2Proof/Machine/Float.lean ====
section
/-! DEFINITION. Floating-point instructions (R215 to R226). -/

namespace Sys2Proof.Machine

/-! ### Operands (R181, R216) -/

/-- The FP64 patterns of the named constants. -/
def namedF64 (i : BitVec 3) : Nat :=
  match i.toNat with
  | 0 => 0x3FE0000000000000 | 1 => 0xBFE0000000000000 | 2 => 0x3FD0000000000000 | 3 => 0xBFD0000000000000
  | 4 => 0x3FC45F306DC9C883 | 5 => 0x400921FB54442D18 | 6 => 0x3FE62E42FEFA39EF | _ => 0x3FF71547652B82FE

/-- An inline integer as a floating-point pattern: its value exactly. -/
def inlFp (f : Fmt) (i : BitVec 6) : Nat := f.encode (f.round .rne 0 (ofIntExp i.toInt 0))

/-- A named constant rounded to a format. -/
def namedFp (f : Fmt) (i : BitVec 3) : Nat := f.encode (f.round .rne 0 (fF64.decode (namedF64 i)))

/-- An .f32 operand's pattern. -/
def Work.fop32 (w : Work) (l : Nat) (o : Opnd) : Nat :=
  match o with
  | .inl i => inlFp fF32 i
  | o => (w.op32 l o).toNat

/-- A packed pair's container. -/
def Work.fopPair (w : Work) (f : Fmt) (l : Nat) (o : Opnd) : Nat :=
  match o with
  | .inl i => inlFp f i * (1 + 2 ^ 16)
  | .named i => namedFp f i * (1 + 2 ^ 16)
  | o => (w.op32 l o).toNat

/-- An FP64 operand's pattern. -/
def Work.fop64 (w : Work) (l : Nat) (o : Opnd) : Nat :=
  match o with
  | .inl i => inlFp fF64 i
  | .named i => namedF64 i
  | .lit x => fF64.encode (fF32.decode x.toNat)
  | o => (w.op64 l o).toNat

/-- The format of an FP code. -/
def fpFmt (t : FpTy) : Fmt :=
  match t with
  | .f32 => fF32 | .f16 => fF16 | .bf16 => fBF16

/-- The container of an FP-code operand. -/
def Work.fop (w : Work) (t : FpTy) (l : Nat) (o : Opnd) : Nat :=
  match t with
  | .f32 => w.fop32 l o
  | t => w.fopPair (fpFmt t) l o

/-- An element's exact value, flushed when .ftz applies (R217). -/
def dec (f : Fmt) (ftz : Bool) (x : Nat) : FVal := if ftz then flush32 (f.decode x) else f.decode x

/-! ### Random draws (R59) -/

/-- `n` draws from a generator state: the draws, and the state after them. -/
def draws (s : DWord) : Nat → List Nat × DWord
  | 0 => ([], s)
  | n + 1 => let s' := nextSeed s; let r := draws s' n; (drawOf s' :: r.1, r.2)

/-- The draws of a lane for an instruction that rounds `n` elements under `r`. -/
def Work.drawsOf (w : Work) (r : Rnd) (n l : Nat) : List Nat :=
  if r = .rs then (draws (w.g.thread l).seed n).1 else List.replicate n 0

/-- The generators of the executing lanes have moved on by `n` draws under RS. -/
def Work.drew (w : Work) (r : Rnd) (n : Nat) (x : List Nat) : Work :=
  if r = .rs then
    w.updG fun g => x.foldl (fun g l => g.updThread l fun t => { t with seed := (draws t.seed n).2 }) g
  else w

/-! ### Short-class arithmetic -/

/-- The results of a pair from its two elements. -/
def pairOf (f : Nat → Nat) : Nat := f 0 + 2 ^ 16 * f 1

def nth (l : List Nat) (i : Nat) : Nat := l.getD i 0

/-- The container that an FP-code operation writes: `e` maps the elements' patterns and a draw to the result pattern. -/
def perElem (t : FpTy) (ds : List Nat) (a b c : Nat) (e : Nat → Nat → Nat → Nat → Nat) : Nat :=
  match t with
  | .f32 => e a b c (nth ds 0)
  | _ => pairOf fun i => e (elemBits a 16 i) (elemBits b 16 i) (elemBits c 16 i) (nth ds i)

def elems (t : FpTy) : Nat := if t = .f32 then 1 else 2

def fpSrc (o : FpOp) (n : Nat) : List Named :=
  o.a.names 1 ++ (if 2 ≤ n then o.b.names 1 else []) ++ (if 3 ≤ n then o.c.names 1 else [])

/-- R218: an exact result of the decoded elements, one rounding, .sat, .ftz. -/
def fpOp (s : State) (h : Hdr) (o : FpOp) (n : Nat) (r : FVal → FVal → FVal → FVal) : Host.Outcome State Fault Refusal :=
  let f := fpFmt o.ty
  issue s h (fpSrc o n) (o.d.names 1) fun w x =>
    .ok ((w.drew o.rnd (elems o.ty) x).writeDst x o.d false true fun l =>
      BitVec.ofNat 64 (perElem o.ty (w.drawsOf o.rnd (elems o.ty) l) (w.fop o.ty l o.a) (w.fop o.ty l o.b)
        (w.fop o.ty l o.c) fun a b c d => f.out o.rnd o.sat o.ftz d (r (dec f o.ftz a) (dec f o.ftz b) (dec f o.ftz c)))) []

def isRd (r : Rnd) : Bool := r == .rd

def execFadd (h : Hdr) (o : FpOp) (s : State) := fpOp s h o 2 fun a b _ => fsum [a, b] (isRd o.rnd)
def execFsub (h : Hdr) (o : FpOp) (s : State) := fpOp s h o 2 fun a b _ => fsum [a, b.neg] (isRd o.rnd)
def execFmul (h : Hdr) (o : FpOp) (s : State) := fpOp s h o 2 fun a b _ => a.mul b
def execFma (h : Hdr) (o : FpOp) (s : State) := fpOp s h o 3 fun a b c => fsum [a.mul b, c] (isRd o.rnd)

/-- A short-class instruction that maps elements' patterns to a pattern without rounding. -/
def fpMap (s : State) (h : Hdr) (o : FpOp) (n : Nat) (e : Nat → Nat → Nat) : Host.Outcome State Fault Refusal :=
  issue s h (fpSrc o n) (o.d.names 1) fun w x =>
    .ok (w.writeDst x o.d false true fun l =>
      BitVec.ofNat 64 (perElem o.ty [] (w.fop o.ty l o.a) (w.fop o.ty l o.b) 0 fun a b _ _ => e a b)) []

/-- fmin and fmax (R219) on patterns; `mx` is fmax. -/
def minMax (f : Fmt) (ftz mx : Bool) (a b : Nat) : Nat :=
  let va := dec f ftz a
  let vb := dec f ftz b
  let pa := if ftz then f.encode va else a
  let pb := if ftz then f.encode vb else b
  if va.isNan then (if vb.isNan then f.nanBits else pb)
  else if vb.isNan then pa
  else if mx then (if va.lt true vb then pb else pa)
  else if vb.lt true va then pb else pa

def execFmin (h : Hdr) (o : FpOp) (s : State) := fpMap s h o 2 (minMax (fpFmt o.ty) o.ftz false)
def execFmax (h : Hdr) (o : FpOp) (s : State) := fpMap s h o 2 (minMax (fpFmt o.ty) o.ftz true)

/-- frnd (R220) on a value: integral, keeping the sign of zero. -/
def rndIntegral (r : Rnd) (v : FVal) : FVal :=
  match v with
  | .fin s m e => .fin s (roundAt r s m e 0 0) 0
  | v => v

def execFrnd (h : Hdr) (o : FpOp) (s : State) :=
  let f := fpFmt o.ty
  fpMap s h o 1 fun a _ => f.out .rne false o.ftz 0 (rndIntegral o.rnd (dec f o.ftz a))

/-- The class bit of an element (R222). -/
def classBit (f : Fmt) (x : Nat) : Nat :=
  match f.decode x with
  | .nan => 8
  | .inf s => if s then 0 else 7
  | .fin s m _ =>
      if m = 0 then (if s then 3 else 4)
      else if x / 2 ^ f.mb % 2 ^ f.eb = 0 then (if s then 2 else 5)
      else if s then 1 else 6

def execFclass (h : Hdr) (o : FpOp) (s : State) := fpMap s h o 1 fun a _ => 2 ^ classBit (fpFmt o.ty) a

/-- The conditions of Table 12.2. -/
def fcond (c : FCond) (a b : FVal) : Bool :=
  let un := a.isNan || b.isNan
  match c with
  | .eq => a.eqv b
  | .ne => !a.eqv b
  | .lt => a.lt false b
  | .le => !un && !b.lt false a
  | .gt => b.lt false a
  | .ge => !un && !a.lt false b
  | .un => un
  | .ord => !un

/-- fcmp (R221): element 0 to P(d), element 1 to P(d + 1). -/
def execFcmp (h : Hdr) (o : FcmpOp) (s : State) : Host.Outcome State Fault Refusal :=
  let f := fpFmt o.ty
  issue s h (o.a.names 1 ++ o.b.names 1) [] fun w x =>
    let c := fun (i l : Nat) =>
      fcond o.cond (dec f o.ftz (if o.ty = .f32 then w.fop o.ty l o.a else elemBits (w.fop o.ty l o.a) 16 i))
        (dec f o.ftz (if o.ty = .f32 then w.fop o.ty l o.b else elemBits (w.fop o.ty l o.b) 16 i))
    let w0 := w.writePred x o.pd (c 0)
    .ok (if o.ty = .f32 then w0 else w0.writePred x (o.pd + 1) (c 1)) []

/-- dot2 (R225): the packed elements exact, only c flushed, one rounding into FP32. -/
def execDot2 (h : Hdr) (o : FpOp) (s : State) : Host.Outcome State Fault Refusal :=
  let f := fpFmt o.ty
  issue s h (fpSrc o 3) (o.d.names 1) fun w x =>
    .ok ((w.drew o.rnd 1 x).writeDst x o.d false true fun l =>
      let a := w.fopPair f l o.a
      let b := w.fopPair f l o.b
      let p := fun i => (f.decode (elemBits a 16 i)).mul (f.decode (elemBits b 16 i))
      BitVec.ofNat 64 (fF32.out o.rnd o.sat o.ftz (nth (w.drawsOf o.rnd 1 l) 0)
        (fsum [p 0, p 1, dec fF32 o.ftz (w.fop32 l o.c)] (isRd o.rnd)))) []

/-- pfma (R225): `r` gives the exact results of element 0 and 1 from the six elements. -/
def pairOp (s : State) (h : Hdr) (o : FpOp) (r : Nat → (Nat → FVal) → (Nat → FVal) → (Nat → FVal) → FVal) :
    Host.Outcome State Fault Refusal :=
  let f := fpFmt o.ty
  issue s h (fpSrc o 3) (o.d.names 1) fun w x =>
    .ok ((w.drew o.rnd 2 x).writeDst x o.d false true fun l =>
      let el := fun (p : Nat) (i : Nat) => f.decode (elemBits p 16 i)
      BitVec.ofNat 64 (pairOf fun i =>
        f.out o.rnd o.sat false (nth (w.drawsOf o.rnd 2 l) i)
          (r i (el (w.fopPair f l o.a)) (el (w.fopPair f l o.b)) (el (w.fopPair f l o.c))))) []

def execPfma (h : Hdr) (o : FpOp) (s : State) :=
  pairOp s h o fun i a b c => fsum [(a i).mul (b i), c i] (isRd o.rnd)

def execPfmaCx (h : Hdr) (o : FpOp) (s : State) :=
  pairOp s h o fun i a b c =>
    if i = 0 then fsum [(a 0).mul (b 0), ((a 1).mul (b 1)).neg, c 0] (isRd o.rnd)
    else fsum [(a 0).mul (b 1), (a 1).mul (b 0), c 1] (isRd o.rnd)

/-- FP64 (R226). -/
def f64Op (s : State) (h : Hdr) (o : FpOp) (n : Nat) (r : FVal → FVal → FVal → FVal) : Host.Outcome State Fault Refusal :=
  issue s h (o.a.names 2 ++ (if 2 ≤ n then o.b.names 2 else []) ++ (if 3 ≤ n then o.c.names 2 else [])) (o.d.names 2)
    fun w x =>
      .ok (w.writeDst x o.d true true fun l =>
        BitVec.ofNat 64 (fF64.out o.rnd o.sat false 0 (r (fF64.decode (w.fop64 l o.a)) (fF64.decode (w.fop64 l o.b))
          (fF64.decode (w.fop64 l o.c))))) []

def execDadd (h : Hdr) (o : FpOp) (s : State) := f64Op s h o 2 fun a b _ => fsum [a, b] (isRd o.rnd)
def execDmul (h : Hdr) (o : FpOp) (s : State) := f64Op s h o 2 fun a b _ => a.mul b
def execDfma (h : Hdr) (o : FpOp) (s : State) := f64Op s h o 3 fun a b c => fsum [a.mul b, c] (isRd o.rnd)

/-! ### Long-latency functions (R223) -/

/-- The result is computed at issue and lands under the lookahead rule (R177). -/
def tfnOp (s : State) (h : Hdr) (o : FpOp) (fn : TFn) : Host.Outcome State Fault Refusal :=
  let f := fpFmt o.ty
  issue s h (o.a.names 1) (o.d.names 1) fun w x =>
    .ok (w.owe h x o.d 1 fun l =>
      .ready (readyWords o.d false (BitVec.ofNat 64
        (perElem o.ty [] (w.fop o.ty l o.a) 0 0 fun a _ _ _ => tfn fn f o.rnd o.sat o.ftz a)))) []

def execFrcp (h : Hdr) (o : FpOp) (s : State) := tfnOp s h o .rcp
def execFrsq (h : Hdr) (o : FpOp) (s : State) := tfnOp s h o .rsq
def execFsqrt (h : Hdr) (o : FpOp) (s : State) := tfnOp s h o .sqrt
def execFexp2 (h : Hdr) (o : FpOp) (s : State) := tfnOp s h o .exp2
def execFlog2 (h : Hdr) (o : FpOp) (s : State) := tfnOp s h o .log2
def execFsin (h : Hdr) (o : FpOp) (s : State) := tfnOp s h o .sin
def execFcos (h : Hdr) (o : FpOp) (s : State) := tfnOp s h o .cos

/-! ### Quad differences (R236) -/

/-- The lanes whose values a lane's difference takes: (minuend, subtrahend). -/
def qdLanes (y coarse : Bool) (l : Nat) : Nat × Nat :=
  let q := l / 4 * 4
  let i := l % 4
  match y, coarse with
  | false, false => if i < 2 then (q + 1, q) else (q + 3, q + 2)
  | true, false => if i % 2 = 0 then (q + 2, q) else (q + 3, q + 1)
  | false, true => (q + 1, q)
  | true, true => (q + 2, q)

/-- qdx and qdy: where a source lane does not execute, the result is a free value. -/
def qdOp (s : State) (h : Hdr) (o : QdOp) (y : Bool) : Host.Outcome State Fault Refusal :=
  issue s h (o.a.names 1) (o.d.names 1) fun w x =>
    let w1 := w.updDev fun d => { d with free := d.free + 1 }
    .ok (w1.writeDst x o.d false true fun l =>
      let p := qdLanes y o.coarse l
      if x.contains p.1 && x.contains p.2 then
        BitVec.ofNat 64 (fF32.out o.rnd false o.ftz 0
          (fsum [dec fF32 o.ftz (w.fop32 p.1 o.a), (dec fF32 o.ftz (w.fop32 p.2 o.a)).neg] (isRd o.rnd)))
      else (Config.freeWord (64 * w.d.free + l)).zeroExtend 64) []

def execQdx (h : Hdr) (o : QdOp) (s : State) := qdOp s h o false
def execQdy (h : Hdr) (o : QdOp) (s : State) := qdOp s h o true

end Sys2Proof.Machine
end

