-- ==== Sys2Proof/Machine/Memory.lean ====
section
/-! DEFINITION. Loads, stores, prefetches, atomics and reductions (R237 to R246), and the device steps with which they
perform (R86 to R98). -/

namespace Sys2Proof.Machine

/-! ### Effective addresses and checks (R72, R237) -/

/-- The effective address of a lane, exactly. -/
def Work.ea (w : Work) (o : MemOp) (useOff : Bool) (l : Nat) : Int :=
  let off : Nat := if useOff then (w.op32 l o.off).toNat else 0
  match o.space with
  | .s => ((w.op32 l o.base).toNat : Int) + off + o.disp.toInt
  | _ => ((((w.op64 l o.base).toNat + off : Nat) : Int) + o.disp.toInt) % 2 ^ 64

/-- Where an access falls. -/
inductive Place where
  | glob (leaf : Leaf)
  | spad (key : Nat)
  /-- The 4-byte words of a local access (R341). -/
  | loc (words : List Leaf)

/-- A failed check: its place in the order of R72, cause, and ADDR (R237). -/
structure Fail where
  rank : Nat
  cause : Nat
  addr : Nat
  deriving DecidableEq, Repr

/-- A 57-bit two's-complement offset. -/
def ofs57 (x : Int) : Nat := (x % 2 ^ 57).toNat

/-- The virtual address of byte `o` of a thread's local space (R341). -/
def Work.localVa (w : Work) (l o : Nat) : Nat :=
  (w.d.die w.dieNo).locBase.toNat % 2 ^ 57 / 2 ^ 21 * 2 ^ 21 + 2 ^ 21 * (w.slot % 8192) + (o / 4 * 32 + l) * 4 + o % 4

/-- Translate the words of a local access. -/
def Work.localKeys (w : Work) (l : Nat) (kind : XKind) : List Nat → Except Fail (List Leaf)
  | [] => .ok []
  | o :: t =>
      let va := w.localVa l o % 2 ^ 57
      match w.translate w.dieNo va kind true with
      | .error c => .error { rank := 6, cause := c, addr := va }
      | .ok lf => (w.localKeys l kind t).map fun ks => lf :: ks

/-- The checks of one lane (R72). -/
def Work.place (w : Work) (sp : Space) (ea : Int) (n : Nat) (kind : XKind) (l : Nat) : Except Fail Place :=
  if ea % n != 0 then .error { rank := 2, cause := cMISALIGN, addr := ofs57 ea }
  else
    match sp with
    | .s =>
        if ea < 0 ∨ 1024 * (w.blk.spad : Int) < ea + n then .error { rank := 4, cause := cSPAD_RANGE, addr := ofs57 ea }
        else .ok (.spad (spadKey w.g.blk ea.toNat))
    | .l =>
        if 1024 * (w.blk.localKb : Int) < ea + n then .error { rank := 5, cause := cLOCAL_RANGE, addr := ofs57 ea }
        else (w.localKeys l kind ((List.range ((n + 3) / 4)).map fun i => ea.toNat + 4 * i)).map .loc
    | _ =>
        if 2 ^ 57 ≤ ea then .error { rank := 3, cause := cADDR_RANGE, addr := ofs57 ea }
        else
          match w.translate w.dieNo ea.toNat kind (!w.blk.priv) with
          | .error c => .error { rank := 6, cause := c, addr := ea.toNat }
          | .ok lf => .ok (.glob lf)

def placeKey : Place → Nat
  | .glob lf => lf.pa
  | .spad k => k
  | .loc ws => (ws.head?.map Leaf.pa).getD 0

/-- The first failing check: of the lowest rank, then of the lowest lane (R237). -/
def firstFail (l : List (Except Fail Place)) : Option Fail :=
  l.foldl (fun b p =>
    match p, b with
    | .error f, none => some f
    | .error f, some g => if f.rank < g.rank then some f else some g
    | .ok _, b => b) none

/-- The places of the lanes `x`, or the fault. -/
def Work.places (w : Work) (o : MemOp) (useOff : Bool) (kind : XKind) (x : List Nat) : Except Fail (List (Nat × Place)) :=
  let ps := x.map fun l => (l, w.place o.space (w.ea o useOff l) o.ty.bytes kind l)
  match firstFail (ps.map (·.2)) with
  | some f => .error f
  | none => .ok (ps.filterMap fun p => match p.2 with | .ok q => some (p.1, q) | .error _ => none)

def Work.notHelper (w : Work) (x : List Nat) : List Nat := x.filter fun l => !(w.g.thread l).helper

/-- Registers a memory operand and a source name. -/
def memSrc (o : MemOp) (useOff : Bool) : List Named :=
  o.base.names (if o.space = .s then 1 else 2) ++ (if useOff then o.off.names 1 else [])

def memDst (o : MemOp) : List Named := o.d.names (regCount o.ty.bytes)

/-! ### Barrier objects that are in use (R256) -/

def isBo : Instr → Bool
  | .boArrive _ _ _ | .boArriveOnce _ _ _ | .boArriveExpect _ _ _ _ | .boArriveOnceExpect _ _ _ _ | .boWait _ _ _ => true
  | _ => false

/-- The offset of the object on which a thread waits, in a bo instruction. -/
def Thread.waitsBo (t : Thread) (l : Nat) : Option Nat :=
  match t.st, t.wait with
  | .waiting, some wt =>
      (match decode true wt.word, wt.why with
        | .ok i, .cont args => if isBo i then (args.find? fun p => p.1 == l).bind fun p => p.2.head? else none
        | _, _ => none)
  | _, _ => none

/-- Offsets of a block's objects for which a bo instruction, or a copy that names the object, is outstanding. -/
def Work.busyObjs (w : Work) (blk : Nat) : List Nat :=
  (w.d.ops.filterMap fun e => if e.blk = blk then e.bo else none) ++
    (w.d.groups.filter fun e => e.2.blk == blk).flatMap fun e => (List.range 32).filterMap fun l => (e.2.thread l).waitsBo l

/-- An object's content is undefined: any content that software could have put there (R7). -/
def Work.freeObj (w : Work) (k : Nat) : Work :=
  let n := w.d.free
  (w.updDev fun d => { d with free := n + 16 }).spadStore k 16 (bytesNat ((List.range 16).map fun i => Config.freeByte (n + i)))

/-- st.s, atom.s or a copy writes scratchpad: objects in use there become undefined (R256). -/
def Work.spadWrite (w : Work) (k n x : Nat) : Work :=
  let blk := (k - 2 ^ 57) / 2 ^ 19
  (((w.busyObjs blk).eraseDups.filter fun o => overlap o 16 (k % 2 ^ 19) n).map (spadKey blk)).foldl Work.freeObj (w.spadStore k n x)

/-! ### Order within a thread (R95, R97) -/

def WKind.isRed : WKind → Bool
  | .red _ _ => true
  | .store | .atomic _ | .cas _ => false

/-- A ring operation of the lane on the object of an address is still to apply, older than `id` (R95, R111). -/
def Work.ringBefore (w : Work) (slot l pa id : Nat) : Bool :=
  w.d.dies.any fun e => e.2.ringQ.any fun o =>
    o.slot == some slot && o.obj == objOf pa && decide (o.ins < id) && (o.lanes.isEmpty || o.lanes.any fun r => r.lane == l)

/-- A load of one of the lanes, older than `id`, is still to read some of the bytes. -/
def Work.loadBefore (w : Work) (slot : Nat) (ls : List Nat) (id : Nat) (bytes : List (Nat × Nat)) : Bool :=
  ((w.grp? slot).getD Group.gone).owed.any fun o =>
    match o.pay with
    | .load q => ls.contains q.lane && decide (o.id < id) && bytes.any fun b => q.meets b.1 b.2
    | _ => false

/-- An older access of the load's thread to the same bytes must perform first (R95): a load, an atomic, a ring operation. -/
def Work.olderSame (w : Work) (slot id : Nat) (p : LoadP) : Bool :=
  w.loadBefore slot [p.lane] id p.pieces ||
    ((w.d.core (slotCore slot)).path.any fun e =>
      e.slot == slot && e.lane == p.lane && decide (e.id < id) && p.meets e.pa e.n && !e.kind.isRed && e.kind != .store) ||
    p.pieces.any fun q => w.ringBefore slot p.lane q.1 id

/-- A write that its home is to make, of a core's write path, performs behind what comes before it: accesses of its thread to its
bytes (R95), the older entries of the core that meet it (R98), and those passed (R97). A reduction awaits only entries of its
thread, and those that a fence or acquire of its group puts before it (R103, R109). -/
def Work.wayClear (w : Work) (core k : Nat) (e : WEntry) : Bool :=
  let ls := e.lane :: e.also
  let older := ((w.d.core core).path.take k).any fun o =>
    overlap o.pa o.n e.pa e.n && !o.kind.isRed &&
      (!e.kind.isRed || (o.slot == e.slot && ls.contains o.lane) || w.synchronous e.slot e.iss.sync o)
  !older && !w.loadBefore e.slot ls e.id [(e.pa, e.n)] && !(ls.any fun l => w.ringBefore e.slot l e.pa e.id) &&
    !w.lateBefore [(e.pa, e.n)] true (w.agentOf e.slot) (if e.strong then some e.scope else none) e.id e.passed

/-- The same for a load. -/
def Work.loadClear (w : Work) (slot id : Nat) (p : LoadP) : Bool :=
  !w.olderSame slot id p && !w.lateBefore p.pieces false (w.agentOf slot) (if p.strong then some p.scope else none) id p.passed

/-- A strong access of scope `sc` may pass an earlier one of its thread (R99): an agent lies outside a scope of the two, and the
earlier one waits for none of its bytes, or has been passed at their narrower scope. -/
def passable (sc sy : Scope) (passed : Option (Nat × Scope)) (clear : Bool) : Bool :=
  !(sc == .sys && sy == .sys) &&
    match passed with
    | some (_, s) => decide (scopeRank (narrower sc sy) ≤ scopeRank s)
    | none => clear

/-- A strong access `id` of scope `sc`, of one of the lanes, waits for an earlier strong one (R97). -/
def Work.strongHeld (w : Work) (slot : Nat) (ls : List Nat) (id : Nat) (sc : Scope) : Bool :=
  let core := slotCore slot
  let path := (w.d.core core).path
  (((List.range path.length).zip path).any fun q =>
      q.2.slot == slot && ls.contains q.2.lane && q.2.strong && decide (q.2.id < id) &&
        !passable sc q.2.scope q.2.passed (w.wayClear core q.1 q.2)) ||
    ((w.grp? slot).getD Group.gone).owed.any fun e =>
      match e.pay with
      | .load p => ls.contains p.lane && p.strong && decide (e.id < id) && !passable sc p.scope p.passed (w.loadClear slot e.id p)
      | _ => false

/-- A strong access has performed: the earlier ones of its thread have been passed. -/
def Work.passOlder (w : Work) (slot : Nat) (ls : List Nat) (id : Nat) (sc : Scope) : Work :=
  if w.strongBefore slot ls id then
    let mark := fun (old : Option (Nat × Scope)) (sy : Scope) => old.orElse fun _ => some (w.d.tick, narrower sc sy)
    let entry := fun (e : WEntry) =>
      if e.slot = slot ∧ ls.contains e.lane ∧ e.strong ∧ e.id < id then { e with passed := mark e.passed e.scope } else e
    let owed := fun (e : Owed) =>
      match e.pay with
      | .load p =>
          if ls.contains p.lane ∧ p.strong ∧ e.id < id then { e with pay := .load { p with passed := mark p.passed p.scope } } else e
      | _ => e
    (w.updCore (slotCore slot) fun c => { c with path := c.path.map entry }).updGrp slot fun g => { g with owed := g.owed.map owed }
  else w

/-! ### Atomic arithmetic (Table 13.3) -/

def atomSigned (t : Ty) : Bool := t == .i32 || t == .i64

/-- The new value of an `n`-byte location. -/
def atomNew (op : AOp) (t : Ty) (old a : Nat) : Nat :=
  let b := 8 * t.bytes
  let v : Nat → Int := fun x => if atomSigned t then (BitVec.ofNat b x).toInt else (x : Int)
  match op, t with
  | .add, .f32 => fF32.out .rne false false 0 (fsum [fF32.decode old, fF32.decode a] false)
  | .add, .f64 => fF64.out .rne false false 0 (fsum [fF64.decode old, fF64.decode a] false)
  | .min, .f32 => minMax fF32 false false old a
  | .max, .f32 => minMax fF32 false true old a
  | .add, _ => (old + a) % 2 ^ b
  | .min, _ => if v a < v old then a else old
  | .max, _ => if v old < v a then a else old
  | .and, _ => old &&& a
  | .or, _ => old ||| a
  | .xor, _ => old ^^^ a
  | .xch, _ => a

/-- What a write-path entry writes over the old value. -/
def WEntry.new (e : WEntry) (old : Nat) : Nat :=
  match e.kind with
  | .store => e.data
  | .atomic op | .red op _ => atomNew op e.ty old e.data
  | .cas c => if old = c then e.data else old

/-! ### ld, ldv (R241, R242) -/

def extOf (t : Ty) : Ext := if t == .i8 || t == .i16 || t == .i32 then .sign else .zero

/-- A lane's load, once its place is known: its value at once for the scratchpad, where a load performs as it issues (DESIGN CHOICE,
assumption 110: R96 and R98 leave the instant open), or owed. -/
def Work.loadLane (w : Work) (o : MemOp) (ldv : Bool) (x : List Nat) (l : Nat) (p : Option Place) : Payload :=
  let n := o.ty.bytes
  let wide := Dst.isWide o.d
  let load := fun (lf : Leaf) (va : Nat) (loc : Bool) (more : List Nat) => Payload.load
    { lane := l, va := BitVec.ofNat 57 va, pa := lf.pa, n := n, loc := loc, more := more, ro := !lf.wr, ext := extOf o.ty,
      cst := o.space = .c, cached := !ldv, strong := o.strong, acq := o.ord = .acq, scope := o.scope, lease := lf.lease,
      wide := wide, instr := BitVec.ofNat 128 w.d.cur.word, lanes := maskOf x, iss := w.stamp false, passed := none }
  match p with
  | none => .ready (valWords wide n .zero 0)
  | some (.spad k) => .ready (valWords wide n (extOf o.ty) (w.load k n))
  | some (.loc []) => .ready (valWords wide n .zero 0)
  | some (.loc (lf :: t)) => load lf (w.localVa l (w.ea o true l).toNat) true (t.map Leaf.pa)
  | some (.glob lf) => load lf (w.ea o true l).toNat false []

/-- The further lanes of an access whose S or B register takes the lowest lane's value access as well (R240). -/
def Work.oweRest (w : Work) (x : List Nat) (d : Dst) (pay : Nat → Payload) : Work :=
  if Dst.isWide d then
    x.tail.foldl (fun w l =>
      let r := w.newId
      r.2.updG fun g => { g with owed := g.owed ++ [{ id := r.1, wins := [], dst := [], pay := pay l }] }) w
  else w

/-- The results newly owed, by id, of acquiring loads. -/
def Work.noteAcq (w : Work) (from_ : Nat) (on : Bool) : Work :=
  if on then w.updG fun g =>
    { g with acq := g.acq ++ (g.owed.filter fun e => decide (from_ ≤ e.id) && (match e.pay with | .load _ => true | _ => false)).map Owed.id }
  else w

/-- A strong scratchpad access of the issuing group has performed at its bank: an acquire learns, a release tells (R88, R103). -/
def Work.spadStrong (w : Work) (o : MemOp) (acq rel : Bool) (k : Nat) : Work :=
  let n := o.ty.bytes
  let a := w.strongOf w.slot k n w.g.ep o.scope
  let w := w.noteStrong false a w.g.vc
  let w := if acq then w.learn w.slot k n o.scope else w
  if rel then w.tell k n a.who o.scope a.ep w.g.vc else w

def loadOp (s : State) (h : Hdr) (o : MemOp) (ldv : Bool) : Host.Outcome State Fault Refusal :=
  issue s h (memSrc o true) (memDst o) fun w x =>
    if !w.g.acq.isEmpty then .hold
    else
      let ps := x.map fun l => (l, w.place o.space (w.ea o true l) o.ty.bytes .load l)
      match firstFail ((ps.filter fun p => !(w.g.thread p.1).helper).map (·.2)) with
      | some f => .xlate f.cause f.addr
      | none =>
          if o.space = .s ∧ o.strong ∧ w.strongBefore w.slot x w.d.nextId then .hold
          else
            let at_ := fun l => (ps.find? fun p => p.1 == l).bind fun p => p.2.toOption
            let w := w.openSync (o.ord = .acq)
            let pay := fun l => w.loadLane o ldv x l (at_ l)
            let w1 := ((w.owe h x o.d (regCount o.ty.bytes) pay).oweRest x o.d pay).noteAcq w.d.nextId (o.ord = .acq)
            let w2 := if o.space = .s ∧ o.strong then (x.filterMap at_).foldl (fun v p => v.spadStrong o (o.ord = .acq) false (placeKey p)) w1
              else w1
            .ok (if o.space = .s ∧ o.ord = .acq then w2.fenceDone w.slot o.scope else w2) []

def execLd (h : Hdr) (o : MemOp) (s : State) := loadOp s h o false
def execLdv (h : Hdr) (o : MemOp) (s : State) := loadOp s h o true

/-! ### st, atom, red (R243, R245, R246) -/

def isRel (o : Order) : Bool := o == .rel || o == .acqrel
def isAcq (o : Order) : Bool := o == .acq || o == .acqrel

/-- A new entry of the issuing core's write path; to a home on another die, in another package or the host it brings an
acknowledgement (R93), and its line's remote-die copy goes (R94). -/
def Work.pathAdd (w : Work) (e : WEntry) : Work :=
  let ack := homeOf w.d e.pa != .die w.dieNo && (match e.kind with | .red _ _ => false | _ => true)
  let w := (w.updCore w.coreNo fun c => { c with path := c.path ++ [e] }).dropLine w.coreNo e.pa
  if ack then w.updG fun g => { g with acks := g.acks + 1 } else w

/-- The entry of a lane's access, before its kind is known. -/
def Work.entry (w : Work) (o : MemOp) (useOff : Bool) (x : List Nat) (id l pa data : Nat) (kind : WKind) (owed : Option Nat) : WEntry :=
  { id := id, slot := w.slot, lane := l, also := [], pa := pa, n := o.ty.bytes, loc := false, ty := o.ty, data := data, kind := kind,
    strong := o.strong, acq := o.ord = .acq ∨ o.ord = .acqrel, scope := o.scope, owed := owed, wide := Dst.isWide o.d,
    va := BitVec.ofNat 57 (w.ea o useOff l).toNat, instr := BitVec.ofNat 128 w.d.cur.word, lanes := maskOf x
    iss := w.stamp (isRel o.ord), passed := none, readBy := [] }

/-- Where in scale-out space an address lies (R358). -/
def Work.scaleOut (w : Work) (pa : Nat) : Option (Nat × Nat) :=
  match homeOf w.d pa with
  | .out sys ofs => some (sys, ofs)
  | _ => none

/-- The words of a local store enter the write path (R98, R243), but those that are sends. -/
def Work.localStore (w : Work) (o : MemOp) (x : List Nat) (l a : Nat) (words : List Leaf) : Work :=
  (((List.range words.length).zip words).filter fun q => (w.scaleOut q.2.pa).isNone).foldl (fun v q =>
    let r := v.newId
    let n := min o.ty.bytes 4
    r.2.pathAdd { w.entry o true x r.1 l q.2.pa (a / 2 ^ (32 * q.1) % 2 ^ (8 * n)) .store none with
      n := n, loc := true, va := BitVec.ofNat 57 (w.localVa l ((w.ea o true l).toNat + 4 * q.1)) }) w

def natBytes (n x : Nat) : List Byte := (List.range n).map fun i => BitVec.ofNat 8 (x / 2 ^ (8 * i))

/-- The writes of an `n`-byte store of `a` that are sends: each word of a local store is a write of its own. -/
def Work.sendsOf (w : Work) (n a : Nat) (p : Place) : List (Nat × Nat × List Byte) :=
  let send := fun (pa : Nat) (bs : List Byte) => ((w.scaleOut pa).map fun d => (d.1, d.2, bs)).toList
  match p with
  | .spad _ => []
  | .glob lf => send lf.pa (natBytes n a)
  | .loc ws => ((List.range ws.length).zip ws).flatMap fun q => send q.2.pa (natBytes (min n 4) (a / 2 ^ (32 * q.1)))

/-- A send's writes wait for the link layer; they count as one operation of the send class (R358). -/
def Work.addSends (w : Work) (l : List (Nat × Nat × List Byte)) (fenced : Bool) : Work :=
  match l with
  | [] => w
  | _ :: _ =>
      let r := w.newId
      let w := r.2.addOp { id := r.1, cls := .send, slots := [w.slot], blk := w.g.blk, tok := none, word := 0, bo := none,
                           parts := [], left := l.length, waits := false, spr := [], spw := [], kind := .plain, raced := [] }
      let new := l.map fun s => { op := r.1, slot := w.slot, sys := s.1, ofs := s.2.1, data := s.2.2, fenced := fenced }
      w.updPkg fun k => { k with sends := k.sends ++ new }

/-- st. A store to the scratchpad performs as it issues (DESIGN CHOICE, assumption 110). -/
def execSt (h : Hdr) (o : MemOp) (s : State) : Host.Outcome State Fault Refusal :=
  let n := o.ty.bytes
  issue s h (memSrc o true ++ o.data.names (regCount n)) [] fun w x =>
    if !w.g.acq.isEmpty then .hold
    else
      match w.places o true .store (w.notHelper x) with
      | .error f => .xlate f.cause f.addr
      | .ok ps =>
          if isRel o.ord && !w.fenceOk w.slot o.scope then .hold
          else if o.space = .s ∧ o.strong ∧ w.strongBefore w.slot x w.d.nextId then .hold
          else
            let w := if isRel o.ord then w.fenceDone w.slot o.scope else w
            let sends := ps.flatMap fun p => w.sendsOf n (w.opBytes p.1 o.data n) p.2
            let w' := ps.foldl (fun v p =>
              let a := w.opBytes p.1 o.data n
              match p.2 with
              | .spad k =>
                  let v := (v.spadWrite k n a).spadDrop k n
                  if o.strong then v.spadStrong o false (isRel o.ord) k else v
              | .loc ws => v.localStore o x p.1 a ws
              | .glob lf =>
                  if (w.scaleOut lf.pa).isSome then v
                  else
                    let r := v.newId
                    r.2.pathAdd (w.entry o true x r.1 p.1 lf.pa a .store none)) w
            .ok ((w'.addSends sends (o.ord = .rel ∧ o.scope = .sys)).openSync (isRel o.ord)) []

/-- A write of the core to the line, on another die, is on its way: of its write path, a ring operation, a fragment (R94). -/
def Work.ownComing (w : Work) (core pa : Nat) : Bool :=
  let mine := fun slot => slotCore slot == core
  ((w.d.core core).path.any fun e => lineOf e.pa == lineOf pa) ||
    (w.d.dies.any fun e => e.2.ringQ.any fun o => o.remote && o.slot.any mine && lineOf o.obj == lineOf pa) ||
    w.d.ops.any fun e => e.slots.any mine && match e.kind with | .comp fs => fs.any fun f => lineOf f.pa == lineOf pa | _ => false

/-- A sector is filled into L1 (R91, R94, R244): under a lease, unless a write to the line is coming, an object of it rides
or the core holds a copy; or as a remote-die copy, unless a write of the core to the line is on its way (R95), or a passed
strong access to it. -/
def Work.fill (w : Work) (core pa lease : Nat) : Work :=
  match homeOf w.d pa with
  | .die h =>
      if h = coreDie core then
        let rides := [0, 64].any fun o => (w.d.rideOf (128 * sectorOf pa + o)).isSome
        let held := (w.d.core core).copies.any fun c =>
          !c.remote && c.sector == sectorOf pa && decide (coreCount w.d.now core < c.endRev)
        if w.writeComing pa || rides || held then w
        else
          let e := homeCount w.d.now + lease
          (w.updDie h fun d => { d with leases := sset d.leases (lineOf pa) (max e (sget d.leases (lineOf pa) 0)) }).updCore
            core fun c => { c with copies := c.copies ++ [{ sector := sectorOf pa, endRev := e, remote := false, hist := [] }] }
      else if ((w.d.core core).copies.any fun c => c.remote && c.sector == sectorOf pa) || w.ownComing core pa ||
          w.lates.any (fun y => y.bytes.any fun b => lineOf b.1 == lineOf pa) then w
      else w.updCore core fun c => { c with copies := c.copies ++
        [{ sector := sectorOf pa, endRev := coreCount w.d.now core + lease, remote := true, hist := [w.sectorNow (sectorOf pa)] }] }
  | _ => w

/-- The copies of a sector that cores of the die's other quads may read now. -/
def Work.peerCopies (w : Work) (core pa : Nat) : List L1Copy :=
  w.d.cores.flatMap fun e =>
    if coreDie e.1 = coreDie core ∧ coreQuad e.1 ≠ coreQuad core then
      e.2.copies.filter fun c => c.sector == sectorOf pa && decide (coreCount w.d.now e.1 < c.endRev)
    else []

/-- A sector of a read-only page, or of a constant load, is filled: from a peer that the device predicts, where it holds the
sector, or from home (R77). -/
def Work.fillShared (w : Work) (core pa lease : Nat) : Work :=
  let own := (w.d.core core).copies.any fun c => c.sector == sectorOf pa && decide (coreCount w.d.now core < c.endRev)
  match if own then [] else w.peerCopies core pa with
  | [] => w.fill core pa lease
  | c :: cs =>
      let f := w.fresh
      (match (c :: cs)[Config.choice f.1 % (cs.length + 2)]? with
        | none => f.2.fill core pa lease
        | some c =>
            if c.remote && (w.ownComing core pa || w.lates.any fun y => y.bytes.any fun b => lineOf b.1 == lineOf pa) then f.2
            else f.2.updCore core fun e => { e with copies := e.copies ++ [c] })

def execPf (h : Hdr) (o : MemOp) (s : State) : Host.Outcome State Fault Refusal :=
  issue s h (memSrc o true) [] fun w x =>
    .ok (x.foldl (fun v l =>
      match w.place o.space (w.ea o true l) 1 .load l with
      | .ok (.glob lf) =>
          if o.space = .c ∨ !lf.wr then v.fillShared w.coreNo lf.pa lf.lease else v.fill w.coreNo lf.pa lf.lease
      | .ok (.loc ws) => ws.foldl (fun v lf => v.fill w.coreNo lf.pa lf.lease) v
      | _ => v) w) []

/-- A value operand of an atomic or a reduction, as its type reads it (R181, R239). -/
def Work.opTyped (w : Work) (l : Nat) (o : Opnd) (t : Ty) : Nat :=
  match t with
  | .f32 => w.fop32 l o
  | .f64 => w.fop64 l o
  | t => w.opBytes l o t.bytes

/-- The owed result of a lane, among those newly owed. -/
def Work.owedOf (w : Work) (from_ l : Nat) (single : Bool) (x : List Nat) : Option Nat :=
  if single ∧ x.head? ≠ some l then none
  else (w.g.owed.find? fun e => decide (from_ ≤ e.id) && (single || e.wins.any fun p => p.1 == l)).map Owed.id

/-- atom and atom.cas: `kind l` is what lane `l` does. An S or B destination takes the value of the lowest executing lane that is no
helper, since helpers do nothing (DESIGN CHOICE, assumption 109: R30 and R240 do not settle it). A scratchpad atomic performs as it
issues (DESIGN CHOICE, assumption 110). -/
def atomOp (s : State) (h : Hdr) (o : MemOp) (useOff : Bool) (src : List Named) (kind : Work → Nat → WKind) :
    Host.Outcome State Fault Refusal :=
  let n := o.ty.bytes
  issue s h src (memDst o) fun w x =>
    if !w.g.acq.isEmpty then .hold
    else
      let x := w.notHelper x
      match w.places o useOff .rmw x with
      | .error f => .xlate f.cause f.addr
      | .ok ps =>
          if isRel o.ord && !w.fenceOk w.slot o.scope then .hold
          else if o.space = .s ∧ w.strongBefore w.slot x w.d.nextId then .hold
          else
            let w := if isRel o.ord then w.fenceDone w.slot o.scope else w.openSync (isAcq o.ord)
            let base := w.d.nextId
            let w1 := w.owe h x o.d (regCount n) fun _ => .pend
            let w2 := ps.foldl (fun v p =>
              let owed := w1.owedOf base p.1 (Dst.isWide o.d) x
              let a := w.opTyped p.1 o.data o.ty
              match p.2 with
              | .spad k =>
                  let e := w.entry o useOff x 0 p.1 k a (kind w p.1) owed
                  let old := v.load k n
                  ((v.spadWrite k n (e.new old)).spadStrong o (isAcq o.ord) (isRel o.ord) k).deliver w.slot owed
                    (valWords e.wide n (extOf o.ty) old)
              | .glob lf =>
                  let r := v.newId
                  r.2.pathAdd (w.entry o useOff x r.1 p.1 lf.pa a (kind w p.1) owed)
              | .loc _ => v) w1
            let w3 :=
              if isAcq o.ord then
                if o.space = .s then w2.fenceDone w.slot o.scope
                else w2.updG fun g =>
                  { g with acq := g.acq ++ ((w2.d.core w.coreNo).path.filter fun e => decide (base ≤ e.id)).map WEntry.id }
              else w2
            .ok (w3.openSync (isRel o.ord)) []

def execAtom (h : Hdr) (op : AOp) (o : MemOp) (s : State) : Host.Outcome State Fault Refusal :=
  atomOp s h o true (memSrc o true ++ o.data.names (regCount o.ty.bytes)) fun _ _ => .atomic op

/-- atom.cas: OFF holds the compare operand (R245). -/
def execAtomCas (h : Hdr) (o : MemOp) (s : State) : Host.Outcome State Fault Refusal :=
  let c := regCount o.ty.bytes
  atomOp s h o false (memSrc o false ++ o.data.names c ++ o.off.names c) fun w l => .cas (w.opBytes l o.off o.ty.bytes)

/-- The group combiner (R246): one value per distinct address, combined in lane order, with the lanes it came from. -/
def combine (op : AOp) (t : Ty) : List (Nat × Nat × List Nat) → List (Nat × Nat × Nat) → List (Nat × Nat × List Nat)
  | acc, [] => acc
  | acc, (ea, a, l) :: r =>
      match acc.find? fun p => p.1 == ea with
      | some _ => combine op t (acc.map fun p => if p.1 = ea then (ea, atomNew op t p.2.1 a, p.2.2 ++ [l]) else p) r
      | none => combine op t (acc ++ [(ea, a, [l])]) r

def execRed (h : Hdr) (op : AOp) (o : MemOp) (s : State) : Host.Outcome State Fault Refusal :=
  let n := o.ty.bytes
  issue s h (memSrc o true ++ o.data.names (regCount n)) [] fun w x =>
    if !w.g.acq.isEmpty then .hold
    else
      match w.places o true .rmw (w.notHelper x) with
      | .error f => .xlate f.cause f.addr
      | .ok ps =>
          let vs := combine op o.ty [] (ps.map fun p => ((w.ea o true p.1).toNat, w.opTyped p.1 o.data o.ty, p.1))
          let paOf := fun l => ((ps.find? fun p => p.1 == l).map fun p => placeKey p.2).getD 0
          let r := w.newId
          let w1 := r.2.addOp { id := r.1, cls := .gs, slots := [w.slot], blk := w.g.blk, tok := none, word := 0, bo := none,
                                parts := [], left := vs.length, waits := false, spr := [], spw := [], kind := .plain, raced := [] }
          .ok (vs.foldl (fun v p =>
            let q := v.newId
            let l := p.2.2.headD 0
            q.2.pathAdd { w.entry o true x q.1 l (paOf l) p.2.1 (.red op r.1) none with also := p.2.2.tail }) w1) []

/-! ### Performing at a home (R86, R92, R93, R95) -/

/-- Nothing that comes before an entry is still to perform. -/
def Work.inOrder (w : Work) (core k : Nat) (e : WEntry) : Bool :=
  w.wayClear core k e && !(e.strong && w.strongHeld e.slot [e.lane] e.id e.scope)

/-- May an entry of a write path perform now? -/
def Work.mayPerform (w : Work) (core k : Nat) (e : WEntry) : Bool :=
  w.inOrder core k e && w.leaseFree e.pa && w.gateNow e.pa && !(e.strong && w.mixMode e.pa && w.mixed e.pa e.n)

/-- A change of a leaf as R338 asks for: a compare-and-swap of 16 bytes at .pkg or wider. -/
def WEntry.proper (e : WEntry) : Bool :=
  e.n == 16 && (match e.kind with | .cas _ => true | _ => false) && (e.scope == .pkg || e.scope == .pod || e.scope == .sys)

/-- Where an entry performs: the old value, and the state after the write. A store of 8 bytes to a doorbell rings it;
no other access to one has an effect. -/
def Work.performAt (w : Work) (e : WEntry) : Nat × Work :=
  match homeOf w.d e.pa with
  | .doorbell q =>
      let f := w.fresh
      ((Config.freeDWord f.1).toNat % 2 ^ (8 * e.n), if e.kind = .store ∧ e.n = 8 then f.2.doorbell q e.data false else f.2)
  | _ =>
      let old := w.homeRead e.pa e.n
      let f := fun (w : Work) => w.homeWrite e.pa e.n (e.new old)
      let v := match e.kind with
        | .atomic _ | .cas _ => w.retelling fun w => if e.proper then w.properly f else f w
        | .store | .red _ _ => f w
      (old, if e.strong then
          v.noteStrong (w.isEntry (e.pa / 16 * 16)) (w.strongOf e.slot e.pa e.n e.iss.ep e.scope) e.iss.vc
        else v)

/-- An entry's place in the order, once it has performed: earlier strong accesses of its thread have been passed, its acquire
learns, its release tells (R97, R103). -/
def Work.entryOrders (w : Work) (e : WEntry) : Work :=
  let w := if e.strong then w.passOlder e.slot [e.lane] e.id e.scope else w
  let w := if e.acq then w.learn e.slot e.pa e.n e.scope else w
  if e.iss.rel then w.tell e.pa e.n (w.agentOf e.slot) e.scope e.iss.ep e.iss.vc else w

/-- An entry performs at its home: its completion revolution enters HORIZON, or its acknowledgement arrives (R93). -/
def Work.performEntry (w : Work) (core : Nat) (e : WEntry) : Work :=
  let r := (w.updCore core fun c => { c with path := c.path.filter fun o => o.id != e.id }).performAt e
  let w := (r.2.entryOrders e).unrace e.id
  let w :=
    if homeOf w.d e.pa = .die (coreDie core) then
      w.updGrp e.slot fun g => { g with horizon := max g.horizon (homeCount w.d.now) }
    else if e.kind.isRed then w
    else w.updGrp e.slot fun g => { g with acks := g.acks - 1 }
  let w := w.deliver e.slot e.owed (valWords e.wide e.n (extOf e.ty) r.1)
  let w := match e.kind with
    | .red _ id => w.updOp id fun o => { o with left := o.left - 1 }
    | _ => w
  if e.acq then w.acquired e.slot e.id e.scope else w

/-! ### Racing byte-masked writes (R89)

A read that races writes takes each byte from before them or from one of them. A weak load, and an engine, leave them to perform
later: what the group, or the operation, does next waits for them. A read of another kind makes them perform at that instant. -/

/-- Entry `k` of a core's write path, where a read of the bytes at `ks` may race it. -/
def Work.raceWith (w : Work) (core k : Nat) (ks : List Nat) : Option WEntry :=
  ((w.d.core core).path[k]?).bind fun e =>
    if e.kind == .store && ks.any (fun a => decide (e.pa ≤ a) && decide (a < e.pa + e.n)) && (w.d.rideOf e.pa).isNone &&
        w.mayPerform core k e then some e
    else none

/-- All of them. -/
def Work.raceable (w : Work) (ks : List Nat) : List (Nat × WEntry) :=
  w.d.cores.flatMap fun c => (List.range c.2.path.length).filterMap fun k => (w.raceWith c.1 k ks).map fun e => (c.1, e)

/-- The byte at an address, or, where the mask of an entry has bit `i`, the one that the entry writes there. -/
def Work.raceByte (w : Work) (es : List (WEntry × Nat)) (i a : Nat) : Byte :=
  es.foldl (fun b q =>
    if q.2.testBit i ∧ q.1.pa ≤ a ∧ a < q.1.pa + q.1.n then BitVec.ofNat 8 (q.1.data / 2 ^ (8 * (a - q.1.pa))) else b) (w.physByte a)

def Work.raceBytes (w : Work) (es : List (WEntry × Nat)) (ks : List Nat) : List Byte :=
  ((List.range ks.length).zip ks).map fun q => w.raceByte es q.1 q.2

/-- A read of the bytes at `ks` at their home, which any of the pending writes may race: the bytes, and the writes it races. -/
def Work.raceSeen (w : Work) (ks : List Nat) : List Byte × List (Nat × WEntry) × Work :=
  match w.raceable ks with
  | [] => (ks.map w.physByte, [], w)
  | e :: es =>
      let f := w.fresh
      let m := f.2.fresh
      let on := ((List.range (es.length + 1)).zip (e :: es)).filter fun q => (Config.choice f.1).testBit q.1
      (w.raceBytes (on.map fun q => (q.2.2, Config.choice m.1 / 2 ^ (ks.length * q.1))) ks, on.map Prod.snd, m.2)

/-- The same, where the writes perform at that instant. -/
def Work.raceRead (w : Work) (ks : List Nat) : List Byte × Work :=
  let r := w.raceSeen ks
  (r.1, r.2.1.foldl (fun w q => w.performEntry q.1 q.2) r.2.2)

/-- A byte that an engine reads for itself at its home: it may race a pending write. -/
def Work.engineByte (w : Work) (k : Nat) : Byte :=
  match (w.raceable [k]).getLast? with
  | some q => if Config.raced w.d.tick k then w.raceByte [(q.2, 1)] 0 k else w.physByte k
  | none => w.physByte k

def Work.engineBytes (w : Work) (k n : Nat) : List Byte := (List.range n).map fun i => w.engineByte (k + i)

/-! ### RESULT_LAND (R77, R86, R91, R94, R98, R177) -/

/-- The entries of the core's write path that a load may see: stores, but the thread's own later ones (R98). -/
def Work.seen (w : Work) (slot id : Nat) (p : LoadP) : List WEntry :=
  (w.d.core (slotCore slot)).path.filter fun e =>
    e.kind == .store && !(e.slot == slot && e.lane == p.lane && decide (id < e.id))

/-- The byte of an address that the latest of the entries holds. -/
def pathByte (es : List WEntry) (a : Nat) : Option Byte :=
  es.foldl (fun b e => if e.pa ≤ a ∧ a < e.pa + e.n then some (BitVec.ofNat 8 (e.data / 2 ^ (8 * (a - e.pa)))) else b) none

/-- Entries of the core's path whose writes come before a load that the path does not serve: its thread's own, those whose value
the thread has read, and those that its group's last fence or acquire follows (R95, R103, R242). -/
def Work.pathWaits (w : Work) (slot id : Nat) (p : LoadP) : Bool :=
  (w.d.core (slotCore slot)).path.any fun e =>
    p.meets e.pa e.n && !e.kind.isRed && (e.kind != .store || !p.cached) &&
      ((e.slot == slot && e.lane == p.lane && decide (e.id < id)) || e.readBy.contains (slot, p.lane) ||
        w.synchronous slot p.iss.sync e)

/-- The cycle at which a group's launch began. -/
def Work.launchStart (w : Work) (slot : Nat) : Nat :=
  (((w.grp? slot).bind fun g => w.blk? g.blk).bind fun b => (sget? w.d.launches b.launch).map Launch.popTime).getD 0

/-- The bytes of a load in a sector's 128. -/
def LoadP.cut (p : LoadP) (sec : List Byte) : Nat := bytesNat ((sec.drop (p.pa % 128)).take p.n)

/-- A copy of the sector that the core may read now. -/
def Work.valid (w : Work) (core : Nat) (p : LoadP) (c : L1Copy) : Bool :=
  c.sector == sectorOf p.pa && decide (coreCount w.d.now core < c.endRev)

/-- A weak load of scope .blk may be served from a remote-die copy (R94, R97). -/
def LoadP.mayStale (p : LoadP) : Bool := p.cached && !p.strong && p.scope == .blk && p.more.isEmpty

/-- The entries that a load races, with their masks. -/
def Work.racing (w : Work) (p : LoadP) (ws : List (Nat × Nat × Nat)) : List (Nat × WEntry × Nat) :=
  ws.filterMap fun q =>
    if p.cst then ((w.d.core q.1).path[q.2.1]?).bind fun e =>
      if e.kind == .store && p.meets e.pa e.n then some (q.1, e, q.2.2) else none
    else (w.raceWith q.1 q.2.1 p.keys).map fun e => (q.1, e, q.2.2)

/-- The value that a load may take from a source at this instant, if it may perform now. Past contents, pending stores and a
peer's copy serve a constant load only of a line homed on a die of the package (R73, R353). -/
def Work.loadValue (w : Work) (slot id : Nat) (p : LoadP) (src : LoadSrc) : Option Nat :=
  let core := slotCore slot
  let held := p.keys.map fun a => pathByte (w.seen slot id p) a
  let clear := !w.pathWaits slot id p && (!p.cached || held.all Option.isNone)
  let now := bytesNat (p.keys.map w.physByte)
  let onDie := match homeOf w.d p.pa with | .die _ => true | _ => false
  let mix := p.strong && w.mixMode p.pa && w.mixed p.pa p.n
  if !w.loadClear slot id p || (p.strong && w.strongHeld slot [p.lane] id p.scope) then none
  else
    match src with
    | .writePath =>
        if p.cached && held.all Option.isSome then some (bytesNat (held.map fun b => b.getD 0)) else none
    | .home =>
        if clear && p.pieces.all (fun q => w.gateNow q.1) && !mix then some now else none
    | .remoteCopy k =>
        if p.cst then
          ((sget w.d.pkg.consts (sectorOf p.pa) [])[k]?).bind fun e =>
            if w.launchStart slot ≤ e.1 && onDie then some (p.cut e.2) else none
        else if clear && p.mayStale then
          ((w.d.core core).copies.find? fun c => c.remote && w.valid core p c).bind fun c => (c.hist[k]?).map p.cut
        else none
    | .peer c k h =>
        if clear && p.cached && p.more.isEmpty && (p.cst || p.ro) && coreDie c == coreDie core && coreQuad c != coreQuad core && onDie &&
            !((w.d.core core).copies.any (w.valid core p)) then
          ((w.d.core c).copies[k]?).bind fun cp =>
            if !w.valid c p cp then none
            else if cp.remote then
              (if p.mayStale && (!p.cst || h + 1 == cp.hist.length) then (cp.hist[h]?).map p.cut else none)
            else some now
        else none
    | .race ws =>
        let es := w.racing p ws
        if es.length = ws.length && !ws.isEmpty && (if p.cst then onDie
            else clear && p.pieces.all (fun q => w.gateNow q.1) && !mix && !es.any fun q => q.2.1.of slot p.lane) then
          some (bytesNat (w.raceBytes (es.map fun q => (q.2.1, q.2.2)) p.keys))
        else none

/-- What taking a value from a source does there: a fill, a peer's copy, the writes that the load raced, the stores that it has
read in the path. -/
def Work.fromSrc (w : Work) (slot id : Nat) (p : LoadP) (src : LoadSrc) : Work :=
  let core := slotCore slot
  match src with
  | .home =>
      let w := p.pieces.foldl (fun w q => w.homeTouch q.1) w
      if p.cached && !p.strong then
        p.pieces.foldl (fun w q =>
          if homeOf w.d q.1 = .die (coreDie core) ∨ p.scope = .blk then w.fill core q.1 p.lease else w) w
      else w
  | .peer c k _ =>
      match (w.d.core c).copies[k]? with
      | some cp => w.updCore core fun e => { e with copies := e.copies ++ [cp] }
      | none => w
  | .race ws =>
      let es := w.racing p ws
      if p.cst then w
      else if p.strong then es.foldl (fun w q => w.performEntry q.1 q.2.1) w
      else w.updGrp slot fun g => { g with acq := g.acq ++ es.map fun q => q.2.1.id }
  | .writePath =>
      let ids := ((w.seen slot id p).filter fun e => p.meets e.pa e.n).map WEntry.id
      let read := fun (e : WEntry) =>
        if ids.contains e.id then { e with readBy := ((slot, p.lane) :: e.readBy).eraseDups } else e
      w.updCore core fun c => { c with path := c.path.map read }
  | .remoteCopy _ => w

/-- What an acquiring load learns: from releases that have performed, or from those it has read in the path. -/
def Work.loadLearns (w : Work) (slot id : Nat) (p : LoadP) (src : LoadSrc) : Clock :=
  let me := w.agentOf slot
  match src with
  | .writePath =>
      ((w.seen slot id p).filter fun e => e.iss.rel && p.meets e.pa e.n && related e.scope (w.agentOf e.slot) p.scope me).foldl
        (fun c e => Clock.join c (sset e.iss.vc (w.agentOf e.slot).uid (e.iss.ep + 1))) []
  | _ => w.heard p.pa p.n me p.scope

/-- A load's value is fixed (R86): leases, copies and records follow. -/
def Work.fixLoad (w : Work) (slot id : Nat) (p : LoadP) (src : LoadSrc) (x : Nat) : Work :=
  let c := w.loadLearns slot id p src
  let w := (w.fromSrc slot id p src).deliver slot (some id) (valWords p.wide p.n p.ext x)
  let w := if p.strong then
      (w.noteStrong (w.isEntry (p.pa / 16 * 16)) (w.strongOf slot p.pa p.n p.iss.ep p.scope) p.iss.vc).passOlder slot [p.lane] id
        p.scope
    else w
  if p.acq then (w.learnVc slot c).acquired slot id p.scope else w

/-- Does a read from the source reach the home? -/
def srcAtHome : LoadSrc → Bool
  | .home | .race _ => true
  | .writePath | .remoteCopy _ | .peer _ _ _ => false

/-- May a known result be written: its window is over, and every instruction in the window that writes one of its
registers has written it (R177). -/
def landOk (g : Group) (e : Owed) : Bool :=
  e.wins.all (fun p => p.2 == 0) && !g.owed.any fun o => decide (e.id < o.id) && o.dst.any e.dst.contains

/-- RESULT_LAND: the `k`-th result owed to the group in a slot: a load's value is fixed, or a known value lands. -/
def execResultLand (slot k : Nat) (src : LoadSrc) (s : State) : Host.Outcome State Fault Refusal :=
  device s fun w =>
    match (w.grp? slot).bind fun g => g.owed[k]? with
    | none => w
    | some e =>
        match e.pay with
        | .pend => w
        | .load p =>
            if srcAtHome src && p.pieces.any fun q => w.deadAt q.1 true then
              w.deadEnd (((w.grp? slot).getD Group.gone).blk) (p.pieces.map Prod.fst)
            else (match w.loadValue slot e.id p src with
              | some x =>
                  (match homeOf w.d p.pa with
                    | .doorbell _ =>
                        let f := w.fresh
                        f.2.fixLoad slot e.id p src ((Config.freeDWord f.1).toNat % 2 ^ (8 * p.n))
                    | _ => w.fixLoad slot e.id p src x)
              | none => w)
        | .ready ws =>
            if landOk ((w.grp? slot).getD Group.gone) e then
              (w.writeRegs slot e.dst ws).updGrp slot fun g => { g with owed := g.owed.filter fun o => o.id != e.id }
            else w

/-! ### STORE_PERFORM -/

/-- STORE_PERFORM: entry `k` of a core's write path performs at its home. -/
def execStorePerform (core k : Nat) (s : State) : Host.Outcome State Fault Refusal :=
  device s fun w =>
    match (w.d.core core).path[k]? with
    | none => w
    | some e =>
        if w.deadAt e.pa (e.kind != .store) then
          (w.dropEntry core e).deadEnd (((w.grp? e.slot).getD Group.gone).blk) (if e.kind = .store then [] else [e.pa])
        else if !w.mayPerform core k e then w
        else w.performEntry core e

/-! ### Copies end (R91, R94) -/

/-- LEASE_EXPIRY: copy `k` of a core's L1 is no longer valid. -/
def execLeaseExpiry (core k : Nat) (s : State) : Host.Outcome State Fault Refusal :=
  device s fun w =>
    match (w.d.core core).copies[k]? with
    | some c =>
        if !c.remote && decide (c.endRev ≤ coreCount w.d.now core) then
          w.updCore core fun e => { e with copies := e.copies.eraseIdx k }
        else w
    | none => w

/-- REMOTE_COPY_DROP: a remote-die copy whose lease length has passed since its fill is dropped. -/
def execRemoteCopyDrop (core k : Nat) (s : State) : Host.Outcome State Fault Refusal :=
  device s fun w =>
    match (w.d.core core).copies[k]? with
    | some c =>
        if c.remote && decide (c.endRev ≤ coreCount w.d.now core) then
          w.updCore core fun e => { e with copies := e.copies.eraseIdx k }
        else w
    | none => w

end Sys2Proof.Machine
end

