-- ==== Sys2Proof/Machine/Sync.lean ====
section
/-! DEFINITION. Fences, counter waits, value waits, hardware barriers and barrier objects (R247 to R256). -/

namespace Sys2Proof.Machine

/-! ### fence, waitc (R248, R249) -/

/-- The executing lanes wait with the values of their issue. -/
def waitWith (w : Work) (x : List Nat) (f : Nat → List Nat) : Res :=
  .wait w x (.cont (x.map fun l => (l, w.kept l (f l)))) []

def execFence (h : Hdr) (sc : Scope) (s : State) : Host.Outcome State Fault Refusal :=
  issue s h [] [] fun w x => if w.fenceOk w.slot sc then .ok (w.fenceDone w.slot sc) [] else waitWith w x fun _ => []

/-- The lowest executing lane's value of a group-wide operand. -/
def Work.groupVal (w : Work) (x : List Nat) (o : Opnd) : Nat := ((x.head?).map fun l => (w.op32 l o).toNat).getD 0

def execWaitc (h : Hdr) (cls : Cls) (n : Opnd) (s : State) : Host.Outcome State Fault Refusal :=
  issue s h (n.names 1) [] fun w x =>
    let lim := (w.kept (x.headD 0) [w.groupVal x n]).headD 0
    if w.g.count cls ≤ lim then .ok w [] else waitWith w x fun _ => [lim]

/-! ### wait.v (R250) -/

def tySigned (t : Ty) : Bool := t == .i8 || t == .i16 || t == .i32 || t == .i64

/-- The key of a word that no load can reach: a helper's read of it is zero (R30). -/
def noKey : Nat := 2 ^ 60

/-- May the load `id` of a lane's wait perform now: what comes before it at the word has performed, and so have its thread's
earlier strong accesses; and it is the word's turn at the home (R95, R97, R103, R117)? -/
def Work.waitvOk (w : Work) (slot l : Nat) (o : WaitVOp) (key id : Nat) : Bool :=
  let n := o.ty.bytes
  let g := (w.grp? slot).getD Group.gone
  key == noKey ||
    (if o.shared then !w.strongBefore slot [l] id
    else
      !w.strongHeld slot [l] id o.scope && w.gateNow key && !(w.mixMode key && w.mixed key n) && !w.ringBefore slot l key id &&
        !w.loadBefore slot [l] id [(key, n)] && !w.lateBefore [(key, n)] false (w.agentOf slot) (some o.scope) id none &&
        !(w.d.core (slotCore slot)).path.any fun e => overlap e.pa e.n key n &&
          (e.of slot l || e.readBy.contains (slot, l) || (!e.kind.isRed && w.synchronous slot g.sync e)))

/-- The word that a wait reads, a strong load at the home that may race a write (R89, R97). -/
def Work.waitvRead (w : Work) (slot l : Nat) (o : WaitVOp) (key id : Nat) : Nat × Work :=
  let n := o.ty.bytes
  let g := (w.grp? slot).getD Group.gone
  let a := w.strongOf slot key n g.ep o.scope
  if key = noKey then (0, w)
  else if o.shared then (w.load key n, w.noteStrong false a g.vc)
  else
    let r := w.raceRead ((List.range n).map (key + ·))
    (bytesNat r.1, ((r.2.homeTouch key).noteStrong (w.isEntry (key / 16 * 16)) a g.vc).passOlder slot [l] id o.scope)

/-- A wait whose condition holds goes on; with .acq it acquires (R102, R103). -/
def Work.waitvDone (w : Work) (slot : Nat) (o : WaitVOp) (key : Nat) : Work :=
  if o.acq then (w.learn slot key o.ty.bytes o.scope).fenceDone slot o.scope else w

/-- Every lane's load is made, where it may perform; the lanes whose condition holds, and those that wait on. A lane's
values are its word's place, the comparand, the name of its issue, the cycle from which its next read is counted, its
virtual address, and the value read last (2^64 for none yet). -/
def Work.waitvStep (w : Work) (slot : Nat) (o : WaitVOp) : List (Nat × List Nat) → Work × List Nat × List (Nat × List Nat)
  | [] => (w, [], [])
  | (l, vs) :: t =>
      let key := vs.headD 0
      let id := vs.getD 2 0
      let rest := fun (last v : Nat) => (l, [key, vs.getD 1 0, id, last, vs.getD 4 0, v])
      if !w.waitvOk slot l o key id then
        let r := w.waitvStep slot o t
        (r.1, r.2.1, rest (max (vs.getD 3 0) (w.d.now - (if o.shared then 64 else 384))) (vs.getD 5 (2 ^ 64)) :: r.2.2)
      else
        let v := w.waitvRead slot l o key id
        if condInt o.cond (tySigned o.ty) (8 * o.ty.bytes) v.1 (vs.getD 1 0) then
          let r := (v.2.waitvDone slot o key).waitvStep slot o t
          (r.1, l :: r.2.1, r.2.2)
        else
          let r := v.2.waitvStep slot o t
          (r.1, r.2.1, rest w.d.now v.1 :: r.2.2)

/-- The displacement of wait.v as an address offset. -/
def Work.waitvEa (w : Work) (o : WaitVOp) (l : Nat) : Int :=
  if o.shared then ((w.op32 l o.base).toNat : Int) + o.disp.toInt
  else (((w.op64 l o.base).toNat : Int) + o.disp.toInt) % 2 ^ 64

def execWaitV (h : Hdr) (o : WaitVOp) (s : State) : Host.Outcome State Fault Refusal :=
  let n := o.ty.bytes
  let sp : Space := if o.shared then .s else .g
  issue s h (o.base.names (if o.shared then 1 else 2) ++ o.a.names (if o.ty.wide then 2 else 1)) [] fun w x =>
    if !w.d.cur.stamped && !w.g.acq.isEmpty then .hold
    else
      let ps := x.map fun l => (l, w.place sp (w.waitvEa o l) n .load l)
      match if w.d.cur.stamped then none else firstFail ((ps.filter fun p => !(w.g.thread p.1).helper).map (·.2)) with
      | some f => .xlate f.cause f.addr
      | none =>
          let vals := ps.map fun p =>
            (p.1, w.kept p.1 [((p.2.toOption).map placeKey).getD noKey, w.opBytes p.1 o.a n, w.d.nextId, w.d.now,
              (w.waitvEa o p.1).toNat, 2 ^ 64])
          let w := w.openSync (o.acq && !w.d.cur.stamped)
          if !o.shared && vals.any fun v => w.deadAt (v.2.headD 0) true then
            .ok (w.deadEnd w.g.blk (vals.map fun v => v.2.headD 0)) []
          else
            let r := w.waitvStep w.slot o vals
            if r.2.2.isEmpty then .ok r.1 [] else .wait r.1 (r.2.2.map (·.1)) (.cont r.2.2) []

/-- The wait.v in which a thread waits, and its values (R250). -/
def Thread.waitsV (t : Thread) (l : Nat) : Option (WaitVOp × List Nat) :=
  match t.st, t.wait with
  | .waiting, some wt =>
      (match decode true wt.word, wt.why with
        | .ok (.waitV _ o), .cont args => (args.find? fun p => p.1 == l).map fun p => (o, p.2)
        | _, _ => none)
  | _, _ => none

/-- One lane's word is read again. -/
def Work.reread (w : Work) (slot l : Nat) : Work :=
  match ((w.grp? slot).getD Group.gone).thread l |>.waitsV l with
  | none => w
  | some (o, vs) =>
      if !o.shared && w.deadAt (vs.headD 0) true then w.deadEnd (((w.grp? slot).getD Group.gone).blk) [vs.headD 0]
      else
        let r := w.waitvStep slot o [(l, vs)]
        r.1.updGrp slot fun g =>
          match r.2.2 with
          | [] => (g.updThread l fun t =>
              { t with st := .runnable, wait := none, pc := t.pc + BitVec.ofNat 57 ((t.wait.map Wait.len).getD 0) }).meetings
          | vs => g.updThread l fun t => { t with wait := t.wait.map fun wt => { wt with why := .cont vs } }

/-- WAIT_V_REREAD (R250): the group's waiting threads read their words again; those whose condition holds go on. -/
def execWaitVReread (slot : Nat) (s : State) : Host.Outcome State Fault Refusal :=
  device s fun w =>
    match w.grp? slot with
    | none => w
    | some g => if g.stop.isSome then w else (List.range 32).foldl (fun w l => w.reread slot l) w

/-- The word at its place differs from what the wait read last. -/
def Work.waitvNews (w : Work) (o : WaitVOp) (vs : List Nat) : Bool :=
  let key := vs.headD 0
  key != noKey && bytesNat (w.physBytes key o.ty.bytes) != vs.getD 5 (2 ^ 64)

/-- The cycle by which a waiting thread reads its word again: at once where a write has changed it, or after 4 revolutions from
the read before, or 128 cycles; at the gate where the object rides (R250). -/
def Work.waitvDue (w : Work) (slot l : Nat) (o : WaitVOp) (vs : List Nat) : Nat :=
  let last := vs.getD 3 0
  let now := w.d.now
  let news := w.waitvNews o vs
  if o.shared then (if news && w.waitvOk slot l o (vs.headD 0) (vs.getD 2 0) then now else last + 128)
  else match w.d.rideOf (vs.headD 0) with
    | some (_, i, _) => nextPass i 0 (if news then max (now + 1) (last + 1) else last + 385)
    | none => if news && w.waitvOk slot l o (vs.headD 0) (vs.getD 2 0) then now else last + 512

/-! ### MIXSIZE (R88, R370) -/

/-- The report is held with the group; while one is held, no further one is. -/
def Work.holdMix (w : Work) (slot : Nat) (va : Addr) (instr : QWord) (lanes : Word) : Work :=
  w.updGrp slot fun g => if g.hmix.isSome then g else { g with hmix := some { addr := va, instr := instr, lanes := lanes } }

/-- Strong loads of a core's groups that have not performed: slot, owed id, load. -/
def Work.strongLoads (w : Work) (core : Nat) : List (Nat × Nat × LoadP) :=
  (w.d.groups.filter fun e => slotCore e.1 == core).flatMap fun e =>
    e.2.owed.filterMap fun o =>
      match o.pay with
      | .load p => if p.strong then some (e.1, o.id, p) else none
      | _ => none

/-- Threads of a core's groups that wait in a wait.v of a global word: slot, lane, operands, values. -/
def Work.waiters (w : Work) (core : Nat) : List (Nat × Nat × WaitVOp × List Nat) :=
  (w.d.groups.filter fun e => slotCore e.1 == core && e.2.stop.isNone).flatMap fun e =>
    (List.range 32).filterMap fun l => ((e.2.thread l).waitsV l).bind fun p =>
      if p.1.shared then none else some (e.1, l, p.1, p.2)

/-- MIXSIZE_REPORT: the `k`-th strong access of a core that waits to perform, those of its write path first, then owed
loads, then waits, overlaps the last strong access to its sector with another size: it does not perform, and its group is
told. A wait goes on. -/
def execMixsizeReport (core k : Nat) (s : State) : Host.Outcome State Fault Refusal :=
  device s fun w =>
    let es := (w.d.core core).path.filter WEntry.strong
    let ls := w.strongLoads core
    match es[k]?, ls[k - es.length]?, (w.waiters core)[k - es.length - ls.length]? with
    | some e, _, _ =>
        if w.mixMode e.pa && w.mixed e.pa e.n then (w.dropEntry core e).holdMix e.slot e.va e.instr e.lanes else w
    | none, some (slot, id, p), _ =>
        if w.mixMode p.pa && w.mixed p.pa p.n then
          (w.updGrp slot fun g =>
            { g with owed := g.owed.filter (fun o => o.id != id), acq := g.acq.filter fun a => a != id }).holdMix
            slot p.va p.instr p.lanes
        else w
    | none, none, some (slot, l, o, vs) =>
        if w.mixMode (vs.headD 0) && w.mixed (vs.headD 0) o.ty.bytes then
          let g := (w.grp? slot).getD Group.gone
          w.holdMix slot (BitVec.ofNat 57 (vs.getD 4 0)) (BitVec.ofNat 128 (((g.thread l).wait.map Wait.word).getD 0))
            (maskOf (g.lanesWith fun t => t.wait.map Wait.iss == (g.thread l).wait.map Wait.iss))
        else w
    | none, none, none => w

/-! ### Hardware barriers (R251, R252) -/

/-- Gang codes of Table 1.3 that a barrier's scope needs. -/
def gangNeeds : Scope → Nat
  | .quad => 1 | .die => 2 | .pkg => 3 | _ => 0

/-- BAR_SCOPE: the launch is not ganged, or not enrolled, at the scope (R251, R325). -/
def Work.barScopeOk (w : Work) (sc : Scope) : Bool :=
  match sc with
  | .blk => true
  | sc =>
      match sget? w.d.launches w.blk.launch with
      | none => false
      | some ln =>
          match sc with
          | .pod => ln.pbid != 0 && !ln.pbsys
          | .sys => ln.pbid != 0 && ln.pbsys
          | sc => decide (gangNeeds sc ≤ ln.gang)

/-- The barrier's phase and arrivals, as the issuing group sees it. -/
def Work.barOf (w : Work) (sc : Scope) (id : Nat) : Bar :=
  match sc with
  | .blk => sget w.blk.bars id Bar.zero
  | sc =>
      match sget? w.d.launches w.blk.launch with
      | none => Bar.zero
      | some ln =>
          match sc with
          | .pod | .sys => (sget w.d.pkg.podBars (podKey ln.pbid ln.pbsys) PodBar.zero).bar
          | sc => sget ln.bars (barKey (barNo sc 0) (w.barUnit sc w.slot)) Bar.zero

/-- The issuing group is counted into the current phase, which may complete. -/
def Work.barCount (w : Work) (sc : Scope) (id : Nat) : Work :=
  let slot := w.slot
  let bar := w.barOf sc id
  let bar' : Bar := { bar with arrived := bar.arrived ++ [slot], vc := Clock.join bar.vc w.g.vc }
  let w := w.updG fun g => { g with bar := sset g.bar (barNo sc id) { arr := true, owe := true, phase := bar.phase } }
  match sc with
  | .blk => (w.updB fun b => { b with bars := sset b.bars id bar' }).checkBlkBar w.g.blk id
  | sc =>
      let ln? := sget? w.d.launches w.blk.launch
      match ln? with
      | none => w
      | some ln =>
          match sc with
          | .pod | .sys =>
              let k := podKey ln.pbid ln.pbsys
              let pb := sget w.d.pkg.podBars k PodBar.zero
              (w.updPkg fun p => { p with podBars := sset p.podBars k { pb with bar := bar' } }).checkPodBar ln.pbid ln.pbsys
          | sc =>
              let u := w.barUnit sc slot
              let ln' := { ln with bars := sset ln.bars (barKey (barNo sc 0) u) bar' }
              (w.updDev fun d => { d with launches := sset d.launches w.blk.launch ln' }).checkWideBar w.blk.launch sc u

/-- A result is owed to a B register (R44). -/
def Group.owesB (g : Group) : Bool := g.owed.any fun e => e.dst.any fun r => match r with | .b _ => true | _ => false

def execBarArrive (h : Hdr) (sc : Scope) (id : BitVec 4) (s : State) : Host.Outcome State Fault Refusal :=
  issue s h [] [] fun w x =>
    if !w.d.cur.stamped && !w.barScopeOk sc then .trap cBAR_SCOPE 0
    else if !w.d.cur.stamped && x != w.g.live then .trap cBAR_DIVERGED 0
    else if !w.fenceOk w.slot sc || (sc == .blk && w.g.owesB) || (sget w.g.bar (barNo sc id.toNat) BarSt.zero).arr then
      waitWith w x fun _ => []
    else .ok ((w.fenceDone w.slot sc).barCount sc id.toNat) []

def execBarWait (h : Hdr) (sc : Scope) (id : BitVec 4) (s : State) : Host.Outcome State Fault Refusal :=
  issue s h [] [] fun w x =>
    let st := sget w.g.bar (barNo sc id.toNat) BarSt.zero
    if !w.d.cur.stamped && !w.barScopeOk sc then .trap cBAR_SCOPE 0
    else if !st.owe then .ok w []
    else if st.phase < (w.barOf sc id.toNat).phase then
      .ok (((w.learnVc w.slot (w.barOf sc id.toNat).done).fenceDone w.slot sc).updG fun g => { g with bar := sset g.bar (barNo sc id.toNat) { st with owe := false } }) []
    else waitWith w x fun _ => []

/-! ### Barrier objects (R253 to R255) -/

structure BObj where
  acnt : Nat
  arem : Nat
  phase : Nat
  adone : Bool
  pend : Nat

def BObj.ofNat (x : Nat) : BObj :=
  { acnt := x / 2 ^ 112 % 65536, arem := x / 2 ^ 96 % 65536, phase := x / 2 ^ 64 % 2 ^ 32, adone := x / 2 ^ 63 % 2 == 1,
    pend := x % 2 ^ 56 }

def BObj.toNat (o : BObj) : Nat :=
  o.acnt % 65536 * 2 ^ 112 + o.arem % 65536 * 2 ^ 96 + o.phase % 2 ^ 32 * 2 ^ 64 + o.adone.toNat * 2 ^ 63 + o.pend % 2 ^ 56

/-- Completion (R253). -/
def BObj.check (o : BObj) : BObj :=
  if o.adone ∧ o.pend % 2 ^ 56 = 0 then { o with phase := (o.phase + 1) % 2 ^ 32, arem := o.acnt, adone := false } else o

def BObj.init (count : Nat) : BObj := { acnt := count % 65536, arem := count % 65536, phase := 0, adone := false, pend := 0 }
def BObj.expect (o : BObj) (n : Nat) : BObj := { o with pend := (o.pend + n) % 2 ^ 56 }.check
/-- Bytes of a write that has performed (R107). -/
def BObj.lower (o : BObj) (n : Nat) : BObj := { o with pend := (o.pend + 2 ^ 56 - n) % 2 ^ 56 }.check
def BObj.arrive (o : BObj) (n : Nat) : BObj :=
  let a := (o.arem + 65535) % 65536
  { o with pend := (o.pend + n) % 2 ^ 56, arem := a, adone := a == 0 }.check

def Work.bobj (w : Work) (blk off : Nat) : BObj := BObj.ofNat (w.load (spadKey blk off) 16)
def Work.setBobj (w : Work) (blk off : Nat) (o : BObj) : Work := w.spadStore (spadKey blk off) 16 o.toNat

/-- PEND, as a signed number, takes a change: does it stay in its range (R253)? -/
def BObj.keeps (o : BObj) (d : Int) : Bool :=
  let p : Int := (if o.pend < 2 ^ 55 then (o.pend : Int) else (o.pend : Int) - 2 ^ 56) + d
  decide (-2 ^ 55 ≤ p) && decide (p < 2 ^ 55)

/-- A change of PEND by `d`; behind one that leaves its range completion is undefined (R7, R253). -/
def Work.pendBobj (w : Work) (blk off : Nat) (d : Int) (f : BObj → BObj) : Work :=
  if (w.bobj blk off).keeps d then w.setBobj blk off (f (w.bobj blk off)) else w.freeObj (spadKey blk off)

/-- A copy's write has performed: the object it names is lowered (R107, R262). -/
def Work.boLower (w : Work) (blk : Nat) (bo : Option Nat) (n : Nat) : Work :=
  match bo with
  | none => w
  | some off => w.pendBobj blk off (-n) fun o => o.lower n

/-- The checks of an object offset (R254) in the lanes that act. -/
def Work.boFail (w : Work) (a : Opnd) (x : List Nat) : Option Fail :=
  firstFail (x.map fun l => w.place .s ((w.op32 l a).toNat : Int) 16 .load l)

def execBoInit (h : Hdr) (a count : Opnd) (s : State) : Host.Outcome State Fault Refusal :=
  issue s h (a.names 1 ++ count.names 1) [] fun w x =>
    let x := w.notHelper x
    if !w.g.acq.isEmpty then .hold
    else match w.boFail a x with
    | some f => .xlate f.cause f.addr
    | none =>
        .ok (x.foldl (fun v l =>
          let off := (w.op32 l a).toNat
          (v.setBobj w.g.blk off (BObj.init (w.op32 l count).toNat)).spadDrop (spadKey w.g.blk off) 16) w) []

def execBoExpect (h : Hdr) (a n : Opnd) (s : State) : Host.Outcome State Fault Refusal :=
  issue s h (a.names 1 ++ n.names 1) [] fun w x =>
    let x := w.notHelper x
    if !w.g.acq.isEmpty then .hold
    else match w.boFail a x with
    | some f => .xlate f.cause f.addr
    | none =>
        .ok (x.foldl (fun v l =>
          let off := (w.op32 l a).toNat
          v.pendBobj w.g.blk off (w.op32 l n).toNat fun o => o.expect (w.op32 l n).toNat) w) []

/-- One step of bo.arrive per lane, in lane order: the phases returned, and the lanes that wait for ADONE to clear. -/
def arriveSteps (blk : Nat) : Work → List (Nat × List Nat) → Work × List (Nat × Nat) × List Nat
  | w, [] => (w, [], [])
  | w, p :: t =>
      let off := p.2.headD 0
      let o := w.bobj blk off
      if o.adone then
        let r := arriveSteps blk w t
        (r.1, r.2.1, p.1 :: r.2.2)
      else
        let n := p.2.getD 1 0
        let r := arriveSteps blk (w.pendBobj blk off n fun o => o.arrive n) t
        (r.1, (p.1, o.phase) :: r.2.1, r.2.2)

/-- The arrivals that have been made are releases at .blk of what the group has done before (R103, R107). -/
def Work.boTell (w : Work) (offs : List Nat) : Work :=
  let w := w.openSync true
  (offs.foldl (fun v o => v.tell (spadKey w.g.blk o) 16 (w.agentOf w.slot) .blk w.g.ep w.g.vc) w).openSync true

/-- bo.arrive in its four forms (Table 13.8). An S or B destination stays as it is where the lowest executing lane is a helper,
which does nothing (DESIGN CHOICE, assumption 109: R30 and R240 do not settle it). -/
def arriveOp (s : State) (h : Hdr) (d : Dst) (a : Opnd) (n : Option Opnd) (once : Bool) : Host.Outcome State Fault Refusal :=
  issue s h (a.names 1 ++ (match n with | some o => o.names 1 | none => [])) (d.names 1) fun w x =>
    let acting := w.notHelper (if once then x.take 1 else x)
    match if w.d.cur.stamped then none else w.boFail a acting with
    | some f => .xlate f.cause f.addr
    | none =>
        let first := x.headD 0
        let vals := fun l => w.kept l [(w.op32 l a).toNat, (match n with | some o => (w.op32 l o).toNat | none => 0), first]
        if acting.isEmpty then .ok w []
        else if !w.fenceOk w.slot .blk then .wait w x (.cont (x.map fun l => (l, vals l))) []
        else
          let r := arriveSteps w.g.blk w (acting.map fun l => (l, vals l))
          let lowest := (vals first).getD 2 0
          let wr := fun (w : Work) (ls : List Nat) (f : Nat → Nat) =>
            match d with
            | .s _ | .b _ => if ls.contains lowest then w.writeDst [lowest] d false true fun l => BitVec.ofNat 64 (f l) else w
            | d => w.writeDst ls d false true fun l => BitVec.ofNat 64 (f l)
          let phase := fun l => ((r.2.1.find? fun p => p.1 == l).map (·.2)).getD 0
          let r := (r.1.boTell (r.2.1.map fun p => (vals p.1).headD 0), r.2)
          if once then
            match r.2.1 with
            | [] => .wait w x (.cont (x.map fun l => (l, vals l))) []
            | p :: _ => .ok (wr r.1 x fun _ => p.2) []
          else
            let done := r.2.1.map (·.1)
            let w' := wr r.1 done phase
            match r.2.2 with
            | [] => .ok w' []
            | ls => .wait w' ls (.cont (ls.map fun l => (l, vals l))) []

def execBoArrive (h : Hdr) (d : Dst) (a : Opnd) (s : State) := arriveOp s h d a none false
def execBoArriveOnce (h : Hdr) (d : Dst) (a : Opnd) (s : State) := arriveOp s h d a none true
def execBoArriveExpect (h : Hdr) (d : Dst) (a n : Opnd) (s : State) := arriveOp s h d a (some n) false
def execBoArriveOnceExpect (h : Hdr) (d : Dst) (a n : Opnd) (s : State) := arriveOp s h d a (some n) true

def execBoWait (h : Hdr) (a phase : Opnd) (s : State) : Host.Outcome State Fault Refusal :=
  issue s h (a.names 1 ++ phase.names 1) [] fun w x =>
    if !w.d.cur.stamped && !w.g.acq.isEmpty then .hold
    else match if w.d.cur.stamped then none else w.boFail a x with
    | some f => .xlate f.cause f.addr
    | none =>
        let vals := fun l => w.kept l [(w.op32 l a).toNat, (w.op32 l phase).toNat]
        let rest := x.filter fun l => (w.bobj w.g.blk ((vals l).headD 0)).phase == (vals l).getD 1 0
        let w := (x.filter fun l => !rest.contains l).foldl (fun w l =>
          w.learn w.slot (spadKey w.g.blk ((vals l).headD 0)) 16 .blk) w
        if rest.isEmpty then .ok (w.synced w.slot) []
        else .wait (if rest.length < x.length then w.synced w.slot else w) rest (.cont (rest.map fun l => (l, vals l))) []

/-! ### Steps that time brings about -/

/-- The latest end of a lane's nap (R203), and a waiting thread's next read (R250). -/
def Work.waitDue (w : Work) (slot : Nat) (g : Group) : List (Nat × Instr) :=
  (List.range 32).filterMap fun l =>
    match (g.thread l).st, (g.thread l).wait.map Wait.why with
    | .waiting, some (.nap start ns) => some (start + napOf ns l + 128, .napExpiry slot l)
    | .waiting, some (.cont _) =>
        if g.stop.isSome then none
        else ((g.thread l).waitsV l).map fun p => (w.waitvDue slot l p.1 p.2, .waitVReread slot)
    | _, _ => none

/-- The first step that the passing of time brings about. -/
def Work.nextDue (w : Work) : Option (Nat × Instr) :=
  (w.d.ringDue ++ w.d.groups.flatMap fun e => if e.1 < 65536 then w.waitDue e.1 e.2 else []).foldl (fun b x =>
    match b with
    | none => some x
    | some y => if x.1 < y.1 then some x else some y) none

end Sys2Proof.Machine
end

