-- ==== Sys2Proof/Machine/Grow.lean ====
section
/-! DEFINITION. What the threads of a stopped or stalled group wait on, and GROW_STALL (R40, R51). -/

namespace Sys2Proof.Machine

/-- Has a thread signed the join of an mma, and has the join not issued? -/
def Work.signing (w : Work) (slot l : Nat) (o : MmaOp) : Bool :=
  let g := (w.grp? slot).getD Group.gone
  let j := sget ((w.blk? g.blk).getD Block.gone).joins o.j.toNat Join.idle
  j.st == .armed && j.signed.contains (32 * g.gidx + l)

/-- The state in which the group in a slot is the issuing one. -/
def Work.asIn (w : Work) (slot : Nat) : Work := w.updDev fun d => { d with cur := { d.cur with slot := slot } }

/-- A thread waits on a hardware barrier, a join register or a barrier object itself (R40): not for the waits of a fence or of
B registers that come first, nor for room in a table; and what it waits for has not come. -/
def Work.waitsOn (w : Work) (slot l : Nat) (t : Thread) : Bool :=
  t.st == .waiting &&
    match t.wait with
    | some { why := .cont args, iss := _, word := word, len := _ } =>
        let w := w.asIn slot
        let bar := fun (sc : Scope) (id : BitVec 4) => sget w.g.bar (barNo sc id.toNat) BarSt.zero
        let obj := w.bobj w.g.blk ((((args.find? fun p => p.1 == l).map (·.2)).getD []).headD 0)
        let phase := (((args.find? fun p => p.1 == l).map (·.2)).getD []).getD 1 0
        let arrives := w.fenceOk slot .blk && obj.adone
        (match decode true word with
          | .ok (.barArrive _ sc id) => w.fenceOk slot sc && !(sc == .blk && w.g.owesB) && (bar sc id).arr
          | .ok (.barWait _ sc id) => (bar sc id).owe && decide ((w.barOf sc id.toNat).phase ≤ (bar sc id).phase)
          | .ok (.boArrive _ _ _) | .ok (.boArriveOnce _ _ _) | .ok (.boArriveExpect _ _ _ _)
          | .ok (.boArriveOnceExpect _ _ _ _) => arrives
          | .ok (.boWait _ _ _) => obj.phase == phase
          | .ok (.mma _ o) | .ok (.smma _ o) => w.signing slot l o
          | _ => false)
    | _ => false

/-- The group waits on a grow, or holds the set and no thread of it runs before such a wait ends. -/
def Work.stalled (w : Work) (slot : Nat) : Bool :=
  match w.grp? slot with
  | none => true
  | some g =>
      g.growW.isSome || (g.extH && g.live.all fun l => (g.thread l).st == .held || w.waitsOn slot l (g.thread l))

/-- The lanes that wait in the grow in which the group's wait began. -/
def Group.firstGrowers (g : Group) : List Nat :=
  match g.growers with
  | [] => []
  | l :: t =>
      let iss := fun k => ((g.thread k).wait.map Wait.iss).getD 0
      let f := t.foldl (fun b k => if iss k < iss b then k else b) l
      (l :: t).filter fun k => (g.thread k).wait == (g.thread f).wait && (g.thread k).pc == (g.thread f).pc

/-- GROW_STALL (R40) of partition `part`: to the group that waits on a grow longest, the lower slot on a tie. Its grow
has no effect. A stopped group takes no such fault (R370), so the fault goes to the oldest waiter that is not stopped
(DEDUCED, assumption 104). -/
def execGrowStall (core part : Nat) (s : State) : Host.Outcome State Fault Refusal :=
  device s fun w =>
    let res := (partSlots core part).filter w.groupLive
    let get := fun sl => (w.grp? sl).getD Group.gone
    let waiters := res.filter fun sl => (get sl).growW.isSome
    let oldest := (waiters.filter fun sl => (get sl).stop.isNone && (get sl).pendFault.isNone).foldl (fun (b : Option Nat) sl =>
      match b with
      | none => some sl
      | some b => if ((get sl).growW.getD 0) < ((get b).growW.getD 0) then some sl else some b) none
    match oldest with
    | none => w
    | some sl =>
        if (res.all w.stalled) && (waiters.all fun k => w.holdsExt (partner k)) && (get sl).owed.isEmpty then
          let g := get sl
          let ls := g.firstGrowers
          match ls with
          | [] => w
          | l :: _ =>
              let t := g.thread l
              let word := (t.wait.map Wait.word).getD 0
              w.takeFault sl ls
                { cause := cGROW_STALL, addr := 0, pc := t.pc, lanes := maskOf ls, ver := word / 4 % 4, prec := true,
                  data := 0, instr := BitVec.ofNat 128 word, svc := true }
        else w

end Sys2Proof.Machine
end

