-- ==== Sys2Proof/Machine/Carousel.lean ====
section
/-! DEFINITION. The Carousel's instructions (R289 to R295). -/

namespace Sys2Proof.Machine

/-- The checks of R289 for the lanes that act: their leaves, or the fault. -/
def Work.ringPlaces (w : Work) (a : Opnd) (disp : Word) (n : Nat) (x : List Nat) : Except Fail (List (Nat × Nat)) :=
  let ps := x.map fun l => (l, w.place .g (w.extEa a disp l) n .ring l)
  match firstFail (ps.map (·.2)) with
  | some f => .error f
  | none => .ok (ps.filterMap fun p => (p.2.toOption).map fun q => (p.1, placeKey q))

/-- A fresh ring operation of the issuing group. -/
def Work.ringOp (w : Work) (id ins pa : Nat) (lanes : List RLane) (act : RAct) (n : Nat) (ord : Order) (sc : Scope)
    (wide : Bool) : RingOp :=
  let remote := decide (w.ringDie 8 pa ≠ w.dieNo)
  { id := id, ins := ins, slot := some w.slot, stop := if remote then 0 else w.coreNo % 64, remote := remote, obj := objOf pa,
    lanes := lanes, act := act, n := n, acq := isAcq ord, rel := false, scope := sc, since := w.d.now + 1, wide := wide
    iss := w.stamp (isRel ord) }

/-- One operation for each object that the lanes name, in lane order; what follows a release is not before it. -/
def Work.addRingOps (w : Work) (ins : Nat) (act : RAct) (n : Nat) (ord : Order) (sc : Scope) (wide : Bool)
    (ls : List (Nat × RLane)) : Work :=
  (((ls.map fun p => objOf p.1).eraseDups).foldl (fun v obj =>
    let r := v.newId
    r.2.addRing (w.ringDie w.dieNo obj)
      (w.ringOp r.1 ins obj ((ls.filter fun p => objOf p.1 == obj).map (·.2)) act n ord sc wide)) w).openSync (isRel ord)

/-- A release waits before the operation is issued (R111); an acquire is noted, one that no lane makes has performed. -/
def Work.ringOrder (w : Work) (ord : Order) (sc : Scope) (ins : Nat) (none_ : Bool) : Work :=
  let w := if isRel ord then w.fenceDone w.slot sc else w.openSync (isAcq ord)
  if isAcq ord && !none_ then w.updG fun g => { g with acq := g.acq ++ [ins] } else w

/-- May a ring instruction issue now? -/
def Work.ringReady (w : Work) (ord : Order) (sc : Scope) : Bool :=
  w.g.acq.isEmpty && decide (w.stopHolds w.coreNo < 64) && (!isRel ord || w.fenceOk w.slot sc)

def execRingBoard (h : Hdr) (a : Opnd) (disp : Word) (s : State) : Host.Outcome State Fault Refusal :=
  issue s h (a.names 2) [] fun w x =>
    match w.ringPlaces a disp 64 x with
    | .error f => .xlate f.cause f.addr
    | .ok ps =>
        if 64 ≤ w.stopHolds w.coreNo then .hold
        else
          .ok (ps.foldl (fun v p =>
            match homeOf w.d p.2 with
            | .die k => v.askBoard k p.2
            | _ => v) w) []

/-- A ring.alight of an object: it is marked where it rides or is captured (R122, R291). -/
def Work.alightOne (w : Work) (pa : Nat) : Work :=
  match w.d.rideOf pa with
  | some (k, i, r) =>
      (match r.state i w.d.now with
        | .riding | .captured => w.askAlight k pa 1
        | _ => w)
  | none => w

def execRingAlight (h : Hdr) (a : Opnd) (disp : Word) (s : State) : Host.Outcome State Fault Refusal :=
  issue s h (a.names 2) [] fun w x =>
    match w.ringPlaces a disp 64 x with
    | .error f => .xlate f.cause f.addr
    | .ok ps =>
        if 64 ≤ w.stopHolds w.coreNo then .hold
        else
          .ok (ps.foldl (fun v p => v.alightOne p.2) w) []

/-- ring.rd and ring.up: `c` registers of destination, words of `n` bytes; `act` is what each lane does. -/
def ringWordOp (s : State) (h : Hdr) (o : RingWOp) (n c : Nat) (src : List Named) (act : RAct) (reads : Bool) :
    Host.Outcome State Fault Refusal :=
  issue s h (o.a.names 2 ++ src) (o.d.names c) fun w x =>
    let acting := if reads then x else w.notHelper x
    let ok := acting.filter fun l => !(w.g.thread l).helper ||
      (match w.place .g (w.extEa o.a o.disp l) n .ring l with | .ok _ => true | .error _ => false)
    match w.ringPlaces o.a o.disp n ok with
    | .error f => .xlate f.cause f.addr
    | .ok ps =>
        if !w.ringReady o.ord o.scope then .hold
        else
          let base := w.d.nextId
          let d := if Dst.isWide o.d ∧ acting.head? ≠ x.head? then Dst.none else o.d
          let w1 := w.owe h acting d c fun l =>
            if ok.contains l then .pend else .ready (valWords (Dst.isWide o.d) (4 * c) .zero 0)
          let ins := w1.newId
          let ls := ps.map fun p =>
            (p.2, { lane := p.1, ofs := p.2 % 64, v := w.opBytes p.1 o.v (min n 8), c := w.opBytes p.1 o.c (min n 8),
                    helper := (w.g.thread p.1).helper, owed := w1.owedOf base p.1 (Dst.isWide o.d) x : RLane })
          .ok ((ins.2.ringOrder o.ord o.scope ins.1 ls.isEmpty).addRingOps ins.1 act n o.ord o.scope (Dst.isWide o.d) ls) []

def execRingRd (h : Hdr) (o : RingWOp) (s : State) : Host.Outcome State Fault Refusal :=
  ringWordOp s h o o.ty.bytes (regCount o.ty.bytes) [] .rd true

def execRingUp (h : Hdr) (op : ROp) (o : RingWOp) (s : State) : Host.Outcome State Fault Refusal :=
  let c := regCount o.ty.bytes
  ringWordOp s h o o.ty.bytes c (o.v.names c ++ (if op = .cas then o.c.names c else [])) (.up op (tySigned o.ty)) false

/-- The bounded pop (R118, R290): v is a 32-bit operand. -/
def execRingUpPop (h : Hdr) (o : RingWOp) (s : State) : Host.Outcome State Fault Refusal :=
  issue s h (o.a.names 2 ++ o.v.names 1) (o.d.names 4) fun w x =>
    let acting := w.notHelper x
    match w.ringPlaces o.a o.disp 16 acting with
    | .error f => .xlate f.cause f.addr
    | .ok ps =>
        if !w.ringReady o.ord o.scope then .hold
        else
          let base := w.d.nextId
          let w1 := w.owe h acting o.d 4 fun _ => .pend
          let ins := w1.newId
          let ls := ps.map fun p =>
            (p.2, { lane := p.1, ofs := p.2 % 64, v := (w.op32 p.1 o.v).toNat, c := 0, helper := false,
                    owed := w1.owedOf base p.1 false x : RLane })
          .ok ((ins.2.ringOrder o.ord o.scope ins.1 ls.isEmpty).addRingOps ins.1 .pop 16 o.ord o.scope false ls) []

/-- The leaf of an address maps it to memory homed off the issuing die; R188 asks this before the leaf's permissions. An address
that no object can have has no home (R351, R358). -/
def Work.leafRemote (w : Work) (va : Nat) : Bool :=
  match w.leafAt w.dieNo va with
  | some (e, _, lvl) =>
      let pa := eAddr e + va % 2 ^ lvlShift lvl
      (match homeOf w.d pa with
        | .out _ _ | .bad => false
        | _ => decide (w.ringDie 8 pa ≠ w.dieNo))
  | none => false

/-- ring.cap (R120, R292): once for the group, with its address in the lowest executing lane. -/
def execRingCap (h : Hdr) (o : RingCOp) (s : State) : Host.Outcome State Fault Refusal :=
  issue s h (o.a.names 2) (o.run.names 16 ++ [.s o.tk.toNat]) fun w x =>
    match w.ringPlaces o.a o.disp 64 (x.take 1) with
    | .error f => if f.rank = 6 && w.leafRemote f.addr then .trap cRING_REMOTE 0 else .xlate f.cause f.addr
    | .ok ps =>
        let pa := (ps.map (·.2)).headD 0
        if w.ringDie 8 pa ≠ w.dieNo then .trap cRING_REMOTE 0
        else if !w.ringReady o.ord o.scope then .hold
        else if w.holdsCap (some w.slot) then .ok (w.updG fun g => g.writeS o.tk.toNat 0x102) []
        else
          let base := w.d.nextId
          let w1 := (w.owe h x o.run 16 fun _ => .pend).pendTok o.tk.toNat
          let ins := w1.newId
          let ls := x.map fun l =>
            (pa, { lane := l, ofs := 0, v := 0, c := 0, helper := false, owed := w1.owedOf base l false x : RLane })
          .ok ((ins.2.ringOrder o.ord o.scope ins.1 false).addRingOps ins.1 (.cap o.tk.toNat) 64 o.ord o.scope false ls) []

/-- Register `k` of a destination run, read. -/
def Work.runWord (w : Work) (l : Nat) (d : Dst) (k : Nat) : Word :=
  match d with
  | .v i => w.g.readV l (i.toNat + k)
  | .q i => w.g.readQ l (i.toNat + k)
  | _ => 0

def wordsNat (ws : List Word) : Nat := ws.foldr (fun x n => x.toNat + 2 ^ 32 * n) 0

/-- The payload that a run of 16 holds. -/
def Work.runData (w : Work) (l : Nat) (d : Dst) : Nat := wordsNat ((List.range 16).map fun k => w.runWord l d k)

/-- ring.ret (R120, R121, R293). While an earlier ring.ret of the group waits at the stop, another receives RING_TIMEOUT
(DESIGN CHOICE, assumption 76: the rules speak of one). -/
def execRingRet (h : Hdr) (o : RingCOp) (s : State) : Host.Outcome State Fault Refusal :=
  issue s h (o.run.names 16) [.s o.tk.toNat] fun w x =>
    let wait := ((w.d.die w.dieNo).ringQ.any fun r => r.slot == some w.slot && isRet r.act)
    match w.g.cap with
    | some c =>
        if c.timedOut ∨ wait then
          .ok (w.updG fun g => { (g.writeS o.tk.toNat 0x101) with cap := if wait then g.cap else none }) []
        else if !w.ringReady o.ord o.scope then .hold
        else
          let data := ((w.notHelper x).head?).map fun l => w.runData l o.run
          let ins := (w.pendTok o.tk.toNat).newId
          let obj := (sget (w.d.die c.die).slots c.slot RSlot.free).obj
          let w1 := ins.2.ringOrder o.ord o.scope ins.1 false
          .ok ((w1.addRing c.die
            (w1.ringOp ins.1 ins.1 obj [] (.ret o.tk.toNat data) 64 o.ord o.scope false)).openSync (isRel o.ord)) []
    | none => .ok (w.updG fun g => g.writeS o.tk.toNat 0x101) []

/-- ring.rev (R113, R294). -/
def execRingRev (h : Hdr) (d : Dst) (s : State) : Host.Outcome State Fault Refusal :=
  issue s h [] (d.names 2) fun w x =>
    .ok (w.owe h x d 2 fun _ => .ready (splitWords true (BitVec.ofNat 64 (coreCount w.d.now w.coreNo)))) []

/-- ring.wait (R294). -/
def execRingWait (h : Hdr) (n : Opnd) (s : State) : Host.Outcome State Fault Refusal :=
  issue s h (n.names 2) [] fun w x =>
    let v := (w.kept (x.headD 0) [(w.op64 (x.headD 0) n).toNat]).headD 0
    if v ≤ coreCount w.d.now w.coreNo then .ok w [] else waitWith w x fun _ => [v]

/-! ### Device steps that need no operation's effect -/

/-- REVOLUTION_COUNT (R90, R113): time passes to the next cycle at which a stop counts a revolution, unless a passage
that an operation waits for comes first. Which group waits for the count is looked at by its own turn. -/
def execRevolutionCount (_die stop : Nat) (s : State) : Host.Outcome State Fault Refusal :=
  device s fun w =>
    let t := 128 * (stopCount w.d.now stop + 1) + 2 * stop
    match w.nextDue with
    | some (c, _) => if c < t then w else w.updDev fun d => { d with now := t }
    | none => w.updDev fun d => { d with now := t }

/-- The generation object that an engine operation's step goes to. -/
def EKind.gpa : EKind → Option Nat
  | .collStage _ c _ | .collCommit c _ _ | .collIter c _ _ _ _ | .collCount c _ _ _ => some c.gpa
  | .pgBuild _ p _ _ | .pgPublish p | .pgStat p _ | .trace _ p _ _ => some p.gpa
  | _ => none

/-- Operations on objects of a die that never ride end their blocks: all of them where its ring has failed (R361), those on
an object that cannot be read (R84). -/
def Work.ringDead (w : Work) (die : Nat) (dead : Nat → Bool) : Work :=
  let qs := (w.d.die die).ringQ.filter fun o => dead o.obj
  let ks := fun o => if w.d.pkg.failPkg.getLsbD (bRING die) then [] else [o]
  let w := w.updDie die fun e =>
    { e with ringQ := e.ringQ.filter (fun o => !dead o.obj), boardQ := e.boardQ.filter fun b => !dead b.obj }
  let w := qs.foldl (fun w o =>
    match o.slot with
    | none => w
    | some g =>
        (if o.remote then w.updGrp g fun g => { g with acks := g.acks - 1 } else w).deadEnd
          ((w.grp? g).getD Group.gone).blk (ks o.obj)) w
  (w.d.ops.filter fun e =>
    match e.kind.gpa with
    | some pa => homeOf w.d pa == .die die && e.waits && dead (objOf pa)
    | none => false).foldl (fun w e =>
      (w.dropOp e).deadEnd e.blk ((e.kind.gpa.map fun pa => ks (objOf pa)).getD [])) w

/-- OBJECT_BOARDING (R116), on a ring that is ready (R361). -/
def execObjectBoarding (die : Nat) (s : State) : Host.Outcome State Fault Refusal :=
  device s fun w =>
    let e := w.d.die die
    let unread := fun o => e.boardQ.any (fun b => b.obj == o) && w.deadAt o true
    if w.d.pkg.failPkg.getLsbD (bRING die) then w.ringDead die fun _ => true
    else if !w.d.pkg.rdyPkg.getLsbD (bRING die) then w
    else if e.boardQ.any fun b => unread b.obj then w.ringDead die unread
    else w.board die

def execIdleAlight (die slot : Nat) (s : State) : Host.Outcome State Fault Refusal := device s fun w => w.idle die slot
def execAlightWriteback (die slot : Nat) (s : State) : Host.Outcome State Fault Refusal := device s fun w => w.writeback die slot
def execCaptureTimeout (die slot : Nat) (s : State) : Host.Outcome State Fault Refusal := device s fun w => w.capTimeout die slot

end Sys2Proof.Machine
end

