-- ==== Sys2Proof/Machine/Tiles.lean ====
section
/-! DEFINITION. Tensor layout records, tiles and the granules that engines move (R82, R257 to R259). -/

namespace Sys2Proof.Machine

/-! ### Records (Table 14.1) -/

def rBASE (r : TRec) : Nat := bits r.toNat 0 57
def rReserved (r : TRec) : Nat := bits r.toNat 57 7
def rTSV (r : TRec) : Bool := bits r.toNat 64 1 == 1
def rSWZ (r : TRec) : Nat := bits r.toNat 65 2
def rTY (r : TRec) : Option Ty := decTy (bits r.toNat 67 5)
/-- Tile columns and rows. -/
def rTcols (r : TRec) : Nat := (bits r.toNat 72 8 + 1) * 32
def rTrows (r : TRec) : Nat := bits r.toNat 80 8 + 1
def rSTRIDE (r : TRec) : Nat := bits r.toNat 88 40
def rCOLS (r : TRec) : Nat := bits r.toNat 128 32
def rROWS (r : TRec) : Nat := bits r.toNat 160 32
def rSOFS (r : TRec) : Int := (BitVec.ofNat 32 (bits r.toNat 192 32)).toInt
def rTSCALE (r : TRec) : Nat := bits r.toNat 224 32

/-- The element width b of R257, for the types it lists. -/
def tileBits (t : Ty) : Option Nat :=
  match t with
  | .b32 | .f32 => some 32
  | .b16 | .f16 | .bf16 => some 16
  | .b8 | .e4m3 | .e5m2 | .mxi8 | .mxe4m3 | .mxe5m2 => some 8
  | .e3m2 | .e2m3 | .mxe3m2 | .mxe2m3 => some 6
  | .e2m1 | .mxe2m1 => some 4
  | _ => none

/-- The swizzle span (Table 4.3). -/
def swzSpan (z : Nat) : Nat := 64 * 2 ^ z

/-- SwizzleOffset (R82). -/
def swizzle (o z : Nat) : Nat :=
  if z = 0 then o
  else
    let w := z + 2
    let g := bits o 4 w ^^^ bits o (z + 6) w
    o - bits o 4 w * 16 + g * 16

/-- A record's type and element width, where the type is one R257 lists. -/
def rElem (r : TRec) : Option (Ty × Nat) := (rTY r).bind fun t => (tileBits t).map fun b => (t, b)

/-- The checks of R258. -/
def recBad (r : TRec) : Bool :=
  match rElem r with
  | none => true
  | some (t, b) =>
      let rb := rTcols r * b / 8
      rReserved r != 0 || (!rTSV r && rTSCALE r != 0) || rROWS r == 0 || rCOLS r == 0 || rBASE r % 16 != 0 ||
        rSTRIDE r % 16 != 0 || ((b == 6 || b == 4 || t.isMx) && rCOLS r % 32 != 0) || rb % 16 != 0 ||
        (rSWZ r != 0 && rb % swzSpan (rSWZ r) != 0)

/-- The fields of a checked record. -/
structure TileF where
  ty : Ty
  b : Nat
  base : Nat
  stride : Nat
  rows : Nat
  cols : Nat
  trows : Nat
  tcols : Nat
  z : Nat
  sofs : Int

def tileOf (r : TRec) : TileF :=
  let e := (rElem r).getD (.b8, 8)
  { ty := e.1, b := e.2, base := rBASE r, stride := rSTRIDE r, rows := rROWS r, cols := rCOLS r, trows := rTrows r,
    tcols := rTcols r, z := rSWZ r, sofs := rSOFS r }

/-- Tile row bytes RB. -/
def TileF.rb (f : TileF) : Nat := f.tcols * f.b / 8

/-- Bytes of a tile in scratchpad, scale codes included (R259). -/
def TileF.size (f : TileF) : Nat := f.trows * f.rb + (if f.ty.isMx then f.trows * (f.tcols / 32) else 0)

/-- Virtual addresses of byte `i` of tensor row `r` from element column `c`, and of the scale code of block `j`. -/
def TileF.rowVa (f : TileF) (r c : Nat) : Int := (f.base + r * f.stride + c * f.b / 8 : Nat)
def TileF.scaleVa (f : TileF) (r j : Nat) : Int := (f.base : Int) + f.sofs + (r * ((f.cols + 31) / 32) + j : Nat)

/-- Elements of a tile row that lie inside the tensor. -/
def TileF.inCols (f : TileF) (col n : Nat) : Nat := min n (f.cols - col)

/-! ### Translating runs of bytes (R261) -/

/-- The keys of the `n` bytes from a virtual address, one translation for each 16-byte granule; or the cause and address of
the first that fails. -/
def Work.runKeys (w : Work) (kind : XKind) : Nat → Int → Nat → Except Fail (List Nat)
  | 0, _, _ => .ok []
  | fuel + 1, va, n =>
      if n = 0 then .ok []
      else if va < 0 ∨ 2 ^ 57 ≤ va then .error { rank := 5, cause := cADDR_RANGE, addr := ofs57 va }
      else
        let a := va.toNat
        let m := min n (16 - a % 16)
        match w.translate w.dieNo a kind (!w.blk.priv) with
        | .error c => .error { rank := 7, cause := c, addr := a }
        | .ok lf => (w.runKeys kind fuel (va + m) (n - m)).map fun t => ((List.range m).map fun i => lf.pa + i) ++ t

/-- The range of the whole run comes before any translation (R188). -/
def Work.keysOf (w : Work) (kind : XKind) (va : Int) (n : Nat) : Except Fail (List Nat) :=
  if n ≠ 0 ∧ (va < 0 ∨ 2 ^ 57 < va + n) then
    .error { rank := 5, cause := cADDR_RANGE, addr := ofs57 (if va < 0 then va else max va (2 ^ 57)) }
  else w.runKeys kind (n + 1) va n

/-- Two results, the first failing one first (R188). -/
def both {α β : Type} (a : Except Fail α) (b : Except Fail β) : Except Fail (α × β) :=
  match a, b with
  | .ok x, .ok y => .ok (x, y)
  | .error f, .ok _ | .ok _, .error f => .error f
  | .error f, .error g => .error (if g.rank < f.rank then g else f)

/-- The scratchpad ranges of the `n` swizzled bytes at an offset: they fill whole spans, or granule by granule (R82). -/
def swzRanges (off n z : Nat) : List (Nat × Nat) :=
  if z = 0 ∨ (off % swzSpan z = 0 ∧ n % swzSpan z = 0) then [(off, n)]
  else (List.range (n / 16)).map fun i => (swizzle (off + 16 * i) z, 16)

/-- Those of a tile there, scale codes included. -/
def TileF.ranges (f : TileF) (off : Nat) : List (Nat × Nat) :=
  swzRanges off (f.trows * f.rb) f.z ++
    (if f.ty.isMx then [(off + f.trows * f.rb, f.trows * (f.tcols / 32))] else [])

/-- Collect results, the first failing one first (R188: a range before a translation). -/
def collect {α : Type} : List (Except Fail α) → Except Fail (List α)
  | [] => .ok []
  | .ok a :: t => (collect t).map fun l => a :: l
  | .error f :: t =>
      match collect t with
      | .ok _ => .error f
      | .error g => if g.rank < f.rank then .error g else .error f

/-! ### Sources of a tile's bytes -/

/-- `n` element bytes and the scale codes of one tile row from a tensor: zeros and 0x7F outside it. -/
def Work.tensorRow (w : Work) (f : TileF) (row col ncols : Nat) : Except Fail (List BSrc × List BSrc) :=
  let n := ncols * f.b / 8
  let inside := row < f.rows
  let inB := if inside then f.inCols col ncols * f.b / 8 else 0
  let inS := if inside && f.ty.isMx then f.inCols col ncols / 32 else 0
  (both (w.keysOf .engR (f.rowVa row col) inB) (w.keysOf .engR (f.scaleVa row (col / 32)) inS)).map fun p =>
    (p.1.map BSrc.key ++ List.replicate (n - inB) (BSrc.val 0),
      if f.ty.isMx then p.2.map BSrc.key ++ List.replicate (ncols / 32 - inS) (BSrc.val 0x7F) else [])

/-- Where the bytes of a tile of `nr` rows and `nc` columns that lie inside the tensor are to be written: by row, its element
bytes and its scale codes. -/
def Work.tileKeys (w : Work) (f : TileF) (row col nr nc : Nat) : Except Fail (List (Nat × List Nat × List Nat)) :=
  collect (((List.range nr).filter fun r => decide (row + r < f.rows)).map fun r =>
    let n := f.inCols col nc
    (both (w.keysOf .engW (f.rowVa (row + r) col) (n * f.b / 8))
      (w.keysOf .engW (f.scaleVa (row + r) (col / 32)) (if f.ty.isMx then n / 32 else 0))).map fun p => (r, p.1, p.2))

/-- The key of byte `i` of row `r` of a tile at scratchpad offset `o` (R259). -/
def TileF.spadAt (f : TileF) (blk o r i : Nat) : Nat := spadKey blk (swizzle (o + r * f.rb + i) f.z)

/-- The same from a tile in scratchpad. -/
def TileF.spadRow (f : TileF) (blk o r : Nat) : List BSrc × List BSrc :=
  ((List.range f.rb).map fun i => BSrc.key (f.spadAt blk o r i),
    if f.ty.isMx then (List.range (f.tcols / 32)).map fun j =>
      BSrc.key (spadKey blk (o + f.trows * f.rb + r * (f.tcols / 32) + j))
    else [])

/-! ### Granules (R87) -/

/-- Where a byte is to go. -/
def BDst.next (d : BDst) : BDst :=
  match d with
  | .key k => .key (k + 1)
  | .send s o => .send s (o + 1)
  | .buf => .buf

/-- Does a granule begin at this destination? -/
def BDst.starts (d : BDst) : Bool :=
  match d with
  | .key k => k % 16 == 0
  | .send _ o => o % 16 == 0
  | .buf => false

/-- Bytes with their destinations, gathered into granules of consecutive destinations. -/
def granules : List (BSrc × BDst) → List EPart
  | [] => []
  | (s, d) :: t =>
      match granules t with
      | p :: ps =>
          if p.dst = d.next ∧ !p.dst.starts ∧ p.src.length < 16 then { src := s :: p.src, dst := d, val := none } :: ps
          else { src := [s], dst := d, val := none } :: p :: ps
      | [] => [{ src := [s], dst := d, val := none }]

/-- Bytes for the engine itself, sixteen at a time. -/
def bufParts : Nat → List BSrc → List EPart
  | 0, _ => []
  | fuel + 1, l =>
      match l with
      | [] => []
      | _ :: _ => { src := l.take 16, dst := .buf, val := none } :: bufParts fuel (l.drop 16)

def bufAll (l : List BSrc) : List EPart := bufParts (l.length + 1) l

/-- The destination of a physical address. -/
def Work.dstOf (w : Work) (pa : Nat) : BDst :=
  match homeOf w.d pa with
  | .out sys ofs => .send sys ofs
  | _ => .key pa

/-! ### Issue (R261) -/

/-- The issuing thread's earlier accesses come first (R105), and acquires (R102). -/
def Work.accessesDone (w : Work) : Bool := w.fenceOk w.slot .blk && w.g.acq.isEmpty

/-- Engines by their bit of RDYENG (Table 24.1). -/
def eParterre : Nat := 0
def ePergola : Nat := 1
def eIndex : Nat := 2
def eCopy : Nat := 3
def eMatrix : Nat := 4

/-- An engine instruction of the issuing group enters now: its thread's accesses have performed, its engine, of a die, is
ready (R105, R361). -/
def Work.engineReadyAt (w : Work) (die e : Nat) : Bool := w.accessesDone && w.d.pkg.rdyEng.getLsbD (8 * die + e)

def Work.engineReady (w : Work) (e : Nat) : Bool := w.engineReadyAt w.dieNo e

/-- It waits at issue, or its engine, of a die, has failed and its block ends (R361). -/
def Work.engineFails (w : Work) (die e : Nat) : Res :=
  if w.d.pkg.failEng.getLsbD (8 * die + e) then .ok (w.memEnd w.g.blk) [] else .hold

def Work.engineWait (w : Work) (e : Nat) : Res := w.engineFails w.dieNo e

/-- In-flight operations of the block whose scratchpad writes meet a range (R108). -/
def Work.spadBusy (w : Work) (blk : Nat) (cls : Cls → Bool) (before : Nat) (o n : Nat) : Bool :=
  w.d.ops.any fun e => e.blk == blk && cls e.cls && decide (e.id < before) && e.spw.any fun r => overlap r.1 r.2 o n

def Work.spadAnyBusy (w : Work) (blk : Nat) (cls : Cls → Bool) (before : Nat) (rs : List (Nat × Nat)) : Bool :=
  rs.any fun r => w.spadBusy blk cls before r.1 r.2

def anyCls (_ : Cls) : Bool := true

/-- An operation of the issuing group. -/
def Work.newOp (w : Work) (cls : Cls) (kind : EKind) : EOp :=
  { id := w.d.nextId, cls := cls, slots := [w.slot], blk := w.g.blk, tok := none, word := 0, bo := none, parts := [],
    left := 0, waits := false, spr := [], spw := [], kind := kind, raced := [] }

/-- It enters, its token pending. -/
def Work.enter (w : Work) (e : EOp) : Work :=
  let w := (w.newId.2).addOp e
  match e.tok with
  | some t => w.pendTok t
  | none => w

/-- Copy status word (Table 14.5). -/
def copyWord (bytes zrows : Nat) (pad oor : Bool) (code : Nat) : DWord :=
  BitVec.ofNat 64 (2 ^ 32 * bytes + 2 ^ 24 * min zrows 255 + 2 ^ 17 * pad.toNat + 2 ^ 16 * oor.toNat + code)

/-- Bytes that granules write. -/
def partBytes (ps : List EPart) : Nat := (ps.map fun p => match p.dst with | .buf => 0 | _ => p.src.length).sum

/-- A scratchpad range beyond the window (R72, R263). -/
def Work.spadOver (w : Work) (o n : Nat) : Bool := decide (1024 * w.blk.spad < o + n)

/-- The barrier object of a .bo form: its offset, or its fault (R254, R262). -/
def Work.boOperand (w : Work) (o : CopyOp) (l : Nat) : Except Fail (Option Nat) :=
  if o.bo then
    match w.place .s ((w.op32 l o.c).toNat : Int) 16 .load l with
    | .error f => .error f
    | .ok _ => .ok (some (w.op32 l o.c).toNat)
  else .ok none

end Sys2Proof.Machine
end

