-- ==== Sys2Proof/Machine/Engines.lean ====
section
/-! DEFINITION. Copies, codebooks, tile records in registers, join registers' arming (R261 to R268), and how an engine
operation performs and retires (R104 to R107). -/

namespace Sys2Proof.Machine

/-! ### copy.t, copy.t.cb, copy.s (R263, R266) -/

def copySrc (o : CopyOp) : List Named :=
  o.a.names 1 ++ o.b.names 1 ++ (if o.bo then o.c.names 1 else []) ++ tNames o.tr

/-- Does some element of the tile lie outside the tensor? -/
def TileF.padded (f : TileF) (row col : Nat) : Bool := decide (f.rows < row + f.trows) || decide (f.cols < col + f.tcols)

/-- Alignment and range checks of a tile copy, with those of the object it names (R254, R263). -/
def Work.copyChecks (w : Work) (o : CopyOp) (l : Nat) (mis past : Bool) : Except Fail (Option Nat) :=
  let off := o.ext.toNat
  match w.boOperand o l with
  | .ok b =>
      if mis then .error { rank := 4, cause := cMISALIGN, addr := 0 }
      else if off % 16 != 0 then .error { rank := 4, cause := cMISALIGN, addr := off }
      else if past then .error { rank := 5, cause := cSPAD_RANGE, addr := off }
      else .ok b
  | .error f =>
      if mis then .error { rank := 4, cause := cMISALIGN, addr := 0 }
      else if off % 16 != 0 then .error { rank := 4, cause := cMISALIGN, addr := off }
      else if f.cause = cMISALIGN then .error f
      else if past then .error { rank := 5, cause := cSPAD_RANGE, addr := off }
      else .error f

/-- An element byte of an index tile becomes the bytes of its vector (R266). -/
def cbBytes (n : Nat) : BSrc → List BSrc
  | .key k => (List.range n).map fun i => .cb k i
  | _ => List.replicate n (.val 0)

/-- In-flight codebook loads of the issuing block. -/
def Work.cbLoading (w : Work) (blk : Nat) : Bool :=
  w.d.ops.any fun e => e.blk == blk && (match e.kind with | .codebook _ => true | _ => false)

/-- The granules of a tile that lands at a scratchpad offset: rows of `rb` bytes, each element byte read through a codebook of
vectors of `nv` bytes where one is given, then the scale codes of all rows. -/
def TileF.parts (f : TileF) (blk off rb : Nat) (nv : Option Nat) (rows : List (List BSrc × List BSrc)) : List EPart :=
  (((List.range f.trows).zip rows).flatMap fun p =>
    let el := match nv with | some n => p.2.1.flatMap (cbBytes n) | none => p.2.1
    granules ((el.zip (List.range rb)).map fun q => (q.1, .key (spadKey blk (swizzle (off + p.1 * rb + q.2) f.z))))) ++
    granules (((rows.flatMap Prod.snd).zip (List.range (f.trows * (f.tcols / 32)))).map fun q =>
      (q.1, .key (spadKey blk (off + f.trows * f.rb + q.2))))

def copyTile (s : State) (h : Hdr) (o : CopyOp) (book : Bool) : Host.Outcome State Fault Refusal :=
  issue s h (copySrc o) [.s o.tk.toNat] fun w x =>
    let l := x.headD 0
    let f := tileOf (w.g.readT o.tr.toNat)
    let row := (w.op32 l o.a).toNat
    let col := (w.op32 l o.b).toNat
    let off := o.ext.toNat
    let blk := w.g.blk
    if recBad (w.g.readT o.tr.toNat) || (book && f.ty != .b8) then .trap cTREC_BAD 0
    else if book && w.cbLoading blk then .hold
    else
      let cb := w.blk.cb.getD { addr := 0, entries := 0, vec := 0, data := [] }
      let nv := 4 * 2 ^ cb.vec
      let rb := if book then f.tcols * nv else f.rb
      if book && w.blk.cb.isSome && f.z != 0 && rb % swzSpan f.z != 0 then .trap cTREC_BAD 0
      else
        let size := if book then f.trows * rb else f.size
        match w.copyChecks o l (col % 32 != 0) (w.spadOver off size) with
        | .error e => .trap e.cause e.addr
        | .ok bo =>
            if book && w.blk.cb.isNone then .trap cCB_NONE 0
            else
              match collect ((List.range f.trows).map fun r => w.tensorRow f (row + r) col f.tcols) with
              | .error e => .xlate e.cause e.addr
              | .ok rows =>
                  if !w.engineReady eCopy then w.engineWait eCopy
                  else
                    let parts := f.parts blk off rb (if book then some nv else none) rows
                    .ok (w.enter { w.newOp .copy (.copy (if book then some cb else none)) with
                      tok := some o.tk.toNat, bo := bo, parts := parts
                      spw := if book then swzRanges off size f.z else f.ranges off
                      word := copyWord (partBytes parts) 0 (f.padded row col) false 0 }) []

def execCopyT (h : Hdr) (o : CopyOp) (s : State) := copyTile s h o false
def execCopyTCb (h : Hdr) (o : CopyOp) (s : State) := copyTile s h o true

/-- A tile's bytes from scratchpad to the tensor, row by row, inside elements and blocks only. -/
def Work.storeRows (w : Work) (f : TileF) (row col off : Nat) : Except Fail (List EPart) :=
  (w.tileKeys f row col f.trows f.tcols).map fun rs =>
    (rs.flatMap fun r => granules ((r.2.1.zip (List.range r.2.1.length)).map fun q =>
      (.key (f.spadAt w.g.blk off r.1 q.2), w.dstOf q.1))) ++
    granules (rs.flatMap fun r => (r.2.2.zip (List.range r.2.2.length)).map fun q =>
      (.key (spadKey w.g.blk (off + f.trows * f.rb + r.1 * (f.tcols / 32) + q.2)), w.dstOf q.1))

def execCopyS (h : Hdr) (o : CopyOp) (s : State) : Host.Outcome State Fault Refusal :=
  issue s h (copySrc o) [.s o.tk.toNat] fun w x =>
    let l := x.headD 0
    let f := tileOf (w.g.readT o.tr.toNat)
    let row := (w.op32 l o.a).toNat
    let col := (w.op32 l o.b).toNat
    let off := o.ext.toNat
    if recBad (w.g.readT o.tr.toNat) then .trap cTREC_BAD 0
    else
      match w.copyChecks o l (col % 32 != 0) (w.spadOver off f.size) with
      | .error e => .trap e.cause e.addr
      | .ok bo =>
          match if (w.notHelper x).isEmpty then .ok [] else w.storeRows f row col off with
          | .error e => .xlate e.cause e.addr
          | .ok ps =>
              if !w.engineReady eCopy || w.spadAnyBusy w.g.blk (· == .mtx) w.d.nextId (f.ranges off) then w.engineWait eCopy
              else
                .ok (w.enter { w.newOp .copy (.copy none) with
                  tok := some o.tk.toNat, bo := bo, parts := ps
                  word := copyWord (partBytes ps) 0 (f.padded row col) false 0 }) []

/-! ### copy.g (R264) -/

/-- The row length RG, where the record allows one (R264). -/
def TileF.rg (f : TileF) : Option Nat :=
  let n := f.cols * f.b / 8
  if f.cols * f.b % 128 = 0 ∧ n ≤ 65536 then some n else none

/-- A row's bytes for a gather: the row, or zeros beyond the tensor. -/
def Work.gatherRow (w : Work) (f : TileF) (rg x : Nat) : Except Fail (List BSrc) :=
  if x < f.rows then (w.keysOf .engR (f.rowVa x 0) rg).map fun ks => ks.map BSrc.key
  else .ok (List.replicate rg (.val 0))

/-- Rows placed one behind the other at a scratchpad offset, swizzled. -/
def rowParts (blk off rg z : Nat) (rows : List (List BSrc)) : List EPart :=
  ((List.range rows.length).zip rows).flatMap fun p =>
    granules ((p.2.zip (List.range rg)).map fun q => (q.1, .key (spadKey blk (swizzle (off + p.1 * rg + q.2) z))))

def execCopyG (h : Hdr) (o : CopyOp) (s : State) : Host.Outcome State Fault Refusal :=
  issue s h (copySrc o) [.s o.tk.toNat] fun w x =>
    let l := x.headD 0
    let f := tileOf (w.g.readT o.tr.toNat)
    let lst := (w.op32 l o.a).toNat
    let n := (w.op32 l o.b).toNat
    let off := o.ext.toNat
    if n = 0 ∨ 8 < n then .trap cILLEGAL 0
    else if recBad (w.g.readT o.tr.toNat) then .trap cTREC_BAD 0
    else
      match f.rg with
      | none => .trap cTREC_BAD 0
      | some rg =>
          if lst % 4 != 0 then .trap cMISALIGN lst
          else
            match w.copyChecks o l false (w.spadOver lst (4 * n) || w.spadOver off (n * rg)) with
            | .error e => .trap e.cause (if e.cause = cSPAD_RANGE ∧ w.spadOver lst (4 * n) then lst else e.addr)
            | .ok bo =>
                if !w.accessesDone || w.spadBusy w.g.blk (· == .mtx) w.d.nextId lst (4 * n) then .hold
                else
                let idx := (List.range n).map fun j => w.load (spadKey w.g.blk (lst + 4 * j)) 4
                match collect (idx.map fun i => w.gatherRow f rg i) with
                | .error e => .xlate e.cause e.addr
                | .ok rows =>
                    if !w.engineReady eCopy then w.engineWait eCopy
                    else
                      let out := (idx.filter fun i => decide (f.rows ≤ i)).length
                      let ps := rowParts w.g.blk off rg f.z rows
                      .ok (w.enter { w.newOp .copy (.copy none) with
                        tok := some o.tk.toNat, bo := bo, parts := ps, spw := swzRanges off (n * rg) f.z
                        word := copyWord (partBytes ps) out false (decide (0 < out)) 0 }) []

/-! ### Codebooks (R265) -/

/-- Blocks of a core that hold a codebook or are loading one. -/
def Work.cbBlocks (w : Work) (core : Nat) : List Nat :=
  ((w.d.blocks.filter fun e => slotCore e.1 == core && (e.2.cb.isSome || w.cbLoading e.1)).map (·.1)).eraseDups

def execCbload (h : Hdr) (vec : BitVec 3) (tk : BitVec 6) (a n : Opnd) (s : State) : Host.Outcome State Fault Refusal :=
  issue s h (a.names 2 ++ n.names 1) [.s tk.toNat] fun w x =>
    let l := x.headD 0
    let va := (w.op64 l a).toNat
    let e := (w.op32 l n).toNat
    let bytes := 4 * 2 ^ vec.toNat * e
    if e = 0 ∨ 256 < e then .trap cILLEGAL 0
    else if va % 16 != 0 then .trap cMISALIGN (va % 2 ^ 57)
    else
      match w.keysOf .engR va bytes with
      | .error f => .xlate f.cause f.addr
      | .ok ks =>
          if !w.engineReady eCopy then w.engineWait eCopy
          else
            let full := !(w.cbBlocks w.coreNo).contains w.g.blk && decide (4 ≤ (w.cbBlocks w.coreNo).length)
            let op := w.newOp .copy (if full then .plain else
              .codebook { addr := BitVec.ofNat 57 va, entries := e, vec := vec.toNat, data := [] })
            .ok (w.enter { op with
              tok := some tk.toNat
              parts := if full then [] else bufAll (ks.map BSrc.key)
              word := if full then copyWord 0 0 false false 0x130 else copyWord bytes 0 false false 0 }) []

/-- cbfree waits for the copy.t.cb of the block issued before it. -/
def execCbfree (h : Hdr) (s : State) : Host.Outcome State Fault Refusal :=
  issue s h [] [] fun w _ =>
    if w.d.ops.any fun e => e.blk == w.g.blk && (match e.kind with | .copy (some _) => true | .codebook _ => true | _ => false) then
      .hold
    else .ok (w.updB fun b => { b with cb := none }) []

/-! ### tload, tset (R267) -/

/-- A result is owed to half `hf` of a T register, once for the group, with a window in every issuing lane. -/
def Work.oweT (w : Work) (h : Hdr) (t hf : Nat) (pay : Payload) : Work :=
  let r := w.newId
  r.2.updG fun g =>
    { g with owed := g.owed ++ [{ id := r.1, wins := w.d.cur.lanes.map fun l => (l, h.window), dst := [.t t hf], pay := pay }] }

def execTload (h : Hdr) (t : BitVec 4) (shared : Bool) (a : Opnd) (disp : Word) (s : State) :
    Host.Outcome State Fault Refusal :=
  issue s h (a.names (if shared then 1 else 2)) (tNames t) fun w x =>
    let l := x.headD 0
    let ea : Int := if shared then ((w.op32 l a).toNat : Int) + disp.toInt else w.extEa a disp l
    if !w.g.acq.isEmpty then .hold
    else
      let place := w.place (if shared then .s else .g) ea 32 .load l
      match if (w.g.thread l).helper then none else firstFail [place] with
      | some f => .xlate f.cause f.addr
      | none =>
          .ok ([0, 1].foldl (fun v hf =>
            let pay : Payload :=
              match place with
              | .error _ => .ready (valWords false 16 .zero 0)
              | .ok (.glob lf) =>
                  .load { lane := l, va := BitVec.ofNat 57 (ea.toNat + 16 * hf), pa := lf.pa + 16 * hf, n := 16, loc := false,
                          more := [], ro := !lf.wr, ext := .zero,
                          cst := false, cached := true, strong := false, acq := false, scope := .blk, lease := lf.lease,
                          wide := false, instr := BitVec.ofNat 128 w.d.cur.word, lanes := maskOf x, iss := w.stamp false
                          passed := none }
              | .ok p => .ready (valWords false 16 .zero (w.load (placeKey p + 16 * hf) 16))
            v.oweT h t.toNat hf pay) w) []

def execTset (h : Hdr) (t m : BitVec 4) (q : BitVec 2) (a : Opnd) (s : State) : Host.Outcome State Fault Refusal :=
  issue s h (a.names 2 ++ tNames m) (tNames t) fun w x =>
    let old := (w.g.readT m.toNat).toNat
    let v := (w.op64 (x.headD 0) a).toNat
    let sh := 64 * q.toNat
    let new := old - bits old sh 64 * 2 ^ sh + v * 2 ^ sh
    .ok ([0, 1].foldl (fun w hf => w.oweT h t.toNat hf (.ready (valWords false 16 .zero (new / 2 ^ (128 * hf) % 2 ^ 128)))) w) []

/-! ### j.arm (R268) -/

/-- Threads of the groups that a mask names, not exited: `32·g + l`. -/
def Work.declaredOf (w : Work) (blk mask : Nat) : List Nat :=
  match w.blk? blk with
  | none => []
  | some b => (List.range b.gcnt).flatMap fun i =>
      if mask.testBit i then (((w.grp? (blk + i)).getD Group.gone).live).map fun l => 32 * i + l else []

def execJArm (h : Hdr) (j : BitVec 3) (mask : Opnd) (s : State) : Host.Outcome State Fault Refusal :=
  issue s h (mask.names 1) [] fun w x =>
    let jr := sget w.blk.joins j.toNat Join.idle
    match jr.st with
    | .armed => .trap cJ_BUSY 0
    | .issued => .hold
    | .idle =>
        let ds := w.declaredOf w.g.blk (w.groupVal x mask)
        .ok (w.updB fun b =>
          if ds.isEmpty then b
          else { b with joins := sset b.joins j.toNat { declared := ds, signed := [], word := 0, st := .armed } }) []

/-! ### ENGINE_WRITE_PERFORM (R87, R105, R107) -/

/-- A source once the byte at its key has been read; for a codebook vector, whether its index is out of range is told of its
first byte. -/
def BSrc.take (cb : Codebook) (b : Byte) : BSrc → BSrc
  | .key k => .got k b
  | .cb k i => .got k (if b.toNat < cb.entries then cb.data.getD (4 * 2 ^ cb.vec * b.toNat + i) 0 else 0)
  | s => s

def BSrc.out (cb : Codebook) (b : Byte) : BSrc → Nat
  | .cb _ 0 => if cb.entries ≤ b.toNat then 1 else 0
  | _ => 0

/-- The key that a source has still to read, and the byte of one that has none. -/
def BSrc.key? : BSrc → Option Nat
  | .key k | .cb k _ => some k
  | .val _ | .got _ _ => none

def BSrc.byte : BSrc → Byte
  | .val b | .got _ b => b
  | .key _ | .cb _ _ => 0

/-- May an operation read the byte at a key now: a riding object at the gate (R117), scratchpad when no older operation in
flight writes it (R108)? -/
def Work.readOk (w : Work) (e : EOp) (k : Nat) : Bool :=
  if k < 2 ^ 57 then w.gateNow k && !w.lateBefore [(k, 1)] false (w.agentOf (e.slots.headD 0)) none e.id none else e.cls != .mtx || !w.spadBusy e.blk anyCls e.id (k % 2 ^ 19) 1

def EOp.book (e : EOp) : Codebook :=
  match e.kind with
  | .copy (some c) => c
  | _ => { addr := 0, entries := 0, vec := 0, data := [] }

/-- Out-of-range indices are counted in the status word (Table 14.5). -/
def addZrows (x : DWord) (n : Nat) : DWord :=
  if n = 0 then x
  else
    let z := min 255 (bits x.toNat 24 8 + n)
    BitVec.ofNat 64 (x.toNat - bits x.toNat 24 8 * 2 ^ 24 - bits x.toNat 16 1 * 2 ^ 16 + z * 2 ^ 24 + 2 ^ 16)

/-- The addresses at which a granule is still to read. -/
def EPart.reads (p : EPart) : List Nat :=
  if p.val.isNone then (p.src.filterMap BSrc.key?).filter fun k => decide (k < 2 ^ 57) else []

/-- Does a granule meet a failed home, or read a poisoned line? -/
def Work.partDead (w : Work) (p : EPart) : Bool :=
  (p.reads.any fun k => w.deadAt k true) ||
    (p.val.isSome && match p.dst with | .key d => decide (d < 2 ^ 57) && homeFailed w.d d | _ => false)

/-- A granule's sources that name a byte that has been read: all of them in the granule for which it was read; elsewhere those
that name it as an index, since an index is read once for the whole of its vector (R266). -/
def EPart.learn (e : EOp) (at_ : Nat → Option Byte) (own : Bool) (p : EPart) : EPart :=
  let get := fun (b : BSrc) => (b.key?.bind at_).filter fun _ => own || match b with | .cb _ _ => true | _ => false
  let src := p.src.map fun b => ((get b).map fun x => b.take e.book x).getD b
  if p.val.isSome then p
  else { p with src := src, val := if src.all (fun b => b.key?.isNone) then some (src.map BSrc.byte) else none }

/-- Indices out of range among the bytes that have been read. -/
def EPart.outs (e : EOp) (at_ : Nat → Option Byte) (p : EPart) : Nat :=
  (p.src.map fun b => ((b.key?.bind at_).map fun x => b.out e.book x).getD 0).sum

/-- Granule `k` of an operation reads the bytes that it may read now; the sources of one home read race pending writes
together (R89), for which its own writes then wait. -/
def Work.readPart (w : Work) (e : EOp) (k : Nat) (p : EPart) : Work :=
  let ks := (p.src.filterMap BSrc.key?).eraseDups.filter (w.readOk e)
  let r := w.raceSeen ks
  let at_ := fun a => ((ks.zip r.1).find? fun q => q.1 == a).map (·.2)
  let w := ks.foldl (fun w a => if a < 2 ^ 57 then w.homeTouch a else w) r.2.2
  w.updOp e.id fun e =>
    { e with parts := ((List.range e.parts.length).zip e.parts).map fun q => q.2.learn e at_ (q.1 == k)
             word := addZrows e.word ((e.parts.map (EPart.outs e at_)).sum)
             raced := e.raced ++ r.2.1.map fun q => q.2.id }

/-- Records that a commit of the object has published are still to be zeroed: that comes before later claims of their places are
written, and before a later commit (R140). -/
def Work.zeroing (w : Work) (gpa : Nat) : Bool :=
  w.d.ops.any fun o => !o.waits && !o.parts.isEmpty && match o.kind with
    | .collCommit c _ _ => c.gpa == gpa
    | _ => false

/-- Its writes perform before its last step: the chunks of a commit (R140), what a builder command writes (R154). -/
def EOp.early (e : EOp) : Bool :=
  match e.kind with
  | .collCommit _ _ (some _) | .pgBuild _ _ true _ => true
  | _ => false

/-- A granule of a pool or an arena is as its engine wrote it. -/
def Work.making (w : Work) (on : Bool) (d : Nat) : Work :=
  if on then w.updPkg fun p => { p with made := sset p.made (d / 16) true } else w

/-- Granule `k` of an operation: its bytes are read; once they are, it performs. -/
def Work.movePart (w : Work) (e : EOp) (k : Nat) (p : EPart) : Work :=
  match p.val with
  | none => w.readPart e k p
  | some bs =>
      match p.dst with
      | .buf => w
      | .key d =>
          let behind := match e.kind with | .collStage _ c _ => w.zeroing c.gpa | _ => false
          if !e.raced.isEmpty || behind then w
          else if 2 ^ 57 ≤ d then
            ((w.spadWrite d bs.length (bytesNat bs)).updOp e.id fun e => { e with parts := e.parts.eraseIdx k }).boLower e.blk e.bo bs.length
          else if w.leaseFree d && w.gateNow d then
            (((w.homeWrite d bs.length (bytesNat bs)).making (e.waits && e.early) d).updOp e.id fun e =>
              { e with parts := e.parts.eraseIdx k }).boLower e.blk e.bo bs.length
          else w
      | .send sys ofs =>
          (w.updPkg fun q => { q with sends := q.sends ++
            [{ op := e.id, slot := e.slots.headD 0, sys := sys, ofs := ofs, data := bs, fenced := false }] }).updOp e.id fun e =>
            { e with parts := e.parts.eraseIdx k, left := e.left + 1 }

/-- The 16 bytes of a pixel after a fragment, and whether its key was below the stored one. -/
def blend (px : Nat) (f : Frag) : Nat × Bool :=
  let h := fun i => fF16.decode (bits px (16 * i) 16)
  let t := h 3
  let al := fF32.decode (f.col.getD 3 0)
  let a := if al.isNan then .fin false 0 0 else if al.lt false (.fin false 0 0) then .fin false 0 0
    else if (FVal.fin false 1 0).lt false al then .fin false 1 0 else al
  let out := fun v => fF16.encode (fF16.round .rne 0 v)
  let col := fun i => out (fsum [h i, (t.mul a).mul (fF32.decode (f.col.getD i 0))] false)
  let key := bits px 64 32
  let cnt := bits px 96 32
  (col 0 + 2 ^ 16 * col 1 + 2 ^ 32 * col 2 + 2 ^ 48 * out (t.mul (fsum [.fin false 1 0, a.neg] false)) + 2 ^ 64 * f.key +
    2 ^ 96 * ((cnt + 1) % 2 ^ 32), decide (0 < cnt) && decide (f.key < key))

/-- Fragment `k` of a comp performs, behind earlier fragments of its group to the same pixel (R302), a store at .die: its
completion revolution enters HORIZON (R93, R109). -/
def Work.moveFrag (w : Work) (e : EOp) (fs : List Frag) (k : Nat) : Work :=
  match fs[k]? with
  | none => w
  | some f =>
      let before := (fs.take k).any (fun g => g.pa == f.pa) || w.d.ops.any fun o =>
        decide (o.id < e.id) && o.slots == e.slots &&
          (match o.kind with | .comp gs => gs.any fun g => g.pa == f.pa | _ => false)
      if before || !w.leaseFree f.pa || !w.gateNow f.pa then w
      else
        let r := blend (w.homeRead f.pa 16) f
        let w := w.homeWrite f.pa 16 r.1
        let w :=
          if homeOf w.d f.pa = .die (slotDie (e.slots.headD 0)) then
            w.updGrp (e.slots.headD 0) fun g => { g with horizon := max g.horizon (homeCount w.d.now) }
          else w
        w.updOp e.id fun e =>
          { e with left := e.left - 1, kind := .comp (fs.eraseIdx k)
                   word := if r.2 then e.word ||| (1#64 <<< 16) else e.word }

def execEngineWritePerform (op k : Nat) (s : State) : Host.Outcome State Fault Refusal :=
  device s fun w =>
    match w.op? op with
    | none => w
    | some e =>
        match e.kind with
        | .comp fs =>
            if (fs[k]?).any fun f => w.deadAt f.pa true then (w.dropOp e).deadEnd e.blk ((fs[k]?).toList.map fun f => f.pa) else w.moveFrag e fs k
        | _ =>
            match e.parts[k]? with
            | none => w
            | some p =>
                if w.partDead p then (w.dropOp e).deadEnd e.blk p.reads
                else if e.waits && p.dst != .buf && !e.early then w else w.movePart e k p

/-! ### ENGINE_RETIRE (R104, R106) -/

/-- An operation's granules have all performed, or been read. -/
def EOp.finished (e : EOp) : Bool :=
  !e.waits && e.left == 0 && e.raced.isEmpty && e.parts.all fun p => p.dst == .buf && p.val.isSome

/-- Earlier operations of the class from one of its groups are outstanding. -/
def Work.olderOps (w : Work) (e : EOp) : Bool :=
  w.d.ops.any fun o => o.cls == e.cls && decide (o.id < e.id) && o.slots.any e.slots.contains

/-- The bytes that an operation has read for itself. -/
def EOp.data (e : EOp) : List Byte := e.parts.flatMap fun p => p.val.getD []

/-- What retirement does besides counter and token. -/
def Work.retireKind (w : Work) (e : EOp) : Work :=
  match e.kind with
  | .codebook cb => w.updBlk e.blk fun b =>
      { b with cb := some { cb with data := e.data }, cbRec := cb.addr.toNat + 2 ^ 64 * (cb.entries - 1) + 2 ^ 72 * cb.vec }
  | .mma _ _ _ _ _ _ j => w.updBlk e.blk fun b => { b with joins := sset b.joins j Join.idle }
  | .trace _ p _ (some i) => w.pinOp (e.slots.headD 0) p.gpa i false
  | _ => w

/-- Is the page of an address not ring-eligible? One that no entry maps is not (DESIGN CHOICE, assumption 77); one in
migration or away may be, and its permissions play no part. -/
def Work.notEligible (w : Work) (die va : Nat) : Bool :=
  let root := (w.d.die die).root
  if root = 0 then true
  else
    match walk w va 4 0 root with
    | .ok r => !eBit r.1 7
    | .error c => !isService c

/-- What stops the walk for the GOBJ of a descriptor that a coll.open has read, whose other fields are good: 0, or that it waits, or
reads what cannot be read (R84, R361). -/
def Work.gobjWalk (w : Work) (e : EOp) : Nat :=
  let x := bytesNat e.data
  let root := (w.d.die (slotDie (e.slots.headD 0))).root
  match e.kind with
  | .collOpen _ _ _ =>
      if collDescBad x || root == 0 then 0
      else (match walk w (cGOBJ x) 4 0 root with
        | .error c => if c = cWALKWAIT ∨ c = cWALKDEAD then c else 0
        | .ok _ => 0)
  | _ => 0

/-- Does a descriptor fail R133? -/
def Work.descFails (w : Work) (e : EOp) (x : Nat) : Bool :=
  collDescBad x || w.notEligible (slotDie (e.slots.headD 0)) (cGOBJ x)

/-- coll.open: the handle, or COLL_BADDESC and no result (R281). -/
def Work.openDone (w : Work) (e : EOp) : Work × EOp :=
  match e.kind with
  | .collOpen va lo hi =>
      let slot := e.slots.headD 0
      let x := bytesNat e.data
      if w.descFails e x then
        (w.updGrp slot fun g => { g with owed := g.owed.filter fun o => o.id != lo && o.id != hi }, { e with word := 0x110 })
      else
        let half := fun hf => valWords false 16 .zero (handleOf va x / 2 ^ (128 * hf) % 2 ^ 128)
        ((w.deliver slot (some lo) (half 0)).deliver slot (some hi) (half 1), e)
  | _ => (w, e)

end Sys2Proof.Machine
end

