-- ==== Sys2Proof/Machine/Collections.lean ====
section
/-! DEFINITION. Parterre collections: chunk images and directories (R130 to R137), staging, commits, iterators, counts and
reclamation (R138 to R145, R281 to R288). -/

namespace Sys2Proof.Machine

/-! ### Codes (Table 22.7) -/

def kBADDESC : Nat := 0x110
def kRANGE : Nat := 0x111
def kBUSY : Nat := 0x112
def kSTAGEFULL : Nat := 0x113
def kPINNED : Nat := 0x114
def kFULL : Nat := 0x115
def kEND : Nat := 0x116

/-! ### Reading a descriptor -/

/-- The descriptor's 64 bytes, read as a load on a die; it may race a pending write (R89). -/
def Work.collDesc (w : Work) (die : Nat) (user : Bool) (va : Nat) : Except (Nat × Nat) Nat :=
  match w.translate die va .load user with
  | .error c => .error (c, va)
  | .ok lf => .ok (bytesNat (w.engineBytes lf.pa 64))

/-- The collection of a descriptor, its generation object translated. -/
def Work.collAt (w : Work) (die : Nat) (user : Bool) (va : Nat) : Except (Nat × Nat) CDesc :=
  match w.collDesc die user va with
  | .error e => .error e
  | .ok x =>
      match w.translate die (cGOBJ x) .ring user with
      | .error c => .error (c, cGOBJ x)
      | .ok lf =>
          .ok { desc := va, gobj := cGOBJ x, gpa := lf.pa, w := cW x, f := cF x, k := cK x, pw := cPW x, stg := cSTG x,
                scap := cSCAP x, pool := cPOOL x, pcap := cPCAP x, stgPages := [], poolPages := [] }

/-! ### Elements and chunk images (R130, R131, R134, R135) -/

/-- An element: key, offset, payload. -/
abbrev CElem := Nat × Nat × Nat

/-- The canonical order. -/
def elemLe (a b : CElem) : Bool :=
  decide (a.1 < b.1) || (a.1 == b.1 && (decide (a.2.1 < b.2.1) || (a.2.1 == b.2.1 && decide (a.2.2 ≤ b.2.2))))

/-- Insertion into a sorted list. -/
def elemIns (e : CElem) : List CElem → List CElem
  | [] => [e]
  | a :: t => if elemLe e a then e :: a :: t else a :: elemIns e t

/-- The one-bits from bit `b` on. -/
def onesFrom (x : Nat) : Nat → Nat → Nat
  | 0, _ => 0
  | f + 1, b => if x.testBit b then onesFrom x f (b + 1) + 1 else 0

/-- The entry at bit `b` of a chunk, behind `ent` entries of which the last has the key `key`: key, offset, and the bit
behind it. -/
def entryAt (c : CDesc) (x ent key b : Nat) : Nat × Nat × Nat :=
  if ent = 0 then (bits x 16 48, bits x 64 c.f, 64 + c.f)
  else
    let q := onesFrom x (4096 - b) b
    let o := b + q + 1 + c.k
    (key + q * 2 ^ c.k + bits x (b + q + 1) c.k, bits x o c.f, o + c.f)

/-- The `left` entries of a chunk and its payload chunk from a position. -/
def chunkElems (c : CDesc) (x p : Nat) : Nat → Nat → Nat → Nat → List CElem
  | 0, _, _, _ => []
  | left + 1, ent, key, b =>
      let r := entryAt c x ent key b
      (r.1, r.2.1, bits p (c.pw * ent) c.pw) :: chunkElems c x p left (ent + 1) r.1 r.2.2

/-- A chunk while it is packed: its first key, its bits from 64 on, the next free bit, its entries, its last key, its payload
chunk. -/
structure Pack where
  key : Nat
  x : Nat
  b : Nat
  n : Nat
  last : Nat
  pay : Nat

/-- The data chunk's 4,096 bits. -/
def Pack.image (p : Pack) : Nat := p.n + 2 ^ 16 * p.key + p.x

def Pack.first (c : CDesc) (e : CElem) : Pack :=
  { key := e.1, x := e.2.1 * 2 ^ 64, b := 64 + c.f, n := 1, last := e.1, pay := e.2.2 }

/-- An element joins a chunk where it fits (R135). -/
def Pack.add (c : CDesc) (p : Pack) (e : CElem) : Option Pack :=
  let g := e.1 - p.last
  let q := g / 2 ^ c.k
  let len := q + 1 + c.k + c.f
  if 4096 < p.b + len ∨ 4096 < c.pw * (p.n + 1) then none
  else
    let code := 2 ^ q - 1 + g % 2 ^ c.k * 2 ^ (q + 1) + e.2.1 * 2 ^ (q + 1 + c.k)
    some { p with x := p.x + code * 2 ^ p.b, b := p.b + len, n := p.n + 1, last := e.1, pay := p.pay + e.2.2 * 2 ^ (c.pw * p.n) }

/-- Greedy packing in canonical order; the open chunk is the argument. -/
def packFrom (c : CDesc) (p : Pack) : List CElem → List Pack
  | [] => [p]
  | e :: t =>
      match p.add c e with
      | some q => packFrom c q t
      | none => p :: packFrom c (Pack.first c e) t

def packAll (c : CDesc) : List CElem → List Pack
  | [] => []
  | e :: t => packFrom c (Pack.first c e) t

/-! ### The pool and directories (R137) -/

/-- Reads of the pool: `n` bytes at a virtual address; undefined once a program has written there (R137). -/
def Work.poolRead (w : Work) (c : CDesc) (va n : Nat) : Nat :=
  let pa := pageAt c.poolPages c.pool va
  bytesNat (if w.spoilt c.poolPages c.pool (512 * c.pcap) then (List.range n).map fun i => Config.spoilt w.d.tick (pa + i)
    else w.engineBytes pa n)

def Work.chunk (w : Work) (c : CDesc) (i : Nat) : Nat := w.poolRead c (c.pool + 512 * i) 512

/-- The payload chunk of an entry, where there is one. -/
def Work.payChunk (w : Work) (c : CDesc) (e : Nat) : Nat := if c.pw = 0 then 0 else w.chunk c (bits e 96 32)

/-- Entries of a directory: chunk count and one entry. -/
def Work.dirCount (w : Work) (c : CDesc) (dir : Nat) : Nat := if dir = 0 then 0 else bits (w.poolRead c dir 16) 0 32
def Work.dirEntry (w : Work) (c : CDesc) (dir i : Nat) : Nat := w.poolRead c (dir + 16 * (i + 1)) 16

def Work.dirAll (w : Work) (c : CDesc) (dir : Nat) : List Nat := (List.range (w.dirCount c dir)).map (w.dirEntry c dir)

/-- Elements of a directory's generation in canonical order. -/
def Work.elems (w : Work) (c : CDesc) (dir : Nat) : List CElem :=
  (w.dirAll c dir).flatMap fun e =>
    let x := w.chunk c (bits e 64 32)
    chunkElems c x (w.payChunk c e) (bits x 0 16) 0 0 16

/-- Chunks that a directory of `n` chunks occupies. -/
def dirChunks (n : Nat) : Nat := if n = 0 then 0 else ((n + 1) * 16 + 511) / 512

/-- Every chunk that a generation occupies. -/
def Work.chunksOf (w : Work) (c : CDesc) (dir : Nat) : List Nat :=
  if dir = 0 then []
  else
    ((List.range (dirChunks (w.dirCount c dir))).map fun i => (dir - c.pool) / 512 + i) ++
      (w.dirAll c dir).flatMap fun e => bits e 64 32 :: (if c.pw = 0 then [] else [bits e 96 32])

/-! ### Commits (R140) -/

/-- Records as elements, insertions and removals. -/
def recElem (r : Nat) : CElem := (bits r 32 48, bits r 80 24, bits r 0 32)
def recOp (r : Nat) : Nat := bits r 104 2

def Work.stageKey (c : CDesc) (i : Nat) : Nat := pageAt c.stgPages c.stg (c.stg + 16 * i)

/-- mult(v) copies of every value, and the removals that found none. -/
def commitSet (cur ins rem : List CElem) : List CElem × Nat :=
  let vs := ((cur ++ ins ++ rem).eraseDups).foldr elemIns []
  (vs.flatMap fun v => List.replicate (cur.count v + ins.count v - rem.count v) v,
    (vs.map fun v => rem.count v - cur.count v - ins.count v).sum)

/-- The `k`-th of the free choices among a list. -/
def choose (k : Nat) : List Nat → Option Nat
  | [] => none
  | h :: t => some ((h :: t).getD (Config.poolChoice k % (t.length + 1)) h)

/-- A chunk of the new generation: data and payload chunk, and whether they are shared. -/
structure Placed where
  p : Pack
  ch : Nat
  pch : Nat
  shared : Bool

/-- Chunks are shared with the current generation where one of its pairs, not yet shared, has the same images; the others
take free chunks of the pool. -/
def placeChunks (c : CDesc) (free : List Nat) (k : Nat) (share : List (Nat × Nat × Nat × Nat)) :
    List Pack → Option (List Placed)
  | [] => some []
  | p :: t =>
      match share.find? fun s => s.1 == p.image && s.2.1 == p.pay with
      | some s =>
          (placeChunks c free k (share.erase s) t).map fun l => { p := p, ch := s.2.2.1, pch := s.2.2.2, shared := true } :: l
      | none =>
          match choose k free with
          | none => none
          | some a =>
              if c.pw = 0 then
                (placeChunks c (free.erase a) (k + 1) share t).map fun l =>
                  { p := p, ch := a, pch := 0xFFFFFFFF, shared := false } :: l
              else
                match choose (k + 1) (free.erase a) with
                | none => none
                | some b =>
                    (placeChunks c ((free.erase a).erase b) (k + 2) share t).map fun l =>
                      { p := p, ch := a, pch := b, shared := false } :: l

def dirBits (l : List Placed) : Nat :=
  (((List.range l.length).zip l).map fun q =>
    2 ^ (128 * (q.1 + 1)) * (q.2.p.key + 2 ^ 48 * q.2.p.n + 2 ^ 64 * q.2.ch + 2 ^ 96 * q.2.pch)).sum + l.length

/-- What a commit that succeeds does: chunks to write, the object's new GEN, BUSY, DIR and COUNT, the status word and the chunks
of the generation. -/
structure Publish where
  writes : List (Nat × Nat)
  data : Nat
  word : Nat
  chunks : List Nat
  deriving DecidableEq, Repr

/-- A commit of `n` records on the object's payload: a publication, or its code. -/
def Work.commitPlan (w : Work) (die : Nat) (c : CDesc) (n data : Nat) : Except Nat Publish :=
  let gen := gGEN data
  if gPIN data ((gen + 1) % 4) ≠ 0 then .error kPINNED
  else
    let recs := (List.range n).map fun i => bytesNat (w.engineBytes (Work.stageKey c i) 16)
    let of := fun o => (recs.filter fun r => recOp r == o).map recElem
    let r := commitSet (w.elems c (gDIR data)) (of 1) (of 2)
    let packs := packAll c r.1
    let live := ((w.d.die die).gens.filter fun g => g.gpa == c.gpa && decide (g.gen < gen)).flatMap CGen.chunks ++ w.chunksOf c (gDIR data)
    let free := (List.range c.pcap).filter fun i => !live.contains i
    let nd := dirChunks packs.length
    let starts := (List.range c.pcap).filter fun i => (List.range nd).all fun j => free.contains (i + j)
    let share := (w.dirAll c (gDIR data)).map fun e =>
      (w.chunk c (bits e 64 32), w.payChunk c e, bits e 64 32, bits e 96 32)
    let k := w.d.free
    let pub := fun (writes : List (Nat × Nat)) (dir : Nat) (chunks : List Nat) =>
      ({ writes := writes, data := (gen + 1) % 2 ^ 63 + 2 ^ 64 * (dir % 2 ^ 64) + 2 ^ 128 * (r.1.length % 2 ^ 64)
         word := 2 ^ 39 * n + 2 ^ 16 * min r.2 0x7FFFFF, chunks := chunks } : Publish)
    match packs with
    | [] => .ok (pub [] 0 [])
    | _ :: _ =>
        match choose k starts with
        | none => .error kFULL
        | some s =>
            let dirs := (List.range nd).map fun j => s + j
            match placeChunks c (free.filter fun i => !dirs.contains i) (k + 1) share packs with
            | none => .error kFULL
            | some l =>
                let db := dirBits l
                let fresh := l.filter fun q => !q.shared
                .ok (pub
                  ((dirs.map fun i => (i, db / 2 ^ (4096 * (i - s)) % 2 ^ 4096)) ++ fresh.map (fun q => (q.ch, q.p.image)) ++
                    (if c.pw = 0 then [] else fresh.map fun q => (q.pch, q.p.pay)))
                  (c.pool + 512 * s)
                  (dirs ++ l.map Placed.ch ++ (if c.pw = 0 then [] else l.map Placed.pch)))

/-- A ring update that an engine makes itself (R129): at a gate passage of the object, ahead of ordinary accesses; one that
does not ride is asked to board. -/
def Work.gateUpdate (w : Work) (pa : Nat) (f : Work → Nat → Work × Nat) : Bool × Work :=
  match homeOf w.d pa with
  | .die h =>
      (match w.d.rideOf pa with
        | some (die, i, r) =>
            if r.applies i w.d.now && nextPass i 0 w.d.now == w.d.now && r.lastOrd != some w.d.now && r.lastOwn != some w.d.now then
              let e := f w r.data
              (true, e.1.retelling fun v => v.rewrite (objOf pa) 64 fun v => v.updSlot die i fun r => { r with data := e.2, touch := passRev i 0 w.d.now })
            else (false, w)
        | none => (false, w.askBoard h (objOf pa)))
  | _ =>
      let e := f w (w.load pa 64)
      (true, e.1.retelling fun v => v.rewrite pa 64 fun v => v.store pa 64 e.2)

/-- The die that keeps the generations of an object: its home; die 0 for an object homed outside the package. -/
def Work.genDie (w : Work) (gpa : Nat) : Nat := w.ringDie 0 gpa

/-- The die whose engine serves a generation object: its home (R146, R283), or the issuing die for one homed outside. -/
def Work.engineDie (w : Work) (gpa : Nat) : Nat := w.ringDie w.dieNo gpa

/-- A commit ends with its word. -/
def Work.endOp (w : Work) (e : EOp) (x : Nat) : Work := w.updOp e.id fun e => { e with waits := false, word := BitVec.ofNat 64 x }

/-- The pages of a range as their leaves map them now, whatever their MIG, TIER and permissions. -/
def Work.leafPages (w : Work) (die va n : Nat) : Option (List Nat) :=
  ((List.range ((va + n - 1) / 65536 - va / 65536 + 1)).map fun i => w.leafPa die (65536 * (va / 65536 + i))).foldr
    (fun p t => p.bind fun a => t.map fun l => a :: l) (some [])

/-- The lines of a pool's chunks. -/
def CDesc.chunkLines (c : CDesc) (l : List Nat) : List Nat := l.map fun i => pageAt c.poolPages c.pool (c.pool + 512 * i)

/-- Chunks that hold data no code corrects (R84). -/
def Work.chunksDead (w : Work) (c : CDesc) (l : List Nat) : Bool :=
  (c.chunkLines l).any fun k => w.deadAt k true

/-- A chunk's 32 granules on their way to the pool. -/
def chunkParts (c : CDesc) (q : Nat × Nat) : List EPart :=
  (List.range 32).map fun i =>
    { src := [], dst := .key (pageAt c.poolPages c.pool (c.pool + 512 * q.1) + 16 * i)
      val := some (natBytes 16 (q.2 / 2 ^ (128 * i))) }

/-- The records of a commit are zeroed behind its publication. -/
def zeroParts (c : CDesc) (n : Nat) : List EPart :=
  (List.range n).map fun i => { src := [], dst := .key (Work.stageKey c i), val := some (natBytes 16 0) }

/-- The object's payload behind a publication: the pins are those of the passage (R140). -/
def published (new data n : Nat) : Nat := putBits (putBits data 0 192 new) 192 64 (gSTAGE data - n)

/-- The publication: at one gate passage, once the chunks have performed; then the records are zeroed (R140). -/
def Work.publishColl (w : Work) (e : EOp) (c : CDesc) (n : Nat) (pub : Nat × Nat × List Nat) : Work :=
  let die := w.genDie c.gpa
  if !e.parts.isEmpty then w
  else
    let r := w.gateUpdate c.gpa fun w data => (w, published pub.1 data n)
    if r.1 then
      let gen := gGEN pub.1
      let w := r.2.updDie die fun d => { d with
        gens := d.gens.filter (fun g => !(g.gpa == c.gpa && (decide (g.gen + 4 ≤ gen) || decide (gen ≤ g.gen)))) ++
          [{ gpa := c.gpa, gen := gen, chunks := pub.2.2 }] }
      (w.endOp e pub.2.1).updOp e.id fun e => { e with parts := zeroParts c n }
    else r.2

/-- A pool whose pages all lie where their leaves map them: none is in migration. -/
def Work.poolSettled (w : Work) (die : Nat) (c : CDesc) : Bool :=
  (List.range ((c.pool + 512 * c.pcap - 1) / 65536 - c.pool / 65536 + 1)).all fun i =>
    !w.pageMoves die (65536 * (c.pool / 65536 + i)) false

/-- The objects' addresses of the chunks of a generation. -/
def Work.chunkKeys (w : Work) (c : CDesc) (l : List Nat) : List Nat :=
  l.flatMap fun i => (List.range 8).map fun k => pageAt c.poolPages c.pool (c.pool + 512 * i) + 64 * k

/-- One try of a commit that has started: it waits for its records, plans and writes its chunks, and publishes. R283 and R284 check
no page of the pool: the commit waits while one is unmapped or in migration, and its tier and permissions play no part (DESIGN
CHOICE, assumption 106). What it reads in a riding object it reads at the gate (R117). -/
def Work.commitStep (w : Work) (e : EOp) (c : CDesc) (n : Nat) : Option (Nat × Nat × List Nat) → Work
  | some pub => w.publishColl e c n pub
  | none =>
      let die := slotDie (e.slots.headD 0)
      match w.leafPages die c.pool (512 * c.pcap) with
      | none => w
      | some pp =>
          let c := { c with poolPages := pp }
          let data := w.objData c.gpa
          let w := if gGEN data = 0 then w.anew pp c.pool (512 * c.pcap) else w
          let recs := (List.range n).map (Work.stageKey c)
          let old := w.chunksOf c (gDIR data)
          if w.zeroing c.gpa || !w.poolSettled die c || !w.readNow recs || recs.any fun k => recOp (w.homeRead k 16) == 0 then w
          else if recs.any (fun k => w.deadAt k true) || w.chunksDead c old then
            (w.dropOp e).deadEnd e.blk (recs ++ c.chunkLines old)
          else if !w.readNow (recs ++ w.chunkKeys c old) then w
          else
            match w.commitPlan (w.genDie c.gpa) c n data with
            | .error k =>
                let r := w.gateUpdate c.gpa fun w data => (w, putBits data 63 1 0)
                if r.1 then r.2.endOp e k else r.2
            | .ok p =>
                (w.updDev fun d => { d with free := d.free + 1 + 2 * c.pcap }).updOp e.id fun e =>
                  { e with parts := p.writes.flatMap (chunkParts c)
                           kind := .collCommit c (some n) (some (p.data, p.word, p.chunks)) }

/-! ### Iterators (R141, R286) -/

/-- The element at an iterator's position and the iterator behind it; none behind the last element. -/
def Work.iterNext (w : Work) (c : CDesc) (i : Iter) : Option (CElem × Iter) :=
  if i.chi < w.dirCount c i.dira then
    let e := w.dirEntry c i.dira i.chi
    let x := w.chunk c (bits e 64 32)
    let r := entryAt c x i.ent i.key i.bpos
    let el : CElem := (r.1, r.2.1, bits (w.payChunk c e) (c.pw * i.ent) c.pw)
    if i.ent + 1 < bits x 0 16 then some (el, { i with key := r.1, bpos := r.2.2, ent := i.ent + 1 })
    else some (el, { i with key := 0, bpos := 16, ent := 0, chi := i.chi + 1 })
  else none

/-- The first position from `i` on whose key is `lo` or above. -/
def Work.seek (w : Work) (c : CDesc) (lo : Nat) : Nat → Iter → Iter
  | 0, i => i
  | f + 1, i =>
      match w.iterNext c i with
      | some (el, j) => if lo ≤ el.1 then i else w.seek c lo f j
      | none => { i with ended := true }

/-- The iterator of a pin on the generation of a payload (R285). -/
def Work.openIter (w : Work) (c : CDesc) (data lo hi : Nat) : Iter :=
  let i := w.seek c lo (gCOUNT data + 1)
    { hi := hi, key := 0, bpos := 16, ent := 0, chi := 0, dira := gDIR data, desca := c.desc, pg := gGEN data % 4,
      ended := false, open_ := true }
  { i with ended := i.ended || decide (hi < lo) }

/-- Elements of a generation with keys in [lo, hi]. -/
def Work.countKeys (w : Work) (c : CDesc) (dir lo hi : Nat) : Nat :=
  ((w.elems c dir).filter fun e => decide (lo ≤ e.1) && decide (e.1 ≤ hi)).length

/-- One step of coll.next for a lane: its four words, and the iterator. -/
def Work.nextLane (w : Work) (c : CDesc) (i : Iter) : List Word × Iter :=
  let fin : List Word := [0, BitVec.ofNat 32 (65536 * kEND), 0, 0]
  if i.ended then (fin, i)
  else
    match w.iterNext c i with
    | none => (fin, { i with ended := true })
    | some (e, j) =>
        if i.hi < e.1 then (fin, { i with ended := true })
        else ([BitVec.ofNat 32 e.1, BitVec.ofNat 32 (e.1 / 2 ^ 32), BitVec.ofNat 32 e.2.1, BitVec.ofNat 32 e.2.2], j)

def Work.nextLanes (w : Work) (c : CDesc) : Iter → List Nat → List (Nat × List Word) × Iter
  | i, [] => ([], i)
  | i, l :: t =>
      let r := w.nextLane c i
      let s := w.nextLanes c r.2 t
      ((l, r.1) :: s.1, s.2)

/-- The chunks that coll.next reads between two positions of an iterator. -/
def Work.visited (w : Work) (c : CDesc) (i j : Iter) : List Nat :=
  ((List.range (w.dirCount c i.dira)).filter fun k => decide (i.chi ≤ k) && decide (k ≤ j.chi)).flatMap fun k =>
    let e := w.dirEntry c i.dira k
    [(i.dira - c.pool) / 512 + (k + 1) / 32, bits e 64 32] ++ (if c.pw = 0 then [] else [bits e 96 32])

/-! ### Steps at a passage of the generation object (R129) -/

/-- The two halves of a T register as the words of two results. -/
def tWords (x hf : Nat) : List Word := valWords false 16 .zero (x / 2 ^ (128 * hf) % 2 ^ 128)

/-- The claims of coll.ins and coll.rem, in lane order (R139): the payload, and the claimed records. -/
def Work.claims (slot : Nat) (remove : Bool) (c : CDesc) : Work → Nat → List StageLane → Work × Nat × List EPart
  | w, data, [] => (w, data, [])
  | w, data, l :: t =>
      let code := if gBUSY data then kBUSY else if c.scap ≤ gSTAGE data then kSTAGEFULL else 0
      let w := w.deliver slot l.owed [BitVec.ofNat 32 code]
      if code = 0 then
        let x := 2 ^ 104 * (if remove then 2 else 1) + 2 ^ 80 * l.ofs + 2 ^ 32 * l.key + l.pay
        let r := Work.claims slot remove c w (putBits data 192 64 (gSTAGE data + 1)) t
        (r.1, r.2.1, { src := (natBytes 16 x).map BSrc.val, dst := .key (Work.stageKey c (gSTAGE data)), val := none } :: r.2.2)
      else Work.claims slot remove c w data t

/-- A coll.iter (two results) or a count (one) that has pinned the generation of a payload reads the pool and is over; a count's pin
is given back, and an iterator's where its group is gone. -/
def Work.pinnedDone (w : Work) (id slot : Nat) (c : CDesc) (data lo hi : Nat) (owed : List Nat) : Work :=
  let w := w.updDev fun d => { d with ops := d.ops.filter fun o => o.id != id }
  match owed with
  | [o0, o1] =>
      let i := w.openIter c data lo hi
      let w := w.updGrp slot fun g => { g with iters := g.iters ++ [(c.desc, c.gpa)] }
      let w := (w.deliver slot (some o0) (tWords i.toNat 0)).deliver slot (some o1) (tWords i.toNat 1)
      if ((w.grp? slot).getD Group.gone).live.isEmpty then
        (w.pinOp slot c.gpa i.pg false).updGrp slot fun g => g.dropIter c.desc
      else w
  | o :: _ =>
      (w.deliver slot (some o) (splitWords true (BitVec.ofNat 64 (w.countKeys c (gDIR data) lo hi)))).pinOp slot c.gpa
        (gGEN data % 4) false
  | [] => w

/-- It pins at its passage: it reads the pool at once, or, where an object of it rides, at that object's gate (R117). -/
def Work.pinColl (w : Work) (e : EOp) (slot : Nat) (c : CDesc) (data lo hi : Nat) (owed : List Nat) : Work :=
  let old := w.chunksOf c (gDIR data)
  let kind := EKind.collPinned slot c data lo hi owed
  if w.chunksDead c old then (w.dropOp { e with kind := kind }).deadEnd e.blk (c.chunkLines old)
  else if w.readNow (w.chunkKeys c old) then w.pinnedDone e.id slot c data lo hi owed
  else w.updOp e.id fun e => { e with kind := kind }

/-- The step of a collection instruction's operation `k` on its object's payload. -/
def collHook : GenHook := fun w op k data =>
  let slot := op.slot.getD 0
  match w.op? k with
  | none => (w, data)
  | some e =>
      match e.kind with
      | .collStage remove c lanes =>
          let r := Work.claims slot remove c w data lanes
          (r.1.updOp k fun e => { e with waits := false, parts := r.2.2 }, r.2.1)
      | .collCommit c none _ =>
          if gBUSY data then (w.endOp e kBUSY, data)
          else (w.updOp k fun e => { e with kind := .collCommit c (some (gSTAGE data)) none }, putBits data 63 1 1)
      | .collIter c lo hi o0 o1 =>
          (w.pinColl e slot c data lo hi [o0, o1], gPinUp data (gGEN data % 4))
      | .collCount c lo hi o => (w.pinColl e slot c data lo hi [o], gPinUp data (gGEN data % 4))
      | _ => (w, data)

/-- The step of operation `k` on the generation object at `gpa` is issued. -/
def Work.genStep (w : Work) (gpa k : Nat) (acq : Bool) : Work :=
  let r := (w.openSync acq).newId
  let w := if acq then r.2.updG fun g => { g with acq := g.acq ++ [r.1] } else r.2
  w.addRing (w.ringDie w.dieNo gpa) (w.ringOp r.1 r.1 gpa [] (.gen k) 64 (if acq then .acq else .rlx) .pkg false)

/-! ### The instructions -/

/-- coll.open (R281). -/
def execCollOpen (h : Hdr) (t : BitVec 4) (tk : BitVec 6) (a : Opnd) (s : State) : Host.Outcome State Fault Refusal :=
  issue s h (a.names 2) (tNames t ++ [.s tk.toNat]) fun w x =>
    let ea : Int := ((w.op64 (x.headD 0) a).toNat : Int)
    match w.place .g ea 64 .load (x.headD 0) with
    | .error f => .xlate f.cause f.addr
    | .ok p =>
        if !w.engineReady eParterre then w.engineWait eParterre
        else
          let base := w.d.nextId
          let w1 := (w.oweT h t.toNat 0 .pend).oweT h t.toNat 1 .pend
          .ok (w1.enter { w1.newOp .coll (.collOpen ea.toNat base (base + 1)) with
            tok := some tk.toNat, parts := bufAll ((List.range 64).map fun i => .key (placeKey p + i)) }) []

/-- A range that an instruction checks, if it checks it. -/
def Work.rangeOf (w : Work) (k : Option XKind) (va n : Nat) : Except (Nat × Nat) (List Nat) :=
  match k with
  | none => .ok []
  | some k => w.mapPages w.dieNo k (!w.blk.priv) va n

/-- A descriptor cannot be read now: its bytes wait at their home (R117, R361), or the block ends (R84). -/
def Work.descWaits (w : Work) (pa : Nat) : Option Res :=
  if w.deadAt pa true then some (.ok (w.deadEnd w.g.blk [pa]) []) else if !w.gateNow pa then some .hold else none

/-- The collection of a descriptor with its staging area or pool mapped (R283, R285), or what fails. -/
def Work.collMapped (w : Work) (va : Nat) (stage pool : Option XKind) : Except Res CDesc :=
  match w.translate w.dieNo va .load (!w.blk.priv), w.collAt w.dieNo (!w.blk.priv) va with
  | _, .error e => .error (.xlate e.1 e.2)
  | .error c, _ => .error (.xlate c va)
  | .ok lf, .ok c =>
      match w.rangeOf stage c.stg (16 * c.scap) with
      | .error e => .error (.xlate e.1 e.2)
      | .ok sp =>
          match w.rangeOf pool c.pool (512 * c.pcap) with
          | .error e => .error (.xlate e.1 e.2)
          | .ok pp =>
              match w.descWaits lf.pa with
              | some r => .error r
              | none => .ok { c with stgPages := sp, poolPages := pp }

/-- The same for a register that must hold a handle (R282). -/
def Work.handleColl (w : Work) (t : BitVec 4) (stage pool : Option XKind) : Except Res CDesc :=
  if handleBad (w.g.readT t.toNat) then .error (.trap cTREC_BAD 0)
  else w.collMapped (hDESC (w.g.readT t.toNat)) stage pool

/-- coll.ins and coll.rem (R283). -/
def stageOp (s : State) (h : Hdr) (d : Dst) (tr : BitVec 4) (key ofs pay : Opnd) (remove : Bool) :
    Host.Outcome State Fault Refusal :=
  issue s h (key.names 2 ++ ofs.names 1 ++ pay.names 1 ++ tNames tr) (d.names 1) fun w x =>
    match w.handleColl tr (some .engW) none with
    | .error r => r
    | .ok c =>
        if !(w.ringReady .rlx .die && w.engineReadyAt (w.engineDie c.gpa) eParterre) then w.engineFails (w.engineDie c.gpa) eParterre
        else
          let acting := w.notHelper x
          let ofLane := fun l => ((w.op64 l key).toNat, (w.op32 l ofs).toNat, (w.op32 l pay).toNat)
          let ok := acting.filter fun l =>
            let e := ofLane l
            decide (e.1 < 2 ^ c.w) && decide (e.2.1 < 2 ^ c.f) && decide (e.2.2 < 2 ^ c.pw)
          let base := w.d.nextId
          let w1 := w.owe h acting d 1 fun l => if ok.contains l then .pend else .ready [BitVec.ofNat 32 kRANGE]
          let lanes := ok.map fun l =>
            let e := ofLane l
            ({ key := e.1, ofs := e.2.1, pay := e.2.2, owed := w1.owedOf base l false x } : StageLane)
          let op : EOp := { w1.newOp .coll (.collStage remove c lanes) with waits := !ok.isEmpty }
          if acting.isEmpty then .ok w []
          else if ok.isEmpty then .ok (w1.enter op) []
          else .ok ((w1.enter op).genStep c.gpa op.id false) []

def execCollIns (h : Hdr) (d : Dst) (tr : BitVec 4) (key ofs pay : Opnd) (s : State) := stageOp s h d tr key ofs pay false
def execCollRem (h : Hdr) (d : Dst) (tr : BitVec 4) (key ofs pay : Opnd) (s : State) := stageOp s h d tr key ofs pay true

/-- coll.commit (R284). -/
def execCollCommit (h : Hdr) (tr : BitVec 4) (tk : BitVec 6) (s : State) : Host.Outcome State Fault Refusal :=
  issue s h (tNames tr) [.s tk.toNat] fun w _ =>
    match w.handleColl tr (some .engW) none with
    | .error r => r
    | .ok c =>
        if !(w.ringReady .rlx .die && w.engineReadyAt (w.engineDie c.gpa) eParterre) then w.engineFails (w.engineDie c.gpa) eParterre
        else
          let op : EOp := { w.newOp .coll (.collCommit c none none) with tok := some tk.toNat, waits := true }
          .ok ((w.enter op).genStep c.gpa op.id false) []

/-- COMMIT_COLLECTION (R140). -/
def execCommitCollection (op : Nat) (s : State) : Host.Outcome State Fault Refusal :=
  device s fun w =>
    match w.op? op with
    | none => w
    | some e =>
        match e.kind with
        | .collCommit c (some n) pub => if e.waits then w.commitStep e c n pub else w
        | _ => w

/-- Bits 47:0 of a 64-bit operand in the lowest executing lane. -/
def Work.key48 (w : Work) (x : List Nat) (o : Opnd) : Nat := (w.op64 (x.headD 0) o).toNat % 2 ^ 48

/-- An operation that only waits for its step: it is in no counter. -/
def Work.silentOp (w : Work) (cls : Cls) (kind : EKind) : EOp := { w.newOp cls kind with slots := [], waits := true }

/-- coll.iter (R285). -/
def execCollIter (h : Hdr) (t tr : BitVec 4) (lo hi : Opnd) (s : State) : Host.Outcome State Fault Refusal :=
  issue s h (lo.names 2 ++ hi.names 2 ++ tNames tr) (tNames t) fun w x =>
    match w.handleColl tr none (some .engR) with
    | .error r => r
    | .ok c =>
        if !(w.ringReady .acq .pkg && w.engineReady eParterre) then w.engineWait eParterre
        else
          let base := w.d.nextId
          let w1 := (w.oweT h t.toNat 0 .pend).oweT h t.toNat 1 .pend
          let op := w1.silentOp .coll (.collIter c (w.key48 x lo) (w.key48 x hi) base (base + 1))
          .ok ((w1.enter op).genStep c.gpa op.id true) []

/-- coll.next (R286). -/
def execCollNext (h : Hdr) (d : Dst) (tr : BitVec 4) (s : State) : Host.Outcome State Fault Refusal :=
  issue s h (tNames tr) (d.names 4 ++ tNames tr) fun w x =>
    let r := w.g.readT tr.toNat
    let i := Iter.ofRec r
    let count := fun (w : Work) => w.enter (w.newOp .coll .plain)
    if !isIter r then .trap cTREC_BAD 0
    else if !(w.g.acq.isEmpty && w.engineReady eParterre) then w.engineWait eParterre
    else if !i.open_ then
      .ok (count (w.owe h x d 4 fun _ => .ready [0, BitVec.ofNat 32 (65536 * kEND), 0, 0])) []
    else
      match w.collMapped i.desca none (some .engR) with
      | .error r => r
      | .ok c =>
          let n := w.nextLanes c i x
          if w.chunksDead c (w.visited c i n.2) then .ok (w.deadEnd w.g.blk (c.chunkLines (w.visited c i n.2))) []
          else if !w.readNow (w.chunkKeys c (w.visited c i n.2)) then .hold
          else
          let w1 := w.owe h x d 4 fun l => .ready (((n.1.find? fun p => p.1 == l).map (·.2)).getD [])
          .ok (count ([0, 1].foldl (fun w hf => w.oweT h tr.toNat hf (.ready (tWords n.2.toNat hf))) w1)) []

/-- coll.count (R287). -/
def execCollCount (h : Hdr) (d : BitVec 6) (tr : BitVec 4) (lo hi : Opnd) (s : State) : Host.Outcome State Fault Refusal :=
  issue s h (lo.names 2 ++ hi.names 2 ++ tNames tr) [.s d.toNat] fun w x =>
    let r := w.g.readT tr.toNat
    let i := Iter.ofRec r
    let l := w.key48 x lo
    let u := w.key48 x hi
    let give := fun n => .ok (w.owe h x (.s d) 1 fun _ => .ready (splitWords true (BitVec.ofNat 64 n))) []
    if isIter r then
      if !(w.g.acq.isEmpty && w.engineReady eParterre) then w.engineWait eParterre
      else if !i.open_ then give 0
      else
        match w.collMapped i.desca none (some .engR) with
        | .error r => r
        | .ok c =>
            if w.chunksDead c (w.chunksOf c i.dira) then .ok (w.deadEnd w.g.blk (c.chunkLines (w.chunksOf c i.dira))) []
            else if !w.readNow (w.chunkKeys c (w.chunksOf c i.dira)) then .hold
            else give (w.countKeys c i.dira l u)
    else
      match w.handleColl tr none (some .engR) with
      | .error r => r
      | .ok c =>
          if !(w.ringReady .rlx .die && w.engineReady eParterre) then w.engineWait eParterre
          else
            let base := w.d.nextId
            let w1 := w.owe h x (.s d) 1 fun _ => .pend
            let op := w1.silentOp .coll (.collCount c l u base)
            .ok ((w1.enter op).genStep c.gpa op.id false) []

/-- coll.close (R288): the unpin is a release at .pkg; the T register is written as a long-latency result (R177). -/
def execCollClose (h : Hdr) (tr : BitVec 4) (s : State) : Host.Outcome State Fault Refusal :=
  issue s h [] (tNames tr) fun w _ =>
    let r := w.g.readT tr.toNat
    let i := Iter.ofRec r
    if !isIter r then .trap cTREC_BAD 0
    else if !i.open_ then .ok w []
    else
      match w.collMapped i.desca none none with
      | .error r => r
      | .ok c =>
          if !w.ringReady .rel .pkg then .hold
          else
            let w := ((w.fenceDone w.slot .pkg).pinOp w.slot c.gpa i.pg false).updG fun g => g.dropIter i.desca
            .ok ([0, 1].foldl (fun w hf => w.oweT h tr.toNat hf (.ready (tWords (r &&& ~~~2#256).toNat hf))) w) []

/-- ENGINE_RETIRE (R104, R106): an operation whose granules have all performed leaves behind the earlier ones of its class; an
iterator or count that has pinned reads its pool. -/
def execEngineRetire (op : Nat) (s : State) : Host.Outcome State Fault Refusal :=
  device s fun w =>
    match w.op? op with
    | none => w
    | some e =>
        match e.kind with
        | .collPinned slot c data lo hi owed =>
            let old := w.chunksOf c (gDIR data)
            if w.chunksDead c old then (w.dropOp e).deadEnd e.blk (c.chunkLines old)
            else if w.readNow (w.chunkKeys c old) then w.pinnedDone e.id slot c data lo hi owed
            else w
        | _ =>
            if !e.finished || w.olderOps e then w
            else if w.gobjWalk e = cWALKDEAD then
              (w.dropOp e).deadEnd e.blk (w.deadWalk (slotDie (e.slots.headD 0)) (cGOBJ (bytesNat e.data)))
            else if w.gobjWalk e = cWALKWAIT then w
            else
              let r := w.openDone e
              let w := (r.1.updDev fun d => { d with ops := d.ops.filter fun o => o.id != op }).subCount e.slots e.cls
              (w.writeTok (e.slots.headD 0) e.tok r.2.word).retireKind e

/-- GENERATION_RECLAIM (R143): the `k`-th generation on a die's record is reclaimed once a ring read shows it old and not
pinned, or of an object that software has created anew since. -/
def execGenerationReclaim (die k : Nat) (s : State) : Host.Outcome State Fault Refusal :=
  device s fun w =>
    match (w.d.die die).gens[k]? with
    | none => w
    | some g =>
        (w.gateUpdate g.gpa fun w data =>
          (if gGEN data < g.gen ∨ (g.gen < gGEN data ∧ gPIN data (g.gen % 4) = 0) then
            w.updDie die fun d => { d with gens := d.gens.eraseIdx k } else w, data)).2

end Sys2Proof.Machine
end

