-- ==== Sys2Proof/Machine/Power.lean ====
section
/-! DEFINITION. Power, cooling and error counting (R328, R329, R366 to R369, R84). -/

namespace Sys2Proof.Machine

/-! ### HEADROOM and the throttle level (R328, R329, R369) -/

/-- HEADROOM of a die. -/
def Die.headroom (e : Die) : Nat := if e.tlimit.toNat % 65536 ≤ e.temp then 0 else e.pbudget.toNat - e.draw

def Die.low (e : Die) : Nat := bits e.pwrCtl.toNat 0 16
def Die.crit (e : Die) : Nat := bits e.pwrCtl.toNat 16 16

/-- The level after `n` windows with HEADROOM 0 throughout (`z`), or at or above LOW throughout (`h`). -/
def levelAfter (n : Nat) (z h : Bool) (level : Nat) : Nat :=
  if z && h then level else if z then min 7 (level + n) else if h then level - n else level

/-- The windows of 4,096 cycles that have ended by cycle `now` have acted on the level; HEADROOM has not changed since the
last look. -/
def Die.roll (now : Nat) (e : Die) : Die :=
  let k := now / 4096
  if k ≤ e.win then e
  else
    let z := e.headroom == 0
    let h := decide (e.low ≤ e.headroom)
    let l := levelAfter (k - e.win - 1) z h (levelAfter 1 e.winZero e.winHigh e.level)
    { e with level := if e.trip then 7 else l, win := k, winZero := z, winHigh := h }

/-- A change to a die's budget, draw, temperature, limit or marks: the window's record, the thermal trip, and
INTPEND.PWR on every core of the die where HEADROOM has fallen below CRIT (Table 21.6). -/
def Work.power (w : Work) (die : Nat) (f : Die → Die) : Work :=
  if 8 ≤ die then w
  else
    let e0 := (w.d.die die).roll w.d.now
    let e := f e0
    let lim := e.tlimit.toNat % 65536
    let trip := if lim + 120 ≤ e.temp then true else if e.temp < lim then false else e.trip
    let e := { e with trip := trip, level := if trip then 7 else e.level, winZero := e.winZero && e.headroom == 0,
                      winHigh := e.winHigh && decide (e.low ≤ e.headroom) }
    let w := w.updDie die fun _ => e
    if e.headroom < e.crit ∧ e.crit ≤ e0.headroom then (List.range 64).foldl (fun w c => w.raiseInt (64 * die + c) 5) w
    else w

/-- The package's draw is measured: a sensor's reading, a free value (assumption 24). -/
def Work.measure (w : Work) : Work :=
  let f := w.fresh
  f.2.updPkg fun k => { k with pkgPwr := BitVec.ofNat 16 (Config.choice f.1) }

/-- THROTTLE_STEP (R329): the die's average draw is `draw`; windows that have ended act on its level. -/
def execThrottleStep (die draw : Nat) (s : State) : Host.Outcome State Fault Refusal :=
  device s fun w => (w.power die fun e => { e with draw := draw }).measure

/-- HEADROOM_CRIT (R328): with the draw `draw` the die's HEADROOM falls below CRIT. -/
def execHeadroomCrit (die draw : Nat) (s : State) : Host.Outcome State Fault Refusal :=
  device s fun w =>
    let e := w.d.die die
    if { e with draw := draw }.headroom < e.crit then w.power die fun e => { e with draw := draw } else w

/-- THERMAL_TRIP (R369): the hottest sensor reads `temp`; at TLIMIT + 120 the throttle level becomes 7. -/
def execThermalTrip (die : Nat) (temp : BitVec 16) (s : State) : Host.Outcome State Fault Refusal :=
  device s fun w => w.power die fun e => { e with temp := temp.toNat }

/-- THERMAL_RELEASE (R369): the hottest sensor reads `temp`; below TLIMIT the level is held no longer. -/
def execThermalRelease (die : Nat) (temp : BitVec 16) (s : State) : Host.Outcome State Fault Refusal :=
  device s fun w => w.power die fun e => { e with temp := temp.toNat }

/-! ### Corrected errors (R366) -/

/-- The key of a bank; none for one that does not exist. -/
def bankKey (kind unit bank : Nat) : Option Nat :=
  if 4 < kind ∨ 64 ≤ bank ∨ 64 ≤ unit ∨ (kind = 3 ∧ 32 ≤ unit) ∨ (kind = 4 ∧ unit ≠ 0) then none
  else some (4096 * kind + 64 * unit + bank)

/-- Every count returns to 0; LAST stays. -/
def Die.eccClear (e : Die) (start : Nat) : Die :=
  { e with eccCnt := (e.eccCnt.map fun c => (c.1, (0, c.2.2))).filter fun c => c.2.2, eccStart := start }

/-- The windows that have ended by cycle `t`; a window of length 0 ends at once. -/
def Die.eccRoll (t : Nat) (e : Die) : Die :=
  let n := e.eccWin.toNat % 65536 * 65536
  if n = 0 then e.eccClear t
  else if e.eccStart + n ≤ t then e.eccClear (e.eccStart + (t - e.eccStart) / n * n) else e

/-- A unit's other banks leave its codewords no correction (R83, R367). -/
def Die.spent (e : Die) (k : Nat) : Bool := e.eccCnt.any fun c => c.1 != k && c.1 / 64 == k / 64 && c.2.2

/-- CORRECTED_ERROR (R366): one more in a bank's count; an error in the window's last cycle counts into the new one. While
another bank of the unit is lasting, no error is corrected: the read that meets it is a MEM_UNCORR (R367). -/
def execCorrectedError (die kind unit bank : Nat) (s : State) : Host.Outcome State Fault Refusal :=
  device s fun w =>
    match bankKey kind unit bank with
    | none => w
    | some k =>
        if 8 ≤ die || (w.d.die die).spent k then w
        else
          w.updDie die fun e =>
            let e := e.eccRoll (w.d.now + 1)
            let c := sget e.eccCnt k (0, false)
            let n := min 65535 (c.1 + 1)
            let thr := e.eccThr.toNat % 65536
            { e with eccCnt := sset e.eccCnt k (n, c.2 || (thr != 0 && decide (thr ≤ n))) }

/-- ECC_WINDOW_END (R366). -/
def execEccWindowEnd (die : Nat) (s : State) : Host.Outcome State Fault Refusal :=
  device s fun w => if 8 ≤ die then w else w.updDie die fun e => e.eccRoll w.d.now

/-- ECCCNT as ECCSEL selects it (Tables 24.1, 24.7). -/
def Die.eccRead (e : Die) (now : Nat) : Nat :=
  let e := e.eccRoll now
  let x := e.eccSel.toNat
  match bankKey (bits x 29 3) (bits x 23 6) (bits x 0 6) with
  | none => 0
  | some k => (fun c => 2 ^ 31 * c.2.toNat + c.1) (sget e.eccCnt k (0, false))

/-- A write to ECCWIN clears the counts and starts a new window (R366). -/
def execEccwinWrite (h : Hdr) (a : Opnd) (s : State) : Host.Outcome State Fault Refusal :=
  issue s h (a.names 1) [] fun w x =>
    .ok (x.foldl (fun v l => v.updDie w.dieNo fun e =>
      { e.eccClear w.d.now with eccWin := w.op32 l a &&& 0xFFFF }) w) []

/-! ### Uncorrectable errors (R84, R368) -/

/-- The die whose storage an error lies in: registers, scratchpad and L1 are the reader's, L2 slices and the ring the line's home
die's. -/
def eccDie (d : Dev) (kind block pa : Nat) : Nat :=
  match homeOf d pa with
  | .die h => if kind ≤ 2 then slotDie block else h
  | _ => slotDie block

/-- MEM_UNCORR (R84, R367, R368): a read of the block met an error that no code corrects, among them one in a codeword with
a symbol in a lasting bank, in storage `kind` (Table 24.7), in the line of `pa`. A line of the L2 may have been written back with it: then its sector is poisoned. -/
def execMemUncorr (block : Nat) (kind : BitVec 3) (pa : Addr) (s : State) : Host.Outcome State Fault Refusal :=
  device s fun w =>
    match w.blk? block with
    | none => w
    | some _ =>
        let w := w.eccNote (eccDie w.d kind.toNat block pa.toNat) kind.toNat (if kind.toNat ≤ 1 then 0 else pa.toNat)
        let w :=
          if kind = 3 then
            let f := w.fresh
            if Config.choice f.1 % 2 = 1 then
              f.2.updPkg fun p => { p with poison := sset p.poison (sectorOf pa.toNat) (2 ^ 128 - 1) }
            else f.2
          else w
        w.memEnd block

end Sys2Proof.Machine
end

