-- ==== Sys2Proof/Machine/Special.lean ====
section
/-! DEFINITION. Special and privileged registers (R47, R213, R214, R320, R335, R355, R360), and the writes that are steps
of their own. -/

namespace Sys2Proof.Machine

/-! ### Reading -/

/-- The partition of the issuing core (R355, R356). -/
def Work.partNo (w : Work) : Nat := dieParts w.d w.dieNo

/-- A user special register in a lane (Table 2.4). -/
def Work.userReg (w : Work) (l num : Nat) : DWord :=
  let g := w.g
  let t := g.thread l
  let b := w.blk
  match num with
  | 0x00 => BitVec.ofNat 64 l
  | 0x01 => BitVec.ofNat 64 g.gidx
  | 0x02 => BitVec.ofNat 64 b.gcnt
  | 0x03 => BitVec.ofNat 64 b.gridx
  | 0x04 => BitVec.ofNat 64 b.gridy
  | 0x05 => BitVec.ofNat 64 t.helper.toNat
  | 0x06 => BitVec.ofNat 64 (8 * b.vbase)
  | 0x07 => BitVec.ofNat 64 g.extH.toNat
  | 0x08 => t.seed
  | 0x09 => BitVec.ofNat 64 g.horizon
  | 0x0A => BitVec.ofNat 64 w.d.now
  | 0x0B => if g.cv then g.contPc.zeroExtend 64 else 0
  | 0x0C => t.pixx.zeroExtend 64
  | 0x0D => t.pixy.zeroExtend 64
  | _ => 0

/-- A privileged register (Tables 21.1, 22.1, 23.4, 24.1). -/
def Work.privReg (w : Work) (num : Nat) : DWord :=
  let e := w.d.die w.dieNo
  let c := w.d.core w.coreNo
  let p := w.d.part w.partNo
  let k := w.d.pkg
  match num with
  | 0x40 => BitVec.ofNat 64 w.blk.priv.toNat
  | 0x41 => p.qbase
  | 0x42 => p.qctl
  | 0x43 => p.dbgctl
  | 0x44 => BitVec.ofNat 64 (min 65535 e.headroom)
  | 0x45 => e.pwrCtl
  | 0x46 => e.stagger.zeroExtend 64
  | 0x47 => c.intPend.zeroExtend 64
  | 0x48 => c.intMask.zeroExtend 64
  | 0x49 => e.ringSel.zeroExtend 64
  | 0x4A => e.ringHlo
  | 0x4B => e.ringHhi
  | 0x4D => k.lrejq
  | 0x80 => e.ptRoot
  | 0x81 => e.frameBase
  | 0x83 => e.hTmpl
  | 0x84 => e.hq.zeroExtend 64
  | 0x86 => c.parg
  | 0x88 => c.pstat.zeroExtend 64
  | 0x8A => e.locBase
  | 0x100 => k.podId.zeroExtend 64
  | 0x101 => p.sysId.zeroExtend 64
  | 0x102 => k.partMap.zeroExtend 64
  | 0x103 => p.qrange.zeroExtend 64
  | 0x105 => k.linkStat.zeroExtend 64
  | 0x106 => p.rxBase
  | 0x107 => p.rxSize
  | 0x108 => p.soDrop
  | 0x109 => k.soRoute
  | 0x180 => k.rdyPkg.zeroExtend 64
  | 0x181 => k.rdyEng
  | 0x182 => k.failPkg.zeroExtend 64
  | 0x183 => k.failEng
  | 0x184 => k.rdyAddr
  | 0x185 => k.rdyVec.zeroExtend 64
  | 0x186 => k.fwStat.zeroExtend 64
  | 0x188 => k.attStat.zeroExtend 64
  | 0x190 => e.eccWin.zeroExtend 64
  | 0x191 => e.eccThr.zeroExtend 64
  | 0x192 => e.eccSel.zeroExtend 64
  | 0x193 => BitVec.ofNat 64 (e.eccRead w.d.now)
  | 0x194 => e.eccLast
  | 0x198 => e.pbudget.zeroExtend 64
  | 0x199 => BitVec.ofNat 64 e.temp
  | 0x19A => e.tlimit.zeroExtend 64
  | 0x19B => k.pkgPwr.zeroExtend 64
  | _ => 0

def Work.specialReg (w : Work) (l num : Nat) : DWord := if num < 0x40 then w.userReg l num else w.privReg num

/-- A 64-bit register (Tables 2.4, 21.1, 22.1, 23.4, 24.1). -/
def regWide (num : Nat) : Bool :=
  match regInfo num with
  | some (wide, _, _) => wide
  | none => false

/-- rdsp and rdpriv: the register zero-extended, a 64-bit one in a pair or a whole S register (R213, R214). -/
def readSpecial (s : State) (h : Hdr) (d : Dst) (num : Nat) : Host.Outcome State Fault Refusal :=
  issue s h [] (d.names (if regWide num then 2 else 1)) fun w x =>
    .ok (w.writeDst x d (regWide num) true fun l => w.specialReg l num) []

def execRdsp (h : Hdr) (d : Dst) (num : BitVec 10) (s : State) : Host.Outcome State Fault Refusal :=
  readSpecial s h d num.toNat

def execRdpriv (h : Hdr) (d : Dst) (num : BitVec 10) (s : State) : Host.Outcome State Fault Refusal :=
  readSpecial s h d num.toNat

/-! ### Writing -/

/-- SRSEED of each executing lane (R213). -/
def Work.writeSeed (w : Work) (x : List Nat) (a : Opnd) : Work :=
  let vs := x.map fun l => (l, w.op64 l a)
  w.updG fun g => vs.foldl (fun g p => g.updThread p.1 fun t => { t with seed := p.2 }) g

/-- wrsp: only SRSEED can be written (R213). -/
def execWrsp (h : Hdr) (_num : BitVec 8) (a : Opnd) (s : State) : Host.Outcome State Fault Refusal :=
  issue s h (a.names 2) [] fun w x => .ok (w.writeSeed x a) []

/-- Bits `hi` to `lo` of a value stay, the others are ignored and read 0 (R6). -/
def keepBits (x : DWord) (hi lo : Nat) : DWord := BitVec.ofNat 64 (bits x.toNat lo (hi - lo + 1) * 2 ^ lo)

/-- A privileged register written with a value by the issuing core; PCMD and RINGCMD apart. -/
def Work.writePriv (w : Work) (num : Nat) (x : DWord) : Work :=
  let die := w.dieNo
  let x32 : Word := x.truncate 32
  match num with
  | 0x41 => w.updPart w.partNo fun p => { p with qbase := keepBits x 56 12 }
  | 0x42 => w.updPart w.partNo fun p => { p with qctl := keepBits x 31 16 ||| keepBits x 0 0 }
  | 0x43 => w.updPart w.partNo fun p => { p with dbgctl := keepBits x 0 0 }
  | 0x45 => w.power die fun e => { e with pwrCtl := keepBits x 32 0 }
  | 0x46 => w.updDie die fun e => { e with stagger := x32 &&& 0xFFFF }
  | 0x48 => w.updCore w.coreNo fun c => { c with intMask := x32 }
  | 0x49 => w.updDie die fun e => { e with ringSel := x32 &&& 0x3FF }
  | 0x80 => w.updDie die fun e => { e with ptRoot := keepBits x 56 20 }
  | 0x81 => w.updDie die fun e => { e with frameBase := keepBits x 63 22 }
  | 0x83 => w.updDie die fun e => { e with hTmpl := keepBits x 63 6 }
  | 0x84 => w.updDie die fun e => { e with hq := x32 &&& 0x80003FFF }
  | 0x86 => w.updCore w.coreNo fun c => { c with parg := x }
  | 0x8A => w.updDie die fun e => { e with locBase := keepBits x 56 21 }
  | 0x103 => w.updPart w.partNo fun p => { p with qrange := x32 &&& 0x7FFF7FFF }
  | 0x106 => w.updPart w.partNo fun p => { p with rxBase := keepBits x 42 16 }
  | 0x107 => w.updPart w.partNo fun p => { p with rxSize := x }
  | 0x108 => if x = 0 then w.updPart w.partNo fun p => { p with soDrop := 0 } else w
  | 0x184 => w.updPkg fun k => { k with rdyAddr := keepBits x 56 6 ||| keepBits x 0 0 }
  | 0x185 => w.updPkg fun k => { k with rdyVec := x32 &&& 0x7FF }
  | 0x191 => w.updDie die fun e => { e with eccThr := x32 &&& 0xFFFF }
  | 0x192 => w.updDie die fun e => { e with eccSel := x32 &&& 0xFF80003F }
  | 0x198 => w.power die fun e =>
      { e with pbudget := if (x32 &&& 0xFFFF).toNat ≤ 0x4B0 then x32 &&& 0xFFFF else 0x4B0 }
  | 0x19A => w.power die fun e => { e with tlimit := x32 &&& 0xFFFF }
  | _ => w

/-! ### Commands (R334, R348) -/

/-- The commands of a unit: PCMD's of the issuing core, RINGCMD's of its die. -/
def Work.cmds (w : Work) (ring : Bool) : List Cmd :=
  if ring then (w.d.die w.dieNo).ringCmds else (w.d.core w.coreNo).pcmds

def Work.setCmds (w : Work) (ring : Bool) (f : List Cmd → List Cmd) : Work :=
  if ring then w.updDie w.dieNo fun e => { e with ringCmds := f e.ringCmds }
  else w.updCore w.coreNo fun c => { c with pcmds := f c.pcmds }

/-- A command of the issuing group is written; its remains of earlier ones go. -/
def Work.addCmd (w : Work) (ring : Bool) (code : Nat) : Work :=
  let r := w.newId
  let arg := if ring then (w.d.die w.dieNo).ringSel.toNat else (w.d.core w.coreNo).parg.toNat
  r.2.setCmds ring fun cs =>
    (cs.filter fun c => c.slot != w.slot || c.st == .waiting || c.st == .started) ++
      [{ id := r.1, code := code, slot := w.slot, arg := arg, st := .waiting, since := w.d.now }]

/-- A write to PCMD or RINGCMD: each executing thread's command is taken and holds it until done. -/
def Work.command (w : Work) (ring : Bool) (x : List Nat) (code : Nat → Nat) : Res :=
  if w.d.cur.stamped then
    let idOf := fun l => (w.kept l []).headD 0
    let cmdOf := fun l => (w.cmds ring).find? fun c => c.id == idOf l
    if x.any fun l => (cmdOf l).any fun c => c.st == .bad then .trap cHANDLE_BAD 0
    else
      let busy := x.filter fun l => (cmdOf l).any fun c => c.st != .done
      let done := (x.filter fun l => !busy.contains l).map idOf
      let w := w.setCmds ring fun cs => cs.filter fun c => !done.contains c.id
      match busy with
      | [] => .ok w []
      | _ :: _ => .wait w busy (.cont (busy.map fun l => (l, [idOf l]))) []
  else if x.any fun l => code l == 0 || (ring && decide (4 < code l)) then .trap cILLEGAL 0
  else
    let base := w.d.nextId
    let w := x.foldl (fun w l => w.addCmd ring (code l)) w
    .wait w x (.cont ((x.zip (List.range x.length)).map fun p => (p.1, [base + p.2]))) []

/-- wrpriv (R214, R320): each executing thread's value, in lane order, behind the thread's earlier strong accesses. -/
def execWrpriv (h : Hdr) (num : BitVec 10) (a : Opnd) (s : State) : Host.Outcome State Fault Refusal :=
  let n := num.toNat
  issue s h (a.names (if regWide n then 2 else 1)) [] fun w x =>
    let val := fun l => if regWide n then w.op64 l a else (w.op32 l a).zeroExtend 64
    if n = 0x87 then w.command false x fun l => (val l).toNat % 8
    else if n = 0x4C then w.command true x fun l => (val l).toNat % 8
    else if w.strongBefore w.slot x w.d.nextId then .hold
    else if n = 0x08 then .ok (w.writeSeed x a) []
    else .ok (x.foldl (fun v l => v.writePriv n (val l)) w) []

/-- Writing 1 to an INTPEND bit clears it (R333). -/
def execIntpendClear (h : Hdr) (a : Opnd) (s : State) : Host.Outcome State Fault Refusal :=
  issue s h (a.names 1) [] fun w x =>
    .ok (x.foldl (fun v l => v.updCore w.coreNo fun c => { c with intPend := c.intPend &&& ~~~(w.op32 l a) }) w) []

/-- A write to PARTMAP is ignored unless QCTL.EN = 0 in every partition (R356). -/
def execPartmapWrite (h : Hdr) (a : Opnd) (s : State) : Host.Outcome State Fault Refusal :=
  issue s h (a.names 1) [] fun w x =>
    if w.strongBefore w.slot x w.d.nextId then .hold
    else
      .ok (x.foldl (fun v l =>
        if (List.range 8).all fun p => (v.d.partDies p).isEmpty || !(v.d.part p).qctl.getLsbD 0 then
          v.updPkg fun k => { k with partMap := w.op32 l a &&& 0xFFFFFF }
        else v) w) []

/-- HOSTINT (R354): the waits of a fence at .sys, then the vector goes to the host. -/
def execHostint (h : Hdr) (a : Opnd) (s : State) : Host.Outcome State Fault Refusal :=
  issue s h (a.names 1) [] fun w x =>
    let vec := fun l => (w.kept l [(w.op32 l a).toNat % 2048]).headD 0
    if w.fenceOk w.slot .sys && w.d.pkg.linkStat.toNat % 256 != 0 then
      .ok ((w.fenceDone w.slot .sys).updPkg fun k => { k with hostInts := k.hostInts ++ x.map vec }) []
    else waitWith w x fun l => [(w.op32 l a).toNat % 2048]

/-! ### XLINV (R340) -/

/-- A thread waits in a wait.v on a global word, a save or a restore, whose addresses it translated before name `id` (R214,
R250). -/
def Thread.watches (t : Thread) (id : Nat) : Bool :=
  t.st == .waiting &&
    match t.wait with
    | some wt =>
        (match wt.why with
          | .cont args => args.any (fun p => decide (p.2.getD 2 id < id)) && (match decode true wt.word with
              | .ok (.waitV _ o) => !o.shared && args.any fun p => p.2.headD noKey != noKey
              | .ok (.saveGroup _ _ _) | .ok (.saveBlock _ _ _) | .ok (.restoreGroup _ _ _) | .ok (.restoreBlock _ _ _) => true
              | _ => false)
          | _ => false)
    | none => false

/-- An operation of a group on one of the dies that passed its issue checks before name `id` has not retired. -/
def Work.opsBefore (w : Work) (dies : List Nat) (id : Nat) : Bool :=
  let on := fun slot => dies.contains (slotDie slot)
  (w.d.ops.any fun e => on e.blk && decide (e.id < id)) ||
    (w.d.cores.any fun c => c.2.path.any fun e => on e.slot && decide (e.id < id)) ||
    (w.d.groups.any fun g => on g.1 &&
      ((g.2.owed.any fun e => decide (e.id < id)) || g.2.thr.any fun t => t.2.watches id)) ||
    w.d.dies.any fun e => e.2.ringQ.any fun o =>
      (match o.slot with | some g => on g | none => false) && decide (o.id < id)

/-- Does the range that a value written to XLINV names cover a page? -/
def xlCovers (v va size : Nat) : Bool :=
  let n := match v % 4 with | 0 => 2 ^ 16 | 1 => 2 ^ 21 | _ => 2 ^ 29
  v % 4 == 3 || (decide (bits v 16 41 * 2 ^ 16 / n * n ≤ va) && decide (va + size ≤ bits v 16 41 * 2 ^ 16 / n * n + n))

/-- The issuing thread is held until no operation with an old translation is left and each die's stop 0 has counted 16
revolutions; translations themselves are not kept (assumption 13). Mappings that were undefined in the issuing partition are
what their entries say again (R338, R356). -/
def execXlinv (h : Hdr) (a : Opnd) (s : State) : Host.Outcome State Fault Refusal :=
  issue s h (a.names 2) [] fun w x =>
    let now := fun l => [w.d.nextId, stopCount w.d.now 0, (w.op64 l a).toNat]
    let v := w.kept (x.headD 0) (now (x.headD 0))
    if w.d.cur.stamped && decide (v.getD 1 0 + 16 ≤ stopCount w.d.now 0) &&
        !w.opsBefore (w.d.partDies w.partNo) (v.getD 0 0) then
      let vs := x.map fun l => (w.kept l (now l)).getD 2 0
      .ok (w.updPkg fun p => { p with torn := p.torn.filter fun t =>
        !(t.part == w.partNo && vs.any fun v => xlCovers v t.va t.size) }) []
    else waitWith w x now

/-! ### The ring commands' steps (R334) -/

/-- The first command of a code that a die's ring still has to carry out. -/
def Work.ringCmd? (w : Work) (die code : Nat) : Option Cmd :=
  (w.d.die die).ringCmds.find? fun c => c.code == code && (c.st == .waiting || c.st == .started)

def Work.setRingCmd (w : Work) (die id : Nat) (st : CmdSt) : Work :=
  w.updDie die fun e => { e with ringCmds := e.ringCmds.map fun c => if c.id = id then { c with st := st } else c }

/-- WHY: the cause of an alighting under way, or of the last one (R122). -/
def RSlot.cause (r : RSlot) (i now : Nat) : Nat :=
  match r.state i now, r.mark with
  | .alighting, some m => m.2
  | _, _ => r.why

/-- A slot's header (Table 6.1) but for CHK. -/
def RSlot.header (r : RSlot) (i now : Nat) : Nat :=
  let st := match r.state i now with
    | .free => 0 | .riding => 1 | .captured => 2 | .alighting => 3 | .boarding => 4
  2 ^ 77 * (r.obj / 64 % 2 ^ 51) + 2 ^ 74 * st + 2 ^ 68 * (r.cstop % 64) + 2 ^ 61 * (r.cgrp % 128) + 2 ^ 53 * (r.cdl % 256) +
    2 ^ 45 * (r.touch % 256) + 2 ^ 43 * (r.cause i now % 4)

/-- RING_SNAPSHOT: slot RINGSEL passes the gate. -/
def execRingSnapshot (die : Nat) (s : State) : Host.Outcome State Fault Refusal :=
  device s fun w =>
    match (w.d.die die).ringCmds.find? fun c =>
        c.code == 1 && c.st == .waiting && decide (c.since < w.d.now) && nextPass c.arg 0 w.d.now == w.d.now with
    | none => w
    | some c =>
        -- CHK, the check symbols of the slot's code, is a free value (assumption 15).
        let f := w.fresh
        let x := (sget (w.d.die die).slots c.arg RSlot.free).header c.arg w.d.now + Config.choice f.1 % 65536
        (f.2.updDie die fun e =>
          { e with ringHlo := BitVec.ofNat 64 x, ringHhi := BitVec.ofNat 64 (x / 2 ^ 64) }).setRingCmd die c.id .done

/-- A slot that an object holds is marked for alighting on request. -/
def Work.markSlot (w : Work) (die i : Nat) : Work :=
  let r := sget (w.d.die die).slots i RSlot.free
  if r.used && r.mark.isNone then
    w.updSlot die i fun r => { r with mark := some (max w.d.now r.from_, 1) }
  else w

/-- One command to alight a slot: done when it is free, or at once if nothing rides in it. -/
def Work.alightCmd (w : Work) (die : Nat) (c : Cmd) : Work :=
  let r := sget (w.d.die die).slots c.arg RSlot.free
  if !r.used || (c.st == .waiting && r.state c.arg w.d.now == .boarding) then w.setRingCmd die c.id .done
  else if c.st = .waiting then (w.markSlot die c.arg).setRingCmd die c.id .started
  else w

/-- RING_SLOT_ALIGHT: the slots that commands of the die name alight. -/
def execRingSlotAlight (die : Nat) (s : State) : Host.Outcome State Fault Refusal :=
  device s fun w =>
    ((w.d.die die).ringCmds.filter fun c => c.code == 2 && (c.st == .waiting || c.st == .started)).foldl
      (fun w c => w.alightCmd die c) w

/-- RING_DRAIN: every slot alights, boardings are held; done when every slot is free. -/
def execRingDrain (die : Nat) (s : State) : Host.Outcome State Fault Refusal :=
  device s fun w =>
    match w.ringCmd? die 3 with
    | none => w
    | some c =>
        let w :=
          if c.st = .waiting then
            ((w.d.die die).slots.foldl (fun w s => w.markSlot die s.1)
              (w.updDie die fun e => { e with drain := some c.slot })).setRingCmd die c.id .started
          else w
        if (w.d.die die).slots.any fun s => s.2.used then w else w.setRingCmd die c.id .done

/-- RING_DRAIN_END: held boardings proceed in arrival order. -/
def execRingDrainEnd (die : Nat) (s : State) : Host.Outcome State Fault Refusal :=
  device s fun w =>
    match w.ringCmd? die 4 with
    | none => w
    | some c => ((w.updDie die fun e => { e with drain := none }).evict die).setRingCmd die c.id .done

end Sys2Proof.Machine
end

