-- ==== Sys2Proof/Machine/Traps.lean ====
section
/-! DEFINITION. Handlers' records, the return from a trap, halt, and the signals of serviced faults (R210, R333, R345 to
R347). -/

namespace Sys2Proof.Machine

/-! ### Ready groups (R331) -/

/-- The active groups of a slot's partition. -/
def Work.activeIn (w : Work) (slot : Nat) : List Nat :=
  (partSlots (slotCore slot) (slot % 4)).filter fun k => ((w.grp? k).map Group.active).getD false

/-- A group that is stopped no longer, or new, sits in the pending set; GROUP_EXCHANGE makes it active. -/
def Work.readyAgain (w : Work) (slot : Nat) : Work := w.updGrp slot fun g => { g with active := false, since := 0 }

/-! ### Groups that issue again while a save is asked for (R349) -/

/-- PSTAT bit 0: a save that the core asked for is still draining. -/
def Work.setPstat (w : Work) (core : Nat) : Work :=
  let busy := w.d.blocks.any fun e => e.2.preq == some core && !e.2.drained
  w.updCore core fun c => { c with pstat := if busy then 1 else 0 }

/-- A stopped group of a block goes on by itself: the block is drained no longer, and the save asked for it waits for the group
again (DEDUCED, assumption 103). -/
def Work.undrain (w : Work) (blk : Nat) : Work :=
  let q := (w.blk? blk).bind Block.preq
  let w := w.updBlk blk fun b => { b with drained := false }
  match q with | some c => w.setPstat c | none => w

/-! ### The handler record (R345 step 4) -/

/-- The record at HTMPL with INL0 and INL1 replaced. -/
def Work.handlerRec (w : Work) (die addr cause : Nat) : Nat :=
  let x := w.objData (((w.d.die die).hTmpl.toNat % 2 ^ 57) / 64 * 64)
  x % 2 ^ 384 + 2 ^ 384 * addr + 2 ^ 448 * cause

/-- HANDLER_RECORD_APPEND: the record goes into queue HQ, behind its last one, and the queue is advanced; while the queue has
no room, the append waits. -/
def execHandlerRecordAppend (slot : Nat) (s : State) : Host.Outcome State Fault Refusal :=
  device s fun w =>
    match (w.grp? slot).bind fun g => g.append.head? with
    | none => w
    | some (addr, cause) =>
        let die := slotDie slot
        let q := (w.d.die die).hq.toNat % 2 ^ 14
        match w.d.queuePart q with
        | none => w
        | some p =>
            let x := w.descOf p q
            match w.headPa p q with
            | none => w
            | some pa =>
                let tail := bits (w.objData pa) 64 64
                match w.translate (w.d.partDie p) (dRAREA x + 64 * (tail % 2 ^ dLOG2N x)) .store false with
                | .error _ => w
                | .ok lf =>
                    if !w.leaseFree lf.pa || !homeUp w.d lf.pa then w
                    else
                      let r := w.gateUpdate pa fun w data =>
                        if bits data 64 64 < bits data 0 64 + 2 ^ dLOG2N x ∧ bits data 64 64 = tail then
                          ((w.homeWrite lf.pa 64 (w.handlerRec die addr cause)).updGrp slot fun g =>
                            { g with append := g.append.tail }, putBits data 64 64 (tail + 1))
                        else (w, data)
                      r.2

/-! ### tret (R346) -/

/-- The trapped group whose trap frame lies at an address; where two dies' frame areas overlap, a free choice of theirs
(R344). -/
def Work.trapAt (w : Work) (a : Nat) : Option Nat :=
  match (w.d.groups.filter fun e => decide (e.1 < 65536) && e.2.stop == some .trap && w.d.frameAddr e.1 == a).map (·.1) with
  | [] => none
  | k :: t => some (if t.isEmpty then k else (k :: t).getD (Config.choice w.d.free % (t.length + 1)) k)

/-- VALID of a frame is cleared. -/
def Work.clearValid (w : Work) (a : Nat) : Work := w.homeWrite a 1 (w.homeRead a 1 / 2 * 2)

/-- The group whose frame lies at `a` issues again at the frame's PC, or its block ends. -/
def Work.tret (w : Work) (slot a : Nat) : Work :=
  let f := bytesNat (w.physBytes a 64)
  let w := w.clearValid a
  let g := (w.grp? slot).getD Group.gone
  if bits f 128 2 = 0 then
    ((w.undrain g.blk).updGrp slot fun g =>
      (g.stopLanes.foldl (fun (g : Group) l =>
        g.updThread l fun t =>
          if t.st = .exited then t
          else { t with st := .runnable, wait := none, pc := BitVec.ofNat 57 (bits f 199 57) })
        { g with stop := none, stopLanes := [] }).meetings).readyAgain slot
  else w.endBlk g.blk (bits f 144 16)

/-- May the frame at `a` be ended now: its bytes' earlier stores by the issuing core have performed, its leases are over? -/
def Work.frameReady (w : Work) (a : Nat) : Bool :=
  w.leaseFree a && w.gateNow a && !(w.d.core w.coreNo).path.any fun e => overlap e.pa e.n a 64

/-- tret; a frame that cannot be read ends the block (R84). -/
def execTret (h : Hdr) (a : Opnd) (s : State) : Host.Outcome State Fault Refusal :=
  issue s h (a.names 2) [] fun w x =>
    let as := x.map fun l => (w.op64 l a).toNat
    if as.any fun a => (w.trapAt a).isSome && w.deadAt a true then .ok (w.deadEnd w.g.blk as) []
    else if as.any fun a => !w.frameReady a then .hold
    else if as.eraseDups.length != as.length || as.any fun a => (w.trapAt a).isNone || w.homeRead a 1 % 2 == 0 then
      .trap cHANDLE_BAD 0
    else
      .ok (as.foldl (fun w a => 
        match w.trapAt a with
        | some sl => (if w.d.frameShared a then w.fresh.2 else w).tret sl a
        | none => w) w) []

/-! ### halt (R214, R333) -/

/-- The group issues nothing more until an interrupt reaches its core. -/
def execHalt (h : Hdr) (s : State) : Host.Outcome State Fault Refusal :=
  issue s h [] [] fun w _ => .ok (w.updG fun g => { g with stop := some .halt, active := false }) []

/-- HALT_RESUME: an INTPEND bit is set whose INTMASK bit is set. -/
def execHaltResume (slot : Nat) (s : State) : Host.Outcome State Fault Refusal :=
  device s fun w =>
    match w.grp? slot with
    | none => w
    | some g =>
        let c := w.d.core (slotCore slot)
        if g.stop = some .halt ∧ slot < 65536 ∧ c.intPend &&& c.intMask ≠ 0 then
          ((w.undrain g.blk).updGrp slot fun g => { g with stop := none }).readyAgain slot
        else w

/-! ### Signals (R210, R347) -/

/-- The device signals a group's parked fault: its token register is written with SIG = 1 and, after FLT_ABSENT, the
notice at `notice` is no longer VALID. -/
def Work.signal (w : Work) (slot notice : Nat) : Work :=
  match (w.grp? slot).bind Group.pk with
  | none => w
  | some pk =>
      let w := w.updGrp slot fun g =>
        { g with sreg := sset g.sreg pk.tok (tokenBits true pk.page pk.cause), pk := some { pk with signalled := true, late := g.stop.isSome } }
      if pk.cause = cFLT_ABSENT then w.clearValid notice else w

/-- The group that a handle names (Table 21.2), or none where a field is out of place. -/
def handleGroup (x : Nat) : Option Nat :=
  if bits x 24 40 != 0 || bits x 0 8 != 0 then none
  else some (8192 * bits x 21 3 + 128 * bits x 15 6 + bits x 8 7)

/-- A write to SIGNAL: a handle with a reserved bit set is bad; a group with no parked fault is left as it is. -/
def execSignal (h : Hdr) (a : Opnd) (s : State) : Host.Outcome State Fault Refusal :=
  issue s h (a.names 2) [] fun w x =>
    let hs := x.map fun l => handleGroup (w.op64 l a).toNat
    if hs.contains none then .trap cHANDLE_BAD 0
    else
      let sl := hs.filterMap id
      if w.strongBefore w.slot x w.d.nextId || sl.any fun k => !w.leaseFree (w.d.frameAddr k + 256) then .hold
      else .ok (sl.foldl (fun w k => w.signal k (w.d.frameAddr k + 256)) w) []

/-- The detached block of a ticket. -/
def Work.ticket? (w : Work) (t : Nat) : Option Ticket := w.d.pkg.tickets.find? fun k => k.ticket == t

/-- A write to SIGTKT: the signal is held with the detached block, and the notice of the slot it stood in is no longer
VALID. -/
def execSigtkt (h : Hdr) (a : Opnd) (s : State) : Host.Outcome State Fault Refusal :=
  issue s h (a.names 2) [] fun w x =>
    let vs := x.map fun l => (w.op64 l a).toNat
    if vs.any fun v => (w.ticket? (v / 128 * 128)).isNone then .trap cHANDLE_BAD 0
    else if w.strongBefore w.slot x w.d.nextId then .hold
    else
      .ok (vs.foldl (fun w v =>
        match w.ticket? (v / 128 * 128) with
        | none => w
        | some t =>
            let k := t.key + v % 128
            if ((w.grp? k).map Group.blk) = some t.key then w.signal k (w.d.frameAddr k + 256) else w) w) []

/-- FAULT_SIGNAL: the fault of a group's parked threads has been serviced: the move of FLT_MIGRATE's page has ended, that of
FLT_LPDDR's page lies in stacked DRAM, the set that GROW_STALL waits for is free. -/
def execFaultSignal (slot : Nat) (s : State) : Host.Outcome State Fault Refusal :=
  device s fun w =>
    match w.grp? slot with
    | none => w
    | some g =>
        match g.pk with
        | none => w
        | some pk =>
            let moving := fun tier => w.pageMoves (slotDie slot) (65536 * pk.page) tier
            let done :=
              if pk.cause = cFLT_MIGRATE then !moving false
              else if pk.cause = cFLT_LPDDR then !moving true
              else if pk.cause = cGROW_STALL then decide (slot < 65536) && !w.holdsExt (partner slot)
              else false
            if !pk.signalled && done then w.signal slot 0 else w

end Sys2Proof.Machine
end

