-- ==== Sys2Proof/Machine/Save.lean ====
section
/-! DEFINITION. save and restore (R48 to R51, R214, R350). -/

namespace Sys2Proof.Machine

/-! ### Ranges of memory that the save engine moves -/

def Work.readRange (w : Work) (pages : List Nat) (va0 va n : Nat) : List Byte :=
  (List.range n).map fun i => w.physByte (pageAt pages va0 (va + i))

/-- A thread's save or restore on its way: the target, the slot's address, the name of its issue (R340), the slot's bytes, a
table's address and bytes, how many granules have been moved (one more once it is over), the bytes read so far as one
number, and the pages of the slot, then of the table. -/
structure Xfer where
  t : Nat
  va : Nat
  id : Nat
  n : Nat
  tva : Nat
  tn : Nat
  done : Nat
  acc : Nat
  pages : List Nat
  deriving DecidableEq, Repr

def Xfer.args (x : Xfer) : List Nat := [x.t, x.va, x.id, x.n, x.tva, x.tn, x.done, x.acc] ++ x.pages

def Xfer.ofArgs : List Nat → Xfer
  | t :: va :: id :: n :: tva :: tn :: done :: acc :: ps =>
      { t := t, va := va, id := id, n := n, tva := tva, tn := tn, done := done, acc := acc, pages := ps }
  | _ => { t := 0, va := 0, id := 0, n := 0, tva := 0, tn := 0, done := 1, acc := 0, pages := [] }

/-- Its granules in the order in which they move: with a table, the codebook record at the slot's end is the first and the
table the last. -/
def Xfer.granules (x : Xfer) : List (Nat × Nat) :=
  let slot := pageRun x.pages x.va x.va x.n
  if x.tn = 0 then slot
  else slot.drop (slot.length - 1) ++ slot.dropLast ++
    pageRun (x.pages.drop ((x.va + x.n - 1) / 65536 - x.va / 65536 + 1)) x.tva x.tva x.tn

/-- Granules are written from the `k`-th on, in order, while their homes take them; how many have been. `piece` gives the
bytes, none where nothing is written. -/
def Work.putMore (w : Work) (piece : Nat → Option (List Byte)) : List (Nat × Nat) → Nat → Work × Nat
  | [], k => (w, k)
  | (pa, n) :: t, k =>
      match piece k with
      | none => w.putMore piece t (k + 1)
      | some bs =>
          if w.leaseFree pa && w.gateNow pa then (w.homeWrite pa n (bytesNat bs)).putMore piece t (k + 1) else (w, k)

/-- Granules are read from the `k`-th on, in order, while their homes give them, the next at byte `o` of what has been
read. -/
def Work.getMore (w : Work) : List (Nat × Nat) → Nat → Nat → Nat → Work × Nat × Nat
  | [], _, k, acc => (w, k, acc)
  | (pa, n) :: t, o, k, acc =>
      if w.gateNow pa then
        let r := w.raceRead ((List.range n).map (pa + ·))
        (r.2.homeTouch pa).getMore t (o + n) (k + 1) (acc + bytesNat r.1 * 2 ^ (8 * o))
      else (w, k, acc)

/-! ### The group image (Tables 2.5 to 2.7, 2.9) -/

def TState.code : TState → Nat
  | .runnable => 0 | .held => 1 | .waiting => 2 | .orphaned => 3 | .exited => 4

/-- The state that a saved code gives; a code above 4, which no save writes, gives exited (DESIGN CHOICE, assumption 108). -/
def TState.ofCode (n : Nat) : TState :=
  match n with
  | 0 => .runnable | 1 => .held | 2 => .waiting | 3 => .orphaned | _ => .exited

/-- Bytes 0 to 63 of the header (Table 2.6). -/
def Group.head0 (g : Group) (vb : Nat) : Nat :=
  g.extH.toNat + 2 * g.growW.isSome.toNat + 2 ^ 8 * vb + 2 ^ 64 * (g.issue % 2 ^ 64) + 2 ^ 128 * g.contTok +
    2 ^ 192 * g.contPc.toNat + 2 ^ 255 * g.cv.toNat + 2 ^ 256 * (g.horizon % 2 ^ 64) +
    ((List.range 6).map fun k => 2 ^ (320 + 32 * k) * (sget g.cnt k 0 % 2 ^ 32)).sum

def Group.parkMask (g : Group) : Nat := (maskOf (g.lanesWith fun t => t.parked && t.alive)).toNat

/-- Bytes 64 to 127 (Table 2.9). -/
def Group.head1 (g : Group) : Nat :=
  let pm := g.parkMask
  let pk := fun (f : Parked → Nat) => if pm = 0 then 0 else (g.pk.map f).getD 0
  pk (fun p => p.pc.toNat) + 2 ^ 64 * pm + 2 ^ 96 * g.mSpad.toNat + 2 ^ 112 * g.mExt.toNat + 2 ^ 120 * g.mBase.toNat +
    2 ^ 128 * pk Parked.tok +
    ((List.range 21).map fun b =>
      let st := sget g.bar b { arr := false, owe := false, phase := 0 }
      2 ^ (150 + 2 * b) * (st.arr.toNat + 2 * st.owe.toNat)).sum +
    (match g.hmix with
      | some h => 2 ^ 192 + 2 ^ 295 * h.lanes.toNat + 2 ^ 327 * h.addr.toNat + 2 ^ 384 * h.instr.toNat
      | none => 0)

/-- A thread record (Table 2.7). -/
def Thread.image (t : Thread) : Nat :=
  t.pc.toNat + 2 ^ 61 * t.st.code + 2 ^ 64 * (t.m.getD 0).toNat + 2 ^ 127 * t.m.isSome.toNat + 2 ^ 128 * t.l0.toNat +
    2 ^ 160 * t.l1.toNat + 2 ^ 192 * t.l2.toNat + 2 ^ 224 * t.l3.toNat + 2 ^ 256 * t.p.toNat +
    ((List.range 16).map fun i => 2 ^ (272 + i) * (t.qmap i).isSome.toNat).sum + 2 ^ 288 * (t.stamp % 2 ^ 32) +
    2 ^ 320 * t.seed.toNat + ((List.range 16).map fun i => 2 ^ (384 + 8 * i) * ((t.qmap i).getD 0)).sum

/-- Is V register `n` live (R208)? For a group stopped elsewhere than at a phint every register is. -/
def Group.vLive (g : Group) (n : Nat) : Bool :=
  if g.stop = some .phint then
    (if n < 64 then g.mBase.getLsbD (n / 8) else g.mExt.getLsbD ((n - 64) / 24))
  else true

/-- The V registers of an image: those that are not live hold free values. -/
def Work.vImage (w : Work) (g : Group) (from_ upto : Nat) : List Byte :=
  (List.range (upto - from_)).flatMap fun i => (List.range 32).flatMap fun l =>
    let n := from_ + i
    natBytes 4 (if g.vLive n then g.readV l n else Config.freeWord (w.d.free + 32 * n + l)).toNat

/-- A group with the extended set that it still waits for, as its image holds it. -/
def Group.whole (g : Group) : Group :=
  match g.extIn with
  | some e => { g.grantIn e with growW := none }
  | none => g

/-- The group image (Table 2.5). Between the base set of a VB below 8 and 0x2D00 the table gives no content; zeros are
written (DESIGN CHOICE, assumption 71). -/
def Work.groupImage (w : Work) (g : Group) (vb : Nat) : List Byte :=
  natBytes 64 (g.head0 vb) ++ natBytes 64 g.head1 ++ List.replicate 128 0 ++
    ((List.range 32).flatMap fun l => natBytes 64 (g.thread l).image) ++
    ((List.range 64).flatMap fun n => natBytes 8 (g.readS n).toNat) ++
    ((List.range 16).flatMap fun n => natBytes 32 (g.readT n).toNat) ++ w.vImage g 0 (8 * vb) ++
    (if g.extH then List.replicate (1024 * (8 - vb)) 0 ++ w.vImage g 64 256 else [])

/-- The bytes of an image: 0x0D00 + 1,024·VBASE, or up to 0x8D00 with the extended set. -/
def imageSize (vb : Nat) (ext : Bool) : Nat := if ext then 0x8D00 else 0xD00 + 1024 * vb

/-! ### The checks of save and restore (R214) -/

/-- The stopped group of a handle. -/
def Work.stoppedGroup (w : Work) (x : Nat) : Option Nat :=
  (handleGroup x).bind fun s => match w.grp? s with
    | some g => if g.stop.isSome then some s else none
    | none => none

/-- Every non-exited group of a block has stopped. -/
def Work.blkStopped (w : Work) (blk : Nat) : Bool :=
  (w.blockMembers blk).all fun s => ((w.grp? s).map fun g => g.stop.isSome).getD false

/-- The block of a handle (Table 21.2). -/
def Work.handleBlk (w : Work) (x : Nat) : Option Nat :=
  if bits x 63 1 = 0 then none
  else (handleGroup (x % 2 ^ 63)).bind fun s => if (w.blk? s).isSome then some s else none

def Work.stoppedBlock (w : Work) (x : Nat) : Option Nat :=
  (w.handleBlk x).bind fun b => if w.blkStopped b then some b else none

/-- Before a group's image is written every result owed to it has landed, its ring operations have applied, its capture is
over, and its engine operations have retired (R126, R177, R277, R303). -/
def Work.groupQuiet (w : Work) (slot : Nat) : Bool :=
  match w.grp? slot with
  | none => true
  | some g => g.owed.isEmpty && !w.ringBusy slot && (match g.cap with | some c => c.timedOut | none => true) &&
      !w.d.ops.any fun e => e.slots.contains slot

/-- One lane's slot address and target are checked, in the order of R188, and the slot's `size target` bytes translated. -/
def Work.slotOf (w : Work) (va : Nat) (target : Option Nat) (size : Nat → Nat) (kind : XKind) : Except Fail Xfer :=
  if va % 256 != 0 then .error { rank := 4, cause := cMISALIGN, addr := va % 2 ^ 57 }
  else if 2 ^ 57 ≤ va then .error { rank := 5, cause := cADDR_RANGE, addr := va % 2 ^ 57 }
  else
    match target with
    | none => .error { rank := 6, cause := cHANDLE_BAD, addr := 0 }
    | some t =>
        match w.mapPages w.dieNo kind false va (size t) with
        | .error e => .error { rank := 7, cause := e.1, addr := e.2 }
        | .ok ps => .ok { t := t, va := va, id := w.d.nextId, n := size t, tva := 0, tn := 0, done := 0, acc := 0, pages := ps }

/-- The lanes' transfers go on, each after the one before it (R240); with what is left of them, and whether nothing is. -/
def Work.moveAll (w : Work) (one : Work → Xfer → Work × Xfer) : List (Nat × Xfer) → Work × List (Nat × Xfer) × Bool
  | [] => (w, [], true)
  | (l, x) :: t =>
      if x.granules.length < x.done then
        let q := w.moveAll one t
        (q.1, (l, x) :: q.2.1, q.2.2)
      else
        let r := one w x
        if x.granules.length < r.2.done then
          let q := r.1.moveAll one t
          (q.1, (l, r.2) :: q.2.1, q.2.2)
        else (r.1, (l, r.2) :: t, false)

/-- A save or restore: every lane is checked at issue, the thread's earlier accesses come first, and the threads wait in it
until the whole image has moved (R214). A granule that no home can serve ends the block (R84, R361). -/
def slotOp (s : State) (h : Hdr) (slot handle : Opnd) (reads : Bool) (start : Work → Nat → Nat → Except Fail Xfer)
    (one : Work → Xfer → Work × Xfer) : Host.Outcome State Fault Refusal :=
  issue s h (slot.names 2 ++ handle.names 2) [] fun w x =>
    match if w.d.cur.stamped then .ok (x.map fun l => Xfer.ofArgs (w.kept l []))
      else collect (x.map fun l => start w (w.op64 l slot).toNat (w.op64 l handle).toNat) with
    | .error f => .xlate f.cause f.addr
    | .ok xs =>
        if !w.d.cur.stamped && !w.accessesDone then .hold
        else if xs.any fun y => (y.granules.drop y.done).any fun p => w.deadAt p.1 reads then
          .ok (w.deadEnd w.g.blk (if reads then xs.flatMap fun y => (y.granules.drop y.done).map Prod.fst else [])) []
        else
          let r := w.moveAll one (x.zip xs)
          if r.2.2 then .ok r.1 [] else .wait r.1 x (.cont (r.2.1.map fun p => (p.1, p.2.args))) []

def Work.vbOf (w : Work) (g : Nat) : Nat := (((w.grp? g).bind fun g => w.blk? g.blk).map Block.vbase).getD 0
def Work.extOf (w : Work) (g : Nat) : Bool := ((w.grp? g).map fun g => g.extH || g.extIn.isSome).getD false

/-- A step of a save: once the groups are quiet, the image's granules go to the slot. -/
def saveStep (slots : Work → Nat → List Nat) (image : Work → Nat → List Byte) (live : Work → Nat → Nat → Bool) (w : Work)
    (x : Xfer) : Work × Xfer :=
  if !(slots w x.t).all w.groupQuiet then ((slots w x.t).foldl (fun w k => w.updGrp k Group.closeAll) w, x)
  else
    let img := image w x.t
    let piece := fun k => if live w x.t (16 * k) then some ((img.drop (16 * k)).take 16) else none
    let r := (w.updDev fun d => { d with free := d.free + 8192 }).putMore piece (x.granules.drop x.done) x.done
    (r.1, { x with done := if r.2 = x.granules.length then r.2 + 1 else r.2 })

/-- save, group form (R49). -/
def execSaveGroup (h : Hdr) (slot handle : Opnd) (s : State) : Host.Outcome State Fault Refusal :=
  slotOp s h slot handle false
    (fun w va x => w.slotOf va (w.stoppedGroup x) (fun t => imageSize (w.vbOf t) (w.extOf t)) .engW)
    (saveStep (fun _ t => [t]) (fun w t => ((w.grp? t).map fun g => w.groupImage g.whole (w.vbOf t)).getD []) fun w t _ => (w.grp? t).isSome)

/-! ### restore, group form (R48, R51, R350) -/

/-- The full stamp whose low 32 bits an image holds: the latest that is not above the issue counter. -/
def fullStamp (issue low : Nat) : Nat := issue - (issue + 2 ^ 32 - low) % 2 ^ 32

def Thread.ofImage (old : Thread) (x issue : Nat) (parked : Bool) : Thread :=
  { old with
    pc := BitVec.ofNat 57 x, m := if bits x 127 1 = 1 then some (BitVec.ofNat 57 (bits x 64 57)) else none
    stamp := fullStamp issue (bits x 288 32), st := TState.ofCode (bits x 61 3), wait := none, parked := parked
    p := BitVec.ofNat 15 (bits x 256 15), l0 := BitVec.ofNat 32 (bits x 128 32), l1 := BitVec.ofNat 32 (bits x 160 32)
    l2 := BitVec.ofNat 32 (bits x 192 32), l3 := BitVec.ofNat 32 (bits x 224 32)
    q := (List.range 16).filterMap fun i => if bits x (272 + i) 1 = 1 then some (i, BitVec.ofNat 8 (bits x (384 + 8 * i) 8)) else none
    seed := BitVec.ofNat 64 (bits x 320 64) }

/-- The V registers of an image, as entries of `v`. -/
def vEntries (bs : List Byte) (from_ upto : Nat) : Sparse Word :=
  let ws := (List.range ((upto - from_) * 32)).map fun i => BitVec.ofNat 32 (bytesNat ((bs.drop (4 * i)).take 4))
  (List.range 32).flatMap fun l => (List.range (upto - from_)).map fun i => (256 * l + from_ + i, ws.getD (32 * i + l) 0)

/-- The parked fault after a restore: what the device records of it stays, or is read off the token register. -/
def parkedOf (old : Option Parked) (h1 : Nat) (tok : DWord) : Option Parked :=
  if bits h1 64 32 = 0 then none
  else
    match old with
    | some p => some { p with pc := BitVec.ofNat 57 (bits h1 0 57), tok := bits h1 128 8 }
    | none => some { pc := BitVec.ofNat 57 (bits h1 0 57), tok := bits h1 128 8, cause := bits tok.toNat 0 16,
                     page := bits tok.toNat 16 41, signalled := tok.getLsbD 63, late := false }

/-- The group that an image gives; its barriers' phases are set when it goes (`Work.goPhases`). -/
def Group.ofImage (old : Group) (bs : List Byte) (vb horizon now : Nat) : Group :=
  let at_ := fun o n => bytesNat ((bs.drop o).take n)
  let h0 := at_ 0 64
  let h1 := at_ 64 64
  let issue := bits h0 64 64
  let ss := (List.range 64).map fun n => (n, BitVec.ofNat 64 (at_ (0x900 + 8 * n) 8))
  { old with
    thr := (List.range 32).map fun l =>
      (l, (old.thread l).ofImage (at_ (0x100 + 64 * l) 64) issue (decide (bits h1 (64 + l) 1 = 1)))
    v := (vEntries (bs.drop 0xD00) 0 (8 * vb) ++ (if bits h0 0 1 = 1 then vEntries (bs.drop 0x2D00) 64 256 else [])).foldl
      (fun m e => sset m e.1 e.2) []
    sreg := ss
    spend := []
    t := (List.range 16).map fun n => (n, BitVec.ofNat 256 (at_ (0xB00 + 32 * n) 32))
    issue := issue
    cnt := (List.range 6).map fun k => (k, bits h0 (320 + 32 * k) 32)
    horizon := horizon
    acks := 0
    cv := bits h0 255 1 == 1, contPc := BitVec.ofNat 57 (bits h0 192 57), contTok := bits h0 128 8
    extH := bits h0 0 1 == 1
    growW := if bits h0 1 1 = 1 then some now else none
    mBase := BitVec.ofNat 8 (bits h1 120 8), mExt := BitVec.ofNat 8 (bits h1 112 8), mSpad := BitVec.ofNat 16 (bits h1 96 16)
    pk := parkedOf old.pk h1 (BitVec.ofNat 64 (at_ (0x900 + 8 * bits h1 128 8) 8))
    hmix := if bits h1 192 1 = 1 then
        some { addr := BitVec.ofNat 57 (bits h1 327 57), instr := BitVec.ofNat 128 (bits h1 384 128),
               lanes := BitVec.ofNat 32 (bits h1 295 32) } else none
    bar := (List.range 21).map fun b =>
      (b, { arr := bits h1 (150 + 2 * b) 1 == 1, owe := bits h1 (151 + 2 * b) 1 == 1, phase := 0 })
    owed := [], acq := [], pendFault := none, stopLanes := [], cap := none, extIn := none }

/-- How a thread goes on that waits at an mma: one that has signed waits on, any other issues again (R51). -/
def Work.signWhy (w : Work) (slot l : Nat) (why : Why) (word : Nat) : Why :=
  match decode true word with
  | .ok (.mma _ o) | .ok (.smma _ o) => if w.signing slot l o then .cont [] else .hold
  | _ => why

/-- The values of a lane's wait.v as restore begins them: its word is read again (R51). -/
def Work.waitvVals (w : Work) (o : WaitVOp) (l : Nat) : Option (List Nat) :=
  ((w.place (if o.shared then .s else .g) (w.waitvEa o l) o.ty.bytes .load l).toOption).map fun p =>
    [placeKey p, w.opBytes l o.a o.ty.bytes, w.d.nextId, w.d.now, (w.waitvEa o l).toNat]

/-- Why a thread saved as waiting waits, from the instruction at its PC (R51): waits inside an instruction go on, others
come before any effect and the instruction issues again. A bo.wait had issued unless the thread still holds it, or it would
fail its checks. -/
def Work.waitOf (w : Work) (slot l : Nat) (old : Thread) : Wait :=
  let g := (w.grp? slot).getD Group.gone
  let t := g.thread l
  let priv := ((w.blk? g.blk).getD Block.gone).priv
  let w := { w with d := { w.d with cur := { slot := slot, lanes := [l], pc := t.pc, len := 8, word := 0, stamped := false } } }
  let hold : Wait := { why := .hold, iss := t.stamp, word := 0, len := 8 }
  match w.translate (slotDie slot) t.pc.toNat .fetch (!priv) with
  | .error _ => hold
  | .ok lf =>
      let x := bytesNat (w.physBytes lf.pa 16)
      let len := (lenBytes (x % 4)).getD 8
      let x := x % 2 ^ (8 * len)
      let wt : Wait := { hold with word := x, len := len }
      match decode priv x with
      | .error _ => wt
      | .ok i =>
          match i with
          | .barArrive _ _ _ | .barWait _ _ _ | .ringWait _ _ | .contResume _ _ => { wt with why := .cont [] }
          | .boWait _ a _ =>
              let held := old.st == .waiting && old.pc == t.pc && (old.wait.map Wait.why) == some .hold
              { wt with why := if held || (w.boFail a [l]).isSome then .hold else .cont [] }
          | .mma _ _ | .smma _ _ => { wt with why := w.signWhy slot l .hold x }
          | .waitV _ o => { wt with why := ((w.waitvVals o l).map fun vs => Why.cont [(l, vs)]).getD .hold }
          | .nap _ a => { wt with why := .nap w.d.now [(l, (w.op32 l a).toNat % 65536)] }
          | .grow _ => { wt with why := .grow }
          | _ => wt

/-- EXTH of the image at a virtual address. -/
def Work.headExt (w : Work) (va : Nat) : Bool :=
  match w.translate w.dieNo va .engR false with
  | .ok lf => bits (w.physByte lf.pa).toNat 0 1 == 1
  | .error _ => false

/-- A step of a restore: the granules are read; with the last of them `act` loads the image, once it may. -/
def restoreStep (act : Work → Xfer → List Byte → Option Work) (w : Work) (x : Xfer) : Work × Xfer :=
  let gs := x.granules
  let r := w.getMore (gs.drop x.done) ((gs.take x.done).map (·.2)).sum x.done x.acc
  let x := { x with done := r.2.1, acc := r.2.2 }
  if x.done < gs.length then (r.1, x)
  else
    match act r.1 x (natBytes (gs.map (·.2)).sum x.acc) with
    | some w => (w, { x with done := x.done + 1 })
    | none => (r.1, x)

/-- A read that a lane must make at issue waits until the home of its bytes gives them, or ends the block (R84, R361). -/
def Work.headFails (w : Work) (va : Nat) (gs : List (Nat × Nat)) : Option Fail :=
  if gs.any fun p => w.deadAt p.1 true then some { rank := 7, cause := cWALKDEAD, addr := va }
  else if gs.any fun p => !w.gateNow p.1 then some { rank := 7, cause := cWALKWAIT, addr := va }
  else none

/-- A group with an image's V64 to V255 taken out, to be loaded when the pair's extended set is granted. -/
def Group.waitExt (g : Group) (now : Nat) : Group :=
  { g with extH := false, growW := some now, v := g.v.filter fun e => e.1 % 256 < 64
           extIn := some { regs := g.v.filter fun e => 64 ≤ e.1 % 256, go := false } }

/-- The image is loaded. Where it holds V64 to V255 and the set is not free for the group, these are loaded when the set is
granted, as a grow waits (R350). -/
def Work.loadGroup (w : Work) (t : Nat) (bs : List Byte) : Option Work :=
  match w.grp? t with
  | none => some w
  | some g =>
      let g' := g.ofImage bs (w.vbOf t) (coreCount w.d.now (slotCore t)) w.d.now
      let g' := if g'.extH && !(g.extH || w.setFree t w.d.now) then g'.waitExt w.d.now else g'
      let w := w.setGrp t g'
      let ws := (List.range 32).filterMap fun l =>
        if (g'.thread l).st = .waiting ∨ (g'.thread l).st = .orphaned then some (l, w.waitOf t l (g.thread l)) else none
      some (w.updGrp t fun g => ws.foldl (fun g p => g.updThread p.1 fun th => { th with wait := some p.2 }) g)

/-- restore, group form: VB must equal the launch's VBASE; the header is read at issue. -/
def execRestoreGroup (h : Hdr) (slot handle : Opnd) (s : State) : Host.Outcome State Fault Refusal :=
  slotOp s h slot handle true
    (fun w va x =>
      match w.slotOf va (w.stoppedGroup x) (fun t => imageSize (w.vbOf t) (w.headExt va)) .engR with
      | .error e => .error e
      | .ok x =>
          let gs := (pageRun x.pages va va x.n).take 4
          match w.headFails va gs with
          | some f => .error f
          | none =>
              let hdr := bytesNat (w.readRange x.pages va va 64)
              if bits hdr 8 4 = w.vbOf x.t then .ok { x with done := 4, acc := hdr }
              else .error { rank := 8, cause := cHANDLE_BAD, addr := 0 })
    (restoreStep fun w x bs => w.loadGroup x.t bs)

/-! ### The block image (Table 2.8, R350) -/

/-- Threads `32·g + l` of a set, one bit each. -/
def setBits (ts : List Nat) : Nat := (ts.map fun t => 2 ^ t).sum

def Join.image (j : Join) : List Byte :=
  natBytes 128 (setBits j.declared) ++ natBytes 128 (setBits j.signed) ++ natBytes 16 j.word.toNat ++
    natBytes 8 (match j.st with | .idle => 0 | .armed => 1 | .issued => 2) ++ List.replicate 40 0

def bitsSet (x : Nat) : List Nat := (List.range 1024).filter fun t => x.testBit t

def Join.ofImage (bs : List Byte) : Join :=
  { declared := bitsSet (bytesNat (bs.take 128)), signed := bitsSet (bytesNat ((bs.drop 128).take 128))
    word := BitVec.ofNat 128 (bytesNat ((bs.drop 256).take 16))
    st := match bytesNat ((bs.drop 272).take 8) % 4 with | 0 => .idle | 1 => .armed | _ => .issued }

def Work.blockImage (w : Work) (blk : Nat) (b : Block) : List Byte :=
  let members := w.blockMembers blk
  ((List.range 64).flatMap fun n => natBytes 8 (b.readB n).toNat) ++
    ((List.range 64).map fun n => BitVec.ofNat 8 ((sget? b.bown n).getD 0xFF)) ++
    ((List.range 16).flatMap fun n =>
      let bar := sget b.bars n Bar.zero
      natBytes 8 (bar.phase % 2 ^ 32 + 2 ^ 32 * (members.filter fun s => !bar.arrived.contains s).length)) ++
    List.replicate 64 0 ++ ((List.range 8).flatMap fun j => (sget b.joins j Join.idle).image) ++
    (List.range b.acc).flatMap fun a => (List.range 4096).flatMap fun i => natBytes 4 (sget b.accs (4096 * a + i) 0).toNat

/-- The 16-byte codebook record (R350). -/
def Block.cbImage (b : Block) : List Byte := natBytes 16 (b.cbRec + 2 ^ 127 * b.cb.isSome.toNat)

/-- The window map that a save writes (R208): the union of the groups' maps, or everything where a group is stopped
elsewhere than at a phint. -/
def Work.savedMap (w : Work) (blk : Nat) : Nat :=
  match w.blk? blk with
  | none => 0
  | some b =>
      let gs := (b.slots blk).filterMap w.grp?
      if gs.any fun g => g.stop == some .trap || g.stop == some .halt then 0xFFFF
      else (gs.foldl (fun (m : BitVec 16) (g : Group) => m ||| g.mSpad) 0).toNat

/-- Offsets of a block's slot: the window's and the codebook record's, and the whole length. -/
def winOff (b : Block) : Nat := 0xD00 + 16384 * b.acc
def blockSize (w : Work) (blk : Nat) : Nat :=
  match w.blk? blk with
  | some b => winOff b + 1024 * b.spad + 16
  | none => 16

/-- The bytes of a block's slot: the image, the window, the codebook record (R350). -/
def Work.blockSlot (w : Work) (blk : Nat) : List Byte :=
  match w.blk? blk with
  | none => []
  | some b => w.blockImage blk b ++ w.loadBytes (spadKey blk 0) (1024 * b.spad) ++ b.cbImage

/-- Is byte `o` of a block's slot written: all but the window's bytes that the map does not name (R208, R350)? -/
def Work.slotLive (w : Work) (blk o : Nat) : Bool :=
  match w.blk? blk with
  | none => false
  | some b => decide (o < winOff b) || decide (winOff b + 1024 * b.spad ≤ o) ||
      (w.savedMap blk).testBit ((o - winOff b) / (64 * b.spad))

def Work.slotsOf (w : Work) (blk : Nat) : List Nat := ((w.blk? blk).map fun b => b.slots blk).getD []

/-- save, block form. -/
def execSaveBlock (h : Hdr) (slot handle : Opnd) (s : State) : Host.Outcome State Fault Refusal :=
  slotOp s h slot handle false (fun w va x => w.slotOf va (w.stoppedBlock x) (blockSize w) .engW) fun w x =>
    let r := saveStep Work.slotsOf Work.blockSlot Work.slotLive w x
    (r.1.updBlk x.t fun b => { b with saved := w.savedMap x.t }, r.2)

/-- The reloaded codebook: of each entry the recorded address's bytes now or, where the block held it, the old ones. -/
def reloadBook (free : Nat) (rec_ : Nat) (old : Option Codebook) (new : List Byte) : Codebook :=
  let vec := bits rec_ 72 3
  let n := 4 * 2 ^ vec
  let entries := bits rec_ 64 8 + 1
  { addr := BitVec.ofNat 57 (bits rec_ 0 57), entries := entries, vec := vec
    data := (List.range entries).flatMap fun e =>
      match old with
      | some o => if Config.choice (free + e) % 2 = 1 then (o.data.drop (n * e)).take n else (new.drop (n * e)).take n
      | none => (new.drop (n * e)).take n }

/-- Does a codebook record name a table: its address and bytes. -/
def bookRange (rec_ : Nat) : Nat × Nat :=
  if bits rec_ 127 1 = 0 then (0, 0) else (bits rec_ 0 57, 4 * 2 ^ bits rec_ 72 3 * (bits rec_ 64 8 + 1))

/-- A block takes the bytes of its slot, and of its codebook's table: bytes of the window that the save did not write are
undefined. -/
def Work.loadBlock (w : Work) (t : Nat) (rec_ : Nat) (bs win table : List Byte) : Work :=
  let free := w.d.free + 256
  let word := fun i => BitVec.ofNat 32 (bytesNat ((bs.drop (0xD00 + 4 * i)).take 4))
  match w.blk? t with
  | none => w
  | some b =>
      let w1 := (w.updDev fun d => { d with free := free + 1024 * b.spad }).updBlk t fun b =>
        { b with
          b := (List.range 64).map fun n => (n, BitVec.ofNat 64 (bytesNat ((bs.drop (8 * n)).take 8)))
          bown := (List.range 64).filterMap fun n =>
            let o := (bs.getD (0x200 + n) 0).toNat
            if o = 0xFF then none else some (n, o)
          bars := (List.range 16).map fun n =>
            (n, { Bar.zero with phase := bytesNat ((bs.drop (0x240 + 8 * n)).take 4) })
          joins := (List.range 8).map fun j => (j, Join.ofImage ((bs.drop (0x300 + 320 * j)).take 320))
          accs := (List.range (4096 * b.acc)).map fun i => (i, word i)
          cb := if bits rec_ 127 1 = 0 then none else some (reloadBook w.d.free rec_ b.cb table)
          cbRec := rec_ % 2 ^ 75 }
      w1.storeBytes (spadKey t 0) ((win.zip (List.range (1024 * b.spad))).map fun p =>
        if b.saved.testBit (p.2 / (64 * b.spad)) then p.1 else Config.freeByte (free + p.2))

/-- restore, block form: the codebook record is read at issue, and its table translated as the block translates it. -/
def execRestoreBlock (h : Hdr) (slot handle : Opnd) (s : State) : Host.Outcome State Fault Refusal :=
  slotOp s h slot handle true
    (fun w va x =>
      match w.slotOf va (w.stoppedBlock x) (blockSize w) .engR with
      | .error e => .error e
      | .ok x =>
          match w.headFails (va + x.n - 16) ((pageRun x.pages va va x.n).drop (x.n / 16 - 1)) with
          | some f => .error f
          | none =>
              let rec_ := bytesNat (w.readRange x.pages va (va + x.n - 16) 16)
              let tb := bookRange rec_
              match w.mapPages w.dieNo .engR (!((w.blk? x.t).getD Block.gone).priv) tb.1 tb.2 with
              | .error e => .error { rank := 8, cause := e.1, addr := e.2 }
              | .ok ps => .ok (if tb.2 = 0 then x
                  else { x with tva := tb.1, tn := tb.2, done := 1, acc := rec_, pages := x.pages ++ ps }))
    (restoreStep fun w x bs =>
      let n := x.n - 16
      let b := (w.blk? x.t).getD Block.gone
      if x.tn = 0 then some (w.loadBlock x.t (bytesNat (bs.drop n)) bs ((bs.drop (winOff b)).take (1024 * b.spad)) [])
      else
        let body := (bs.drop 16).take n
        some (w.loadBlock x.t (bytesNat (bs.take 16)) body ((body.drop (winOff b)).take (1024 * b.spad)) (bs.drop (16 + n))))

end Sys2Proof.Machine
end

