-- ==== Sys2Proof/Machine/Place.lean ====
section
/-! DEFINITION. Where blocks fit (R326), moving a block between slots (R348), and local windows (R74, R341). -/

namespace Sys2Proof.Machine

/-! ### Fitting (R326) -/

/-- Resident blocks of a core. -/
def Work.coreBlocks (w : Work) (core : Nat) : List (Nat × Block) :=
  w.d.blocks.filter fun e => decide (e.1 < 65536) && slotCore e.1 == core

/-- The offsets, in KiB, at which a window of `spad` KiB meets none of a core's blocks' windows. -/
def Work.freeWins (w : Work) (core spad : Nat) : List Nat :=
  (List.range (385 - spad)).filter fun o =>
    (w.coreBlocks core).all fun e => spad == 0 || e.2.spad == 0 || decide (o + spad ≤ e.2.win) || decide (e.2.win + e.2.spad ≤ o)

/-- Where a new window goes: a free choice of the free offsets. -/
def Work.pickWin (w : Work) (core spad : Nat) : Nat × Work :=
  let f := w.fresh
  let os := w.freeWins core spad
  (os.getD (Config.choice f.1 % os.length) 0, f.2)

/-- Do `n` groups fit at slot `slot` of the package, with `spad` KiB of scratchpad, `acc` accumulators and, if asked, a
codebook place? The base sets of all slots always fit (R36), and local windows have places of their own (R341). -/
def Work.fits (w : Work) (slot n spad acc : Nat) (book : Bool) : Bool :=
  let core := slot / 128
  let bs := w.coreBlocks core
  let qs := (List.range 4).flatMap fun k => w.coreBlocks (core / 4 * 4 + k)
  decide (slot < 65536) && slot % 4 == 0 && decide (slot % 128 + n ≤ 128) &&
    (List.range n).all (fun k => (w.grp? (slot + k)).isNone) &&
    bs.all (fun e => decide (slot + n ≤ e.1) || decide (e.1 + e.2.gcnt ≤ slot)) &&
    decide (spad ≤ 384) && !(w.freeWins core spad).isEmpty && decide ((qs.map fun e => e.2.acc).sum + acc ≤ 64) &&
    (!book || decide ((bs.filter fun e => e.2.cb.isSome || w.cbLoading e.1).length < 4))

/-- A die takes blocks: its cores and its ring are ready (R361). -/
def Dev.dieServes (d : Dev) (die : Nat) : Bool := d.pkg.rdyPkg.getLsbD (bDIE die) && d.pkg.rdyPkg.getLsbD (bRING die)

/-! ### Moving a block to other slots -/

/-- The block whose group 0 is in slot `old` and its groups move to the slots from `new` on; arrivals counted at
barriers, sends on their way, the staggers counted from it, and its scratchpad's records of order move with them. -/
def Work.moveBlk (w : Work) (old new : Nat) : Work :=
  match w.blk? old with
  | none => w
  | some b =>
      let mv : Nat → Nat := fun s => if old ≤ s ∧ s < old + b.gcnt then new + (s - old) else s
      let bar : Bar → Bar := fun x => { x with arrived := x.arrived.map mv }
      let gs := (List.range b.gcnt).filterMap fun k => (w.grp? (old + k)).map fun g => (new + k, { g with blk := new })
      (w.spadRecords old b.spad (some new)).updDev fun d => { d with
        groups := gs.foldl (fun m e => sset m e.1 e.2) (d.groups.filter fun e => !(decide (old ≤ e.1) && decide (e.1 < old + b.gcnt)))
        blocks := (sset (sdel d.blocks old) new { b with bars := b.bars.map fun e => (e.1, bar e.2) }).map fun e =>
          (e.1, { e.2 with stagger := e.2.stagger.map fun p => (p.1.map fun k => if k = old then new else k, p.2) })
        launches := d.launches.map fun l => (l.1, { l.2 with bars := l.2.bars.map fun e => (e.1, bar e.2) })
        pkg := { d.pkg with
          podBars := d.pkg.podBars.map fun e => (e.1, { e.2 with bar := bar e.2.bar })
          sends := d.pkg.sends.map fun x => { x with slot := mv x.slot }
          outbox := d.pkg.outbox.map fun x => { x with slot := mv x.slot } } }

/-! ### Local windows (R341) -/

/-- The first address of the window of the group in a slot. -/
def Dev.localBase (d : Dev) (slot : Nat) : Nat :=
  ((d.die (slotDie slot)).locBase.toNat % 2 ^ 57 / 2 ^ 21 * 2 ^ 21 + 2 ^ 21 * (slot % 8192)) % 2 ^ 57

/-- The pages of a group's window, whatever their MIG, TIER and permissions; none where privileged software has not mapped
it (R341). -/
def Work.localPages (w : Work) (slot kb : Nat) : Option (List Nat) :=
  if kb = 0 then none else w.leafPages (slotDie slot) (w.d.localBase slot) (32768 * kb)

def Work.readLocal (w : Work) (slot kb : Nat) : List Byte :=
  match w.localPages slot kb with
  | none => []
  | some ps => w.readRange ps (w.d.localBase slot) (w.d.localBase slot) (32768 * kb)

/-- A core's copies of a window's lines are dropped: what they hold was another block's, or another place's (R74, R348). -/
def Work.dropWindow (w : Work) (core kb base : Nat) (ps : List Nat) : Work :=
  (List.range (64 * kb)).foldl (fun w i => w.dropLine core (pageAt ps base (base + 512 * i))) w

/-- A window's bytes are written, an object at a time. -/
def Work.writeLocal (w : Work) (slot kb : Nat) (bs : List Byte) : Work :=
  match w.localPages slot kb with
  | none => w
  | some ps => ((List.range (512 * kb)).foldl (fun w i =>
      w.homeWrite (pageAt ps (w.d.localBase slot) (w.d.localBase slot + 64 * i)) 64 (bytesNat ((bs.drop (64 * i)).take 64)))
        w).dropWindow (slotCore slot) kb (w.d.localBase slot) ps

/-- A group's local data is zero (R74). -/
def Work.zeroLocal (w : Work) (slot kb : Nat) : Work := w.writeLocal slot kb []

end Sys2Proof.Machine
end

