-- ==== Sys2Proof/Machine/Preempt.lean ====
section
/-! DEFINITION. Pre-emption: the commands of PCMD and the save's drain (R348, R349). -/

namespace Sys2Proof.Machine

/-- The first command of a code that waits at a core, in order of arrival. -/
def Work.pcmd? (w : Work) (core code : Nat) : Option Cmd :=
  (w.d.core core).pcmds.find? fun c => c.code == code && c.st == .waiting

def Work.endCmd (w : Work) (core id : Nat) (ok : Bool) : Work :=
  w.updCore core fun e => { e with pcmds := e.pcmds.map fun c =>
    if c.id = id then { c with st := if ok then .done else .bad } else c }

/-- A command's step: `f` answers the state after it, none where its handle or condition fails. -/
def pcmdStep (s : State) (core code : Nat) (f : Work → Nat → Option Work) : Host.Outcome State Fault Refusal :=
  device s fun w =>
    match w.pcmd? core code with
    | none => w
    | some c =>
        match f w c.arg with
        | some w' => w'.endCmd core c.id true
        | none => w.endCmd core c.id false

/-- PREEMPT_REQUEST. -/
def execPreemptRequest (core : Nat) (s : State) : Host.Outcome State Fault Refusal :=
  pcmdStep s core 1 fun w x =>
    (w.handleBlk x).map fun b => (w.updBlk b fun b => { b with preq := some core, drained := false }).setPstat core

/-- A group's barriers are held against their present phases and its signatures against its joins, and its late signal is
written (R51, R349). -/
def Work.goGroup (w : Work) (slot : Nat) : Work :=
  match w.grp? slot with
  | none => w
  | some g =>
      let b := (w.blk? g.blk).getD Block.gone
      let phaseOf := fun n =>
        if n < 16 then (sget b.bars n Bar.zero).phase
        else
          match sget? w.d.launches b.launch with
          | none => 0
          | some ln =>
              let sc : Scope := if n = 16 then .quad else if n = 17 then .die else .pkg
              if n < 19 then (sget ln.bars (barKey n (w.barUnit sc slot)) Bar.zero).phase
              else (sget w.d.pkg.podBars (podKey ln.pbid ln.pbsys) PodBar.zero).bar.phase
      w.updGrp slot fun g => { (g.lanesWith fun t => t.st == .waiting).foldl (fun g l => g.updThread l fun t =>
          { t with wait := t.wait.map fun wt => { wt with why := w.signWhy slot l wt.why wt.word } }) g with
        bar := g.bar.map fun e => (e.1, { e.2 with phase := if e.2.arr then phaseOf e.1 else phaseOf e.1 - 1 })
        sreg := match g.pk with
          | some p => if p.late then sset g.sreg p.tok (tokenBits true p.page p.cause) else g.sreg
          | none => g.sreg
        pk := g.pk.map fun p => { p with late := false } }

/-- Arrivals at a .blk barrier, as the groups' bits record them. -/
def Work.goBars (w : Work) (blk : Nat) : Work :=
  match w.blk? blk with
  | none => w
  | some b =>
      w.updBlk blk fun b' => { b' with bars := b'.bars.map fun e =>
        (e.1, { e.2 with arrived := (b.slots blk).filter fun s =>
          ((w.grp? s).map fun g => (sget g.bar e.1 BarSt.zero).arr && !g.live.isEmpty).getD false }) }

/-- The groups of a block that are stopped at a phint issue again, one restored with an extended set once the set is granted to
it (R350); one stopped by a trap or by halt waits for its handler or its interrupt. -/
def Work.goBlk (w : Work) (blk : Nat) : Work :=
  match w.blk? blk with
  | none => w
  | some b =>
      let w := (b.slots blk).foldl Work.goGroup (w.goBars blk)
      let w := (b.slots blk).foldl (fun w s =>
        match w.grp? s with
        | none => w
        | some g =>
            if g.stop != some .phint then w
            else
              match g.extIn with
              | some e => w.updGrp s fun g => { g with extIn := some { e with go := true } }
              | none =>
                  let w := w.updGrp s fun g => { g with stop := none }
                  if w.groupLive s then w.readyAgain s else w) w
      let w := w.updBlk blk fun b => { b with preq := none, drained := false }
      match b.preq with
      | some c => w.setPstat c
      | none => w

/-- PREEMPT_WITHDRAW: an earlier request; groups stopped at a phint go on. -/
def execPreemptWithdraw (core : Nat) (s : State) : Host.Outcome State Fault Refusal :=
  pcmdStep s core 2 fun w x =>
    (w.handleBlk x).bind fun b => if ((w.blk? b).bind Block.preq).isSome then some (w.goBlk b) else none

/-- GO: a stopped block; its groups issue again. -/
def execGo (core : Nat) (s : State) : Host.Outcome State Fault Refusal :=
  pcmdStep s core 5 fun w x => (w.stoppedBlock x).map w.goBlk

/-- Keys of detached blocks: `65536·(k + 1) + slot`. -/
def detKey (k slot : Nat) : Nat := 65536 * (k + 1) + slot

/-- The first key number that no detached block has. -/
def Work.freeKey (w : Work) : Option Nat :=
  (List.range 4096).find? fun k => !w.d.blocks.any fun e => e.1 / 65536 == k + 1

/-- A group's trap frame is VALID. -/
def Work.frameValid (w : Work) (slot : Nat) : Bool :=
  ((w.grp? slot).bind Group.stop) == some .trap && w.homeRead (w.d.frameAddr slot) 1 % 2 == 1

/-- DETACH: the block is stopped and drained and has no VALID trap frame; its ticket is any number not in use, with bits 6:0
zero. It waits while the package holds 4,096 tickets. -/
def execDetach (core : Nat) (s : State) : Host.Outcome State Fault Refusal :=
  device s fun w =>
    match w.pcmd? core 3 with
    | none => w
    | some c =>
        match w.stoppedBlock c.arg with
        | none => w.endCmd core c.id false
        | some blk =>
            let b := (w.blk? blk).getD Block.gone
            if !b.drained || (b.slots blk).any w.frameValid then w.endCmd core c.id false
            else if 4096 ≤ w.d.pkg.tickets.length then w
            else
              match w.freeKey with
              | none => w
              | some k =>
                  let f := w.fresh
                  let t := 128 * ((4096 * Config.choice f.1 + k + 1) % 2 ^ 57)
                  let locals := (b.slots blk).map fun s => f.2.readLocal s b.localKb
                  let w := (f.2.moveBlk blk (detKey k blk)).updPkg fun p =>
                    { p with tickets := p.tickets ++ [{ key := detKey k blk, ticket := t, locals := locals }] }
                  let w := w.updBlk (detKey k blk) fun b => { b with preq := none, drained := false }
                  let w := (b.slots (detKey k blk)).foldl (fun w s => w.updGrp s fun g => { g with extH := false, extIn := none }) w
                  let w := match b.preq with | some c => w.setPstat c | none => w
                  (w.updCore core fun e => { e with parg := BitVec.ofNat 64 t }).endCmd core c.id true

/-- ATTACH: the shell of a detached block takes slot `toSlot` of core `toCore`, once it fits there. -/
def execAttach (core toCore toSlot : Nat) (s : State) : Host.Outcome State Fault Refusal :=
  device s fun w =>
    match w.pcmd? core 4 with
    | none => w
    | some c =>
        match w.ticket? c.arg with
        | none => w.endCmd core c.id false
        | some t =>
            let b := (w.blk? t.key).getD Block.gone
            let die := toCore / 64
            let slot := 128 * toCore + toSlot
            let mask := ((sget? w.d.launches b.launch).map Launch.dieMask).getD 0
            if decide (die < 8) && decide (toSlot < 128) && mask.testBit die && w.d.dieServes die &&
                w.fits slot b.gcnt b.spad b.acc b.cb.isSome then
              let o := w.pickWin toCore b.spad
              let w := ((o.2.moveBlk t.key slot).updBlk slot fun b => { b with win := o.1 }).updPkg fun p =>
                { p with tickets := p.tickets.filter fun u => u.ticket != t.ticket }
              let w := (b.slots slot).foldl (fun w s =>
                w.updGrp s fun g => { g with stop := some .phint, active := false, since := 0 }) w
              let w := ((b.slots slot).zip t.locals).foldl (fun w p => w.writeLocal p.1 b.localKb p.2) w
              (w.updCore core fun e => { e with parg := BitVec.ofNat 64 (blockHandle slot) }).endCmd core c.id true
            else w

/-- A block ends with the status BLOCK_ENDED; a save asked for it drains no longer. -/
def Work.endOne (w : Work) (blk : Nat) : Work :=
  let q := (w.blk? blk).bind Block.preq
  let w := (w.endBlk blk cBLOCK_ENDED).updBlk blk fun b => { b with preq := none }
  match q with | some c => w.setPstat c | none => w

/-- END_BLOCK: any resident block; its status becomes BLOCK_ENDED. -/
def execEndBlock (core : Nat) (s : State) : Host.Outcome State Fault Refusal :=
  pcmdStep s core 6 fun w x => (w.handleBlk x).map w.endOne

/-! ### END_LAUNCH -/

/-- The launch in progress whose COMPL address is `x`. -/
def Work.launchAt (w : Work) (x : Nat) : Option Nat :=
  (w.d.launches.find? fun e => e.2.rec_.compl.toNat == x).map (·.1)

/-- Byte `o` of a launch's completion record, where it can be written now. -/
def Work.complPa (w : Work) (ln : Launch) (o : Nat) : Option Nat :=
  match w.translate ln.xdie (ln.rec_.compl.toNat + o) .store false with
  | .ok lf => if w.leaseFree lf.pa && homeUp w.d lf.pa then some lf.pa else none
  | .error _ => none

/-- A block's bitmap bit is set at COMPL + 64 with a release at .pkg of what it has done (R22, R23). -/
def Work.setBit (w : Work) (ln : Launch) (i : Nat) (c : Clock) : Work :=
  match w.complPa ln (64 + i / 8) with
  | some pa =>
      (w.retelling fun w => w.homeWrite pa 1 (w.homeRead pa 1 ||| 2 ^ (i % 8))).tell pa 1 Agent.grid .pkg 0 c
  | none => w

/-- The 64 bytes of a completion record's header (R22). -/
def headerBits (status retired : Nat) : Nat := status % 65536 + 2 ^ 32 * (retired % 2 ^ 32)

/-- A header's 64 bytes are written at their home. -/
def Work.write64 (w : Work) (pa x : Nat) : Work := w.homeWrite pa 64 x

/-- An id is free again once the last of its launches has completed (R325). -/
def Work.freePod (w : Work) (pbid : Nat) (sys : Bool) : Work :=
  match sget? w.d.pkg.podBars (podKey pbid sys) with
  | none => w
  | some pb =>
      if pb.pbn ≤ pb.pops ∧ pb.members ≤ pb.exited ∧
          ¬ w.d.launches.any (fun e => e.2.pbid == pbid && e.2.pbsys == sys) then
        w.updPkg fun p => { p with podBars := sdel p.podBars (podKey pbid sys) }
      else w

/-- Once every block counts as retired, the header is written, a release at .sys or .pkg, and the launch is over (R23). -/
def Work.finishLaunch (w : Work) (id : Nat) : Work :=
  match sget? w.d.launches id with
  | none => w
  | some ln =>
      if ln.retired.length < ln.rec_.nblk then w
      else
        let w := match w.complPa ln 0 with
          | some pa =>
              (w.write64 pa (headerBits ln.status ln.rec_.nblk)).tell pa 64 Agent.grid (if ln.rec_.sysc then .sys else .pkg) 0
                ln.ran
          | none => w
        let w := w.updDev fun d => { d with launches := sdel d.launches id }
        if ln.pbid = 0 then w else w.freePod ln.pbid ln.pbsys

/-- No block of the launch is created any more; those never created count as retired; the others end, detached ones
included, and their tickets are free. -/
def Work.endLaunch (w : Work) (id : Nat) : Work :=
  match sget? w.d.launches id with
  | none => w
  | some ln =>
      let fresh := (List.range ln.rec_.nblk).filter fun i => !ln.created.contains i
      let w := fresh.foldl (fun w i => w.setBit ln i []) w
      let w := w.updDev fun d => { d with launches := supd d.launches id fun l =>
        { l with created := l.created ++ fresh, retired := l.retired ++ fresh, ending := true,
                 status := if l.status = 0 then cBLOCK_ENDED else l.status } }
      let blks := w.launchBlocks id
      let w := blks.foldl (fun w b => w.endOne b) w
      let w := w.updPkg fun p => { p with tickets := p.tickets.filter fun t => !blks.contains t.key }
      (if ln.pbid = 0 then w else w.checkPodBar ln.pbid ln.pbsys).finishLaunch id

/-- END_LAUNCH: the bits of the blocks never created are written once their lines are free of leases. -/
def execEndLaunch (core : Nat) (s : State) : Host.Outcome State Fault Refusal :=
  device s fun w =>
    match w.pcmd? core 7 with
    | none => w
    | some c =>
        match w.launchAt c.arg with
        | none => w.endCmd core c.id false
        | some id =>
            let ln? := sget? w.d.launches id
            let pages := match ln? with
              | some ln => (w.complPa ln 0).isSome && (List.range (ln.rec_.nblk / 512 + 1)).all fun i =>
                  (w.complPa ln (64 + 64 * i)).isSome
              | none => true
            if pages then (w.endLaunch id).endCmd core c.id true else w

/-! ### The drain (R349) -/

/-- A group has stopped at a phint or by a trap (R208, R349). -/
def Work.preempted (w : Work) (slot : Nat) : Bool :=
  match w.grp? slot with
  | none => true
  | some g => g.live.isEmpty || g.stop == some .phint || g.stop == some .trap

/-- The waits of R349 for one group of a block that has stopped are over. -/
def Work.groupDrained (w : Work) (slot : Nat) : Bool :=
  w.preempted slot && w.groupQuiet slot && w.fenceOk slot .sys

/-- SAVE_DRAIN_COMPLETE: every group has stopped and drained, every operation of the block has retired. The drain begins with
the groups' windows: results still owed land (R177). -/
def execSaveDrainComplete (block : Nat) (s : State) : Host.Outcome State Fault Refusal :=
  device s fun w =>
    match w.blk? block with
    | none => w
    | some b =>
        match b.preq with
        | none => w
        | some core =>
            if b.drained || !(b.slots block).all w.preempted then w
            else if (b.slots block).all w.groupDrained && !w.d.ops.any fun e => e.blk == block then
              let w := (b.slots block).foldl (fun w s => w.fenceDone s .sys) w
              ((w.updBlk block fun b => { b with drained := true }).setPstat core).raiseInt core 2
            else (b.slots block).foldl (fun w s => w.updGrp s Group.closeAll) w

end Sys2Proof.Machine
end

