-- ==== Sys2Proof/Machine/Queue.lean ====
section
/-! DEFINITION. Queues, launches and blocks: QUEUE_POP, BLOCK_PLACE, STAGGER_EXPIRY, BLOCK_RETIRE, and the exchange of
groups (R18 to R31, R322 to R331). -/

namespace Sys2Proof.Machine

/-! ### Records (Table 1.3) and dependence descriptors (Table 1.4) -/

def LRec.ofNat (x : Nat) : LRec :=
  { kaddr := BitVec.ofNat 57 x, sysc := bits x 68 1 == 1, help := bits x 69 1 == 1, gang := bits x 70 2, pri := bits x 72 3
    gpb := bits x 75 5, gw := bits x 80 16, nblk := bits x 96 32, fuse := bits x 160 1 == 1, nextq := bits x 161 14
    vbase := bits x 175 4, spad := bits x 179 9, acc := bits x 188 4, arg := BitVec.ofNat 57 (bits x 192 57)
    depmap := BitVec.ofNat 57 (bits x 256 57), compl := BitVec.ofNat 57 (bits x 320 57)
    inl0 := BitVec.ofNat 64 (bits x 384 64), inl1 := BitVec.ofNat 64 (bits x 448 64) }

def recReserved (x : Nat) : Bool :=
  bits x 57 11 != 0 || bits x 128 32 != 0 || bits x 249 7 != 0 || bits x 313 7 != 0 || bits x 377 7 != 0

structure DepMap where
  bmap : Nat
  pgw : Nat
  pn : Nat
  fn : Nat
  span : Nat
  mul : Nat
  ofs : Int

def DepMap.ofNat (x : Nat) : DepMap :=
  { bmap := bits x 0 57, pgw := if bits x 80 16 = 0 then bits x 96 32 else bits x 80 16, pn := bits x 96 32, fn := bits x 128 4
    span := bits x 176 16, mul := bits x 192 32, ofs := (BitVec.ofNat 32 (bits x 224 32)).toInt }

def depBad (x : Nat) : Bool :=
  bits x 57 23 != 0 || bits x 132 44 != 0 || decide (4 < bits x 128 4) || bits x 96 32 == 0 ||
    (bits x 128 4 == 1 && bits x 176 16 == 0)

/-- The producers that consumer `i` at (x, y) needs (Table 1.5). -/
def DepMap.needs (m : DepMap) (i x y : Nat) : List Nat :=
  match m.fn with
  | 0 => if i < m.pn then [i] else []
  | 1 => (List.range m.span).filterMap fun (k : Nat) =>
      let j : Int := (m.mul : Int) * i + m.ofs + k
      if 0 ≤ j ∧ j < m.pn then some j.toNat else none
  | 2 => (List.range m.pn).filter fun j => j / m.pgw == y
  | 3 => (List.range m.pn).filter fun j => j % m.pgw == x
  | _ => List.range m.pn

/-! ### Capacity (R20, R326) -/

/-- Windows of `spad` KiB that the free KiB of a scratchpad take, packed from the lowest on. -/
def winRoom (used : Nat → Bool) (spad : Nat) : Nat :=
  ((List.range 384).foldl (fun (r : Nat × Nat) o =>
    -- r: windows so far, and the free KiB behind the last of them
    if used o then (r.1, 0) else if r.2 + 1 = spad then (r.1 + 1, 0) else (r.1, r.2 + 1)) (0, 0)).1

/-- Blocks of a shape that a core takes, given its occupied slots and scratchpad. -/
def coreRoom (used spadUsed : Nat → Bool) (n spad : Nat) : Nat :=
  let run := (List.range 32).foldl (fun (r : Nat × Nat) q =>
    -- r: blocks placed so far, and the first slot still open
    if r.2 ≤ 4 * q ∧ 4 * q + n ≤ 128 ∧ (List.range n).all (fun k => !used (4 * q + k)) then (r.1 + 1, 4 * q + n) else r) (0, 0)
  if spad = 0 then run.1 else min run.1 (winRoom spadUsed spad)

def accRoom (accUsed acc n : Nat) : Nat := if acc = 0 then n else min n ((64 - accUsed) / acc)

/-- Blocks of a shape that a quad takes: as it stands, or empty. -/
def Work.quadRoom (w : Work) (quad : Nat) (empty : Bool) (n spad acc : Nat) : Nat :=
  let cores := (List.range 4).map fun k => 4 * quad + k
  let occ := fun c s => !empty && (w.grp? (128 * c + s)).isSome
  let sp := fun c o => !empty && (w.coreBlocks c).any fun e => decide (e.2.win ≤ o) && decide (o < e.2.win + e.2.spad)
  let ac := if empty then 0 else (cores.map fun c => ((w.coreBlocks c).map fun e => e.2.acc).sum).sum
  accRoom ac acc ((cores.map fun c => coreRoom (occ c) (sp c) n spad).sum)

def maskDies (m : Nat) : List Nat := (List.range 8).filter m.testBit

def Work.dieRoom (w : Work) (die : Nat) (empty : Bool) (n spad acc : Nat) : Nat :=
  ((List.range 16).map fun q => w.quadRoom (16 * die + q) empty n spad acc).sum

/-- Does some unit of the gang's scope on the dies take `blocks` blocks? -/
def Work.gangFits (w : Work) (gang : Nat) (dies : List Nat) (empty : Bool) (blocks n spad acc : Nat) : Bool :=
  match gang with
  | 1 => dies.any fun d => (List.range 16).any fun q => decide (blocks ≤ w.quadRoom (16 * d + q) empty n spad acc)
  | 2 => dies.any fun d => decide (blocks ≤ w.dieRoom d empty n spad acc)
  | _ => decide (blocks ≤ (dies.map fun d => w.dieRoom d empty n spad acc).sum)

/-! ### QUEUE_POP (R323, R20) -/

/-- INTPEND bit `k` on every core of the package. -/
def Work.raiseAll (w : Work) (k : Nat) : Work := (List.range 512).foldl (fun w c => w.raiseInt c k) w

/-- What a check of an address finds: it can be used, it cannot (its home has failed, or its line is poisoned: assumption 60), or
it waits (a serviceable fault, a home not ready). -/
inductive Seen where
  | ok (pa : Nat)
  | bad
  | later
  deriving DecidableEq, Repr

def Work.look (w : Work) (die va : Nat) (kind : XKind) : Seen :=
  match w.translate die va kind false with
  | .ok lf =>
      if w.deadAt lf.pa (kind == .load) then .bad else if homeUp w.d lf.pa then .ok lf.pa else .later
  | .error c => if isService c || c == cWALKWAIT then .later else .bad

/-- An address in the package itself (R20, R24). -/
def Work.inside (w : Work) (pa : Nat) : Bool := match homeOf w.d pa with | .die _ => true | _ => false

/-- A rejected descriptor (R323, R356, R361), its head object's address apart. -/
def Work.descBad (w : Work) (p x : Nat) : Bool :=
  let dies := maskDies (dDIEMASK x)
  dReserved x || dies.isEmpty || decide (64 < dLOCALKB x) || decide (20 < dLOG2N x) || (dPBID x != 0 && dPBN x == 0) ||
    dHOBJ x % 64 != 0 || dRAREA x % 64 != 0 || dies.any (fun d => dieParts w.d d != p) ||
    dies.all fun d => w.d.pkg.failPkg.getLsbD (bDIE d) || w.d.pkg.failPkg.getLsbD (bRING d)

/-- The pages of the producer bitmap that the descriptor `x` names: bad where one lies outside the package (R24). -/
def Work.mapCheck (w : Work) (die x : Nat) : Seen :=
  let b := bits x 0 57
  let last := (b + 63 + (bits x 96 32 + 7) / 8) / 65536
  (List.range (last + 1 - b / 65536)).foldl (fun s k =>
    match s, w.look die (if k = 0 then b else 65536 * (b / 65536 + k)) .load with
    | .bad, _ | _, .bad => .bad
    | .later, .ok p | .ok _, .ok p => if w.inside p then s else .bad
    | .later, .later | .ok _, .later => .later) (.ok 0)

/-- The dependence descriptor's check: bad, not yet readable, or good. -/
def Work.depCheck (w : Work) (die : Nat) (r : LRec) : Seen :=
  if r.depmap = 0 then .ok 0
  else if r.depmap.toNat % 32 != 0 then .bad
  else
    match w.look die r.depmap.toNat .load with
    | .ok pa =>
        let x := bytesNat (w.physBytes pa 32)
        if depBad x then .bad else w.mapCheck die x
    | s => s

/-- The cases of R20 that the record, the descriptor `x` and the queues decide. -/
def Work.recBadHere (w : Work) (p x n : Nat) : Bool :=
  let r := LRec.ofNat n
  let y := w.descOf p r.nextq
  let gang := if dPBID x = 0 then r.gang else 3
  recReserved n || r.kaddr.toNat % 32 != 0 || r.nblk == 0 || r.vbase == 0 || decide (8 < r.vbase) || decide (384 < r.spad) ||
    decide (8 < r.acc) || (r.fuse && (!w.d.hasQueue r.nextq p || dKIND y || !dEN y)) ||
    (r.help && (bits r.inl1.toNat 0 16 == 0 || bits r.inl1.toNat 16 16 == 0)) ||
    (gang != 0 && !w.gangFits gang (maskDies (dDIEMASK x)) true r.nblk (r.gpb + 1) r.spad r.acc)

/-- What becomes of record `n` of queue `q`: a launch, LAUNCH_BAD at COMPL, LREJ, or it is left in the queue for now. -/
inductive Verdict where
  | launch | bad (compl : Nat) | rej | later
  deriving DecidableEq, Repr

def Work.judge (w : Work) (p x n : Nat) : Verdict :=
  let r := LRec.ofNat n
  let die := w.d.partDie p
  match (if r.compl.toNat % 64 = 0 then w.look die r.compl.toNat .store else .bad) with
  | .bad => .rej
  | .later => .later
  | .ok c =>
      if !w.inside c then .rej
      else if w.recBadHere p x n then (if w.leaseFree c then .bad c else .later)
      else
        match w.depCheck die r with
        | .bad => if w.leaseFree c then .bad c else .later
        | .later => .later
        | .ok _ => .launch

/-- Blocks of a launch with FUSE = 1 that announced record `h` of queue `q`, whose head object lies at `head`, by launch and
index: resident ones, and those that have retired since (R26). -/
def Work.feeders (w : Work) (q head h : Nat) : List (Nat × Nat) :=
  let has := fun (f : Nat × Nat × Nat) => f.1 == objOf head && decide (f.2.1 ≤ h) && decide (h < f.2.2)
  (w.d.blocks.filter fun e =>
    ((sget? w.d.launches e.2.launch).map fun l => l.rec_.fuse && l.rec_.nextq == q).getD false && e.2.fed.any has).map
      (fun e => (e.2.launch, e.2.idx)) ++
    (w.d.pkg.fed.filter fun f => f.queue == q && has f.what).map fun f => (f.launch, f.idx)

/-- A launch enters, behind what its pop has acquired (R103, R323); an enrolled one is counted under its id (R325). -/
def Work.addLaunch (w : Work) (p q x n : Nat) (after : List (Nat × Nat)) (vc : Clock) : Work :=
  let r := LRec.ofNat n
  let id := w.newId
  let ln : Launch :=
    { rec_ := r, queue := q, xdie := w.d.partDie p, popTime := w.d.now, waitFrom := w.d.now, pri := min (dQPRI x) r.pri
      heavy := decide (0 < r.acc) || dHEAVY x, dieMask := dDIEMASK x, localKb := dLOCALKB x, priv := dPRIV x
      gang := if dPBID x = 0 then r.gang else 3, pbid := dPBID x, pbsys := dPBSYS x, pbn := dPBN x, after := after, created := [], retired := []
      ending := false, status := 0, bars := [], vc := vc, ran := [] }
  let w := id.2.updDev fun d => { d with launches := sset d.launches id.1 ln }
  if dPBID x = 0 then w
  else
    w.updPkg fun k =>
      let key := podKey (dPBID x) (dPBSYS x)
      let pb := sget k.podBars key PodBar.zero
      { k with podBars := sset k.podBars key { pb with pops := pb.pops + 1, pbn := dPBN x } }

/-- Announcements of retired blocks whose records, up to the `h`-th at `head`, have all been popped are forgotten. -/
def Work.dropFed (w : Work) (head h : Nat) : Work :=
  w.updPkg fun p => { p with fed := p.fed.filter fun f => !(f.what.1 == objOf head && decide (f.what.2.2 ≤ h + 1)) }

/-- A record popped at index `h`: it becomes a launch, or is rejected. -/
def Work.takeRecord (w : Work) (p q x n h : Nat) (after : List (Nat × Nat)) (vc : Clock) : Verdict → Work
  | .launch => w.addLaunch p q x n after vc
  | .bad c => w.write64 c (headerBits cLAUNCH_BAD 0)
  | .rej => (w.updPkg fun k => { k with lrejq := BitVec.ofNat 64 (q + 2 ^ 32 * (h % 2 ^ 32)) }).raiseAll 6
  | .later => w

/-- The queue unit has a record of the queue in hand: a launch with blocks to create. -/
def Work.holdsRecord (w : Work) (q : Nat) : Bool :=
  w.d.launches.any fun e => e.2.queue == q && !e.2.ending && decide (e.2.created.length < e.2.rec_.nblk)

/-- The turn at which record `h` of the queue whose head object lies at `head` was announced. -/
def Work.toldAt (w : Work) (head h : Nat) : Option Nat :=
  ((sget w.d.pkg.told (objOf head) []).find? fun p => decide (h < p.1)).map Prod.snd

/-- Record `h` at `pa` was announced before it was written: it has been written since, or not since the queue unit last read
its place, or never. -/
def Work.early (w : Work) (head h pa : Nat) : Bool :=
  w.d.pkg.stale.contains (objOf pa) ||
    match sget? w.d.pkg.wrote (objOf pa), w.toldAt head h with
    | some t, some a => decide (a < t)
    | none, _ => (w.physBytes pa 64).all fun b => b == memBlank
    | some _, none => false

/-- Have the queue's producers broken a rule of R324: too many records for its area, or a record announced before it was
written? -/
def Work.misled (w : Work) (q x data head pa : Nat) : Bool :=
  w.d.pkg.broken.contains q || decide (2 ^ dLOG2N x < bits data 64 64 - bits data 0 64) || w.early head (bits data 0 64) pa

/-- The 64 bytes of record `h` of a queue, free once a rule of R324 is broken; and the state that has used them. -/
def Work.record (w : Work) (q x data head pa : Nat) : Nat × Work :=
  if w.misled q x data head pa then
    let n := w.d.free
    (bytesNat ((List.range 64).map fun i => Config.freeByte (n + i)),
      (w.updDev fun d => { d with free := n + 64 }).updPkg fun p => { p with broken := (q :: p.broken).eraseDups })
  else (bytesNat (w.physBytes pa 64), w)

/-- The queue unit of a partition serves queue `q` once: it pops the record behind the head, or waits. -/
def Work.serve (w : Work) (p q : Nat) : Work :=
  let x := w.descOf p q
  if !w.d.pkg.rdyPkg.getLsbD 0 || !dEN x || dKIND x then w
  else if w.descBad p x then w.raiseAll 3
  else
    match w.look (w.d.partDie p) (dHOBJ x) .ring with
    | .bad => w.raiseAll 3
    | .later => w
    | .ok head =>
        if 4096 ≤ w.d.launches.length || w.holdsRecord q then w
        else
          (w.gateUpdate head fun w data =>
            let h := bits data 0 64
            if h < bits data 64 64 then
              match w.look (w.d.partDie p) (dRAREA x + 64 * (h % 2 ^ dLOG2N x)) .load with
              | .ok pa =>
                  let r := w.record q x data head pa
                  (match w.judge p x r.1 with
                    | .later => (w, data)
                    | v => (((r.2.dropFed head h).updPkg fun k =>
                          { k with stale := (objOf pa :: k.stale).eraseDups
                                   told := sset k.told (objOf head) ((sget k.told (objOf head) []).filter fun t =>
                                     decide (h + 1 < t.1)) }).takeRecord p q x r.1 h
                        (w.feeders q head h) (w.heard (head + 8) 8 Agent.walker .sys) v, putBits data 0 64 (h + 1)))
              | .bad => (w.raiseAll 3, data)
              | .later => (w, data)
            else (w, data)).2

/-- QUEUE_POP: a partition that serves the queue does so; where the ranges of several overlap, a free choice of them. -/
def execQueuePop (q : Nat) (s : State) : Host.Outcome State Fault Refusal :=
  device s fun w =>
    match w.d.servers q with
    | [] => w
    | [p] => w.serve p q
    | p :: ps =>
        let f := w.fresh
        f.2.serve ((p :: ps).getD (Config.choice f.1 % (ps.length + 1)) p) q

/-! ### Order of launches (R326 to R328) -/

/-- The age step in cycles, 0 without promotion. -/
def Work.ageStep (w : Work) (ln : Launch) : Nat := 1024 * bits (w.d.part (dieParts w.d ln.xdie)).qctl.toNat 16 16

/-- EP. -/
def Work.ep (w : Work) (ln : Launch) : Nat :=
  min 7 (ln.pri + (if w.ageStep ln = 0 then 0 else (w.d.now - ln.popTime) / w.ageStep ln))

/-- A producer's bit, clear where its byte cannot be read now: the block waits while the byte's page fails its translation (DESIGN
CHOICE, assumption 60: R20 says nothing of it once the record is popped). -/
def Work.producerDone (w : Work) (ln : Launch) (bmap j : Nat) : Bool :=
  match w.look ln.xdie (bmap + 64 + j / 8) .load with
  | .ok pa => (w.physByte pa).getLsbD (j % 8)
  | _ => false

/-- The grid's width (R21). -/
def LRec.width (r : LRec) : Nat := if r.gw = 0 then r.nblk else r.gw

/-- The blocks of a fused producer that announced the launch have retired (R26). -/
def Work.feedersDone (w : Work) (ln : Launch) : Bool :=
  ln.after.all fun p => ((sget? w.d.launches p.1).map fun l => l.retired.contains p.2).getD true

/-- Every producer of block `i` has retired (R24 to R26). -/
def Work.depsMet (w : Work) (ln : Launch) (i : Nat) : Bool :=
  if !w.feedersDone ln then false
  else if ln.rec_.depmap = 0 then true
  else
    match w.look ln.xdie ln.rec_.depmap.toNat .load with
    | .ok pa =>
        let m := DepMap.ofNat (bytesNat (w.physBytes pa 32))
        (m.needs i (i % ln.rec_.width) (i / ln.rec_.width)).all (w.producerDone ln m.bmap)
    | _ => false

/-- Blocks not yet created whose producers have retired, in order. -/
def Work.readyBlocks (w : Work) (ln : Launch) : List Nat :=
  if ln.ending then [] else (List.range ln.rec_.nblk).filter fun i => !ln.created.contains i && w.depsMet ln i

/-- A launch has a block to place: for a gang, all of them. -/
def Work.launchReady (w : Work) (ln : Launch) : Bool :=
  let n := (w.readyBlocks ln).length
  if ln.gang = 0 then decide (0 < n) else decide (n = ln.rec_.nblk)

/-- Blocks of a launch may be placed on a die: it is in DIEMASK, ready, and its headroom allows them (R328, R361). -/
def Work.dieTakes (w : Work) (ln : Launch) (die : Nat) : Bool :=
  ln.dieMask.testBit die && w.d.dieServes die && (!ln.heavy || decide ((w.d.die die).crit ≤ (w.d.die die).headroom))

/-- Does launch `a` come before launch `b` for a place on a die? -/
def Work.placeBefore (w : Work) (die : Nat) (a b : Launch) : Bool :=
  let e := w.d.die die
  if w.ep a ≠ w.ep b then decide (w.ep b < w.ep a)
  else if e.headroom < e.low ∧ a.heavy ≠ b.heavy then b.heavy
  else if a.popTime ≠ b.popTime then decide (a.popTime < b.popTime)
  else decide (a.queue < b.queue)

/-- The earlier pop, the lower queue on a tie. -/
def poppedBefore (a b : Launch) : Bool :=
  decide (a.popTime < b.popTime) || (a.popTime == b.popTime && decide (a.queue < b.queue))

/-- A launch reserves its dies (R327). It has waited since its pop or, once a block of it has been placed, since the last
placing (DEDUCED, assumption 102). -/
def Work.reserves (w : Work) (ln : Launch) : Bool :=
  decide (w.ep ln = 7) && decide (8 * w.ageStep ln ≤ w.d.now - ln.waitFrom) && w.launchReady ln

/-- The other launches of a launch's partition that have a block to place. -/
def Work.rivals (w : Work) (id : Nat) (ln : Launch) : List (Nat × Launch) :=
  w.d.launches.filter fun e => e.1 != id && dieParts w.d e.2.xdie == dieParts w.d ln.xdie && w.launchReady e.2

/-- A die is reserved for another launch: the earliest pop among those that reserve it goes first. -/
def Work.barred (w : Work) (id die : Nat) (ln : Launch) : Bool :=
  (w.rivals id ln).any fun e => w.reserves e.2 && e.2.dieMask.testBit die && (!w.reserves ln || poppedBefore e.2 ln)

/-- Does the next block of a launch, or its whole gang, fit somewhere now? -/
def Work.fitsNow (w : Work) (id : Nat) (ln : Launch) : Bool :=
  let r := ln.rec_
  let dies := (List.range 8).filter fun d => w.dieTakes ln d && !w.barred id d ln
  w.gangFits (if ln.gang = 0 then 1 else ln.gang) dies false (if ln.gang = 0 then 1 else r.nblk) (r.gpb + 1) r.spad r.acc

/-- May a block of launch `id` be placed on a die now: none has reserved the die, and no earlier launch fits? -/
def Work.turnOf (w : Work) (id die : Nat) (ln : Launch) : Bool :=
  !w.barred id die ln && (w.rivals id ln).all fun e => !(w.placeBefore die e.2 ln && w.fitsNow e.1 e.2)

/-! ### Creating a block (R21, R31) -/

/-- The pixel of lane `l` of group `g` of the block at (x, y) (R31). -/
def pixelOf (r : LRec) (x y g l : Nat) : Nat × Nat :=
  let n := l / 4
  (8 * x + 2 * (n % 4) + l % 2, 4 * (r.gpb + 1) * y + 4 * g + 2 * (n / 4) + l / 2 % 2)

def newThread (r : LRec) (i g l : Nat) : Thread :=
  let p := pixelOf r (i % r.width) (i / r.width) g l
  let out := decide (bits r.inl1.toNat 0 16 ≤ p.1) || decide (bits r.inl1.toNat 16 16 ≤ p.2)
  { Thread.gone with
    pc := r.kaddr, st := .runnable, seed := BitVec.ofNat 64 (2 ^ 32 * (i % 2 ^ 32) + 32 * g + l), helper := r.help && out
    pixx := if r.help then BitVec.ofNat 32 p.1 else 0, pixy := if r.help then BitVec.ofNat 32 p.2 else 0 }

def newBlock (id : Nat) (ln : Launch) (i slot win : Nat) (stagger : Option (Option Nat × Nat)) : Block :=
  let r := ln.rec_
  { Block.gone with
    launch := id, idx := i, gcnt := r.gpb + 1, vbase := r.vbase, spad := r.spad, win := win, acc := r.acc, priv := ln.priv
    localKb := ln.localKb, gridx := i % r.width, gridy := i / r.width, stagger := stagger, unit := slot / 512
    b := [(0, r.arg.zeroExtend 64), (1, BitVec.ofNat 64 i), (2, BitVec.ofNat 64 r.nblk), (3, r.inl0), (4, r.inl1)] }

/-- What the creation of block `i` acquires at .pkg: its producers' bits, or the records of a fused launch's blocks that fed it
(R24, R26). -/
def Work.createVc (w : Work) (ln : Launch) (i : Nat) : Clock :=
  let hear := fun (c : Clock) pa n => Clock.join c (w.heard pa n Agent.walker .pkg)
  if ln.rec_.depmap = 0 then ln.vc
  else
    match w.look ln.xdie ln.rec_.depmap.toNat .load with
    | .ok pa =>
        let m := DepMap.ofNat (bytesNat (w.physBytes pa 32))
        (m.needs i (i % ln.rec_.width) (i / ln.rec_.width)).foldl (fun c j =>
          match w.look ln.xdie (m.bmap + 64 + j / 8) .load with
          | .ok pa => hear c pa 1
          | _ => c) ln.vc
    | _ => ln.vc

/-- Block `i` of a launch is created with its group 0 in a slot; creation acquires its producers' bits at .pkg (R24). -/
def Work.create (w : Work) (id : Nat) (ln : Launch) (i slot : Nat) (stagger : Option (Option Nat × Nat)) : Work :=
  let vc := w.createVc ln i
  let o := w.pickWin (slotCore slot) ln.rec_.spad
  let w := o.2.updDev fun d => { d with
    blocks := sset d.blocks slot (newBlock id ln i slot o.1 stagger)
    launches := supd d.launches id fun l => { l with created := l.created ++ [i], waitFrom := d.now } }
  let w := (w.clear (spadKey slot 0) (1024 * ln.rec_.spad)).spadRecords slot ln.rec_.spad none
  let w := if ln.rec_.depmap = 0 ∧ ln.after = [] then w else w.dropRemote (slotCore slot)
  (List.range (ln.rec_.gpb + 1)).foldl (fun w g =>
    let grp := { Group.gone with
      blk := slot, gidx := g, vc := vc, thr := (List.range 32).map fun l => (l, newThread ln.rec_ i g l) }
    let w := (w.updDev fun d => { d with groups := sset d.groups (slot + g) grp }).zeroLocal (slot + g) ln.localKb
    w.readyAgain (slot + g)) w

/-- The stagger of the next block that this step places on a die, behind those at the places `before`: cycles from the first
issue of the first of them on the die (R330). -/
def Work.staggerOf (w : Work) (die : Nat) (before : List Nat) : Option (Option Nat × Nat) :=
  let e := w.d.die die
  let on := before.filter fun p => p / 8192 == die
  let n := (e.stagger.toNat % 65536) * on.length
  if e.pwrCtl.getLsbD 32 && n != 0 then some (on.head?, n) else none

/-- The first block that can be created takes the first place, and so on. `before` are the places taken in this step. -/
def Work.placeAll (w : Work) (id : Nat) (gang : Bool) : List Nat → List Nat → Option Work
  | _, [] => some w
  | before, slot :: t =>
      match sget? w.d.launches id with
      | none => none
      | some ln =>
          let die := slot / 8192
          match w.readyBlocks ln with
          | [] => none
          | i :: _ =>
              if w.dieTakes ln die && (gang || w.turnOf id die ln) && w.fits slot (ln.rec_.gpb + 1) ln.rec_.spad ln.rec_.acc false then
                (w.create id ln i slot (w.staggerOf die before)).placeAll id gang (before ++ [slot]) t
              else none

/-- The places of a gang lie in one unit of its scope (R18). -/
def gangUnit (gang : Nat) (ps : List Nat) : Bool :=
  match ps with
  | [] => false
  | p :: t =>
      match gang with
      | 1 => t.all fun q => q / 512 == p / 512
      | 2 => t.all fun q => q / 8192 == p / 8192
      | _ => true

/-- BLOCK_PLACE: the next blocks of a launch are created in the slots `places`; a gang's all at once. Where the places do not
take them the next try makes other choices. -/
def execBlockPlace (launch : Nat) (places : List Nat) (s : State) : Host.Outcome State Fault Refusal :=
  device s fun w =>
    match sget? w.d.launches launch with
    | none => w
    | some ln =>
        if !w.launchReady ln || places.isEmpty then w
        else if ln.gang = 0 then (w.placeAll launch false [] places).getD w.fresh.2
        else if places.length = ln.rec_.nblk && gangUnit ln.gang places &&
            places.all (fun p => w.turnOf launch (p / 8192) ln) then (w.placeAll launch true [] places).getD w.fresh.2
        else w

/-- STAGGER_EXPIRY: the time of a block's first issue, counted from that of another, has come. -/
def execStaggerExpiry (block : Nat) (s : State) : Host.Outcome State Fault Refusal :=
  device s fun w =>
    match (w.blk? block).bind Block.stagger with
    | some (none, t) => if t ≤ w.d.now then w.updBlk block fun b => { b with stagger := none } else w
    | _ => w

/-! ### BLOCK_RETIRE (R23) -/

/-- Every thread of a group has exited, and nothing that it issued is outstanding. -/
def Work.groupOver (w : Work) (slot : Nat) : Bool :=
  match w.grp? slot with
  | none => true
  | some g =>
      g.live.isEmpty && g.acks == 0 && g.append.isEmpty && !w.ringBusy slot &&
        !(w.d.core (slotCore slot)).path.any (fun e => e.slot == slot) && !w.d.pkg.sends.any fun e => e.slot == slot

/-- A block issues its first instruction, or never will: the staggers counted from it run (R330). -/
def Work.staggersRun (w : Work) (blk : Nat) : Work :=
  w.updDev fun d => { d with blocks := d.blocks.map fun e =>
    (e.1, { e.2 with stagger := e.2.stagger.map fun p => if p.1 = some blk then (none, d.now + p.2) else p }) }

/-- The records that a block announced, where its launch has FUSE = 1 (R26). -/
def Work.fedOf (w : Work) (b : Block) : List Fed :=
  match sget? w.d.launches b.launch with
  | none => []
  | some l => if l.rec_.fuse then b.fed.map fun f => { queue := l.rec_.nextq, what := f, launch := b.launch, idx := b.idx } else []

/-- The groups of a block leave the barriers wider than it (R17). -/
def Work.leaveBars (w : Work) (blk gcnt : Nat) : Work :=
  let bar : Bar → Bar := fun x => { x with arrived := x.arrived.filter fun s => !(decide (blk ≤ s) && decide (s < blk + gcnt)) }
  w.updDev fun d => { d with
    launches := d.launches.map fun l => (l.1, { l.2 with bars := l.2.bars.map fun e => (e.1, bar e.2) })
    pkg := { d.pkg with podBars := d.pkg.podBars.map fun e => (e.1, { e.2 with bar := bar e.2.bar }) } }

/-- Its slots, window, accumulators and codebook place are free; its groups leave their barriers, and a save asked for it
drains no longer. -/
def Work.removeBlk (w : Work) (blk : Nat) : Work :=
  match w.blk? blk with
  | none => w
  | some b =>
      let w := (((w.staggersRun blk).leaveBars blk b.gcnt).spadRecords blk b.spad none).updDev fun d => { d with
        blocks := sdel d.blocks blk
        groups := d.groups.filter fun e => !(decide (blk ≤ e.1) && decide (e.1 < blk + b.gcnt))
        pkg := { d.pkg with fed := d.pkg.fed ++ w.fedOf b } }
      match b.preq with
      | some c => w.setPstat c
      | none => w

/-- The header counts the blocks retired so far (R22, R23). -/
def Work.countBlk (w : Work) (ln : Launch) : Work :=
  match w.complPa ln 0 with
  | some pa => w.write64 pa (headerBits ln.status (ln.retired.length + 1))
  | none => w

/-- BLOCK_RETIRE: the block is counted into the header, its bitmap bit is set, and with the last block the grid is over. -/
def execBlockRetire (block : Nat) (s : State) : Host.Outcome State Fault Refusal :=
  device s fun w =>
    match w.blk? block with
    | none => w
    | some b =>
        if !(b.slots block).all w.groupOver || w.d.ops.any (fun e => e.blk == block) then w
        else
          match sget? w.d.launches b.launch with
          | none => w.removeBlk block
          | some ln =>
              if (w.complPa ln (64 + b.idx / 8)).isNone || (w.complPa ln 0).isNone then w
              else
                let c := w.blockClock b block
                let w := ((w.countBlk ln).setBit ln b.idx c).removeBlk block
                (w.updDev fun d => { d with launches := supd d.launches b.launch fun l =>
                  { l with retired := l.retired ++ [b.idx], ran := Clock.join l.ran c } }).finishLaunch b.launch

/-! ### GROUP_EXCHANGE (R28, R331) -/

/-- Some thread of the group can issue. -/
def Group.readyToIssue (g : Group) : Bool :=
  g.stop.isNone && g.pendFault.isNone &&
    (List.range 32).any fun l => (g.thread l).runs || (g.thread l).st == .orphaned

/-- The group can issue only after a long-latency event: no thread can issue, and none naps for less than 64 cycles
(R203). -/
def Group.longWait (g : Group) : Bool :=
  !g.readyToIssue && (g.stop.isSome || !(List.range 32).any fun l =>
    match (g.thread l).st, (g.thread l).wait.map Wait.why with
    | .waiting, some (.nap _ ns) => decide (napOf ns l < 64)
    | _, _ => false)

/-- A group that is ready but for its place in the active set; its block's stagger is over (R330). -/
def Work.readyGroup (w : Work) (slot : Nat) (g : Group) : Bool :=
  decide (slot < 65536) && g.readyToIssue && ((w.blk? g.blk).getD Block.gone).stagger.isNone

/-- The pending group in a slot is ready, and no pending group of its partition has been ready longer. -/
def Work.readyLongest (w : Work) (slot : Nat) (g : Group) : Bool :=
  !g.active && g.since != 0 && w.readyGroup slot g &&
    (partSlots (slotCore slot) (slot % 4)).all fun k =>
      match w.grp? k with
      | some o => o.active || o.since == 0 || !w.readyGroup k o || decide (g.since ≤ o.since)
      | none => true

/-- A group joins the active set, behind those that have issued in earlier cycles. -/
def Group.activate (now : Nat) (g : Group) : Group := { g with active := true, since := 0, turn := now }

/-- GROUP_EXCHANGE: the pending group that has been ready longest takes the place of a group that can issue only after a
long-latency event, or a free one. -/
def execGroupExchange (out in_ : Nat) (s : State) : Host.Outcome State Fault Refusal :=
  device s fun w =>
    match w.grp? in_ with
    | none => w
    | some g =>
        if !w.readyLongest in_ g then w
        else if (w.activeIn in_).length < 8 then w.updGrp in_ (Group.activate w.d.now)
        else
          match w.grp? out with
          | none => w
          | some o =>
              if o.active && o.longWait && slotCore out == slotCore in_ && out % 4 == in_ % 4 && decide (out < 65536) then
                (w.updGrp out fun g => { g with active := false }).updGrp in_ (Group.activate w.d.now)
              else w

end Sys2Proof.Machine
end

