-- ==== Sys2Proof/Machine/Pages.lean ====
section
/-! DEFINITION. The device's moves of pages (R79, R338). -/

namespace Sys2Proof.Machine

/-- Does the range `[a, a + n)` meet something of the device's own at physical addresses: page tables, frame areas, queue
descriptors, handler templates? -/
def Work.deviceUses (w : Work) (a n : Nat) : Bool :=
  ((List.range 8).any fun k => overlap a n (w.d.frameArea k) (2 ^ 22) || overlap a n ((w.d.die k).hTmpl.toNat % 2 ^ 57) 64 ||
    overlap a n ((w.d.part k).qbase.toNat % 2 ^ 57 / 4096 * 4096) (64 * 16384)) ||
    w.granules16.any fun g => decide (a ≤ g) && decide (g < a + n) && w.isEntry g

/-- No leaf maps a place, no move comes from there or goes there, and the device does not use it itself. -/
def Work.placeFree (w : Work) (a n : Nat) : Bool :=
  !w.deviceUses a n && !(w.d.pkg.moves.any fun m => overlap a n m.old m.size || overlap a n m.new m.size) &&
    !w.granules16.any fun g => (w.leafVas g).any fun l => overlap a n (eAddr (w.entry16 g)) l.size

/-- The device writes a leaf, as R338 says. -/
def Work.writeLeaf (w : Work) (at_ x : Nat) : Work := w.properly fun w => (w.homeWrite at_ 16 x).noteStrong true (walkerRead at_) []

/-- May the device write the leaf now: at its home, its line's leases over? -/
def Work.leafReady (w : Work) (at_ : Nat) : Bool :=
  w.leaseFree at_ && w.gateNow at_ && !w.d.pkg.torn.any fun t => t.entry == at_

/-- PAGE_MOVE_START: the device will move the page that maps `va` on a die to `newPa`, a free place in the same partition and
in the tier `tier`; it sets MIG. -/
def execPageMoveStart (die : Nat) (va newPa : Addr) (tier : Bool) (s : State) : Host.Outcome State Fault Refusal :=
  device s fun w =>
    match w.leafAt die va.toNat with
    | none => w
    | some (e, at_, lvl) =>
        let size := 2 ^ lvlShift lvl
        let new := newPa.toNat
        let here := fun a => match homeOf w.d a with | .die h => dieParts w.d h == dieParts w.d die | _ => false
        if eBit e 14 || new % size != 0 || !here new || !here (new + size - 1) || !here (eAddr e) || localTier new != tier ||
            localTier (new + size - 1) != tier || !w.leafReady at_ || !w.placeFree new size then w
        else
          (w.writeLeaf at_ (e + 2 ^ 14)).updPkg fun p =>
            { p with moves := p.moves ++
              [{ die := die, leaf := at_, old := eAddr e, new := new, size := size, tier := tier, mark := w.d.nextId }] }

/-- The leaf of a move as the move's end writes it. -/
def movedLeaf (e : Nat) (m : Move) : Nat :=
  let e := putBits e 73 48 (m.new / 512)
  putBits (putBits e 15 1 m.tier.toNat) 14 1 0

/-- An object of the page rides. -/
def Work.pageRides (w : Work) (m : Move) : Bool :=
  w.d.dies.any fun e => e.2.slots.any (fun s => s.2.used && decide (m.old ≤ s.2.obj) && decide (s.2.obj < m.old + m.size)) ||
    e.2.boardQ.any fun b => decide (m.old ≤ b.obj) && decide (b.obj < m.old + m.size)

/-! ### What moves with a page -/

def Move.from_ (m : Move) (pa : Nat) : Bool := decide (m.old ≤ pa) && decide (pa < m.old + m.size)
def Move.onto (m : Move) (pa : Nat) : Bool := decide (m.new ≤ pa) && decide (pa < m.new + m.size)

/-- Where an address of the old place lies afterwards. -/
def Move.to (m : Move) (pa : Nat) : Nat := if m.from_ pa then m.new + (pa - m.old) else pa

/-- Records kept by sector move with their page; those of the new place are another page's. -/
def Move.sectors {α : Type} (m : Move) (l : Sparse α) : Sparse α :=
  (l.filter fun e => !m.onto (128 * e.1)).foldl (fun s e => sset s (m.to (128 * e.1) / 128) e.2) []

/-- So do those kept by object. -/
def Move.objects {α : Type} (m : Move) (l : Sparse α) : Sparse α :=
  (l.filter fun e => !m.onto e.1).foldl (fun s e => sset s (m.to e.1) e.2) []

/-- Copies of both places are dropped: the leases that they stood for are over with the old translation (R79). -/
def Move.core (m : Move) (c : Core) : Core :=
  { c with copies := c.copies.filter fun k => !m.from_ (128 * k.sector) && !m.onto (128 * k.sector) }

def Move.group (m : Move) (g : Group) : Group := { g with iters := g.iters.map fun p => (p.1, m.to p.2) }
def Move.block (m : Move) (b : Block) : Block := { b with fed := b.fed.map fun f => (m.to f.1, f.2) }
def Move.desc (m : Move) (p : PDesc) : PDesc :=
  { p with gpa := m.to p.gpa, arenaPages := p.arenaPages.map m.to, primPages := p.primPages.map m.to }

/-- The die that keeps the generations of an object. -/
def Work.keeper (w : Work) (k gpa : Nat) : Nat := match homeOf w.d gpa with | .die h => h | _ => k

/-- Generations are kept where their object lies (R143, R158). -/
def Work.moveGens (w : Work) (m : Move) : Work :=
  let gens := w.d.dies.flatMap fun e => e.2.gens.map fun g => (w.keeper e.1 (m.to g.gpa), { g with gpa := m.to g.gpa })
  let trees := w.d.dies.flatMap fun e =>
    e.2.trees.map fun t => (w.keeper e.1 (m.to t.1.gpa), ({ t.1 with gpa := m.to t.1.gpa }, m.desc t.2))
  (List.range 8).foldl (fun w k => w.updDie k fun e =>
    { e with gens := (gens.filter fun p => p.1 == k).map Prod.snd, trees := (trees.filter fun p => p.1 == k).map Prod.snd }) w

/-- What the package keeps by physical address follows a page that has moved. -/
def Work.follow (w : Work) (m : Move) : Work :=
  (w.updDev fun d => { d with
    cores := d.cores.map fun e => (e.1, m.core e.2)
    groups := d.groups.map fun e => (e.1, m.group e.2)
    blocks := d.blocks.map fun e => (e.1, m.block e.2)
    pkg := { d.pkg with mix := m.sectors (d.pkg.mix.map fun e => (e.1, e.2.map fun r => { r with pa := m.to r.pa }))
                        msgs := m.objects (d.pkg.msgs.map fun e => (e.1, e.2.map fun r => { r with pa := m.to r.pa })), consts := m.sectors d.pkg.consts, poison := m.sectors d.pkg.poison,
                        made := (d.pkg.made.filter fun e => !m.onto (16 * e.1)).foldl (fun s e => sset s (m.to (16 * e.1) / 16) e.2) []
                        stale := d.pkg.stale.map m.to, wrote := m.objects d.pkg.wrote, told := m.objects d.pkg.told,
                        fed := d.pkg.fed.map fun f => { f with what := (m.to f.what.1, f.what.2) } } }).moveGens m

/-- PAGE_MOVE_END: the `k`-th move under way. Once no access with the old address is outstanding, the contents lie at the
new place and ADDR, TIER and MIG change together; a leaf that software has changed meanwhile stays as it is. -/
def execPageMoveEnd (k : Nat) (s : State) : Host.Outcome State Fault Refusal :=
  device s fun w =>
    match w.d.pkg.moves[k]? with
    | none => w
    | some m =>
        let e := w.homeRead m.leaf 16
        if w.opsBefore (w.d.partDies (dieParts w.d m.die)) m.mark || w.pageRides m || !w.leafReady m.leaf then w
        else
          let w := w.updPkg fun p => { p with moves := p.moves.eraseIdx k }
          if eAddr e = m.old ∧ eBit e 14 ∧ eBit e 0 then
            let es := w.base.filter fun c => m.from_ c.1
            let w := es.foldl (fun w c => w.setByte (m.new + (c.1 - m.old)) c.2) (w.clear m.new m.size)
            (w.follow m).writeLeaf m.leaf (movedLeaf e m)
          else w

end Sys2Proof.Machine
end

