-- ==== Sys2Proof/Machine/Link.lean ====
section
/-! DEFINITION. The host, the pod and the scale-out network (R325, R352 to R359). -/

namespace Sys2Proof.Machine

/-! ### Accesses from outside -/

/-- What an access writes over the old value at its home, if it writes. -/
def extNew (a : ExtAcc) (old : Nat) : Option Nat :=
  match a with
  | .store _ x | .weakStore _ x => some x.toNat
  | .atomic op ty x => some (atomNew op ty old x.toNat)
  | .cas _ x c => some (if old = c.toNat then x.toNat else old)
  | .load _ | .weakLoad _ | .ringUp _ _ _ _ | .ringPop _ | .ringRd _ | .ringBoard | .ringAlight => none

def extBytes : ExtAcc → Nat
  | .load n | .store n _ | .cas n _ _ | .weakLoad n | .weakStore n _ => n
  | .atomic _ ty _ | .ringUp _ ty _ _ | .ringRd ty => ty.bytes
  | .ringPop _ => 16
  | .ringBoard | .ringAlight => 64

def extStrong : ExtAcc → Bool
  | .weakLoad _ | .weakStore _ _ => false
  | _ => true

def isWrite : ExtAcc → Bool
  | .store _ _ | .atomic _ _ _ | .cas _ _ _ | .weakStore _ _ => true
  | _ => false

/-- Sizes and types: naturally aligned accesses of 1 to 16 bytes, atomics as atom has them (Table 13.3). -/
def extSized : ExtAcc → Bool
  | .atomic op ty _ => op.tyOk ty
  | .cas n _ _ => [4, 8, 16].contains n
  | a => [1, 2, 4, 8, 16].contains (extBytes a)

/-- The host's atomics are of 4 or 8 bytes, and it has no weak access (Table 23.3). -/
def extOfHost : ExtAcc → Bool
  | .atomic op ty _ => op.tyOk ty
  | .cas n _ _ => n == 4 || n == 8
  | .load _ | .store _ _ => true
  | _ => false

/-- A strong access from outside, made in `v`, takes its place in the order, that of the host as an agent of .sys; a load of the host carries
order (R23, R353). -/
def Work.extOrder (w v : Work) (who : Agent) (load : Bool) (pa n : Nat) : Work :=
  let host := who == Agent.host
  let a : Strong := { pa := pa, n := n, who := who, ep := if host then w.d.pkg.hostEp else 0, scope := .sys }
  let w := w.noteStrong (v.isEntry (pa / 16 * 16)) a (if host then w.d.pkg.hostVc else [])
  if host && load then w.hostLearn pa n else w

/-- An access of an agent outside performs at its home, if it can now; one that reads may race a write that waits (R89). -/
def Work.extAccess (w : Work) (who : Agent) (pa : Nat) (a : ExtAcc) : Work :=
  let n := extBytes a
  if !extSized a || pa % n != 0 then w
  else if !w.gateNow pa || (isWrite a && !w.leaseFree pa) || (extStrong a && w.mixMode pa && w.mixed pa n) ||
      w.lateBefore [(pa, n)] (isWrite a) who (if extStrong a then some .sys else none) w.d.nextId none then w
  else
    let keys := (List.range n).map (pa + ·)
    let r :=
      if isWrite a then (natBytes n (w.homeRead pa n), w)
      else if extStrong a then w.raceRead keys
      else (fun q => (q.1, q.2.2)) (w.raceSeen keys)
    let put := fun (w : Work) x => w.homeWrite pa n (x % 2 ^ (8 * n))
    let v := match extNew a (bytesNat r.1) with
      | some x => (match a with
          | .atomic _ _ _ | .cas _ _ _ => r.2.retelling fun w => put w x
          | _ => put r.2 x)
      | none => r.2.homeTouch pa
    if extStrong a then v.extOrder w who (!isWrite a) pa n else v

/-- The host reaches the package. -/
def Dev.hostUp (d : Dev) : Bool := d.pkg.linkStat.toNat % 256 != 0

/-- HOST_ACCESS (R352, R353): to the package's memory, or to a doorbell. -/
def execHostAccess (pa : Addr) (a : ExtAcc) (s : State) : Host.Outcome State Fault Refusal :=
  device s fun w =>
    if !w.d.hostUp then w
    else
      match homeOf w.d pa.toNat, a with
      | .die _, a => if extOfHost a then w.extAccess Agent.host pa.toNat a else w
      | .doorbell q, .store 8 x => if pa.toNat % 8 = 0 then w.doorbell q (x.toNat % 2 ^ 64) true else w
      | _, _ => w

/-- DOORBELL (R352): a store of `n` to the doorbell of queue `q`. -/
def execDoorbell (q : Nat) (n : DWord) (s : State) : Host.Outcome State Fault Refusal :=
  device s fun w => if w.d.hostUp then w.doorbell q n.toNat true else w

/-- HOST_INTERRUPT (R352): INTPEND.HOST of the cores in the mask. -/
def execHostInterrupt (cores : List Nat) (s : State) : Host.Outcome State Fault Refusal :=
  device s fun w =>
    if w.d.hostUp then (cores.filter fun c => decide (c < 512)).foldl (fun w c => w.raiseInt c 0) w else w

/-- A ring operation of another package enters, for the gate of the object's die (R125, R357). -/
def Work.podRing (w : Work) (die pa : Nat) (act : RAct) (n v c : Nat) : Work :=
  if pa % n = 0 then
    let r := w.newId
    r.2.addRing die
      { id := r.1, ins := r.1, slot := none, stop := 0, remote := true, obj := objOf pa
        lanes := [{ lane := 0, ofs := pa % 64, v := v, c := c, helper := false, owed := none }], act := act
        n := n, acq := false, rel := false, scope := .pod, since := 0, wide := false, iss := Stamp.none }
  else w

/-- POD_REMOTE_ACCESS (R357): another package's access, or ring operation, to this package's memory. -/
def execPodRemoteAccess (pa : Addr) (a : ExtAcc) (s : State) : Host.Outcome State Fault Refusal :=
  device s fun w =>
    if w.d.pkg.linkStat.toNat / 2 ^ 8 % 2 ^ 18 = 0 then w
    else
      match homeOf w.d pa.toNat with
      | .die h =>
          (match a with
            | .ringUp op ty x c => if op.tyOk ty then w.podRing h pa.toNat (.up op (tySigned ty)) ty.bytes x.toNat c.toNat else w
            | .ringPop n => w.podRing h pa.toNat .pop 16 n.toNat 0
            | .ringRd ty => if ty.bytes = 4 ∨ ty.bytes = 8 then w.podRing h pa.toNat .rd ty.bytes 0 0 else w
            | .ringBoard => if pa.toNat % 64 = 0 then w.askBoard h pa.toNat else w
            | .ringAlight => if pa.toNat % 64 = 0 then w.alightOne pa.toNat else w
            | a => w.extAccess Agent.pod pa.toNat a)
      | _ => w

/-! ### Sends (R358, R359) -/

/-- SEND_ACCEPT: the link layer accepts the `k`-th send that waits at a core: the write of a copy has then performed
(R107). -/
def execSendAccept (core k : Nat) (s : State) : Host.Outcome State Fault Refusal :=
  device s fun w =>
    match (w.d.pkg.sends.filter fun x => slotCore x.slot == core)[k]? with
    | none => w
    | some x =>
        if !w.d.pkg.linkStat.getLsbD 26 then w
        else
          let w := w.updPkg fun p => { p with sends := p.sends.erase x, outbox := p.outbox ++ [x] }
          match w.op? x.op with
          | none => w
          | some o => (w.updOp x.op fun o => { o with left := o.left - 1 }).boLower o.blk o.bo x.data.length

/-- A send of this package that is not yet written at its receiver, earlier than a fenced one of its group and to the same SYS; or
a copy may still make one (R359). -/
def Work.sendBefore (w : Work) (x : Send) : Bool :=
  ((w.d.pkg.sends ++ w.d.pkg.outbox).any fun y => y.slot == x.slot && y.sys == x.sys && decide (y.op < x.op)) ||
    w.d.ops.any fun e => decide (e.id < x.op) && e.slots.contains x.slot && e.parts.any fun p =>
      match p.dst with | .send sys _ => sys == x.sys | _ => false

/-- The accepted sends of this package to a partition of its own that can be what arrives there. -/
def Work.arriving (w : Work) (part rxofs : Nat) (data : List Byte) : List Send :=
  w.d.pkg.outbox.filter fun x => x.sys == (w.d.part part).sysId.toNat && x.ofs == rxofs && x.data == data

/-- SEND_DELIVER: a send arrives for a partition of this package: it is written in the receive window as an engine write, or
dropped and counted. One that this package sent to itself leaves the outbox, a fenced one behind its group's earlier ones. -/
def execSendDeliver (part rxofs : Nat) (data : List Byte) (s : State) : Host.Outcome State Fault Refusal :=
  device s fun w =>
    let p := w.d.part part
    let own := w.arriving part rxofs data
    let sent := own.find? fun x => !(x.fenced && w.sendBefore x)
    let gone := fun (w : Work) => match sent with
      | some x => w.updPkg fun p => { p with outbox := p.outbox.erase x }
      | none => w
    if !w.d.pkg.linkStat.getLsbD 26 || 8 ≤ part || (!own.isEmpty && sent.isNone) then w
    else if 65536 * p.rxSize.toNat ≤ rxofs then gone (w.updPart part fun p => { p with soDrop := p.soDrop + 1 })
    else
      let pa := (w.d.pkg.podId.toNat % 2 ^ 13) * 2 ^ 43 + p.rxBase.toNat % 2 ^ 43 / 65536 * 65536 + rxofs
      match homeOf w.d pa with
      | .die _ =>
          if data.isEmpty || decide (16 < pa % 16 + data.length) || !w.leaseFree pa || !w.gateNow pa then w
          else gone (w.homeWrite pa data.length (bytesNat data))
      | _ => w

/-! ### Links and other packages' barriers -/

/-- UCIE_MODULE_TRAIN (R352): a module that fails training stays down. -/
def execUcieModuleTrain (m : Fin 8) (up : Bool) (s : State) : Host.Outcome State Fault Refusal :=
  device s fun w =>
    if w.d.pkg.ucieDown.contains m.val || w.d.pkg.linkStat.getLsbD m.val then w
    else if up then w.updPkg fun p => { p with linkStat := p.linkStat ||| (1#32 <<< m.val) }
    else w.updPkg fun p => { p with ucieDown := p.ucieDown ++ [m.val] }

/-- SCALE_UP_ROUTE_CHANGE (R355, R357): the ports that are up. -/
def execScaleUpRouteChange (ports : BitVec 18) (scaleOut : Bool) (s : State) : Host.Outcome State Fault Refusal :=
  device s fun w => w.updPkg fun p =>
    { p with linkStat := BitVec.ofNat 32 (p.linkStat.toNat % 256 + 2 ^ 8 * ports.toNat + 2 ^ 26 * scaleOut.toNat) }

/-- REMOTE_BARRIER_ARRIVAL (R325): another package reports, for the barrier of an id, new members, arrivals in the current
phase, groups that exited without having arrived in it, and a launch popped there. -/
def execRemoteBarrierArrival (sys : Bool) (id : BitVec 16) (members arrived exited : Nat) (popped : Bool) (s : State) :
    Host.Outcome State Fault Refusal :=
  device s fun w =>
    let k := podKey id.toNat sys
    let pb := sget w.d.pkg.podBars k PodBar.zero
    let pb' := { pb with members := pb.members + members, arrived := pb.arrived + arrived, exited := pb.exited + exited,
                         pops := pb.pops + popped.toNat }
    if id = 0 || decide (pb'.members < pb'.arrived + pb'.exited) then w
    else ((w.updPkg fun p => { p with podBars := sset p.podBars k pb' }).checkPodBar id.toNat sys).freePod id.toNat sys

end Sys2Proof.Machine
end

