-- ==== Sys2Proof/Machine/BringUp.lean ====
section
/-! DEFINITION. Bring-up, ready reporting, firmware verification and attestation (R360 to R365). -/

namespace Sys2Proof.Machine

/-! ### PACKAGE_RESET -/

/-- The package right after reset: every register at its reset value. Memory, the fuses, and the model's own turns and
counters stay as they are (assumption 26). -/
def Work.packageReset (w : Work) : Work :=
  let d := w.d
  let r := State.reset.d
  { w with d := { r with
      pkg := { r.pkg with rollback := d.pkg.rollback, revoked := d.pkg.revoked }
      turns := d.turns, tick := d.tick, free := d.free, nextId := d.nextId } }

def execPackageReset (s : State) : Host.Outcome State Fault Refusal := device s Work.packageReset

/-! ### Ready records (R362) -/

/-- The 32 bytes of a ready record. -/
def readyBits (p : Pkg) (seq : Nat) : Nat :=
  p.rdyPkg.toNat + 2 ^ 32 * p.failPkg.toNat + 2 ^ 64 * p.rdyEng.toNat + 2 ^ 128 * p.failEng.toNat + 2 ^ 192 * (seq % 2 ^ 64)

/-- After a change of the ready or fail bits: with RDYADDR enabled, the record and the interrupt go to the host. -/
def Work.readyRecord (w : Work) : Work :=
  let p := w.d.pkg
  if p.rdyAddr.getLsbD 0 then
    let seq := p.readySeq + 1
    (w.homeWrite (bits p.rdyAddr.toNat 6 51 * 64) 32 (readyBits p seq)).updPkg fun k =>
      { k with readySeq := seq, hostInts := k.hostInts ++ [k.rdyVec.toNat] }
  else w

/-- A function's ready and fail bits: whether they lie in RDYENG and FAILENG, and the bit (Tables 24.1, 24.2). -/
def fnBit : Fn → Bool × Nat
  | .queue => (false, 0) | .fw => (false, 1) | .hlink => (false, 2)
  | .dieCores d => (false, bDIE d.val) | .sdram d => (false, bSDRAM d.val) | .ring d => (false, bRING d.val)
  | .engine d k => (true, 8 * d.val + k.val)

def Pkg.isReady (p : Pkg) (f : Fn) : Bool := if (fnBit f).1 then p.rdyEng.getLsbD (fnBit f).2 else p.rdyPkg.getLsbD (fnBit f).2
def Pkg.isFailed (p : Pkg) (f : Fn) : Bool := if (fnBit f).1 then p.failEng.getLsbD (fnBit f).2 else p.failPkg.getLsbD (fnBit f).2

def Pkg.setReady (p : Pkg) (f : Fn) : Pkg :=
  if (fnBit f).1 then { p with rdyEng := p.rdyEng ||| (1#64 <<< (fnBit f).2) } else { p with rdyPkg := p.rdyPkg ||| (1#32 <<< (fnBit f).2) }

def Pkg.setFailed (p : Pkg) (f : Fn) : Pkg :=
  if (fnBit f).1 then { p with failEng := p.failEng ||| (1#64 <<< (fnBit f).2) }
  else { p with failPkg := p.failPkg ||| (1#32 <<< (fnBit f).2) }

/-- May a function report ready: firmware is verified, or it is the host link with a module up (R352, R363)? -/
def Pkg.mayReport (p : Pkg) (f : Fn) : Bool :=
  match f with
  | .hlink => p.linkStat.toNat % 256 != 0
  | .fw => p.fwStat.toNat % 65536 == 1
  | _ => p.rdyPkg.getLsbD 1

/-- FUNCTION_READY (R361): a bit is set once, and never beside its fail bit. -/
def execFunctionReady (f : Fn) (s : State) : Host.Outcome State Fault Refusal :=
  device s fun w =>
    let p := w.d.pkg
    if p.isReady f || p.isFailed f || !p.mayReport f then w
    else (w.updPkg fun p => p.setReady f).readyRecord

/-- Accesses that wait for a failed memory, or for the link to the host, end their blocks (R361). -/
def Work.memFailed (w : Work) : Work :=
  let w := w.d.cores.foldl (fun w c => (c.2.path.filter fun e => homeFailed w.d e.pa).foldl (fun w e =>
    (w.dropEntry c.1 e).memEnd ((w.grp? e.slot).getD Group.gone).blk) w) w
  let w := (w.d.ops.filter fun e => e.parts.any w.partDead ||
      (match e.kind with | .comp fs => fs.any fun f => homeFailed w.d f.pa | _ => false)).foldl (fun w e =>
    (w.dropOp e).memEnd e.blk) w
  (w.d.groups.filter fun g => g.2.owed.any fun o =>
      match o.pay with | .load p => p.pieces.any (fun q => homeFailed w.d q.1) | _ => false).foldl (fun w g => w.memEnd g.2.blk) w

/-- FUNCTION_FAIL (R361): a self-test fails; operations that wait for the function end their blocks. -/
def execFunctionFail (f : Fn) (s : State) : Host.Outcome State Fault Refusal :=
  device s fun w =>
    let p := w.d.pkg
    if p.isReady f || p.isFailed f then w
    else
      let w := (w.updPkg fun p => p.setFailed f).readyRecord
      match f with
      | .ring d => w.ringDead d.val fun _ => true
      | .sdram _ => w.memFailed
      | .engine _ _ | .hlink => w.memFailed
      | _ => w

/-! ### FIRMWARE_VERIFICATION (R363) -/

def sub (bs : List Byte) (o n : Nat) : List Byte := (bs.drop o).take n
def word32 (bs : List Byte) (o : Nat) : Nat := bytesNat (sub bs o 4)

/-- The first check that fails (Table 24.4), or 1. -/
def fwCheck (rollback : Nat) (revoked : List Nat) (header body : List Byte) : Nat :=
  let key := sub header 0x30 1312
  if header.length ≠ 4096 ∨ word32 header 0 ≠ 0x46524C59 ∨ word32 header 4 ≠ 1 ∨ word32 header 12 % 64 ≠ 0 ∨
      67108864 < word32 header 12 ∨ body.length ≠ word32 header 12 then 2
  else if (List.range 4).all fun i => revoked.contains i || Config.sha3 key != Config.keyDigest i then 3
  else if !Config.sigOk key (Config.sha3 (sub header 0 0x550)) (sub header 0x550 2420) then 4
  else if Config.sha3 body ≠ sub header 0x10 32 then 5
  else if word32 header 8 < rollback then 6
  else 1

/-- What firmware sets: PODID and SOROUTE, and SYSID of the partition in bits 63:61 of the value (Table 23.4). -/
def Work.fwSetting (w : Work) (x : BitVec 10 × DWord) : Work :=
  if x.1 = 0x100 then w.updPkg fun p => { p with podId := BitVec.ofNat 32 (bits x.2.toNat 0 13) }
  else if x.1 = 0x109 then w.updPkg fun p => { p with soRoute := BitVec.ofNat 64 (bits x.2.toNat 0 22) }
  else if x.1 = 0x101 then w.updPart (bits x.2.toNat 61 3) fun p => { p with sysId := BitVec.ofNat 32 (bits x.2.toNat 0 22) }
  else w

/-- FIRMWARE_VERIFICATION: once, while verification has not finished; never where firmware's function has failed (R361). -/
def execFirmwareVerification (header body : List Byte) (settings : List (BitVec 10 × DWord)) (s : State) :
    Host.Outcome State Fault Refusal :=
  device s fun w =>
    if w.d.pkg.fwStat.toNat % 65536 ≠ 0 ∨ w.d.pkg.isFailed .fw then w
    else
      match fwCheck w.d.pkg.rollback w.d.pkg.revoked header body with
      | 1 =>
          let svn := word32 header 8
          let w := w.updPkg fun p =>
            ({ p with rollback := svn, fwStat := BitVec.ofNat 32 (1 + 2 ^ 16 * (svn % 64)),
                      fwDigest := Config.sha3 (sub header 0 0x550) }).setReady .fw
          (settings.foldl Work.fwSetting w).readyRecord
      | c => w.updPkg fun p => { p with fwStat := BitVec.ofNat 32 c }

/-! ### Attestation (R365) -/

/-- `n` bytes of a list, zeros behind its end. -/
def padTo (n : Nat) (bs : List Byte) : List Byte := (List.range n).map fun i => bs.getD i 0

/-- The report of Table 24.6; the identity key's digest is `Config.keyDigest 4`. -/
def Work.report (w : Work) (nonce : List Byte) : List Byte :=
  let p := w.d.pkg
  padTo 32 nonce ++ padTo 32 p.fwDigest ++ padTo 32 (Config.keyDigest 4) ++ natBytes 4 (bits p.fwStat.toNat 16 6) ++
    natBytes 4 p.podId.toNat ++ natBytes 4 (w.d.part w.partNo).sysId.toNat ++ natBytes 4 p.partMap.toNat ++
    natBytes 4 p.rdyPkg.toNat ++ natBytes 4 p.failPkg.toNat ++ natBytes 8 p.rdyEng.toNat ++ natBytes 8 p.failEng.toNat ++
    natBytes 8 (p.reports + 1) ++ List.replicate 48 0

/-- One request: the status it leaves, and the buffer's physical address where it succeeds. -/
def Work.attLook (w : Work) (x : Nat) : Nat × Option Nat :=
  if x % 4096 ≠ 0 then (cMISALIGN, none)
  else
    match w.translate w.dieNo (x % 2 ^ 57) .store (!w.blk.priv) with
    | .ok lf => (0, some lf.pa)
    | .error c => (c, none)

def Work.attest (w : Work) (pa : Nat) : Work :=
  let rep := w.report (w.physBytes pa 32)
  let sig := padTo 2420 (Config.sign (Config.sha3 rep))
  let put := fun (w : Work) (o : Nat) (bs : List Byte) =>
    (List.range ((bs.length + 15) / 16)).foldl (fun w i =>
      let c := sub bs (16 * i) 16
      w.homeWrite (pa + o + 16 * i) c.length (bytesNat c)) w
  (put (put w 0x100 rep) 0x1C0 sig).updPkg fun p => { p with reports := p.reports + 1 }

/-- A write to ATTADDR: the report and its signature are written as one .sys release before the instruction ends. A buffer whose
walk or nonce cannot be read ends the block (R84, R361). -/
def execAttaddr (h : Hdr) (a : Opnd) (s : State) : Host.Outcome State Fault Refusal :=
  issue s h (a.names 2) [] fun w x =>
    let looks := x.map fun l => w.attLook ((w.op64 l a).toNat % 2 ^ 57)
    let free := looks.all fun r =>
      match r.2 with
      | some pa => (List.range 8).all fun i => w.leaseFree (pa + 512 * i) && homeUp w.d (pa + 512 * i)
      | none => r.1 != cWALKWAIT
    let dead := fun (r : Nat × Option Nat) =>
      match r.2 with
      | some pa => w.deadAt pa true
      | none => r.1 == cWALKDEAD
    if looks.any dead then
      .ok (w.deadEnd w.g.blk (x.flatMap fun l => w.deadWalk w.dieNo ((w.op64 l a).toNat % 2 ^ 57))) []
    else if !w.fenceOk w.slot .sys || !free then .hold
    else
      .ok (looks.foldl (fun w r =>
        let w := w.updPkg fun p => { p with attStat := BitVec.ofNat 32 (r.1 % 65536) }
        match r.2 with
        | some pa => w.attest pa
        | none => w) (w.fenceDone w.slot .sys)) []

end Sys2Proof.Machine
end

