-- ==== Sys2Proof/Machine/Convert.lean ====
section
/-! DEFINITION. Conversion, packing, quantisation, keys, histograms and scans (R227 to R235). -/

namespace Sys2Proof.Machine

/-- The integer type of a type code. -/
def tyInt (t : Ty) : IntTy :=
  match t with
  | .i8 => .i8 | .i16 => .i16 | .i32 => .i32 | .i64 => .i64 | .n8 => .n8 | .n16 => .n16 | .n32 => .n32 | _ => .n64

def itySigned (t : Ty) : Bool := t == .i8 || t == .i16 || t == .i32 || t == .i64

/-- Width in bits of a type of cvt and keyx. -/
def tyWidth (t : Ty) : Nat :=
  match t with
  | .i8 | .n8 => 8
  | .i16 | .n16 | .f16 | .bf16 => 16
  | .i64 | .n64 | .f64 => 64
  | _ => 32

def tyFmt (t : Ty) : Fmt :=
  match t with
  | .f64 => fF64 | .f16 => fF16 | .bf16 => fBF16 | _ => fF32

/-- The pattern of a source of a cvt or keyx type, immediates by R181. -/
def Work.tyPat (w : Work) (t : Ty) (l : Nat) (o : Opnd) : Nat :=
  match t with
  | .f64 => w.fop64 l o
  | .f32 => w.fop32 l o
  | .f16 => w.fopPair fF16 l o % 2 ^ 16
  | .bf16 => w.fopPair fBF16 l o % 2 ^ 16
  | t => if tyWidth t = 64 then (w.op64 l o).toNat else (w.op32 l o).toNat % 2 ^ tyWidth t

/-- The number a w-bit integer pattern stands for. -/
def patInt (signed : Bool) (w p : Nat) : Int := if signed then (BitVec.ofNat w p).toInt else (p : Int)

def intMin (signed : Bool) (w : Nat) : Int := if signed then -(2 ^ (w - 1) : Int) else 0
def intMax (signed : Bool) (w : Nat) : Int := if signed then 2 ^ (w - 1) - 1 else 2 ^ w - 1

/-- A w-bit pattern extended to 64 bits by signedness. -/
def patExtend (signed : Bool) (w p : Nat) : DWord :=
  if signed then (BitVec.ofNat w p).signExtend 64 else BitVec.ofNat 64 p

/-- R227 on one pattern: the 64-bit extended result. -/
def cvtVal (o : CvtOp) (draw : Nat) (p : Nat) : DWord :=
  let w := tyWidth o.tyTo
  let sg := itySigned o.tyTo
  let clamp := fun x : Int => max (intMin sg w) (min (intMax sg w) x)
  let pat := fun x : Int => patExtend sg w (x % (2 ^ w : Int)).toNat
  if o.tyTo.isFp then
    let f := tyFmt o.tyTo
    let v :=
      if o.tyFr.isFp then dec (tyFmt o.tyFr) (o.ftz && o.tyFr == .f32) p
      else ofIntExp (patInt (itySigned o.tyFr) (tyWidth o.tyFr) p) 0
    BitVec.ofNat 64 (f.out o.rnd o.sat (o.ftz && o.tyTo == .f32) draw v)
  else if o.tyFr.isFp then
    match dec (tyFmt o.tyFr) (o.ftz && o.tyFr == .f32) p with
    | .nan => 0
    | .inf s => pat (if s then intMin sg w else intMax sg w)
    | .fin s m e => pat (clamp (roundInt o.rnd s m e))
  else
    let x := patInt (itySigned o.tyFr) (tyWidth o.tyFr) p
    pat (if o.sat then clamp x else x)

def execCvt (h : Hdr) (o : CvtOp) (s : State) : Host.Outcome State Fault Refusal :=
  issue s h (o.a.names (if o.tyFr.wide then 2 else 1)) (o.d.names (if o.tyTo.wide then 2 else 1)) fun w x =>
    .ok ((w.drew o.rnd 1 x).writeDst x o.d o.tyTo.wide true fun l =>
      cvtVal o (nth (w.drawsOf o.rnd 1 l) 0) (w.tyPat o.tyFr l o.a)) []

/-- Elements per container of a pack format. -/
def packN (t : Ty) : Nat := t.packCount.getD 1

/-- pk (R228): element i from register a + i of the run. -/
def execPk (h : Hdr) (o : PkOp) (s : State) : Host.Outcome State Fault Refusal :=
  let n := packN o.fmt
  let el := tyElem o.fmt
  issue s h (o.a.names n) (o.d.names 1) fun w x =>
    .ok ((w.drew o.rnd n x).writeDst x o.d false true fun l =>
      let ds := w.drawsOf o.rnd n l
      BitVec.ofNat 64 (((List.range n).map fun i =>
        let v := el.round o.rnd (nth ds i) (dec fF32 o.ftz (w.opRun l o.a i).toNat)
        el.encode (if o.sat then el.sat v else v) * 2 ^ (el.width * i)).sum)) []

/-- upk (R229): element i, exact in FP32. -/
def execUpk (h : Hdr) (o : UpkOp) (s : State) : Host.Outcome State Fault Refusal :=
  let el := tyElem o.fmt
  issue s h (o.a.names 1) (o.d.names 1) fun w x =>
    .ok (w.writeDst x o.d false true fun l =>
      BitVec.ofNat 64 (fF32.out .rne false o.ftz 0
        (el.decode (elemBits (w.op32 l o.a).toNat el.width o.i.toNat)))) []

/-- The result of qnt in lane `l` from the scale code and the element codes (R230). -/
def qntLane (pk : Bool) (wd scale : Nat) (codes : List Nat) (l : Nat) : Nat :=
  if pk then
    let img := ((List.range 32).map fun i => nth codes i * 2 ^ (wd * i)).sum
    let words := wd
    if l < words then elemBits img 32 l else if l = words then scale else 0
  else nth codes l % 2 ^ wd + 2 ^ 8 * scale

/-- qnt (R230): the block is the 32 lanes; a lane that does not execute supplies +0. -/
def execQnt (h : Hdr) (o : QntOp) (s : State) : Host.Outcome State Fault Refusal :=
  let el := tyElem o.fmt
  issue s h (o.a.names 1) (o.d.names 1) fun w x =>
    let xs := (List.range 32).map fun l => if x.contains l then fF32.decode (w.fop32 l o.a) else .fin false 0 0
    let ds := (List.range 32).map fun l => nth (w.drawsOf o.rnd 1 l) 0
    let r := quantise el o.rnd ds xs
    .ok ((w.drew o.rnd 1 x).writeDst x o.d false true fun l =>
      BitVec.ofNat 64 (qntLane o.pk el.width r.1 r.2 l)) []

/-- dqnt (R231): Decode(element i of a) · 2^(c − 127), one FP32 rounding; c = 0xFF gives NaN. -/
def execDqnt (h : Hdr) (o : DqntOp) (s : State) : Host.Outcome State Fault Refusal :=
  let el := tyElem o.fmt
  issue s h (o.a.names 1 ++ o.c.names 1) (o.d.names 1) fun w x =>
    .ok (w.writeDst x o.d false true fun l =>
      let c := (w.op32 l o.c).toNat % 256
      let v := el.decode (elemBits (w.op32 l o.a).toNat el.width o.i.toNat)
      BitVec.ofNat 64 (fF32.out o.rnd false o.ftz 0 (if c = 255 then .nan else v.scale ((c : Int) - 127)))) []

/-- keyx (R232). A key is zero-extended; an inverse result follows R190. The key that .inv takes is a bit pattern, so an immediate
of a floating-point type is read as one too, a LIT word sign-extended for .f64 (DESIGN CHOICE, assumption 114: R181 gives an inline
integer its value in a floating type, and R232 does not say which holds). -/
def execKeyx (h : Hdr) (o : KeyOp) (s : State) : Host.Outcome State Fault Refusal :=
  let w' := tyWidth o.ty
  let f := if o.ty.isFp then some (tyFmt o.ty) else none
  let c := if o.ty.wide then 2 else 1
  issue s h (o.a.names c) (o.d.names c) fun w x =>
    .ok (w.writeDst x o.d o.ty.wide true fun l =>
      if o.inv then
        let k := if w' = 64 then (w.op64 l o.a).toNat else (w.op32 l o.a).toNat % 2 ^ w'
        patExtend (itySigned o.ty) w' (keyInv f (itySigned o.ty) o.desc w' k)
      else BitVec.ofNat 64 (keyOf f (itySigned o.ty) o.desc w' (w.tyPat o.ty l o.a))) []

/-! ### hist (R233, R234) -/

/-- The counter that lane `l` counts into: its scratchpad offset. -/
def histOfs (w : Work) (o : HistOp) (l : Nat) : Nat :=
  let key := if o.wide then (w.op64 l o.key).toNat else (w.op32 l o.key).toNat
  (w.op32 l o.base).toNat + 4 * (key / 2 ^ o.shift.toNat % 2 ^ o.width.toNat)

/-- The counts the lanes find, in lane order, and the scratchpad after them: each increment a relaxed atomic at .blk (R234). -/
def histRun (o : HistOp) (w : Work) : List Nat → Work × List (Nat × Nat)
  | [] => (w, [])
  | l :: t =>
      let k := spadKey w.g.blk (histOfs w o l)
      let old := w.load k 4
      let w' := if (w.g.thread l).helper then w
        else (w.spadStore k 4 ((old + 1) % 2 ^ 32)).noteStrong false (w.strongOf w.slot k 4 w.g.ep .blk) w.g.vc
      let r := histRun o w' t
      (r.1, (l, old) :: r.2)

def lookupNat (m : List (Nat × Nat)) (l : Nat) : Nat := ((m.find? fun p => p.1 == l).map (·.2)).getD 0

def execHist (h : Hdr) (o : HistOp) (s : State) : Host.Outcome State Fault Refusal :=
  issue s h (o.key.names (if o.wide then 2 else 1) ++ o.base.names 1) (o.d.names 1) fun w x =>
    let base := fun l => (w.op32 l o.base).toNat
    match x.find? fun l => base l % 4 != 0 with
    | some l => .trap cMISALIGN (base l)
    | none =>
        match x.find? fun l => 1024 * w.blk.spad < base l + 4 * 2 ^ o.width.toNat with
        | some l => .trap cSPAD_RANGE (base l)
        | none =>
            if !w.g.acq.isEmpty || w.strongBefore w.slot (x.filter fun l => !(w.g.thread l).helper) w.d.nextId then .hold
            else
            let r := histRun o w x
            .ok (r.1.owe h x o.d 1 fun l => .ready (readyWords o.d false (BitVec.ofNat 64 (lookupNat r.2 l)))) []

/-! ### scan (R235, R69) -/

/-- The identity a lane that does not execute contributes. -/
def scanIdent (o : ScanOp) : Nat :=
  match o.fn, o.ty with
  | .add, .f32 => 0x80000000
  | .add, _ => 0
  | .min, .f32 => 0x7F800000
  | .max, .f32 => 0xFF800000
  | .min, .i32 => 0x7FFFFFFF
  | .min, _ => 0xFFFFFFFF
  | .max, .i32 => 0x80000000
  | .max, _ => 0

/-- Op of the network, the lower lane's value first. -/
def scanStep (o : ScanOp) (a b : Nat) : Nat :=
  match o.ty with
  | .f32 =>
      (match o.fn with
        | .add => fF32.out o.rnd false o.ftz 0 (fsum [dec fF32 o.ftz a, dec fF32 o.ftz b] (isRd o.rnd))
        | .min => minMax fF32 o.ftz false a b
        | .max => minMax fF32 o.ftz true a b)
  | t =>
      let sg := t == .i32
      (match o.fn with
        | .add => (a + b) % 2 ^ 32
        | .min => if patInt sg 32 b < patInt sg 32 a then b else a
        | .max => if patInt sg 32 a < patInt sg 32 b then b else a)

/-- One step of distance `d`, all lanes at once. -/
def scanRound (o : ScanOp) (d : Nat) (v : List Nat) : List Nat :=
  (List.range 32).map fun l => if d ≤ l then scanStep o (nth v (l - d)) (nth v l) else nth v l

def scanNet (o : ScanOp) (v : List Nat) : List Nat := [1, 2, 4, 8, 16].foldl (fun v d => scanRound o d v) v

/-- Lane `l`'s result from the network's values. -/
def scanPick (o : ScanOp) (v : List Nat) (l : Nat) : Nat :=
  if o.all then nth v 31 else if o.excl then (if l = 0 then scanIdent o else nth v (l - 1)) else nth v l

/-- The value that a lane brings: an FP32 operand is read under .ftz, a NaN as the canonical one (R55, R61). -/
def Work.scanIn (w : Work) (o : ScanOp) (l : Nat) : Nat :=
  if o.ty = .f32 then fF32.encode (dec fF32 o.ftz (w.fop32 l o.a)) else (w.op32 l o.a).toNat

def execScan (h : Hdr) (o : ScanOp) (s : State) : Host.Outcome State Fault Refusal :=
  issue s h (o.a.names 1) (o.d.names 1) fun w x =>
    let v := scanNet o ((List.range 32).map fun l => if x.contains l then w.scanIn o l else scanIdent o)
    .ok (w.owe h x o.d 1 fun l =>
      .ready (readyWords o.d false (patExtend (o.ty == .i32) 32 (scanPick o v l)))) []

end Sys2Proof.Machine
end

