-- ==== Sys2Proof/Machine/Index.lean ====
section
/-! DEFINITION. The index engine (R275 to R277). -/

namespace Sys2Proof.Machine

/-! ### idx.walk (R275) -/

/-- Where the words RowPtr(ROW0) to RowPtr(ROW0 + NR) lie. -/
def Work.rowKeys (w : Work) (rptr row0 nr : Nat) : Except Fail (List (List Nat)) :=
  collect ((List.range (nr + 1)).map fun i => w.keysOf .engR (rptr + 4 * (row0 + i) : Nat) 4)

/-- The words at their homes, and the state after the read. -/
def Work.readWords (w : Work) (ks : List (List Nat)) : List Nat × Work :=
  let r := w.raceRead ks.flatten
  ((List.range ks.length).map fun i => bytesNat ((r.1.drop (4 * i)).take 4), ks.flatten.foldl Work.homeTouch r.2)

/-- The walk's loop: `rp` are the row pointers from ROW0 on, `k` the coordinates so far (at most 4,096). Coordinates are
(column position, row); then the row, rows left and position it ends at. -/
def walkRows : Nat → List Nat → Nat → Nat → Nat → List (Nat × Nat) × Nat × Nat × Nat
  | r, rp, left, p, k =>
      match rp with
      | e :: rest =>
          if left = 0 ∨ 4096 ≤ k then ([], r, left, p)
          else
            let n := min (e - p) (4096 - k)
            let cs := (List.range n).map fun i => (p + i, r)
            if p + n < e then (cs, r, left, p + n)
            else
              let t := walkRows (r + 1) rest (left - 1) e (k + n)
              (cs ++ t.1, t.2)
      | [] => ([], r, left, p)

/-- A row's end below the position gives no coordinate, and the next row begins at its own pointer. -/
def walkOf (row0 nr pos : Nat) (rp : List Nat) : List (Nat × Nat) × Nat × Nat × Nat :=
  walkRows row0 rp.tail nr (if pos = 0xFFFFFFFF then rp.headD 0 else pos) 0

def wordBytes (x : Nat) : List BSrc := (natBytes 4 x).map BSrc.val

/-- The granules of a walk: its coordinates, then the descriptor written back (R275). -/
def walkParts (blk sa off desc : Nat) (r : List (Nat × Nat) × Nat × Nat × Nat) (ks : List (List Nat)) : List EPart :=
  let back := bits desc 0 160 + 2 ^ 160 * (r.2.1 % 2 ^ 32) + 2 ^ 192 * r.2.2.1 + 2 ^ 224 * (r.2.2.2 % 2 ^ 32)
  granules (((r.1.zip ks).flatMap fun p => wordBytes p.1.2 ++ p.2.map BSrc.key).zip
      ((List.range (8 * r.1.length)).map fun i => .key (spadKey blk (off + i)))) ++
    granules (((natBytes 32 back).map BSrc.val).zip ((List.range 32).map fun i => .key (spadKey blk (sa + i))))

/-- The object that an instruction names is misaligned (R254). -/
def Work.boMisaligned (w : Work) (o : CopyOp) (l : Nat) : Bool :=
  match w.boOperand o l with
  | .error f => f.cause == cMISALIGN
  | .ok _ => false

def execIdxWalk (h : Hdr) (o : CopyOp) (s : State) : Host.Outcome State Fault Refusal :=
  issue s h (o.a.names 1 ++ (if o.bo then o.c.names 1 else [])) [.s o.tk.toNat] fun w x =>
    let l := x.headD 0
    let sa := (w.op32 l o.a).toNat
    let off := o.ext.toNat
    let blk := w.g.blk
    if w.spadBusy blk anyCls w.d.nextId sa 32 || !w.accessesDone then .hold
    else
      let desc := w.load (spadKey blk sa) 32
      let rptr := bits desc 0 57
      let cola := bits desc 64 57
      let row0 := bits desc 160 32
      let nr := bits desc 192 32
      let pos := bits desc 224 32
      let inWin := !w.spadOver sa 32
      if inWin && (decide (4096 < nr) || bits desc 57 7 != 0 || bits desc 121 39 != 0 || rptr % 4 != 0 || cola % 4 != 0) then
        .trap cTREC_BAD 0
      else if sa % 16 != 0 then .trap cMISALIGN sa
      else if off % 8 != 0 then .trap cMISALIGN off
      else if w.boMisaligned o l then .trap cMISALIGN (w.op32 l o.c).toNat
      else if !inWin then .trap cSPAD_RANGE sa
      else
        match w.rowKeys rptr row0 nr, w.boOperand o l with
        | .error f, .ok _ => .xlate f.cause f.addr
        | .error _, .error b => .trap b.cause b.addr
        | .ok rk, bo =>
            if rk.flatten.any fun k => w.deadAt k true then .ok (w.deadEnd blk rk.flatten) []
            else if !w.readNow rk.flatten then .hold
            else
              let rd := w.readWords rk
              let r := walkOf row0 nr pos rd.1
              let cs := r.1
              match bo, w.spadOver off (8 * cs.length) with
              | _, true => .trap cSPAD_RANGE off
              | .error b, false => .trap b.cause b.addr
              | .ok bo, false =>
                  match collect (cs.map fun c => w.keysOf .engR ((cola + 4 * c.1 : Nat) : Int) 4) with
                  | .error f => .xlate f.cause f.addr
                  | .ok ks =>
                      if !w.engineReady eIndex then w.engineWait eIndex
                      else
                      let w := rd.2
                      let more := decide (0 < r.2.2.1)
                      let e : EOp := { w.newOp .gs .walk with
                        tok := some o.tk.toNat, bo := bo, parts := walkParts blk sa off desc r ks, waits := true
                        spw := [(off, 8 * cs.length), (sa, 32)]
                        word := BitVec.ofNat 64 (2 ^ 17 * cs.length + 2 ^ 16 * more.toNat) }
                      .ok ((w.enter e).updDie w.dieNo fun d => { d with idxQ := d.idxQ ++ [e.id] }) []

/-! ### idx.gather (R276): ZROWS counts the rows of units that are out of range (DEDUCED, assumption 42) -/

def execIdxGather (h : Hdr) (o : CopyOp) (s : State) : Host.Outcome State Fault Refusal :=
  issue s h (copySrc o) [.s o.tk.toNat] fun w x =>
    let l := x.headD 0
    let f := tileOf (w.g.readT o.tr.toNat)
    let lst := (w.op32 l o.a).toNat
    let n := (w.op32 l o.b).toNat
    let off := o.ext.toNat
    let blk := w.g.blk
    if n = 0 ∨ 4096 < n then .trap cILLEGAL 0
    else if recBad (w.g.readT o.tr.toNat) then .trap cTREC_BAD 0
    else
      match f.rg with
      | none => .trap cTREC_BAD 0
      | some rg =>
          if lst % 8 != 0 then .trap cMISALIGN lst
          else
            match w.copyChecks o l false (w.spadOver lst (8 * n) || w.spadOver off (n * f.trows * rg)) with
            | .error e => .trap e.cause (if e.cause = cSPAD_RANGE ∧ w.spadOver lst (8 * n) then lst else e.addr)
            | .ok bo =>
                if w.spadBusy blk anyCls w.d.nextId lst (8 * n) || !w.accessesDone then .hold
                else
                  let xs := (List.range n).map fun j => w.load (spadKey blk (lst + 8 * j + (if o.col then 4 else 0))) 4
                  let rowsOf := xs.flatMap fun v => (List.range f.trows).map fun t => v * f.trows + t
                  match collect (rowsOf.map fun r => w.gatherRow f rg r) with
                  | .error e => .xlate e.cause e.addr
                  | .ok rows =>
                      if !w.engineReady eIndex then w.engineWait eIndex
                      else
                      let out := f.trows * (xs.filter fun v => decide (f.rows ≤ v * f.trows)).length
                      let pad := xs.any fun v => decide (v * f.trows < f.rows) && decide (f.rows < v * f.trows + f.trows)
                      let ps := rowParts blk off rg f.z rows
                      let e : EOp := { w.newOp .gs .gather with
                        tok := some o.tk.toNat, bo := bo, parts := ps, waits := true, spw := swzRanges off (n * f.trows * rg) f.z
                        word := copyWord (partBytes ps) out pad (decide (0 < out)) 0 }
                      .ok ((w.enter e).updDie w.dieNo fun d => { d with idxQ := d.idxQ ++ [e.id] }) []

/-- INDEX_COMMAND_START (R277): the engine of a die takes the next command in order of arrival, once the one before has
made its last write. -/
def execIndexCommandStart (die : Nat) (s : State) : Host.Outcome State Fault Refusal :=
  device s fun w =>
    match (w.d.die die).idxQ with
    | [] => w
    | h :: t =>
        match w.op? h with
        | none => w.updDie die fun d => { d with idxQ := t }
        | some e =>
            if e.waits then w.updOp h fun e => { e with waits := false }
            else if e.parts.isEmpty then
              let w := w.updDie die fun d => { d with idxQ := t }
              (match t with
                | k :: _ => w.updOp k fun e => { e with waits := false }
                | [] => w)
            else w

end Sys2Proof.Machine
end

