-- ==== Sys2Proof/Machine/Integer.lean ====
section
/-! DEFINITION. Integer and address instructions (R190 to R194). -/

namespace Sys2Proof.Machine

/-- A source of width `ty` as a w-bit pattern (R190). -/
def Work.intPat (w : Work) (ty : IntTy) (l : Nat) (o : Opnd) : Nat :=
  if ty.width = 64 then (w.op64 l o).toNat else (w.op32 l o).toNat % 2 ^ ty.width

end Sys2Proof.Machine

namespace Sys2Proof
open Machine

/-- The number a w-bit pattern stands for under a type. -/
def IntTy.val (ty : IntTy) (p : Nat) : Int := if ty.signed then (BitVec.ofNat ty.width p).toInt else (p : Int)

def IntTy.lo (ty : IntTy) : Int := if ty.signed then -(2 ^ (ty.width - 1) : Int) else 0
def IntTy.hi (ty : IntTy) : Int := if ty.signed then 2 ^ (ty.width - 1) - 1 else 2 ^ ty.width - 1

/-- The w-bit pattern of an exact result, clamped under .sat (R62, R192). -/
def IntTy.narrow (ty : IntTy) (sat : Bool) (x : Int) : Nat :=
  let y := if sat then max ty.lo (min ty.hi x) else x
  (y % (2 ^ ty.width : Int)).toNat

/-- A w-bit pattern extended into a register by the type's signedness (R190). -/
def IntTy.extend (ty : IntTy) (p : Nat) : DWord :=
  if ty.signed then (BitVec.ofNat ty.width p).signExtend 64 else BitVec.ofNat 64 p

end Sys2Proof

namespace Sys2Proof.Machine

/-- The names of the operands and destination of an IntOp of `n` sources. -/
def intSrc (o : IntOp) (n : Nat) : List Named :=
  let c := if o.ty.wide then 2 else 1
  o.a.names c ++ (if 2 ≤ n then o.b.names c else []) ++ (if 3 ≤ n then o.c.names c else [])

def intDst (o : IntOp) : List Named := o.d.names (if o.ty.wide then 2 else 1)

/-- R192's IntegerOp: `f` gives the exact result from the three patterns. -/
def intOp (s : State) (h : Hdr) (o : IntOp) (n : Nat) (f : Nat → Nat → Nat → Int) : Host.Outcome State Fault Refusal :=
  issue s h (intSrc o n) (intDst o) fun w x =>
    .ok (w.writeDst x o.d o.ty.wide true fun l =>
      o.ty.extend (o.ty.narrow o.sat (f (w.intPat o.ty l o.a) (w.intPat o.ty l o.b) (w.intPat o.ty l o.c)))) []

/-- Bit reversal of the low `w` bits. -/
def brevNat (w a : Nat) : Nat := ((List.range w).map fun i => if a.testBit (w - 1 - i) then 2 ^ i else 0).sum

def popcNat (w a : Nat) : Nat := ((List.range w).filter fun i => a.testBit i).length

/-- Leading zero bits of a w-bit pattern; w for 0. -/
def clzNat (w a : Nat) : Nat := ((List.range w).takeWhile fun i => !a.testBit (w - 1 - i)).length

def ctzNat (w a : Nat) : Nat := ((List.range w).takeWhile fun i => !a.testBit i).length

/-- bfx (Table 11.1): bits pos + len − 1 : pos of a, bits at or above w reading 0 or bit w − 1. -/
def bfxInt (ty : IntTy) (a pl : Nat) : Int :=
  let pos := pl % 256
  let len := min (pl / 256 % 256) ty.width
  let wide : Nat := if ty.signed ∧ a.testBit (ty.width - 1) then a + 2 ^ ty.width * (2 ^ 512 - 1) else a
  let v := wide / 2 ^ pos % 2 ^ len
  if len = 0 then 0 else if ty.signed then (BitVec.ofNat len v).toInt else (v : Int)

/-- bfi (Table 11.1): b with bit pos + j replaced by bit j of a, for j < len with pos + j < w. -/
def bfiNat (w a b pl : Nat) : Nat :=
  let pos := pl % 256
  let len := min (pl / 256 % 256) w
  ((List.range w).map fun i =>
    if (if pos ≤ i ∧ i < pos + len then a.testBit (i - pos) else b.testBit i) then 2 ^ i else 0).sum

def execAdd (h : Hdr) (o : IntOp) (s : State) := intOp s h o 2 fun a b _ => o.ty.val a + o.ty.val b
def execSub (h : Hdr) (o : IntOp) (s : State) := intOp s h o 2 fun a b _ => o.ty.val a - o.ty.val b
def execMulLo (h : Hdr) (o : IntOp) (s : State) := intOp s h o 2 fun a b _ => o.ty.val a * o.ty.val b
def execMulHi (h : Hdr) (o : IntOp) (s : State) :=
  intOp s h o 2 fun a b _ => (o.ty.val a * o.ty.val b) / (2 ^ o.ty.width : Int)
def execMad (h : Hdr) (o : IntOp) (s : State) := intOp s h o 3 fun a b c => o.ty.val a * o.ty.val b + o.ty.val c
def execMin (h : Hdr) (o : IntOp) (s : State) := intOp s h o 2 fun a b _ => min (o.ty.val a) (o.ty.val b)
def execMax (h : Hdr) (o : IntOp) (s : State) := intOp s h o 2 fun a b _ => max (o.ty.val a) (o.ty.val b)
def execAbs (h : Hdr) (o : IntOp) (s : State) := intOp s h o 1 fun a _ _ => (o.ty.val a).natAbs
def execNeg (h : Hdr) (o : IntOp) (s : State) := intOp s h o 1 fun a _ _ => -(o.ty.val a)
def execAnd (h : Hdr) (o : IntOp) (s : State) := intOp s h o 2 fun a b _ => ((a &&& b : Nat) : Int)
def execOr (h : Hdr) (o : IntOp) (s : State) := intOp s h o 2 fun a b _ => ((a ||| b : Nat) : Int)
def execXor (h : Hdr) (o : IntOp) (s : State) := intOp s h o 2 fun a b _ => ((a ^^^ b : Nat) : Int)
def execNot (h : Hdr) (o : IntOp) (s : State) := intOp s h o 1 fun a _ _ => -(a : Int) - 1

/-- a · 2^n; 0 when n ≥ w, since the low w bits are then 0. -/
def execShl (h : Hdr) (o : IntOp) (s : State) :=
  intOp s h o 2 fun a n _ => if o.ty.width ≤ n then 0 else ((a * 2 ^ n : Nat) : Int)
def execShr (h : Hdr) (o : IntOp) (s : State) :=
  intOp s h o 2 fun a n _ => if o.ty.width ≤ n then 0 else ((a / 2 ^ n : Nat) : Int)
def execSar (h : Hdr) (o : IntOp) (s : State) :=
  intOp s h o 2 fun a n _ => (BitVec.ofNat o.ty.width a).toInt / (2 ^ min n o.ty.width : Int)

/-- bfx reads pl at 32 bits whatever the width (R190, R192). -/
def execBfx (h : Hdr) (o : IntOp) (s : State) : Host.Outcome State Fault Refusal :=
  issue s h (o.a.names (if o.ty.wide then 2 else 1) ++ o.b.names 1) (intDst o) fun w x =>
    .ok (w.writeDst x o.d o.ty.wide true fun l =>
      o.ty.extend (o.ty.narrow false (bfxInt o.ty (w.intPat o.ty l o.a) (w.op32 l o.b).toNat))) []

def execBfi (h : Hdr) (o : IntOp) (s : State) : Host.Outcome State Fault Refusal :=
  issue s h (o.a.names (if o.ty.wide then 2 else 1) ++ o.b.names (if o.ty.wide then 2 else 1) ++ o.c.names 1) (intDst o)
    fun w x =>
      .ok (w.writeDst x o.d o.ty.wide true fun l =>
        o.ty.extend (bfiNat o.ty.width (w.intPat o.ty l o.a) (w.intPat o.ty l o.b) (w.op32 l o.c).toNat)) []

def execPopc (h : Hdr) (o : IntOp) (s : State) := intOp s h o 1 fun a _ _ => (popcNat o.ty.width a : Int)
def execClz (h : Hdr) (o : IntOp) (s : State) := intOp s h o 1 fun a _ _ => (clzNat o.ty.width a : Int)
def execCtz (h : Hdr) (o : IntOp) (s : State) := intOp s h o 1 fun a _ _ => (ctzNat o.ty.width a : Int)
def execBrev (h : Hdr) (o : IntOp) (s : State) := intOp s h o 1 fun a _ _ => (brevNat o.ty.width a : Int)
def execMov (h : Hdr) (o : IntOp) (s : State) := intOp s h o 1 fun a _ _ => (a : Int)

def execSel (h : Hdr) (o : SelOp) (s : State) : Host.Outcome State Fault Refusal :=
  let c := if o.ty.wide then 2 else 1
  issue s h (o.a.names c ++ o.b.names c) (o.d.names c) fun w x =>
    .ok (w.writeDst x o.d o.ty.wide true fun l =>
      o.ty.extend (if (w.g.thread l).predF o.p then w.intPat o.ty l o.a else w.intPat o.ty l o.b)) []

def execCmp (h : Hdr) (o : CmpOp) (s : State) : Host.Outcome State Fault Refusal :=
  let c := if o.ty.wide then 2 else 1
  issue s h (o.a.names c ++ o.b.names c) [] fun w x =>
    .ok (w.writePred x o.pd fun l =>
      condInt o.cond o.ty.signed o.ty.width (w.intPat o.ty l o.a) (w.intPat o.ty l o.b)) []

/-- lea (R192): a + b·2^(c[5:0]), 64 bits wide, b extended by signedness. -/
def execLea (h : Hdr) (o : IntOp) (s : State) : Host.Outcome State Fault Refusal :=
  let c := if o.ty.wide then 2 else 1
  issue s h (o.a.names 2 ++ o.b.names c ++ o.c.names c) (o.d.names 2) fun w x =>
    .ok (w.writeDst x o.d true true fun l =>
      w.op64 l o.a + BitVec.ofInt 64 (o.ty.val (w.intPat o.ty l o.b) * 2 ^ (w.intPat o.ty l o.c % 64))) []

/-- movi.b32 (R194): an S or B destination receives the literal zero-extended. -/
def execMoviB32 (h : Hdr) (d : Dst) (k : Word) (s : State) : Host.Outcome State Fault Refusal :=
  issue s h [] (d.names 1) fun w x => .ok (w.writeDst x d false true fun _ => k.zeroExtend 64) []

def execMoviB64 (h : Hdr) (d : Dst) (k : DWord) (s : State) : Host.Outcome State Fault Refusal :=
  issue s h [] (d.names 2) fun w x => .ok (w.writeDst x d true true fun _ => k) []

end Sys2Proof.Machine
end

