-- ==== Sys2Proof/Machine/Lanes.lean ====
section
/-! DEFINITION. Lanes, votes, predicates and leaders (R195 to R199). -/

namespace Sys2Proof.Machine

/-- movs (R195): the register as it stands in the lane SB gives in the lowest executing lane, or in that lane itself. A Q register that
a source lane which does not execute has not mapped reads as 0 (DESIGN CHOICE, assumption 113: R41 faults for executing lanes). -/
def execMovs (h : Hdr) (o : MovsOp) (s : State) : Host.Outcome State Fault Refusal :=
  issue s h (o.a.names (if o.wide then 2 else 1) ++ o.lane.names 1) (o.d.names 1) fun w x =>
    let l := x.headD 0
    let src := if o.first then l else (w.op32 l o.lane).toNat % 32
    .ok (w.writeDst x o.d o.wide false fun _ =>
      if o.wide then w.op64 src o.a else (w.op32 src o.a).zeroExtend 64) []

/-- 2^Floor(Log2(Min(Max(c, 1), 32))) (R196). -/
def segWidth (c : Nat) : Nat :=
  if 32 ≤ c then 32 else if 16 ≤ c then 16 else if 8 ≤ c then 8 else if 4 ≤ c then 4 else if 2 ≤ c then 2 else 1

/-- The lane that lane `t` reads from (R196). -/
def xlaneSource (m : XMode) (t b c : Nat) : Nat :=
  let w := segWidth c
  let base := t - t % w
  let p := t % w
  match m with
  | .at => base + b % w
  | .below => base + (p + w - b % w) % w
  | .above => base + (p + b % w) % w
  | .mask => base + (p ^^^ (b % w))

def execXlane (h : Hdr) (o : XlaneOp) (s : State) : Host.Outcome State Fault Refusal :=
  issue s h (o.a.names 1 ++ o.b.names 1 ++ o.c.names 1) (o.d.names 1) fun w x =>
    .ok (w.writeDst x o.d false true fun t =>
      let sl := xlaneSource o.mode t (w.op32 t o.b).toNat (w.op32 t o.c).toNat
      (w.op32 (if x.contains sl then sl else t) o.a).zeroExtend 64) []

/-- The value agree writes, from q in each executing lane (R197). -/
def agreeVal (m : AgreeMode) (qs : List Bool) : Bool :=
  match m with
  | .every => qs.all id
  | .some => qs.any id
  | .same => qs.all id || qs.all not
  | .odd => (qs.filter id).length % 2 == 1

def execAgree (h : Hdr) (m : AgreeMode) (pd : BitVec 4) (q : PredF) (s : State) : Host.Outcome State Fault Refusal :=
  issue s h [] [] fun w x =>
    .ok (w.writePred x pd fun _ => agreeVal m (x.map fun l => (w.g.thread l).predF q)) []

def execPmask (h : Hdr) (inv : Bool) (d : Dst) (q : PredF) (s : State) : Host.Outcome State Fault Refusal :=
  issue s h [] (d.names 1) fun w x =>
    .ok (w.writeDst x d false true fun _ =>
      (maskOf (x.filter fun l => (w.g.thread l).predF q != inv)).zeroExtend 64) []

/-- lane.iss, lane.lt, lane.rank (R197). -/
def laneVal (m : LaneMode) (x : List Nat) (t : Nat) : Word :=
  match m with
  | .iss => maskOf x
  | .lt => maskOf (x.filter fun l => decide (l < t))
  | .rank => BitVec.ofNat 32 (x.filter fun l => decide (l < t)).length

def execLane (h : Hdr) (m : LaneMode) (d : Dst) (s : State) : Host.Outcome State Fault Refusal :=
  issue s h [] (d.names 1) fun w x => .ok (w.writeDst x d false true fun t => (laneVal m x t).zeroExtend 64) []

/-- lead (R198): true in the lowest executing lane, false in every other executing lane. -/
def execLead (h : Hdr) (pd : BitVec 4) (s : State) : Host.Outcome State Fault Refusal :=
  issue s h [] [] fun w x => .ok (w.writePred x pd fun l => x.head? == some l) []

/-- A predicate instruction of two sources (Table 11.2). -/
def predOp (s : State) (h : Hdr) (pd : BitVec 4) (a b : PredF) (f : Bool → Bool → Bool) :
    Host.Outcome State Fault Refusal :=
  issue s h [] [] fun w x => .ok (w.writePred x pd fun l => f ((w.g.thread l).predF a) ((w.g.thread l).predF b)) []

def execPand (h : Hdr) (pd : BitVec 4) (a b : PredF) (s : State) := predOp s h pd a b (· && ·)
def execPor (h : Hdr) (pd : BitVec 4) (a b : PredF) (s : State) := predOp s h pd a b (· || ·)
def execPxor (h : Hdr) (pd : BitVec 4) (a b : PredF) (s : State) := predOp s h pd a b (· != ·)
def execPnot (h : Hdr) (pd : BitVec 4) (a : PredF) (s : State) := predOp s h pd a a fun x _ => !x
def execPmov (h : Hdr) (pd : BitVec 4) (a : PredF) (s : State) := predOp s h pd a a fun x _ => x

/-- pmov.pk: Concat(0, P14 … P0). -/
def execPmovPk (h : Hdr) (d : Dst) (s : State) : Host.Outcome State Fault Refusal :=
  issue s h [] (d.names 1) fun w x => .ok (w.writeDst x d false true fun l => (w.g.thread l).p.zeroExtend 64) []

/-- pmov.upk: P14 … P0 := a[14:0]. -/
def execPmovUpk (h : Hdr) (a : Opnd) (s : State) : Host.Outcome State Fault Refusal :=
  issue s h (a.names 1) [] fun w x =>
    .ok (w.updG fun g => x.foldl (fun g l => g.updThread l fun t => { t with p := (w.op32 l a).truncate 15 }) g) []

end Sys2Proof.Machine
end

