-- ==== Sys2Proof/Machine/Matrix.lean ====
section
/-! DEFINITION. Signatures, dense and sparse matrix operations, accumulator transfers, the reservation table (R63 to R65,
R268 to R274, R332) and rebal (R278). -/

namespace Sys2Proof.Machine

/-! ### Operand rows -/

/-- The granules' bytes of an operand tile of 64 rows, each row's elements and then its scale codes. -/
def Work.operand (w : Work) (f : TileF) (shared : Bool) (row col : Nat) : Except Fail (List BSrc) :=
  if shared then
    .ok ((List.range 64).flatMap fun r => (fun p => p.1 ++ p.2) (f.spadRow w.g.blk row r))
  else (collect ((List.range 64).map fun r => (w.tensorRow f (row + r) col f.tcols).map fun p => p.1 ++ p.2)).map List.flatten

/-- Table 14.8. -/
def pairOk (a b : Ty) : Bool :=
  let narrow : Ty → Bool := fun t => t == .e4m3 || t == .e5m2 || t == .e3m2 || t == .e2m3 || t == .e2m1
  let mx8 : Ty → Bool := fun t => t == .mxe4m3 || t == .mxe5m2
  let mx6 : Ty → Bool := fun t => t == .mxe3m2 || t == .mxe2m3 || t == .mxe2m1
  (a == .f16 && b == .f16) || (a == .bf16 && b == .bf16) || (narrow a && narrow b) || (mx8 a && mx8 b) ||
    (a == .mxi8 && b == .mxi8) || (mx6 a && mx6 b)

/-! ### The arithmetic (R63, R64) -/

/-- A row of an operand: its element values and block scale codes. -/
structure MRow where
  el : List FVal
  sc : List Nat

/-- Bytes of one row of a tile of `n` columns. -/
def rowLen (t : Ty) (n : Nat) : Nat := n * (tileBits t).getD 8 / 8 + (if t.isMx then n / 32 else 0)

def mrow (t : Ty) (n : Nat) (bs : List Byte) : MRow :=
  let b := (tileBits t).getD 8
  let x := bytesNat (bs.take (n * b / 8))
  { el := (List.range n).map fun k => (tyElem t).decode (elemBits x b k)
    sc := if t.isMx then (bs.drop (n * b / 8)).map BitVec.toNat else [] }

/-- The rows of a flattened operand. -/
def mrows (t : Ty) (n : Nat) : Nat → List Byte → List MRow
  | 0, _ => []
  | r + 1, bs => mrow t n (bs.take (rowLen t n)) :: mrows t n r (bs.drop (rowLen t n))

/-- The exact sum of a chunk's products, scaled (R63, R64). -/
def chunkSum (a b : MRow) (c : Nat) : FVal :=
  let sa := a.sc.getD c 127
  let sb := b.sc.getD c 127
  if sa = 255 ∨ sb = 255 then .nan
  else
    (fsum (((a.el.drop (32 * c)).take 32).zipWith FVal.mul ((b.el.drop (32 * c)).take 32)) false).scale
      ((sa : Int) - 127 + ((sb : Int) - 127))

/-- One output element over all its chunks. -/
def dotAcc (ftz : Bool) (acc : Nat) (k : Nat) (a b : MRow) : Nat :=
  (List.range (k / 32)).foldl (fun acc c => fF32.out .rne false ftz 0 (fsum [fF32.decode acc, chunkSum a b c] false)) acc

/-- A row of a compressed operand over its K columns (R271). `md` holds the row's positions. -/
def expand (k : Nat) (md : Nat) (r : MRow) : MRow :=
  { r with el := (List.range (k / 4)).flatMap fun q => (List.range 4).map fun m =>
      [2 * q, 2 * q + 1].foldl (fun v e =>
        if bits md (2 * e) 2 = m then fsum [v, r.el.getD e (.fin false 0 0)] false else v) (.fin false 0 0) }

def accKey (a i j : Nat) : Nat := 4096 * a + 64 * i + j

def Block.acc? (b : Block) (a i j : Nat) : Nat := (sget b.accs (accKey a i j) 0).toNat

/-- The 64 × 64 elements of an accumulator, set. -/
def Block.setAcc (b : Block) (a : Nat) (f : Nat → Nat → Nat) : Block :=
  { b with accs := (List.range 64).foldl (fun m i => (List.range 64).foldl (fun m j =>
      sset m (accKey a i j) (BitVec.ofNat 32 (f i j))) m) b.accs }

def rowAt (l : List MRow) (i : Nat) : MRow := l.getD i { el := [], sc := [] }

/-- mma and smma (R270, R271) on the bytes the operation has read: A, B, then the metadata. -/
def Block.mulAcc (b : Block) (a k : Nat) (ta tb : Ty) (sparse ftz : Bool) (data : List Byte) : Block :=
  let ka := if sparse then k / 2 else k
  let la := 64 * rowLen ta ka
  let lb := 64 * rowLen tb k
  let md := bytesNat (data.drop (la + lb))
  let ra := mrows ta ka 64 data
  let ra := if sparse then ((List.range 64).zip ra).map fun p => expand k (bits md (p.1 * ka * 2) (2 * ka)) p.2 else ra
  let rb := mrows tb k 64 (data.drop la)
  b.setAcc a fun i j => dotAcc ftz (b.acc? a i j) k (rowAt ra i) (rowAt rb j)

/-! ### Storing an accumulator (R65, R274) -/

/-- A tensor scale: 1.0 where the record carries none. -/
def scaleOf (r : TRec) : FVal := if rTSV r then fF32.decode (rTSCALE r) else .fin false 1 0

/-- The bytes of `n` elements of row `i` of an accumulator from column 0, and their scale codes. `.ftz` flushes the rounded
result alone, as R65 gives it, and reads no accumulator element or tensor scale as zero (DESIGN CHOICE, assumption 72: R61
speaks of each FP32 register operand). -/
def Block.outRow (b : Block) (a : Nat) (t : Ty) (ta tb : TRec) (rnd : Rnd) (sat ftz : Bool) (i n : Nat) : List Byte :=
  let s := (scaleOf ta).mul (scaleOf tb)
  let vs := (List.range n).map fun j => (fF32.decode (b.acc? a i j)).mul s
  let w := (tileBits t).getD 8
  let pack : List Nat → List Byte := fun cs =>
    natBytes (cs.length * w / 8) (((List.range cs.length).zip cs).map fun p => p.2 * 2 ^ (w * p.1)).sum
  if t.isMx then
    let qs := (List.range (n / 32)).map fun c => quantise (tyElem t) rnd (List.replicate 32 0) ((vs.drop (32 * c)).take 32)
    pack (qs.flatMap (·.2)) ++ qs.map fun q => BitVec.ofNat 8 q.1
  else
    match tyElem t with
    | .fl f => pack (vs.map fun v => f.out rnd sat ftz 0 v)
    | .int8 => []

/-! ### Entering the reservation table (R272) -/

def Die.resvOf (e : Die) (q : Nat) : List Resv := sget e.resv q []

/-- The quad of the issuing core within its die. -/
def Work.quadNo (w : Work) : Nat := w.coreNo % 64 / 4

def Work.resvFull (w : Work) : Bool := decide (64 ≤ ((w.d.die w.dieNo).resvOf w.quadNo).length)

def Work.enterResv (w : Work) (e : EOp) : Work :=
  (w.enter e).updDie w.dieNo fun d =>
    { d with resv := sset d.resv w.quadNo (d.resvOf w.quadNo ++ [{ op := e.id, passed := 0, since := w.d.now }]) }

/-! ### mma, smma (R269 to R271) -/

/-- An instruction word without GRD and CTL (R269). -/
def sigWord (x : Nat) : Nat := x - bits x 16 5 * 2 ^ 16 - bits x 12 4 * 2 ^ 12

/-- The checks of R270 and R271, made at the last signature: the operation, or the fault. -/
def Work.mmaChecks (w : Work) (o : MmaOp) (sparse : Bool) (l : Nat) : Except Fail EOp :=
  let ra := w.g.readT o.ta.toNat
  let rb := w.g.readT o.tb.toNat
  let fa := tileOf ra
  let fb := tileOf rb
  let row := (w.op32 l o.row0).toNat
  let col := (w.op32 l o.col0).toNat
  let k0 := (w.op32 l o.k0).toNat
  let k := if sparse then 2 * fa.tcols else fa.tcols
  let md := o.md.toNat
  let mdLen := 64 * fa.tcols * 2 / 8
  if recBad ra || recBad rb || fa.trows != 64 || fb.trows != 64 || fb.tcols != k || !pairOk fa.ty fb.ty ||
      (sparse && (fa.ty.isMx || fb.ty.isMx)) then .error { rank := 3, cause := cTREC_BAD, addr := 0 }
  else if (!(o.aS && o.bS) && k0 % 32 != 0) then .error { rank := 4, cause := cMISALIGN, addr := 0 }
  else if o.aS && row % 16 != 0 then .error { rank := 4, cause := cMISALIGN, addr := row }
  else if o.bS && col % 16 != 0 then .error { rank := 4, cause := cMISALIGN, addr := col }
  else if sparse && md % 16 != 0 then .error { rank := 4, cause := cMISALIGN, addr := md }
  else if o.aS && w.spadOver row fa.size then .error { rank := 5, cause := cSPAD_RANGE, addr := row }
  else if o.bS && w.spadOver col fb.size then .error { rank := 5, cause := cSPAD_RANGE, addr := col }
  else if sparse && w.spadOver md mdLen then .error { rank := 5, cause := cSPAD_RANGE, addr := md }
  else
    let ka := if sparse then k0 / 2 else k0
    match collect [w.operand fa o.aS row ka, w.operand fb o.bS col k0] with
    | .error f => .error f
    | .ok bs =>
        let mds := if sparse then (List.range mdLen).map fun i => BSrc.key (spadKey w.g.blk (md + i)) else []
        .ok { w.newOp .mtx (.mma o.acc.toNat k fa.ty fb.ty sparse o.ftz o.j.toNat) with
          waits := true, parts := bufAll (bs.flatten ++ mds)
          spr := (if o.aS then fa.ranges row else []) ++ (if o.bS then fb.ranges col else []) ++
            (if sparse then [(md, mdLen)] else []) }

/-- Waiting signers of other instructions go on (R269). -/
def Work.releaseSigners (w : Work) (blk : Nat) (ts : List Nat) : Work :=
  (ts.map fun t => t / 32).eraseDups.foldl (fun w g => w.updGrp (blk + g) fun gr =>
    ((ts.filter fun t => t / 32 == g).foldl (fun gr t => gr.updThread (t % 32) fun th =>
      match th.st, th.wait with
      | .waiting, some wt => { th with st := .runnable, wait := none, pc := th.pc + BitVec.ofNat 57 wt.len }
      | _, _ => th) gr).meetings) w

def signOp (s : State) (h : Hdr) (o : MmaOp) (sparse : Bool) : Host.Outcome State Fault Refusal :=
  issue s h (o.row0.names 1 ++ o.col0.names 1 ++ o.k0.names 1 ++ tNames o.ta ++ tNames o.tb ++ [.a o.acc.toNat]) [] fun w x =>
    if w.d.cur.stamped then .wait w x (.cont []) []
    else
      let jr := sget w.blk.joins o.j.toNat Join.idle
      let ts := x.map fun l => 32 * w.g.gidx + l
      let own := w.d.cur.word
      if jr.st ≠ .armed ∨ ts.any fun t => !jr.declared.contains t || jr.signed.contains t then .trap cJ_NOTDECL 0
      else if !w.engineReady eMatrix then w.engineWait eMatrix
      else
        let same := jr.signed.isEmpty || sigWord jr.word.toNat == sigWord own
        let signed := jr.signed ++ ts
        if jr.declared.all signed.contains then
          -- J_MISMATCH stands between the range checks and the translation of the operation (R188, classes 5 to 7)
          match w.mmaChecks o sparse (x.headD 0) with
          | .error f => if f.rank < 6 || same then .xlate f.cause f.addr else .trap cJ_MISMATCH 0
          | .ok e =>
              if !same then .trap cJ_MISMATCH 0
              else if w.resvFull then .hold
              else
                let blk := w.g.blk
                let slots := w.slot :: (((signed.map fun t => blk + t / 32).eraseDups).filter fun k => k != w.slot)
                let word := if jr.signed.isEmpty then BitVec.ofNat 128 own else jr.word
                let w := w.updB fun b =>
                  { b with joins := sset b.joins o.j.toNat { jr with signed := signed, word := word, st := .issued } }
                .ok ((w.enterResv { e with slots := slots }).releaseSigners blk jr.signed) []
        else
          let word : QWord := if jr.signed.isEmpty then BitVec.ofNat 128 own else if same then jr.word else 0
          .wait (w.updB fun b => { b with joins := sset b.joins o.j.toNat { jr with signed := signed, word := word } }) x
            (.cont []) []

def execMma (h : Hdr) (o : MmaOp) (s : State) := signOp s h o false
def execSmma (h : Hdr) (o : MmaOp) (s : State) := signOp s h o true

/-! ### mx.ld, mx.zero, mx.st (R273, R274) -/

def execMxLd (h : Hdr) (acc : BitVec 3) (sp : Bool) (row0 col0 : Opnd) (tr : BitVec 4) (s : State) :
    Host.Outcome State Fault Refusal :=
  issue s h (row0.names 1 ++ (if sp then [] else col0.names 1) ++ tNames tr ++ [.a acc.toNat]) [] fun w x =>
    let l := x.headD 0
    let r := w.g.readT tr.toNat
    let f := tileOf r
    let row := (w.op32 l row0).toNat
    if recBad r || f.ty != .f32 || f.trows != 64 || f.tcols != 64 then .trap cTREC_BAD 0
    else if sp && row % 16 != 0 then .trap cMISALIGN row
    else if sp && w.spadOver row f.size then .trap cSPAD_RANGE row
    else
      match w.operand f sp row (w.op32 l col0).toNat with
      | .error e => .xlate e.cause e.addr
      | .ok bs =>
          if !w.engineReady eMatrix || w.resvFull then w.engineWait eMatrix
          else
            .ok (w.enterResv { w.newOp .mtx (.mxLd acc.toNat) with
              waits := true, parts := bufAll bs, spr := if sp then f.ranges row else [] }) []

def execMxZero (h : Hdr) (acc : BitVec 3) (s : State) : Host.Outcome State Fault Refusal :=
  issue s h [.a acc.toNat] [] fun w _ =>
    if !w.engineReady eMatrix || w.resvFull then w.engineWait eMatrix
    else .ok (w.enterResv { w.newOp .mtx (.mxZero acc.toNat) with waits := true }) []

def mxStTy (t : Ty) : Bool :=
  t == .f32 || t == .f16 || t == .bf16 || t == .e4m3 || t == .e5m2 || t == .e3m2 || t == .e2m3 || t == .e2m1 || t.isMx

/-- Destination granules of an mx.st, their bytes still to come: the elements row by row, then the scale codes. -/
def Work.outParts (w : Work) (f : TileF) (sp : Bool) (row col : Nat) : Except Fail (List EPart) :=
  let blank := fun (ds : List BDst) => granules (ds.map fun d => (.val 0, d))
  if sp then
    .ok (((List.range 64).flatMap fun r => blank ((List.range f.rb).map fun i => .key (f.spadAt w.g.blk row r i))) ++
      (if f.ty.isMx then blank ((List.range 128).map fun j => .key (spadKey w.g.blk (row + 64 * f.rb + j))) else []))
  else
    (w.tileKeys f row col 64 64).map fun rs =>
      (rs.flatMap fun r => blank (r.2.1.map w.dstOf)) ++ blank (rs.flatMap fun r => r.2.2.map w.dstOf)

def execMxSt (h : Hdr) (o : MxStOp) (s : State) : Host.Outcome State Fault Refusal :=
  issue s h (o.row0.names 1 ++ (if o.sp then [] else o.col0.names 1) ++ tNames o.out ++ tNames o.ta ++ tNames o.tb ++
      [.a o.acc.toNat]) [] fun w x =>
    let l := x.headD 0
    let r := w.g.readT o.out.toNat
    let f := tileOf r
    let row := (w.op32 l o.row0).toNat
    let col := (w.op32 l o.col0).toNat
    let ta := w.g.readT o.ta.toNat
    let tb := w.g.readT o.tb.toNat
    if o.ftz && rTY r != some .f32 then .trap cILLEGAL 0
    else if recBad r || recBad ta || recBad tb || f.trows != 64 || f.tcols != 64 || !mxStTy f.ty then .trap cTREC_BAD 0
    else if !o.sp && (f.ty.isMx || f.b == 6 || f.b == 4) && col % 32 != 0 then .trap cMISALIGN 0
    else if o.sp && row % 16 != 0 then .trap cMISALIGN row
    else if o.sp && w.spadOver row f.size then .trap cSPAD_RANGE row
    else
      let none_ := (w.notHelper x).isEmpty
      match if none_ then .ok [] else w.outParts f o.sp row col with
      | .error e => .xlate e.cause e.addr
      | .ok ps =>
          if !w.engineReady eMatrix || w.resvFull then w.engineWait eMatrix
          else
            .ok (w.enterResv { w.newOp .mtx (.mxSt o.acc.toNat r o.sp row col ta tb o.rnd o.sat o.ftz none_) with
              waits := true, parts := ps, spw := if o.sp && !none_ then f.ranges row else [] }) []

/-! ### MATRIX_GRANT (R332) -/

def EKind.acc : EKind → Option Nat
  | .mma a _ _ _ _ _ _ | .mxLd a | .mxZero a | .mxSt a _ _ _ _ _ _ _ _ _ _ => some a
  | _ => none

/-- Entries of a table with their operations. -/
def Work.resvOps (w : Work) (die q : Nat) : List (Resv × EOp) :=
  ((w.d.die die).resvOf q).filterMap fun r => (w.op? r.op).map fun e => (r, e)

/-- No older entry names the same accumulator, and every range the entry waits on has been written. -/
def Work.eligible (w : Work) (older : List (Resv × EOp)) (e : EOp) : Bool :=
  older.all (fun o => !(o.2.blk == e.blk && o.2.kind.acc == e.kind.acc)) &&
    e.spr.all fun r => !w.spadBusy e.blk anyCls e.id r.1 r.2

/-- PRI of the launch that an operation belongs to. -/
def Work.opPri (w : Work) (e : EOp) : Nat :=
  match w.blk? e.blk with
  | some b => ((sget? w.d.launches b.launch).map fun l => l.rec_.pri).getD 0
  | none => 0

/-- The eligible entries by position, with what decides among them: passed over by 64 grants, PRI. -/
def Work.eligibles (w : Work) : List (Resv × EOp) → List (Resv × EOp) → Nat → List (Nat × Bool × Nat)
  | _, [], _ => []
  | older, x :: t, i =>
      (if w.eligible older x.2 then [(i, decide (64 ≤ x.1.passed), w.opPri x.2)] else []) ++ w.eligibles (older ++ [x]) t (i + 1)

/-- The entry to grant (R332). -/
def bestEntry (l : List (Nat × Bool × Nat)) : Option Nat :=
  (l.foldl (fun (b : Option (Nat × Bool × Nat)) x =>
    match b with
    | none => some x
    | some y => if (x.2.1 && !y.2.1) || (x.2.1 == y.2.1 && decide (y.2.2 < x.2.2)) then some x else some y) none).map (·.1)

/-- The operation is granted: it computes on what it has read. -/
def Work.grantOp (w : Work) (e : EOp) : Work :=
  let blk := (w.blk? e.blk).getD Block.gone
  match e.kind with
  | .mma a k ta tb sp ftz _ =>
      (w.updBlk e.blk fun b => b.mulAcc a k ta tb sp ftz e.data).updOp e.id fun e => { e with waits := false }
  | .mxLd a =>
      (w.updBlk e.blk fun b => b.setAcc a fun i j => bytesNat ((e.data.drop (4 * (64 * i + j))).take 4)).updOp e.id fun e =>
        { e with waits := false }
  | .mxZero a => (w.updBlk e.blk fun b => b.setAcc a fun _ _ => 0).updOp e.id fun e => { e with waits := false }
  | .mxSt a o sp row col ta tb rnd sat ftz _ =>
      let f := tileOf o
      let n := if sp then 64 else f.inCols col 64
      let rows := ((List.range 64).filter fun r => sp || decide (row + r < f.rows)).map fun r =>
        blk.outRow a f.ty ta tb rnd sat ftz r n
      let out := (rows.flatMap fun r => r.take (n * f.b / 8)) ++ rows.flatMap fun r => r.drop (n * f.b / 8)
      let fill := fun (ps : List EPart) => (ps.foldl (fun (r : List EPart × List Byte) p =>
        (r.1 ++ [{ p with val := some (r.2.take p.src.length) }], r.2.drop p.src.length)) ([], out)).1
      w.updOp e.id fun e => { e with waits := false, parts := fill e.parts }
  | _ => w

/-- MATRIX_GRANT: entry `k` of a quad's table, if it is the one that R332 grants and its operands have been read. -/
def execMatrixGrant (quad k : Nat) (s : State) : Host.Outcome State Fault Refusal :=
  device s fun w =>
    let die := quad / 16
    let q := quad % 16
    let t := w.resvOps die q
    let el := w.eligibles [] t 0
    match t[k]? with
    | none => w
    | some (_, e) =>
        let read := e.parts.all fun p => p.dst != .buf || p.val.isSome
        if bestEntry el = some k ∧ read then
          let rest := ((List.range t.length).zip t).filterMap fun p =>
            if p.1 = k then none
            else some (if el.any (fun c => c.1 == p.1) then { p.2.1 with passed := p.2.1.passed + 1 } else p.2.1)
          (w.updDie die fun d => { d with resv := sset d.resv q rest }).grantOp e
        else w

/-! ### rebal (R278) -/

/-- P(j) for the executing threads. -/
def prefixSums : Nat → List Nat → List Nat
  | p, [] => [p]
  | p, x :: t => p :: prefixSums (p + x) t

/-- The pair of a thread whose item is `i`. -/
def rebalPair (ps ids : List Nat) (m i : Nat) : Nat :=
  if i < ps.getD m 0 then
    match (List.range m).find? fun j => decide (ps.getD j 0 ≤ i) && decide (i < ps.getD (j + 1) 0) with
    | some j => ids.getD j 0 + 2 ^ 32 * (i - ps.getD j 0)
    | none => 0xFFFFFFFF
  else 0xFFFFFFFF

def execRebal (h : Hdr) (o : RebalOp) (s : State) : Host.Outcome State Fault Refusal :=
  issue s h (o.a.names 1 ++ o.b.names 1 ++ o.c.names 1) (o.d.names 2 ++ (if o.tot then [.s o.tk.toNat] else [])) fun w x =>
    let ps := prefixSums 0 (x.map fun l => (w.op32 l o.a).toNat)
    let ids := x.map fun l => (w.op32 l o.b).toNat
    let m := x.length
    let rank := fun l => (x.idxOf? l).getD 0
    let w1 := w.owe h x o.d 2 fun l =>
      .ready (splitWords true (BitVec.ofNat 64 (rebalPair ps ids m ((w.op32 l o.c).toNat + rank l))))
    .ok (if o.tot then w1.owe h x (.s o.tk) 1 fun _ => .ready (splitWords true (BitVec.ofNat 64 (ps.getD m 0))) else w1) []

end Sys2Proof.Machine
end

