-- ==== Sys2Proof/Machine/Pergola.lean ====
section
/-! DEFINITION. Pergola structures: primitives and their exact bounds (R148 to R150), generations in the arena (R151 to
R153), builder commands (R154 to R156) and publication (R157, R158, R296, R297). -/

namespace Sys2Proof.Machine

/-! ### Codes (Table 22.7) -/

def kPG_BADDESC : Nat := 0x120
def kPG_BUSY : Nat := 0x121
def kPG_EMPTY : Nat := 0x122
def kPG_TOPO : Nat := 0x123
def kPG_DEGEN : Nat := 0x124
def kBUILD_NOMEM : Nat := 0x125
def kPG_NOCAND : Nat := 0x126
def kPG_PINNED : Nat := 0x127

/-! ### Primitives (Tables 8.2, 8.3)

Coordinates are exact: integers in units of 2^-149. -/

def primSize (ptype : Nat) : Nat := if ptype = 0 then 16 else 48

/-- The bytes of it that are read (R148); the ignored ones count as zeros. -/
def primBytes (ptype : Nat) : Nat := if ptype = 2 then 40 else primSize ptype

/-- Word `i` of a primitive. -/
def pw (x i : Nat) : Nat := bits x (32 * i) 32

def fxOf (b : Nat) : Int := (fF32.decode b).intAt (-149)

def f32Fin (b : Nat) : Bool :=
  match fF32.decode b with
  | .fin _ _ _ => true
  | _ => false

/-- Words `i`, `i + 1`, `i + 2` as exact coordinates. -/
def vec3 (x i : Nat) : List Int := [fxOf (pw x i), fxOf (pw x (i + 1)), fxOf (pw x (i + 2))]

def primBad (ptype x : Nat) : Bool :=
  if ptype = 0 then !((List.range 4).all fun i => f32Fin (pw x i)) || decide (fxOf (pw x 3) ≤ 0)
  else if ptype = 1 then
    let s := [3, 4, 5].map fun i => fxOf (pw x i)
    !((List.range 11).all fun i => f32Fin (pw x i)) || s.all (· == 0) || s.any (fun v => decide (v < 0)) ||
      [6, 7, 8, 9].all fun i => fxOf (pw x i) == 0
  else !((List.range 9).all fun i => f32Fin (pw x i))

/-- The user word that trace reports (R149, R299). -/
def primUser (ptype x : Nat) : Nat := if ptype = 0 then 0 else if ptype = 1 then pw x 11 else pw x 9

/-! ### Vectors -/

def dot (a b : List Int) : Int := ((a.zip b).map fun p => p.1 * p.2).sum
def vadd (a b : List Int) : List Int := (a.zip b).map fun p => p.1 + p.2
def vsub (a b : List Int) : List Int := (a.zip b).map fun p => p.1 - p.2
def vscale (k : Int) (a : List Int) : List Int := a.map fun x => k * x
def cross (a b : List Int) : List Int :=
  let g := fun (l : List Int) i => l.getD i 0
  [g a 1 * g b 2 - g a 2 * g b 1, g a 2 * g b 0 - g a 0 * g b 2, g a 0 * g b 1 - g a 1 * g b 0]

/-- Rows of the rotation of a quaternion times its squared norm, and that norm (R150). -/
def rotOf (w x y z : Int) : List (List Int) × Int :=
  ([[w * w + x * x - y * y - z * z, 2 * (x * y - w * z), 2 * (x * z + w * y)],
    [2 * (x * y + w * z), w * w - x * x + y * y - z * z, 2 * (y * z - w * x)],
    [2 * (x * z - w * y), 2 * (y * z + w * x), w * w - x * x - y * y + z * z]], w * w + x * x + y * y + z * z)

def splatRot (x : Nat) : List (List Int) × Int := rotOf (fxOf (pw x 6)) (fxOf (pw x 7)) (fxOf (pw x 8)) (fxOf (pw x 9))

def colsOf (m : List (List Int)) : List (List Int) := (List.range 3).map fun j => m.map fun r => r.getD j 0

/-! ### Bounds (R150) -/

/-- A box of integer coordinates that contains an exact bound. -/
structure IBox where
  lo : List Int
  hi : List Int

def IBox.join (a b : IBox) : IBox :=
  { lo := (a.lo.zip b.lo).map fun p => min p.1 p.2, hi := (a.hi.zip b.hi).map fun p => max p.1 p.2 }

def joinAll (l : List IBox) : Option IBox :=
  match l with
  | [] => none
  | b :: t => some (t.foldl IBox.join b)

/-- The bound of a primitive that is not degenerate; a splat's is widened to whole units. -/
def primBound (ptype x : Nat) : Option IBox :=
  if primBad ptype x then none
  else if ptype = 0 then
    let r := fxOf (pw x 3)
    some { lo := (vec3 x 0).map (· - r), hi := (vec3 x 0).map (· + r) }
  else if ptype = 1 then
    let m := splatRot x
    let s := vec3 x 3
    let e := m.1.map fun r => dot (r.map fun v => (v.natAbs : Int)) s
    some { lo := (((vec3 x 0)).zip e).map fun p => (p.1 * m.2 - p.2) / m.2
           hi := (((vec3 x 0)).zip e).map fun p => -((-(p.1 * m.2 + p.2)) / m.2) }
  else joinAll ([0, 3, 6].map fun i => { lo := vec3 x i, hi := vec3 x i })

/-- A stored box: six FP32 words, at or outside the bound by a free number of steps each. A child whose primitives are all
marked degenerate has no bound; its box is an unused child's (DESIGN CHOICE, assumption 78: R155 sizes it from the others). -/
def storedBox (seed j : Nat) (b : Option IBox) : List Nat :=
  match b with
  | none => [0x7F800000, 0x7F800000, 0x7F800000, 0xFF800000, 0xFF800000, 0xFF800000]
  | some b =>
      let out := fun (up : Bool) (k : Nat) (x : Int) =>
        let r := f32Rank (fF32.encode (fF32.round (if up then .ru else .rd) 0 (ofIntExp x (-149))))
        let s : Int := (Config.treeChoice seed (2 ^ 40 + 8 * j + k) % 2 ^ 32 : Nat)
        ofF32Rank (if up then max r (min (r + s) 0x7F7FFFFF) else min r (max (r - s) (-0x7F7FFFFF)))
      ((List.range 3).map fun i => out false i (b.lo.getD i 0)) ++ (List.range 3).map fun i => out true (3 + i) (b.hi.getD i 0)

/-! ### Trees (R153) -/

/-- A used child: the node it refers to, or none for a leaf; and the leaves beneath it, as (first position, count). -/
structure Kid where
  node : Option Nat
  leaves : List (Nat × Nat)
  deriving DecidableEq, Repr

structure TNode where
  parent : Nat
  depth : Nat
  kids : List Kid
  deriving DecidableEq, Repr

/-- A list in a free order. -/
def shuffle {α : Type} (seed : Nat) : Nat → List α → List α
  | 0, l => l
  | n + 1, l =>
      let k := Config.treeChoice seed n % max 1 l.length
      match l[k]? with
      | some a => a :: shuffle seed n (l.eraseIdx k)
      | none => l

/-- Leaves of 1 to `m` consecutive positions from `p` on. -/
def leafRuns (seed m : Nat) : Nat → Nat → Nat → List (Nat × Nat)
  | 0, _, _ => []
  | fuel + 1, p, n =>
      if n = 0 then []
      else
        let c := min n (1 + Config.treeChoice seed (2 ^ 30 + p) % m)
        (p, c) :: leafRuns seed m fuel (p + c) (n - c)

/-- A list in `m` parts, none empty where it has as many elements. -/
def splitParts {α : Type} (seed j : Nat) (deep : Bool) : Nat → List α → List (List α)
  | 0, _ => []
  | 1, l => [l]
  | m + 1, l =>
      let n := if deep then l.length / 2 else 1 + Config.treeChoice seed (2 ^ 31 + 4 * j + m) % (l.length - m)
      l.take n :: splitParts seed j deep m (l.drop n)

/-- A node still to be written: its leaves, parent and depth. -/
structure TJob where
  leaves : List (Nat × Nat)
  parent : Nat
  depth : Nat

/-- Children of a node at index `i` whose inner children take indices from `next` on. -/
def kidsOf (depth i : Nat) : List (List (Nat × Nat)) → Nat → List Kid × List TJob
  | [], _ => ([], [])
  | p :: t, next =>
      if p.length ≤ 1 then
        let r := kidsOf depth i t next
        ({ node := none, leaves := p } :: r.1, r.2)
      else
        let r := kidsOf depth i t (next + 1)
        ({ node := some next, leaves := p } :: r.1, { leaves := p, parent := i, depth := depth + 1 } :: r.2)

/-- The nodes from index `i` on, in order of their indices: a free tree of two to four children per node over leaves, at
most 63 deep. -/
def growTree (seed : Nat) : Nat → Nat → List TJob → List TNode
  | 0, _, _ => []
  | _ + 1, _, [] => []
  | fuel + 1, i, j :: js =>
      let m := j.leaves.length
      let deep := decide (20 ≤ j.depth)
      let parts :=
        if m = 0 then [] else if m = 1 then [j.leaves]
        else splitParts seed i deep (if deep then 2 else min m (2 + Config.treeChoice seed (2 ^ 32 + i) % 3)) j.leaves
      let r := kidsOf j.depth i parts (i + 1 + js.length)
      { parent := j.parent, depth := j.depth, kids := r.1 } :: growTree seed fuel (i + 1) (js ++ r.2)

def treeOf (seed : Nat) (leaves : List (Nat × Nat)) : List TNode :=
  growTree seed (leaves.length + 1) 0 [{ leaves := leaves, parent := 0xFFFFFFFF, depth := 0 }]

/-- The depth of the deepest leaf. -/
def maxDepth (ns : List TNode) : Nat :=
  ns.foldl (fun d n => if n.kids.any fun k => k.node.isNone then max d (n.depth + 1) else d) 0

/-! ### Quality counters (R156) -/

/-- Extents of a stored box or of the meeting of two, in units; none where a bound is infinite. -/
def extents (b : List Nat) : Option (List Int) :=
  if b.all f32Fin then some ((List.range 3).map fun i => max 0 (fxOf (b.getD (3 + i) 0) - fxOf (b.getD i 0)))
  else if b.take 3 == [0x7F800000, 0x7F800000, 0x7F800000] then some [0, 0, 0] else none

def areaOf (e : List Int) : Int :=
  let g := fun i => e.getD i 0
  2 * (g 0 * g 1 + g 1 * g 2 + g 2 * g 0)

/-- The numerically larger, and smaller, of two FP32 words. -/
def f32Max (a b : Nat) : Nat := if f32Rank a < f32Rank b then b else a
def f32Min (a b : Nat) : Nat := if f32Rank a < f32Rank b then a else b

def boxMeet (a b : List Nat) : List Nat :=
  ((List.range 3).map fun i => f32Max (a.getD i 0) (b.getD i 0)) ++ (List.range 3).map fun i => f32Min (a.getD (3 + i) 0) (b.getD (3 + i) 0)

def boxJoin (a b : List Nat) : List Nat :=
  ((List.range 3).map fun i => f32Min (a.getD i 0) (b.getD i 0)) ++ (List.range 3).map fun i => f32Max (a.getD (3 + i) 0) (b.getD (3 + i) 0)

def area (b : List Nat) : Option Int := (extents b).map areaOf

/-- Sum of areas, each times a count. -/
def areaSum (l : List (List Nat × Nat)) : Option Int :=
  l.foldl (fun s b => match s, area b.1 with | some s, some a => some (s + a * b.2) | _, _ => none) (some 0)

/-- An exact quotient rounded once, to FP32 under RNE; 200 fraction bits and a last bit for the rest. The sums stay exact
and only the quotient is rounded (DEDUCED, assumption 79). -/
def ratF32 (n d : Int) : Nat :=
  let p := n * 2 ^ 200
  let y := p.natAbs / d.natAbs
  fF32.encode (fF32.round .rne 0 (.fin (decide (n < 0) != decide (d < 0) && n != 0) (2 * y + (if p.natAbs % d.natAbs = 0 then 0 else 1)) (-201)))

/-- Nodes with their children's stored boxes. -/
abbrev Boxed := List (TNode × List (List Nat))

/-- COST and OVERLAP; free where a stored box is infinite. -/
def quality (seed ninc : Nat) (ns : Boxed) : Nat × Nat :=
  let root := ((ns.head?).map (·.2)).getD []
  let rootBox := match root with | [] => storedBox 0 0 none | b :: t => t.foldl boxJoin b
  let kids := ns.flatMap fun n => n.1.kids.zip n.2
  let inner := (rootBox, 1) :: (kids.filter fun k => k.1.node.isSome).map fun k => (k.2, 1)
  let leaf := (kids.filter fun k => k.1.node.isNone).map fun k => (k.2, (k.1.leaves.map (·.2)).sum)
  let pairs := ns.flatMap fun n =>
    ((List.range n.2.length).flatMap fun i => (List.range i).map fun j => (boxMeet (n.2.getD i []) (n.2.getD j []), 1))
  let free := fun k => Config.treeChoice seed (2 ^ 33 + k) % 2 ^ 32
  match areaSum (inner ++ leaf), areaSum pairs, area rootBox with
  | some c, some o, some a => if a = 0 then (ratF32 (ns.length + ninc) 1, 0) else (ratF32 c a, ratF32 o a)
  | _, _, _ => (free 0, free 1)

/-! ### Generations in the arena (Tables 8.4, 8.5) -/

def hSRCN (x : Nat) : Nat := bits x 480 32
def hNINC (x : Nat) : Nat := bits x 448 32
def hNNODE (x : Nat) : Nat := bits x 416 32
def hCOST (x : Nat) : Nat := bits x 352 32
def hOVERLAP (x : Nat) : Nat := bits x 320 32
def hREFITS (x : Nat) : Nat := bits x 288 32
def hEXCL (x : Nat) : Nat := bits x 256 32
def hPDATA (x : Nat) : Nat := bits x 192 57
def hPLIST (x : Nat) : Nat := bits x 128 57
def hNODES (x : Nat) : Nat := bits x 64 57
def hMAXD (x : Nat) : Nat := bits x 0 6

/-- The generation object's fields besides those it shares with collections (Table 8.6). -/
def gHDR (x : Nat) : Nat := bits x 128 64
def gCAND (x : Nat) : Nat := bits x 192 64

/-- `n` bytes of the arena, undefined once a program has written there (R151), and of the source primitives, at a virtual
address; they may race pending writes (R89). -/
def Work.arenaRead (w : Work) (p : PDesc) (va n : Nat) : Nat :=
  let free := w.spoilt p.arenaPages p.arena (512 * p.acap)
  bytesNat ((List.range n).map fun i =>
    let pa := pageAt p.arenaPages p.arena (va + i)
    if free then Config.spoilt w.d.tick pa else w.engineByte pa)
def Work.primRead (w : Work) (p : PDesc) (i : Nat) : Nat :=
  bytesNat ((List.range (primBytes p.ptype)).map fun k =>
    w.engineByte (pageAt p.primPages p.prim (p.prim + primSize p.ptype * i + k)))

/-- Positions' source indices and copies of a generation. -/
def Work.listAt (w : Work) (p : PDesc) (hdr j : Nat) : Nat := w.arenaRead p (hPLIST hdr + 4 * j) 4
def Work.copyAt (w : Work) (p : PDesc) (hdr j : Nat) : Nat := w.arenaRead p (hPDATA hdr + primSize p.ptype * j) (primSize p.ptype)

/-- Where the granules lie of `n` bytes of the arena, of a source primitive, and of what a command reads: the map, and, as
its kind needs, a generation's header, list, nodes and copies, and the source. -/
def PDesc.arenaKeys (p : PDesc) (va n : Nat) : List Nat := (pageRun p.arenaPages p.arena va n).map (·.1)

/-- What a trace reads of a generation: header, nodes, list and copies. -/
def PDesc.genKeys (p : PDesc) (va hdr : Nat) : List Nat :=
  p.arenaKeys va 64 ++ p.arenaKeys (hNODES hdr) (128 * hNNODE hdr) ++ p.arenaKeys (hPLIST hdr) (4 * hNINC hdr) ++
    p.arenaKeys (hPDATA hdr) (primSize p.ptype * hNINC hdr)

def PDesc.primKeys (p : PDesc) (i : Nat) : List Nat :=
  (pageRun p.primPages p.prim (p.prim + primSize p.ptype * i) (primBytes p.ptype)).map (·.1)

def Work.buildKeys (w : Work) (p : PDesc) (cmd va hdr : Nat) : List Nat :=
  p.arenaKeys p.arena ((p.acap + 7) / 8) ++
    if cmd = 0 then (List.range p.nprim).flatMap p.primKeys
    else
      p.arenaKeys va 64 ++ p.arenaKeys (hNODES hdr) (128 * hNNODE hdr) ++ p.arenaKeys (hPLIST hdr) (4 * hNINC hdr) ++
        if cmd = 1 then (List.range (hNINC hdr)).flatMap fun j => p.primKeys (w.listAt p hdr j)
        else p.arenaKeys (hPDATA hdr) (primSize p.ptype * hNINC hdr)

/-- A generation's nodes as stored. -/
def Work.nodeAt (w : Work) (p : PDesc) (hdr i : Nat) : Nat := w.arenaRead p (hNODES hdr + 128 * i) 128

def nodeRefs (x : Nat) : List Nat := ((List.range 4).map fun i => bits x (8 * 0x60 + 32 * i) 32).filter fun r => r != 0

/-- The leaves beneath a reference. -/
def Work.leavesUnder (w : Work) (p : PDesc) (hdr : Nat) : Nat → Nat → List (Nat × Nat)
  | 0, _ => []
  | fuel + 1, r =>
      if r.testBit 31 then [(bits r 0 27, bits r 27 4)]
      else (nodeRefs (w.nodeAt p hdr (bits r 0 31))).flatMap (w.leavesUnder p hdr fuel)

def Work.readNodes (w : Work) (p : PDesc) (hdr : Nat) : List TNode :=
  (List.range (hNNODE hdr)).map fun i =>
    let x := w.nodeAt p hdr i
    { parent := bits x (8 * 0x70) 32, depth := bits x (8 * 0x74) 8
      kids := (nodeRefs x).map fun r =>
        { node := if r.testBit 31 then none else some (bits r 0 31), leaves := w.leavesUnder p hdr 64 r } }

/-- Words from bit `lo` on. -/
def putWords (lo : Nat) (l : List Nat) : Nat := (((List.range l.length).zip l).map fun q => 2 ^ (lo + 32 * q.1) * q.2).sum

def kidRef (k : Kid) : Nat :=
  match k.node with
  | some i => i
  | none => 2 ^ 31 + (match k.leaves with | (f, c) :: _ => 2 ^ 27 * c + f | [] => 0)

def nodeBits (n : TNode) (boxes : List (List Nat)) : Nat :=
  let none4 := storedBox 0 0 none
  let bs := (List.range 4).flatMap fun i => boxes.getD i none4
  putWords 0 bs + putWords (8 * 0x60) (n.kids.map kidRef) + 2 ^ (8 * 0x70) * n.parent + 2 ^ (8 * 0x74) * n.depth +
    2 ^ (8 * 0x75) * n.kids.length

/-! ### Building (R154, R155) -/

/-- A candidate before it is placed: its nodes, its index list and primitive copy where it has its own, and the header's
numbers. -/
structure Cand where
  nodes : List TNode
  list : Option (List Nat)
  copy : Option (List Nat)
  /-- The copies, by position. -/
  prims : List Nat
  ninc : Nat
  srcn : Nat
  refits : Nat
  excl : Nat
  deriving DecidableEq, Repr

/-- The builder's choice of a candidate, or its code and INFO. -/
def Work.candOf (w : Work) (p : PDesc) (cmd hdr seed : Nat) : Except (Nat × Nat) Cand :=
  if cmd = 0 then
    let src := (List.range p.nprim).map fun i => (i, w.primRead p i)
    let bad := src.filter fun q => primBad p.ptype q.2
    match if p.dgp then none else bad.head? with
    | some q => .error (kPG_DEGEN, q.1)
    | none =>
        let kept := shuffle seed p.nprim (src.filter fun q => !primBad p.ptype q.2)
        .ok { nodes := treeOf seed (leafRuns seed p.leafMax (kept.length + 1) 0 kept.length), list := some (kept.map (·.1))
              copy := some (kept.map (·.2)), prims := kept.map (·.2), ninc := kept.length, srcn := p.nprim, refits := 0
              excl := bad.length }
  else
    let n := hNINC hdr
    let idx := (List.range n).map (w.listAt p hdr)
    let nodes := w.readNodes p hdr
    if cmd = 1 then
      let src := idx.map fun i => (i, w.primRead p i)
      let bad := src.filter fun q => primBad p.ptype q.2
      match if p.dgp then [] else bad with
      | q :: t => .error (kPG_DEGEN, t.foldl (fun m r => min m r.1) q.1)
      | [] =>
          .ok { nodes := nodes, list := none, copy := some (src.map (·.2)), prims := src.map (·.2), ninc := n, srcn := hSRCN hdr
                refits := hREFITS hdr + 1, excl := hSRCN hdr - n + bad.length }
    else
      let leaves := ((nodes.head?).map fun r => r.kids.flatMap Kid.leaves).getD []
      .ok { nodes := treeOf seed (shuffle seed leaves.length leaves), list := none, copy := none
            prims := (List.range n).map (w.copyAt p hdr), ninc := n, srcn := hSRCN hdr, refits := hREFITS hdr, excl := hEXCL hdr }

/-- The stored boxes of every node's children. -/
def boxesOf (ptype seed : Nat) (c : Cand) : Boxed :=
  let bound := fun (k : Kid) => joinAll ((k.leaves.flatMap fun l => (List.range l.2).map fun i => l.1 + i).filterMap fun j =>
    primBound ptype (c.prims.getD j 0))
  ((List.range c.nodes.length).zip c.nodes).map fun q =>
    (q.2, ((List.range q.2.kids.length).zip q.2.kids).map fun k => storedBox seed (4 * q.1 + k.1) (bound k.2))

/-! ### Placing a candidate (R151, R152) -/

/-- The allocation map's blocks. -/
def mapBlocks (acap : Nat) : Nat := (acap + 4095) / 4096

/-- Is a block in use? -/
def Work.blockUsed (w : Work) (p : PDesc) (b : Nat) : Bool :=
  decide (b < mapBlocks p.acap) || (w.arenaRead p (p.arena + b / 8) 1).testBit (b % 8)

def blocksOf (bytes : Nat) : Nat := (bytes + 511) / 512

/-- The most blocks that the parts of a generation need: header, nodes, list, copies (R153). -/
def partMax (ptype nprim : Nat) : List Nat :=
  [1, blocksOf (128 * max 1 (nprim - 1)), blocksOf (4 * nprim), blocksOf (primSize ptype * nprim)]

/-- Where part `i` may go so that parts of other generations never come to lie across its place: as many places of each part's
largest size as the arena holds beside its map. With five, four generations and a candidate always have one each (R153). -/
def partPlaces (acap ptype nprim i : Nat) : List Nat :=
  let m := partMax ptype nprim
  (List.range ((acap - mapBlocks acap) / m.sum)).map fun k => mapBlocks acap + k * m.sum + (m.take i).sum

/-- `n` consecutive blocks of the arena that are free. -/
def runFree (acap : Nat) (used : Nat → Bool) (s n : Nat) : Bool :=
  decide (s + n ≤ acap) && (List.range n).all fun i => !used (s + i)

/-- A free choice among the free places of each part; none where one has none, or is larger than its places. -/
def placeParts (seed acap ptype nprim : Nat) (used : Nat → Bool) : Nat → List Nat → Option (List Nat)
  | _, [] => some []
  | i, n :: t =>
      let here :=
        if n = 0 then some 0
        else if (partMax ptype nprim).getD i 0 < n then none
        else choose (seed + i) ((partPlaces acap ptype nprim i).filter fun s => runFree acap used s n)
      here.bind fun s => (placeParts seed acap ptype nprim used (i + 1) t).map fun l => s :: l

/-- Runs for parts of the given sizes, one after the other, each as low as it goes; nothing is needed for none. -/
def lowRuns (acap : Nat) (used : Nat → Bool) : List Nat → Option (List Nat)
  | [] => some []
  | n :: t =>
      let here := if n = 0 then some 0 else (List.range acap).find? fun s => runFree acap used s n
      here.bind fun s =>
        (lowRuns acap (fun b => used b || (decide (s ≤ b) && decide (b < s + n))) t).map fun l => s :: l

/-- The places of the parts: places of their own where they have them, or packed low, the larger parts first (R153; DESIGN CHOICE,
assumption 107). -/
def placesOf (seed acap ptype nprim : Nat) (used : Nat → Bool) (ns : List Nat) : Option (List Nat) :=
  (placeParts seed acap ptype nprim used 0 ns).orElse fun _ =>
    match ns with
    | [h, n, l, d] => (lowRuns acap used [n, d, l, h]).map fun r => [r.getD 3 0, r.getD 0 0, r.getD 2 0, r.getD 1 0]
    | ns => lowRuns acap used ns

/-- Blocks of an array of a published generation. -/
def PDesc.span (p : PDesc) (va bytes : Nat) : List Nat := (List.range (blocksOf bytes)).map fun i => (va - p.arena) / 512 + i

/-- A run of blocks holding the bits of a number; behind a part's content its last block holds zeros (DESIGN CHOICE,
assumption 80). -/
def runWrites (s n x : Nat) : List (Nat × Nat) := (List.range n).map fun i => (s + i, x / 2 ^ (4096 * i) % 2 ^ 4096)

/-- A placed candidate: the blocks to write, its header's virtual address, and its blocks, its own and shared. -/
structure PlacedCand where
  writes : List (Nat × Nat)
  hdr : Nat
  own : List Nat
  shared : List Nat
  deriving DecidableEq, Repr

def sizedWords (size : Nat) (l : List Nat) : Nat := (((List.range l.length).zip l).map fun q => 2 ^ (8 * size * q.1) * q.2).sum

def Work.placeCand (w : Work) (p : PDesc) (hdr seed : Nat) (c : Cand) : Option PlacedCand :=
  let size := primSize p.ptype
  let nn := blocksOf (128 * c.nodes.length)
  let nl := if c.list.isSome then blocksOf (4 * c.ninc) else 0
  let nc := if c.copy.isSome then blocksOf (size * c.ninc) else 0
  (placesOf seed p.acap p.ptype p.nprim (w.blockUsed p) [1, nn, nl, nc]).map fun at_ =>
    let h := at_.getD 0 0
    let n := at_.getD 1 0
    let l := at_.getD 2 0
    let d := at_.getD 3 0
    let va := fun b => p.arena + 512 * b
    let boxed := boxesOf p.ptype seed c
    let q := quality seed c.ninc boxed
    let own := h :: ((List.range nn).map (n + ·) ++ (List.range nl).map (l + ·) ++ (List.range nc).map (d + ·))
    let shared := (if c.list.isSome then [] else p.span (hPLIST hdr) (4 * c.ninc)) ++
      (if c.copy.isSome then [] else p.span (hPDATA hdr) (size * c.ninc))
    let head := maxDepth c.nodes + 2 ^ 64 * va n + 2 ^ 128 * (if c.list.isSome then va l else hPLIST hdr) +
      2 ^ 192 * (if c.copy.isSome then va d else hPDATA hdr) + 2 ^ 256 * c.excl + 2 ^ 288 * (c.refits % 2 ^ 32) +
      2 ^ 320 * q.2 + 2 ^ 352 * q.1 + 2 ^ 384 * (own.length + shared.length) + 2 ^ 416 * c.nodes.length +
      2 ^ 448 * c.ninc + 2 ^ 480 * c.srcn
    { writes := runWrites n nn (sizedWords 128 (boxed.map fun b => nodeBits b.1 b.2)) ++
        runWrites l nl (sizedWords 4 (c.list.getD [])) ++ runWrites d nc (sizedWords size (c.copy.getD [])) ++ [(h, head)]
      hdr := va h, own := own, shared := shared }

/-! ### The allocation map in memory (R151) -/

/-- Bytes of the map that change when `set` and the map's own blocks are in use and `clear` are not. -/
def Work.mapChanges (w : Work) (p : PDesc) (set clear : List Nat) : List (Nat × Byte) :=
  let set := List.range (mapBlocks p.acap) ++ set
  (((set ++ clear).map (· / 8)).eraseDups).map fun i =>
    let k := pageAt p.arenaPages p.arena (p.arena + i)
    (k, (List.range 8).foldl (fun (x : Byte) b =>
      if set.contains (8 * i + b) then x ||| (1#8 <<< b)
      else if clear.contains (8 * i + b) then x &&& ~~~(1#8 <<< b) else x) (w.physByte k))

def Work.writeMap (w : Work) (l : List (Nat × Byte)) : Work := l.foldl (fun w q => (w.homeWrite q.1 1 q.2.toNat).making true q.1) w

/-- Bytes of the map, and blocks of the arena, on their way there. -/
def mapParts (l : List (Nat × Byte)) : List EPart := l.map fun q => ({ src := [], dst := .key q.1, val := some [q.2] } : EPart)

def PDesc.blockParts (p : PDesc) (q : Nat × Nat) : List EPart :=
  (List.range 32).map fun i =>
    { src := [], dst := .key (pageAt p.arenaPages p.arena (p.arena + 512 * q.1) + 16 * i)
      val := some (natBytes 16 (q.2 / 2 ^ (128 * i))) }

/-- Blocks of a generation that no other of the structure shares. -/
def Die.unshared (e : Die) (gpa : Nat) (g : PGen) : List Nat :=
  g.blocks.filter fun b => !(e.trees.any fun o => o.1.gpa == gpa && o.1 != g && o.1.blocks.contains b)

/-- Pergola status word (Table 15.7). -/
def pgWord (info code : Nat) : Nat := 2 ^ 32 * (info % 2 ^ 32) + code

/-- A generation of the structure is old and not pinned: its blocks come free (R158). -/
def Work.reclaimable (w : Work) (die : Nat) (p : PDesc) (data : Nat) : Bool :=
  (w.d.die die).trees.any fun g =>
    g.1.gpa == p.gpa && match g.1.gen with | some n => decide (n < gGEN data) && gPIN data (n % 4) == 0 | none => false

/-- A command's last step, once all that it wrote has performed: at one gate passage CAND is its candidate, none for want
of one, and BUSY is 0. -/
def Work.endBuild (w : Work) (e : EOp) (p : PDesc) (out : Option (Nat × List Nat) × Nat) : Work :=
  let r := w.gateUpdate p.gpa fun w data =>
    (w, putBits (match out.1 with | some c => putBits data 192 64 c.1 | none => data) 63 1 0)
  if r.1 then
    let w := match out.1 with
      | some c => r.2.updDie (w.genDie p.gpa) fun d =>
          { d with trees := d.trees ++ [(({ gpa := p.gpa, gen := none, blocks := c.2 } : PGen), p)] }
      | none => r.2
    w.endOp e out.2
  else r.2

/-- One try of a claimed command (R154): once the blocks that its claim freed are free in the map, it reads, builds, and
writes its blocks; then it ends. What the arena has no room for waits while an older generation comes free. -/
def Work.buildStep (w : Work) (e : EOp) (cmd : Nat) (p : PDesc) (out : Option (Option (Nat × List Nat) × Nat)) : Work :=
  if !e.parts.isEmpty then w
  else
    match out with
    | some out => w.endBuild e p out
    | none =>
        let old := w.objData p.gpa
        let hdr := if gHDR old = 0 then 0 else w.arenaRead p (gHDR old) 64
        let ks := w.buildKeys p cmd (gHDR old) hdr
        let seed := w.d.free
        let plan := fun (parts : List EPart) (out : Option (Nat × List Nat) × Nat) =>
          (w.updDev fun d => { d with free := d.free + 4 }).updOp e.id fun e =>
            { e with parts := parts, kind := .pgBuild cmd p true (some out) }
        if ks.any fun k => w.deadAt k true then (w.dropOp e).deadEnd e.blk ks
        else if !w.readNow ks then w
        else
          match w.candOf p cmd hdr seed with
          | .error c => plan [] (none, pgWord c.2 c.1)
          | .ok c =>
              match w.placeCand p hdr seed c with
              | none =>
                  if w.reclaimable (w.genDie p.gpa) p old then w else plan [] (none, pgWord 0 kBUILD_NOMEM)
              | some r =>
                  plan (mapParts (w.mapChanges p r.own []) ++ r.writes.flatMap p.blockParts)
                    (some (r.hdr, r.own ++ r.shared), pgWord 0 0)

/-! ### Descriptors (R146, R147) -/

def pDescBad (x : Nat) : Bool :=
  bits x 456 56 != 0 || bits x 450 1 != 0 || bits x 377 7 != 0 || bits x 313 7 != 0 || bits x 249 7 != 0 || bits x 0 192 != 0 ||
    bits x 452 4 == 0 || bits x 448 2 == 3 || decide (134217728 < bits x 384 32) || bits x 416 32 == 0 ||
    bits x 320 57 % 16 != 0 || bits x 256 57 % 512 != 0 || bits x 192 57 % 64 != 0

def pDescOf (x gpa : Nat) : PDesc :=
  { gpa := gpa, ptype := bits x 448 2, leafMax := bits x 452 4, dgp := bits x 451 1 == 1, nprim := bits x 384 32
    acap := bits x 416 32, prim := bits x 320 57, arena := bits x 256 57, arenaPages := [], primPages := [] }

/-- The structure of the descriptor at an address, checked and mapped: the arena by `arena`, the source primitives where
`prims`; `check` is a builder command's test of R147 (none is PG_BADDESC). -/
def Work.structAt (w : Work) (va : Int) (l : Nat) (check : Bool) (arena : Option XKind) (prims : Bool) :
    Except Res (Option PDesc) :=
  match w.place .g va 64 .load l with
  | .error f => .error (.xlate f.cause f.addr)
  | .ok pl =>
      match w.descWaits (placeKey pl) with
      | some r => .error r
      | none =>
          let x := bytesNat (w.engineBytes (placeKey pl) 64)
          if check && pDescBad x then .ok none
          else
            match w.translate w.dieNo (bits x 192 57 / 64 * 64) .ring (!w.blk.priv) with
            | .error c => if check && c == cRING_INELIG then .ok none else .error (.xlate c (bits x 192 57))
            | .ok lf =>
                let p := pDescOf x lf.pa
                match w.rangeOf arena p.arena (512 * p.acap) with
                | .error e => .error (.xlate e.1 e.2)
                | .ok ap =>
                    match w.rangeOf (if prims then some .engR else none) p.prim (primSize p.ptype * p.nprim) with
                    | .error e => .error (.xlate e.1 e.2)
                    | .ok pp => .ok (some { p with arenaPages := ap, primPages := pp })

/-! ### Steps at a passage (R154, R157, R158) -/

/-- The claim of a builder command. The record of an earlier life of the object, which software has made anew, goes
(R151). -/
def Work.claimBuild (w : Work) (slot : Nat) (e : EOp) (cmd : Nat) (p : PDesc) (data : Nat) : Work × Nat :=
  let die := w.genDie p.gpa
  if gBUSY data then (w.endOp e (pgWord 0 kPG_BUSY), data)
  else if cmd ≠ 0 ∧ gHDR data = 0 then (w.endOp e (pgWord 0 kPG_EMPTY), data)
  else if cmd = 1 ∧ (p.arenaKeys (gHDR data) 64).any fun k => w.deadAt k true then
    ((w.dropOp e).deadEnd e.blk (p.arenaKeys (gHDR data) 64), data)
  else if cmd = 1 ∧ p.nprim ≠ hSRCN (w.arenaRead p (gHDR data) 64) then (w.endOp e (pgWord 0 kPG_TOPO), data)
  else
    let w := if gHDR data = 0 ∧ gGEN data = 0 ∧ gCAND data = 0 then w.anew p.arenaPages p.arena (512 * p.acap) else w
    let w := w.updDie die fun d => { d with trees := d.trees.filter fun g => g.1.gpa != p.gpa ||
      match g.1.gen with | some n => gHDR data != 0 && decide (n ≤ gGEN data) | none => gCAND data != 0 }
    let d := w.d.die die
    let freed := match d.trees.find? fun g => g.1.gpa == p.gpa && g.1.gen.isNone with
      | some g => d.unshared p.gpa g.1
      | none => []
    let w := w.updDie die fun d => { d with trees := d.trees.filter fun g => !(g.1.gpa == p.gpa && g.1.gen.isNone) }
    (w.updOp e.id fun e => { e with kind := .pgBuild cmd p true none, parts := mapParts (w.mapChanges p [] freed) },
      putBits (putBits data 63 1 1) 192 64 0)

/-- The publication of a candidate. -/
def Work.publish (w : Work) (slot : Nat) (e : EOp) (p : PDesc) (data : Nat) : Work × Nat :=
  let die := w.genDie p.gpa
  let gen := (gGEN data + 1) % 2 ^ 63
  if gCAND data = 0 then (w.endOp e (pgWord 0 kPG_NOCAND), data)
  else if gPIN data (gen % 4) ≠ 0 then (w.endOp e (pgWord 0 kPG_PINNED), data)
  else
    let w := w.updDie die fun d => { d with trees := d.trees.map fun g =>
      if g.1.gpa = p.gpa ∧ g.1.gen = none then ({ g.1 with gen := some gen }, g.2) else g }
    (w.endOp e (pgWord gen 0), putBits (putBits (putBits data 0 63 gen) 128 64 (gCAND data)) 192 64 0)

/-- The eight words of pg.stat (R297). -/
def statWords (hdr : Nat) : List Word :=
  [hCOST hdr, hOVERLAP hdr, hNINC hdr, hNNODE hdr, hREFITS hdr, hEXCL hdr, hMAXD hdr, 0].map (BitVec.ofNat 32)

/-- Is the header at an address one that a program may read with pg.stat.hdr: of a pinned generation, or of a candidate that no
builder command issued since puts away (R297)? -/
def Work.hdrKnown (w : Work) (pa : Nat) : Bool :=
  w.d.dies.any fun e => e.2.trees.any fun t =>
    let p := t.2
    pageAt p.arenaPages p.arena (p.arena + 512 * t.1.blocks.headD 0) == pa && !w.spoilt p.arenaPages p.arena (512 * p.acap) &&
      match t.1.gen with
      | some n => gPIN (w.objData t.1.gpa) (n % 4) != 0
      | none => !w.d.ops.any fun o => o.waits && match o.kind with | .pgBuild _ q _ _ => q.gpa == t.1.gpa | _ => false

/-- The words of pg.stat.hdr of the header at an address, by lane; undefined for another header (R7, R297). -/
def Work.hdrWords (w : Work) (pa l : Nat) : List Word :=
  if w.hdrKnown pa then statWords (bytesNat (w.engineBytes pa 64))
  else (List.range 8).map fun i => Config.freeWord (w.d.free + 8 * l + i)

def statEmpty : List Word := List.replicate 7 0 ++ [BitVec.ofNat 32 kPG_EMPTY]

/-! ### The instructions (R296, R297) -/

/-- The address operand in the lowest executing lane. -/
def Work.descVa (w : Work) (x : List Nat) (a : Opnd) : Int := ((w.op64 (x.headD 0) a).toNat : Int)

/-- The die whose engine serves a structure (R146). -/
def Work.pgDie (w : Work) (p : PDesc) : Nat := w.engineDie p.gpa

/-- pg.build, pg.refit, pg.rebal. The arena is checked for engine writes (DESIGN CHOICE, assumption 112: R296 names no access kind), and
a command that is to answer PG_BADDESC needs the engine of the issuing die (DESIGN CHOICE, assumption 100). -/
def buildOp (s : State) (h : Hdr) (tk : BitVec 6) (a : Opnd) (cmd : Nat) : Host.Outcome State Fault Refusal :=
  issue s h (a.names 2) [.s tk.toNat] fun w x =>
    match w.structAt (w.descVa x a) (x.headD 0) true (some .engW) (cmd != 2) with
    | .error r => r
    | .ok none =>
        if !(w.ringReady .rlx .die && w.engineReady ePergola) then w.engineWait ePergola
        else .ok (w.enter { w.newOp .pg .plain with tok := some tk.toNat, word := BitVec.ofNat 64 kPG_BADDESC }) []
    | .ok (some p) =>
        if !(w.ringReady .rlx .die && w.engineReadyAt (w.pgDie p) ePergola) then w.engineFails (w.pgDie p) ePergola
        else
          let op : EOp := { w.newOp .pg (.pgBuild cmd p false none) with tok := some tk.toNat, waits := true }
          .ok ((w.enter op).genStep p.gpa op.id false) []

def execPgBuild (h : Hdr) (tk : BitVec 6) (a : Opnd) (s : State) := buildOp s h tk a 0
def execPgRefit (h : Hdr) (tk : BitVec 6) (a : Opnd) (s : State) := buildOp s h tk a 1
def execPgRebal (h : Hdr) (tk : BitVec 6) (a : Opnd) (s : State) := buildOp s h tk a 2

/-- BUILDER_COMMAND (R154). -/
def execBuilderCommand (op : Nat) (s : State) : Host.Outcome State Fault Refusal :=
  device s fun w =>
    match w.op? op with
    | none => w
    | some e =>
        match e.kind with
        | .pgBuild cmd p true out => if e.waits then w.buildStep e cmd p out else w
        | _ => w

/-- pg.publish (R157, R296): a release at .pkg. -/
def execPgPublish (h : Hdr) (tk : BitVec 6) (a : Opnd) (s : State) : Host.Outcome State Fault Refusal :=
  issue s h (a.names 2) [.s tk.toNat] fun w x =>
    match w.structAt (w.descVa x a) (x.headD 0) false (some .engR) false with
    | .error r => r
    | .ok none => .ok w []
    | .ok (some p) =>
        if !(w.ringReady .rel .pkg && w.engineReadyAt (w.pgDie p) ePergola) then w.engineFails (w.pgDie p) ePergola
        else
          let w := w.fenceDone w.slot .pkg
          let op : EOp := { w.newOp .pg (.pgPublish p) with tok := some tk.toNat, waits := true }
          .ok ((w.enter op).genStep p.gpa op.id false) []

/-- pg.stat and pg.stat.hdr (R297). -/
def execPgStat (h : Hdr) (hdr : Bool) (d : Dst) (a : Opnd) (s : State) : Host.Outcome State Fault Refusal :=
  issue s h (a.names 2) (d.names 8) fun w x =>
    if hdr then
      if !w.g.acq.isEmpty then .hold
      else
        match w.place .g (w.descVa x a) 64 .load (x.headD 0) with
        | .error f => .xlate f.cause f.addr
        | .ok pl =>
            match w.descWaits (placeKey pl) with
            | some r => r
            | none =>
                .ok ((w.owe h x d 8 fun l => .ready (w.hdrWords (placeKey pl) l)).updDev fun d => { d with free := d.free + 256 }) []
    else
      match w.structAt (w.descVa x a) (x.headD 0) false (some .engR) false with
      | .error r => r
      | .ok none => .ok w []
      | .ok (some p) =>
          if !(w.ringReady .acq .pkg && w.engineReadyAt (w.pgDie p) ePergola) then w.engineFails (w.pgDie p) ePergola
          else
          let base := w.d.nextId
          let w1 := w.owe h x d 8 fun _ => .pend
          let op := w1.silentOp .pg (.pgStat p (x.filterMap fun l => w1.owedOf base l false x))
          .ok ((w1.enter op).genStep p.gpa op.id true) []

/-- PERGOLA_RECLAIM (R158): the blocks of the `k`-th generation on a die's record are reclaimed, but for those that others
share, once a ring read shows it old and not pinned. -/
def execPergolaReclaim (die k : Nat) (s : State) : Host.Outcome State Fault Refusal :=
  device s fun w =>
    match (w.d.die die).trees[k]? with
    | none => w
    | some (g, p) =>
        match g.gen with
        | none => w
        | some n =>
            let m := w.mapChanges p [] ((w.d.die die).unshared g.gpa g)
            if (m.all fun q => w.leaseFree q.1 && w.gateNow q.1) &&
                !(w.d.ops.any fun e => !e.parts.isEmpty && match e.kind with | .pgBuild _ q true _ => q.gpa == g.gpa | _ => false) then
              (w.gateUpdate g.gpa fun w data =>
                (if n < gGEN data ∧ gPIN data (n % 4) = 0 then
                  (w.updDie die fun d => { d with trees := d.trees.eraseIdx k }).writeMap m else w, data)).2
            else w

end Sys2Proof.Machine
end

