-- ==== Sys2Proof/Machine/Trace.lean ====
section
/-! DEFINITION. trace (R298, R299) and comp (R300 to R302). -/

namespace Sys2Proof.Machine

/-! ### Exact ray parameters

A hit parameter is (a + s·√d) / c with integers, c > 0 and s one of 0, −1, 1. -/

structure Surd where
  a : Int
  s : Int
  d : Int
  c : Int

def sgn (x : Int) : Int := if x < 0 then -1 else if x = 0 then 0 else 1

/-- The sign of a + b·√d. -/
def sgn1 (a b d : Int) : Int :=
  let p := sgn a
  let q := if d = 0 then 0 else sgn b
  if p = q ∨ q = 0 then p
  else if p = 0 then q
  else p * sgn (a * a - b * b * d)

/-- The sign of a + b·√d + c·√e. -/
def sgn2 (a b d c e : Int) : Int :=
  let p := sgn1 a b d
  let q := if e = 0 then 0 else sgn c
  if p = q ∨ q = 0 then p
  else if p = 0 then q
  else p * sgn1 (a * a + b * b * d - c * c * e) (2 * a * b) d

/-- The sign of x − y. -/
def Surd.cmp (x y : Surd) : Int := sgn2 (y.c * x.a - x.c * y.a) (y.c * x.s) x.d (-(x.c * y.s)) y.d

def Surd.lt (x y : Surd) : Bool := x.cmp y == -1

def ratSurd (n d : Int) : Surd := if d < 0 then { a := -n, s := 0, d := 0, c := -d } else { a := n, s := 0, d := 0, c := d }

/-- RoundToFormat(·, FP32, RNE): 200 fraction bits and a last bit for the rest. -/
def Surd.toF32 (x : Surd) : Nat :=
  let r : Int := isqrt x.d.toNat
  let out := fun (y : Int) (rest : Bool) =>
    let m := if 0 ≤ y then y.natAbs else if rest then y.natAbs - 1 else y.natAbs
    fF32.encode (fF32.round .rne 0 (.fin (decide (y < 0)) (2 * m + rest.toNat) (-201)))
  if x.s = 0 ∨ r * r = x.d then
    let n := (x.a + x.s * r) * 2 ^ 200
    out (n / x.c) (n % x.c != 0)
  else
    let q : Int := isqrt (x.d * 2 ^ 400).toNat
    out ((x.a * 2 ^ 200 + (if x.s < 0 then -q - 1 else q)) / x.c) true

/-! ### Rays (R298) -/

def rayVal (r : Ray) (i : Nat) : Nat := r.vals.getD i 0

def rayVoid (r : Ray) : Bool :=
  let v := fun i => fF32.decode (rayVal r i)
  (List.range 8).any (fun i => (v i).isNan) || (List.range 6).any (fun i => !f32Fin (rayVal r i)) ||
    (List.range 3).all (fun i => fxOf (rayVal r (3 + i)) == 0) || (v 7).lt false (v 6)

/-- Does a parameter lie at or above tmin, or at or below tmax, of the FP32 word `b`? -/
def aboveMin (b : Nat) (x : Surd) : Bool :=
  match fF32.decode b with
  | .inf s => s
  | .nan => false
  | .fin _ _ _ => !(x.lt (ratSurd (fxOf b) (2 ^ 149)))
def belowMax (b : Nat) (x : Surd) : Bool :=
  match fF32.decode b with
  | .inf s => !s
  | .nan => false
  | .fin _ _ _ => !((ratSurd (fxOf b) (2 ^ 149)).lt x)

/-! ### Intersections (R299) -/

/-- The least parameter of the range at which a·t² + 2·b·t + c ≤ 0, for a > 0. -/
def quadHit (tmin tmax : Nat) (a b c : Int) : Option Surd :=
  let d := b * b - a * c
  if d < 0 then none
  else
    let t0 : Surd := { a := -b, s := -1, d := d, c := a }
    let t1 : Surd := { a := -b, s := 1, d := d, c := a }
    let t := if aboveMin tmin t0 then some t0
      else if aboveMin tmin t1 && f32Fin tmin then some (ratSurd (fxOf tmin) (2 ^ 149)) else none
    t.bind fun t => if belowMax tmax t then some t else none

/-- The ellipsoid of a splat: local coordinates are linear in t; those of flat extents must be 0. -/
def splatHit (tmin tmax : Nat) (x : Nat) (o d : List Int) : Option Surd :=
  let m := splatRot x
  let s := vec3 x 3
  let cols := colsOf m.1
  let e := cols.map fun c => dot c (vsub o (vec3 x 0))
  let f := cols.map fun c => dot c d
  let g := fun (l : List Int) i => l.getD i 0
  let thick := (List.range 3).filter fun i => g s i != 0
  let flat := (List.range 3).filter fun i => g s i == 0
  let wt := fun i => (thick.map fun j => if j = i then 1 else g s j * g s j).foldl (· * ·) 1
  let a := (thick.map fun i => wt i * g f i * g f i).sum
  let b := (thick.map fun i => wt i * g e i * g f i).sum
  let c := (thick.map fun i => wt i * g e i * g e i).sum - m.2 * m.2 * (thick.map fun j => g s j * g s j).foldl (· * ·) 1
  match flat.find? fun i => g f i != 0 with
  | some i =>
      let n := -g e i
      let q := g f i
      let t := ratSurd n q
      if flat.all (fun j => g e j * q + n * g f j == 0) && decide (a * n * n + 2 * b * n * q + c * q * q ≤ 0) && aboveMin tmin t &&
          belowMax tmax t then some t
      else none
  | none => if flat.all fun j => g e j == 0 then quadHit tmin tmax a b c else none

/-- A triangle: the parameter, and the weights of b and c. -/
def triHit (tmin tmax : Nat) (x : Nat) (o d : List Int) : Option (Surd × Surd × Surd) :=
  let a := vec3 x 0
  let u := vsub (vec3 x 3) a
  let v := vsub (vec3 x 6) a
  let n := cross u v
  let den := dot n d
  if den = 0 then none
  else
    let t := ratSurd (dot n (vsub a o)) den
    let p := vadd (vscale den (vsub o a)) (vscale (dot n (vsub a o)) d)
    let wb := dot n (cross p v)
    let wc := dot n (cross u p)
    let k := den * dot n n
    let rb := ratSurd wb k
    let rc := ratSurd wc k
    let sum := ratSurd (wb + wc) k
    if 0 ≤ rb.a ∧ 0 ≤ rc.a ∧ sum.a ≤ sum.c ∧ aboveMin tmin t ∧ belowMax tmax t then some (t, rb, rc) else none

/-- A hit: parameter, source index, user word, weights. -/
structure Hit where
  t : Surd
  src : Nat
  user : Nat
  wb : Surd
  wc : Surd

/-- The hit of a ray on a primitive copy; a degenerate copy is a marked one (R155). -/
def hitOf (ptype src x : Nat) (r : Ray) : Option Hit :=
  let v := fun i => rayVal r i
  let o := [v 0, v 1, v 2].map fxOf
  let d := [v 3, v 4, v 5].map fxOf
  let zero := ratSurd 0 1
  if primBad ptype x then none
  else if ptype = 0 then
    let m := vsub o (vec3 x 0)
    (quadHit (v 6) (v 7) (dot d d) (dot m d) (dot m m - fxOf (pw x 3) * fxOf (pw x 3))).map fun t =>
      { t := t, src := src, user := 0, wb := zero, wc := zero }
  else if ptype = 1 then
    (splatHit (v 6) (v 7) x o d).map fun t => { t := t, src := src, user := primUser ptype x, wb := zero, wc := zero }
  else if ptype = 2 then
    (triHit (v 6) (v 7) x o d).map fun h => { t := h.1, src := src, user := primUser ptype x, wb := h.2.1, wc := h.2.2 }
  else none

/-- The hit of least parameter, the lower source index on a tie. -/
def bestHit (l : List Hit) : Option Hit :=
  l.foldl (fun b h =>
    match b with
    | none => some h
    | some g => if h.t.lt g.t || (h.t.cmp g.t == 0 && decide (h.src < g.src)) then some h else some g) none

/-- The words that a ray receives. -/
def hitWords (any : Bool) (h : Option Hit) : List Word :=
  match any, h with
  | true, some _ => [0x3F800000]
  | true, none => [0]
  | false, none => [0x7F800000, 0xFFFFFFFF, 0, 0, 0]
  | false, some h =>
      [BitVec.ofNat 32 h.t.toF32, BitVec.ofNat 32 h.src, BitVec.ofNat 32 h.user, BitVec.ofNat 32 h.wb.toF32,
        BitVec.ofNat 32 h.wc.toF32]

/-- A ray against a generation. -/
def Work.castRay (w : Work) (p : PDesc) (hdr : Nat) (any : Bool) (r : Ray) : List Word :=
  if r.helper || rayVoid r || hdr == 0 then hitWords any none
  else
    hitWords any (bestHit ((List.range (hNINC hdr)).filterMap fun j =>
      hitOf p.ptype (w.listAt p hdr j) (w.copyAt p hdr j) r))

/-! ### Steps of Pergola instructions on a generation object -/

/-- The step of operation `k` at its passage. -/
def pergolaHook : GenHook := fun w op k data =>
  let slot := op.slot.getD 0
  match w.op? k with
  | none => (w, data)
  | some e =>
      match e.kind with
      | .pgBuild cmd p false _ => w.claimBuild slot e cmd p data
      | .pgPublish p => w.publish slot e p data
      | .pgStat p owed =>
          if gHDR data ≠ 0 ∧ (p.arenaKeys (gHDR data) 64).any fun k => w.deadAt k true then
            ((w.dropOp e).deadEnd e.blk (p.arenaKeys (gHDR data) 64), data)
          else
          let w := w.updDev fun d => { d with ops := d.ops.filter fun o => o.id != k }
          if gHDR data = 0 then (owed.foldl (fun w o => w.deliver slot (some o) statEmpty) w, data)
          else
            let ws := statWords (w.arenaRead p (gHDR data) 64)
            let w := owed.foldl (fun w o => w.deliver slot (some o) ws) w
            (w.pinOp slot p.gpa (gGEN data % 4) false, gPinUp data (gGEN data % 4))
      | .trace any p rays _ =>
          let empty := gHDR data == 0
          let hdr := if empty then 0 else w.arenaRead p (gHDR data) 64
          if !empty && (p.genKeys (gHDR data) hdr).any fun k => w.deadAt k true then
            ((w.dropOp e).deadEnd e.blk (p.genKeys (gHDR data) hdr), data)
          else
          let w := rays.foldl (fun v r => v.deliver slot r.owed (w.castRay p hdr any r)) w
          let pin := if empty || rays.all Ray.helper then none else some (gGEN data % 4)
          (w.updOp k fun e =>
              { e with waits := false, kind := .trace any p [] pin, word := BitVec.ofNat 64 (if empty then kPG_EMPTY else 0) },
            match pin with | some i => gPinUp data i | none => data)
      | _ => (w, data)

/-- The steps of every instruction on a generation object. -/
def genHook : GenHook := fun w op k data =>
  match (w.op? k).map EOp.cls with
  | some .coll => collHook w op k data
  | some _ => pergolaHook w op k data
  | none => (w, data)

/-- trace (R298): only words of the run; one word under .any. -/
def execTrace (h : Hdr) (any : Bool) (d : Dst) (tk : BitVec 6) (a ray : Opnd) (s : State) : Host.Outcome State Fault Refusal :=
  let c := if any then 1 else 5
  issue s h (a.names 2 ++ ray.names 8) (d.names c ++ [.s tk.toNat]) fun w x =>
    match w.structAt (w.descVa x a) (x.headD 0) false (some .engR) false with
    | .error r => r
    | .ok none => .ok w []
    | .ok (some p) =>
        if !(w.ringReady .acq .pkg && w.engineReadyAt (w.pgDie p) ePergola) then w.engineFails (w.pgDie p) ePergola
        else
          let base := w.d.nextId
          let w1 := w.owe h x d c fun _ => .pend
          let rays := x.map fun l =>
            ({ lane := l, helper := (w.g.thread l).helper, vals := (List.range 8).map fun i => (w.opRun l ray i).toNat
               owed := w1.owedOf base l false x } : Ray)
          let op : EOp := { w1.newOp .pg (.trace any p rays none) with tok := some tk.toNat, waits := true }
          .ok ((w1.enter op).genStep p.gpa op.id true) []

/-- RING_OP_APPLY (R119, R120): slot `slot` passes a stop. -/
def execRingOpApply (die slot stop : Nat) (s : State) : Host.Outcome State Fault Refusal :=
  device s fun w => w.passStop genHook die slot stop

/-- REMOTE_RING_OP (R125). -/
def execRemoteRingOp (die k : Nat) (s : State) : Host.Outcome State Fault Refusal :=
  device s fun w => w.remoteOp genHook die k

/-! ### comp (R300 to R302) -/

/-- Insertion by key, the lower lane first among equal keys. -/
def fragIns (f : Frag) : List Frag → List Frag
  | [] => [f]
  | g :: t => if f.key ≤ g.key then f :: g :: t else g :: fragIns f t

/-- The checks of a target (R300). -/
def targetBad (r : TRec) : Bool := recBad r || rTY r != some .b32 || rCOLS r % 4 != 0

def execComp (h : Hdr) (tr : BitVec 4) (tk : BitVec 6) (x y key colour : Opnd) (s : State) : Host.Outcome State Fault Refusal :=
  issue s h (x.names 1 ++ y.names 1 ++ key.names 1 ++ colour.names 4 ++ tNames tr) [.s tk.toNat] fun w ex =>
    let r := w.g.readT tr.toNat
    if targetBad r then .trap cTREC_BAD 0
    else
      let act := w.notHelper ex
      let at_ := fun l => ((w.op32 l x).toNat, (w.op32 l y).toNat)
      let inside := act.filter fun l => decide ((at_ l).1 < rCOLS r / 4) && decide ((at_ l).2 < rROWS r)
      match collect (inside.map fun l =>
          (w.keysOf .rmw ((rBASE r + (at_ l).2 * rSTRIDE r + 16 * (at_ l).1 : Nat) : Int) 16).map fun ks => (l, ks.headD 0)) with
      | .error f => .xlate f.cause f.addr
      | .ok ps =>
          if !w.engineReady ePergola then w.engineWait ePergola
          else
            let frags := (ps.map fun p =>
              ({ pa := p.2, key := (w.op32 p.1 key).toNat, col := (List.range 4).map fun i => (w.opRun p.1 colour i).toNat } : Frag)).foldr
                fragIns []
            let w := frags.foldl (fun w f => if homeOf w.d f.pa = .die w.dieNo then w else w.dropLine w.coreNo f.pa) w
            .ok (w.enter { w.newOp .gs (.comp frags) with
              tok := some tk.toNat, left := frags.length, word := BitVec.ofNat 64 (2 ^ 32 * (ex.length - inside.length)) }) []

end Sys2Proof.Machine
end

