-- ==== Sys2Proof/Machine/Dispatch.lean ====
section
/-! DEFINITION. The meaning of every instruction and device step: one arm per constructor of Instr. -/

namespace Sys2Proof.Machine

def exec (i : Instr) (s : State) : Host.Outcome State Fault Refusal :=
  match i with
  | .add h o => Sys2Proof.Machine.execAdd h o s
  | .sub h o => Sys2Proof.Machine.execSub h o s
  | .mulLo h o => Sys2Proof.Machine.execMulLo h o s
  | .mulHi h o => Sys2Proof.Machine.execMulHi h o s
  | .mad h o => Sys2Proof.Machine.execMad h o s
  | .min h o => Sys2Proof.Machine.execMin h o s
  | .max h o => Sys2Proof.Machine.execMax h o s
  | .abs h o => Sys2Proof.Machine.execAbs h o s
  | .neg h o => Sys2Proof.Machine.execNeg h o s
  | .and h o => Sys2Proof.Machine.execAnd h o s
  | .or h o => Sys2Proof.Machine.execOr h o s
  | .xor h o => Sys2Proof.Machine.execXor h o s
  | .not h o => Sys2Proof.Machine.execNot h o s
  | .shl h o => Sys2Proof.Machine.execShl h o s
  | .shr h o => Sys2Proof.Machine.execShr h o s
  | .sar h o => Sys2Proof.Machine.execSar h o s
  | .bfx h o => Sys2Proof.Machine.execBfx h o s
  | .bfi h o => Sys2Proof.Machine.execBfi h o s
  | .popc h o => Sys2Proof.Machine.execPopc h o s
  | .clz h o => Sys2Proof.Machine.execClz h o s
  | .ctz h o => Sys2Proof.Machine.execCtz h o s
  | .brev h o => Sys2Proof.Machine.execBrev h o s
  | .sel h o => Sys2Proof.Machine.execSel h o s
  | .cmp h o => Sys2Proof.Machine.execCmp h o s
  | .lea h o => Sys2Proof.Machine.execLea h o s
  | .mov h o => Sys2Proof.Machine.execMov h o s
  | .moviB32 h d w => Sys2Proof.Machine.execMoviB32 h d w s
  | .moviB64 h d w => Sys2Proof.Machine.execMoviB64 h d w s
  | .movs h o => Sys2Proof.Machine.execMovs h o s
  | .xlane h o => Sys2Proof.Machine.execXlane h o s
  | .agree h m pd q => Sys2Proof.Machine.execAgree h m pd q s
  | .pmask h inv d q => Sys2Proof.Machine.execPmask h inv d q s
  | .lane h m d => Sys2Proof.Machine.execLane h m d s
  | .pand h pd a b => Sys2Proof.Machine.execPand h pd a b s
  | .por h pd a b => Sys2Proof.Machine.execPor h pd a b s
  | .pxor h pd a b => Sys2Proof.Machine.execPxor h pd a b s
  | .pnot h pd a => Sys2Proof.Machine.execPnot h pd a s
  | .pmov h pd a => Sys2Proof.Machine.execPmov h pd a s
  | .pmovPk h d => Sys2Proof.Machine.execPmovPk h d s
  | .pmovUpk h a => Sys2Proof.Machine.execPmovUpk h a s
  | .bra h ofs => Sys2Proof.Machine.execBra h ofs s
  | .braInd h a => Sys2Proof.Machine.execBraInd h a s
  | .call h l ofs => Sys2Proof.Machine.execCall h l ofs s
  | .ret h a => Sys2Proof.Machine.execRet h a s
  | .exit h => Sys2Proof.Machine.execExit h s
  | .meetSet h ofs => Sys2Proof.Machine.execMeetSet h ofs s
  | .meetSetXch h l ofs => Sys2Proof.Machine.execMeetSetXch h l ofs s
  | .meetSetFrom h a => Sys2Proof.Machine.execMeetSetFrom h a s
  | .meet h => Sys2Proof.Machine.execMeet h s
  | .meetBrk h => Sys2Proof.Machine.execMeetBrk h s
  | .nap h a => Sys2Proof.Machine.execNap h a s
  | .napExpiry slot lane => Sys2Proof.Machine.execNapExpiry slot lane s
  | .region h v1 n1 v2 n2 => Sys2Proof.Machine.execRegion h v1 n1 v2 n2 s
  | .regionEnd h => Sys2Proof.Machine.execRegionEnd h s
  | .grow h => Sys2Proof.Machine.execGrow h s
  | .growGrant slot => Sys2Proof.Machine.execGrowGrant slot s
  | .growStall core part => Sys2Proof.Machine.execGrowStall core part s
  | .shrink h => Sys2Proof.Machine.execShrink h s
  | .phint h base ext spad => Sys2Proof.Machine.execPhint h base ext spad s
  | .contSet h tok ofs => Sys2Proof.Machine.execContSet h tok ofs s
  | .contSetClr h => Sys2Proof.Machine.execContSetClr h s
  | .contResume h tok => Sys2Proof.Machine.execContResume h tok s
  | .trap h code => Sys2Proof.Machine.execTrap h code s
  | .brkpt h => Sys2Proof.Machine.execBrkpt h s
  | .handlerRecordAppend slot => Sys2Proof.Machine.execHandlerRecordAppend slot s
  | .rdsp h d num => Sys2Proof.Machine.execRdsp h d num s
  | .wrsp h num a => Sys2Proof.Machine.execWrsp h num a s
  | .lead h pd => Sys2Proof.Machine.execLead h pd s
  | .fadd h o => Sys2Proof.Machine.execFadd h o s
  | .fsub h o => Sys2Proof.Machine.execFsub h o s
  | .fmul h o => Sys2Proof.Machine.execFmul h o s
  | .fma h o => Sys2Proof.Machine.execFma h o s
  | .fmin h o => Sys2Proof.Machine.execFmin h o s
  | .fmax h o => Sys2Proof.Machine.execFmax h o s
  | .frcp h o => Sys2Proof.Machine.execFrcp h o s
  | .frsq h o => Sys2Proof.Machine.execFrsq h o s
  | .fsqrt h o => Sys2Proof.Machine.execFsqrt h o s
  | .fexp2 h o => Sys2Proof.Machine.execFexp2 h o s
  | .flog2 h o => Sys2Proof.Machine.execFlog2 h o s
  | .fsin h o => Sys2Proof.Machine.execFsin h o s
  | .fcos h o => Sys2Proof.Machine.execFcos h o s
  | .fcmp h o => Sys2Proof.Machine.execFcmp h o s
  | .fclass h o => Sys2Proof.Machine.execFclass h o s
  | .frnd h o => Sys2Proof.Machine.execFrnd h o s
  | .dot2 h o => Sys2Proof.Machine.execDot2 h o s
  | .pfma h o => Sys2Proof.Machine.execPfma h o s
  | .pfmaCx h o => Sys2Proof.Machine.execPfmaCx h o s
  | .dadd h o => Sys2Proof.Machine.execDadd h o s
  | .dmul h o => Sys2Proof.Machine.execDmul h o s
  | .dfma h o => Sys2Proof.Machine.execDfma h o s
  | .cvt h o => Sys2Proof.Machine.execCvt h o s
  | .pk h o => Sys2Proof.Machine.execPk h o s
  | .upk h o => Sys2Proof.Machine.execUpk h o s
  | .qnt h o => Sys2Proof.Machine.execQnt h o s
  | .dqnt h o => Sys2Proof.Machine.execDqnt h o s
  | .keyx h o => Sys2Proof.Machine.execKeyx h o s
  | .hist h o => Sys2Proof.Machine.execHist h o s
  | .scan h o => Sys2Proof.Machine.execScan h o s
  | .qdx h o => Sys2Proof.Machine.execQdx h o s
  | .qdy h o => Sys2Proof.Machine.execQdy h o s
  | .ld h o => Sys2Proof.Machine.execLd h o s
  | .st h o => Sys2Proof.Machine.execSt h o s
  | .ldv h o => Sys2Proof.Machine.execLdv h o s
  | .pf h o => Sys2Proof.Machine.execPf h o s
  | .atom h op o => Sys2Proof.Machine.execAtom h op o s
  | .atomCas h o => Sys2Proof.Machine.execAtomCas h o s
  | .red h op o => Sys2Proof.Machine.execRed h op o s
  | .fence h scope => Sys2Proof.Machine.execFence h scope s
  | .waitc h cls n => Sys2Proof.Machine.execWaitc h cls n s
  | .waitV h o => Sys2Proof.Machine.execWaitV h o s
  | .waitVReread slot => Sys2Proof.Machine.execWaitVReread slot s
  | .barArrive h scope id => Sys2Proof.Machine.execBarArrive h scope id s
  | .barWait h scope id => Sys2Proof.Machine.execBarWait h scope id s
  | .boInit h a count => Sys2Proof.Machine.execBoInit h a count s
  | .boExpect h a bytes => Sys2Proof.Machine.execBoExpect h a bytes s
  | .boArrive h d a => Sys2Proof.Machine.execBoArrive h d a s
  | .boArriveOnce h d a => Sys2Proof.Machine.execBoArriveOnce h d a s
  | .boArriveExpect h d a bytes => Sys2Proof.Machine.execBoArriveExpect h d a bytes s
  | .boArriveOnceExpect h d a bytes => Sys2Proof.Machine.execBoArriveOnceExpect h d a bytes s
  | .boWait h a phase => Sys2Proof.Machine.execBoWait h a phase s
  | .copyT h o => Sys2Proof.Machine.execCopyT h o s
  | .copyTCb h o => Sys2Proof.Machine.execCopyTCb h o s
  | .copyG h o => Sys2Proof.Machine.execCopyG h o s
  | .copyS h o => Sys2Proof.Machine.execCopyS h o s
  | .cbload h vec tk a n => Sys2Proof.Machine.execCbload h vec tk a n s
  | .cbfree h => Sys2Proof.Machine.execCbfree h s
  | .tload h t shared a disp => Sys2Proof.Machine.execTload h t shared a disp s
  | .tset h t m q a => Sys2Proof.Machine.execTset h t m q a s
  | .jArm h j mask => Sys2Proof.Machine.execJArm h j mask s
  | .mma h o => Sys2Proof.Machine.execMma h o s
  | .smma h o => Sys2Proof.Machine.execSmma h o s
  | .mxLd h acc sp row0 col0 tr => Sys2Proof.Machine.execMxLd h acc sp row0 col0 tr s
  | .mxSt h o => Sys2Proof.Machine.execMxSt h o s
  | .mxZero h acc => Sys2Proof.Machine.execMxZero h acc s
  | .idxWalk h o => Sys2Proof.Machine.execIdxWalk h o s
  | .idxGather h o => Sys2Proof.Machine.execIdxGather h o s
  | .rebal h o => Sys2Proof.Machine.execRebal h o s
  | .collOpen h t tk a => Sys2Proof.Machine.execCollOpen h t tk a s
  | .collIns h d tr key ofs pay => Sys2Proof.Machine.execCollIns h d tr key ofs pay s
  | .collRem h d tr key ofs pay => Sys2Proof.Machine.execCollRem h d tr key ofs pay s
  | .collCommit h tr tk => Sys2Proof.Machine.execCollCommit h tr tk s
  | .commitCollection op => Sys2Proof.Machine.execCommitCollection op s
  | .collIter h t tr lo hi => Sys2Proof.Machine.execCollIter h t tr lo hi s
  | .collNext h d tr => Sys2Proof.Machine.execCollNext h d tr s
  | .collCount h d tr lo hi => Sys2Proof.Machine.execCollCount h d tr lo hi s
  | .collClose h tr => Sys2Proof.Machine.execCollClose h tr s
  | .generationReclaim die k => Sys2Proof.Machine.execGenerationReclaim die k s
  | .ringBoard h a disp => Sys2Proof.Machine.execRingBoard h a disp s
  | .ringAlight h a disp => Sys2Proof.Machine.execRingAlight h a disp s
  | .ringRd h o => Sys2Proof.Machine.execRingRd h o s
  | .ringUp h op o => Sys2Proof.Machine.execRingUp h op o s
  | .ringUpPop h o => Sys2Proof.Machine.execRingUpPop h o s
  | .ringCap h o => Sys2Proof.Machine.execRingCap h o s
  | .ringRet h o => Sys2Proof.Machine.execRingRet h o s
  | .ringRev h d => Sys2Proof.Machine.execRingRev h d s
  | .ringWait h n => Sys2Proof.Machine.execRingWait h n s
  | .ringOpApply die slot stop => Sys2Proof.Machine.execRingOpApply die slot stop s
  | .revolutionCount die stop => Sys2Proof.Machine.execRevolutionCount die stop s
  | .objectBoarding die => Sys2Proof.Machine.execObjectBoarding die s
  | .idleAlight die slot => Sys2Proof.Machine.execIdleAlight die slot s
  | .alightWriteback die slot => Sys2Proof.Machine.execAlightWriteback die slot s
  | .captureTimeout die slot => Sys2Proof.Machine.execCaptureTimeout die slot s
  | .remoteRingOp die k => Sys2Proof.Machine.execRemoteRingOp die k s
  | .pgBuild h tk a => Sys2Proof.Machine.execPgBuild h tk a s
  | .pgRefit h tk a => Sys2Proof.Machine.execPgRefit h tk a s
  | .pgRebal h tk a => Sys2Proof.Machine.execPgRebal h tk a s
  | .builderCommand op => Sys2Proof.Machine.execBuilderCommand op s
  | .pgPublish h tk a => Sys2Proof.Machine.execPgPublish h tk a s
  | .pgStat h hdr d a => Sys2Proof.Machine.execPgStat h hdr d a s
  | .trace h any d tk a ray => Sys2Proof.Machine.execTrace h any d tk a ray s
  | .pergolaReclaim die k => Sys2Proof.Machine.execPergolaReclaim die k s
  | .comp h tr tk x y key colour => Sys2Proof.Machine.execComp h tr tk x y key colour s
  | .tret h a => Sys2Proof.Machine.execTret h a s
  | .rdpriv h d num => Sys2Proof.Machine.execRdpriv h d num s
  | .wrpriv h num a => Sys2Proof.Machine.execWrpriv h num a s
  | .saveGroup h slot handle => Sys2Proof.Machine.execSaveGroup h slot handle s
  | .saveBlock h slot handle => Sys2Proof.Machine.execSaveBlock h slot handle s
  | .restoreGroup h slot handle => Sys2Proof.Machine.execRestoreGroup h slot handle s
  | .restoreBlock h slot handle => Sys2Proof.Machine.execRestoreBlock h slot handle s
  | .halt h => Sys2Proof.Machine.execHalt h s
  | .haltResume slot => Sys2Proof.Machine.execHaltResume slot s
  | .intpendClear h a => Sys2Proof.Machine.execIntpendClear h a s
  | .xlinv h a => Sys2Proof.Machine.execXlinv h a s
  | .ringSnapshot die => Sys2Proof.Machine.execRingSnapshot die s
  | .ringSlotAlight die => Sys2Proof.Machine.execRingSlotAlight die s
  | .ringDrain die => Sys2Proof.Machine.execRingDrain die s
  | .ringDrainEnd die => Sys2Proof.Machine.execRingDrainEnd die s
  | .preemptRequest core => Sys2Proof.Machine.execPreemptRequest core s
  | .preemptWithdraw core => Sys2Proof.Machine.execPreemptWithdraw core s
  | .detach core => Sys2Proof.Machine.execDetach core s
  | .attach core toCore toSlot => Sys2Proof.Machine.execAttach core toCore toSlot s
  | .go core => Sys2Proof.Machine.execGo core s
  | .endBlock core => Sys2Proof.Machine.execEndBlock core s
  | .endLaunch core => Sys2Proof.Machine.execEndLaunch core s
  | .saveDrainComplete block => Sys2Proof.Machine.execSaveDrainComplete block s
  | .signal h a => Sys2Proof.Machine.execSignal h a s
  | .sigtkt h a => Sys2Proof.Machine.execSigtkt h a s
  | .faultSignal slot => Sys2Proof.Machine.execFaultSignal slot s
  | .pageMoveStart die va newPa tier => Sys2Proof.Machine.execPageMoveStart die va newPa tier s
  | .pageMoveEnd k => Sys2Proof.Machine.execPageMoveEnd k s
  | .mixsizeReport core k => Sys2Proof.Machine.execMixsizeReport core k s
  | .queuePop q => Sys2Proof.Machine.execQueuePop q s
  | .blockPlace launch places => Sys2Proof.Machine.execBlockPlace launch places s
  | .staggerExpiry block => Sys2Proof.Machine.execStaggerExpiry block s
  | .blockRetire block => Sys2Proof.Machine.execBlockRetire block s
  | .groupExchange out in_ => Sys2Proof.Machine.execGroupExchange out in_ s
  | .matrixGrant quad k => Sys2Proof.Machine.execMatrixGrant quad k s
  | .indexCommandStart die => Sys2Proof.Machine.execIndexCommandStart die s
  | .resultLand slot k src => Sys2Proof.Machine.execResultLand slot k src s
  | .engineRetire op => Sys2Proof.Machine.execEngineRetire op s
  | .engineWritePerform op k => Sys2Proof.Machine.execEngineWritePerform op k s
  | .storePerform core k => Sys2Proof.Machine.execStorePerform core k s
  | .leaseExpiry core k => Sys2Proof.Machine.execLeaseExpiry core k s
  | .remoteCopyDrop core k => Sys2Proof.Machine.execRemoteCopyDrop core k s
  | .hostAccess pa a => Sys2Proof.Machine.execHostAccess pa a s
  | .doorbell q n => Sys2Proof.Machine.execDoorbell q n s
  | .hostInterrupt cores => Sys2Proof.Machine.execHostInterrupt cores s
  | .hostint h a => Sys2Proof.Machine.execHostint h a s
  | .podRemoteAccess pa a => Sys2Proof.Machine.execPodRemoteAccess pa a s
  | .sendAccept core k => Sys2Proof.Machine.execSendAccept core k s
  | .sendDeliver part rxofs data => Sys2Proof.Machine.execSendDeliver part rxofs data s
  | .partmapWrite h a => Sys2Proof.Machine.execPartmapWrite h a s
  | .ucieModuleTrain m up => Sys2Proof.Machine.execUcieModuleTrain m up s
  | .packageReset => Sys2Proof.Machine.execPackageReset s
  | .firmwareVerification header body settings => Sys2Proof.Machine.execFirmwareVerification header body settings s
  | .functionReady f => Sys2Proof.Machine.execFunctionReady f s
  | .functionFail f => Sys2Proof.Machine.execFunctionFail f s
  | .attaddr h a => Sys2Proof.Machine.execAttaddr h a s
  | .correctedError die kind unit bank => Sys2Proof.Machine.execCorrectedError die kind unit bank s
  | .eccWindowEnd die => Sys2Proof.Machine.execEccWindowEnd die s
  | .eccwinWrite h a => Sys2Proof.Machine.execEccwinWrite h a s
  | .memUncorr block kind pa => Sys2Proof.Machine.execMemUncorr block kind pa s
  | .throttleStep die draw => Sys2Proof.Machine.execThrottleStep die draw s
  | .headroomCrit die draw => Sys2Proof.Machine.execHeadroomCrit die draw s
  | .thermalTrip die temp => Sys2Proof.Machine.execThermalTrip die temp s
  | .thermalRelease die temp => Sys2Proof.Machine.execThermalRelease die temp s
  | .remoteBarrierArrival sys id members arrived exited popped => Sys2Proof.Machine.execRemoteBarrierArrival sys id members arrived exited popped s
  | .scaleUpRouteChange ports scaleOut => Sys2Proof.Machine.execScaleUpRouteChange ports scaleOut s

end Sys2Proof.Machine
end

