-- ==== Sys2Proof/Machine/Schedule.lean ====
section
/-! DEFINITION. The free schedule: who moves next where the state's list of turns is empty (assumption 4). -/

namespace Sys2Proof.Config

/-- The turn taken at tick `n`, or none: then no agent moves and one cycle passes. -/
opaque turn : Nat → Option Machine.Turn

end Sys2Proof.Config
end

