-- ==== Sys2Proof/Machine/Turns.lean ====
section
/-! DEFINITION. One turn of the machine: selecting and fetching an instruction for a group (R14, R175), taking held
faults (R370), looking at a wait again (R34), and device steps. -/

namespace Sys2Proof.Machine

/-! ### Selection (R14) -/

/-- Does lane `a` issue before lane `b`: smaller stamp, then lower PC. -/
def Group.before (g : Group) (a b : Nat) : Bool :=
  let t := g.thread a
  let u := g.thread b
  decide (t.stamp < u.stamp) || (t.stamp == u.stamp && decide (t.pc.toNat < u.pc.toNat))

/-- The lane whose PC the group issues next. -/
def Group.leader (g : Group) : Option Nat :=
  (g.lanesWith Thread.runs).foldl (fun b l =>
    match b with
    | none => some l
    | some k => if g.before l k then some l else some k) none

/-- The issuing threads (R14). -/
def Group.issuers (g : Group) (l : Nat) : List Nat :=
  g.lanesWith fun t => t.runs && t.pc == (g.thread l).pc

/-! ### Fetch (R175) -/

inductive Fetched where
  /-- An instruction of `len` bytes. -/
  | word (w len : Nat)
  /-- A run of pad words ends here. -/
  | pads (pc : Addr)
  /-- R188 step 1: the word at fault. -/
  | illegal (w : Nat)
  | fault (cause : Nat)
  /-- It waits at a home that is not ready, or ends its block: a home of the addresses has failed, or a line is poisoned (R84,
  R361). -/
  | wait
  | dead (ks : List Nat)
  deriving DecidableEq, Repr

/-- The bytes at `pc` (R175, R346). -/
def Work.fetch (w : Work) (die : Nat) (user : Bool) (pc : Addr) : Fetched :=
  let a := pc.toNat
  if a % 4 != 0 then .fault cMISALIGN
  else
    match w.translate die a .fetch user with
    | .error c => if c = cWALKWAIT then .wait else if c = cWALKDEAD then .dead (w.deadWalk die a) else .fault c
    | .ok lf =>
        if w.deadAt lf.pa true then .dead [lf.pa]
        else if !w.gateNow lf.pa then .wait
        else
          let hd := w.homeRead lf.pa 4
          match lenBytes (hd % 4) with
          | none => if hd = 3 then .pads (pc + 4) else .illegal hd
          | some n => if a % 32 + n ≤ 32 then .word (w.homeRead lf.pa n) n else .illegal hd

/-- The frame of a fault found while fetching or decoding. -/
def fetchRec (pc : Addr) (cause addr : Nat) (lanes : List Nat) (word : Nat) : FaultRec :=
  { cause := cause, addr := BitVec.ofNat 57 addr, pc := pc, lanes := maskOf lanes, ver := word / 4 % 4, prec := true,
    data := 0, instr := BitVec.ofNat 128 word, svc := isService cause }

/-! ### Held faults (R370) -/

/-- The orphaned threads that fault next: those at the lowest lane's mma. -/
def Group.orphans (g : Group) : List Nat :=
  match g.lanesWith fun t => t.st == .orphaned with
  | [] => []
  | l :: t => (l :: t).filter fun k => (g.thread k).pc == (g.thread l).pc

/-- The group would issue next: the lane whose PC that is. -/
def Group.nextLane (g : Group) : Option Nat := g.leader.orElse fun _ => g.orphans.head?

/-- A held MIXSIZE report, then orphaned signers, are taken before anything else issues. -/
def Work.heldFault (w : Work) (slot : Nat) (g : Group) : Option Work :=
  match g.hmix, g.nextLane with
  | some h, some l =>
      some ((w.updGrp slot fun g => { g with hmix := none }).takeFault slot ((g.leader.map g.issuers).getD [])
        { cause := cMIXSIZE, addr := h.addr, pc := (g.thread l).pc, lanes := h.lanes, ver := h.instr.toNat / 4 % 4, prec := false,
          data := 0, instr := h.instr, svc := false })
  | _, _ =>
      match g.orphans with
      | [] => none
      | l :: t =>
          let word := ((g.thread l).wait.map Wait.word).getD 0
          let w := w.updGrp slot fun g => (l :: t).foldl (fun g k => g.updThread k fun t =>
            { t with st := .runnable, wait := none }) g
          some (w.takeFault slot (l :: t)
            { cause := cJ_ORPHAN, addr := 0, pc := (g.thread l).pc, lanes := maskOf (l :: t), ver := word / 4 % 4, prec := true,
              data := 0, instr := BitVec.ofNat 128 word, svc := false })

/-- The group has a fault to take before it issues anything. -/
def Group.holds (g : Group) : Bool := (g.hmix.isSome && g.nextLane.isSome) || !g.orphans.isEmpty

/-! ### Turns (R28, R44, R331) -/

/-- May the group in a slot issue at all: active, not stopped, no fault being taken, past its stagger (R28, R330, R345)? -/
def Work.mayIssue (w : Work) (g : Group) : Bool :=
  g.active && g.stop.isNone && g.pendFault.isNone && ((w.blk? g.blk).getD Block.gone).stagger.isNone

/-- It is ready to issue now, or to take a held fault. -/
def Work.ready (w : Work) (g : Group) : Bool :=
  w.mayIssue g && (if g.holds then g.owed.isEmpty else g.leader.isSome)

/-- The rotation of its partition serves the group now: no group of it has issued in this cycle, and of the ready active ones
this has issued least lately (R28, R331). -/
def Work.rotation (w : Work) (slot : Nat) (g : Group) : Bool :=
  sget (w.d.core (slotCore slot)).issued (slot % 4) 0 != w.d.now + 1 &&
    (partSlots (slotCore slot) (slot % 4)).all fun k =>
      match w.grp? k with
      | some o => k == slot || !w.ready o || decide (g.turn < o.turn) || (g.turn == o.turn && decide (slot < k))
      | none => true

/-- In one cycle the groups of a block take B registers by group index (R44). -/
def Work.byIndex (w : Work) (g : Group) : Bool :=
  match w.blk? g.blk with
  | none => true
  | some b =>
      b.bnew != w.d.now + 1 || (b.slots g.blk).all fun k =>
        match w.grp? k with
        | some o => decide (o.gidx ≤ g.gidx) || o.turn != w.d.now + 1
        | none => true

/-- The group has its turn in this cycle. -/
def Work.served (w : Work) (slot : Nat) : Work := w.updGrp slot fun g => { g with turn := w.d.now + 1 }

/-- It issues in this cycle: its partition's issue is used, and the staggers that its block's first issue starts run (R28,
R330). -/
def Work.startIssue (w : Work) (slot blk : Nat) : Work :=
  let w := (w.served slot).updCore (slotCore slot) fun c => { c with issued := sset c.issued (slot % 4) (w.d.now + 1) }
  if w.d.blocks.any fun e => (e.2.stagger.bind (·.1)) == some blk then w.staggersRun blk else w

/-- The group in a slot issues `len` bytes `word` at the PC of lane `l`. -/
def Work.issuing (w : Work) (slot : Nat) (g : Group) (l word len : Nat) : Work :=
  let w := w.startIssue slot g.blk
  { w with d := { w.d with cur :=
      { slot := slot, lanes := g.issuers l, pc := (g.thread l).pc, len := len, word := word, stamped := false } } }

/-- A group's turn to issue: it takes a held fault once what is owed to it has landed, or issues. -/
def groupTurn (s : State) (slot : Nat) : Host.Outcome State Fault Refusal :=
  let w := begin_ s
  match w.grp? slot with
  | none => .next s
  | some g =>
      if w.mayIssue g && g.holds && !g.owed.isEmpty then .next (commit s.mem (w.updGrp slot Group.closeAll))
      else if !(w.ready g && w.rotation slot g && w.byIndex g) then .next s
      else
        match (w.served slot).heldFault slot g with
        | some w' => .next (commit s.mem w')
        | none =>
            match g.leader with
            | none => .next s
            | some l =>
                let pc := (g.thread l).pc
                let lanes := g.issuers l
                let priv := ((w.blk? g.blk).getD Block.gone).priv
                let cur := w.issuing slot g l
                match w.fetch (slotDie slot) (!priv) pc with
                | .pads pc' =>
                    .next (commit s.mem (w.updGrp slot fun g =>
                      (lanes.foldl (fun g l => g.updThread l fun t => { t with pc := pc' }) g).meetings))
                | .wait => .next (commit s.mem (w.served slot))
                | .dead ks => .next (commit s.mem (w.deadEnd g.blk ks))
                | .fault c => .next (commit s.mem ((cur 0 4).raise (fetchRec pc c pc.toNat lanes 0)))
                | .illegal x =>
                    .next (commit s.mem ((cur x 4).raise
                      (fetchRec pc cILLEGAL 0 (g.executing (decHdr x) lanes) x)))
                | .word x len =>
                    match decode priv x with
                    | .ok i => exec i (commit s.mem (cur x len))
                    | .error r =>
                        .next (commit s.mem ((cur x len).raise
                          (fetchRec pc (match r with | .illegal => cILLEGAL | .privileged => cPRIV) 0
                            (g.executing (decHdr x) lanes) x)))

/-- A waiting thread's wait is looked at again: a wait before any effect ends and the instruction issues again; a wait
inside an instruction tries its completion; a fault whose earlier results have landed is taken. -/
def wakeTurn (s : State) (slot lane : Nat) : Host.Outcome State Fault Refusal :=
  let w := begin_ s
  match w.grp? slot with
  | none => .next s
  | some g =>
      let t := g.thread lane
      match t.st, t.wait with
      | .waiting, some wt =>
          let mates := g.waitMates lane
          match wt.why with
          | .hold =>
              .next (commit s.mem (w.updGrp slot fun g =>
                mates.foldl (fun g l => g.updThread l fun t => { t with st := .runnable, wait := none }) g))
          | .cont _ =>
              if g.stop.isSome || g.pendFault.isSome then .next s
              else
                let blk := (w.blk? g.blk).getD Block.gone
                (match decode blk.priv wt.word with
                  | .ok i =>
                      exec i (commit s.mem { w with d := { w.d with cur :=
                        { slot := slot, lanes := mates, pc := t.pc, len := wt.len, word := wt.word, stamped := true } } })
                  | .error _ => .next s)
          | .fault =>
              (match g.pendFault with
                | some f =>
                    if f.cause = cWALKDEAD then
                      .next (commit s.mem (w.deadEnd g.blk (w.deadWalk (slotDie slot) f.addr.toNat)))
                    else if g.owed.isEmpty then .next (commit s.mem (w.takeFault slot mates f)) else .next s
                | none => .next s)
          | .nap _ _ | .grow => .next s
      | _, _ => .next s

/-! ### A function fails (R361) -/

/-- Has a block a group with threads? -/
def Dev.hasLive (d : Dev) (blk : Nat) : Bool := d.groups.any fun e => e.2.blk == blk && !e.2.live.isEmpty

/-- The instruction in which a thread waits is looked at, as a wake does, with what its walk then meets. -/
def lookOnce (s : State) (slot lane : Nat) (g : Group) : Host.Outcome State Fault Refusal :=
  let w := begin_ s
  let mates := g.waitMates lane
  match (g.thread lane).wait with
  | some wt =>
      (match wt.why, decode ((w.blk? g.blk).getD Block.gone).priv wt.word with
        | .hold, .ok i =>
            let w := w.updGrp slot fun g => mates.foldl (fun g l => g.updThread l fun t => { t with st := .runnable, wait := none }) g
            let pc := (g.thread lane).pc
            exec i (commit s.mem { w with d := { w.d with cur :=
              { slot := slot, lanes := mates, pc := pc, len := wt.len, word := wt.word, stamped := false } } })
        | .cont _, _ | .fault, _ => wakeTurn s slot lane
        | _, _ => .next s)
  | none => .next s

/-- The same, kept where it ends the block. -/
def lookAgain (s : State) (slot lane : Nat) : State :=
  match sget? s.d.groups slot with
  | none => s
  | some g =>
      if (g.thread lane).st ≠ .waiting ∨ g.stop.isSome then s
      else
        match lookOnce s slot lane g with
        | .next t =>
            let doomed := ((sget? t.d.groups slot).bind Group.pendFault).any fun f => f.cause == cWALKDEAD
            (match if doomed then wakeTurn t slot lane else .next t with
              | .next u => if u.d.hasLive g.blk || (u.d.core (slotCore g.blk)).intPend.getLsbD 4 == false then s else u
              | _ => s)
        | _ => s

/-- Operations that wait for a function that has failed end their blocks at this instant. -/
def failLooks (s : State) : State :=
  s.d.groups.foldl (fun s e => (List.range 32).foldl (fun s l => lookAgain s e.1 l) s) s

/-- A device step. -/
def deviceTurn (s : State) (i : Instr) : Host.Outcome State Fault Refusal :=
  match i, exec i s with
  | .functionFail _, .next t => .next (failLooks t)
  | _, r => r

/-- Device steps have no encoding. -/
def isDevice (i : Instr) : Bool := (encode i).isNone

/-- One agent moves. -/
def runWho (s : State) : Who → Host.Outcome State Fault Refusal
  | .group slot => groupTurn s slot
  | .wake slot lane => wakeTurn s slot lane
  | .device i => if isDevice i then deviceTurn s i else .next s

/-- The next turn: the first of the list, or the free schedule's (assumption 4). -/
def nextTurn (s : State) : Turn :=
  match s.d.turns with
  | t :: _ => t
  | [] => (Config.turn s.d.tick).getD { dt := 1, who := .group 0 }

/-- The state in which the agent of the next turn moves: time has passed, the turn is used up. -/
def atTurn (s : State) (t : Turn) : State :=
  { s with d := { s.d with now := s.d.now + t.dt, tick := s.d.tick + 1, turns := s.d.turns.tail } }

/-- The state at a passage of a ring slot that comes before the next turn; the turn keeps the rest of its time. -/
def atPassage (s : State) (t : Turn) (c : Nat) : State :=
  let at_ := max s.d.now c
  { s with d := { s.d with now := at_, tick := s.d.tick + 1,
                           turns := { t with dt := s.d.now + t.dt - at_ } :: s.d.turns.tail } }

/-- A pending group has been ready since the cycle in which it became so (R331). -/
def Work.settleGrp (w : Work) (slot : Nat) (g : Group) : Group :=
  { g with since := if g.active || !w.readyGroup slot g then 0 else if g.since = 0 then w.d.now + 1 else g.since }

/-- The state that a step leaves, the times noted since when its pending groups are ready. -/
def settle (s : State) : State :=
  { s with d := { s.d with groups := s.d.groups.map fun e => (e.1, (begin_ s).settleGrp e.1 e.2) } }

def settled (o : Host.Outcome State Fault Refusal) : Host.Outcome State Fault Refusal :=
  match o with
  | .next t => .next (settle t)
  | .fault f => .fault f
  | .refused r => .refused r

/-- One step: the ring slots that pass a stop for which something waits, as time reaches the passage; else the next turn. -/
def oneStep (s : State) : Host.Outcome State Fault Refusal :=
  let t := nextTurn s
  settled (match (begin_ s).nextDue with
    | some (c, i) => if c < s.d.now + t.dt then exec i (atPassage s t c) else runWho (atTurn s t) t.who
    | none => runWho (atTurn s t) t.who)

/-! ### Placing an instruction for the next fetch -/

/-- A privileged block of one group of one thread in slot 0 that issues at 0x40000, with identity mapping of the first
512 MiB on die 0, whose memory is ready and sound, and the 16 bytes of `x` at that address. -/
def placeFetch (s : State) (x : Nat) : State :=
  let blk := { Block.gone with gcnt := 1, vbase := 8, spad := 384, acc := 8, priv := true }
  let t := { Thread.gone with pc := 0x40000, st := .runnable }
  let grp := { Group.gone with thr := [(0, t)], active := true }
  let w : Work := begin_ s
  let w := ((w.store 0x100000 16 (1 + 2 ^ 73 * (0x200000 / 512))).store 0x200000 16 0xFB).store 0x40000 16 x
  commit s.mem
    { w with d := { w.d with groups := [(0, grp)], blocks := [(0, blk)],
                             cores := sset w.d.cores 0 { w.d.core 0 with issued := [] },
                             dies := sset w.d.dies 0 { w.d.die 0 with ptRoot := 0x100000, slots := [] },
                             pkg := { w.d.pkg with rdyPkg := 0xFFFFFF07, failPkg := 0, rdyEng := 0x3F3F3F3F3F3F3F3F, failEng := 0,
                                                   linkStat := 0x7FFFFFF, podId := 0, torn := [], poison := [] },
                             turns := [{ dt := 0, who := .group 0 }] } }

end Sys2Proof.Machine
end

