-- ==== Sys2Proof/Machine/Step.lean ====
section
/-! DEFINITION. The machine's step, and placing an instruction where it fetches next. -/

namespace Sys2Proof.Machine

/-- One step: the next agent moves. -/
def step (s : State) : Host.Outcome State Fault Refusal := oneStep s

/-- The state `s` with an instruction whose bits are `w` placed where the next step fetches (assumption 6). -/
def State.withFetchWord (s : State) (nbits w : Nat) : State := placeFetch s (w % 2 ^ Nat.min nbits 128)

end Sys2Proof.Machine
end

