-- ==== Sys2Proof/Safety.lean ====
section
/-! DEFINITION. The terms in which claims speak of a run: when an encoded instruction issues with its effect, and what it
leaves as it was. -/

namespace Sys2Proof.Machine

/-! ### Reading a state -/

def State.grp (s : State) (k : Nat) : Group := (sget? s.d.groups k).getD Group.gone
def State.blk (s : State) (k : Nat) : Block := (sget? s.d.blocks k).getD Block.gone

/-- The group that issues, and its block. -/
def State.here (s : State) : Group := s.grp s.d.cur.slot
def State.myBlk (s : State) : Block := s.blk s.here.blk

/-- The byte of memory or scratchpad at a key. -/
def State.byte (s : State) (k : Nat) : Byte := mread s.mem k

/-- The value of a 32-bit and of a 64-bit operand in a lane of the issuing group, as a pattern (R181, R190). -/
def State.op32 (s : State) (l : Nat) (o : Opnd) : Word := (begin_ s).op32 l o
def State.op64 (s : State) (l : Nat) (o : Opnd) : DWord := (begin_ s).op64 l o

def State.pc (s : State) (l : Nat) : Addr := (s.here.thread l).pc

/-! ### Answers -/

/-- An instruction completes in a state, and what holds of the next state. -/
def Ends (i : Instr) (s : State) (P : State → Prop) : Prop := ∃ t, exec i s = .next t ∧ P t

end Sys2Proof.Machine

namespace Sys2Proof

/-- The header of an encoded instruction; device steps have none (R174). -/
def Instr.hdr (i : Instr) : Option Hdr :=
  match i with
  | .add h _ | .sub h _ | .mulLo h _ | .mulHi h _ | .mad h _ | .min h _ | .max h _ | .abs h _ | .neg h _ | .and h _
  | .or h _ | .xor h _ | .not h _ | .shl h _ | .shr h _ | .sar h _ | .bfx h _ | .bfi h _ | .popc h _ | .clz h _
  | .ctz h _ | .brev h _ | .sel h _ | .cmp h _ | .lea h _ | .mov h _ | .moviB32 h _ _ | .moviB64 h _ _ | .movs h _
  | .xlane h _ | .agree h _ _ _ | .pmask h _ _ _ | .lane h _ _ | .pand h _ _ _ | .por h _ _ _ | .pxor h _ _ _
  | .pnot h _ _ | .pmov h _ _ | .pmovPk h _ | .pmovUpk h _ | .bra h _ | .braInd h _ | .call h _ _ | .ret h _ | .exit h
  | .meetSet h _ | .meetSetXch h _ _ | .meetSetFrom h _ | .meet h | .meetBrk h | .nap h _ | .region h _ _ _ _
  | .regionEnd h | .grow h | .shrink h | .phint h _ _ _ | .contSet h _ _ | .contSetClr h | .contResume h _ | .trap h _
  | .brkpt h | .rdsp h _ _ | .wrsp h _ _ | .lead h _ | .fadd h _ | .fsub h _ | .fmul h _ | .fma h _ | .fmin h _
  | .fmax h _ | .frcp h _ | .frsq h _ | .fsqrt h _ | .fexp2 h _ | .flog2 h _ | .fsin h _ | .fcos h _ | .fcmp h _
  | .fclass h _ | .frnd h _ | .dot2 h _ | .pfma h _ | .pfmaCx h _ | .dadd h _ | .dmul h _ | .dfma h _ | .cvt h _
  | .pk h _ | .upk h _ | .qnt h _ | .dqnt h _ | .keyx h _ | .hist h _ | .scan h _ | .qdx h _ | .qdy h _ | .ld h _
  | .st h _ | .ldv h _ | .pf h _ | .atom h _ _ | .atomCas h _ | .red h _ _ | .fence h _ | .waitc h _ _ | .waitV h _
  | .barArrive h _ _ | .barWait h _ _ | .boInit h _ _ | .boExpect h _ _ | .boArrive h _ _ | .boArriveOnce h _ _
  | .boArriveExpect h _ _ _ | .boArriveOnceExpect h _ _ _ | .boWait h _ _ | .copyT h _ | .copyTCb h _ | .copyG h _
  | .copyS h _ | .cbload h _ _ _ _ | .cbfree h | .tload h _ _ _ _ | .tset h _ _ _ _ | .jArm h _ _ | .mma h _
  | .smma h _ | .mxLd h _ _ _ _ _ | .mxSt h _ | .mxZero h _ | .idxWalk h _ | .idxGather h _ | .rebal h _
  | .collOpen h _ _ _ | .collIns h _ _ _ _ _ | .collRem h _ _ _ _ _ | .collCommit h _ _ | .collIter h _ _ _ _
  | .collNext h _ _ | .collCount h _ _ _ _ | .collClose h _ | .ringBoard h _ _ | .ringAlight h _ _ | .ringRd h _
  | .ringUp h _ _ | .ringUpPop h _ | .ringCap h _ | .ringRet h _ | .ringRev h _ | .ringWait h _ | .pgBuild h _ _
  | .pgRefit h _ _ | .pgRebal h _ _ | .pgPublish h _ _ | .pgStat h _ _ _ | .trace h _ _ _ _ _ | .comp h _ _ _ _ _ _
  | .tret h _ | .rdpriv h _ _ | .wrpriv h _ _ | .saveGroup h _ _ | .saveBlock h _ _ | .restoreGroup h _ _
  | .restoreBlock h _ _ | .halt h | .intpendClear h _ | .xlinv h _ | .signal h _ | .sigtkt h _ | .hostint h _
  | .partmapWrite h _ | .attaddr h _ | .eccwinWrite h _ => some h
  | _ => none

end Sys2Proof

namespace Sys2Proof.Machine

/-! ### When an instruction issues with its effect (R178, R188 step 7 class 1) -/

/-- The issuing lanes as selection finds them: rising lane numbers of one group. -/
def lanesOk (ls : List Nat) : Bool := decide (ls.Pairwise (· < ·)) && ls.all fun l => decide (l < 32)

/-- The issuing group is resident with its block, nothing that the instruction names is still owed or pending, `x` are the executing
lanes, at least one, and every register named is there. -/
def issues (s : State) (h : Hdr) (src dst : List Named) (x : List Nat) : Bool :=
  (sget? s.d.groups s.d.cur.slot).isSome && (sget? s.d.blocks s.here.blk).isSome && lanesOk s.d.cur.lanes &&
    (s.d.cur.stamped || !s.here.mustWait h.ver1 s.d.cur.lanes (src ++ dst)) &&
    s.here.executing h s.d.cur.lanes == x && !x.isEmpty && regCheck s.here s.myBlk x src dst == 0

/-! ### What stays -/

/-- A thread without what an issue itself keeps account of (R12 to R14), and without its results. -/
def Thread.core (t : Thread) : Thread :=
  { t with pc := 0, m := none, stamp := 0, st := .runnable, wait := none, p := 0, l0 := 0, l1 := 0, l2 := 0, l3 := 0 }

/-- A group without its registers, its threads and the issue's own account (R14, R177). -/
def Group.core (g : Group) : Group := { g with thr := [], v := [], sreg := [], issue := 0, owed := [] }

/-- A block without its B registers and their owners (R44). -/
def Block.core (b : Block) : Block := { b with b := [], bown := [], bnew := 0 }

/-- What is owed, without the windows (R177). -/
def owedOf (g : Group) : List (Nat × List Reg × Payload) := g.owed.map fun e => (e.id, e.dst, e.pay)

/-- Every byte of memory reads as before. -/
def SameMem (s t : State) : Prop := ∀ a, t.byte a = s.byte a

/-- What changes outside memory, registers, predicates and PCs: of the issuing group's other fields only what `G` says, of
its threads' what `T` says, of its block's what `B` says, and `new` results are owed. Every other group and block, every
core, die and partition, and the package are as before. -/
def Else (s t : State) (G : Group → Group) (T : Nat → Thread → Thread) (B : Block → Block)
    (new : List (Nat × List Reg × Payload)) : Prop :=
  { t.d with groups := [], blocks := [], free := 0, nextId := 0 } =
    { s.d with groups := [], blocks := [], free := 0, nextId := 0 } ∧
  (∀ k, k ≠ s.d.cur.slot → sget? t.d.groups k = sget? s.d.groups k) ∧
  (∀ k, k ≠ s.here.blk → sget? t.d.blocks k = sget? s.d.blocks k) ∧
  t.here.core = G s.here.core ∧ owedOf t.here = owedOf s.here ++ new ∧ t.myBlk.core = B s.myBlk.core ∧
  ∀ l, (t.here.thread l).core = T l (s.here.thread l).core

/-- The same, and no byte of memory changes. -/
def Only (s t : State) (G : Group → Group) (T : Nat → Thread → Thread) (B : Block → Block)
    (new : List (Nat × List Reg × Payload)) : Prop := SameMem s t ∧ Else s t G T B new

/-- Nothing changes but registers, predicates and PCs. -/
def OnlyRegs (s t : State) : Prop := Only s t id (fun _ => id) id []

/-- The M of a thread is `m`, or a meeting has released the thread (R13). -/
def MeetsAt (t : State) (m : Nat → Option Addr) : Prop :=
  ∀ l, (t.here.thread l).m = m l ∨ ((t.here.thread l).m = none ∧ (t.here.thread l).st = .runnable)

/-- The issuing threads that have not exited stand at `a`, the others where they were. -/
def Jumps (s t : State) (a : Nat → Addr) : Prop :=
  (∀ l ∈ s.d.cur.lanes, (s.here.thread l).st ≠ .exited → t.pc l = a l) ∧
  ∀ l, l ∉ s.d.cur.lanes → t.pc l = s.pc l

/-- The issuing threads stand behind the instruction, the others where they were; only a meeting has changed an M. -/
def Advances (s t : State) : Prop :=
  Jumps s t (fun _ => s.d.cur.next) ∧ MeetsAt t fun l => (s.here.thread l).m

def SameV (s t : State) : Prop := ∀ l n, t.here.readV l n = s.here.readV l n
def SameS (s t : State) : Prop := ∀ n, t.here.readS n = s.here.readS n
def SameB (s t : State) : Prop := ∀ n, t.myBlk.readB n = s.myBlk.readB n
def SameP (s t : State) : Prop := ∀ l, (t.here.thread l).p = (s.here.thread l).p
def SameL (s t : State) : Prop := ∀ l i, (t.here.thread l).readL i = (s.here.thread l).readL i

/-- The last-result file after the words of a V or Q result (R42). -/
def Pushed (s t : State) (x : List Nat) (ws : Nat → List Word) : Prop :=
  ∀ l i, (t.here.thread l).readL i =
    (if l ∈ x then (ws l).foldl Thread.push (s.here.thread l) else s.here.thread l).readL i

/-- The V registers after a result of one or two words to `n` of every lane of `x`; all others are as before. -/
def WroteV (s t : State) (x : List Nat) (n : Nat) (ws : Nat → List Word) : Prop :=
  (∀ l ∈ x, ∀ i, i < (ws l).length → t.here.readV l (n + i) = (ws l).getD i 0) ∧
  ∀ l m, m < 256 → ¬(l ∈ x ∧ n ≤ m ∧ m < n + (ws l).length) → t.here.readV l m = s.here.readV l m

/-- A result per executing lane is in its destination, as a 32-bit value or a pair (`wide`), pushed into the last-result
file when `push`; every other register, and every predicate, is as before (R190, R191, R42). -/
def Wrote (s t : State) (x : List Nat) (d : Dst) (wide push : Bool) (f : Nat → DWord) : Prop :=
  SameP s t ∧
  match d with
  | .v n => WroteV s t x n.toNat (fun l => splitWords wide (f l)) ∧ SameS s t ∧ SameB s t ∧
      (if push then Pushed s t x fun l => splitWords wide (f l) else SameL s t)
  | .q n => (∀ l ∈ x, ∀ v, (s.here.thread l).qmap n.toNat = some v → (wide = false ∨
        (s.here.thread l).qmap (n.toNat + 1) ≠ some v) → t.here.readV l v = (f l).truncate 32) ∧
      (∀ l ∈ x, ∀ v, wide = true → (s.here.thread l).qmap (n.toNat + 1) = some v →
        t.here.readV l v = (f l >>> 32).truncate 32) ∧
      (∀ l m, m < 256 → (l ∈ x → (s.here.thread l).qmap n.toNat ≠ some m ∧
        (wide = false ∨ (s.here.thread l).qmap (n.toNat + 1) ≠ some m)) → t.here.readV l m = s.here.readV l m) ∧
      SameS s t ∧ SameB s t ∧ (if push then Pushed s t x fun l => splitWords wide (f l) else SameL s t)
  | .s n => SameV s t ∧ SameB s t ∧ SameL s t ∧ t.here.readS n.toNat = f (x.headD 0) ∧
      ∀ m, m ≠ n.toNat → t.here.readS m = s.here.readS m
  | .b n => SameV s t ∧ SameS s t ∧ SameL s t ∧ t.myBlk.readB n.toNat = f (x.headD 0) ∧
      ∀ m, m ≠ n.toNat → t.myBlk.readB m = s.myBlk.readB m
  | .none => SameV s t ∧ SameS s t ∧ SameB s t ∧ SameL s t

/-- An instruction that computes one result per executing lane: it completes, the result is in its destination, and nothing
else has changed. -/
def Computes (i : Instr) (s : State) (x : List Nat) (d : Dst) (wide push : Bool) (f : Nat → DWord) : Prop :=
  Ends i s fun t => OnlyRegs s t ∧ Advances s t ∧ Wrote s t x d wide push f

/-- The V, S and B registers and the last-result file are as before. -/
def SameRegs (s t : State) : Prop := SameV s t ∧ SameS s t ∧ SameB s t ∧ SameL s t

/-- No register and no predicate has changed. -/
def SameAll (s t : State) : Prop := SameRegs s t ∧ SameP s t

/-- Predicate `pd` of every lane of `x` is set by `f`, and no other predicate changes (R46). -/
def WroteP (s t : State) (x : List Nat) (pd : BitVec 4) (f : Nat → Bool) : Prop :=
  ∀ l q, (t.here.thread l).pred q = if l ∈ x ∧ q = pd ∧ pd.toNat ≠ 15 then f l else (s.here.thread l).pred q

/-- An instruction that computes one predicate per executing lane. -/
def Decides (i : Instr) (s : State) (x : List Nat) (pd : BitVec 4) (f : Nat → Bool) : Prop :=
  Ends i s fun t => OnlyRegs s t ∧ Advances s t ∧ SameRegs s t ∧ WroteP s t x pd f

/-- The results that a long-latency instruction comes to owe (R177): for V and Q one per lane, for S and B one, of the
lowest executing lane; each with its registers and what it waits for. -/
def owes (s : State) (x : List Nat) (d : Dst) (c : Nat) (pay : Nat → Payload) : List (Nat × List Reg × Payload) :=
  match d with
  | .none => []
  | .s _ | .b _ => (x.take 1).map fun l => (s.d.nextId, s.here.dstRegs d c l, pay l)
  | .v _ | .q _ => x.zipIdx.map fun p => (s.d.nextId + p.2, s.here.dstRegs d c p.1, pay p.1)

/-- A long-latency instruction that changes nothing at issue but what is owed. -/
def Owes (i : Instr) (s : State) (x : List Nat) (d : Dst) (c : Nat) (pay : Nat → Payload) : Prop :=
  Ends i s fun t => Only s t id (fun _ => id) id (owes s x d c pay) ∧ Advances s t ∧ SameAll s t

/-- An instruction that changes no register: what it does to its threads, its group and its block, and where its threads
stand behind it. -/
def Acts (i : Instr) (s : State) (G : Group → Group) (T : Nat → Thread → Thread) (B : Block → Block) (a : Nat → Addr)
    (m : Nat → Option Addr) : Prop :=
  Ends i s fun t => Only s t G T B [] ∧ Jumps s t a ∧ MeetsAt t m ∧ SameAll s t

end Sys2Proof.Machine
end

