-- ==== Sys2Proof/Certificates/Slice0/Obligations.lean ====
section
/-! DEFINITION. The statements for the provers, from the numbered rules of spec/. -/

namespace Sys2Proof.Machine

/-! ### Terms of the statements -/

/-- An instruction that is well formed and issues with lanes `x` executing. -/
abbrev Runs (i : Instr) (s : State) (h : Hdr) (src dst : List Named) (x : List Nat) : Prop :=
  i.wf = true ∧ issues s h src dst x = true

/-- The bits of an integer operand, as a number (R190). -/
def intBits (s : State) (ty : IntTy) (l : Nat) (o : Opnd) : Nat :=
  (if ty.wide then (s.op64 l o).toNat else (s.op32 l o).toNat) % 2 ^ ty.width

/-- The number an integer operand stands for under the type's signedness (R190). -/
def intVal (s : State) (ty : IntTy) (l : Nat) (o : Opnd) : Int :=
  let p := BitVec.ofNat ty.width (intBits s ty l o)
  if ty.signed then p.toInt else p.toNat

/-- The register contents of an exact integer result (R62, R190): clamped under .sat, else reduced, then extended. -/
def intReg (ty : IntTy) (sat : Bool) (e : Int) : DWord :=
  let lo : Int := if ty.signed then -2 ^ (ty.width - 1) else 0
  let hi : Int := if ty.signed then 2 ^ (ty.width - 1) - 1 else 2 ^ ty.width - 1
  let y := if sat then (if e < lo then lo else if hi < e then hi else e) else e
  if ty.signed then (BitVec.ofInt ty.width y).signExtend 64 else (BitVec.ofInt ty.width y).zeroExtend 64

/-- An integer instruction of `n` sources computes `f` of their numbers. -/
def IntComputes (i : Instr) (s : State) (h : Hdr) (o : IntOp) (n : Nat) (x : List Nat) (f : Int → Int → Int → Int) : Prop :=
  Runs i s h (intSrc o n) (intDst o) x →
    Computes i s x o.d o.ty.wide true fun l =>
      intReg o.ty o.sat (f (intVal s o.ty l o.a) (intVal s o.ty l o.b) (intVal s o.ty l o.c))

/-- An instruction whose result has, in lane `l`, `bit l k` as its bit `k` below the width. -/
def BitsAre (i : Instr) (s : State) (h : Hdr) (src : List Named) (o : IntOp) (x : List Nat)
    (bit : Nat → Nat → Bool) : Prop :=
  Runs i s h src (intDst o) x →
    ∃ v : Nat → Nat, (∀ l k, (v l).testBit k = (decide (k < o.ty.width) && bit l k)) ∧
      Computes i s x o.d o.ty.wide true fun l => intReg o.ty false (v l)

/-- The condition of a comparison of two numbers (R192). -/
def condHolds (c : Cond) (a b : Int) : Bool :=
  match c with
  | .eq => decide (a = b)
  | .ne => decide (a ≠ b)
  | .lt => decide (a < b)
  | .le => decide (a ≤ b)
  | .gt => decide (a > b)
  | .ge => decide (a ≥ b)

/-- A guard or source predicate in a lane. -/
def State.predF (s : State) (l : Nat) (q : PredF) : Bool := (s.here.thread l).predF q

/-- The address `ofs` words behind the instruction (R179). -/
def relAddr (s : State) (ofs : Word) : Addr := BitVec.ofInt 57 (s.d.cur.pc.toNat + 4 * ofs.toInt)

/-- The state after an effect on threads alone, whose executing threads stand at `a` and whose M are `m`. -/
def Moves (i : Instr) (s : State) (x : List Nat) (T : Thread → Thread) (a : Nat → Addr) (m : Nat → Option Addr) : Prop :=
  Acts i s id (fun l => if l ∈ x then T else id) id (fun l => if l ∈ x then a l else s.d.cur.next) m

/-- What a meeting makes of the threads that have then their PCs `a` and their M's `m`, those of `x` runnable (R13): one whose PC
is its M is held, and once every thread with that M that has not exited is held, they are released with M empty. -/
def Meets (s t : State) (x : List Nat) (a : Nat → Addr) (m : Nat → Option Addr) : Prop :=
  let st := fun l => if l ∈ x ∧ (s.here.thread l).st ≠ .exited then TState.runnable else (s.here.thread l).st
  let held := fun l => decide (st l = .held ∨ (st l = .runnable ∧ m l = some (a l)))
  let met := fun l => held l && (List.range 32).all fun k => decide (st k = .exited ∨ m k ≠ m l ∨ held k = true)
  ∀ l < 32, ((t.here.thread l).m = if met l then none else m l) ∧
    (t.here.thread l).st = if met l then .runnable else if held l then .held else st l

/-- The M of every thread as it stands. -/
def State.ms (s : State) (l : Nat) : Option Addr := (s.here.thread l).m

/-- An instruction's words, the first lowest. -/
def words (a b c d : Nat) : Nat := a + 2 ^ 32 * b + 2 ^ 64 * c + 2 ^ 96 * d

/-! #### Floating point -/

/-- The exact value of element `i` of a floating-point operand: the whole container for .f32, a half of it for the packed
types; subnormals flushed under .ftz (R215 to R217). -/
def fpVal (s : State) (ty : FpTy) (ftz : Bool) (l : Nat) (o : Opnd) (i : Nat) : FVal :=
  let p := (begin_ s).fop ty l o
  let v := (fpFmt ty).decode (if ty = .f32 then p else p / 2 ^ (16 * i) % 2 ^ 16)
  if ftz then flush32 v else v

/-- A container of one .f32 element or of two packed ones. -/
def fpPack (ty : FpTy) (e : Nat → Nat) : DWord := BitVec.ofNat 64 (if ty = .f32 then e 0 else e 0 + 2 ^ 16 * e 1)

/-- The draw for element `i` in a lane (R59): zero where the mode is not RS. -/
def drawAt (s : State) (r : Rnd) (n l i : Nat) : Nat :=
  if r = .rs then ((draws (s.here.thread l).seed n).1).getD i 0 else 0

/-- The generators of the executing lanes have moved on by `n` draws under RS, and stay otherwise (R59). -/
def reseed (r : Rnd) (n : Nat) (x : List Nat) (l : Nat) (t : Thread) : Thread :=
  if r = .rs ∧ l ∈ x then { t with seed := (draws t.seed n).2 } else t

/-- An instruction that computes one result per executing lane under a rounding mode, with `n` draws under RS. -/
def Rounds (i : Instr) (s : State) (x : List Nat) (d : Dst) (wide : Bool) (r : Rnd) (n : Nat) (f : Nat → DWord) : Prop :=
  Ends i s fun t => Only s t id (reseed r n x) id [] ∧ Advances s t ∧ Wrote s t x d wide true f

/-- R218 for an instruction of `n` sources: the exact result of each element, rounded once. -/
def FpComputes (i : Instr) (s : State) (h : Hdr) (o : FpOp) (n : Nat) (x : List Nat)
    (f : FVal → FVal → FVal → FVal) : Prop :=
  Runs i s h (fpSrc o n) (o.d.names 1) x →
    let k := if o.ty = .f32 then 1 else 2
    Rounds i s x o.d false o.rnd k fun l => fpPack o.ty fun j =>
      (fpFmt o.ty).out o.rnd o.sat o.ftz (drawAt s o.rnd k l j)
        (f (fpVal s o.ty o.ftz l o.a j) (fpVal s o.ty o.ftz l o.b j) (fpVal s o.ty o.ftz l o.c j))

/-- An instruction of `n` sources that maps each element to a pattern. -/
def FpMaps (i : Instr) (s : State) (h : Hdr) (o : FpOp) (n : Nat) (x : List Nat) (f : Nat → Nat → Nat) : Prop :=
  Runs i s h (fpSrc o n) (o.d.names 1) x →
    Computes i s x o.d false true fun l => fpPack o.ty fun j =>
      let el := fun (c : Opnd) => let p := (begin_ s).fop o.ty l c
        if o.ty = .f32 then p else p / 2 ^ (16 * j) % 2 ^ 16
      f (el o.a) (el o.b)

/-- An FP64 instruction (R226). -/
def DoubleComputes (i : Instr) (s : State) (h : Hdr) (o : FpOp) (n : Nat) (x : List Nat)
    (f : FVal → FVal → FVal → FVal) : Prop :=
  Runs i s h (o.a.names 2 ++ (if 2 ≤ n then o.b.names 2 else []) ++ (if 3 ≤ n then o.c.names 2 else [])) (o.d.names 2) x →
    Computes i s x o.d true true fun l =>
      let v := fun c => fF64.decode ((begin_ s).fop64 l c)
      BitVec.ofNat 64 (fF64.out o.rnd o.sat false 0 (f (v o.a) (v o.b) (v o.c)))

/-- A long-latency function of one source (R223): its result is owed. -/
def FnOwes (i : Instr) (s : State) (h : Hdr) (o : FpOp) (fn : TFn) (x : List Nat) : Prop :=
  Runs i s h (o.a.names 1) (o.d.names 1) x →
    Owes i s x o.d 1 fun l => .ready (readyWords o.d false (fpPack o.ty fun j =>
      let p := (begin_ s).fop o.ty l o.a
      tfn fn (fpFmt o.ty) o.rnd o.sat o.ftz (if o.ty = .f32 then p else p / 2 ^ (16 * j) % 2 ^ 16)))

/-- Element `i` of a packed operand of dot2 and pfma, never flushed (R225). -/
def halfVal (s : State) (ty : FpTy) (l : Nat) (o : Opnd) (i : Nat) : FVal :=
  (fpFmt ty).decode ((begin_ s).fopPair (fpFmt ty) l o / 2 ^ (16 * i) % 2 ^ 16)

/-! #### Groups, traps and registers of the system -/

/-- The group in a slot after a step. -/
def State.slot? (s : State) (k : Nat) : Option Group := sget? s.d.groups k

/-- No object rides whose bytes lie among `n` from `a` on. -/
abbrev NoRide (s : State) (a n : Nat) : Prop := ∀ k < n, s.d.rideOf (a + k) = none

/-- No write on its way to its home meets the byte at a key (R89). -/
abbrev NoRace (s : State) (a : Nat) : Prop := ∀ e ∈ s.d.cores, ∀ q ∈ e.2.path, a < q.pa ∨ q.pa + q.n ≤ a

/-- A trap of the group in a slot: it is stopped, its frame holds the record of Table 22.5 in its first 64 bytes and zeros
behind them (R344: where the area is its die's alone; no object rides in it), no other byte of memory changes, TRAP is pending
on its core, and a handler record is owed when HQ is enabled (R345). -/
def Trapped (s t : State) (slot : Nat) (lanes : List Nat) (f : FaultRec) : Prop :=
  let a := s.d.frameAddr slot
  let c := slotCore slot
  ∃ g, t.slot? slot = some g ∧ g.stop = some .trap ∧ g.active = false ∧ g.stopLanes = lanes ∧
    g.append = (s.grp slot).append ++ (if (s.d.die (slotDie slot)).hq.getLsbD 31 then [(a, f.cause)] else []) ∧
    (NoRide s a 256 → t.d.dies = s.d.dies ∧ (s.d.frameShared a = false →
      (∀ k < 64, (t.byte (a + k)).toNat =
        frameBits f (groupHandle slot) (s.blk (s.grp slot).blk).priv / 256 ^ k % 256) ∧
      ∀ k, 64 ≤ k → k < 256 → t.byte (a + k) = 0)) ∧
    (∀ b, b < a ∨ a + 256 ≤ b → t.byte b = s.byte b) ∧
    (t.d.core c).intPend = (s.d.core c).intPend ||| 2 ∧
    (∀ k, k ≠ c → (t.d.core k).intPend = (s.d.core k).intPend) ∧
    (∀ k, k ≠ slot → t.slot? k = s.slot? k) ∧ (∀ k, sget? t.d.blocks k = sget? s.d.blocks k) ∧ t.d.parts = s.d.parts ∧
    (∀ l, g.readV l = (s.grp slot).readV l) ∧ g.sreg = (s.grp slot).sreg

/-- The record of a trap of the issuing instruction. -/
def faultOf (s : State) (cause : Nat) (x : List Nat) (pc : Addr) (prec : Bool) : FaultRec :=
  { cause := cause, addr := 0, pc := pc, lanes := maskOf x, ver := s.d.cur.word / 4 % 4, prec := prec, data := 0,
    instr := BitVec.ofNat 128 s.d.cur.word, svc := false }

/-- The issuing group is resident with its block, nothing that the instruction names is still owed or pending, and `x` are the
executing lanes, at least one; the registers named may not be there. -/
def Stands (s : State) (h : Hdr) (src dst : List Named) (x : List Nat) : Prop :=
  (sget? s.d.groups s.d.cur.slot).isSome = true ∧ (sget? s.d.blocks s.here.blk).isSome = true ∧ s.d.cur.stamped = false ∧
    s.here.mustWait h.ver1 s.d.cur.lanes (src ++ dst) = false ∧ s.here.executing h s.d.cur.lanes = x ∧ x ≠ []

/-- An instruction names a register that it may not, with the cause (R38, R41, R44, R63, R188): a V register that the launch has not, or
one of an extended set that is not held; an unmapped Q register; an accumulator that the block has not; a B register of another
group as a destination. -/
def Misnames (s : State) (x : List Nat) (src dst : List Named) (c : Nat) : Prop :=
  let ns := src ++ dst
  let range := ∃ n < 64, 8 * s.myBlk.vbase ≤ n ∧ Named.v n ∈ ns
  let ext := s.here.extH = false ∧ ∃ n, 64 ≤ n ∧ Named.v n ∈ ns
  let none_ := (∃ q, Named.q q ∈ ns ∧ ∃ l ∈ x, (s.here.thread l).qmap q = none) ∨ ∃ k, Named.a k ∈ ns ∧ s.myBlk.acc ≤ k
  (c = cREG_RANGE ∧ range) ∨ (¬range ∧ c = cEXT_NOTHELD ∧ ext) ∨ (¬range ∧ ¬ext ∧ c = cREG_RANGE ∧ none_) ∨
    (¬range ∧ ¬ext ∧ ¬none_ ∧ c = cBREG_OWNED ∧ ∃ k o, Named.b k ∈ dst ∧ sget? s.myBlk.bown k = some o ∧ o ≠ s.here.gidx)

/-- The bits of a privileged register that a write of it keeps (Tables 21.1, 21.3, 21.5, 22.1, 23.4, 24.1, 24.7). -/
def privMask (num : Nat) : Option Nat :=
  match num with
  | 0x41 => some (2 ^ 57 - 2 ^ 12) | 0x42 => some 0xFFFF0001 | 0x43 => some 1 | 0x45 => some (2 ^ 33 - 1)
  | 0x46 => some 0xFFFF | 0x48 => some 0xFFFFFFFF | 0x49 => some 0x3FF | 0x80 => some (2 ^ 57 - 2 ^ 20)
  | 0x81 => some (2 ^ 64 - 2 ^ 22) | 0x83 => some (2 ^ 64 - 2 ^ 6) | 0x84 => some 0x80003FFF | 0x86 => some (2 ^ 64 - 1)
  | 0x8A => some (2 ^ 57 - 2 ^ 21) | 0x103 => some 0x7FFF7FFF | 0x106 => some (2 ^ 43 - 2 ^ 16) | 0x107 => some (2 ^ 64 - 1)
  | 0x184 => some (2 ^ 57 - 2 ^ 6 + 1) | 0x185 => some 0x7FF | 0x191 => some 0xFFFF | 0x192 => some 0xFF80003F
  | 0x19A => some 0xFFFF
  | _ => none

/-- Registers whose reading follows from the written one (R328, R366, Table 21.6). -/
def privDepends (num : Nat) : List Nat :=
  if num = 0x45 ∨ num = 0x198 ∨ num = 0x19A then [0x44, 0x47] else if num = 0x192 then [0x193] else []

/-- An operand of a privileged write. -/
def privVal (s : State) (num l : Nat) (a : Opnd) : DWord :=
  if regWide num then s.op64 l a else (s.op32 l a).zeroExtend 64

/-- What a write of one privileged register by the issuing core leaves: the register reads `v`, every other privileged
register of the core, its die, partition and package as before, and so do memory, registers and every other group, block,
die and core. -/
def WrotePriv (s t : State) (num : Nat) (v : DWord) : Prop :=
  (begin_ t).privReg num = v ∧
  (∀ k, k ≠ num → k ∉ privDepends num → (begin_ t).privReg k = (begin_ s).privReg k) ∧
  SameMem s t ∧ SameAll s t ∧ Advances s t ∧ (∀ k, k ≠ s.d.cur.slot → t.slot? k = s.slot? k) ∧
  (∀ k, k ≠ slotDie s.d.cur.slot → t.d.die k = s.d.die k)

/-- The user special registers (Table 2.4). -/
def userVal (s : State) (l num : Nat) : DWord :=
  let g := s.here
  let t := g.thread l
  match num with
  | 0x00 => BitVec.ofNat 64 l                        -- LANE
  | 0x01 => BitVec.ofNat 64 g.gidx                   -- GIDX
  | 0x02 => BitVec.ofNat 64 s.myBlk.gcnt             -- GCNT
  | 0x03 => BitVec.ofNat 64 s.myBlk.gridx            -- GRIDX
  | 0x04 => BitVec.ofNat 64 s.myBlk.gridy            -- GRIDY
  | 0x05 => if t.helper then 1 else 0                -- HELPER
  | 0x06 => BitVec.ofNat 64 (8 * s.myBlk.vbase)      -- VBASE
  | 0x07 => if g.extH then 1 else 0                  -- EXT
  | 0x08 => t.seed                                   -- SRSEED
  | 0x09 => BitVec.ofNat 64 g.horizon                -- HORIZON
  | 0x0A => BitVec.ofNat 64 s.d.now                  -- CYCLE
  | 0x0B => if g.cv then g.contPc.zeroExtend 64 else 0
  | 0x0C => t.pixx.zeroExtend 64
  | _ => t.pixy.zeroExtend 64

/-! #### Memory -/

/-- No earlier strong access to the sector meets `n` bytes at an address in another size, but one that comes before an access of
`who` at scope `sc` with the clock `c`, or that leaves one of the two agents outside a scope (R88, R99, R103). -/
abbrev Sizes (s : State) (a n : Nat) (who : Agent) (sc : Scope) (c : Clock) : Prop :=
  ∀ r ∈ sget s.d.pkg.mix (sectorOf a) [], r.n = n ∨ overlap a n r.pa r.n = false ∨ r.before c = true ∨
    related r.scope r.who sc who = false

/-- No copy has still to read any of `n` bytes of scratchpad from a key on (R263). -/
abbrev Unread (s : State) (a n : Nat) : Prop :=
  ∀ e ∈ s.d.ops, e.cls = .copy → ∀ p ∈ e.parts, ∀ k, BSrc.key k ∈ p.src → k < a ∨ a + n ≤ k

/-- A state with the records of order of another: which strong accesses there have been, and which releases can be read. -/
def State.ordered (s t : State) : State :=
  { s with d := { s.d with pkg := { s.d.pkg with mix := t.d.pkg.mix, msgs := t.d.pkg.msgs } } }

/-- What an issuing instruction keeps beside its core's write path and L1 and what it counts: every other group and block, the
dies, partitions and launches, all registers and predicates; its threads go on behind it. -/
def Kept (s t : State) : Prop :=
  (∀ k, k ≠ s.d.cur.slot → t.slot? k = s.slot? k) ∧
  (∀ k, k ≠ s.here.blk → sget? t.d.blocks k = sget? s.d.blocks k) ∧ t.myBlk.core = s.myBlk.core ∧
  t.d.dies = s.d.dies ∧ t.d.parts = s.d.parts ∧ t.d.launches = s.d.launches ∧ SameAll s t ∧ Advances s t

/-- The effective address of a lane (R237). -/
def memEa (s : State) (o : MemOp) (useOff : Bool) (l : Nat) : Int :=
  let off : Nat := if useOff then (s.op32 l o.off).toNat else 0
  if o.space = .s then ((s.op32 l o.base).toNat : Int) + off + o.disp.toInt
  else (((s.op64 l o.base).toNat : Int) + off + o.disp.toInt) % 2 ^ 64

/-- The checks of R72 for a scratchpad access of a lane, and where it falls (R80). -/
abbrev SpadOk (s : State) (o : MemOp) (useOff : Bool) (l : Nat) : Prop :=
  o.space = .s ∧ memEa s o useOff l % o.ty.bytes = 0 ∧ 0 ≤ memEa s o useOff l ∧
    memEa s o useOff l + o.ty.bytes ≤ 1024 * s.myBlk.spad

def spadAt (s : State) (o : MemOp) (useOff : Bool) (l : Nat) : Nat := spadKey s.here.blk (memEa s o useOff l).toNat

/-- The checks of R72 for a global or constant access of a lane, and the page it falls in. -/
abbrev GlobOk (s : State) (o : MemOp) (useOff : Bool) (kind : XKind) (l : Nat) (lf : Leaf) : Prop :=
  (o.space = .g ∨ o.space = .c) ∧ memEa s o useOff l % o.ty.bytes = 0 ∧ memEa s o useOff l < 2 ^ 57 ∧
    (begin_ s).translate (slotDie s.d.cur.slot) (memEa s o useOff l).toNat kind (!s.myBlk.priv) = .ok lf

/-- The virtual address of byte `o` of a lane's local space: its group's window, where the lanes' 4-byte words take turns (R341). -/
def localAt (s : State) (l o : Nat) : Nat :=
  let start := (s.d.die (slotDie s.d.cur.slot)).locBase.toNat % 2 ^ 57 / 2 ^ 21 * 2 ^ 21 + 2 ^ 21 * (s.d.cur.slot % 8192)
  (start + (o / 4 * 32 + l) * 4 + o % 4) % 2 ^ 57

/-- The checks of R72 for a local access of a lane, and the pages of its 4-byte words (R341). -/
abbrev LocOk (s : State) (o : MemOp) (kind : XKind) (l : Nat) (ws : List Leaf) : Prop :=
  o.space = .l ∧ memEa s o true l % o.ty.bytes = 0 ∧ memEa s o true l + o.ty.bytes ≤ 1024 * s.myBlk.localKb ∧
    ws.length = (o.ty.bytes + 3) / 4 ∧ ∀ i lf, ws[i]? = some lf →
      (begin_ s).translate (slotDie s.d.cur.slot) (localAt s l ((memEa s o true l).toNat + 4 * i)) kind true = .ok lf

/-- The checks of R72 that a lane's access fails before its translation: its cause (R188). -/
abbrev FailsAs (s : State) (o : MemOp) (useOff : Bool) (l c : Nat) : Prop :=
  let ea := memEa s o useOff l
  (c = cMISALIGN ∧ ea % o.ty.bytes ≠ 0) ∨
    (ea % o.ty.bytes = 0 ∧
      ((c = cADDR_RANGE ∧ (o.space = .g ∨ o.space = .c) ∧ 2 ^ 57 ≤ ea) ∨
       (c = cSPAD_RANGE ∧ o.space = .s ∧ (ea < 0 ∨ 1024 * s.myBlk.spad < ea + o.ty.bytes)) ∨
       (c = cLOCAL_RANGE ∧ o.space = .l ∧ 1024 * s.myBlk.localKb < ea + o.ty.bytes)))

/-- The lanes that are no helpers (R237). -/
def realLanes (s : State) (x : List Nat) : List Nat := x.filter fun l => !(s.here.thread l).helper

/-- A source of a lane, as a number of the access's size (R239); an atomic reads it by its type (R181). -/
def memData (s : State) (o : MemOp) (l : Nat) : Nat := (begin_ s).opBytes l o.data o.ty.bytes
def atomData (s : State) (o : MemOp) (l : Nat) : Nat := (begin_ s).opTyped l o.data o.ty

/-- Is a loaded value extended by its sign (R239)? -/
def memSigned (o : MemOp) : Bool := o.ty == .i8 || o.ty == .i16 || o.ty == .i32

/-- What a load comes to owe (R240): its results, and where an S or B register takes the lowest lane's, the other lanes'
accesses, which write none. -/
def owesAll (s : State) (x : List Nat) (d : Dst) (c : Nat) (pay : Nat → Payload) : List (Nat × List Reg × Payload) :=
  owes s x d c pay ++ (if Dst.isWide d then x.tail.zipIdx.map fun p => (s.d.nextId + 1 + p.2, [], pay p.1) else [])

/-- What a group keeps but for what its last synchronisation follows; and but for its acquires under way and its acknowledgements. -/
def Group.unsynced (g : Group) : Group := { g.core with sync := 0, ep := 0, vc := [] }
def Group.still (g : Group) : Group := { g.unsynced with acq := [], acks := 0 }

/-- A strong access of the issuing group to a lane's scratchpad bytes leaves them defined (R88). -/
abbrev SpadSizes (s : State) (o : MemOp) (useOff : Bool) (l : Nat) : Prop :=
  Sizes s (spadAt s o useOff l) o.ty.bytes ((begin_ s).agentOf s.d.cur.slot) o.scope s.here.vc

/-- A lane's scratchpad bytes hold no part of a barrier object in use (R256). -/
abbrev SpadFree (s : State) (o : MemOp) (useOff : Bool) (l : Nat) : Prop :=
  ∀ b ∈ (begin_ s).busyObjs s.here.blk, overlap b 16 (memEa s o useOff l).toNat o.ty.bytes = false

/-- Ranges of `n` bytes at the keys of different lanes do not meet. -/
abbrev Apart (y : List Nat) (key : Nat → Nat) (n : Nat) : Prop :=
  ∀ k ∈ y, ∀ l ∈ y, k ≠ l → key k + n ≤ key l ∨ key l + n ≤ key k

/-- The deferred load of a lane (R86, R239). -/
def loadP (s : State) (o : MemOp) (ldv : Bool) (x : List Nat) (l : Nat) (lf : Leaf) : LoadP :=
  { lane := l, va := BitVec.ofNat 57 (memEa s o true l).toNat, pa := lf.pa, n := o.ty.bytes, loc := false, more := [],
    ro := !lf.wr, ext := if memSigned o then .sign else .zero, cst := decide (o.space = .c), cached := !ldv,
    strong := o.strong, acq := decide (o.ord = .acq), scope := o.scope, lease := lf.lease,
    wide := match o.d with | .s _ | .b _ => true | _ => false, instr := BitVec.ofNat 128 s.d.cur.word, lanes := maskOf x,
    iss := ((begin_ s).openSync (o.ord = .acq)).stamp false, passed := none }

/-- The words of a loaded value in its registers (R239). -/
def loadWords (d : Dst) (n : Nat) (sign : Bool) (x : Nat) : List Word :=
  let e : Nat := if sign ∧ n < 8 ∧ 2 ^ (8 * n - 1) ≤ x then x + (2 ^ 64 - 2 ^ (8 * n)) else x
  match d with
  | .s _ | .b _ => [BitVec.ofNat 32 e, BitVec.ofNat 32 (e / 2 ^ 32)]
  | _ => (List.range (max 1 (n / 4))).map fun i => BitVec.ofNat 32 (e / 2 ^ (32 * i))

/-- What a lane's load comes to owe: the scratchpad's value at issue (R80), a deferred load of a global or local place (R86, R341),
or zero for a helper lane whose access fails (R30). -/
def LoadGives (s : State) (o : MemOp) (ldv : Bool) (x : List Nat) (l : Nat) (p : Payload) : Prop :=
  (SpadOk s o true l ∧
    p = .ready (loadWords o.d o.ty.bytes (memSigned o) ((begin_ s).load (spadAt s o true l) o.ty.bytes))) ∨
  (∃ lf, GlobOk s o true .load l lf ∧ p = .load (loadP s o ldv x l lf)) ∨
  (∃ lf ws, LocOk s o .load l (lf :: ws) ∧ p = .load { loadP s o ldv x l lf with
    va := BitVec.ofNat 57 (localAt s l (memEa s o true l).toNat), loc := true, more := ws.map Leaf.pa }) ∨
  ((s.here.thread l).helper = true ∧ (¬ SpadOk s o true l) ∧ (∀ lf, ¬ GlobOk s o true .load l lf) ∧
    (∀ ws, ¬ LocOk s o .load l ws) ∧ p = .ready (loadWords o.d o.ty.bytes false 0))

/-- What the statements say of a write-path entry: slot, lane, address, size, data, kind, strength. -/
def WEntry.what (e : WEntry) : Nat × Nat × Nat × Nat × Nat × WKind × Bool :=
  (e.slot, e.lane, e.pa, e.n, e.data, e.kind, e.strong)

/-- The entries of a core's write path. -/
def State.path (s : State) (c : Nat) : List WEntry := (s.d.core c).path

/-- The writes of a lane's store: address, size and data; a local one is a write per 4-byte word (R98, R341). -/
def StoreParts (s : State) (o : MemOp) (l : Nat) (ps : List (Nat × Nat × Nat)) : Prop :=
  let n := min o.ty.bytes 4
  (∃ lf, GlobOk s o true .store l lf ∧ ps = [(lf.pa, o.ty.bytes, memData s o l)]) ∨
    ∃ ws, LocOk s o .store l ws ∧ ps = ws.zipIdx.map fun w => (w.1.pa, n, memData s o l / 2 ^ (32 * w.2) % 256 ^ n)

/-- A write to scale-out space as a send: the system, the offset and the bytes (R358). -/
def sendOf (s : State) (p : Nat × Nat × Nat) : Option (Nat × Nat × List Byte) :=
  match homeOf s.d p.1 with
  | .out sys ofs => some (sys, ofs, (List.range p.2.1).map fun i => BitVec.ofNat 8 (p.2.2 / 256 ^ i))
  | _ => none

/-! #### Synchronisation -/

/-- The waits of a fence at a scope are over (R100, Table 5.2): the group's loads have performed and none of its ring
operations is under way; at .quad and wider its stores and atomics have performed, and the revolution in HORIZON is over at
the core's stop. A fence waits for no local access (R74). -/
abbrev FenceMet (s : State) (sc : Scope) : Prop :=
  (∀ e ∈ s.here.owed, ∀ p, e.pay = .load p → p.loc = true) ∧ (∀ d ∈ s.d.dies, ∀ o ∈ d.2.ringQ, o.slot ≠ some s.d.cur.slot) ∧
    s.here.acq = [] ∧
    (sc ≠ .grp → sc ≠ .blk →
      (∀ e ∈ s.path (slotCore s.d.cur.slot), e.slot = s.d.cur.slot → e.loc = true ∨ ∃ op id, e.kind = .red op id) ∧
        s.here.acks = (begin_ s).localAcks s.d.cur.slot ∧
        s.here.horizon + 1 ≤ coreCount s.d.now (slotCore s.d.cur.slot))

/-- Memory, registers, results and write paths are as before; the threads go on behind the instruction. -/
def Synced (s t : State) : Prop :=
  SameMem s t ∧ Kept s t ∧ owedOf t.here = owedOf s.here ∧ ∀ c, t.path c = s.path c

/-- The executing lanes wait in the instruction, with nothing done. -/
def Waits (i : Instr) (s : State) (x : List Nat) : Prop :=
  Ends i s fun t => SameMem s t ∧ SameAll s t ∧
    ∀ l ∈ x, (s.here.thread l).st ≠ .exited → (t.here.thread l).st = .waiting ∧ t.pc l = s.pc l

/-- A number of `8·n` bits under a type's signedness (R190, R250). -/
def tyNum (ty : Ty) (v : Nat) : Int :=
  if ty = .i8 ∨ ty = .i16 ∨ ty = .i32 ∨ ty = .i64 then (BitVec.ofNat (8 * ty.bytes) v).toInt else v

/-- The effective address of wait.v (R250). -/
def waitEa (s : State) (o : WaitVOp) (l : Nat) : Int :=
  if o.shared then ((s.op32 l o.base).toNat : Int) + o.disp.toInt
  else (((s.op64 l o.base).toNat : Int) + o.disp.toInt) % 2 ^ 64

/-- The condition of wait.v in a lane, on a value read. -/
abbrev waitHolds (s : State) (o : WaitVOp) (l v : Nat) : Prop :=
  condHolds o.cond (tyNum o.ty v) (tyNum o.ty ((begin_ s).opBytes l o.a o.ty.bytes)) = true

/-- A barrier object (R253). -/
def boWord (acnt arem phase : Nat) (adone : Bool) (pend : Nat) : Nat :=
  acnt * 2 ^ 112 + arem * 2 ^ 96 + phase * 2 ^ 64 + adone.toNat * 2 ^ 63 + pend

/-- The object once completion has been looked at (R253). -/
def boNext (acnt arem phase : Nat) (adone : Bool) (pend : Nat) : Nat :=
  if adone = true ∧ pend = 0 then boWord acnt acnt ((phase + 1) % 2 ^ 32) false 0 else boWord acnt arem phase adone pend

/-- The offset of a lane's object, and the checks of R254. -/
def boOfs (s : State) (a : Opnd) (l : Nat) : Nat := (s.op32 l a).toNat
def boKey (s : State) (a : Opnd) (l : Nat) : Nat := spadKey s.here.blk (boOfs s a l)
def BoOk (s : State) (a : Opnd) (x : List Nat) : Prop :=
  ∀ l ∈ x, boOfs s a l % 16 = 0 ∧ boOfs s a l + 16 ≤ 1024 * s.myBlk.spad

/-- The object of a lane, its fields, and its value after an arrival that expects `n` bytes (R255). -/
def boObj (s : State) (a : Opnd) (l : Nat) : Nat := (begin_ s).load (boKey s a l) 16
def boPhase (s : State) (a : Opnd) (l : Nat) : Nat := boObj s a l / 2 ^ 64 % 2 ^ 32
def boDone (s : State) (a : Opnd) (l : Nat) : Bool := (boObj s a l).testBit 63
def boArrive (s : State) (a : Opnd) (l n : Nat) : Nat :=
  let x := boObj s a l
  let rem := (x / 2 ^ 96 % 65536 + 65535) % 65536
  boNext (x / 2 ^ 112) rem (boPhase s a l) (rem == 0) ((x % 2 ^ 56 + n) % 2 ^ 56)

/-- PEND of a lane's object, as the signed number it stands for (R253). -/
def boPend (s : State) (a : Opnd) (l : Nat) : Int := (BitVec.ofNat 56 (boObj s a l)).toInt

/-- The objects of the lanes `x` whose PEND becomes `pend` within its range hold `new` (R253); every byte outside the objects is as
before. -/
def BoWrote (s t : State) (a : Opnd) (x : List Nat) (pend : Nat → Int) (new : Nat → Nat) : Prop :=
  (∀ l ∈ x, -2 ^ 55 ≤ pend l → pend l < 2 ^ 55 → (begin_ t).load (boKey s a l) 16 = new l) ∧
    ∀ k, (∀ l ∈ x, k < boKey s a l ∨ boKey s a l + 16 ≤ k) → t.byte k = s.byte k

/-! #### Engines -/

/-- An engine takes an instruction of the issuing group: the accesses of its thread have performed and the engine is ready
(R105, R361). -/
abbrev EngineOn (s : State) (e : Nat) : Prop :=
  FenceMet s .blk ∧ s.d.pkg.rdyEng.getLsbD (8 * slotDie s.d.cur.slot + e) = true

/-- The same of an engine of die `d` that serves an object (R146). -/
abbrev EngineOnAt (s : State) (d e : Nat) : Prop := FenceMet s .blk ∧ s.d.pkg.rdyEng.getLsbD (8 * d + e) = true

/-- An engine operation of the issuing group. -/
def State.newOp (s : State) (cls : Cls) (kind : EKind) : EOp := (begin_ s).newOp cls kind

/-- Operation `e` has entered: it is counted in its class, its token is pending, `new` results are owed, and nothing else of the
group, its block and the other groups has changed, but what the cores' L1s hold (R43, R104, R261). -/
def Handed (s t : State) (e : EOp) (new : List (Nat × List Reg × Payload)) : Prop :=
  SameMem s t ∧ SameAll s t ∧ Advances s t ∧ t.d.ops = s.d.ops ++ [e] ∧
    (∀ c, t.here.count c = s.here.count c + (if c = e.cls then 1 else 0)) ∧
    t.here.spend = e.tok.toList ++ s.here.spend ∧ owedOf t.here = owedOf s.here ++ new ∧
    { t.here.core with cnt := [], spend := [] } = { s.here.core with cnt := [], spend := [] } ∧
    (∀ k, k ≠ s.d.cur.slot → t.slot? k = s.slot? k) ∧ (∀ k, k ≠ s.here.blk → sget? t.d.blocks k = sget? s.d.blocks k) ∧
    t.d.parts = s.d.parts ∧ t.d.launches = s.d.launches

/-- The same, and nothing of the cores has changed. -/
def Entered (s t : State) (e : EOp) (new : List (Nat × List Reg × Payload)) : Prop := Handed s t e new ∧ t.d.cores = s.d.cores

/-- The operation with a name holds what is said of it. -/
def OpIs (t : State) (id : Nat) (P : EOp → Prop) : Prop := ∃ o, t.d.ops.find? (fun o => o.id == id) = some o ∧ P o

/-- An instruction that hands one operation to an engine. -/
def Enters (i : Instr) (s : State) (e : EOp) : Prop :=
  Ends i s fun t => Entered s t e [] ∧ t.myBlk.core = s.myBlk.core ∧ t.d.dies = s.d.dies

/-- The same, in the reservation table of the core's quad (R272). -/
def Reserved (s t : State) (e : EOp) : Prop :=
  let d := slotDie s.d.cur.slot
  let q := slotCore s.d.cur.slot % 64 / 4
  (t.d.die d).resvOf q = (s.d.die d).resvOf q ++ [{ op := e.id, passed := 0, since := s.d.now }] ∧
    (∀ r, r ≠ q → (t.d.die d).resvOf r = (s.d.die d).resvOf r) ∧ ∀ k, k ≠ d → t.d.die k = s.d.die k

def Queues (i : Instr) (s : State) (e : EOp) : Prop :=
  Ends i s fun t => Entered s t e [] ∧ t.myBlk.core = s.myBlk.core ∧ Reserved s t e

/-- The reservation table has room (R272). -/
abbrev ResvRoom (s : State) : Prop := ((s.d.die (slotDie s.d.cur.slot)).resvOf (slotCore s.d.cur.slot % 64 / 4)).length < 64

/-- A command of the index engine enters, behind those of its die (R277). -/
def EntersIndex (i : Instr) (s : State) (e : EOp) : Prop :=
  let d := slotDie s.d.cur.slot
  Ends i s fun t => Entered s t e [] ∧ t.myBlk.core = s.myBlk.core ∧
    (t.d.die d).idxQ = (s.d.die d).idxQ ++ [e.id] ∧ ∀ k, k ≠ d → t.d.die k = s.d.die k

/-- The value of the lowest executing lane. -/
def State.first (s : State) (x : List Nat) (o : Opnd) : Nat := (s.op32 (x.headD 0) o).toNat

/-- The barrier object of a .bo form (R262). -/
def boOf (s : State) (o : CopyOp) (x : List Nat) : Option Nat := if o.bo then some (s.first x o.c) else none

/-- `n` bytes of scratchpad from `off` lie in the window. -/
abbrev Fits (s : State) (off n : Nat) : Prop := off + n ≤ 1024 * s.myBlk.spad

/-- Row `i` of an accumulator as `n` elements of a tile, and their scale codes (R65, R66, R274). -/
def storedRow (b : Block) (a : Nat) (f : TileF) (ta tb : TRec) (rnd : Rnd) (sat ftz : Bool) (i n : Nat) : List Byte × List Byte :=
  let scale := fun (r : TRec) => if rTSV r then fF32.decode (rTSCALE r) else .fin false 1 0
  let v := fun j => (fF32.decode (b.acc? a i j)).mul ((scale ta).mul (scale tb))
  let block := fun c => quantise (tyElem f.ty) rnd (List.replicate 32 0) ((List.range 32).map fun m => v (32 * c + m))
  let code := fun j => if f.ty.isMx then (block (j / 32)).2.getD (j % 32) 0 else
    match tyElem f.ty with | .fl k => k.out rnd sat ftz 0 (v j) | .int8 => 0
  ((List.range (n * f.b / 8)).map fun m => BitVec.ofNat 8 (((List.range n).map fun j => 2 ^ (f.b * j) * code j).sum / 256 ^ m),
    if f.ty.isMx then (List.range (n / 32)).map fun c => BitVec.ofNat 8 (block c).1 else [])

/-- The record of an operand, as R257 reads it. -/
def State.tile (s : State) (tr : BitVec 4) : TileF := tileOf (s.here.readT tr.toNat)

/-! #### Collections and generation objects -/

/-- An instruction whose step is made at a generation object (R129): one operation enters, `new` results are owed, and the ring
operation waits at the object's die. -/
def Steps (i : Instr) (s : State) (gpa : Nat) (new : List (Nat × List Reg × Payload)) (P : EOp → Prop) : Prop :=
  let slot := s.d.cur.slot
  Ends i s fun t => ∃ e, P e ∧ SameMem s t ∧ SameAll s t ∧ Advances s t ∧ t.d.ops = s.d.ops ++ [e] ∧
    owedOf t.here = owedOf s.here ++ new ∧ t.here.spend = e.tok.toList ++ s.here.spend ∧
    (∀ c, t.here.count c = s.here.count c + (if c = e.cls ∧ e.slots ≠ [] then 1 else 0)) ∧
    (∀ k, k ≠ slot → t.slot? k = s.slot? k) ∧ t.myBlk.core = s.myBlk.core ∧
    let d := (begin_ s).ringDie (slotDie slot) gpa
    ∃ r, (t.d.die d).ringQ = (s.d.die d).ringQ ++ [r] ∧ r.slot = some slot ∧ r.obj = objOf gpa ∧ r.act = .gen e.id

/-- A ring instruction issues: no acquire of the group is outstanding and its stop holds fewer than 64 (R102, R119). -/
abbrev RingRoom (s : State) : Prop := s.here.acq = [] ∧ (begin_ s).stopHolds (slotCore s.d.cur.slot) < 64

/-- An object is at the gate in slot `i` of a die, and no other access performs there at this passage (R117, R119, R129). -/
abbrev AtGate (s : State) (pa die i : Nat) (r : RSlot) : Prop :=
  (∃ h, homeOf s.d pa = .die h) ∧ s.d.rideOf pa = some (die, i, r) ∧ r.applies i s.d.now = true ∧ nextPass i 0 s.d.now = s.d.now ∧
    r.lastOrd ≠ some s.d.now ∧ r.lastOwn ≠ some s.d.now

/-- The two results that a pair of halves of a T register is owed. -/
def tPair (s : State) (t : BitVec 4) (p : Nat → Payload) : List (Nat × List Reg × Payload) :=
  [(s.d.nextId, [.t t.toNat 0], p 0), (s.d.nextId + 1, [.t t.toNat 1], p 1)]

/-- The word of coll.next behind the last element (Table 22.7). -/
def endWords : List Word := [0, BitVec.ofNat 32 (65536 * 0x116), 0, 0]

/-! #### The Carousel -/

/-- A lane's word of a ring instruction: its effective address, the checks of R289, and where it is. -/
abbrev RingAt (s : State) (a : Opnd) (disp : Word) (n l pa : Nat) : Prop :=
  let ea : Int := (((s.op64 l a).toNat : Int) + disp.toInt) % 2 ^ 64
  ea % n = 0 ∧ ea < 2 ^ 57 ∧ ∃ lf, (begin_ s).translate (slotDie s.d.cur.slot) ea.toNat .ring (!s.myBlk.priv) = .ok lf ∧ lf.pa = pa

/-- A ring instruction that becomes one operation on object `obj` (R119): `new` results are owed, and the operation waits at the
object's die. -/
def RingIssues (i : Instr) (s : State) (obj : Nat) (tok : Option Nat) (new : List (Nat × List Reg × Payload))
    (P : RingOp → Prop) : Prop :=
  let slot := s.d.cur.slot
  Ends i s fun t => SameMem s t ∧ SameAll s t ∧ Advances s t ∧ owedOf t.here = owedOf s.here ++ new ∧ t.d.ops = s.d.ops ∧
    t.here.spend = tok.toList ++ s.here.spend ∧ (∀ k, k ≠ slot → t.slot? k = s.slot? k) ∧ t.myBlk.core = s.myBlk.core ∧
    let d := (begin_ s).ringDie (slotDie slot) obj
    ∃ r, P r ∧ (t.d.die d).ringQ = (s.d.die d).ringQ ++ [r] ∧ r.slot = some slot ∧ r.obj = objOf obj

/-- A device step at slot `i` of a die's ring: nothing else changes but results owed and the record of copies. -/
def SlotOf (s : State) (die i : Nat) : RSlot := sget (s.d.die die).slots i RSlot.free

/-- A command of a ring is done, or stands as it is said to. -/
def CmdIs (t : State) (die id : Nat) (st : CmdSt) : Prop := ∀ c ∈ (t.d.die die).ringCmds, c.id = id → c.st = st

/-! #### Frames of the device steps -/

/-- Memory, groups, blocks and launches are as before. -/
def Still (s t : State) : Prop :=
  SameMem s t ∧ t.d.groups = s.d.groups ∧ t.d.blocks = s.d.blocks ∧ t.d.launches = s.d.launches

/-- A step of a register instruction that changes nothing of its own block's other groups or of memory. -/
def Goes (s t : State) : Prop :=
  SameAll s t ∧ Advances s t ∧ ∀ k, k ≠ s.d.cur.slot → t.slot? k = s.slot? k

/-- Every thread of a block's groups has exited. -/
def Ended (t : State) (k : Nat) (b : Block) : Prop := ∀ q ∈ b.slots k, ∀ l < 32, ((t.grp q).thread l).st = .exited

/-- The status of a launch is `code` where it was 0 (R22, R84). -/
def StatusSet (s t : State) (id code : Nat) : Prop :=
  ∀ ln, sget? s.d.launches id = some ln →
    ∃ ln', sget? t.d.launches id = some ln' ∧ ln'.status = if ln.status = 0 then code else ln.status

/-- Memory is as before but for `n` bytes from `a` on, which hold `x`. -/
def Stored (s t : State) (a n x : Nat) : Prop :=
  (begin_ t).load a n = x % 256 ^ n ∧ ∀ b, b < a ∨ a + n ≤ b → t.byte b = s.byte b

/-- INTPEND bit `k` of a core is set and no other bit of it changes. -/
def Raised (s t : State) (core k : Nat) : Prop := (t.d.core core).intPend = (s.d.core core).intPend ||| (1#32 <<< k)

/-- The first command of a code that waits at a core. -/
abbrev PcmdAt (s : State) (core code : Nat) (c : Cmd) : Prop :=
  (s.d.core core).pcmds.find? (fun k => k.code == code && k.st == .waiting) = some c

def PcmdIs (t : State) (core id : Nat) (st : CmdSt) : Prop := ∀ c ∈ (t.d.core core).pcmds, c.id = id → c.st = st

/-- The physical address of byte `i` of a range whose pages were mapped, and a number of `n` bytes from it on. -/
def rangeAt (ps : List Nat) (va i : Nat) : Nat := pageAt ps va (va + i)
def State.rangeNum (s : State) (ps : List Nat) (va i n : Nat) : Nat :=
  bytesNat ((List.range n).map fun k => s.byte (rangeAt ps va (i + k)))

/-- The bytes of a mapped range are different bytes of memory, none rides the Carousel, and their homes are ready. -/
abbrev RangeOk (s : State) (ps : List Nat) (va n : Nat) : Prop :=
  (∀ i < n, homeUp s.d (rangeAt ps va i) = true ∧ s.d.rideOf (rangeAt ps va i) = none) ∧
    ∀ i < n, ∀ j < n, rangeAt ps va i = rangeAt ps va j → i = j

/-- Its bytes can be written now: no lease and no pin holds their lines, and their memory has not failed (R84, R92). -/
abbrev RangeWrites (s : State) (ps : List Nat) (va n : Nat) : Prop :=
  ∀ i < n, (begin_ s).leaseFree (rangeAt ps va i) = true ∧ homeFailed s.d (rangeAt ps va i) = false

/-- Its bytes can be read: they are sound, and no write on its way meets them (R84, R89). -/
abbrev RangeReads (s : State) (ps : List Nat) (va n : Nat) : Prop :=
  ∀ i < n, (begin_ s).deadAt (rangeAt ps va i) true = false ∧ NoRace s (rangeAt ps va i)

/-- Outside a mapped range every byte is as before. -/
def OnlyRange (s t : State) (ps : List Nat) (va n : Nat) : Prop :=
  ∀ a, (∀ i < n, a ≠ rangeAt ps va i) → t.byte a = s.byte a

end Sys2Proof.Machine

open Sys2Proof Sys2Proof.Machine

/-! ### The machine -/

/-- Reset (Tables 6.1, 21.1, 21.3, 21.5, 21.6, 22.1, 23.4, 24.1, 24.2, 24.7; R113, R329): no group exists, no ring slot is in use,
memory lists nothing, and the registers whose reset value the tables give have it. -/
def Obligations.ResetState : Prop :=
  State.reset.mem = [] ∧ memWf State.reset.mem = true ∧ State.reset.d.groups = [] ∧ State.reset.d.blocks = [] ∧ State.reset.d.launches = [] ∧
  State.reset.d.ops = [] ∧
  (∀ c, (State.reset.d.core c).intMask = 0 ∧ (State.reset.d.core c).intPend = 0) ∧
  (∀ k, let d := State.reset.d.die k
    d.ptRoot = 0 ∧ d.frameBase = 0 ∧ d.hTmpl = 0 ∧ d.hq = 0 ∧ d.locBase = 0 ∧ d.stagger = 0 ∧ d.ringSel = 0 ∧
    d.pwrCtl = 2 ^ 32 * 1 + 2 ^ 16 * 0x50 + 0x190 ∧ d.eccSel = 0 ∧ d.slots = [] ∧
    d.level = 0 ∧ d.eccWin = 0x400 ∧ d.eccThr = 0x10 ∧ d.pbudget = 0x398 ∧ d.tlimit = 0x2F8) ∧
  (∀ k, let p := State.reset.d.part k
    p.qbase = 0 ∧ p.qctl = 0x400000 ∧ p.dbgctl = 0 ∧ p.qrange = 0x40000000 ∧ p.rxBase = 0 ∧ p.rxSize = 0) ∧
  State.reset.d.pkg.lrejq = 0 ∧ State.reset.d.pkg.partMap = 0 ∧ State.reset.d.pkg.rdyAddr = 0 ∧
  State.reset.d.pkg.rdyVec = 0 ∧ State.reset.d.pkg.rdyPkg = 0

/-- Worked lines of the spec (Tables 11.7, 12.7, 13.10, 14.4, the lines below Table 15.1, and the programs): their words decode to the instruction
that the line names. -/
def Obligations.DecodeWords : Prop :=
  let h : Hdr := { neg := false, grd := 15, ver1 := true, ctl := 0 }
  -- rdsp V0, LANE
  decodeTableWord 64 (words 0x000F0374 0x00000000 0 0) = some (.rdsp h (.v 0) 0) ∧
  -- cmp.lt.n32 P0, V0, B3
  decodeTableWord 64 (words 0x002F0174 0xC00D0C02 0 0) =
    some (.cmp h { ty := .n32, pd := 0, a := .v 0, b := .b 3, cond := .lt }) ∧
  -- ?!P0 exit
  decodeTableWord 64 (words 0x00100294 0xC0000000 0 0) = some (.exit { h with neg := true, grd := 0 }) ∧
  -- cvt.n32.f32.rz V7, V2
  decodeTableWord 96 (words 0x070F0605 0x00200000 0x22DC0000 0) =
    some (.cvt h { tyTo := .n32, tyFr := .f32, rnd := .rz, sat := false, ftz := false, d := .v 7, a := .v 2 }) ∧
  -- st.strong.rel.die.b32 [S4], V9
  decodeTableWord 96 (words 0x000F0715 0xF04E0009 0x00000662 0) =
    some (.st h { ty := .b32, space := .g, strong := true, ord := .rel, scope := .die, disp := 0, d := .none, base := .s 4,
                  off := .inl 0, data := .v 9 }) ∧
  -- mma J1, A2, T1, T2, S8, S9, 0
  decodeTableWord 128 (words 0x120F0B36 0xF08C2780 0x10000000 0x00000002) =
    some (.mma h { j := 1, acc := 2, row0 := .s 8, col0 := .s 9, k0 := .inl 0, ta := 1, tb := 2, aS := false, bS := false,
                   ftz := false, md := 0 }) ∧
  -- ring.up.pop.acq.b128 V8, [S6], 4
  decodeTableWord 128 (words 0x08EF0D36 0x306E1000 0x00019001 0x00000000) =
    some (.ringUpPop h { ty := .b128, ord := .acq, scope := .die, d := .v 8, a := .s 6, v := .inl 4, c := .v 0,
                         disp := 0 })

/-- It is the turn of the group `g` in a slot to issue, `dt` cycles on, and no passage of the ring comes before (R28, R331):
it may issue and is first in its partition's rotation, and no held fault comes first (R370). -/
abbrev TurnOf (s : State) (dt slot l : Nat) (g : Group) : Prop :=
  let w := begin_ (atTurn s { dt := dt, who := .group slot })
  (∃ ts, s.d.turns = { dt := dt, who := .group slot } :: ts) ∧ (∀ c, (begin_ s).nextDue = some c → s.d.now + dt ≤ c.1) ∧
    sget? s.d.groups slot = some g ∧ w.mayIssue g = true ∧ w.rotation slot g = true ∧ w.byIndex g = true ∧ g.hmix = none ∧
    (∀ k < 32, (g.thread k).st ≠ .orphaned) ∧ g.leader = some l

/-- A step at a group's turn runs the instruction that its selected thread's bytes decode to (R14, R28, R175): before it, only
the group's place in the rotation is noted; after it, only since when pending groups are ready. -/
def Obligations.StepRunsDecoded : Prop :=
  (∀ (s : State) (dt slot l x len : Nat) (g : Group) (i : Instr),
    let s' := atTurn s { dt := dt, who := .group slot }
    TurnOf s dt slot l g →
    (begin_ s').fetch (slotDie slot) (!(s.blk g.blk).priv) (g.thread l).pc = .word x len →
    decode (s.blk g.blk).priv x = .ok i →
    ∃ v : State, step s = settled (exec i v) ∧ v.mem = s.mem ∧
      v.d.cur = { slot := slot, lanes := g.issuers l, pc := (g.thread l).pc, len := len, word := x, stamped := false } ∧
      v.slot? slot = some { g with turn := s'.d.now + 1 } ∧ (∀ k, k ≠ slot → v.slot? k = s.slot? k) ∧
      { v.d with groups := [], blocks := [], cores := [], cur := s.d.cur } =
        { s'.d with groups := [], blocks := [], cores := [], cur := s.d.cur } ∧
      ∀ k, k ≠ slotCore slot → v.d.core k = s.d.core k) ∧
  ∀ t : State, settled (.next t) = .next (settle t) ∧ (settle t).mem = t.mem ∧
    { (settle t).d with groups := [] } = { t.d with groups := [] } ∧
    ∀ k, (settle t).slot? k = (t.slot? k).map fun g => { g with since := ((settle t).grp k).since }

/-- Decoding what `encode` writes of a well-formed instruction gives it back, every operand at every value (R174, R179 to R187). The
zero word, which is illegal, is the one exception (R189; `DecodeRefuses`). -/
def Obligations.EncodeDecode : Prop :=
  ∀ (i : Instr) (w : Nat), i.wf = true → encode i = some w → w ≠ 0 → decode true w = .ok i

/-- Whatever a word decodes to is well formed: reserved encodings do not fall through to an instruction (R178, R179,
R188). -/
def Obligations.DecodedWellFormed : Prop :=
  ∀ (priv : Bool) (w : Nat) (i : Instr), decode priv w = .ok i → i.wf = true ∧ (encode i).isSome = true

/-- R188 step 6, R189, R174, R345: the zero word is illegal, the same instruction with another guard or version is not; versions 10
and 11 are illegal; a well-formed privileged instruction is refused to a block that is not privileged. A step that fetches a
refused word traps with ILLEGAL_INSTR or PRIV_INSTR. -/
def Obligations.DecodeRefuses : Prop :=
  (∀ priv, decode priv 0 = .error .illegal) ∧
  (∀ (priv neg ver1 : Bool) (grd : BitVec 4), (neg, grd, ver1) ≠ (false, 0, false) →
    decode priv (2 ^ 20 * neg.toNat + 2 ^ 16 * grd.toNat + 4 * ver1.toNat) =
      .ok (.add (Hdr.mk neg grd ver1 0) (IntOp.mk .i32 false (.v 0) (.v 0) (.v 0) (.v 0)))) ∧
  (∀ priv w, 2 ≤ fld w 2 2 → decode priv w = .error .illegal) ∧
  (∀ (i : Instr) (w : Nat), i.wf = true → encode i = some w → fld w 4 8 ≥ 0xF0 → decode false w = .error .privileged) ∧
  ∀ (s : State) (dt slot l x len : Nat) (g : Group) (r : Reject),
    let s' := atTurn s { dt := dt, who := .group slot }
    TurnOf s dt slot l g → (∀ e ∈ s.d.blocks, (e.2.stagger.bind fun p => p.1) ≠ some g.blk) →
    (begin_ s').fetch (slotDie slot) (!(s.blk g.blk).priv) (g.thread l).pc = .word x len →
    decode (s.blk g.blk).priv x = .error r → g.owed = [] → memWf s.mem = true →
    ∃ t, step s = settled (.next t) ∧ Trapped s' t slot (g.issuers l) (FaultRec.mk
      (match r with | .illegal => cILLEGAL | .privileged => cPRIV) 0 (g.thread l).pc
      (maskOf (g.executing (decHdr x) (g.issuers l))) (x / 4 % 4) true 0 (BitVec.ofNat 128 x) false)

/-- Memory keeps its canonical form. -/
def Obligations.MemoryCanonical : Prop :=
  ∀ s t : State, memWf s.mem = true → step s = .next t → memWf t.mem = true

/-- No step stops the machine: there is no state in which it faults or refuses. And an encoded instruction that no issuing thread
executes has no effect: its issuing threads go on behind it, and no result is owed (R178, R188). -/
def Obligations.StepAnswers : Prop :=
  (∀ s : State, ∃ t, step s = .next t) ∧
  ∀ (s : State) (i : Instr) (h : Hdr), i.wf = true → i.hdr = some h → (s.slot? s.d.cur.slot).isSome = true →
    lanesOk s.d.cur.lanes = true → s.d.cur.stamped = false → s.here.owed = [] → s.here.spend = [] →
    s.here.executing h s.d.cur.lanes = [] →
    Ends i s fun t => OnlyRegs s t ∧ SameAll s t ∧ Advances s t

/-! ### Integer instructions -/

/-- R190 to R192, R62, R42, R178: the arithmetic instructions in every type, operand form and destination. -/
def Obligations.IntegerArithmetic : Prop :=
  ∀ (s : State) (h : Hdr) (o : IntOp) (x : List Nat),
    IntComputes (.add h o) s h o 2 x (fun a b _ => a + b) ∧
    IntComputes (.sub h o) s h o 2 x (fun a b _ => a - b) ∧
    IntComputes (.mulLo h o) s h o 2 x (fun a b _ => a * b) ∧
    IntComputes (.mulHi h o) s h o 2 x (fun a b _ => (a * b) / 2 ^ o.ty.width) ∧
    IntComputes (.mad h o) s h o 3 x (fun a b c => a * b + c) ∧
    IntComputes (.min h o) s h o 2 x (fun a b _ => if a ≤ b then a else b) ∧
    IntComputes (.max h o) s h o 2 x (fun a b _ => if a ≤ b then b else a) ∧
    IntComputes (.abs h o) s h o 1 x (fun a _ _ => if a < 0 then -a else a) ∧
    IntComputes (.neg h o) s h o 1 x (fun a _ _ => -a)

/-- R192, Table 11.1: the instructions on bits, bit by bit, and those that count bits. -/
def Obligations.IntegerBits : Prop :=
  (∀ (s : State) (h : Hdr) (o : IntOp) (x : List Nat),
    let a := fun l => intBits s o.ty l o.a
    let b := fun l => intBits s o.ty l o.b
    let w := o.ty.width
    BitsAre (.and h o) s h (intSrc o 2) o x (fun l k => (a l).testBit k && (b l).testBit k) ∧
    BitsAre (.or h o) s h (intSrc o 2) o x (fun l k => (a l).testBit k || (b l).testBit k) ∧
    BitsAre (.xor h o) s h (intSrc o 2) o x (fun l k => (a l).testBit k != (b l).testBit k) ∧
    BitsAre (.not h o) s h (intSrc o 1) o x (fun l k => !(a l).testBit k) ∧
    BitsAre (.shl h o) s h (intSrc o 2) o x (fun l k => decide (b l ≤ k) && (a l).testBit (k - b l)) ∧
    BitsAre (.shr h o) s h (intSrc o 2) o x (fun l k => (a l).testBit (k + b l)) ∧
    BitsAre (.sar h o) s h (intSrc o 2) o x (fun l k => (a l).testBit (if k + b l < w then k + b l else w - 1)) ∧
    BitsAre (.brev h o) s h (intSrc o 1) o x (fun l k => (a l).testBit (w - 1 - k)) ∧
    (let pl := fun l => (s.op32 l o.b).toNat
     BitsAre (.bfx h o) s h (o.a.names (if o.ty.wide then 2 else 1) ++ o.b.names 1) o x fun l k =>
      let pos := pl l % 256
      let len := min (pl l / 256 % 256) w
      let src := fun j => if pos + j < w then (a l).testBit (pos + j) else o.ty.signed && (a l).testBit (w - 1)
      decide (0 < len) && (if k < len then src k else o.ty.signed && src (len - 1))) ∧
    (let pl := fun l => (s.op32 l o.c).toNat
     BitsAre (.bfi h o) s h
      (o.a.names (if o.ty.wide then 2 else 1) ++ o.b.names (if o.ty.wide then 2 else 1) ++ o.c.names 1) o x fun l k =>
      let pos := pl l % 256
      let len := min (pl l / 256 % 256) w
      if pos ≤ k ∧ k < pos + len then (a l).testBit (k - pos) else (b l).testBit k)) ∧
  ∀ (s : State) (h : Hdr) (o : IntOp) (x : List Nat),
    let a := fun l => intBits s o.ty l o.a
    let w := o.ty.width
    (Runs (.popc h o) s h (intSrc o 1) (intDst o) x →
      Computes (.popc h o) s x o.d o.ty.wide true fun l =>
        intReg o.ty false (((List.range w).filter fun k => (a l).testBit k).length : Nat)) ∧
    (Runs (.clz h o) s h (intSrc o 1) (intDst o) x →
      Computes (.clz h o) s x o.d o.ty.wide true fun l =>
        intReg o.ty false (if a l = 0 then w else w - 1 - Nat.log2 (a l) : Nat)) ∧
    (Runs (.ctz h o) s h (intSrc o 1) (intDst o) x →
      ∃ v : Nat → Nat, (∀ l, if a l = 0 then v l = w else (a l).testBit (v l) ∧ ∀ j < v l, (a l).testBit j = false) ∧
        Computes (.ctz h o) s x o.d o.ty.wide true fun l => intReg o.ty false (v l))

/-- R192 to R194: selection, moves and addresses. -/
def Obligations.IntegerMoves : Prop :=
  ∀ (s : State) (h : Hdr) (x : List Nat),
    (∀ o : IntOp, IntComputes (.mov h o) s h o 1 x fun a _ _ => a) ∧
    (∀ o : SelOp, Runs (.sel h o) s h (o.a.names (if o.ty.wide then 2 else 1) ++ o.b.names (if o.ty.wide then 2 else 1))
        (o.d.names (if o.ty.wide then 2 else 1)) x →
      Computes (.sel h o) s x o.d o.ty.wide true fun l =>
        intReg o.ty false (intVal s o.ty l (if s.predF l o.p then o.a else o.b))) ∧
    (∀ o : IntOp, Runs (.lea h o) s h (o.a.names 2 ++ o.b.names (if o.ty.wide then 2 else 1) ++
        o.c.names (if o.ty.wide then 2 else 1)) (o.d.names 2) x →
      Computes (.lea h o) s x o.d true true fun l =>
        BitVec.ofInt 64 ((s.op64 l o.a).toNat + intVal s o.ty l o.b * 2 ^ (intBits s o.ty l o.c % 64))) ∧
    (∀ (d : Dst) (k : Word), Runs (.moviB32 h d k) s h [] (d.names 1) x →
      Computes (.moviB32 h d k) s x d false true fun _ => k.zeroExtend 64) ∧
    ∀ (d : Dst) (k : DWord), Runs (.moviB64 h d k) s h [] (d.names 2) x →
      Computes (.moviB64 h d k) s x d true true fun _ => k

/-! ### Predicates and lanes -/

/-- R192, R196 to R199: the instructions that compute predicates, with P15 as a destination that discards (R46). -/
def Obligations.Predicates : Prop :=
  ∀ (s : State) (h : Hdr) (x : List Nat) (pd : BitVec 4) (a b q : PredF),
    (∀ o : CmpOp, Runs (.cmp h o) s h (o.a.names (if o.ty.wide then 2 else 1) ++ o.b.names (if o.ty.wide then 2 else 1))
        [] x →
      Decides (.cmp h o) s x o.pd fun l => condHolds o.cond (intVal s o.ty l o.a) (intVal s o.ty l o.b)) ∧
    (Runs (.pand h pd a b) s h [] [] x → Decides (.pand h pd a b) s x pd fun l => s.predF l a && s.predF l b) ∧
    (Runs (.por h pd a b) s h [] [] x → Decides (.por h pd a b) s x pd fun l => s.predF l a || s.predF l b) ∧
    (Runs (.pxor h pd a b) s h [] [] x → Decides (.pxor h pd a b) s x pd fun l => s.predF l a != s.predF l b) ∧
    (Runs (.pnot h pd a) s h [] [] x → Decides (.pnot h pd a) s x pd fun l => !s.predF l a) ∧
    (Runs (.pmov h pd a) s h [] [] x → Decides (.pmov h pd a) s x pd fun l => s.predF l a) ∧
    (Runs (.lead h pd) s h [] [] x → Decides (.lead h pd) s x pd fun l => decide (∀ k ∈ x, l ≤ k)) ∧
    (Runs (.agree h .every pd q) s h [] [] x →
      Decides (.agree h .every pd q) s x pd fun _ => decide (∀ l ∈ x, s.predF l q = true)) ∧
    (Runs (.agree h .some pd q) s h [] [] x →
      Decides (.agree h .some pd q) s x pd fun _ => decide (∃ l ∈ x, s.predF l q = true)) ∧
    (Runs (.agree h .same pd q) s h [] [] x →
      Decides (.agree h .same pd q) s x pd fun _ =>
        decide ((∀ l ∈ x, s.predF l q = true) ∨ ∀ l ∈ x, s.predF l q = false)) ∧
    (Runs (.agree h .odd pd q) s h [] [] x →
      Decides (.agree h .odd pd q) s x pd fun _ => decide ((x.filter fun l => s.predF l q).length % 2 = 1))

/-- R195 to R197, R199: values across lanes, lane masks and packed predicates. -/
def Obligations.LaneValues : Prop :=
  ∀ (s : State) (h : Hdr) (x : List Nat),
    (∀ o : MovsOp, Runs (.movs h o) s h (o.a.names (if o.wide then 2 else 1) ++ o.lane.names 1) (o.d.names 1) x →
      let k := if o.first then x.headD 0 else (s.op32 (x.headD 0) o.lane).toNat % 32
      Computes (.movs h o) s x o.d o.wide false fun _ =>
        if o.wide then s.op64 k o.a else (s.op32 k o.a).zeroExtend 64) ∧
    (∀ o : XlaneOp, Runs (.xlane h o) s h (o.a.names 1 ++ o.b.names 1 ++ o.c.names 1) (o.d.names 1) x →
      Computes (.xlane h o) s x o.d false true fun t =>
        let w := 2 ^ Nat.log2 (min (max (s.op32 t o.c).toNat 1) 32)
        let b := (s.op32 t o.b).toNat
        let p := t % w
        let k := t - p + (match o.mode with
          | .at => b % w
          | .below => (p + w - b % w) % w
          | .above => (p + b) % w
          | .mask => p ^^^ (b % w))
        (s.op32 (if k ∈ x then k else t) o.a).zeroExtend 64) ∧
    (∀ (inv : Bool) (d : Dst) (q : PredF), Runs (.pmask h inv d q) s h [] (d.names 1) x →
      ∃ m : Word, (∀ k < 32, m.getLsbD k = decide (k ∈ x ∧ s.predF k q ≠ inv)) ∧
        Computes (.pmask h inv d q) s x d false true fun _ => m.zeroExtend 64) ∧
    (∀ d : Dst, Runs (.lane h .iss d) s h [] (d.names 1) x →
      ∃ m : Word, (∀ k < 32, m.getLsbD k = decide (k ∈ x)) ∧
        Computes (.lane h .iss d) s x d false true fun _ => m.zeroExtend 64) ∧
    (∀ d : Dst, Runs (.lane h .lt d) s h [] (d.names 1) x →
      ∃ m : Nat → Word, (∀ l, ∀ k < 32, (m l).getLsbD k = decide (k ∈ x ∧ k < l)) ∧
        Computes (.lane h .lt d) s x d false true fun l => (m l).zeroExtend 64) ∧
    (∀ d : Dst, Runs (.lane h .rank d) s h [] (d.names 1) x →
      Computes (.lane h .rank d) s x d false true fun l => BitVec.ofNat 64 (x.filter fun k => decide (k < l)).length) ∧
    (∀ d : Dst, Runs (.pmovPk h d) s h [] (d.names 1) x →
      Computes (.pmovPk h d) s x d false true fun l => (s.here.thread l).p.zeroExtend 64) ∧
    ∀ a : Opnd, Runs (.pmovUpk h a) s h (a.names 1) [] x →
      Ends (.pmovUpk h a) s fun t => OnlyRegs s t ∧ Advances s t ∧ SameRegs s t ∧
        ∀ l q, (t.here.thread l).pred q =
          if l ∈ x ∧ q.toNat ≠ 15 then (s.op32 l a).getLsbD q.toNat else (s.here.thread l).pred q

/-! ### Control -/

/-- R200, R201, R179: branches, calls and returns, and the traps of a target that is no address. -/
def Obligations.Branches : Prop :=
  ∀ (s : State) (h : Hdr) (x : List Nat) (ofs : Word) (a : Opnd) (l : BitVec 8),
    (Runs (.bra h ofs) s h [] [] x → Moves (.bra h ofs) s x id (fun _ => relAddr s ofs) s.ms) ∧
    ((∀ k ∈ x, (s.op64 k a).toNat < 2 ^ 57 ∧ (s.op64 k a).toNat % 4 = 0) →
      (Runs (.braInd h a) s h (a.names 2) [] x →
        Moves (.braInd h a) s x id (fun k => BitVec.ofNat 57 (s.op64 k a).toNat) s.ms) ∧
      (Runs (.ret h a) s h (a.names 2) [] x →
        Moves (.ret h a) s x id (fun k => BitVec.ofNat 57 (s.op64 k a).toNat) s.ms)) ∧
    -- a target that is no address, in any executing thread: ADDR_RANGE before MISALIGN
    (memWf s.mem = true → s.here.owed = [] →
      let trap := fun i cause => Ends i s fun t =>
        Trapped s t s.d.cur.slot s.d.cur.lanes (faultOf s cause x s.d.cur.pc true)
      ((∃ k ∈ x, 2 ^ 57 ≤ (s.op64 k a).toNat) →
        (Runs (.braInd h a) s h (a.names 2) [] x → trap (.braInd h a) cADDR_RANGE) ∧
        (Runs (.ret h a) s h (a.names 2) [] x → trap (.ret h a) cADDR_RANGE)) ∧
      ((∀ k ∈ x, (s.op64 k a).toNat < 2 ^ 57) → (∃ k ∈ x, (s.op64 k a).toNat % 4 ≠ 0) →
        (Runs (.braInd h a) s h (a.names 2) [] x → trap (.braInd h a) cMISALIGN) ∧
        (Runs (.ret h a) s h (a.names 2) [] x → trap (.ret h a) cMISALIGN))) ∧
    (Runs (.call h l ofs) s h [] [.v l.toNat, .v (l.toNat + 1)] x →
      Ends (.call h l ofs) s fun t => OnlyRegs s t ∧
        Jumps s t (fun k => if k ∈ x then relAddr s ofs else s.d.cur.next) ∧ MeetsAt t s.ms ∧
        Wrote s t x (.v l) true true fun _ => (s.d.cur.pc + 8).zeroExtend 64)

/-- R204, R205, R13: the instructions on M complete: the executing threads' M, or PC, is the one the rule gives, and whoever then
stands at its M is held or released. -/
def Obligations.Meetings : Prop :=
  ∀ (s : State) (h : Hdr) (x : List Nat) (ofs : Word) (l : BitVec 8) (a : Opnd),
    let set := fun (m : Nat → Option Addr) k => if k ∈ x then m k else s.ms k
    let next := fun k => if k ∈ s.d.cur.lanes then s.d.cur.next else s.pc k
    (Runs (.meetSet h ofs) s h [] [] x →
      ∃ t, exec (.meetSet h ofs) s = .next t ∧ OnlyRegs s t ∧ SameAll s t ∧ Jumps s t (fun _ => s.d.cur.next) ∧
        Meets s t s.d.cur.lanes next (set fun _ => some (relAddr s ofs))) ∧
    (Runs (.meetSetXch h l ofs) s h [] [.v l.toNat, .v (l.toNat + 1)] x →
      ∃ t, exec (.meetSetXch h l ofs) s = .next t ∧ OnlyRegs s t ∧ Jumps s t (fun _ => s.d.cur.next) ∧
        Meets s t s.d.cur.lanes next (set fun _ => some (relAddr s ofs)) ∧
        Wrote s t x (.v l) true true fun k => match s.ms k with
          | some m => BitVec.ofNat 64 (2 ^ 63 + m.toNat)
          | none => 0) ∧
    (Runs (.meetSetFrom h a) s h (a.names 2) [] x →
      ∃ t, exec (.meetSetFrom h a) s = .next t ∧ OnlyRegs s t ∧ SameAll s t ∧ Jumps s t (fun _ => s.d.cur.next) ∧
        Meets s t s.d.cur.lanes next (set fun k =>
          if (s.op64 k a).getLsbD 63 then some ((s.op64 k a).truncate 57) else none)) ∧
    (Runs (.meet h) s h [] [] x →
      ∃ t, exec (.meet h) s = .next t ∧ OnlyRegs s t ∧ SameAll s t ∧
        Jumps s t (fun k => if k ∈ x then (s.ms k).getD s.d.cur.next else s.d.cur.next) ∧
        Meets s t s.d.cur.lanes (fun k => if k ∈ x then (s.ms k).getD s.d.cur.next else next k) s.ms) ∧
    (Runs (.meetBrk h) s h [] [] x →
      ∃ t, exec (.meetBrk h) s = .next t ∧ OnlyRegs s t ∧ SameAll s t ∧ Jumps s t (fun _ => s.d.cur.next) ∧
        Meets s t s.d.cur.lanes next (set fun _ => none))

/-! ### Floating point -/

/-- R215 to R218, R59, R54: addition, subtraction, multiplication and the fused form, exact and then rounded once. -/
def Obligations.FloatArithmetic : Prop :=
  ∀ (s : State) (h : Hdr) (o : FpOp) (x : List Nat),
    let rd := o.rnd == .rd
    FpComputes (.fadd h o) s h o 2 x (fun a b _ => fsum [a, b] rd) ∧
    FpComputes (.fsub h o) s h o 2 x (fun a b _ => fsum [a, b.neg] rd) ∧
    FpComputes (.fmul h o) s h o 2 x (fun a b _ => a.mul b) ∧
    FpComputes (.fma h o) s h o 3 x (fun a b c => fsum [a.mul b, c] rd)

/-- R219 to R222: minimum, maximum, rounding to an integer, classes; fcmp on one element, or on two into consecutive
predicates. -/
def Obligations.FloatSelection : Prop :=
  (∀ (s : State) (h : Hdr) (o : FpOp) (x : List Nat),
    let f := fpFmt o.ty
    let val := fun p => if o.ftz then flush32 (f.decode p) else f.decode p
    let pat := fun p => if o.ftz then f.encode (val p) else p
    FpMaps (.fmin h o) s h o 2 x (fun a b =>
      if (val a).isNan then (if (val b).isNan then f.nanBits else pat b)
      else if (val b).isNan then pat a else if (val b).lt true (val a) then pat b else pat a) ∧
    FpMaps (.fmax h o) s h o 2 x (fun a b =>
      if (val a).isNan then (if (val b).isNan then f.nanBits else pat b)
      else if (val b).isNan then pat a else if (val a).lt true (val b) then pat b else pat a) ∧
    FpMaps (.frnd h o) s h o 1 x (fun a _ => f.out .rne false o.ftz 0 (match val a with
      | .fin sg m e => .fin sg (roundAt o.rnd sg m e 0 0) 0
      | v => v)) ∧
    FpMaps (.fclass h o) s h o 1 x (fun a _ =>
      match f.decode a with
      | .inf true => 0x01
      | .fin true 0 _ => 0x08
      | .fin false 0 _ => 0x10
      | .inf false => 0x80
      | .nan => 0x100
      | .fin sg _ _ => if a / 2 ^ f.mb % 2 ^ f.eb = 0 then (if sg then 0x04 else 0x20) else if sg then 0x02 else 0x40)) ∧
  ∀ (s : State) (h : Hdr) (o : FcmpOp) (x : List Nat),
    Runs (.fcmp h o) s h (o.a.names 1 ++ o.b.names 1) [] x →
    Ends (.fcmp h o) s fun t => OnlyRegs s t ∧ Advances s t ∧ SameRegs s t ∧
      ∀ l q, (t.here.thread l).pred q =
        let c := fun i => fcond o.cond (fpVal s o.ty o.ftz l o.a i) (fpVal s o.ty o.ftz l o.b i)
        if l ∈ x ∧ q.toNat ≠ 15 ∧ q = o.pd then c 0
        else if l ∈ x ∧ q.toNat ≠ 15 ∧ o.ty ≠ .f32 ∧ q = o.pd + 1 then c 1
        else (s.here.thread l).pred q

/-- Table 12.3: the result listed for an exact input, if one is. -/
def tableFn (fn : TFn) (v : FVal) : Option FVal :=
  let nonneg := fun (v : FVal) (z i : FVal) => match v with
    | .inf true => some FVal.nan
    | .fin s 0 _ => some (if s then z.neg else z)
    | .fin true _ _ => some .nan
    | .inf false => some i
    | _ => none
  match fn, v with
  | _, .nan => some .nan
  | .rcp, .inf s => some (.fin s 0 0)
  | .rcp, .fin s 0 _ => some (.inf s)
  | .rcp, _ => none
  | .rsq, .fin s 0 _ => some (.inf s)
  | .rsq, v => nonneg v (.inf false) (.fin false 0 0)
  | .sqrt, v => nonneg v (.fin false 0 0) (.inf false)
  | .exp2, .inf s => some (if s then .fin false 0 0 else .inf false)
  | .exp2, .fin s m e =>
      -- an integer n: 2 ^ n
      if 0 ≤ e then some (.fin false 1 (if s then -(m * 2 ^ e.toNat : Nat) else (m * 2 ^ e.toNat : Nat)))
      else if m % 2 ^ (-e).toNat = 0 then
        some (.fin false 1 (if s then -(m / 2 ^ (-e).toNat : Nat) else (m / 2 ^ (-e).toNat : Nat)))
      else none
  | .log2, .fin _ 0 _ => some (.inf true)
  | .log2, .fin false m e =>
      -- 2 ^ n: n
      if m = 2 ^ Nat.log2 m then some (ofIntExp ((Nat.log2 m : Int) + e) 0) else none
  | .log2, .fin true _ _ => some .nan
  | .log2, .inf s => some (if s then .nan else .inf false)
  | .sin, .inf _ | .cos, .inf _ => some .nan
  | .sin, .fin s 0 _ => some (.fin s 0 0)
  | .cos, .fin _ 0 _ => some (.fin false 1 0)
  | .sin, _ | .cos, _ => none

/-- R223, R224, R177, Table 12.3: the long-latency functions owe their result; the registers do not change at issue. Of an input
that Table 12.3 lists, in every type, mode and under .ftz and .sat, the result is the listed one. The values of other inputs are
the model's function `tfn`, within Table 12.4's bounds where the model's choice lets it be (assumption 16). -/
def Obligations.FloatFunctions : Prop :=
  (∀ (fn : TFn) (ty : FpTy) (r : Rnd) (sat ftz : Bool) (p : Nat) (y : FVal), r ≠ .rs →
    tableFn fn (if ftz then flush32 ((fpFmt ty).decode p) else (fpFmt ty).decode p) = some y →
    tfn fn (fpFmt ty) r sat ftz p = (fpFmt ty).out r sat ftz 0 y) ∧
  ∀ (s : State) (h : Hdr) (o : FpOp) (x : List Nat),
    FnOwes (.frcp h o) s h o .rcp x ∧ FnOwes (.fsqrt h o) s h o .sqrt x ∧ FnOwes (.frsq h o) s h o .rsq x ∧
    FnOwes (.fexp2 h o) s h o .exp2 x ∧ FnOwes (.flog2 h o) s h o .log2 x ∧ FnOwes (.fsin h o) s h o .sin x ∧
    FnOwes (.fcos h o) s h o .cos x

/-- R225, R226: sums of products in one rounding, and FP64. -/
def Obligations.FloatPairsDoubles : Prop :=
  ∀ (s : State) (h : Hdr) (o : FpOp) (x : List Nat),
    let rd := o.rnd == .rd
    let v := halfVal s o.ty
    (Runs (.dot2 h o) s h (fpSrc o 3) (o.d.names 1) x →
      Rounds (.dot2 h o) s x o.d false o.rnd 1 fun l => BitVec.ofNat 64
        (fF32.out o.rnd o.sat o.ftz (drawAt s o.rnd 1 l 0)
          (fsum [(v l o.a 0).mul (v l o.b 0), (v l o.a 1).mul (v l o.b 1), fpVal s .f32 o.ftz l o.c 0] rd))) ∧
    (Runs (.pfma h o) s h (fpSrc o 3) (o.d.names 1) x →
      Rounds (.pfma h o) s x o.d false o.rnd 2 fun l => fpPack .f16 fun i =>
        (fpFmt o.ty).out o.rnd o.sat false (drawAt s o.rnd 2 l i)
          (fsum [(v l o.a i).mul (v l o.b i), v l o.c i] rd)) ∧
    (Runs (.pfmaCx h o) s h (fpSrc o 3) (o.d.names 1) x →
      Rounds (.pfmaCx h o) s x o.d false o.rnd 2 fun l => fpPack .f16 fun i =>
        (fpFmt o.ty).out o.rnd o.sat false (drawAt s o.rnd 2 l i)
          (if i = 0 then fsum [(v l o.a 0).mul (v l o.b 0), ((v l o.a 1).mul (v l o.b 1)).neg, v l o.c 0] rd
           else fsum [(v l o.a 0).mul (v l o.b 1), (v l o.a 1).mul (v l o.b 0), v l o.c 1] rd)) ∧
    DoubleComputes (.dadd h o) s h o 2 x (fun a b _ => fsum [a, b] rd) ∧
    DoubleComputes (.dmul h o) s h o 2 x (fun a b _ => a.mul b) ∧
    DoubleComputes (.dfma h o) s h o 3 x (fun a b c => fsum [a.mul b, c] rd)

/-- An integer extended to a register by its type's signedness; with `clamp`, to the nearest number of the type (R62, R190). -/
def cvtInt (t : Ty) (clamp : Bool) (e : Int) : DWord := intReg (tyInt t) clamp e

/-- The value of a pattern of a type of cvt (R227), flushed where .ftz acts. -/
def cvtIn (o : CvtOp) (p : Nat) : FVal :=
  if o.tyFr.isFp then (let v := (tyFmt o.tyFr).decode p; if o.ftz ∧ o.tyFr = .f32 then flush32 v else v)
  else ofIntExp (if itySigned o.tyFr then (BitVec.ofNat (tyWidth o.tyFr) p).toInt else (p : Int)) 0

/-- R227 to R229, R231, R232, R62, R67: conversions, packing and keys; the cases of R227 and of R67 written out. -/
def Obligations.Conversions : Prop :=
  ∀ (s : State) (h : Hdr) (x : List Nat),
    let w := begin_ s
    (∀ o : CvtOp, Runs (.cvt h o) s h (o.a.names (if o.tyFr.wide then 2 else 1)) (o.d.names (if o.tyTo.wide then 2 else 1)) x →
      Rounds (.cvt h o) s x o.d o.tyTo.wide o.rnd 1 fun l =>
        let p := w.tyPat o.tyFr l o.a
        if o.tyTo.isFp then
          BitVec.ofNat 64 ((tyFmt o.tyTo).out o.rnd o.sat (o.ftz && o.tyTo == .f32) (drawAt s o.rnd 1 l 0) (cvtIn o p))
        else if o.tyFr.isFp then
          (match cvtIn o p with
            | .nan => 0
            | .inf sg => cvtInt o.tyTo true (if sg then -2 ^ 70 else 2 ^ 70)
            | .fin sg m e => cvtInt o.tyTo true (if sg then -(roundAt o.rnd sg m e 0 0 : Int) else roundAt o.rnd sg m e 0 0))
        else cvtInt o.tyTo o.sat
          (if itySigned o.tyFr then (BitVec.ofNat (tyWidth o.tyFr) p).toInt else (p : Int))) ∧
    (∀ o : PkOp, let n := o.fmt.packCount.getD 1
      Runs (.pk h o) s h (o.a.names n) (o.d.names 1) x →
      Rounds (.pk h o) s x o.d false o.rnd n fun l =>
        let el := tyElem o.fmt
        BitVec.ofNat 64 (((List.range n).map fun i =>
          let v := el.round o.rnd (drawAt s o.rnd n l i) (dec fF32 o.ftz (w.opRun l o.a i).toNat)
          2 ^ (el.width * i) * el.encode (if o.sat then el.sat v else v)).sum)) ∧
    (∀ o : UpkOp, Runs (.upk h o) s h (o.a.names 1) (o.d.names 1) x →
      Computes (.upk h o) s x o.d false true fun l =>
        let el := tyElem o.fmt
        BitVec.ofNat 64 (fF32.out .rne false o.ftz 0
          (el.decode ((s.op32 l o.a).toNat / 2 ^ (el.width * o.i.toNat) % 2 ^ el.width)))) ∧
    (∀ o : DqntOp, Runs (.dqnt h o) s h (o.a.names 1 ++ o.c.names 1) (o.d.names 1) x →
      Computes (.dqnt h o) s x o.d false true fun l =>
        let el := tyElem o.fmt
        let c := (s.op32 l o.c).toNat % 256
        let v := el.decode ((s.op32 l o.a).toNat / 2 ^ (el.width * o.i.toNat) % 2 ^ el.width)
        BitVec.ofNat 64 (fF32.out o.rnd false o.ftz 0 (if c = 255 then .nan else v.scale ((c : Int) - 127)))) ∧
    (∀ o : KeyOp, Runs (.keyx h o) s h (o.a.names (if o.ty.wide then 2 else 1)) (o.d.names (if o.ty.wide then 2 else 1)) x →
      let n := tyWidth o.ty
      let top := 2 ^ (n - 1)
      let ones := 2 ^ n - 1
      let nan := fun p => o.ty.isFp && (tyFmt o.ty).decode p == .nan
      let turn := fun k => if o.desc then ones - k else k
      Computes (.keyx h o) s x o.d o.ty.wide true fun l =>
        let p := w.tyPat o.ty l o.a
        let k := (if n = 64 then (s.op64 l o.a).toNat else (s.op32 l o.a).toNat) % 2 ^ n
        if o.inv then
          (if o.ty.isFp then
            let b := if top ≤ turn k then turn k - top else ones - turn k
            BitVec.ofNat 64 (if k = ones ∨ nan b = true then (tyFmt o.ty).nanBits else b)
          else if itySigned o.ty then (BitVec.ofNat n (turn k ^^^ top)).signExtend 64
          else BitVec.ofNat 64 (turn k))
        else BitVec.ofNat 64 (if nan p then ones else turn (
          if o.ty.isFp then (if p = top then top else if p < top then p + top else ones - p)
          else if itySigned o.ty then p ^^^ top else p)))

/-- R230, R66, R233 to R236, R80: blocks of the 32 lanes (quantisation, scans, quad differences), where a lane that does not
execute supplies +0 to qnt and the identity to scan; hist counts in the block's scratchpad, lane by lane, helpers apart, and owes
each lane the count it found. -/
def Obligations.BlockOperations : Prop :=
  (∀ (s : State) (h : Hdr) (x : List Nat),
    let w := begin_ s
    (∀ o : QntOp, Runs (.qnt h o) s h (o.a.names 1) (o.d.names 1) x →
      let el := tyElem o.fmt
      let r := quantise el o.rnd ((List.range 32).map fun l => drawAt s o.rnd 1 l 0)
        ((List.range 32).map fun l => if l ∈ x then fF32.decode (w.fop32 l o.a) else .fin false 0 0)
      Rounds (.qnt h o) s x o.d false o.rnd 1 fun l => BitVec.ofNat 64 (qntLane o.pk el.width r.1 r.2 l)) ∧
    (∀ o : ScanOp, Runs (.scan h o) s h (o.a.names 1) (o.d.names 1) x →
      let v := [1, 2, 4, 8, 16].foldl (fun v d => (List.range 32).map fun l =>
          if d ≤ l then scanStep o (v.getD (l - d) 0) (v.getD l 0) else v.getD l 0)
        ((List.range 32).map fun l =>
          if l ∈ x then (if o.ty = .f32 then fF32.encode (fpVal s .f32 o.ftz l o.a 0) else (s.op32 l o.a).toNat)
          else scanIdent o)
      Owes (.scan h o) s x o.d 1 fun l => .ready (readyWords o.d false (patExtend (o.ty == .i32) 32
        (if o.all then v.getD 31 0 else if o.excl then (if l = 0 then scanIdent o else v.getD (l - 1) 0)
         else v.getD l 0)))) ∧
    (∀ o : QdOp, Runs (.qdx h o) s h (o.a.names 1) (o.d.names 1) x →
      ∃ free : Nat → Word, Computes (.qdx h o) s x o.d false true fun l =>
        let p := if o.coarse ∨ l % 4 < 2 then (l / 4 * 4 + 1, l / 4 * 4) else (l / 4 * 4 + 3, l / 4 * 4 + 2)
        if p.1 ∈ x ∧ p.2 ∈ x then BitVec.ofNat 64 (fF32.out o.rnd false o.ftz 0
          (fsum [fpVal s .f32 o.ftz p.1 o.a 0, (fpVal s .f32 o.ftz p.2 o.a 0).neg] (o.rnd == .rd)))
        else (free l).zeroExtend 64) ∧
    (∀ o : QdOp, Runs (.qdy h o) s h (o.a.names 1) (o.d.names 1) x →
      ∃ free : Nat → Word, Computes (.qdy h o) s x o.d false true fun l =>
        let p := if o.coarse ∨ l % 2 = 0 then (l / 4 * 4 + 2, l / 4 * 4) else (l / 4 * 4 + 3, l / 4 * 4 + 1)
        if p.1 ∈ x ∧ p.2 ∈ x then BitVec.ofNat 64 (fF32.out o.rnd false o.ftz 0
          (fsum [fpVal s .f32 o.ftz p.1 o.a 0, (fpVal s .f32 o.ftz p.2 o.a 0).neg] (o.rnd == .rd)))
        else (free l).zeroExtend 64)) ∧
  ∀ (s : State) (h : Hdr) (o : HistOp) (x : List Nat),
    let k := fun l => spadKey s.here.blk ((s.op32 l o.base).toNat +
      4 * ((if o.wide then (s.op64 l o.key).toNat else (s.op32 l o.key).toNat) / 2 ^ o.shift.toNat % 2 ^ o.width.toNat))
    let hits := fun (ls : List Nat) l => ((realLanes s ls).filter fun m => k m == k l).length
    Runs (.hist h o) s h (o.key.names (if o.wide then 2 else 1) ++ o.base.names 1) (o.d.names 1) x →
    (∀ l ∈ x, (s.op32 l o.base).toNat % 4 = 0 ∧ (s.op32 l o.base).toNat + 4 * 2 ^ o.width.toNat ≤ 1024 * s.myBlk.spad) →
    s.here.acq = [] → (begin_ s).strongBefore s.d.cur.slot (realLanes s x) s.d.nextId = false →
    (∀ l ∈ realLanes s x, Sizes s (k l) 4 ((begin_ s).agentOf s.d.cur.slot) .blk s.here.vc ∧ Unread s (k l) 4) → memWf s.mem = true →
    Ends (.hist h o) s fun t =>
      (∀ l ∈ x, (begin_ t).load (k l) 4 = ((begin_ s).load (k l) 4 + hits x l) % 2 ^ 32) ∧
      (∀ a, (∀ l ∈ realLanes s x, a < k l ∨ k l + 4 ≤ a) → t.byte a = s.byte a) ∧
      Else (s.ordered t) t id (fun _ => id) id
        (owes s x o.d 1 fun l => .ready (readyWords o.d false (BitVec.ofNat 64
          (((begin_ s).load (k l) 4 + hits (x.takeWhile (· != l)) l) % 2 ^ 32)))) ∧
      SameAll s t ∧ Advances s t

/-! ### Regions, the extended set, hints, continuations -/

/-- R206, R41, R38 to R40, R211: operand regions, which must lie in the registers that the group has, and the extended set: grow,
its grant when the set is free, of two waiting groups to the one that waits longer (the model's choice: assumption 101), and
shrink. Where every group of the partition stalls, the oldest wait takes GROW_STALL, which enters the continuation when there is
one (as a step of its own: assumption 27; a stopped group takes none: assumption 104). -/
def Obligations.RegionsExtendedSet : Prop :=
  (∀ (s : State) (h : Hdr) (x : List Nat) (v1 v2 : BitVec 8) (n1 n2 : BitVec 5),
    let next := fun (_ : Nat) => s.d.cur.next
    let runs := (List.range n1.toNat).map (fun i => (i, v1 + BitVec.ofNat 8 i)) ++
      (List.range n2.toNat).map fun i => (n1.toNat + i, v2 + BitVec.ofNat 8 i)
    let grown := fun t => (∀ l n, n < 64 → t.here.readV l n = s.here.readV l n) ∧
      (∀ l n, 64 ≤ n → n < 256 → t.here.readV l n = 0) ∧ SameMem s t ∧ SameS s t ∧ SameB s t ∧ SameL s t ∧ SameP s t ∧
      MeetsAt t s.ms ∧ ∀ l ∈ s.d.cur.lanes, (s.here.thread l).st ≠ .exited → t.pc l = s.d.cur.next
    -- a V register that the group does not have: REG_RANGE, or EXT_NOTHELD where only that is the case
    ((v1.toNat + n1.toNat ≤ 256 ∧ v2.toNat + n2.toNat ≤ 256) → memWf s.mem = true → s.here.owed = [] →
      Runs (.region h v1 n1 v2 n2) s h [] [] x →
      let out := fun n => decide (8 * s.myBlk.vbase ≤ n) && decide (n < 64)
      let far := fun n => decide (64 ≤ n) && !s.here.extH
      let trap := fun c => Ends (.region h v1 n1 v2 n2) s fun t =>
        Trapped s t s.d.cur.slot s.d.cur.lanes (faultOf s c x s.d.cur.pc true)
      ((∃ r ∈ runs, out r.2.toNat = true) → trap cREG_RANGE) ∧
      ((∀ r ∈ runs, out r.2.toNat = false) → (∃ r ∈ runs, far r.2.toNat = true) → trap cEXT_NOTHELD)) ∧
    ((∀ r ∈ runs, vCheck s.myBlk.vbase s.here.extH r.2.toNat = 0) → Runs (.region h v1 n1 v2 n2) s h [] [] x →
      Moves (.region h v1 n1 v2 n2) s x (fun t => { t with q := runs }) next s.ms) ∧
    (Runs (.regionEnd h) s h [] [] x → Moves (.regionEnd h) s x (fun t => { t with q := [] }) next s.ms) ∧
    -- grow: already held; free, also for the group's other threads that wait in one; held by the partner, or awaited by it
    (s.here.extH = true → Runs (.grow h) s h [] [] x → Moves (.grow h) s x id next s.ms) ∧
    (s.here.extH = false → (s.grp (partner s.d.cur.slot)).extH = false → (s.grp (partner s.d.cur.slot)).growW = none →
      Runs (.grow h) s h [] [] x →
      Ends (.grow h) s fun t => grown t ∧
        Else s t (fun g => { g with extH := true, growW := none }) (fun _ => id) id [] ∧
        ∀ l, l ∉ s.d.cur.lanes → t.pc l = if l ∈ s.here.growers then
          s.pc l + BitVec.ofNat 57 (((s.here.thread l).wait.map Wait.len).getD 0) else s.pc l) ∧
    (s.here.extH = false → ((s.grp (partner s.d.cur.slot)).extH = true ∨ ((s.grp (partner s.d.cur.slot)).stop = none ∧
        ∃ c, (s.grp (partner s.d.cur.slot)).growW = some c ∧ c < s.here.growW.getD s.d.now)) → Runs (.grow h) s h [] [] x →
      Ends (.grow h) s fun t => SameMem s t ∧ SameAll s t ∧ t.here.growW = some (s.here.growW.getD s.d.now) ∧
        ∀ l ∈ x, (s.here.thread l).st ≠ .exited →
          (t.here.thread l).st = .waiting ∧ (t.here.thread l).wait.map Wait.why = some .grow ∧ t.pc l = s.pc l) ∧
    -- shrink
    (s.here.extH = false → Runs (.shrink h) s h [] [] x → Moves (.shrink h) s x id next s.ms) ∧
    (s.here.extH = true → (∀ e ∈ s.here.owed, ∀ l n, Reg.v l n ∈ e.dst → n < 64) → Runs (.shrink h) s h [] [] x →
      Ends (.shrink h) s fun t => grown t ∧ Advances s t ∧
        Else s t (fun g => { g with extH := false })
          (fun _ t => { t with q := t.q.filter fun m => decide (m.2.toNat < 64) }) id [])) ∧
  (∀ (s : State) (slot : Nat) (g : Group), s.slot? slot = some g → g.growW.isSome = true →
    (s.grp (partner slot)).extH = false →
    (∀ c c', g.growW = some c → (s.grp (partner slot)).growW = some c' → c < c') →
    -- a restored group takes its saved V64 to V255, and goes on if go has been given (R350)
    (∀ e, g.extIn = some e → slot < 65536 → Ends (.growGrant slot) s fun t => SameMem s t ∧ (∀ k, k ≠ slot → t.slot? k = s.slot? k) ∧
      ∃ g', t.slot? slot = some g' ∧ g'.extH = true ∧ g'.growW = none ∧ g'.extIn = none ∧ g'.sreg = g.sreg ∧
        g'.stop = (if e.go then none else g.stop) ∧ (∀ l n, n < 64 → g'.readV l n = g.readV l n) ∧
        ∀ l n v, l < 32 → 64 ≤ n → n < 256 → sget? e.regs (256 * l + n) = some v → (e.regs.map (·.1)).Nodup → g'.readV l n = v) ∧
    (g.extIn = none → g.stop = none → Ends (.growGrant slot) s fun t => SameMem s t ∧ (∀ k, k ≠ slot → t.slot? k = s.slot? k) ∧ t.d.blocks = s.d.blocks ∧
      ∃ g', t.slot? slot = some g' ∧ g'.extH = true ∧ g'.growW = none ∧ g'.sreg = g.sreg ∧
        (∀ l n, n < 64 → g'.readV l n = g.readV l n) ∧ (∀ l n, 64 ≤ n → n < 256 → g'.readV l n = 0) ∧
        ∀ l ∈ g.growers, ∃ wt, (g.thread l).wait = some wt ∧
          (g'.thread l).pc = (g.thread l).pc + BitVec.ofNat 57 wt.len ∧ (g'.thread l).wait = none)) ∧
  ∀ (s : State) (core part slot c : Nat) (g : Group), slot ∈ partSlots core part → s.slot? slot = some g →
    (begin_ s).groupLive slot = true → g.growW = some c → g.growers ≠ [] → g.stop = none → g.pendFault = none → g.cv = true → g.anyParked = false → g.owed = [] →
    (∀ k ∈ partSlots core part, (begin_ s).groupLive k = true → (begin_ s).stalled k = true ∧
      ∀ c', (s.grp k).growW = some c' → (s.grp (partner k)).extH = true ∧ (k = slot ∨ c < c')) →
    Ends (.growStall core part) s fun t => SameMem s t ∧ (∀ k, k ≠ slot → t.slot? k = s.slot? k) ∧
      ∃ g', t.slot? slot = some g' ∧ g'.growW = (if g'.growers = [] ∧ g.extIn = none then none else some c) ∧
        (∀ l ∈ g.firstGrowers, (g'.thread l).pc = g.contPc ∧ (g'.thread l).parked = true ∧
          ((g'.thread l).st = .runnable ∨ ((g'.thread l).st = .held ∧ (g'.thread l).m = some g.contPc))) ∧
        g'.readS g.contTok = BitVec.ofNat 64 cGROW_STALL ∧
        (∀ l n, g'.readV l n = g.readV l n) ∧ ∃ pk, g'.pk = some pk ∧ pk.cause = cGROW_STALL ∧ pk.signalled = false

/-- R208 to R211: hints, continuations and the return of parked threads. -/
def Obligations.HintsContinuations : Prop :=
  ∀ (s : State) (h : Hdr) (x : List Nat) (b e : BitVec 8) (sp : BitVec 16) (tok : BitVec 6) (ofs : Word),
    let next := fun (_ : Nat) => s.d.cur.next
    let act := fun i G => Acts i s G (fun _ => id) id next s.ms
    (s.myBlk.preq = none → Runs (.phint h b e sp) s h [] [] x →
      act (.phint h b e sp) fun g => { g with mBase := b, mExt := e, mSpad := sp }) ∧
    (s.myBlk.preq.isSome = true → (∀ l < 32, l ∈ x ↔ (s.here.thread l).st = .runnable) →
      Runs (.phint h b e sp) s h [] [] x → act (.phint h b e sp) fun g =>
        { g with mBase := b, mExt := e, mSpad := sp, stop := some .phint, active := false }) ∧
    (Runs (.contSet h tok ofs) s h [] [] x →
      act (.contSet h tok ofs) fun g => { g with cv := true, contPc := relAddr s ofs, contTok := tok.toNat }) ∧
    (Runs (.contSetClr h) s h [] [] x → act (.contSetClr h) fun g => { g with cv := false, contPc := 0 }) ∧
    ((∀ l ∈ x, (s.here.thread l).parked = false) → Runs (.contResume h tok) s h [.s tok.toNat] [] x →
      act (.contResume h tok) id) ∧
    ∀ pk, s.here.pk = some pk → pk.tok = tok.toNat → pk.signalled = true →
      (∀ l < 32, (s.here.thread l).parked = true → l ∈ x) → (∃ l ∈ x, (s.here.thread l).parked = true) →
      Runs (.contResume h tok) s h [.s tok.toNat] [] x →
      Acts (.contResume h tok) s (fun g => { g with pk := none })
        (fun l t => if l ∈ x then { t with parked := false } else t) id
        (fun l => if l ∈ x ∧ (s.here.thread l).parked = true then pk.pc else s.d.cur.next) s.ms

/-! ### Traps, naps, exits -/

/-- R212, R345, R342: trap stops the group behind itself, brkpt at itself, once every owed result has landed; R38, R41, R44, R63: an
instruction that names a register it may not traps at issue, and writes none (a mov for the registers, an mx.zero for the
accumulators). -/
def Obligations.TrapInstructions : Prop :=
  ∀ (s : State) (h : Hdr) (x : List Nat) (code : BitVec 8), memWf s.mem = true → s.here.owed = [] →
    (Runs (.trap h code) s h [] [] x →
      Ends (.trap h code) s fun t =>
        Trapped s t s.d.cur.slot s.d.cur.lanes (faultOf s cUSER_TRAP x s.d.cur.next false) ∧
        Jumps s t fun _ => s.d.cur.next) ∧
    (Runs (.brkpt h) s h [] [] x →
      Ends (.brkpt h) s fun t =>
        Trapped s t s.d.cur.slot s.d.cur.lanes (faultOf s cBRKPT x s.d.cur.pc true) ∧
        Jumps s t fun _ => s.d.cur.pc) ∧
    ∀ (i : Instr) (src dst : List Named) (c : Nat),
      ((∃ o, i = .mov h o ∧ src = intSrc o 1 ∧ dst = intDst o) ∨ ∃ acc, i = .mxZero h acc ∧ src = [.a acc.toNat] ∧ dst = []) →
      Stands s h src dst x → Misnames s x src dst c →
      Ends i s fun t => Trapped s t s.d.cur.slot s.d.cur.lanes (faultOf s c x s.d.cur.pc true) ∧ SameAll s t

/-- R203, R202, R14: nap waits in its threads, until their cycles have passed; exit ends threads. -/
def Obligations.NapExit : Prop :=
  (∀ (s : State) (h : Hdr) (x : List Nat) (a : Opnd), Runs (.nap h a) s h (a.names 1) [] x →
    Ends (.nap h a) s fun t => SameMem s t ∧ SameAll s t ∧
      ∀ l ∈ x, (s.here.thread l).st ≠ .exited → (t.here.thread l).st = .waiting ∧ t.pc l = s.pc l ∧
        ∃ ns, (t.here.thread l).wait.map Wait.why = some (.nap s.d.now ns) ∧
          napOf ns l = (s.op32 l a).toNat % 65536) ∧
  (∀ (s : State) (slot lane start : Nat) (g : Group) (wt : Wait) (ns : List (Nat × Nat)), lane < 32 →
    s.slot? slot = some g → (g.thread lane).st = .waiting → (g.thread lane).wait = some wt →
    wt.why = .nap start ns → start + napOf ns lane ≤ s.d.now →
    Ends (.napExpiry slot lane) s fun t => SameMem s t ∧ (∀ k, k ≠ slot → t.slot? k = s.slot? k) ∧
      ∃ g', t.slot? slot = some g' ∧ (g'.thread lane).wait = none ∧
        (g'.thread lane).pc = (g.thread lane).pc + BitVec.ofNat 57 wt.len ∧ g'.v = g.v ∧ g'.sreg = g.sreg) ∧
  ∀ (s : State) (h : Hdr) (x : List Nat), Runs (.exit h) s h [] [] x →
    Ends (.exit h) s fun t =>
      (∀ l ∈ x, (t.here.thread l).st = .exited ∧ (t.here.thread l).m = none ∧ (t.here.thread l).q = []) ∧
      SameMem s t ∧ SameV s t ∧ SameS s t ∧ SameB s t ∧
      ∀ l ∈ s.d.cur.lanes, l ∉ x → (s.here.thread l).st ≠ .exited → t.pc l = s.d.cur.next

/-! ### Special and privileged registers -/

/-- R47, R213, R214, R320: every special register of Table 2.4 is read into its destination; a privileged one, which needs
privileged mode (`DecodeRefuses`), as the device holds it; wrsp writes SRSEED. -/
def Obligations.SpecialRegisters : Prop :=
  ∀ (s : State) (h : Hdr) (x : List Nat) (d : Dst) (num : BitVec 10) (a : Opnd),
    let n := num.toNat
    (n < 0x40 → Runs (.rdsp h d num) s h [] (d.names (if regWide n then 2 else 1)) x →
      Computes (.rdsp h d num) s x d (regWide n) true fun l => userVal s l n) ∧
    (0x40 ≤ n → Runs (.rdsp h d num) s h [] (d.names (if regWide n then 2 else 1)) x →
      Computes (.rdsp h d num) s x d (regWide n) true fun _ => (begin_ s).privReg n) ∧
    (0x40 ≤ n → Runs (.rdpriv h d num) s h [] (d.names (if regWide n then 2 else 1)) x →
      Computes (.rdpriv h d num) s x d (regWide n) true fun _ => (begin_ s).privReg n) ∧
    (n < 0x40 → Runs (.rdpriv h d num) s h [] (d.names (if regWide n then 2 else 1)) x →
      Computes (.rdpriv h d num) s x d (regWide n) true fun l => userVal s l n) ∧
    (Runs (.wrsp h 0x08 a) s h (a.names 2) [] x →
      Acts (.wrsp h 0x08 a) s id (fun l t => if l ∈ x then { t with seed := s.op64 l a } else t) id
        (fun _ => s.d.cur.next) s.ms)

/-- R6, R214, R320, R335, R355, R360: a thread's write of a privileged register keeps the bits that its table gives it and
changes no other register. PBUDGET is at most 0x4B0, and only a write of 0 to SODROP has an effect (both the model's choice:
assumption 54). -/
def Obligations.PrivilegedWrites : Prop :=
  ∀ (s : State) (h : Hdr) (l : Nat) (num : BitVec 10) (a : Opnd),
    let n := num.toNat
    let v := privVal s n l a
    Runs (.wrpriv h num a) s h (a.names (if regWide n then 2 else 1)) [] [l] →
    (begin_ s).passed.strongBefore s.d.cur.slot [l] s.d.nextId = false →
    (∀ m, privMask n = some m →
      Ends (.wrpriv h num a) s fun t => WrotePriv s t n (v &&& BitVec.ofNat 64 m)) ∧
    (n = 0x198 → Ends (.wrpriv h num a) s fun t =>
      WrotePriv s t n (BitVec.ofNat 64 (min (v.toNat % 65536) 0x4B0))) ∧
    (n = 0x108 → v = 0 → Ends (.wrpriv h num a) s fun t => WrotePriv s t n 0) ∧
    (n = 0x108 → v ≠ 0 → Ends (.wrpriv h num a) s fun t => WrotePriv s t n ((begin_ s).privReg n))

/-! ### Memory -/

/-- R30, R80, R86, R237, R239, R241, R242, R341: a scratchpad load's value is the scratchpad's at issue and lands by R177; global,
constant and local loads are owed with their physical addresses and perform later; a helper's load that fails gives zero. That
scratchpad accesses perform as they issue is the model's choice (assumption 110). -/
def Obligations.Loads : Prop :=
  ∀ (s : State) (h : Hdr) (o : MemOp) (x : List Nat) (pay : Nat → Payload), s.here.acq = [] →
    (o.space = .s → o.strong = true → (begin_ s).passed.strongBefore s.d.cur.slot x s.d.nextId = false ∧
      ∀ l ∈ x, SpadOk s o true l → SpadSizes s o true l) →
    let done := fun (i : Instr) => Ends i s fun t => SameMem s t ∧ Kept s t ∧ (∀ c, t.path c = s.path c) ∧
      t.here.still = s.here.still ∧ t.here.acks = s.here.acks ∧ (o.ord = .rlx ∨ o.space = .s → t.here.acq = []) ∧
      owedOf t.here = owedOf s.here ++ owesAll s x o.d (regCount o.ty.bytes) pay
    ((∀ l ∈ x, LoadGives s o false x l (pay l)) → Runs (.ld h o) s h (memSrc o true) (memDst o) x → done (.ld h o)) ∧
    ((∀ l ∈ x, LoadGives s o true x l (pay l)) → Runs (.ldv h o) s h (memSrc o true) (memDst o) x → done (.ldv h o))

/-- R177, R42, R86, R239: a known result whose window is over lands in its registers and is owed no longer, unless a later one
owed meanwhile, inside the window, has a register of it; a weak load that nothing of its core meets takes its home's bytes,
extended by its type, and is then known. The bytes do not ride the Carousel. -/
def Obligations.LoadsLand : Prop :=
  (∀ (s : State) (slot k : Nat) (src : LoadSrc) (g : Group) (e : Owed) (w lo hi : Word),
    s.slot? slot = some g → g.owed[k]? = some e → (∀ p ∈ e.wins, p.2 = 0) →
    (∀ o ∈ g.owed, e.id < o.id → ∀ r ∈ e.dst, r ∉ o.dst) →
    let done := fun (P : Group → Prop) => Ends (.resultLand slot k src) s fun t => SameMem s t ∧
      (∀ j, j ≠ slot → t.slot? j = s.slot? j) ∧ t.d.cores = s.d.cores ∧ t.d.dies = s.d.dies ∧
      ∃ g', t.slot? slot = some g' ∧ g'.owed = (g.owed.filter fun o => o.id != e.id) ∧ g'.thr = g.thr ∧ P g'
    (∀ l n, l < 32 → n < 256 → e.dst = [.v l n] → e.pay = .ready [w] →
      done fun g' => g'.readV l n = w ∧ g'.sreg = g.sreg ∧
        ∀ l' m, m < 256 → ¬(l' = l ∧ m = n) → g'.readV l' m = g.readV l' m) ∧
    (∀ n, e.dst = [.s n] → e.pay = .ready [lo, hi] →
      done fun g' => g'.readS n = hi ++ lo ∧ g'.v = g.v ∧ ∀ m, m ≠ n → g'.readS m = g.readS m)) ∧
  ∀ (s : State) (slot k : Nat) (g : Group) (e : Owed) (p : LoadP) (d : Nat),
    s.slot? slot = some g → g.owed[k]? = some e → e.pay = .load p →
    (∀ o ∈ g.owed, ∀ q, o.pay = .load q → o.id < e.id → q.lane = p.lane → ∀ r ∈ q.pieces, p.meets r.1 r.2 = false) →
    (∀ d ∈ s.d.dies, ∀ o ∈ d.2.ringQ, o.slot ≠ some slot) → s.path (slotCore slot) = [] →
    (begin_ s).lateBefore [(p.pa, p.n)] false ((begin_ s).agentOf slot) none e.id p.passed = false → p.more = [] → p.strong = false → p.acq = false → 0 < p.n → p.pa + p.n ≤ 2 ^ 57 →
    homeOf s.d p.pa = .die d → homeUp s.d p.pa = true → homeFailed s.d p.pa = false → (begin_ s).poisoned p.pa = false →
    NoRide s p.pa p.n →
    Ends (.resultLand slot k .home) s fun t => SameMem s t ∧ (∀ j, j ≠ slot → t.slot? j = s.slot? j) ∧
      ∃ g', t.slot? slot = some g' ∧ g'.v = g.v ∧ g'.sreg = g.sreg ∧ g'.thr = g.thr ∧
        (g'.owed.map fun o => (o.id, o.dst)) = (g.owed.map fun o => (o.id, o.dst)) ∧
        ∀ o ∈ g'.owed, o.id = e.id → o.pay = .ready (valWords p.wide p.n p.ext ((begin_ s).load p.pa p.n))

/-- R80, R86, R93, R98, R237, R239, R243, R341, R358: a store to the scratchpad, of lanes whose ranges do not meet, changes their
bytes and no other (barrier objects in use apart: R256); one to global or local memory enters the core's write path lane by lane, and
memory changes only when it performs. A home on another die brings an acknowledgement. Writes to scale-out space are sends, counted as
one operation of their class, and wait for the link layer. A scratchpad store performs as it issues (the model's choice: assumption
110). -/
def Obligations.Stores : Prop :=
  (∀ (s : State) (h : Hdr) (o : MemOp) (x : List Nat),
    let y := realLanes s x
    s.here.acq = [] → memWf s.mem = true → (∀ l ∈ y, SpadOk s o true l ∧ SpadFree s o true l) →
    Apart y (spadAt s o true) o.ty.bytes → (o.ord = .rel → (begin_ s).passed.fenceOk s.d.cur.slot o.scope = true) →
    (o.strong = true → (begin_ s).passed.strongBefore s.d.cur.slot x s.d.nextId = false ∧ ∀ l ∈ y, SpadSizes s o true l) →
    Runs (.st h o) s h (memSrc o true ++ o.data.names (regCount o.ty.bytes)) [] x →
    Ends (.st h o) s fun t => Kept s t ∧ (∀ c, t.path c = s.path c) ∧ t.here.still = s.here.still ∧
      t.here.acq = [] ∧ t.here.acks = s.here.acks ∧ owedOf t.here = owedOf s.here ∧
      (∀ l ∈ y, (begin_ t).load (spadAt s o true l) o.ty.bytes = memData s o l % 256 ^ o.ty.bytes) ∧
      ∀ a, (∀ l ∈ y, a < spadAt s o true l ∨ spadAt s o true l + o.ty.bytes ≤ a) → t.byte a = s.byte a) ∧
  ∀ (s : State) (h : Hdr) (o : MemOp) (x : List Nat) (parts : Nat → List (Nat × Nat × Nat)),
    let y := realLanes s x
    let c := slotCore s.d.cur.slot
    let here := fun l => (parts l).filter fun p => (sendOf s p).isNone
    let sends := y.flatMap fun l => (parts l).filterMap (sendOf s)
    let sys := decide (o.ord = .rel ∧ o.scope = .sys)
    s.here.acq = [] → (∀ l ∈ y, StoreParts s o l (parts l)) →
    (o.ord = .rel → (begin_ s).passed.fenceOk s.d.cur.slot o.scope = true) →
    Runs (.st h o) s h (memSrc o true ++ o.data.names (regCount o.ty.bytes)) [] x →
    Ends (.st h o) s fun t => SameMem s t ∧ Kept s t ∧ owedOf t.here = owedOf s.here ∧
      { t.here.still with cnt := [] } = { s.here.still with cnt := [] } ∧ t.here.acq = [] ∧ t.here.acks = s.here.acks +
        ((y.flatMap here).filter fun p => homeOf s.d p.1 != .die (slotDie s.d.cur.slot)).length ∧
      (t.path c).map WEntry.what = (s.path c).map WEntry.what ++ y.flatMap (fun l => (here l).map fun p =>
        (s.d.cur.slot, l, p.1, p.2.1, p.2.2, WKind.store, o.strong)) ∧ (∀ k, k ≠ c → t.path k = s.path k) ∧
      (t.d.pkg.sends.map fun d => (d.slot, (d.sys, d.ofs, d.data), d.fenced)) =
        (s.d.pkg.sends.map fun d => (d.slot, (d.sys, d.ofs, d.data), d.fenced)) ++ sends.map (fun d => (s.d.cur.slot, d, sys)) ∧
      (∀ k, t.here.count k = s.here.count k + if k = .send ∧ sends ≠ [] then 1 else 0) ∧
      (sends = [] → t.d.ops = s.d.ops) ∧
      (sends ≠ [] → ∃ e, t.d.ops = s.d.ops ++ [e] ∧ e.cls = .send ∧ e.slots = [s.d.cur.slot] ∧ e.left = sends.length ∧ e.tok = none)

/-- R86, R92, R93: a store performs at its home: its bytes are in memory and no others change; the completion revolution enters
HORIZON where the home is on the core's die, else an acknowledgement arrives; groups whose loads raced it wait for it no longer (R89).
-/
def Obligations.StoresPerform : Prop :=
  ∀ (s : State) (core k d : Nat) (e : WEntry) (g : Group),
    (s.path core)[k]? = some e → e.kind = .store → e.strong = false → e.acq = false → memWf s.mem = true →
    homeOf s.d e.pa = .die d → s.d.rideOf e.pa = none →
    homeFailed s.d e.pa = false → (begin_ s).mayPerform core k e = true → s.slot? e.slot = some g →
    Ends (.storePerform core k) s fun t =>
      (begin_ t).load e.pa e.n = e.data % 256 ^ e.n ∧ (∀ a, a < e.pa ∨ e.pa + e.n ≤ a → t.byte a = s.byte a) ∧
      t.path core = (s.path core).filter (fun o => o.id != e.id) ∧ (∀ c, c ≠ core → t.path c = s.path c) ∧
      (∀ j, j ≠ e.slot → t.slot? j = (s.slot? j).map fun g => { g with acq := g.acq.filter fun a => a != e.id }) ∧
      ∃ g', t.slot? e.slot = some g' ∧ g'.v = g.v ∧ g'.sreg = g.sreg ∧ g'.thr = g.thr ∧
        (if d = coreDie core then g'.horizon = max g.horizon (homeCount s.d.now) ∧ g'.acks = g.acks
         else g'.acks = g.acks - 1 ∧ g'.horizon = g.horizon)

/-- R80, R98, R245, R246, Table 13.3: atomics on the scratchpad, of lanes whose words do not meet, store the new value and give the
old one; on global memory atomics and reductions enter the write path: an atomic owes its old value, a reduction is one
operation of the GS class, here of lanes with different addresses. Which lane's value an S or B register takes, helpers among the
executing lanes, and when scratchpad atomics perform, are the model's choices (assumptions 109, 110). -/
def Obligations.Atomics : Prop :=
  (∀ (s : State) (h : Hdr) (o : MemOp) (x : List Nat) (op : AOp),
    let y := realLanes s x
    let n := o.ty.bytes
    let old := fun u l => (begin_ s).load (spadAt s o u l) n
    s.here.acq = [] → memWf s.mem = true → (∀ e ∈ s.here.owed, e.id < s.d.nextId) →
    ((o.ord = .rel ∨ o.ord = .acqrel) → (begin_ s).passed.fenceOk s.d.cur.slot o.scope = true) →
    (begin_ s).passed.strongBefore s.d.cur.slot y s.d.nextId = false →
    let done := fun (i : Instr) (u : Bool) (new : Nat → Nat) => Ends i s fun t =>
      Kept s t ∧ (∀ c, t.path c = s.path c) ∧ t.here.still = s.here.still ∧ t.here.acq = [] ∧ t.here.acks = s.here.acks ∧
      owedOf t.here = owedOf s.here ++ owes s y o.d (regCount n) (fun l => .ready (loadWords o.d n (memSigned o) (old u l))) ∧
      (∀ l ∈ y, (begin_ t).load (spadAt s o u l) n = new l % 256 ^ n) ∧
      ∀ a, (∀ l ∈ y, a < spadAt s o u l ∨ spadAt s o u l + n ≤ a) → t.byte a = s.byte a
    (y ≠ [] → (∀ l ∈ y, SpadOk s o true l ∧ SpadFree s o true l ∧ SpadSizes s o true l) → Apart y (spadAt s o true) n →
      Runs (.atom h op o) s h (memSrc o true ++ o.data.names (regCount n)) (memDst o) x →
      done (.atom h op o) true fun l => atomNew op o.ty (old true l) (atomData s o l)) ∧
    (y ≠ [] → (∀ l ∈ y, SpadOk s o false l ∧ SpadFree s o false l ∧ SpadSizes s o false l) → Apart y (spadAt s o false) n →
      Runs (.atomCas h o) s h (memSrc o false ++ o.data.names (regCount n) ++ o.off.names (regCount n)) (memDst o) x →
      done (.atomCas h o) false fun l =>
        if old false l = (begin_ s).opBytes l o.off n then atomData s o l else old false l)) ∧
  ∀ (s : State) (h : Hdr) (o : MemOp) (x : List Nat) (op : AOp) (lf : Nat → Leaf),
    let y := realLanes s x
    let n := o.ty.bytes
    let c := slotCore s.d.cur.slot
    s.here.acq = [] →
    ((o.ord = .rel ∨ o.ord = .acqrel) → (begin_ s).passed.fenceOk s.d.cur.slot o.scope = true) →
    let done := fun (i : Instr) (kind : Nat → WKind) => Ends i s fun t => SameMem s t ∧ Kept s t ∧ t.here.still = s.here.still ∧
      owedOf t.here = owedOf s.here ++ owes s y o.d (regCount n) (fun _ => .pend) ∧
      (t.path c).map WEntry.what = (s.path c).map WEntry.what ++ y.map (fun l =>
        (s.d.cur.slot, l, (lf l).pa, n, atomData s o l, kind l, true)) ∧ ∀ k, k ≠ c → t.path k = s.path k
    (o.space = .g → (∀ l ∈ y, GlobOk s o true .rmw l (lf l)) →
      Runs (.atom h op o) s h (memSrc o true ++ o.data.names (regCount n)) (memDst o) x →
      done (.atom h op o) fun _ => .atomic op) ∧
    (o.space = .g → (∀ l ∈ y, GlobOk s o false .rmw l (lf l)) →
      Runs (.atomCas h o) s h (memSrc o false ++ o.data.names (regCount n) ++ o.off.names (regCount n)) (memDst o) x →
      done (.atomCas h o) fun l => .cas ((begin_ s).opBytes l o.off n)) ∧
    ((∀ l ∈ y, GlobOk s o true .rmw l (lf l)) → (∀ k ∈ y, ∀ l ∈ y, k ≠ l → memEa s o true k ≠ memEa s o true l) →
      Runs (.red h op o) s h (memSrc o true ++ o.data.names (regCount n)) [] x →
      Ends (.red h op o) s fun t => SameMem s t ∧ Kept s t ∧ owedOf t.here = owedOf s.here ∧
        t.here.count .gs = s.here.count .gs + 1 ∧ t.d.ops.length = s.d.ops.length + 1 ∧
        (t.path c).map WEntry.what = (s.path c).map WEntry.what ++ y.map (fun l =>
          (s.d.cur.slot, l, (lf l).pa, n, atomData s o l, WKind.red op s.d.nextId, false)) ∧
        ∀ k, k ≠ c → t.path k = s.path k)

/-- R77, R91, R94, R244, R341, R88, R370: a prefetch of a global, constant or local byte takes a lease, where no peer offers the
sector of a page that is only read; copies end; an access of another size is reported. -/
def Obligations.CopiesReports : Prop :=
  (∀ (s : State) (h : Hdr) (o : MemOp) (l : Nat) (lf : Leaf) (d : Nat),
    (GlobOk s o true .load l lf ∨ LocOk s o .load l [lf]) →
    Runs (.pf h o) s h (memSrc o true) [] [l] →
    d = slotDie s.d.cur.slot → homeOf s.d lf.pa = .die d → d = coreDie (slotCore s.d.cur.slot) →
    (begin_ s).writeComing lf.pa = false → (s.d.die d).slots = [] →
    (∀ c ∈ (s.d.core (slotCore s.d.cur.slot)).copies, c.sector ≠ sectorOf lf.pa) →
    (o.space = .c ∨ (o.space = .g ∧ lf.wr = false) → (begin_ s).peerCopies (slotCore s.d.cur.slot) lf.pa = []) →
    Ends (.pf h o) s fun t => SameMem s t ∧ SameAll s t ∧ Advances s t ∧ (∀ c, t.path c = s.path c) ∧
      (t.d.core (slotCore s.d.cur.slot)).copies = (s.d.core (slotCore s.d.cur.slot)).copies ++
        [{ sector := sectorOf lf.pa, endRev := homeCount s.d.now + lf.lease, remote := false, hist := [] }] ∧
      homeCount s.d.now + lf.lease ≤ sget (t.d.die d).leases (lineOf lf.pa) 0) ∧
  (∀ (s : State) (core k : Nat) (c : L1Copy), (s.d.core core).copies[k]? = some c →
    c.endRev ≤ coreCount s.d.now core →
    let dropped := fun t => SameMem s t ∧ (t.d.core core).copies = (s.d.core core).copies.eraseIdx k ∧
      t.d.groups = s.d.groups ∧ t.d.blocks = s.d.blocks ∧ ∀ j, j ≠ core → t.d.core j = s.d.core j
    (c.remote = false → Ends (.leaseExpiry core k) s dropped) ∧
    (c.remote = true → Ends (.remoteCopyDrop core k) s dropped)) ∧
  ∀ (s : State) (core k : Nat) (e : WEntry) (g : Group), ((s.path core).filter WEntry.strong)[k]? = some e →
    s.slot? e.slot = some g → g.hmix = none → (begin_ s).mixMode e.pa = true → (begin_ s).mixed e.pa e.n = true →
    Ends (.mixsizeReport core k) s fun t => SameMem s t ∧
      t.path core = (s.path core).filter (fun o => o.id != e.id) ∧
      ∃ g', t.slot? e.slot = some g' ∧ g'.hmix = some { addr := e.va, instr := e.instr, lanes := e.lanes } ∧
        g'.v = g.v ∧ g'.sreg = g.sreg ∧ g'.thr = g.thr

/-- R72, R188, R237, R345: an access of one lane that is not aligned to its size, or lies outside its space, takes MISALIGN,
ADDR_RANGE, SPAD_RANGE or LOCAL_RANGE with its address; nothing is read or written but the frame. -/
def Obligations.MisalignedTraps : Prop :=
  ∀ (s : State) (h : Hdr) (o : MemOp) (l c : Nat) (op : AOp), memWf s.mem = true → s.here.owed = [] → s.here.acq = [] →
    (s.here.thread l).helper = false →
    let trap := fun i u => Ends i s fun t => Trapped s t s.d.cur.slot s.d.cur.lanes
      { faultOf s c [l] s.d.cur.pc true with addr := BitVec.ofInt 57 (memEa s o u l) }
    let src := memSrc o true ++ o.data.names (regCount o.ty.bytes)
    (FailsAs s o true l c →
      (Runs (.ld h o) s h (memSrc o true) (memDst o) [l] → trap (.ld h o) true) ∧
      (Runs (.ldv h o) s h (memSrc o true) (memDst o) [l] → trap (.ldv h o) true) ∧
      (Runs (.st h o) s h src [] [l] → trap (.st h o) true) ∧
      (Runs (.atom h op o) s h src (memDst o) [l] → trap (.atom h op o) true) ∧
      (Runs (.red h op o) s h src [] [l] → trap (.red h op o) true)) ∧
    (FailsAs s o false l c →
      Runs (.atomCas h o) s h (memSrc o false ++ o.data.names (regCount o.ty.bytes) ++ o.off.names (regCount o.ty.bytes))
        (memDst o) [l] → trap (.atomCas h o) false)

/-! ### Synchronisation -/

/-- R100, R104, R248 to R250: a fence and a counter wait complete when their waits are over, and hold their lanes until then; a
fence at .quad or wider drops the core's remote-die copies. wait.v on scratchpad and on global words: lanes whose condition
holds go on; the others wait, and a reread looks again. -/
def Obligations.FencesWaits : Prop :=
  (∀ (s : State) (h : Hdr) (x : List Nat) (sc : Scope) (c : Cls) (n : Opnd),
    (Runs (.fence h sc) s h [] [] x →
      (FenceMet s sc → Ends (.fence h sc) s fun t => Synced s t ∧ t.here.unsynced = s.here.unsynced ∧
        (sc ≠ .grp → sc ≠ .blk → ∀ k ∈ (t.d.core (slotCore s.d.cur.slot)).copies, k.remote = false)) ∧
      (¬ FenceMet s sc → Waits (.fence h sc) s x)) ∧
    (s.d.cur.stamped = false → Runs (.waitc h c n) s h (n.names 1) [] x →
      (s.here.count c ≤ (s.op32 (x.headD 0) n).toNat →
        Acts (.waitc h c n) s id (fun _ => id) id (fun _ => s.d.cur.next) s.ms) ∧
      ((s.op32 (x.headD 0) n).toNat < s.here.count c → Waits (.waitc h c n) s x))) ∧
  (∀ (s : State) (h : Hdr) (o : WaitVOp) (x : List Nat) (lf : Nat → Leaf),
    let n := o.ty.bytes
    let ea := waitEa s o
    let me := (begin_ s).agentOf s.d.cur.slot
    s.d.cur.stamped = false → s.here.acq = [] → (∀ l ∈ x, ea l % n = 0) →
    Runs (.waitV h o) s h (o.base.names (if o.shared then 1 else 2) ++ o.a.names (if o.ty.wide then 2 else 1)) [] x →
    (o.shared = true → (∀ l ∈ x, 0 ≤ ea l ∧ ea l + n ≤ 1024 * s.myBlk.spad) →
      (∀ l ∈ x, (begin_ s).strongBefore s.d.cur.slot [l] s.d.nextId = false ∧
        Sizes s (spadKey s.here.blk (ea l).toNat) n me o.scope s.here.vc) →
      let v := fun l => (begin_ s).load (spadKey s.here.blk (ea l).toNat) n
      ((∀ l ∈ x, waitHolds s o l (v l)) → Ends (.waitV h o) s fun t => Synced s t ∧ t.here.still = s.here.still) ∧
      ((∀ l ∈ x, ¬ waitHolds s o l (v l)) → Waits (.waitV h o) s x)) ∧
    (o.shared = false →
      (∀ l ∈ x, ea l < 2 ^ 57 ∧
        (begin_ s).translate (slotDie s.d.cur.slot) (ea l).toNat .load (!s.myBlk.priv) = .ok (lf l) ∧
        homeUp s.d (lf l).pa = true ∧ homeFailed s.d (lf l).pa = false ∧ (begin_ s).poisoned (lf l).pa = false ∧
        NoRide s (lf l).pa n ∧ (begin_ s).strongBefore s.d.cur.slot [l] s.d.nextId = false ∧
        (∀ e ∈ s.d.cores, ∀ q ∈ e.2.path, overlap q.pa q.n (lf l).pa n = false) ∧
        (begin_ s).ringBefore s.d.cur.slot l (lf l).pa s.d.nextId = false ∧
        (begin_ s).loadBefore s.d.cur.slot [l] s.d.nextId [((lf l).pa, n)] = false ∧
        (begin_ s).lateBefore [((lf l).pa, n)] false me (some o.scope) s.d.nextId none = false ∧
        ((begin_ s).mixMode (lf l).pa = false ∨ (begin_ s).mixed (lf l).pa n = false) ∧
        Sizes s (lf l).pa n me o.scope s.here.vc ∧ (begin_ s).isEntry ((lf l).pa / 16 * 16) = false ∧
        waitHolds s o l ((begin_ s).load (lf l).pa n)) →
      Ends (.waitV h o) s fun t => Synced s t ∧ t.here.still = s.here.still)) ∧
  ∀ (s : State) (slot l key a id : Nat) (g : Group) (wt : Wait) (h : Hdr) (o : WaitVOp) (args : List (Nat × List Nat))
    (more : List Nat),
    l < 32 → s.slot? slot = some g → g.stop = none → (∀ k < 32, (g.thread k).st = .waiting ↔ k = l) →
    (g.thread l).wait = some wt → decode true wt.word = .ok (.waitV h o) → wt.why = .cont args →
    (args.find? fun p => p.1 == l) = some (l, key :: a :: id :: more) → o.shared = true →
    key ≠ noKey → (begin_ s).strongBefore slot [l] id = false → Sizes s key o.ty.bytes ((begin_ s).agentOf slot) o.scope g.vc →
    condHolds o.cond (tyNum o.ty ((begin_ s).load key o.ty.bytes)) (tyNum o.ty a) = true →
    Ends (.waitVReread slot) s fun t => SameMem s t ∧ (∀ k, k ≠ slot → t.slot? k = s.slot? k) ∧
      ∃ g', t.slot? slot = some g' ∧ (g'.thread l).wait = none ∧ (g'.thread l).st ≠ .waiting ∧
        (g'.thread l).pc = (g.thread l).pc + BitVec.ofNat 57 wt.len ∧ g'.v = g.v ∧ g'.sreg = g.sreg

/-- R16, R17, R251, R252, R325, R44: an arriving group owes the wait of its phase; the phase completes when every group of the block,
or of the launch's in its unit, that has not exited has arrived, and at .pod and .sys those of the launches enrolled, here and in the
other packages; B registers then have no owner at .blk. A wait ends once its phase is over. -/
def Obligations.Barriers : Prop :=
  ∀ (s : State) (h : Hdr) (x : List Nat) (sc : Scope) (k : BitVec 4),
    let st := fun (u : State) => sget u.here.bar (barNo sc k.toNat) BarSt.zero
    let slot := s.d.cur.slot
    -- the group is counted into a barrier that stood as `bar` and stands as `bar'`; the phase is over when it is `full`
    let counted := fun t (bar bar' : Bar) (full : Prop) => SameMem s t ∧ SameAll s t ∧ Advances s t ∧
      (st t).owe = true ∧ (st t).phase = bar.phase ∧
      (full → (st t).arr = false ∧ bar'.phase = bar.phase + 1 ∧ bar'.arrived = []) ∧
      (¬ full → (st t).arr = true ∧ bar'.phase = bar.phase ∧ bar'.arrived = bar.arrived ++ [slot])
    (s.d.cur.stamped = false → x = s.here.live → FenceMet s sc → (st s).arr = false → (begin_ s).barScopeOk sc = true →
      (∃ j < s.myBlk.gcnt, slot = s.here.blk + j) → Runs (.barArrive h sc k) s h [] [] x →
      (sc = .blk → (∀ e ∈ s.here.owed, ∀ n, Reg.b n ∉ e.dst) →
        let bar := sget s.myBlk.bars k.toNat Bar.zero
        let full := ∀ j < s.myBlk.gcnt, (begin_ s).groupLive (s.here.blk + j) = true →
          s.here.blk + j = slot ∨ s.here.blk + j ∈ bar.arrived
        Ends (.barArrive h sc k) s fun t => counted t bar (sget t.myBlk.bars k.toNat Bar.zero) full ∧
          (full → t.myBlk.bown = []) ∧ (¬ full → t.myBlk.bown = s.myBlk.bown)) ∧
      ((sc = .quad ∨ sc = .die ∨ sc = .pkg) → ∀ ln, sget? s.d.launches s.myBlk.launch = some ln →
        let key := barKey (barNo sc 0) ((begin_ s).barUnit sc slot)
        let bar := sget ln.bars key Bar.zero
        let full := ∀ q ∈ (begin_ s).launchMembers s.myBlk.launch, (begin_ s).barUnit sc q = (begin_ s).barUnit sc slot →
          q = slot ∨ q ∈ bar.arrived
        Ends (.barArrive h sc k) s fun t =>
          ∃ ln', sget? t.d.launches s.myBlk.launch = some ln' ∧ counted t bar (sget ln'.bars key Bar.zero) full) ∧
      ((sc = .pod ∨ sc = .sys) → ∀ ln, sget? s.d.launches s.myBlk.launch = some ln →
        let key := podKey ln.pbid ln.pbsys
        let pb := sget s.d.pkg.podBars key PodBar.zero
        let full := 0 < pb.pbn ∧ pb.pbn ≤ pb.pops ∧ (begin_ s).podCreated ln.pbid ln.pbsys = true ∧
          (∀ q ∈ (begin_ s).podMembers ln.pbid ln.pbsys, q = slot ∨ q ∈ pb.bar.arrived) ∧ pb.members ≤ pb.arrived + pb.exited
        Ends (.barArrive h sc k) s fun t => counted t pb.bar (sget t.d.pkg.podBars key PodBar.zero).bar full)) ∧
    ((begin_ s).barScopeOk sc = true → Runs (.barWait h sc k) s h [] [] x →
      ((st s).owe = false → Acts (.barWait h sc k) s id (fun _ => id) id (fun _ => s.d.cur.next) s.ms) ∧
      ((st s).owe = true → (st s).phase < ((begin_ s).barOf sc k.toNat).phase →
        Ends (.barWait h sc k) s fun t => Synced s t ∧ (st t).owe = false ∧
          { t.here.unsynced with bar := [] } = { s.here.unsynced with bar := [] }) ∧
      ((st s).owe = true → ((begin_ s).barOf sc k.toNat).phase ≤ (st s).phase → Waits (.barWait h sc k) s x))

/-- R253 to R255: barrier objects in the scratchpad, for lanes that name different objects; a `once` form is one arrival of the
lowest lane. An object whose PEND leaves its range holds no defined value. No copy has still to read their bytes. -/
def Obligations.BarrierObjects : Prop :=
  ∀ (s : State) (h : Hdr) (a n : Opnd) (d : Dst) (x : List Nat), memWf s.mem = true → BoOk s a x →
    s.d.cur.stamped = false → (∀ l ∈ x, (s.here.thread l).helper = false ∧ Unread s (boKey s a l) 16) →
    let val := fun l => (s.op32 l n).toNat
    let apart := ∀ k ∈ x, ∀ l ∈ x, k ≠ l → boOfs s a k ≠ boOfs s a l
    let quiet := fun (t : State) (G : Group → Group) => Else (s.ordered t) t G (fun _ => id) id [] ∧ Advances s t
    -- an arrival is a release, a wait that is over an acquire: the group's clock moves on
    let clock := fun (t : State) (g : Group) => { g with ep := t.here.ep, vc := t.here.vc }
    (apart → s.here.acq = [] → Runs (.boInit h a n) s h (a.names 1 ++ n.names 1) [] x → Ends (.boInit h a n) s fun t =>
      quiet t id ∧ SameAll s t ∧ BoWrote s t a x (fun _ => 0) fun l => boWord (val l % 65536) (val l % 65536) 0 false 0) ∧
    (apart → s.here.acq = [] → Runs (.boExpect h a n) s h (a.names 1 ++ n.names 1) [] x → Ends (.boExpect h a n) s fun t =>
      quiet t id ∧ SameAll s t ∧ BoWrote s t a x (fun l => boPend s a l + val l) fun l =>
        let o := boObj s a l
        boNext (o / 2 ^ 112) (o / 2 ^ 96 % 65536) (boPhase s a l) (boDone s a l) ((o % 2 ^ 56 + val l) % 2 ^ 56)) ∧
    (FenceMet s .blk →
      let many := fun i (v : Nat → Nat) => apart → (∀ l ∈ x, boDone s a l = false) → Ends i s fun t => quiet t (clock t) ∧
        Wrote s t x d false true (fun l => BitVec.ofNat 64 (boPhase s a l)) ∧
        BoWrote s t a x (fun l => boPend s a l + v l) fun l => boArrive s a l (v l)
      let one := fun i (v : Nat → Nat) => boDone s a (x.headD 0) = false → Ends i s fun t => quiet t (clock t) ∧
        Wrote s t x d false true (fun _ => BitVec.ofNat 64 (boPhase s a (x.headD 0))) ∧
        BoWrote s t a [x.headD 0] (fun l => boPend s a l + v l) fun l => boArrive s a l (v l)
      (Runs (.boArrive h d a) s h (a.names 1) (d.names 1) x → many (.boArrive h d a) fun _ => 0) ∧
      (Runs (.boArriveExpect h d a n) s h (a.names 1 ++ n.names 1) (d.names 1) x → many (.boArriveExpect h d a n) val) ∧
      (Runs (.boArriveOnce h d a) s h (a.names 1) (d.names 1) x → one (.boArriveOnce h d a) fun _ => 0) ∧
      (Runs (.boArriveOnceExpect h d a n) s h (a.names 1 ++ n.names 1) (d.names 1) x →
        one (.boArriveOnceExpect h d a n) val)) ∧
    (s.here.acq = [] → Runs (.boWait h a n) s h (a.names 1 ++ n.names 1) [] x →
      ((∀ l ∈ x, boPhase s a l ≠ val l) → Ends (.boWait h a n) s fun t =>
        Only s t (fun g => { clock t g with sync := s.d.nextId }) (fun _ => id) id [] ∧ Advances s t ∧ SameAll s t) ∧
      ((∀ l ∈ x, boPhase s a l = val l) → Waits (.boWait h a n) s x))

/-! ### Engines -/

/-- R43, R104, R257 to R266: copies between tensors and the scratchpad, and codebooks: what each hands to the copy engine. A
record that R258 refuses takes TREC_BAD. The status word of a cbload counts the bytes it reads (the model's choice: assumption 42). -/
def Obligations.EngineCopies : Prop :=
  ∀ (s : State) (h : Hdr) (o : CopyOp) (x : List Nat), EngineOn s eCopy →
    let w := begin_ s
    let l := x.headD 0
    let b := s.here.blk
    let f := s.tile o.tr
    let row := s.first x o.a
    let col := s.first x o.b
    let off := o.ext.toNat
    let op := fun (kind : EKind) ps word spw =>
      { s.newOp .copy kind with tok := some o.tk.toNat, bo := boOf s o x, parts := ps, word := word, spw := spw }
    let run := fun i => Runs i s h (copySrc o) [.s o.tk.toNat] x
    let bad := fun i => run i → Ends i s fun t => Trapped s t s.d.cur.slot s.d.cur.lanes (faultOf s cTREC_BAD x s.d.cur.pc true)
    (recBad (s.here.readT o.tr.toNat) = true → memWf s.mem = true → s.here.owed = [] →
      bad (.copyT h o) ∧ bad (.copyTCb h o) ∧ bad (.copyS h o) ∧ (0 < col → col ≤ 8 → bad (.copyG h o))) ∧
    (recBad (s.here.readT o.tr.toNat) = false → off % 16 = 0 → (o.bo = true → BoOk s o.c [l]) →
      (∀ rows, col % 32 = 0 → Fits s off f.size → run (.copyT h o) →
        collect ((List.range f.trows).map fun r => w.tensorRow f (row + r) col f.tcols) = .ok rows →
        let ps := f.parts b off f.rb none rows
        Enters (.copyT h o) s (op (.copy none) ps (copyWord (partBytes ps) 0 (f.padded row col) false 0) (f.ranges off))) ∧
      (∀ rows cb, let rb := f.tcols * (4 * 2 ^ cb.vec)
        col % 32 = 0 → Fits s off (f.trows * rb) → f.ty = .b8 → s.myBlk.cb = some cb → w.cbLoading b = false →
        (f.z = 0 ∨ rb % swzSpan f.z = 0) → run (.copyTCb h o) →
        collect ((List.range f.trows).map fun r => w.tensorRow f (row + r) col f.tcols) = .ok rows →
        let ps := f.parts b off rb (some (4 * 2 ^ cb.vec)) rows
        Enters (.copyTCb h o) s
          (op (.copy (some cb)) ps (copyWord (partBytes ps) 0 (f.padded row col) false 0) (swzRanges off (f.trows * rb) f.z))) ∧
      (∀ ps, col % 32 = 0 → Fits s off f.size → realLanes s x ≠ [] →
        w.spadAnyBusy b (· == .mtx) s.d.nextId (f.ranges off) = false → run (.copyS h o) → w.storeRows f row col off = .ok ps →
        Enters (.copyS h o) s (op (.copy none) ps (copyWord (partBytes ps) 0 (f.padded row col) false 0) [])) ∧
      (∀ rows rg, 0 < col → col ≤ 8 → f.rg = some rg → row % 4 = 0 → Fits s row (4 * col) → Fits s off (col * rg) →
        w.spadBusy b (· == .mtx) s.d.nextId row (4 * col) = false → run (.copyG h o) →
        let idx := (List.range col).map fun j => w.load (spadKey b (row + 4 * j)) 4
        collect (idx.map fun i => w.gatherRow f rg i) = .ok rows →
        let out := (idx.filter fun i => decide (f.rows ≤ i)).length
        let ps := rowParts b off rg f.z rows
        Enters (.copyG h o) s
          (op (.copy none) ps (copyWord (partBytes ps) out false (decide (0 < out)) 0) (swzRanges off (col * rg) f.z)))) ∧
    (∀ vec tk a n ks, let va := (s.op64 l a).toNat
      let e := s.first x n
      0 < e → e ≤ 256 → va % 16 = 0 → Runs (.cbload h vec tk a n) s h (a.names 2 ++ n.names 1) [.s tk.toNat] x →
      w.keysOf .engR va (4 * 2 ^ vec.toNat * e) = .ok ks →
      (b ∈ w.cbBlocks (slotCore s.d.cur.slot) ∨ (w.cbBlocks (slotCore s.d.cur.slot)).length < 4) →
      let cb : Codebook := { addr := BitVec.ofNat 57 va, entries := e, vec := vec.toNat, data := [] }
      Enters (.cbload h vec tk a n) s { s.newOp .copy (.codebook cb) with
        tok := some tk.toNat, parts := bufAll (ks.map BSrc.key)
        word := copyWord (4 * 2 ^ vec.toNat * e) 0 false false 0 }) ∧
    ((∀ e ∈ s.d.ops, e.blk = b → (∀ c, e.kind ≠ .copy (some c)) ∧ ∀ c, e.kind ≠ .codebook c) →
      Runs (.cbfree h) s h [] [] x →
      Acts (.cbfree h) s id (fun _ => id) (fun k => { k with cb := none }) (fun _ => s.d.cur.next) s.ms)

/-- R268 to R274, R188: arming a join; the signatures of a matrix operation, of one instruction or group or of several, up to the
last one, with which the operation enters the reservation table of the quad; the faults J_BUSY, J_NOTDECL and J_MISMATCH; transfers and
zeroing. -/
def Obligations.EngineMatrix : Prop :=
  ∀ (s : State) (h : Hdr) (x : List Nat),
    let w := begin_ s
    let l := x.headD 0
    let join := fun (j : BitVec 3) => sget s.myBlk.joins j.toNat Join.idle
    let ts := x.map fun k => 32 * s.here.gidx + k
    let trap := fun i c => Ends i s fun t => Trapped s t s.d.cur.slot s.d.cur.lanes (faultOf s c x s.d.cur.pc true)
    let own := BitVec.ofNat 128 s.d.cur.word
    (∀ j mask, let ds := w.declaredOf s.here.blk (s.first x mask)
      Runs (.jArm h j mask) s h (mask.names 1) [] x →
      ((join j).st = .idle → ds ≠ [] → Acts (.jArm h j mask) s id (fun _ => id)
        (fun b => { b with joins := sset b.joins j.toNat { declared := ds, signed := [], word := 0, st := .armed } })
        (fun _ => s.d.cur.next) s.ms) ∧
      ((join j).st = .armed → memWf s.mem = true → s.here.owed = [] → trap (.jArm h j mask) cJ_BUSY)) ∧
    (∀ (o : MmaOp) (sp : Bool),
      let i : Instr := if sp then .smma h o else .mma h o
      let jr := join o.j
      let signed := jr.signed ++ ts
      let same := jr.signed = [] ∨ sigWord jr.word.toNat = sigWord s.d.cur.word
      s.d.cur.stamped = false →
      Runs i s h (o.row0.names 1 ++ o.col0.names 1 ++ o.k0.names 1 ++ tNames o.ta ++ tNames o.tb ++ [.a o.acc.toNat]) [] x →
      ((jr.st ≠ .armed ∨ ∃ t ∈ ts, t ∉ jr.declared ∨ t ∈ jr.signed) → memWf s.mem = true → s.here.owed = [] →
        trap i cJ_NOTDECL) ∧
      (EngineOn s eMatrix → jr.st = .armed → (∀ t ∈ ts, t ∈ jr.declared ∧ t ∉ jr.signed) →
        ((∀ t ∈ jr.declared, t ∈ signed) → ∀ e, w.mmaChecks o sp l = .ok e →
          (same → ResvRoom s → (∀ t ∈ jr.signed, s.here.blk + t / 32 = s.d.cur.slot → t % 32 ∉ s.d.cur.lanes) →
            Ends i s fun t => SameMem s t ∧ SameAll s t ∧ Reserved s t e ∧ e.waits = true ∧ e.cls = .mtx ∧
              (∀ k ∈ s.d.cur.lanes, (s.here.thread k).st ≠ .exited → t.pc k = s.d.cur.next) ∧
              t.here.count .mtx = s.here.count .mtx + 1 ∧
              (∃ sl, s.d.cur.slot ∈ sl ∧ (∀ t ∈ jr.signed, s.here.blk + t / 32 ∈ sl) ∧
                t.d.ops = s.d.ops ++ [{ e with slots := sl }]) ∧
              sget t.myBlk.joins o.j.toNat Join.idle =
                { jr with signed := signed, word := if jr.signed = [] then own else jr.word, st := .issued } ∧
              -- the signers that waited for this one go on
              ∀ k ∈ jr.signed, ∀ g wt, s.slot? (s.here.blk + k / 32) = some g → (g.thread (k % 32)).st = .waiting →
                (g.thread (k % 32)).wait = some wt →
                ((t.grp (s.here.blk + k / 32)).thread (k % 32)).wait = none ∧
                  ((t.grp (s.here.blk + k / 32)).thread (k % 32)).pc = (g.thread (k % 32)).pc + BitVec.ofNat 57 wt.len) ∧
          (¬ same → memWf s.mem = true → s.here.owed = [] → trap i cJ_MISMATCH)) ∧
        ((∃ t ∈ jr.declared, t ∉ signed) →
          Ends i s fun t => SameMem s t ∧ SameAll s t ∧ t.d.ops = s.d.ops ∧
            (∀ k ∈ x, (s.here.thread k).st ≠ .exited → (t.here.thread k).st = .waiting) ∧
            ∃ word, (jr.signed = [] → word = own) ∧ (jr.signed ≠ [] → same → word = jr.word) ∧
              sget t.myBlk.joins o.j.toNat Join.idle = { jr with signed := signed, word := word }))) ∧
    (EngineOn s eMatrix → ResvRoom s →
      (∀ acc sp row0 col0 tr bs, let f := s.tile tr
        let row := s.first x row0
        Runs (.mxLd h acc sp row0 col0 tr) s h
          (row0.names 1 ++ (if sp then [] else col0.names 1) ++ tNames tr ++ [.a acc.toNat]) [] x →
        ((recBad (s.here.readT tr.toNat) = true ∨ f.ty ≠ .f32 ∨ f.trows ≠ 64 ∨ f.tcols ≠ 64) → memWf s.mem = true →
          s.here.owed = [] → trap (.mxLd h acc sp row0 col0 tr) cTREC_BAD) ∧
        (recBad (s.here.readT tr.toNat) = false → f.ty = .f32 → f.trows = 64 → f.tcols = 64 →
          (sp = true → row % 16 = 0 ∧ Fits s row f.size) → w.operand f sp row (s.first x col0) = .ok bs →
          Queues (.mxLd h acc sp row0 col0 tr) s { s.newOp .mtx (.mxLd acc.toNat) with
            waits := true, parts := bufAll bs, spr := if sp then f.ranges row else [] })) ∧
      (∀ acc, Runs (.mxZero h acc) s h [.a acc.toNat] [] x →
        Queues (.mxZero h acc) s { s.newOp .mtx (.mxZero acc.toNat) with waits := true }) ∧
      ∀ (o : MxStOp) ps, let r := s.here.readT o.out.toNat
        let f := tileOf r
        let ta := s.here.readT o.ta.toNat
        let tb := s.here.readT o.tb.toNat
        let row := s.first x o.row0
        let col := s.first x o.col0
        recBad r = false → recBad ta = false → recBad tb = false → f.trows = 64 → f.tcols = 64 → mxStTy f.ty = true →
        (o.ftz = true → f.ty = .f32) →
        (o.sp = false → (f.ty.isMx = true ∨ f.b = 6 ∨ f.b = 4) → col % 32 = 0) → (o.sp = true → row % 16 = 0 ∧ Fits s row f.size) →
        realLanes s x ≠ [] →
        Runs (.mxSt h o) s h (o.row0.names 1 ++ (if o.sp then [] else o.col0.names 1) ++ tNames o.out ++ tNames o.ta ++
          tNames o.tb ++ [.a o.acc.toNat]) [] x →
        w.outParts f o.sp row col = .ok ps →
        Queues (.mxSt h o) s { s.newOp .mtx (.mxSt o.acc.toNat r o.sp row col ta tb o.rnd o.sat o.ftz false) with
          waits := true, parts := ps, spw := if o.sp then f.ranges row else [] })

/-- R267, R275 to R278: records in registers, the commands of the index engine, and rebal: item `i` of the rows laid end to end
belongs to the row whose range holds it; past the end it is 0xFFFFFFFF. -/
def Obligations.RecordsIndex : Prop :=
  ∀ (s : State) (h : Hdr) (x : List Nat),
    let w := begin_ s
    let l := x.headD 0
    let b := s.here.blk
    let half := fun (v hf : Nat) => valWords false 16 .zero (v / 2 ^ (128 * hf) % 2 ^ 128)
    let owesT := fun i (t : BitVec 4) (p : Nat → Payload) => Ends i s fun u =>
      Only s u id (fun _ => id) id [(s.d.nextId, [.t t.toNat 0], p 0), (s.d.nextId + 1, [.t t.toNat 1], p 1)] ∧ Advances s u ∧
        SameAll s u
    (∀ t a disp, let ea : Int := ((s.op32 l a).toNat : Int) + disp.toInt
      s.here.acq = [] → ea % 32 = 0 → 0 ≤ ea → Fits s ea.toNat 32 → Runs (.tload h t true a disp) s h (a.names 1) (tNames t) x →
      owesT (.tload h t true a disp) t fun hf => .ready (valWords false 16 .zero (w.load (spadKey b ea.toNat + 16 * hf) 16))) ∧
    (∀ t a disp lf, let ea : Int := (((s.op64 l a).toNat : Int) + disp.toInt) % 2 ^ 64
      s.here.acq = [] → ea % 32 = 0 → ea < 2 ^ 57 →
      w.translate (slotDie s.d.cur.slot) ea.toNat .load (!s.myBlk.priv) = .ok lf →
      Runs (.tload h t false a disp) s h (a.names 2) (tNames t) x →
      owesT (.tload h t false a disp) t fun hf => .load {
        lane := l, va := BitVec.ofNat 57 (ea.toNat + 16 * hf), pa := lf.pa + 16 * hf, n := 16, loc := false, more := [],
        ro := !lf.wr, ext := .zero, cst := false, cached := true, strong := false, acq := false, scope := .blk, lease := lf.lease, wide := false,
        instr := BitVec.ofNat 128 s.d.cur.word, lanes := maskOf x, iss := w.stamp false, passed := none }) ∧
    (∀ t m (q : BitVec 2) a, let old := (s.here.readT m.toNat).toNat
      Runs (.tset h t m q a) s h (a.names 2 ++ tNames m) (tNames t) x →
      ∃ new : Nat, (∀ k, new.testBit k =
          if k / 64 = q.toNat then (s.op64 l a).getLsbD (k % 64) else old.testBit k) ∧
        owesT (.tset h t m q a) t fun hf => .ready (half new hf)) ∧
    (EngineOn s eIndex → ∀ (o : CopyOp), (o.bo = true → BoOk s o.c [l]) →
      (∀ rk ks, let sa := s.first x o.a
        let rp := rk.map fun (w : List Nat) => bytesNat (w.map s.byte)
        let off := o.ext.toNat
        let desc := w.load (spadKey b sa) 32
        let nr := desc / 2 ^ 192 % 2 ^ 32
        let r := walkOf (desc / 2 ^ 160 % 2 ^ 32) nr (desc / 2 ^ 224) rp
        w.spadBusy b anyCls s.d.nextId sa 32 = false → sa % 16 = 0 → off % 8 = 0 → Fits s sa 32 → nr ≤ 4096 →
        desc / 2 ^ 57 % 2 ^ 7 = 0 → desc / 2 ^ 121 % 2 ^ 39 = 0 → desc % 4 = 0 → desc / 2 ^ 64 % 4 = 0 →
        w.rowKeys (desc % 2 ^ 57) (desc / 2 ^ 160 % 2 ^ 32) nr = .ok rk → w.readNow rk.flatten = true →
        (∀ k ∈ rk.flatten, s.d.rideOf k = none ∧ w.deadAt k true = false ∧ NoRace s k) → Fits s off (8 * r.1.length) →
        collect (r.1.map fun c => w.keysOf .engR ((desc / 2 ^ 64 % 2 ^ 57 + 4 * c.1 : Nat) : Int) 4) = .ok ks →
        Runs (.idxWalk h o) s h (o.a.names 1 ++ (if o.bo then o.c.names 1 else [])) [.s o.tk.toNat] x →
        EntersIndex (.idxWalk h o) s { s.newOp .gs .walk with
          tok := some o.tk.toNat, bo := boOf s o x, parts := walkParts b sa off desc r ks, waits := true
          spw := [(off, 8 * r.1.length), (sa, 32)]
          word := BitVec.ofNat 64 (2 ^ 17 * r.1.length + 2 ^ 16 * (decide (0 < r.2.2.1)).toNat) }) ∧
      ∀ rows rg, let f := s.tile o.tr
        let lst := s.first x o.a
        let n := s.first x o.b
        let off := o.ext.toNat
        let xs := (List.range n).map fun j => w.load (spadKey b (lst + 8 * j + (if o.col then 4 else 0))) 4
        0 < n → n ≤ 4096 → recBad (s.here.readT o.tr.toNat) = false → f.rg = some rg → lst % 8 = 0 → off % 16 = 0 →
        Fits s lst (8 * n) → Fits s off (n * f.trows * rg) → w.spadBusy b anyCls s.d.nextId lst (8 * n) = false →
        collect ((xs.flatMap fun v => (List.range f.trows).map fun t => v * f.trows + t).map fun r => w.gatherRow f rg r) =
          .ok rows →
        Runs (.idxGather h o) s h (copySrc o) [.s o.tk.toNat] x →
        let out := f.trows * (xs.filter fun v => decide (f.rows ≤ v * f.trows)).length
        let pad := xs.any fun v => decide (v * f.trows < f.rows) && decide (f.rows < v * f.trows + f.trows)
        let ps := rowParts b off rg f.z rows
        EntersIndex (.idxGather h o) s { s.newOp .gs .gather with
          tok := some o.tk.toNat, bo := boOf s o x, parts := ps, waits := true, spw := swzRanges off (n * f.trows * rg) f.z
          word := copyWord (partBytes ps) out pad (decide (0 < out)) 0 }) ∧
    ∀ o : RebalOp, Runs (.rebal h o) s h (o.a.names 1 ++ o.b.names 1 ++ o.c.names 1)
        (o.d.names 2 ++ (if o.tot then [.s o.tk.toNat] else [])) x →
      let before := fun j => ((x.take j).map fun k => (s.op32 k o.a).toNat).sum
      let item := fun k => (s.op32 k o.c).toNat + (x.takeWhile (· != k)).length
      ∃ v : Nat → Nat,
        (∀ k ∈ x, before x.length ≤ item k → v k = 0xFFFFFFFF) ∧
        (∀ k ∈ x, ∀ j < x.length, before j ≤ item k → item k < before (j + 1) →
          v k = (s.op32 (x.getD j 0) o.b).toNat + 2 ^ 32 * (item k - before j)) ∧
        Ends (.rebal h o) s fun t => Advances s t ∧ SameAll s t ∧
          let pairs := owes s x o.d 2 fun k => .ready (splitWords true (BitVec.ofNat 64 (v k)))
          Only s t id (fun _ => id) id (pairs ++ (if o.tot then
            [(s.d.nextId + pairs.length, [.s o.tk.toNat], .ready (splitWords true (BitVec.ofNat 64 (before x.length))))] else []))

/-- R87, R104 to R108, R272, R277, R332, R64: granules are read and then perform; an operation retires once all have; a matrix
operation computes when it is granted; the index engine takes one command after the other. -/
def Obligations.EnginesPerform : Prop :=
  (∀ (s : State) (op k : Nat) (e : EOp) (p : EPart), s.d.ops.find? (fun o => o.id == op) = some e → e.parts[k]? = some p →
    (∀ fs, e.kind ≠ .comp fs) → (begin_ s).partDead p = false →
    let moved := fun (t : State) (f : EOp → EOp) => t.d.groups = s.d.groups ∧ t.d.blocks = s.d.blocks ∧
      t.d.ops = s.d.ops.map fun o => if o.id = op then f o else o
    (p.val = none → (e.waits = false ∨ p.dst = .buf) →
      (∀ a ∈ p.src.filterMap BSrc.key?, (begin_ s).readOk e a = true ∧ NoRace s a) →
      -- the granule's bytes are taken; an index is taken for the whole of its vector (R266)
      let keys := p.src.filterMap BSrc.key?
      let seen := fun (b : BSrc) => (b.key?.filter keys.contains).map (begin_ s).physByte
      let index := fun (b : BSrc) => match b with | .cb _ _ => true | _ => false
      let learn := fun (o : EOp) (q : EPart × Nat) =>
        let src := q.1.src.map fun b => if q.2 == k || index b then ((seen b).map fun x => b.take o.book x).getD b else b
        if q.1.val.isSome then q.1
        else { q.1 with src := src, val := if src.all (fun b => b.key?.isNone) then some (src.map BSrc.byte) else none }
      let outs := fun (o : EOp) => o.parts.map fun q => (q.src.map fun b => ((seen b).map fun x => b.out o.book x).getD 0).sum
      Ends (.engineWritePerform op k) s fun t => SameMem s t ∧ moved t fun o =>
        { o with parts := o.parts.zipIdx.map (learn o), word := addZrows o.word (outs o).sum }) ∧
    (∀ bs d, p.val = some bs → p.dst = .key d → e.waits = false → e.bo = none → e.raced = [] → memWf s.mem = true →
      (∀ r c ls, e.kind = .collStage r c ls → (begin_ s).zeroing c.gpa = false) →
      (2 ^ 57 ≤ d → Unread s d bs.length ∧
        ∀ b ∈ (begin_ s).busyObjs ((d - 2 ^ 57) / 2 ^ 19), overlap b 16 (d % 2 ^ 19) bs.length = false) →
      (2 ^ 57 ≤ d ∨ ((begin_ s).leaseFree d = true ∧ homeUp s.d d = true ∧ s.d.rideOf d = none)) →
      Ends (.engineWritePerform op k) s fun t => moved t (fun o => { o with parts := o.parts.eraseIdx k }) ∧
        (∀ j < bs.length, t.byte (d + j) = bs.getD j 0) ∧ ∀ a, a < d ∨ d + bs.length ≤ a → t.byte a = s.byte a)) ∧
  (∀ (s : State) (op slot tk : Nat) (e : EOp) (g : Group), s.d.ops.find? (fun o => o.id == op) = some e → e.finished = true →
    (begin_ s).olderOps e = false → e.slots = [slot] → s.slot? slot = some g → e.tok = some tk →
    (e.kind = .walk ∨ e.kind = .gather ∨ ∃ c, e.kind = .copy c) →
    Ends (.engineRetire op) s fun t => SameMem s t ∧ t.d.ops = s.d.ops.filter (fun o => o.id != op) ∧
      t.d.blocks = s.d.blocks ∧ (∀ k, k ≠ slot → t.slot? k = s.slot? k) ∧
      ∃ g', t.slot? slot = some g' ∧ g'.count e.cls = g.count e.cls - 1 ∧ g'.readS tk = e.word ∧ tk ∉ g'.spend ∧
        g'.v = g.v ∧ g'.thr = g.thr ∧ ∀ n, n ≠ tk → g'.readS n = g.readS n) ∧
  (∀ (s : State) (quad k a : Nat) (r : Resv) (e : EOp) (b : Block),
    let w := begin_ s
    let ops := w.resvOps (quad / 16) (quad % 16)
    ops[k]? = some (r, e) → bestEntry (w.eligibles [] ops 0) = some k → (∀ p ∈ e.parts, p.dst = .buf → p.val.isSome = true) →
    sget? s.d.blocks e.blk = some b → e.kind.acc = some a →
    let sets := fun (f : Nat → Nat → Word) => Ends (.matrixGrant quad k) s fun t => SameMem s t ∧ t.d.groups = s.d.groups ∧
      (∀ i < 64, ∀ j < 64, sget (t.blk e.blk).accs (accKey a i j) 0 = f i j) ∧
      (∀ a' i j, a' ≠ a → i < 64 → j < 64 → sget (t.blk e.blk).accs (accKey a' i j) 0 = sget b.accs (accKey a' i j) 0) ∧
      (∀ c, c ≠ e.blk → sget? t.d.blocks c = sget? s.d.blocks c) ∧
      (∀ o ∈ t.d.ops, o.id = e.id → o.waits = false) ∧ k < ops.length ∧
      ((t.d.die (quad / 16)).resvOf (quad % 16)).length = ops.length - 1
    -- the tile of a stored accumulator, element by element (R65, R66, R274)
    (∀ (r ta tb : TRec) (sp : Bool) (row col : Nat) (rnd : Rnd) (sat ftz hlp : Bool),
      e.kind = .mxSt a r sp row col ta tb rnd sat ftz hlp →
      let f := tileOf r
      let n := if sp then 64 else min 64 (f.cols - col)
      mxStTy f.ty = true → (f.ty.isMx = true → n % 32 = 0) →
      let rows := ((List.range 64).filter fun i => sp || decide (row + i < f.rows)).map fun i => storedRow b a f ta tb rnd sat ftz i n
      Ends (.matrixGrant quad k) s fun t => SameMem s t ∧ t.d.groups = s.d.groups ∧ t.d.blocks = s.d.blocks ∧
        OpIs t e.id fun o => o.waits = false ∧ (o.parts.map fun p => (p.src, p.dst)) = e.parts.map (fun p => (p.src, p.dst)) ∧
          o.parts.flatMap (fun p => p.val.getD []) =
            (rows.flatMap Prod.fst ++ rows.flatMap Prod.snd).take (e.parts.map fun p => p.src.length).sum) ∧
    (e.kind = .mxZero a → sets fun _ _ => 0) ∧
    (e.kind = .mxLd a → sets fun i j => BitVec.ofNat 32 (bytesNat ((e.data.drop (4 * (64 * i + j))).take 4))) ∧
    (∀ n ta tb ftz j, e.kind = .mma a n ta tb false ftz j →
      let ra := mrows ta n 64 e.data
      let rb := mrows tb n 64 (e.data.drop (64 * rowLen ta n))
      sets fun i j => BitVec.ofNat 32 (dotAcc ftz (b.acc? a i j) n (rowAt ra i) (rowAt rb j))) ∧
    -- a compressed operand: each pair of stored elements goes to the columns that its positions name (R271)
    ∀ n ta tb ftz j, e.kind = .mma a n ta tb true ftz j →
      let ra := mrows ta (n / 2) 64 e.data
      let rb := mrows tb n 64 (e.data.drop (64 * rowLen ta (n / 2)))
      let md := bytesNat (e.data.drop (64 * rowLen ta (n / 2) + 64 * rowLen tb n))
      let at_ := fun i c => ([2 * (c / 4), 2 * (c / 4) + 1].filter fun m => md / 2 ^ (2 * (i * (n / 2) + m)) % 4 = c % 4).foldl
        (fun v m => fsum [v, (rowAt ra i).el.getD m (.fin false 0 0)] false) (.fin false 0 0)
      n % 4 = 0 → sets fun i j => BitVec.ofNat 32 (dotAcc ftz (b.acc? a i j) n
        { el := (List.range n).map (at_ i), sc := (rowAt ra i).sc } (rowAt rb j))) ∧
  ∀ (s : State) (die hd : Nat) (rest : List Nat) (e : EOp), (s.d.die die).idxQ = hd :: rest →
    s.d.ops.find? (fun o => o.id == hd) = some e →
    let starts := fun (t : State) (k : Nat) => t.d.ops = s.d.ops.map fun o => if o.id = k then { o with waits := false } else o
    (e.waits = true → Ends (.indexCommandStart die) s fun t => SameMem s t ∧ t.d.groups = s.d.groups ∧ starts t hd) ∧
    ∀ nx tl, rest = nx :: tl → e.waits = false → e.parts = [] → Ends (.indexCommandStart die) s fun t =>
      SameMem s t ∧ t.d.groups = s.d.groups ∧ (t.d.die die).idxQ = rest ∧ starts t nx

/-! ### Collections -/

/-- R129, R138, R139, R281 to R284: opening, staging and committing, as they issue: what is owed, and the operation whose step
waits at the generation object. An element outside the ranges of its collection is answered COLL_RANGE at once. -/
def Obligations.CollectionsIssue : Prop :=
  ∀ (s : State) (h : Hdr) (x : List Nat) (d : Dst) (tr : BitVec 4) (tk : BitVec 6) (c : CDesc),
    let w := begin_ s
    (∀ a lf, let ea := (s.op64 (x.headD 0) a).toNat
      EngineOn s eParterre → ea % 64 = 0 → ea < 2 ^ 57 →
      w.translate (slotDie s.d.cur.slot) ea .load (!s.myBlk.priv) = .ok lf →
      Runs (.collOpen h tr tk a) s h (a.names 2) (tNames tr ++ [.s tk.toNat]) x →
      Ends (.collOpen h tr tk a) s fun t => t.myBlk.core = s.myBlk.core ∧ t.d.dies = s.d.dies ∧
        Entered s t { s.newOp .coll (.collOpen ea s.d.nextId (s.d.nextId + 1)) with
          id := s.d.nextId + 2, tok := some tk.toNat, parts := bufAll ((List.range 64).map fun i => .key (lf.pa + i)) }
          (tPair s tr fun _ => .pend)) ∧
    (RingRoom s → EngineOnAt s (w.engineDie c.gpa) eParterre →
      (∀ key ofs pay (remove : Bool), let y := realLanes s x
        let i : Instr := if remove then .collRem h d tr key ofs pay else .collIns h d tr key ofs pay
        let el := fun l => ((s.op64 l key).toNat, (s.op32 l ofs).toNat, (s.op32 l pay).toNat)
        let inR := fun l => decide ((el l).1 < 2 ^ c.w ∧ (el l).2.1 < 2 ^ c.f ∧ (el l).2.2 < 2 ^ c.pw)
        w.handleColl tr (some .engW) none = .ok c → (∃ l ∈ y, inR l = true) →
        Runs i s h (key.names 2 ++ ofs.names 1 ++ pay.names 1 ++ tNames tr) (d.names 1) x →
        Steps i s c.gpa (owes s y d 1 fun l => if inR l then .pend else .ready [0x111]) fun e =>
          e.cls = .coll ∧ e.tok = none ∧ e.waits = true ∧
            ∃ ls, e.kind = .collStage remove c ls ∧ ls.map (fun l => (l.key, l.ofs, l.pay)) = (y.filter inR).map el) ∧
      (w.handleColl tr (some .engW) none = .ok c → Runs (.collCommit h tr tk) s h (tNames tr) [.s tk.toNat] x →
        Steps (.collCommit h tr tk) s c.gpa [] fun e => e = { s.newOp .coll (.collCommit c none none) with
          tok := some tk.toNat, waits := true }))

/-- R141, R142, R285 to R288: iterators and counts. coll.iter, coll.count and coll.close count in no class (the model's choice:
assumption 45). -/
def Obligations.CollectionsIterate : Prop :=
  ∀ (s : State) (h : Hdr) (x : List Nat) (d : Dst) (t tr : BitVec 4) (n : BitVec 6) (lo hi : Opnd) (c : CDesc),
    let w := begin_ s
    let r := s.here.readT tr.toNat
    let it := Iter.ofRec r
    let key := fun (o : Opnd) => (s.op64 (x.headD 0) o).toNat % 2 ^ 48
    let src := lo.names 2 ++ hi.names 2 ++ tNames tr
    (EngineOn s eParterre → RingRoom s → w.handleColl tr none (some .engR) = .ok c → Runs (.collIter h t tr lo hi) s h src (tNames t) x →
      Steps (.collIter h t tr lo hi) s c.gpa (tPair s t fun _ => .pend) fun e =>
        e.slots = [] ∧ e.tok = none ∧ e.kind = .collIter c (key lo) (key hi) s.d.nextId (s.d.nextId + 1)) ∧
    (EngineOn s eParterre → isIter r = true → Runs (.collNext h d tr) s h (tNames tr) (d.names 4 ++ tNames tr) x →
      let done := fun new => Ends (.collNext h d tr) s fun u => ∃ e, e.kind = .plain ∧ e.cls = .coll ∧ e.tok = none ∧
        e.slots = [s.d.cur.slot] ∧ Entered s u e new
      (it.open_ = false → done (owes s x d 4 fun _ => .ready endWords)) ∧
      (it.open_ = true → w.collMapped it.desca none (some .engR) = .ok c →
        let got := w.nextLanes c it x
        w.chunksDead c (w.visited c it got.2) = false → w.readNow (w.chunkKeys c (w.visited c it got.2)) = true →
        let vals := owes s x d 4 fun l => .ready (((got.1.find? fun p => p.1 == l).map (·.2)).getD [])
        done (vals ++ [(s.d.nextId + vals.length, [.t tr.toNat 0], .ready (tWords got.2.toNat 0)),
          (s.d.nextId + vals.length + 1, [.t tr.toNat 1], .ready (tWords got.2.toNat 1))]))) ∧
    (EngineOn s eParterre → Runs (.collCount h n tr lo hi) s h src [.s n.toNat] x →
      let gives := fun v => Owes (.collCount h n tr lo hi) s x (.s n) 1 fun _ => .ready (splitWords true (BitVec.ofNat 64 v))
      (isIter r = true → it.open_ = false → gives 0) ∧
      (isIter r = true → it.open_ = true → w.collMapped it.desca none (some .engR) = .ok c →
        w.chunksDead c (w.chunksOf c it.dira) = false → w.readNow (w.chunkKeys c (w.chunksOf c it.dira)) = true →
        gives ((w.elems c it.dira).filter fun e => decide (key lo ≤ e.1 ∧ e.1 ≤ key hi)).length) ∧
      (RingRoom s → isIter r = false → w.handleColl tr none (some .engR) = .ok c →
        Steps (.collCount h n tr lo hi) s c.gpa (owes s x (.s n) 1 fun _ => .pend) fun e =>
          e.slots = [] ∧ e.tok = none ∧ e.kind = .collCount c (key lo) (key hi) s.d.nextId)) ∧
    (isIter r = true → Runs (.collClose h tr) s h [] (tNames tr) x →
      (it.open_ = false → Acts (.collClose h tr) s id (fun _ => id) id (fun _ => s.d.cur.next) s.ms) ∧
      (it.open_ = true → RingRoom s → FenceMet s .pkg → w.collMapped it.desca none none = .ok c →
        Ends (.collClose h tr) s fun u => SameMem s u ∧ SameAll s u ∧ Advances s u ∧ u.d.ops = s.d.ops ∧
          (∀ m, u.here.readT m = s.here.readT m) ∧
          (let new := (r &&& ~~~2#256).toNat
           owedOf u.here = owedOf s.here ++ [(s.d.nextId + 1, [.t tr.toNat 0], .ready (tWords new 0)),
              (s.d.nextId + 2, [.t tr.toNat 1], .ready (tWords new 1))]) ∧
          let dd := w.ringDie (slotDie s.d.cur.slot) c.gpa
          ∃ q, (u.d.die dd).ringQ = (s.d.die dd).ringQ ++ [q] ∧ q.obj = objOf c.gpa ∧ q.act = .pin it.pg false))

/-- R117, R128, R139, R140, R143, Table 7.3: a commit that finds a pin of the next generation publishes nothing and clears BUSY at a
gate passage of its object, with COLL_PINNED; else it writes its chunks, and once they have performed it publishes at one passage, which
keeps the object's pins as they are then, and the next generation is on record. A generation that is old and not pinned is
reclaimed. (The commit waits for a pool that is mapped and not in migration, the model's choice: assumption 106.) -/
def Obligations.CollectionsCommit : Prop :=
  (∀ (s : State) (op n die i : Nat) (e : EOp) (c0 : CDesc) (r : RSlot) (pp : List Nat),
    let home := slotDie (e.slots.headD 0)
    let c := { c0 with poolPages := pp }
    let w := if gGEN r.data = 0 then (begin_ s).anew pp c.pool (512 * c.pcap) else begin_ s
    let eng := w.genDie c.gpa
    let recs := (List.range n).map (Work.stageKey c)
    let old := w.chunksOf c (gDIR r.data)
    s.d.ops.find? (fun o => o.id == op) = some e → e.kind = .collCommit c0 (some n) none → e.waits = true →
    w.leafPages home c.pool (512 * c.pcap) = some pp → w.poolSettled home c = true → w.zeroing c.gpa = false →
    AtGate s c.gpa die i r → (∀ k ∈ recs, recOp (w.homeRead k 16) ≠ 0 ∧ w.deadAt k true = false) →
    w.chunksDead c old = false → w.readNow recs = true → w.readNow (recs ++ w.chunkKeys c old) = true →
    (gPIN r.data ((gGEN r.data + 1) % 4) ≠ 0 → Ends (.commitCollection op) s fun t => SameMem s t ∧
      OpIs t op (fun o => o.waits = false ∧ o.word = BitVec.ofNat 64 0x114) ∧ t.d.groups = s.d.groups ∧
      (SlotOf t die i).data = putBits r.data 63 1 0 ∧ (t.d.die eng).gens = (s.d.die eng).gens) ∧
    ∀ p, w.commitPlan eng c n r.data = .ok p →
      gGEN p.data = (gGEN r.data + 1) % 2 ^ 63 ∧ gBUSY p.data = false ∧
        Ends (.commitCollection op) s fun t => SameMem s t ∧ t.d.groups = s.d.groups ∧ t.d.dies = s.d.dies ∧
          OpIs t op fun o => o.waits = true ∧ o.parts = p.writes.flatMap (chunkParts c) ∧
            o.kind = .collCommit c (some n) (some (p.data, p.word, p.chunks))) ∧
  (∀ (s : State) (op n die i : Nat) (e : EOp) (c : CDesc) (r : RSlot) (pub : Nat × Nat × List Nat),
    let eng := (begin_ s).genDie c.gpa
    s.d.ops.find? (fun o => o.id == op) = some e → e.kind = .collCommit c (some n) (some pub) → e.waits = true → e.parts = [] →
    AtGate s c.gpa die i r →
    Ends (.commitCollection op) s fun t => SameMem s t ∧ t.d.groups = s.d.groups ∧
      (let new := (SlotOf t die i).data
       gGEN new = gGEN pub.1 ∧ gBUSY new = gBUSY pub.1 ∧ gDIR new = gDIR pub.1 ∧ gCOUNT new = gCOUNT pub.1 ∧
          gSTAGE new = gSTAGE r.data - n ∧ ∀ k < 4, gPIN new k = gPIN r.data k) ∧
      OpIs t op (fun o => o.waits = false ∧ o.word = BitVec.ofNat 64 pub.2.1 ∧ o.parts = zeroParts c n) ∧
      ∃ g ∈ (t.d.die eng).gens, g.gpa = c.gpa ∧ g.gen = gGEN pub.1 ∧ g.chunks = pub.2.2) ∧
  ∀ (s : State) (die k d i : Nat) (g : CGen) (r : RSlot), (s.d.die die).gens[k]? = some g → AtGate s g.gpa d i r →
    g.gen < gGEN r.data → gPIN r.data (g.gen % 4) = 0 →
    Ends (.generationReclaim die k) s fun t => SameMem s t ∧ t.d.groups = s.d.groups ∧ t.d.ops = s.d.ops ∧
      (t.d.die die).gens = (s.d.die die).gens.eraseIdx k ∧ (sget (t.d.die d).slots i RSlot.free).data = r.data

/-! ### The Carousel -/

/-- R119, R120, R289 to R294: the Carousel's instructions as they issue, for lanes whose words lie in one object. -/
def Obligations.RingIssue : Prop :=
  ∀ (s : State) (h : Hdr) (x : List Nat),
    let l := x.headD 0
    let slot := s.d.cur.slot
    let waitsIn := fun (t : State) k obj => ∃ b ∈ (t.d.die k).boardQ, b.obj = obj
    (∀ a disp pa k, RingAt s a disp 64 l pa → homeOf s.d pa = .die k → pa % 64 = 0 → s.d.rideOf pa = none →
      (begin_ s).stopHolds (slotCore slot) < 64 → x = [l] → Runs (.ringBoard h a disp) s h (a.names 2) [] x →
      Ends (.ringBoard h a disp) s fun t => SameMem s t ∧ SameAll s t ∧ Advances s t ∧ waitsIn t k pa) ∧
    (∀ a disp pa k i r, RingAt s a disp 64 l pa → s.d.rideOf pa = some (k, i, r) → r.obj = pa → r.state i s.d.now = .riding →
      r.mark = none → (begin_ s).stopHolds (slotCore slot) < 64 → x = [l] → Runs (.ringAlight h a disp) s h (a.names 2) [] x →
      Ends (.ringAlight h a disp) s fun t => SameMem s t ∧ SameAll s t ∧ Advances s t ∧
        (SlotOf t k i).mark.map Prod.snd = some 1) ∧
    (RingRoom s → ∀ (o : RingWOp) (pa : Nat → Nat) obj, (∀ k ∈ x, objOf (pa k) = obj) →
      (o.ord = .rel ∨ o.ord = .acqrel → FenceMet s o.scope) →
      let n := o.ty.bytes
      let val := fun b k => (begin_ s).opBytes k b (min n 8)
      ((∀ k ∈ x, RingAt s o.a o.disp n k (pa k)) → Runs (.ringRd h o) s h (o.a.names 2) (o.d.names (regCount n)) x →
        RingIssues (.ringRd h o) s obj none (owes s x o.d (regCount n) fun _ => .pend) fun r =>
          r.act = .rd ∧ r.n = n ∧ r.lanes.map (fun k => (k.lane, k.ofs, k.helper)) =
            x.map fun k => (k, pa k % 64, (s.here.thread k).helper)) ∧
      (∀ op, (∀ k ∈ x, RingAt s o.a o.disp n k (pa k) ∧ (s.here.thread k).helper = false) →
        Runs (.ringUp h op o) s h (o.a.names 2 ++ (o.v.names (regCount n) ++ (if op = .cas then o.c.names (regCount n) else [])))
          (o.d.names (regCount n)) x →
        RingIssues (.ringUp h op o) s obj none (owes s x o.d (regCount n) fun _ => .pend) fun r =>
          r.act = .up op (o.ty == .i8 || o.ty == .i16 || o.ty == .i32 || o.ty == .i64) ∧ r.n = n ∧
            r.lanes.map (fun k => (k.lane, k.ofs, k.v, k.c)) = x.map fun k => (k, pa k % 64, val o.v k, val o.c k)) ∧
      ((∀ k ∈ x, RingAt s o.a o.disp 16 k (pa k) ∧ (s.here.thread k).helper = false) →
        Runs (.ringUpPop h o) s h (o.a.names 2 ++ o.v.names 1) (o.d.names 4) x →
        RingIssues (.ringUpPop h o) s obj none (owes s x o.d 4 fun _ => .pend) fun r =>
          r.act = .pop ∧ r.lanes.map (fun k => (k.lane, k.ofs, k.v)) = x.map fun k => (k, pa k % 64, (s.op32 k o.v).toNat))) ∧
    (∀ (o : RingCOp), (o.ord = .rel ∨ o.ord = .acqrel → FenceMet s o.scope) →
      (∀ pa, RingRoom s → RingAt s o.a o.disp 64 l pa → homeOf s.d pa = .die (slotDie slot) →
        Runs (.ringCap h o) s h (o.a.names 2) (o.run.names 16 ++ [.s o.tk.toNat]) x →
        (s.here.cap = none → RingIssues (.ringCap h o) s (objOf pa) (some o.tk.toNat) (owes s x o.run 16 fun _ => .pend) fun r =>
          r.act = .cap o.tk.toNat) ∧
        ∀ c, s.here.cap = some c → c.timedOut = false → Ends (.ringCap h o) s fun t => OnlyRegs s t ∧ Advances s t ∧
          Wrote s t x (.s o.tk) true false fun _ => 0x102) ∧
      (Runs (.ringRet h o) s h (o.run.names 16) [.s o.tk.toNat] x →
        (s.here.cap = none → Ends (.ringRet h o) s fun t => OnlyRegs s t ∧ Advances s t ∧
          Wrote s t x (.s o.tk) true false fun _ => 0x101) ∧
        ((∀ r ∈ (s.d.die (slotDie slot)).ringQ, r.slot = some slot → ∀ k v, r.act ≠ .ret k v) → ∀ c, s.here.cap = some c →
          -- a capture lost to the time limit: the ret writes nothing, and the group holds none any longer
          (c.timedOut = true → Ends (.ringRet h o) s fun t => Only s t (fun g => { g with cap := none }) (fun _ => id) id [] ∧
            Advances s t ∧ Wrote s t x (.s o.tk) true false fun _ => 0x101) ∧
          (c.timedOut = false → RingRoom s → c.die = slotDie slot →
          let obj := (SlotOf s c.die c.slot).obj
          homeOf s.d obj = .die c.die →
          RingIssues (.ringRet h o) s obj (some o.tk.toNat) [] fun r => r.act = .ret o.tk.toNat
            (((realLanes s x).head?).map fun k => (begin_ s).runData k o.run))))) ∧
    (∀ d, Runs (.ringRev h d) s h [] (d.names 2) x → Owes (.ringRev h d) s x d 2 fun _ =>
      .ready (splitWords true (BitVec.ofNat 64 ((s.d.now - 2 * (slotCore slot % 64)) / 128)))) ∧
    ∀ n, s.d.cur.stamped = false → Runs (.ringWait h n) s h (n.names 2) [] x →
      ((s.op64 l n).toNat ≤ (s.d.now - 2 * (slotCore slot % 64)) / 128 →
        Acts (.ringWait h n) s id (fun _ => id) id (fun _ => s.d.cur.next) s.ms) ∧
      ((s.d.now - 2 * (slotCore slot % 64)) / 128 < (s.op64 l n).toNat → Waits (.ringWait h n) s x)

/-- R113, R116 to R125: what happens at passages: operations apply to the payload and answer the old word, objects board, alight
and are written back, captures run out, revolutions are counted. That an idle object is marked at the passage at which 64 revolutions
have been counted is the model's reading (assumption 39). -/
def Obligations.RingPassages : Prop :=
  (∀ (s : State) (die stop : Nat), (begin_ s).nextDue = none → Ends (.revolutionCount die stop) s fun t =>
    t.mem = s.mem ∧ t.d = { s.d with now := 128 * ((s.d.now - 2 * stop) / 128 + 1) + 2 * stop }) ∧
  (∀ (s : State) (die i slot : Nat) (o : RingOp) (l : RLane) (op : ROp) (sg : Bool) (g : Group),
    o.lanes = [l] → l.helper = false → o.act = .up op sg → o.slot = some slot → o.acq = false → s.slot? slot = some g →
    (s.d.die die).ringQ = [o] → (begin_ s).opWaits o = false →
    -- the word has met no strong access of another size (R88)
    Sizes s (o.obj + l.ofs) o.n ((begin_ s).ringAgent o) o.scope o.iss.vc → (begin_ s).isEntry ((o.obj + l.ofs) / 16 * 16) = false →
    let applied := fun (t : State) (r : RSlot) => SameMem s t ∧ (t.d.die die).ringQ = [] ∧
      (SlotOf t die i).data = payPut r.data l.ofs o.n (ringNew op sg o.n (payGet r.data l.ofs o.n) l.v l.c) ∧
      ∃ g', t.slot? slot = some g' ∧ g'.v = g.v ∧ g'.sreg = g.sreg ∧ g'.thr = g.thr ∧
        (g'.owed.map fun e => (e.id, e.dst)) = (g.owed.map fun e => (e.id, e.dst)) ∧
        ∀ e ∈ g'.owed, l.owed = some e.id → e.pay = .ready (valWords o.wide o.n .zero (payGet r.data l.ofs o.n))
    (∀ r, r = SlotOf s die i → r.captured = false → r.applies i s.d.now = true → r.from_ ≤ s.d.now → o.remote = false →
      o.obj = r.obj → o.since ≤ s.d.now → nextPass i o.stop s.d.now = s.d.now →
      Ends (.ringOpApply die i o.stop) s fun t => applied t r) ∧
    ∀ r, (s.d.die die).slots = [(i, r)] → r.used = true → r.obj = o.obj → o.remote = true → (∃ h, homeOf s.d o.obj = .die h) →
      r.applies i s.d.now = true → nextPass i 0 s.d.now = s.d.now → r.lastOrd ≠ some s.d.now → r.lastOwn ≠ some s.d.now →
      Ends (.remoteRingOp die 0) s fun t => applied t r ∧ ∃ g', t.slot? slot = some g' ∧ g'.acks = g.acks - 1) ∧
  (∀ (s : State) (die k : Nat) (b : Board), (s.d.die die).boardQ = [b] → b.slot = some k → (SlotOf s die k).used = false →
    s.d.pkg.rdyPkg.getLsbD (bRING die) = true → s.d.pkg.failPkg.getLsbD (bRING die) = false → (s.d.die die).drain = none →
    (begin_ s).leaseFree b.obj = true → homeUp s.d b.obj = true → (begin_ s).deadAt b.obj true = false →
    Ends (.objectBoarding die) s fun t => SameMem s t ∧ t.d.groups = s.d.groups ∧ (t.d.die die).boardQ = [] ∧
      let r := SlotOf t die k
      r.used = true ∧ r.obj = b.obj ∧ r.data = (begin_ s).load b.obj 64 ∧ r.captured = false ∧ r.mark = none ∧
        r.from_ = nextPass k 0 (s.d.now + 1)) ∧
  -- idle alighting, at the gate passage at which 64 revolutions are over (the model's reading: assumption 39)
  (∀ (s : State) (die i : Nat), let r := SlotOf s die i
    (r.state i s.d.now = .riding → r.mark = none → nextPass i 0 s.d.now = s.d.now → r.touch + 64 ≤ passRev i 0 s.d.now →
      Ends (.idleAlight die i) s fun t => SameMem s t ∧ t.d.groups = s.d.groups ∧
        SlotOf t die i = { r with mark := some (s.d.now, 2) }) ∧
    (memWf s.mem = true → r.writeAt i = some s.d.now → (begin_ s).leaseFree r.obj = true →
      Ends (.alightWriteback die i) s fun t => t.d.groups = s.d.groups ∧ (SlotOf t die i).used = false ∧
        (begin_ t).load r.obj 64 = r.data % 256 ^ 64 ∧ ∀ a, a < r.obj ∨ r.obj + 64 ≤ a → t.byte a = s.byte a)) ∧
  ∀ (s : State) (die i : Nat) (g : Group) (c : Capture), let r := SlotOf s die i
    r.used = true → r.captured = true → s.d.now = passage i r.cstop r.cdl → (s.d.die die).ringQ = [] →
    s.slot? r.cgrp = some g → g.cap = some c → c.die = die → c.slot = i →
    Ends (.captureTimeout die i) s fun t => SameMem s t ∧ (SlotOf t die i).captured = false ∧
      (SlotOf t die i).data = r.data ∧ ∃ g', t.slot? r.cgrp = some g' ∧ g' = { g with cap := some { c with timedOut := true } }

/-- R334, R122, Table 6.1: the steps of the commands of RINGCMD: a snapshot of a slot's header (its check bits apart); the slots that
commands name are marked for alighting, each command done when its slot is free, or at once if nothing rides in it; the drain
marks every slot and is done when all are free; its end. -/
def Obligations.RingCommands : Prop :=
  ∀ (s : State) (die : Nat) (c : Cmd),
    let found := fun code => (s.d.die die).ringCmds.find? (fun k => k.code == code && (k.st == .waiting || k.st == .started)) =
      some c
    let quiet := fun (t : State) => SameMem s t ∧ t.d.groups = s.d.groups ∧ t.d.blocks = s.d.blocks
    let marked := fun (q : RSlot) => if q.used = true ∧ q.mark = none then { q with mark := some (max s.d.now q.from_, 1) } else q
    let r := SlotOf s die c.arg
    let st := r.state c.arg s.d.now
    ((s.d.die die).ringCmds.find? (fun k => k.code == 1 && k.st == .waiting && decide (k.since < s.d.now) &&
        nextPass k.arg 0 s.d.now == s.d.now) = some c → Ends (.ringSnapshot die) s fun t => quiet t ∧
      CmdIs t die c.id .done ∧
      let x := (t.d.die die).ringHhi.toNat * 2 ^ 64 + (t.d.die die).ringHlo.toNat
      x / 2 ^ 77 = r.obj / 64 % 2 ^ 51 ∧ x / 2 ^ 68 % 2 ^ 6 = r.cstop % 64 ∧ x / 2 ^ 61 % 2 ^ 7 = r.cgrp % 128 ∧
        x / 2 ^ 53 % 2 ^ 8 = r.cdl % 256 ∧ x / 2 ^ 45 % 2 ^ 8 = r.touch % 256 ∧
        x / 2 ^ 43 % 2 ^ 2 = (if st = .alighting then (r.mark.map Prod.snd).getD r.why else r.why) % 4 ∧
        x / 2 ^ 74 % 2 ^ 3 =
          if r.used = false then 0 else if s.d.now < r.from_ then 4 else if r.captured = true then 2
          else if ∃ m, r.mark = some m ∧ nextPass c.arg 0 m.1 ≤ s.d.now then 3 else 1) ∧
    (let cmds := (s.d.die die).ringCmds.filter fun k => k.code == 2 && (k.st == .waiting || k.st == .started)
     ((s.d.die die).ringCmds.map Cmd.id).Nodup → Ends (.ringSlotAlight die) s fun t => quiet t ∧
      (∀ i, (∀ k ∈ cmds, k.arg ≠ i) → SlotOf t die i = SlotOf s die i) ∧
      (c ∈ cmds →
        (r.used = false → CmdIs t die c.id .done) ∧
        (r.used = true → c.st = .started → CmdIs t die c.id .started) ∧
        (c.st = .waiting → st = .boarding → CmdIs t die c.id .done ∧ SlotOf t die c.arg = r) ∧
        (c.st = .waiting → (st = .riding ∨ st = .captured ∨ st = .alighting) → CmdIs t die c.id .started ∧
          SlotOf t die c.arg = marked r))) ∧
    (found 3 → c.st = .waiting → Ends (.ringDrain die) s fun t => quiet t ∧ (t.d.die die).drain = some c.slot ∧
      CmdIs t die c.id (if (s.d.die die).slots.any fun q => q.2.used then .started else .done) ∧
      ∀ i, SlotOf t die i = marked (SlotOf s die i)) ∧
    (found 3 → c.st = .started → (s.d.die die).slots.any (fun q => q.2.used) = false → Ends (.ringDrain die) s fun t =>
      quiet t ∧ CmdIs t die c.id .done ∧ (t.d.die die).drain = (s.d.die die).drain) ∧
    (found 4 → Ends (.ringDrainEnd die) s fun t => quiet t ∧ CmdIs t die c.id .done ∧ (t.d.die die).drain = none)

/-! ### Pergola -/

/-- R94, R146, R147, R154, R157, R296 to R302: builder commands, publication, statistics, traces and compositing, as they issue. A comp
counts in the gather/scatter class. pg.stat counts in no class, a command that returns PG_BADDESC needs the issuing die's engine, and
the arena is checked for engine writes by a builder command (the model's choices: assumptions 45, 100,
112). -/
def Obligations.PergolaIssue : Prop :=
  ∀ (s : State) (h : Hdr) (x : List Nat) (a : Opnd) (tk : BitVec 6) (p : PDesc),
    let w := begin_ s
    let l := x.headD 0
    let va : Int := ((s.op64 l a).toNat : Int)
    let on := EngineOnAt s (w.pgDie p) ePergola
    (RingRoom s →
      (∀ (cmd : Nat) (i : Instr), (cmd = 0 ∧ i = .pgBuild h tk a) ∨ (cmd = 1 ∧ i = .pgRefit h tk a) ∨ (cmd = 2 ∧ i = .pgRebal h tk a) →
        Runs i s h (a.names 2) [.s tk.toNat] x →
        (on → w.structAt va l true (some .engW) (cmd != 2) = .ok (some p) → Steps i s p.gpa [] fun e =>
          e = { s.newOp .pg (.pgBuild cmd p false none) with tok := some tk.toNat, waits := true }) ∧
        (EngineOn s ePergola → w.structAt va l true (some .engW) (cmd != 2) = .ok none → Enters i s { s.newOp .pg .plain with
          tok := some tk.toNat, word := 0x120 })) ∧
      (on → w.structAt va l false (some .engR) false = .ok (some p) →
        (FenceMet s .pkg → Runs (.pgPublish h tk a) s h (a.names 2) [.s tk.toNat] x →
          Steps (.pgPublish h tk a) s p.gpa [] fun e =>
            e = { s.newOp .pg (.pgPublish p) with tok := some tk.toNat, waits := true }) ∧
        (∀ d, Runs (.pgStat h false d a) s h (a.names 2) (d.names 8) x →
          Steps (.pgStat h false d a) s p.gpa (owes s x d 8 fun _ => .pend) fun e =>
            e.slots = [] ∧ e.tok = none ∧ ∃ o, e.kind = .pgStat p o) ∧
        ∀ any d ray, let c := if any then 1 else 5
          Runs (.trace h any d tk a ray) s h (a.names 2 ++ ray.names 8) (d.names c ++ [.s tk.toNat]) x →
          Steps (.trace h any d tk a ray) s p.gpa (owes s x d c fun _ => .pend) fun e =>
            e.tok = some tk.toNat ∧ e.cls = .pg ∧ e.waits = true ∧ ∃ rs, e.kind = .trace any p rs none ∧
              rs.map (fun r => (r.lane, r.helper, r.vals)) = x.map fun k =>
                (k, (s.here.thread k).helper, (List.range 8).map fun j => (w.opRun k ray j).toNat))) ∧
    (∀ d lf, s.here.acq = [] → va % 64 = 0 → va < 2 ^ 57 →
      w.translate (slotDie s.d.cur.slot) va.toNat .load (!s.myBlk.priv) = .ok lf → w.descWaits lf.pa = none →
      Runs (.pgStat h true d a) s h (a.names 2) (d.names 8) x →
      let f := fun lo n => BitVec.ofNat 32 (w.objData lf.pa / 2 ^ lo % 2 ^ n)
      (w.hdrKnown lf.pa = true → lf.pa % 64 = 0 → (∀ i < 64, NoRace s (lf.pa + i)) → Owes (.pgStat h true d a) s x d 8 fun _ =>
        .ready [f 352 32, f 320 32, f 448 32, f 416 32, f 288 32, f 256 32, f 0 6, 0]) ∧
      -- of another header the values are undefined (R297)
      (w.hdrKnown lf.pa = false → ∃ ws : Nat → List Word, (∀ k, (ws k).length = 8) ∧
        Owes (.pgStat h true d a) s x d 8 fun k => .ready (ws k))) ∧
    ∀ tr xo yo key col ps, let r := s.here.readT tr.toNat
      let core := slotCore s.d.cur.slot
      let at_ := fun k => ((s.op32 k xo).toNat, (s.op32 k yo).toNat)
      let inside := (realLanes s x).filter fun k => decide ((at_ k).1 < rCOLS r / 4) && decide ((at_ k).2 < rROWS r)
      EngineOn s ePergola → targetBad r = false →
      Runs (.comp h tr tk xo yo key col) s h (xo.names 1 ++ yo.names 1 ++ key.names 1 ++ col.names 4 ++ tNames tr)
        [.s tk.toNat] x →
      collect (inside.map fun k =>
        (w.keysOf .rmw ((rBASE r + (at_ k).2 * rSTRIDE r + 16 * (at_ k).1 : Nat) : Int) 16).map fun ks => (k, ks.headD 0)) = .ok ps →
      ∃ fs, fs.Pairwise (fun f g => f.key ≤ g.key) ∧ fs.Perm (ps.map fun q =>
          Frag.mk q.2 (s.op32 q.1 key).toNat ((List.range 4).map fun i => (w.opRun q.1 col i).toNat)) ∧
        Ends (.comp h tr tk xo yo key col) s fun t => Handed s t { s.newOp .gs (.comp fs) with
            tok := some tk.toNat, left := fs.length, word := BitVec.ofNat 64 (2 ^ 32 * (x.length - inside.length)) } [] ∧
          t.myBlk.core = s.myBlk.core ∧ t.d.dies = s.d.dies ∧ (∀ k, k ≠ core → t.d.core k = s.d.core k) ∧
          { t.d.core core with copies := [] } = { s.d.core core with copies := [] } ∧
          -- the core's remote-die copies of its pixels' lines go
          ∀ k, k ∈ (t.d.core core).copies ↔ k ∈ (s.d.core core).copies ∧
            (k.remote = true → ∀ q ∈ ps, homeOf s.d q.2 = .die (slotDie s.d.cur.slot) ∨ k.sector / 4 ≠ q.2 / 512)

/-- R151, R152, R154, R158, R301: a claimed command builds, and its blocks and their bits of the map are on their way, or it has
its code; once they have performed it ends at a gate passage of its object, its candidate on record. The blocks of an old
generation that is not pinned are reclaimed; a fragment is blended into its pixel. -/
def Obligations.PergolaPerform : Prop :=
  (∀ (s : State) (op cmd : Nat) (e : EOp) (p : PDesc),
    let w := begin_ s
    let old := w.objData p.gpa
    let hdr := if gHDR old = 0 then 0 else w.arenaRead p (gHDR old) 64
    let ks := w.buildKeys p cmd (gHDR old) hdr
    let plans := fun (parts : List EPart) (out : Option (Nat × List Nat) × Nat) => Ends (.builderCommand op) s fun t =>
      SameMem s t ∧ t.d.groups = s.d.groups ∧ t.d.dies = s.d.dies ∧ OpIs t op fun o =>
        o.waits = true ∧ o.parts = parts ∧ o.kind = .pgBuild cmd p true (some out)
    s.d.ops.find? (fun o => o.id == op) = some e → e.kind = .pgBuild cmd p true none → e.waits = true → e.parts = [] →
    (∀ k ∈ ks, w.deadAt k true = false) → w.readNow ks = true →
    (∀ c, w.candOf p cmd hdr s.d.free = .error c → plans [] (none, 2 ^ 32 * (c.2 % 2 ^ 32) + c.1)) ∧
    ∀ c, w.candOf p cmd hdr s.d.free = .ok c →
      (w.placeCand p hdr s.d.free c = none → w.reclaimable (w.genDie p.gpa) p old = false →
        plans [] (none, 0x125)) ∧
      ∀ q, w.placeCand p hdr s.d.free c = some q →
        plans (mapParts (w.mapChanges p q.own []) ++ q.writes.flatMap p.blockParts) (some (q.hdr, q.own ++ q.shared), 0)) ∧
  (∀ (s : State) (op cmd die i word : Nat) (e : EOp) (p : PDesc) (out : Option (Nat × List Nat)) (r : RSlot),
    let eng := (begin_ s).genDie p.gpa
    s.d.ops.find? (fun o => o.id == op) = some e → e.kind = .pgBuild cmd p true (some (out, word)) → e.waits = true →
    e.parts = [] → AtGate s p.gpa die i r →
    Ends (.builderCommand op) s fun t => SameMem s t ∧ t.d.groups = s.d.groups ∧
      OpIs t op (fun o => o.waits = false ∧ o.word = BitVec.ofNat 64 word) ∧
      (SlotOf t die i).data = putBits (match out with | some c => putBits r.data 192 64 c.1 | none => r.data) 63 1 0 ∧
      (t.d.die eng).trees = (s.d.die eng).trees ++ match out with
        | some c => [({ gpa := p.gpa, gen := none, blocks := c.2 }, p)]
        | none => []) ∧
  (∀ (s : State) (die k n d i : Nat) (g : PGen) (p : PDesc) (r : RSlot), (s.d.die die).trees[k]? = some (g, p) →
    g.gen = some n → AtGate s g.gpa d i r → n < gGEN r.data → gPIN r.data (n % 4) = 0 →
    (∀ q ∈ (begin_ s).mapChanges p [] ((s.d.die die).unshared g.gpa g), (begin_ s).leaseFree q.1 = true ∧
      homeUp s.d q.1 = true ∧ s.d.rideOf q.1 = none) →
    (∀ e ∈ s.d.ops, ∀ cmd q out, e.kind = .pgBuild cmd q true out → q.gpa = g.gpa → e.parts = []) →
    Ends (.pergolaReclaim die k) s fun t => t.d.groups = s.d.groups ∧ t.d.ops = s.d.ops ∧
      (t.d.die die).trees = (s.d.die die).trees.eraseIdx k) ∧
  ∀ (s : State) (op k : Nat) (e : EOp) (fs : List Frag) (f : Frag), s.d.ops.find? (fun o => o.id == op) = some e →
    s.d.ops = [e] → e.kind = .comp fs → fs[k]? = some f → (∀ g ∈ fs.take k, g.pa ≠ f.pa) → memWf s.mem = true →
    homeUp s.d f.pa = true → homeFailed s.d f.pa = false → (begin_ s).poisoned f.pa = false → s.d.rideOf f.pa = none →
    (begin_ s).leaseFree f.pa = true →
    let b := blend ((begin_ s).load f.pa 16) f
    let slot := e.slots.headD 0
    Ends (.engineWritePerform op k) s fun t => (∀ j, j ≠ slot → t.slot? j = s.slot? j) ∧
      -- a pixel of the group's own die: the revolution enters HORIZON (R93, R109)
      t.slot? slot = (s.slot? slot).map (fun g => if homeOf s.d f.pa = .die (slotDie slot) then
        { g with horizon := max g.horizon ((s.d.now - 126) / 128) } else g) ∧
      (begin_ t).load f.pa 16 = b.1 % 256 ^ 16 ∧
      (∀ a, a < f.pa ∨ f.pa + 16 ≤ a → t.byte a = s.byte a) ∧
      t.d.ops = [{ e with left := e.left - 1, kind := .comp (fs.eraseIdx k), word := if b.2 then e.word ||| 0x10000 else e.word }]

/-! ### Traps and signals -/

/-- R333, R345 step 4, R346: halt and its end, the handler's record, and the return from a trap to the frame's PC or, with
another ACTION, to the end of the block; the trap of an address that is no trapped group's frame. A group that goes on makes a save
asked for its block drain again (the model's reading: assumption 103); HTMPL is a physical address, and the record area is
translated on the partition's lowest die in privileged mode (assumption 12). -/
def Obligations.TrapReturns : Prop :=
  -- the block's save drains again, if one is asked for
  let draining := fun (s t : State) (k : Nat) => (∀ j, j ≠ k → sget? t.d.blocks j = sget? s.d.blocks j) ∧
    sget? t.d.blocks k = (sget? s.d.blocks k).map (fun b => { b with drained := false }) ∧
    (∀ c, { t.d.core c with pstat := 0 } = { s.d.core c with pstat := 0 }) ∧
    ∀ b c, sget? s.d.blocks k = some b → b.preq = some c → (t.d.core c).pstat = 1
  (∀ (s : State) (h : Hdr) (x : List Nat), Runs (.halt h) s h [] [] x →
    Acts (.halt h) s (fun g => { g with stop := some .halt, active := false }) (fun _ => id) id (fun _ => s.d.cur.next) s.ms) ∧
  (∀ (s : State) (slot : Nat) (g : Group), s.slot? slot = some g → slot < 65536 → g.stop = some .halt →
    (s.d.core (slotCore slot)).intPend &&& (s.d.core (slotCore slot)).intMask ≠ 0 →
    Ends (.haltResume slot) s fun t => SameMem s t ∧ draining s t g.blk ∧
      (∀ k, k ≠ slot → t.slot? k = s.slot? k) ∧ t.slot? slot = some { g with
        stop := none
        active := false
        since := 0 }) ∧
  (∀ (s : State) (slot addr cause p pa d i : Nat) (rest : List (Nat × Nat)) (g : Group) (r : RSlot) (lf : Leaf),
    let w := begin_ s
    let e := s.d.die (slotDie slot)
    let q := e.hq.toNat % 2 ^ 14
    let x := w.descOf p q
    let tail := r.data / 2 ^ 64 % 2 ^ 64
    s.slot? slot = some g → g.append = (addr, cause) :: rest → s.d.queuePart q = some p → w.headPa p q = some pa →
    AtGate s pa d i r → w.translate (s.d.partDie p) (dRAREA x + 64 * (tail % 2 ^ dLOG2N x)) .store false = .ok lf →
    w.leaseFree lf.pa = true → homeUp s.d lf.pa = true → s.d.rideOf lf.pa = none →
    tail < r.data % 2 ^ 64 + 2 ^ dLOG2N x → memWf s.mem = true →
    Ends (.handlerRecordAppend slot) s fun t =>
      Stored s t lf.pa 64
        (w.objData (e.hTmpl.toNat % 2 ^ 57 / 64 * 64) % 2 ^ 384 + 2 ^ 384 * addr + 2 ^ 448 * cause) ∧
      (SlotOf t d i).data = putBits r.data 64 64 (tail + 1) ∧ t.slot? slot = some { g with append := rest } ∧
      ∀ k, k ≠ slot → t.slot? k = s.slot? k) ∧
  (∀ (s : State) (h : Hdr) (a : Opnd) (l : Nat), let p := (s.op64 l a).toNat
    (∀ e ∈ s.d.groups, e.1 < 65536 → e.2.stop = some .trap → s.d.frameAddr e.1 ≠ p) → (begin_ s).frameReady p = true →
    memWf s.mem = true → s.here.owed = [] → Runs (.tret h a) s h (a.names 2) [] [l] → Ends (.tret h a) s fun t =>
      Trapped s t s.d.cur.slot s.d.cur.lanes (faultOf s cHANDLE_BAD [l] s.d.cur.pc true)) ∧
  ∀ (s : State) (h : Hdr) (a : Opnd) (l slot : Nat) (g : Group) (b : Block),
    let p := (s.op64 l a).toNat
    let f := (begin_ s).load p 64
    let cleared := fun (t : State) => (t.byte p).toNat = (s.byte p).toNat / 2 * 2 ∧ ∀ k, k ≠ p → t.byte k = s.byte k
    s.slot? slot = some g → g.stop = some .trap → slot < 65536 → slot ≠ s.d.cur.slot → s.d.frameAddr slot = p →
    (∀ e ∈ s.d.groups, e.1 ≠ slot → e.2.stop = some .trap → s.d.frameAddr e.1 ≠ p) → (begin_ s).frameReady p = true →
    (begin_ s).deadAt p true = false → s.d.rideOf p = none → memWf s.mem = true → (s.byte p).toNat % 2 = 1 →
    Runs (.tret h a) s h (a.names 2) [] [l] →
    (f / 2 ^ 128 % 4 = 0 → Ends (.tret h a) s fun t => cleared t ∧ SameAll s t ∧ Advances s t ∧
      (∀ k, k ≠ slot → k ≠ s.d.cur.slot → t.slot? k = s.slot? k) ∧
      (g.blk ≠ s.here.blk → (∀ j, j ≠ g.blk → j ≠ s.here.blk → sget? t.d.blocks j = sget? s.d.blocks j) ∧
        sget? t.d.blocks g.blk = (sget? s.d.blocks g.blk).map fun b => { b with drained := false }) ∧
      ∃ g', t.slot? slot = some g' ∧ g'.stop = none ∧ g'.stopLanes = [] ∧ g'.v = g.v ∧ g'.sreg = g.sreg ∧
        g'.active = false ∧ g'.append = g.append ∧
        ∀ k, (g'.thread k).pc = if k ∈ g.stopLanes ∧ (g.thread k).st ≠ .exited then BitVec.ofNat 57 (f / 2 ^ 199)
          else (g.thread k).pc) ∧
    (f / 2 ^ 128 % 4 ≠ 0 → sget? s.d.blocks g.blk = some b → s.d.cur.slot ∉ b.slots g.blk → Ends (.tret h a) s fun t =>
      cleared t ∧ Ended t g.blk b ∧ StatusSet s t b.launch (f / 2 ^ 144 % 2 ^ 16))

/-- R210, R347, R338, Tables 11.8 and 21.2: a parked fault is signalled by SIGNAL, by SIGTKT for a detached block, or by the
device, once it has been serviced; a handle with a reserved bit set, and a ticket that names no block, trap. SIGNAL acts on a parked
fault of any cause (the model's reading: assumption 53). -/
def Obligations.FaultSignals : Prop :=
  let token := fun (pk : Parked) => BitVec.ofNat 64 (2 ^ 63 + 2 ^ 16 * pk.page + pk.cause)
  let told := fun (s t : State) (k : Nat) (g : Group) (pk : Parked) => ∃ g', t.slot? k = some g' ∧ g'.v = g.v ∧
    g'.readS pk.tok = token pk ∧ (∀ n, n ≠ pk.tok → g'.readS n = g.readS n) ∧
    g'.pk = some { pk with signalled := true, late := g.stop.isSome } ∧
    ∀ j, j ≠ k → j ≠ s.d.cur.slot → t.slot? j = s.slot? j
  (∀ (s : State) (h : Hdr) (a : Opnd) (l k : Nat) (g : Group) (pk : Parked),
    let v := (s.op64 l a).toNat
    let n := s.d.frameAddr k + 256
    let notice := fun (t : State) => if pk.cause = cFLT_ABSENT then
        (t.byte n).toNat = (s.byte n).toNat / 2 * 2 ∧ ∀ b, b ≠ n → t.byte b = s.byte b
      else SameMem s t
    memWf s.mem = true → s.slot? k = some g → s.d.rideOf n = none →
    (begin_ s).passed.strongBefore s.d.cur.slot [l] s.d.nextId = false →
    (v = 2 ^ 21 * (v / 2 ^ 21 % 8) + 2 ^ 15 * (v / 2 ^ 15 % 64) + 2 ^ 8 * (v / 2 ^ 8 % 128) →
      k = 8192 * (v / 2 ^ 21) + 128 * (v / 2 ^ 15 % 64) + v / 2 ^ 8 % 128 → (begin_ s).leaseFree n = true →
      Runs (.signal h a) s h (a.names 2) [] [l] →
      (g.pk = some pk → Ends (.signal h a) s fun t => notice t ∧ Advances s t ∧ told s t k g pk) ∧
      (g.pk = none → Acts (.signal h a) s id (fun _ => id) id (fun _ => s.d.cur.next) s.ms)) ∧
    (s.here.owed = [] →
      let trap := fun i => Ends i s fun t =>
        Trapped s t s.d.cur.slot s.d.cur.lanes (faultOf s cHANDLE_BAD [l] s.d.cur.pc true)
      (v ≠ 2 ^ 21 * (v / 2 ^ 21 % 8) + 2 ^ 15 * (v / 2 ^ 15 % 64) + 2 ^ 8 * (v / 2 ^ 8 % 128) →
        Runs (.signal h a) s h (a.names 2) [] [l] → trap (.signal h a)) ∧
      ((∀ tk ∈ s.d.pkg.tickets, tk.ticket ≠ v / 128 * 128) → Runs (.sigtkt h a) s h (a.names 2) [] [l] → trap (.sigtkt h a))) ∧
    ∀ tk, s.d.pkg.tickets.find? (fun u => u.ticket == v / 128 * 128) = some tk → k = tk.key + v % 128 → g.blk = tk.key →
      g.pk = some pk → Runs (.sigtkt h a) s h (a.names 2) [] [l] →
      Ends (.sigtkt h a) s fun t => notice t ∧ Advances s t ∧ told s t k g pk) ∧
  ∀ (s : State) (slot e at_ lvl : Nat) (g : Group) (pk : Parked), s.slot? slot = some g → g.pk = some pk →
    pk.signalled = false →
    ((pk.cause = cGROW_STALL ∧ slot < 65536 ∧ (s.grp (partner slot)).extH = false) ∨
      -- the page's move has ended, and for FLT_LPDDR it lies in stacked DRAM or may be used where it lies
      ((begin_ s).leafAt (slotDie slot) (65536 * pk.page) = some (e, at_, lvl) ∧ e / 2 ^ 14 % 2 = 0 ∧
        (pk.cause = cFLT_MIGRATE ∨ (pk.cause = cFLT_LPDDR ∧ (e / 2 ^ 15 % 2 = 0 ∨ e / 2 ^ 13 % 2 = 0))))) →
    Ends (.faultSignal slot) s fun t => SameMem s t ∧ told s t slot g pk

/-! ### Privileged instructions with a step of their own -/

/-- R333, R356, R366, R354, R340: INTPEND, PARTMAP, ECCWIN, HOSTINT and XLINV. -/
def Obligations.PrivilegedSteps : Prop :=
  ∀ (s : State) (h : Hdr) (x : List Nat) (a : Opnd) (l : Nat),
    let die := slotDie s.d.cur.slot
    let core := slotCore s.d.cur.slot
    (Runs (.intpendClear h a) s h (a.names 1) [] x → Ends (.intpendClear h a) s fun t => SameMem s t ∧ Goes s t ∧
      t.d.dies = s.d.dies ∧ t.d.pkg = s.d.pkg ∧ (∀ c, c ≠ core → t.d.core c = s.d.core c) ∧
      { t.d.core core with intPend := 0 } = { s.d.core core with intPend := 0 } ∧
      ∀ i < 32, (t.d.core core).intPend.getLsbD i =
        ((s.d.core core).intPend.getLsbD i && x.all fun k => !(s.op32 k a).getLsbD i)) ∧
    (Runs (.partmapWrite h a) s h (a.names 1) [] [l] →
      (begin_ s).passed.strongBefore s.d.cur.slot [l] s.d.nextId = false →
      Ends (.partmapWrite h a) s fun t => SameMem s t ∧ Goes s t ∧ t.d.dies = s.d.dies ∧ t.d.cores = s.d.cores ∧
        let off := ∀ p < 8, (∃ k < 8, dieParts s.d k = p) → (s.d.part p).qctl.getLsbD 0 = false
        (off → t.d.pkg = { s.d.pkg with partMap := s.op32 l a &&& 0xFFFFFF }) ∧ (¬off → t.d.pkg = s.d.pkg)) ∧
    (Runs (.eccwinWrite h a) s h (a.names 1) [] [l] → ((s.d.die die).eccCnt.map Prod.fst).Nodup →
      Ends (.eccwinWrite h a) s fun t => SameMem s t ∧ Goes s t ∧ t.d.pkg = s.d.pkg ∧ t.d.cores = s.d.cores ∧
        (∀ k, k ≠ die → t.d.die k = s.d.die k) ∧ (t.d.die die).eccWin = s.op32 l a &&& 0xFFFF ∧
        (t.d.die die).eccStart = s.d.now ∧
        ∀ k, sget (t.d.die die).eccCnt k (0, false) = (0, (sget (s.d.die die).eccCnt k (0, false)).2)) ∧
    (Runs (.hostint h a) s h (a.names 1) [] x → s.d.cur.stamped = false →
      (FenceMet s .sys → s.d.pkg.linkStat.toNat % 256 ≠ 0 → Ends (.hostint h a) s fun t => Synced s t ∧
        t.d.pkg = { s.d.pkg with hostInts := s.d.pkg.hostInts ++ x.map fun k => (s.op32 k a).toNat % 2048 }) ∧
      (s.d.pkg.linkStat.toNat % 256 = 0 → Waits (.hostint h a) s x)) ∧
    (Runs (.xlinv h a) s h (a.names 2) [] x → (s.d.cur.stamped = false → Waits (.xlinv h a) s x) ∧
      ∀ args (id0 rev0 v : Nat → Nat), s.d.cur.stamped = true →
        (∀ k ∈ x, (s.here.thread k).wait.map Wait.why = some (.cont args) ∧
          args.find? (fun p => p.1 == k) = some (k, [id0 k, rev0 k, v k])) → rev0 (x.headD 0) + 16 ≤ s.d.now / 128 →
        (begin_ s).opsBefore (s.d.partDies (dieParts s.d die)) (id0 (x.headD 0)) = false →
        Ends (.xlinv h a) s fun t => SameMem s t ∧ Goes s t ∧ t.d.dies = s.d.dies ∧ t.d.cores = s.d.cores ∧
          { t.d.pkg with torn := [] } = { s.d.pkg with torn := [] } ∧
          ∀ q, q ∈ t.d.pkg.torn ↔ q ∈ s.d.pkg.torn ∧
            (q.part ≠ dieParts s.d die ∨ ∀ k ∈ x, xlCovers (v k) q.va q.size = false))

/-- R365, Table 24.6: a write of ATTADDR: its status where the address cannot be used, else the report and its signature in the
page, and one more report. The report's count includes itself, and the digests and the signature are functions left open (the
model's: assumptions 65, 19). -/
def Obligations.Attestation : Prop :=
  ∀ (s : State) (h : Hdr) (a : Opnd) (l : Nat),
    let va := (s.op64 l a).toNat % 2 ^ 57
    let die := slotDie s.d.cur.slot
    let tr := (begin_ s).translate die va .store (!s.myBlk.priv)
    let bad := fun c => Ends (.attaddr h a) s fun t => Synced s t ∧
      t.d.pkg = { s.d.pkg with attStat := BitVec.ofNat 32 (c % 65536) }
    FenceMet s .sys → Runs (.attaddr h a) s h (a.names 2) [] [l] →
    (va % 4096 ≠ 0 → bad cMISALIGN) ∧ (∀ c, va % 4096 = 0 → tr = .error c → c ≠ cWALKWAIT → c ≠ cWALKDEAD → bad c) ∧
    ∀ lf, va % 4096 = 0 → tr = .ok lf → memWf s.mem = true → (begin_ s).deadAt lf.pa true = false →
      (∀ i < 8, (begin_ s).leaseFree (lf.pa + 512 * i) = true ∧ homeUp s.d (lf.pa + 512 * i) = true) →
      (∀ i < 4096, s.d.rideOf (lf.pa + i) = none) →
      Ends (.attaddr h a) s fun t => Goes s t ∧
        let rep := lf.pa + 0x100
        let n := fun o k => (begin_ t).load (rep + o) k
        let p := s.d.pkg
        (∀ i < 32, t.byte (rep + i) = s.byte (lf.pa + i) ∧ t.byte (rep + 32 + i) = p.fwDigest.getD i 0 ∧
          t.byte (rep + 64 + i) = (Config.keyDigest 4).getD i 0) ∧
        n 96 4 = p.fwStat.toNat / 2 ^ 16 % 2 ^ 6 ∧ n 100 4 = p.podId.toNat ∧
        n 104 4 = (s.d.part (dieParts s.d die)).sysId.toNat ∧ n 108 4 = p.partMap.toNat ∧ n 112 4 = p.rdyPkg.toNat ∧
        n 116 4 = p.failPkg.toNat ∧ n 120 8 = p.rdyEng.toNat ∧ n 128 8 = p.failEng.toNat ∧
        n 136 8 = (p.reports + 1) % 2 ^ 64 ∧ (∀ i < 48, t.byte (rep + 144 + i) = 0) ∧
        (∀ i < 2420, t.byte (lf.pa + 0x1C0 + i) =
          (Config.sign (Config.sha3 ((List.range 192).map fun i => t.byte (rep + i)))).getD i 0) ∧
        (∀ b, b < rep ∨ lf.pa + 0x1C0 + 2420 ≤ b → t.byte b = s.byte b) ∧
        t.d.pkg.attStat = 0 ∧ t.d.pkg.reports = p.reports + 1

/-! ### Saving and restoring -/

/-- R48, R49, R51, Tables 2.5 to 2.7: save writes a stopped group's image, restore reads it back. What of the image the spec
leaves undefined is not stated. That every register of a halted group is live, and that a state code above 4 restores as exited, are
the model's (assumptions 58, 108). -/
def Obligations.SaveRestoreGroup : Prop :=
  ∀ (s : State) (h : Hdr) (slot handle : Opnd) (l k : Nat) (g : Group) (ps : List Nat),
    let va := (s.op64 l slot).toNat
    let die := slotDie s.d.cur.slot
    let vb := (s.blk g.blk).vbase
    memWf s.mem = true → s.slot? k = some g → g.stop.isSome = true → k ≠ s.d.cur.slot → vb ≤ 8 → g.contTok < 64 → va % 256 = 0 → va < 2 ^ 57 →
    handleGroup (s.op64 l handle).toNat = some k → s.d.cur.stamped = false → FenceMet s .blk →
    (let g := g.whole -- with the extended set that it still waits for, if it does (R350)
     let n := if g.extH then 0x8D00 else 0xD00 + 1024 * vb
     (begin_ s).groupQuiet k = true →
     RangeOk s ps va n → RangeWrites s ps va n → (begin_ s).mapPages die .engW false va n = .ok ps →
     Runs (.saveGroup h slot handle) s h (slot.names 2 ++ handle.names 2) [] [l] →
     ∃ t, Sys2Proof.Machine.exec (.saveGroup h slot handle) s = .next t ∧ Kept s t ∧ OnlyRange s t ps va n ∧
       let num := t.rangeNum ps va
       num 0 1 = g.extH.toNat + 2 * g.growW.isSome.toNat ∧ num 1 1 = vb ∧ num 8 8 = g.issue % 2 ^ 64 ∧ num 32 8 = g.horizon % 2 ^ 64 ∧
       (∀ j < 32, let th := g.thread j
         let at_ := 0x100 + 64 * j
         num at_ 8 = th.pc.toNat + 2 ^ 61 * th.st.code ∧ num (at_ + 16) 4 = th.l0.toNat ∧ num (at_ + 20) 4 = th.l1.toNat ∧
           num (at_ + 24) 4 = th.l2.toNat ∧ num (at_ + 28) 4 = th.l3.toNat ∧ num (at_ + 32) 2 % 2 ^ 15 = th.p.toNat ∧
           num (at_ + 36) 4 = th.stamp % 2 ^ 32 ∧ num (at_ + 40) 8 = th.seed.toNat ∧
           num (at_ + 8) 8 = (th.m.getD 0).toNat + 2 ^ 63 * th.m.isSome.toNat) ∧
       (∀ j < 64, num (0x900 + 8 * j) 8 = (g.readS j).toNat) ∧ (∀ j < 16, num (0xB00 + 32 * j) 32 = (g.readT j).toNat) ∧
       (∀ j < 8 * vb, ∀ i < 32, g.stop ≠ some .phint ∨ g.mBase.getLsbD (j / 8) = true →
         num (0xD00 + 128 * j + 4 * i) 4 = (g.readV i j).toNat) ∧
       ∀ j < 192, ∀ i < 32, g.extH = true → g.stop ≠ some .phint ∨ g.mExt.getLsbD (j / 24) = true →
         num (0x2D00 + 128 * j + 4 * i) 4 = (g.readV i (64 + j)).toNat) ∧
    ∀ ext : Bool, let n := if ext then 0x8D00 else 0xD00 + 1024 * vb
      let num := s.rangeNum ps va
      let free := g.extH = true ∨ (begin_ s).setFree k s.d.now = true
      (begin_ s).headExt va = ext → num 0 1 % 2 = ext.toNat → num 1 1 % 16 = vb →
      RangeOk s ps va n → RangeReads s ps va n → (begin_ s).mapPages die .engR false va n = .ok ps →
      Runs (.restoreGroup h slot handle) s h (slot.names 2 ++ handle.names 2) [] [l] →
      ∃ t, Sys2Proof.Machine.exec (.restoreGroup h slot handle) s = .next t ∧ SameMem s t ∧ SameAll s t ∧ Advances s t ∧
        (∀ j, j ≠ k → j ≠ s.d.cur.slot → t.slot? j = s.slot? j) ∧ (∀ j, sget? t.d.blocks j = sget? s.d.blocks j) ∧
        ∃ g', t.slot? k = some g' ∧ g'.stop = g.stop ∧ (g'.extH = true ↔ ext = true ∧ free) ∧ g'.issue = num 8 8 ∧ g'.owed = [] ∧
          (∀ j < 32, let th := g'.thread j
            let at_ := 0x100 + 64 * j
            th.pc = BitVec.ofNat 57 (num at_ 8) ∧ th.st.code = min 4 (num (at_ + 7) 1 / 32) ∧
              th.l0.toNat = num (at_ + 16) 4 ∧ th.l1.toNat = num (at_ + 20) 4 ∧ th.l2.toNat = num (at_ + 24) 4 ∧
              th.l3.toNat = num (at_ + 28) 4 ∧ th.p.toNat = num (at_ + 32) 2 % 2 ^ 15 ∧
              th.seed.toNat = num (at_ + 40) 8 ∧ (th.m.isSome = true ↔ num (at_ + 15) 1 / 128 = 1) ∧
              ∀ m, th.m = some m → m = BitVec.ofNat 57 (num (at_ + 8) 8)) ∧
          (∀ j < 64, (g'.readS j).toNat = num (0x900 + 8 * j) 8) ∧ (∀ j < 16, (g'.readT j).toNat = num (0xB00 + 32 * j) 32) ∧
          (∀ j < 8 * vb, ∀ i < 32, (g'.readV i j).toNat = num (0xD00 + 128 * j + 4 * i) 4) ∧
          -- V64 to V255, or they wait with the group for the set, as a grow waits (R350)
          (ext = true → free → ∀ j < 192, ∀ i < 32, (g'.readV i (64 + j)).toNat = num (0x2D00 + 128 * j + 4 * i) 4) ∧
          (ext = true → ¬free → g'.growW = some s.d.now ∧ ∃ e, g'.extIn = some e ∧ e.go = false ∧
            ∀ j < 192, ∀ i < 32, (sget e.regs (256 * i + 64 + j) 0).toNat = num (0x2D00 + 128 * j + 4 * i) 4)

/-- R50, R208, R350, Table 2.8: the block form: B registers and their owners, barrier phases, accumulators, the window where it is
live or was saved, the codebook record. That a halted group makes the whole window saved is the model's (assumption 58). -/
def Obligations.SaveRestoreBlock : Prop :=
  ∀ (s : State) (h : Hdr) (slot handle : Opnd) (l k : Nat) (b : Block) (ps : List Nat),
    let va := (s.op64 l slot).toNat
    let die := slotDie s.d.cur.slot
    let win := 0xD00 + 16384 * b.acc
    let n := win + 1024 * b.spad + 16
    memWf s.mem = true → (begin_ s).stoppedBlock (s.op64 l handle).toNat = some k → sget? s.d.blocks k = some b →
    k ≠ s.here.blk → va % 256 = 0 → va < 2 ^ 57 → s.d.cur.stamped = false → FenceMet s .blk → RangeOk s ps va n →
    ((∀ q ∈ b.slots k, (begin_ s).groupQuiet q = true) → RangeWrites s ps va n →
      (begin_ s).mapPages die .engW false va n = .ok ps →
      Runs (.saveBlock h slot handle) s h (slot.names 2 ++ handle.names 2) [] [l] →
      Ends (.saveBlock h slot handle) s fun t => Goes s t ∧ OnlyRange s t ps va n ∧
        (∀ j, j ≠ k → j ≠ s.here.blk → sget? t.d.blocks j = sget? s.d.blocks j) ∧
        (∃ b', sget? t.d.blocks k = some b' ∧ { b' with saved := 0 } = { b with saved := 0 }) ∧
        let num := t.rangeNum ps va
        (∀ j < 64, num (8 * j) 8 = (b.readB j).toNat ∧ num (0x200 + j) 1 = (sget? b.bown j).getD 0xFF % 256) ∧
        (∀ j < 16, num (0x240 + 8 * j) 4 = (sget b.bars j Bar.zero).phase % 2 ^ 32) ∧
        (∀ j < 4096 * b.acc, num (0xD00 + 4 * j) 4 = (sget b.accs j 0).toNat) ∧
        (∀ j < 1024 * b.spad, (∃ q ∈ b.slots k, ∃ g, s.slot? q = some g ∧ (g.stop = some .trap ∨ g.stop = some .halt ∨
            g.mSpad.getLsbD (j / (64 * b.spad)) = true)) →
          t.byte (rangeAt ps va (win + j)) = s.byte (spadKey k j)) ∧
        num (win + 1024 * b.spad) 16 = (b.cbRec + 2 ^ 127 * b.cb.isSome.toNat) % 2 ^ 128) ∧
    let num := s.rangeNum ps va
    num (win + 1024 * b.spad + 15) 1 < 128 → RangeReads s ps va n → (begin_ s).mapPages die .engR false va n = .ok ps →
      Runs (.restoreBlock h slot handle) s h (slot.names 2 ++ handle.names 2) [] [l] →
      Ends (.restoreBlock h slot handle) s fun t => Goes s t ∧
        (∀ j, j ≠ k → j ≠ s.here.blk → sget? t.d.blocks j = sget? s.d.blocks j) ∧
        (∀ a, (a < spadKey k 0 ∨ spadKey k (1024 * b.spad) ≤ a) → t.byte a = s.byte a) ∧
        (∀ j < 1024 * b.spad, b.saved.testBit (j / (64 * b.spad)) = true →
          t.byte (spadKey k j) = s.byte (rangeAt ps va (win + j))) ∧
        ∃ b', sget? t.d.blocks k = some b' ∧ b'.cb = none ∧ b'.launch = b.launch ∧ b'.idx = b.idx ∧
          (∀ j < 64, (b'.readB j).toNat = num (8 * j) 8 ∧
            sget? b'.bown j = if num (0x200 + j) 1 = 0xFF then none else some (num (0x200 + j) 1)) ∧
          (∀ j < 16, (sget b'.bars j Bar.zero).phase = num (0x240 + 8 * j) 4) ∧
          ∀ j < 4096 * b.acc, (sget b'.accs j 0).toNat = num (0xD00 + 4 * j) 4

/-! ### Pre-emption -/

/-- R348, R349: the steps of PCMD's commands and of the drain. That GO resumes the groups stopped at a phint only, PSTAT, that a
detached block's registers stay until ATTACH, and that a block which goes on is drained anew are the model's (assumptions 57, 67,
103). -/
def Obligations.Preemption : Prop :=
  ∀ (s : State) (core k : Nat) (c : Cmd) (b : Block), sget? s.d.blocks k = some b →
    let w := begin_ s
    let done := fun t => PcmdIs t core c.id .done
    let others := fun (t : State) => ∀ j, j ≠ k → sget? t.d.blocks j = sget? s.d.blocks j
    let goes := fun (t : State) => done t ∧ SameMem s t ∧ others t ∧ (∀ q, q ∉ b.slots k → t.slot? q = s.slot? q) ∧
      (∃ b', sget? t.d.blocks k = some b' ∧ b'.preq = none ∧ b'.drained = false ∧ b'.b = b.b ∧ b'.joins = b.joins) ∧
      ∀ q ∈ b.slots k, ∀ g, s.slot? q = some g → ∃ g', t.slot? q = some g' ∧
        -- a group restored with an extended set goes once the set is granted to it (R350)
        g'.stop = (if g.stop = some .phint ∧ g.extIn = none then none else g.stop) ∧
        g'.extIn = g.extIn.map (fun e => if g.stop = some .phint then { e with go := true } else e) ∧
        (∀ l, { g'.thread l with wait := none } = { g.thread l with wait := none }) ∧ g'.v = g.v ∧ g'.t = g.t ∧
        (∀ n, (∀ p, g.pk = some p → p.late = true → n ≠ p.tok) → g'.readS n = g.readS n) ∧
        ∀ p, g.pk = some p → p.late = true → g'.readS p.tok = BitVec.ofNat 64 (2 ^ 63 + 2 ^ 16 * p.page + p.cause)
    (PcmdAt s core 1 c → w.handleBlk c.arg = some k → Ends (.preemptRequest core) s fun t => done t ∧ SameMem s t ∧
      t.d.groups = s.d.groups ∧ others t ∧ sget? t.d.blocks k = some { b with preq := some core, drained := false } ∧
      (t.d.core core).pstat = 1) ∧
    (PcmdAt s core 2 c → w.handleBlk c.arg = some k → b.preq.isSome = true → Ends (.preemptWithdraw core) s goes) ∧
    (PcmdAt s core 5 c → w.stoppedBlock c.arg = some k → Ends (.go core) s goes) ∧
    (∀ n, PcmdAt s core 3 c → w.stoppedBlock c.arg = some k → b.drained = true → b.gcnt ≤ 128 →
      (∀ q ∈ b.slots k, w.frameValid q = false) → s.d.pkg.tickets.length < 4096 → w.freeKey = some n →
      Ends (.detach core) s fun t => done t ∧ SameMem s t ∧ sget? t.d.blocks k = none ∧
        let k' := 65536 * (n + 1) + k
        (∃ b', sget? t.d.blocks k' = some b' ∧ b'.b = b.b ∧ b'.launch = b.launch ∧ b'.idx = b.idx ∧ b'.preq = none) ∧
        (∀ i < b.gcnt, t.slot? (k + i) = none ∧
          ∀ g, s.slot? (k + i) = some g → t.slot? (k' + i) = some { g with blk := k', extH := false, extIn := none }) ∧
        ∃ tk, t.d.pkg.tickets = s.d.pkg.tickets ++ [tk] ∧ tk.key = k' ∧ tk.ticket % 128 = 0 ∧
          (t.d.core core).parg = BitVec.ofNat 64 tk.ticket) ∧
    (∀ (toCore slot : Nat) (tk : Ticket) (ln : Launch), PcmdAt s core 4 c → w.ticket? c.arg = some tk → tk.key = k → 65536 ≤ k →
      toCore < 512 → slot < 128 → sget? s.d.launches b.launch = some ln → ln.dieMask.testBit (toCore / 64) = true →
      s.d.dieServes (toCore / 64) = true → w.fits (128 * toCore + slot) b.gcnt b.spad b.acc b.cb.isSome = true →
      Ends (.attach core toCore slot) s fun t => done t ∧ sget? t.d.blocks k = none ∧ (b.localKb = 0 → SameMem s t) ∧
        let k' := 128 * toCore + slot
        (∃ b', sget? t.d.blocks k' = some b' ∧ b'.b = b.b ∧ b'.launch = b.launch ∧ b'.idx = b.idx) ∧
        (∀ i < b.gcnt, t.slot? (k + i) = none ∧ ∀ g, s.slot? (k + i) = some g → t.slot? (k' + i) = some { g with
          blk := k'
          stop := some .phint
          active := false
          since := 0 }) ∧
        t.d.pkg.tickets = s.d.pkg.tickets.filter (fun u => u.ticket != tk.ticket) ∧
        (t.d.core core).parg = BitVec.ofNat 64 (2 ^ 63 + 2 ^ 21 * (toCore / 64) + 2 ^ 15 * (toCore % 64) + 2 ^ 8 * slot)) ∧
    (PcmdAt s core 6 c → w.handleBlk c.arg = some k → Ends (.endBlock core) s fun t => done t ∧ SameMem s t ∧ Ended t k b ∧
      StatusSet s t b.launch cBLOCK_ENDED) ∧
    (b.preq = some core → b.drained = false → (∀ q ∈ b.slots k, w.groupDrained q = true) → (∀ e ∈ s.d.ops, e.blk ≠ k) →
      Ends (.saveDrainComplete k) s fun t => SameMem s t ∧ others t ∧ (∀ q, q ∉ b.slots k → t.slot? q = s.slot? q) ∧
        (∀ q ∈ b.slots k, ∀ g, s.slot? q = some g → ∃ g', t.slot? q = some g' ∧ g'.sync = s.d.nextId ∧
          { g' with sync := 0, ep := 0, vc := [] } = { g with sync := 0, ep := 0, vc := [] }) ∧
        sget? t.d.blocks k = some { b with drained := true } ∧ Raised s t core 2 ∧
        (s.d.blocks = [(k, b)] → (t.d.core core).pstat = 0))

/-! ### Queues, launches and blocks -/

/-- R20 to R24, R31, R323, R326, R330, R331: records are popped, blocks placed and retired, launches end, groups change places. The
header rewritten at each retirement with the status so far, staggers, which launch places first and from when it waits, and what an
unreadable record does are the model's (assumptions 94, 61, 102, 60). -/
def Obligations.LaunchesBlocks : Prop :=
  (∀ (s : State) (q p head d i pa : Nat) (r : RSlot),
    let w := begin_ s
    let x := w.descOf p q
    let j := r.data % 2 ^ 64
    let n := bytesNat (w.physBytes pa 64)
    s.d.servers q = [p] → s.d.pkg.rdyPkg.getLsbD 0 = true → dEN x = true →
    dKIND x = false → w.descBad p x = false → w.look (s.d.partDie p) (dHOBJ x) .ring = .ok head →
    s.d.launches.length < 4096 → w.holdsRecord q = false → AtGate s head d i r → j < r.data / 2 ^ 64 % 2 ^ 64 →
    w.look (s.d.partDie p) (dRAREA x + 64 * (j % 2 ^ dLOG2N x)) .load = .ok pa → w.misled q x r.data head pa = false →
    let popped := fun t => (SlotOf t d i).data = putBits r.data 0 64 (j + 1) ∧ t.d.groups = s.d.groups ∧ t.d.blocks = s.d.blocks
    (w.judge p x n = .launch → Ends (.queuePop q) s fun t => SameMem s t ∧ popped t ∧
      (∀ k, k ≠ s.d.nextId → sget? t.d.launches k = sget? s.d.launches k) ∧
      ∃ ln, sget? t.d.launches s.d.nextId = some ln ∧ ln.rec_ = LRec.ofNat n ∧ ln.queue = q ∧ ln.popTime = s.d.now ∧ ln.waitFrom = s.d.now ∧
        ln.pri = min (dQPRI x) (n / 2 ^ 72 % 8) ∧ ln.dieMask = dDIEMASK x ∧ ln.priv = dPRIV x ∧ ln.created = [] ∧
        ln.retired = [] ∧ ln.status = 0 ∧ ln.after = w.feeders q head j) ∧
    (∀ c, w.judge p x n = .bad c → s.d.rideOf c = none → memWf s.mem = true → c % 64 = 0 →
      Ends (.queuePop q) s fun t => Stored s t c 64 cLAUNCH_BAD ∧ popped t ∧ t.d.launches = s.d.launches) ∧
    (w.judge p x n = .rej → Ends (.queuePop q) s fun t => SameMem s t ∧ popped t ∧ t.d.launches = s.d.launches ∧
      t.d.pkg.lrejq = BitVec.ofNat 64 (q + 2 ^ 32 * (j % 2 ^ 32)) ∧ ∀ c < 512, Raised s t c 6)) ∧
  (∀ (s : State) (id slot i : Nat) (is : List Nat) (ln : Launch),
    let w := begin_ s
    let r := ln.rec_
    sget? s.d.launches id = some ln → ln.gang = 0 → w.readyBlocks ln = i :: is → w.dieTakes ln (slot / 8192) = true →
    w.turnOf id (slot / 8192) ln = true → w.fits slot (r.gpb + 1) r.spad r.acc false = true → memWf s.mem = true →
    Ends (.blockPlace id [slot]) s fun t =>
      sget? t.d.launches id = some { ln with created := ln.created ++ [i], waitFrom := s.d.now } ∧
      (∀ k, k ≠ slot → sget? t.d.blocks k = sget? s.d.blocks k) ∧
      (∀ k, (k < slot ∨ slot + r.gpb < k) → t.slot? k = s.slot? k) ∧
      (∀ j < 1024 * r.spad, t.byte (spadKey slot j) = 0) ∧
      (ln.localKb = 0 → ∀ a, (a < spadKey slot 0 ∨ spadKey slot (1024 * r.spad) ≤ a) → t.byte a = s.byte a) ∧
      (∃ b, sget? t.d.blocks slot = some b ∧ b.launch = id ∧ b.idx = i ∧ b.gcnt = r.gpb + 1 ∧ b.vbase = r.vbase ∧
        b.spad = r.spad ∧ b.acc = r.acc ∧ b.priv = ln.priv ∧ b.gridx = i % r.width ∧ b.gridy = i / r.width ∧
        b.readB 0 = r.arg.zeroExtend 64 ∧ b.readB 1 = BitVec.ofNat 64 i ∧ b.readB 2 = BitVec.ofNat 64 r.nblk ∧
        b.readB 3 = r.inl0 ∧ b.readB 4 = r.inl1) ∧
      ∀ q ≤ r.gpb, ∃ g, t.slot? (slot + q) = some g ∧ g.blk = slot ∧ g.gidx = q ∧ g.stop = none ∧ g.extH = false ∧
        ∀ l < 32, let th := g.thread l
          th.pc = r.kaddr ∧ th.st = .runnable ∧ th.m = none ∧ th.p = 0 ∧
            th.seed = BitVec.ofNat 64 (2 ^ 32 * (i % 2 ^ 32) + 32 * q + l)) ∧
  (∀ (s : State) (k c : Nat) (b : Block), sget? s.d.blocks k = some b → b.stagger = some (none, c) → c ≤ s.d.now →
    Ends (.staggerExpiry k) s fun t => SameMem s t ∧ t.d.groups = s.d.groups ∧
      sget? t.d.blocks k = some { b with stagger := none } ∧ ∀ j, j ≠ k → sget? t.d.blocks j = sget? s.d.blocks j) ∧
  (∀ (s : State) (k pa pa0 : Nat) (b : Block) (ln : Launch),
    let w := begin_ s
    let w' := w.countBlk ln
    let c := w.blockClock b k
    let n := ln.retired.length + 1
    sget? s.d.blocks k = some b → (∀ q ∈ b.slots k, w.groupOver q = true) → (∀ e ∈ s.d.ops, e.blk ≠ k) → memWf s.mem = true →
    sget? s.d.launches b.launch = some ln → w.complPa ln 0 = some pa0 → w.complPa ln (64 + b.idx / 8) = some pa →
    w'.complPa ln (64 + b.idx / 8) = some pa → s.d.rideOf pa = none → s.d.rideOf pa0 = none →
    (pa < pa0 ∨ pa0 + 64 ≤ pa) → n ≤ ln.rec_.nblk → (n = ln.rec_.nblk → ((w'.setBit ln b.idx c).removeBlk k).complPa ln 0 = some pa0) →
    Ends (.blockRetire k) s fun t =>
      sget? t.d.blocks k = none ∧ (∀ q ∈ b.slots k, t.slot? q = none) ∧ (∀ q, q ∉ b.slots k → t.slot? q = s.slot? q) ∧
      (∀ j, j ≠ k → sget? t.d.blocks j = (sget? s.d.blocks j).map fun c =>
        { c with stagger := c.stagger.map fun p => if p.1 = some k then (none, s.d.now + p.2) else p }) ∧
      (t.byte pa).toNat = (s.byte pa).toNat ||| 2 ^ (b.idx % 8) ∧
      (begin_ t).load pa0 64 = ln.status % 65536 + 2 ^ 32 * (n % 2 ^ 32) ∧
      (∀ a, a ≠ pa → (a < pa0 ∨ pa0 + 64 ≤ a) → t.byte a = s.byte a) ∧
      (n = ln.rec_.nblk → sget? t.d.launches b.launch = none) ∧ (n < ln.rec_.nblk → ∃ ln', sget? t.d.launches b.launch = some ln' ∧
        { ln' with bars := [] } = { ln with retired := ln.retired ++ [b.idx], ran := Clock.join ln.ran c, bars := [] } ∧
        -- its groups leave the barriers wider than it (R17)
        ∀ m bar, sget? ln'.bars m = some bar → ∀ q ∈ bar.arrived, q ∉ b.slots k)) ∧
  (∀ (s : State) (core id : Nat) (c : Cmd) (ln : Launch), PcmdAt s core 7 c → (begin_ s).launchAt c.arg = some id →
    sget? s.d.launches id = some ln → ((begin_ s).complPa ln 0).isSome = true →
    (∀ i ≤ ln.rec_.nblk / 512, ((begin_ s).complPa ln (64 + 64 * i)).isSome = true) →
    Ends (.endLaunch core) s fun t => PcmdIs t core c.id .done ∧
      ((∀ i < ln.rec_.nblk, i ∈ ln.created) → ln.retired.length < ln.rec_.nblk → SameMem s t) ∧
      (∀ ln', sget? t.d.launches id = some ln' → ln'.ending = true ∧
        ln'.status = (if ln.status = 0 then cBLOCK_ENDED else ln.status) ∧ ∀ i < ln.rec_.nblk, i ∈ ln'.created) ∧
      (∀ k b, sget? s.d.blocks k = some b → b.launch = id → Ended t k b) ∧
      ∀ tk ∈ t.d.pkg.tickets, tk ∈ s.d.pkg.tickets ∧ ∀ b, sget? s.d.blocks tk.key = some b → b.launch ≠ id) ∧
  ∀ (s : State) (out in_ : Nat) (g : Group), s.slot? in_ = some g → (begin_ s).readyLongest in_ g = true →
    let now := fun (t : State) => SameMem s t ∧ t.d.blocks = s.d.blocks ∧ t.slot? in_ = some { g with
      active := true
      since := 0
      turn := s.d.now }
    (((begin_ s).activeIn in_).length < 8 → Ends (.groupExchange out in_) s fun t => now t ∧
      ∀ k, k ≠ in_ → t.slot? k = s.slot? k) ∧
    ∀ o, 8 ≤ ((begin_ s).activeIn in_).length → s.slot? out = some o → o.active = true → o.longWait = true → out < 65536 →
      slotCore out = slotCore in_ → out % 4 = in_ % 4 → Ends (.groupExchange out in_) s fun t => now t ∧
        t.slot? out = some { o with active := false } ∧ ∀ k, k ≠ in_ → k ≠ out → t.slot? k = s.slot? k

/-! ### Pages, the host and the pod -/

/-- R79, R338, R325, R351 to R359: a page's move; accesses, ring operations, doorbells and interrupts from outside; sends; links. The
form of what comes from outside is the model's (assumptions 63, 64). -/
def Obligations.PagesLinks : Prop :=
  (∀ (s : State) (die at_ lvl e : Nat) (va newPa : Addr) (tier : Bool),
    let size := 2 ^ lvlShift lvl
    let new := newPa.toNat
    let mine := fun a => ∃ h, homeOf s.d a = .die h ∧ dieParts s.d h = dieParts s.d die
    (begin_ s).leafAt die va.toNat = some (e, at_, lvl) → e / 2 ^ 14 % 2 = 0 → new % size = 0 → mine new →
    mine (new + size - 1) → mine (eAddr e) → localTier new = tier → localTier (new + size - 1) = tier →
    (begin_ s).placeFree new size = true → (begin_ s).leafReady at_ = true → s.d.rideOf at_ = none → memWf s.mem = true →
    (begin_ s).load at_ 16 = e → Sizes s at_ 16 Agent.walker .pkg [] →
    Ends (.pageMoveStart die va newPa tier) s fun t => Stored s t at_ 16 (e + 2 ^ 14) ∧ t.d.groups = s.d.groups ∧
      ∃ m, t.d.pkg.moves = s.d.pkg.moves ++ [m] ∧ m.die = die ∧ m.leaf = at_ ∧ m.old = eAddr e ∧ m.new = new ∧
        m.size = size ∧ m.tier = tier) ∧
  (∀ (s : State) (k : Nat) (m : Move),
    let w := begin_ s
    let e := w.load m.leaf 16
    s.d.pkg.moves[k]? = some m → w.opsBefore (s.d.partDies (dieParts s.d m.die)) m.mark = false → w.pageRides m = false →
    w.leafReady m.leaf = true → s.d.rideOf m.leaf = none → memWf s.mem = true → eAddr e = m.old →
    m.leaf % 16 = 0 → Sizes s m.leaf 16 Agent.walker .pkg [] →
    e / 2 ^ 14 % 2 = 1 → e % 2 = 1 → (m.leaf + 16 ≤ m.new ∨ m.new + m.size ≤ m.leaf) → m.new % 512 = 0 → m.size % 512 = 0 →
    Ends (.pageMoveEnd k) s fun t => t.d.groups = s.d.groups.map (fun q => (q.1, m.group q.2)) ∧ t.d.pkg.moves = s.d.pkg.moves.eraseIdx k ∧
      (∀ i < m.size, t.byte (m.new + i) = s.byte (m.old + i)) ∧
      (∀ a, (a < m.new ∨ m.new + m.size ≤ a) → (a < m.leaf ∨ m.leaf + 16 ≤ a) → t.byte a = s.byte a) ∧
      let e' := (begin_ t).load m.leaf 16
      eAddr e' = m.new / 512 % 2 ^ 48 * 512 ∧ e' / 2 ^ 15 % 2 = m.tier.toNat ∧ e' / 2 ^ 14 % 2 = 0 ∧
        e' % 2 ^ 14 = e % 2 ^ 14) ∧
  -- accesses of the host and of another package to this package's memory
  (∀ (s : State) (pa : Addr) (d n : Nat) (data cmp : QWord) (op : AOp) (ty : Ty) (host : Bool), let a := pa.toNat
    let mk := fun x => if host then Instr.hostAccess pa x else .podRemoteAccess pa x
    let old := (begin_ s).load a n
    let plain := (begin_ s).mixMode a = false ∧ ((begin_ s).isEntry (a / 16 * 16) = false ∨ n = 16) ∧
      Sizes s a n (if host then Agent.host else Agent.pod) .sys (if host then s.d.pkg.hostVc else [])
    (if host then s.d.pkg.linkStat.toNat % 256 else s.d.pkg.linkStat.toNat / 2 ^ 8 % 2 ^ 18) ≠ 0 →
    homeOf s.d a = .die d → a % n = 0 → n ∈ [1, 2, 4, 8, 16] → memWf s.mem = true → (begin_ s).gateNow a = true →
    s.d.rideOf a = none →
    (begin_ s).lateBefore [(a, n)] true (if host then Agent.host else Agent.pod) none s.d.nextId none = false →
    let reads := fun x => (∀ i < n, NoRace s (a + i)) → Ends (mk x) s fun t => Still s t
    let writes := fun x v => (begin_ s).leaseFree a = true → Ends (mk x) s fun t => Stored s t a n v ∧ t.d.groups = s.d.groups
    (plain → reads (.load n) ∧ writes (.store n data) data.toNat ∧
      (n = ty.bytes → op.tyOk ty = true → writes (.atomic op ty data) (atomNew op ty old data.toNat)) ∧
      ((n = 4 ∨ n = 8 ∨ (n = 16 ∧ host = false)) →
        writes (.cas n data cmp) (if old = cmp.toNat then data.toNat else old))) ∧
    (host = false → reads (.weakLoad n) ∧ writes (.weakStore n data) data.toNat)) ∧
  -- another package's ring operations wait for the gate of the object's die; its marks are made
  (∀ (s : State) (pa : Addr) (d : Nat) (ty : Ty) (rop : ROp) (data cmp : QWord) (k : Word), let a := pa.toNat
    s.d.pkg.linkStat.toNat / 2 ^ 8 % 2 ^ 18 ≠ 0 → homeOf s.d a = .die d →
    let waits := fun x n v c (act : RAct) => a % n = 0 → Ends (.podRemoteAccess pa x) s fun t => Still s t ∧
      ∃ r, (t.d.die d).ringQ = (s.d.die d).ringQ ++ [r] ∧ r.slot = none ∧ r.remote = true ∧ r.obj = a / 64 * 64 ∧ r.n = n ∧
        r.act = act ∧ r.lanes.map (fun k => (k.ofs, k.v, k.c)) = [(a % 64, v, c)]
    (rop.tyOk ty = true → waits (.ringUp rop ty data cmp) ty.bytes data.toNat cmp.toNat
      (.up rop (ty == .i8 || ty == .i16 || ty == .i32 || ty == .i64))) ∧
    waits (.ringPop k) 16 k.toNat 0 .pop ∧ ((ty.bytes = 4 ∨ ty.bytes = 8) → waits (.ringRd ty) ty.bytes 0 0 .rd) ∧
    (a % 64 = 0 → s.d.rideOf a = none → Ends (.podRemoteAccess pa .ringBoard) s fun t => Still s t ∧
      ∃ b ∈ (t.d.die d).boardQ, b.obj = a) ∧
    ∀ i r, a % 64 = 0 → s.d.rideOf a = some (d, i, r) → r.state i s.d.now = .riding → r.mark = none →
      Ends (.podRemoteAccess pa .ringAlight) s fun t => Still s t ∧ (SlotOf t d i).mark.map Prod.snd = some 1) ∧
  -- a doorbell: the addition to its queue's head object waits there, and the host is told once it has applied (R353)
  (∀ (s : State) (q p pa d : Nat) (n : DWord) (at_ : Addr), s.d.pkg.linkStat.toNat % 256 ≠ 0 → s.d.queuePart q = some p →
    (begin_ s).headPa p q = some pa → homeOf s.d pa = .die d →
    let rings := fun i => Ends i s fun t => Still s t ∧
      ∃ r, (t.d.die d).ringQ = (s.d.die d).ringQ ++ [r] ∧ r.obj = pa / 64 * 64 ∧ r.act = .bell n.toNat q true
    rings (.doorbell q n) ∧
      (homeOf s.d at_.toNat = .doorbell q → at_.toNat % 8 = 0 → rings (.hostAccess at_ (.store 8 (n.zeroExtend 128))))) ∧
  (∀ (s : State) (cs : List Nat), s.d.pkg.linkStat.toNat % 256 ≠ 0 → Ends (.hostInterrupt cs) s fun t => Still s t ∧
    ∀ c < 512, (c ∈ cs → Raised s t c 0) ∧ (c ∉ cs → t.d.core c = s.d.core c)) ∧
  (∀ (s : State) (core k : Nat) (x : Send), (s.d.pkg.sends.filter fun y => slotCore y.slot == core)[k]? = some x →
    s.d.pkg.linkStat.getLsbD 26 = true → memWf s.mem = true →
    (∀ o ∈ s.d.ops, o.id = x.op → ∀ off ∈ o.bo, Unread s (spadKey o.blk off) 16) →
    Ends (.sendAccept core k) s fun t => t.d.groups = s.d.groups ∧ t.d.blocks = s.d.blocks ∧ t.d.launches = s.d.launches ∧
      t.d.pkg.sends = s.d.pkg.sends.erase x ∧ t.d.pkg.outbox = s.d.pkg.outbox ++ [x] ∧
      (t.d.ops = s.d.ops.map fun o => if o.id = x.op then { o with left := o.left - 1 } else o) ∧
      match s.d.ops.find? fun o => o.id == x.op with
      | none => SameMem s t
      | some o => match o.bo with
        | none => SameMem s t
        | some off => let key := spadKey o.blk off
            let y := (begin_ s).load key 16
            let pend := (y % 2 ^ 56 + 2 ^ 56 - x.data.length) % 2 ^ 56
            -- PEND, as a signed number, stays in its range (R253)
            0 ≤ (BitVec.ofNat 56 y).toInt + 2 ^ 55 - x.data.length →
              Stored s t key 16 (boNext (y / 2 ^ 112) (y / 2 ^ 96 % 65536) (y / 2 ^ 64 % 2 ^ 32) (y.testBit 63) pend)) ∧
  -- what arrives is another package's, or this one's own: a fenced send of it behind its group's earlier ones (R359)
  (∀ (s : State) (part ofs d : Nat) (data : List Byte), let p := s.d.part part
    let own := (begin_ s).arriving part ofs data
    let sent := own.find? fun x => !(x.fenced && (begin_ s).sendBefore x)
    let left := fun (t : State) => t.d.pkg.outbox = match sent with | some x => s.d.pkg.outbox.erase x | none => s.d.pkg.outbox
    s.d.pkg.linkStat.getLsbD 26 = true → part < 8 →
    (own ≠ [] → sent = none → Ends (.sendDeliver part ofs data) s fun t => t = s) ∧ ((own = [] ∨ sent ≠ none) →
    (65536 * p.rxSize.toNat ≤ ofs → Ends (.sendDeliver part ofs data) s fun t => Still s t ∧ left t ∧
      t.d.part part = { p with soDrop := p.soDrop + 1 } ∧ ∀ k, k ≠ part → t.d.part k = s.d.part k) ∧
    let pa := (s.d.pkg.podId.toNat % 2 ^ 13) * 2 ^ 43 + p.rxBase.toNat % 2 ^ 43 / 65536 * 65536 + ofs
    ofs < 65536 * p.rxSize.toNat → homeOf s.d pa = .die d → data ≠ [] → pa % 16 + data.length ≤ 16 → memWf s.mem = true →
      (begin_ s).leaseFree pa = true → (begin_ s).gateNow pa = true → s.d.rideOf pa = none →
      Ends (.sendDeliver part ofs data) s fun t => t.d.groups = s.d.groups ∧ t.d.parts = s.d.parts ∧ left t ∧
        Stored s t pa data.length (bytesNat data))) ∧
  (∀ (s : State) (m : Fin 8) (up : Bool), m.val ∉ s.d.pkg.ucieDown → s.d.pkg.linkStat.getLsbD m.val = false →
    Ends (.ucieModuleTrain m up) s fun t => Still s t ∧ t.d.pkg =
      if up then { s.d.pkg with linkStat := s.d.pkg.linkStat ||| (1#32 <<< m.val) }
      else { s.d.pkg with ucieDown := s.d.pkg.ucieDown ++ [m.val] }) ∧
  (∀ (s : State) (ports : BitVec 18) (so : Bool), Ends (.scaleUpRouteChange ports so) s fun t => Still s t ∧
    { t.d.pkg with linkStat := 0 } = { s.d.pkg with linkStat := 0 } ∧
    t.d.pkg.linkStat.toNat % 256 = s.d.pkg.linkStat.toNat % 256 ∧ t.d.pkg.linkStat.toNat / 2 ^ 8 % 2 ^ 18 = ports.toNat ∧
    t.d.pkg.linkStat.getLsbD 26 = so) ∧
  ∀ (s : State) (sys : Bool) (id : BitVec 16) (m a x : Nat) (popped : Bool) (pb new : PodBar) (e : Nat × Launch),
    let k := 2 * id.toNat + sys.toNat
    let local_ := (begin_ s).podMembers id.toNat sys
    let complete := 0 < new.pbn ∧ new.pbn ≤ new.pops ∧ (begin_ s).podCreated id.toNat sys = true ∧ (∀ g ∈ local_, g ∈ new.bar.arrived) ∧
      new.members ≤ new.arrived + new.exited ∧ (new.bar.arrived ≠ [] ∨ new.arrived ≠ 0)
    id ≠ 0 → sget? s.d.pkg.podBars k = some pb → new = { pb with
      members := pb.members + m
      arrived := pb.arrived + a
      exited := pb.exited + x
      pops := pb.pops + popped.toNat } →
    new.arrived + new.exited ≤ new.members → e ∈ s.d.launches → e.2.pbid = id.toNat → e.2.pbsys = sys →
    Ends (.remoteBarrierArrival sys id m a x popped) s fun t => SameMem s t ∧ t.d.blocks = s.d.blocks ∧
      (¬complete → t.d.groups = s.d.groups ∧ sget? t.d.pkg.podBars k = some new) ∧
      (complete → ∃ pb', sget? t.d.pkg.podBars k = some pb' ∧ pb'.bar.phase = new.bar.phase + 1 ∧ pb'.bar.arrived = [] ∧
        (pb'.members, pb'.arrived, pb'.exited, pb'.pops, pb'.pbn) = (new.members, 0, new.exited, new.pops, new.pbn))

/-! ### Bring-up, power, errors -/

/-- R360 to R364: reset, reports of readiness and failure with their record, and the checks of firmware, which a failed function of it
makes none of. What reset keeps, the order of the functions' reports, RDYADDR as a physical address written whether or not a module is
up, the settings' coding and the hashes are the model's (assumptions 26, 65, 64, 19). -/
def Obligations.BringUp : Prop :=
  (∀ s : State, Ends .packageReset s fun t => t.mem = s.mem ∧ t.d.groups = [] ∧ t.d.blocks = [] ∧ t.d.launches = [] ∧
    t.d.ops = [] ∧ t.d.now = 0 ∧ (∀ c, t.d.core c = State.reset.d.core c) ∧ (∀ k, t.d.die k = State.reset.d.die k) ∧
    (∀ k, t.d.part k = State.reset.d.part k) ∧ t.d.pkg = { State.reset.d.pkg with
      rollback := s.d.pkg.rollback
      revoked := s.d.pkg.revoked }) ∧
  (∀ (s : State) (f : Fn), s.d.pkg.isReady f = false → s.d.pkg.isFailed f = false → memWf s.mem = true →
    s.d.rideOf (s.d.pkg.rdyAddr.toNat / 64 % 2 ^ 51 * 64) = none →
    let told := fun (t : State) => if s.d.pkg.rdyAddr.getLsbD 0 = true then
        let p := t.d.pkg
        Stored s t (s.d.pkg.rdyAddr.toNat / 64 % 2 ^ 51 * 64) 32 (p.rdyPkg.toNat + 2 ^ 32 * p.failPkg.toNat +
          2 ^ 64 * p.rdyEng.toNat + 2 ^ 128 * p.failEng.toNat + 2 ^ 192 * ((s.d.pkg.readySeq + 1) % 2 ^ 64)) ∧
        p.readySeq = s.d.pkg.readySeq + 1 ∧ p.hostInts = s.d.pkg.hostInts ++ [s.d.pkg.rdyVec.toNat]
      else SameMem s t ∧ t.d.pkg.hostInts = s.d.pkg.hostInts
    ((match f with
        | .hlink => s.d.pkg.linkStat.toNat % 256 ≠ 0
        | .fw => s.d.pkg.fwStat.toNat % 65536 = 1
        | _ => s.d.pkg.isReady .fw = true) →
      Ends (.functionReady f) s fun t => told t ∧ t.d.groups = s.d.groups ∧
        ∀ g, (t.d.pkg.isReady g = true ↔ s.d.pkg.isReady g = true ∨ g = f) ∧ t.d.pkg.isFailed g = s.d.pkg.isFailed g) ∧
    Ends (.functionFail f) s fun t => told t ∧
      ∀ g, t.d.pkg.isReady g = s.d.pkg.isReady g ∧ (t.d.pkg.isFailed g = true ↔ s.d.pkg.isFailed g = true ∨ g = f)) ∧
  ∀ (s : State) (header body : List Byte) (sets : List (BitVec 10 × DWord)), s.d.pkg.fwStat.toNat % 65536 = 0 →
    (s.d.pkg.isFailed .fw = true → Ends (.firmwareVerification header body sets) s fun t => t = s) ∧
    (s.d.pkg.isFailed .fw = false →
    let p := s.d.pkg
    let n := fun o => bytesNat ((header.drop o).take 4)
    let key := (header.drop 0x30).take 1312
    let form := header.length = 4096 ∧ n 0 = 0x46524C59 ∧ n 4 = 1 ∧ n 12 % 64 = 0 ∧ n 12 ≤ 67108864 ∧ body.length = n 12
    let known := ∃ i < 4, i ∉ p.revoked ∧ Config.sha3 key = Config.keyDigest i
    let signed := Config.sigOk key (Config.sha3 (header.take 0x550)) ((header.drop 0x550).take 2420) = true
    let whole := Config.sha3 body = (header.drop 0x10).take 32
    Ends (.firmwareVerification header body sets) s fun t =>
      let stops := fun c => Still s t ∧ t.d.pkg = { p with fwStat := BitVec.ofNat 32 c }
      (¬form → stops 2) ∧ (form → ¬known → stops 3) ∧ (form → known → ¬signed → stops 4) ∧
        (form → known → signed → ¬whole → stops 5) ∧ (form → known → signed → whole → n 8 < p.rollback → stops 6) ∧
        (form → known → signed → whole → p.rollback ≤ n 8 →
          t.d.groups = s.d.groups ∧ t.d.pkg.fwStat = BitVec.ofNat 32 (1 + 2 ^ 16 * (n 8 % 64)) ∧ t.d.pkg.rollback = n 8 ∧
            t.d.pkg.isReady .fw = true ∧ t.d.pkg.fwDigest = Config.sha3 (header.take 0x550) ∧
            ∀ v, sets = [(0x100, v)] → t.d.pkg.podId.toNat = v.toNat % 2 ^ 13))

/-- R84, R328, R329, R366, R368, R369: counts of corrected errors and their windows, an uncorrectable error, the throttle level,
the headroom's interrupt and the thermal trip. That no error is corrected in another bank of a unit with LAST, address 0 for kinds 0
and 1, PWR on all cores of the die, and the level kept where both conditions hold are the model's (assumptions 55, 56, 24). -/
def Obligations.PowerErrors : Prop :=
  ∀ (s : State) (die : Nat), die < 8 →
    let e := s.d.die die
    let only := fun (t : State) => Still s t ∧ t.d.parts = s.d.parts ∧ ∀ k, k ≠ die → t.d.die k = s.d.die k
    let still := fun (t : State) => only t ∧ t.d.pkg = s.d.pkg
    let span := e.eccWin.toNat % 65536 * 65536
    let cnt := fun (d : Die) k => sget d.eccCnt k (0, false)
    (∀ kind unit bank, kind ≤ 4 → bank < 64 → unit < 64 → (kind = 3 → unit < 32) → (kind = 4 → unit = 0) →
      let k := 4096 * kind + 64 * unit + bank
      let spent := ∃ c ∈ e.eccCnt, c.1 ≠ k ∧ c.1 / 64 = k / 64 ∧ c.2.2 = true
      (spent → Ends (.correctedError die kind unit bank) s fun t => t = s) ∧
      (¬spent → 0 < span → s.d.now + 1 < e.eccStart + span →
       Ends (.correctedError die kind unit bank) s fun t => still t ∧ t.d.cores = s.d.cores ∧
        let n := min 65535 ((cnt e k).1 + 1)
        let thr := e.eccThr.toNat % 65536
        cnt (t.d.die die) k = (n, (cnt e k).2 || (thr != 0 && decide (thr ≤ n))) ∧
          ∀ j, j ≠ k → cnt (t.d.die die) j = cnt e j)) ∧
    (0 < span → e.eccStart + span ≤ s.d.now → (e.eccCnt.map Prod.fst).Nodup → Ends (.eccWindowEnd die) s fun t =>
      still t ∧ t.d.cores = s.d.cores ∧ (∀ k, cnt (t.d.die die) k = (0, (cnt e k).2)) ∧
        (t.d.die die).eccStart = e.eccStart + (s.d.now - e.eccStart) / span * span) ∧
    (∀ (block : Nat) (b : Block) (kind : BitVec 3) (pa : Addr), sget? s.d.blocks block = some b → slotDie block = die →
      Ends (.memUncorr block kind pa) s fun t => SameMem s t ∧ Ended t block b ∧ StatusSet s t b.launch cMEM_UNCORR ∧
        -- ECCLAST of the die whose storage it is: the reader's, for an L2 slice or the ring the line's home
        let at_ := match homeOf s.d pa.toNat with | .die h => if kind.toNat ≤ 2 then die else h | _ => die
        Raised s t (slotCore block) 4 ∧ (t.d.die at_).eccLast =
          BitVec.ofNat 64 (2 ^ 61 * kind.toNat + if kind.toNat ≤ 1 then 0 else pa.toNat / 512 * 512)) ∧
    let lim := e.tlimit.toNat % 65536
    let room := fun (temp draw : Nat) => if lim ≤ temp then 0 else e.pbudget.toNat - draw
    let crit := e.pwrCtl.toNat / 2 ^ 16 % 2 ^ 16
    (∀ draw, e.trip = false → e.temp < lim + 120 → e.level ≤ 7 →
      Ends (.throttleStep die draw) s fun t => only t ∧ (t.d.die die).draw = draw ∧
        { t.d.pkg with pkgPwr := 0 } = { s.d.pkg with pkgPwr := 0 } ∧
        (s.d.now / 4096 ≤ e.win → (t.d.die die).level = e.level) ∧
        (s.d.now / 4096 = e.win + 1 → (t.d.die die).win = e.win + 1 ∧
          (e.winZero = true → e.winHigh = false → (t.d.die die).level = min 7 (e.level + 1)) ∧
          (e.winZero = false → e.winHigh = true → (t.d.die die).level = e.level - 1) ∧
          (e.winZero = e.winHigh → (t.d.die die).level = e.level))) ∧
    (∀ draw, room e.temp draw < crit → crit ≤ room e.temp e.draw → Ends (.headroomCrit die draw) s fun t => still t ∧
      (t.d.die die).draw = draw ∧ (∀ c < 64, Raised s t (64 * die + c) 5) ∧
      ∀ c, (c < 64 * die ∨ 64 * die + 64 ≤ c) → t.d.core c = s.d.core c) ∧
    (∀ temp : BitVec 16, lim + 120 ≤ temp.toNat → Ends (.thermalTrip die temp) s fun t => still t ∧
      (t.d.die die).temp = temp.toNat ∧ (t.d.die die).trip = true ∧ (t.d.die die).level = 7) ∧
    ∀ temp : BitVec 16, temp.toNat < lim → Ends (.thermalRelease die temp) s fun t => still t ∧
      (t.d.die die).temp = temp.toNat ∧ (t.d.die die).trip = false ∧
      (s.d.now / 4096 ≤ e.win → (t.d.die die).level = e.level)
end

