-- ==== Sys2Proof/Laws/Memory.lean ====
section
/-! SUPPORT. Memory keeps its canonical form, and what a read gives after a write. -/

namespace Sys2Proof.Machine

theorem memWfFrom_mono {lo lo' : Nat} {m : Memory} (h : memWfFrom lo m = true) (hl : lo' ≤ lo) :
    memWfFrom lo' m = true := by
  cases m with
  | nil => rfl
  | cons e t =>
    simp only [memWfFrom, Bool.and_eq_true, decide_eq_true_eq] at h ⊢
    exact ⟨⟨hl.trans h.1.1, h.1.2⟩, h.2⟩

theorem memWfFrom_mwrite {lo k : Nat} {m : Memory} (b : Byte) (h : memWfFrom lo m = true) (hk : lo ≤ k) :
    memWfFrom lo (mwrite m k b) = true := by
  induction m generalizing lo with
  | nil =>
    unfold mwrite
    split
    · rfl
    · next hb => simp [memWfFrom, hk, hb]
  | cons e t ih =>
    obtain ⟨k', b'⟩ := e
    simp only [memWfFrom, Bool.and_eq_true, decide_eq_true_eq, bne_iff_ne, ne_eq] at h
    unfold mwrite
    split
    · next hlt =>
      split
      · simpa [memWfFrom] using h
      · next hb =>
        simp only [memWfFrom, Bool.and_eq_true, decide_eq_true_eq, bne_iff_ne, ne_eq]
        exact ⟨⟨hk, hb⟩, ⟨hlt, h.1.2⟩, h.2⟩
    · next hlt =>
      split
      · next heq =>
        subst heq
        split
        · exact memWfFrom_mono h.2 (Nat.le_succ_of_le hk)
        · next hb =>
          simp only [memWfFrom, Bool.and_eq_true, decide_eq_true_eq, bne_iff_ne, ne_eq]
          exact ⟨⟨hk, hb⟩, h.2⟩
      · next hne =>
        simp only [memWfFrom, Bool.and_eq_true, decide_eq_true_eq, bne_iff_ne, ne_eq]
        exact ⟨h.1, ih h.2 (by omega)⟩

theorem memWfFrom_filter {lo : Nat} {m : Memory} (p : Nat × Byte → Bool) (h : memWfFrom lo m = true) :
    memWfFrom lo (m.filter p) = true := by
  induction m generalizing lo with
  | nil => rfl
  | cons e t ih =>
    obtain ⟨k, b⟩ := e
    simp only [memWfFrom, Bool.and_eq_true, decide_eq_true_eq] at h
    rw [List.filter_cons]
    split
    · simp only [memWfFrom, Bool.and_eq_true, decide_eq_true_eq]
      exact ⟨h.1, ih h.2⟩
    · exact memWfFrom_mono (ih h.2) (Nat.le_succ_of_le h.1.1)

/-- Every change to memory keeps the canonical form. -/
theorem memWf_mwrite {m : Memory} (k : Nat) (b : Byte) (h : memWf m = true) : memWf (mwrite m k b) = true :=
  memWfFrom_mwrite b h (Nat.zero_le k)

theorem memWf_mclear {m : Memory} (k n : Nat) (h : memWf m = true) : memWf (mclear m k n) = true :=
  memWfFrom_filter _ h

theorem memWf_apply {m : Memory} (e : MemEff) (h : memWf m = true) : memWf (e.apply m) = true := by
  cases e with
  | byte k b => exact memWf_mwrite k b h
  | clear k n => exact memWf_mclear k n h

/-- What a step leaves in memory is canonical. -/
theorem memWf_commit {m : Memory} (w : Work) (h : memWf m = true) : memWf (commit m w).mem = true := by
  show memWf (w.log.foldr (fun e m => e.apply m) m) = true
  induction w.log with
  | nil => exact h
  | cons e t ih => exact memWf_apply e ih

/-- A listed key is at least the bound. -/
theorem mread_below {lo k : Nat} {m : Memory} (h : memWfFrom lo m = true) (hk : k < lo) : mread m k = memBlank := by
  cases m with
  | nil => rfl
  | cons e t =>
    simp only [memWfFrom, Bool.and_eq_true, decide_eq_true_eq] at h
    simp [mread, Nat.lt_of_lt_of_le hk h.1.1]

theorem mread_mwriteFrom {lo : Nat} {m : Memory} (k j : Nat) (b : Byte) (h : memWfFrom lo m = true) :
    mread (mwrite m k b) j = if j = k then b else mread m j := by
  induction m generalizing lo with
  | nil =>
    unfold mwrite
    by_cases hb : b = memBlank
    · simp [hb, mread]
    · simp only [hb, ↓reduceIte, mread]
      by_cases hj : j = k
      · simp [hj]
      · simp [hj]
  | cons e t ih =>
    obtain ⟨k', b'⟩ := e
    simp only [memWfFrom, Bool.and_eq_true, decide_eq_true_eq] at h
    unfold mwrite
    by_cases hlt : k < k'
    · simp only [hlt, ↓reduceIte]
      by_cases hb : b = memBlank
      · simp only [hb, ↓reduceIte]
        by_cases hj : j = k
        · subst hj; simp [mread, hlt]
        · simp [hj]
      · simp only [hb, ↓reduceIte, mread]
        by_cases hj : j = k
        · subst hj; simp
        · simp only [hj, ↓reduceIte]
          by_cases hjk : j < k
          · simp [hjk, Nat.lt_trans hjk hlt]
          · simp [hjk]
    · by_cases heq : k = k'
      · subst heq
        simp only [Nat.lt_irrefl, ↓reduceIte]
        by_cases hb : b = memBlank
        · simp only [hb, ↓reduceIte]
          by_cases hj : j = k
          · subst hj; simpa using mread_below h.2 (Nat.lt_succ_self j)
          · simp only [hj, ↓reduceIte, mread]
            by_cases hjk : j < k
            · simp only [hjk, ↓reduceIte]; exact mread_below h.2 (Nat.lt_succ_of_lt hjk)
            · simp [hjk]
        · simp only [hb, ↓reduceIte, mread]
          by_cases hj : j = k
          · subst hj; simp
          · simp [hj]
      · simp only [hlt, heq, ↓reduceIte, mread]
        by_cases hj : j = k
        · subst hj
          simp only [hlt, heq, ↓reduceIte]
          rw [ih h.2]; simp
        · simp only [hj, ↓reduceIte]
          by_cases hjk : j < k'
          · simp [hjk]
          · by_cases hje : j = k'
            · simp [hje]
            · simp only [hjk, hje, ↓reduceIte]; rw [ih h.2]; simp [hj]

/-- The byte read after a write: the one written at its key, as before elsewhere. -/
theorem mread_mwrite {m : Memory} (k j : Nat) (b : Byte) (h : memWf m = true) :
    mread (mwrite m k b) j = if j = k then b else mread m j :=
  mread_mwriteFrom k j b h

theorem mread_mclearFrom {lo : Nat} {m : Memory} (k n j : Nat) (h : memWfFrom lo m = true) :
    mread (mclear m k n) j = if k ≤ j ∧ j < k + n then memBlank else mread m j := by
  unfold mclear
  induction m generalizing lo with
  | nil => simp [mread]
  | cons e t ih =>
    obtain ⟨k', b'⟩ := e
    simp only [memWfFrom, Bool.and_eq_true, decide_eq_true_eq] at h
    rw [List.filter_cons]
    by_cases hp : k' < k ∨ k + n ≤ k'
    · simp only [hp, Bool.or_eq_true, decide_eq_true_eq, ↓reduceIte, mread]
      by_cases hjk : j < k'
      · simp only [hjk, ↓reduceIte, ite_self]
      · by_cases hje : j = k'
        · subst hje
          have : ¬(k ≤ j ∧ j < k + n) := by omega
          simp [this]
        · simp only [hjk, hje, ↓reduceIte]
          exact ih h.2
    · simp only [hp, Bool.or_eq_true, decide_eq_true_eq, ↓reduceIte]
      rw [ih h.2]
      by_cases hin : k ≤ j ∧ j < k + n
      · simp [hin]
      · simp only [hin, ↓reduceIte, mread]
        have hne : j ≠ k' := by omega
        by_cases hjk : j < k'
        · simp only [hjk, ↓reduceIte]; exact mread_below h.2 (Nat.lt_succ_of_lt hjk)
        · simp [hjk, hne]

theorem mread_mclear {m : Memory} (k n j : Nat) (h : memWf m = true) :
    mread (mclear m k n) j = if k ≤ j ∧ j < k + n then memBlank else mread m j :=
  mread_mclearFrom k n j h

/-- After a step, memory reads as the step's working copy did. -/
theorem mread_commit {m : Memory} (w : Work) (k : Nat) (h : memWf m = true) (hb : w.base = m) :
    mread (commit m w).mem k = w.byte k := by
  subst hb
  show mread (w.log.foldr (fun e m => e.apply m) w.base) k = (logRead w.log k).getD (mread w.base k)
  have key : ∀ l : List MemEff, memWf (l.foldr (fun e m => e.apply m) w.base) = true ∧
      mread (l.foldr (fun e m => e.apply m) w.base) k = (logRead l k).getD (mread w.base k) := by
    intro l
    induction l with
    | nil => exact ⟨h, rfl⟩
    | cons e t ih =>
      refine ⟨memWf_apply e ih.1, ?_⟩
      cases e with
      | byte k' b =>
        rw [List.foldr_cons, logRead]
        refine (mread_mwrite k' k b ih.1).trans ?_
        rw [ih.2]
        split <;> rfl
      | clear k' n =>
        rw [List.foldr_cons, logRead]
        refine (mread_mclear k' n k ih.1).trans ?_
        rw [ih.2]
        split <;> rfl
  exact (key w.log).2

theorem Work.byte_setByte (w : Work) (k j : Nat) (b : Byte) :
    (w.setByte k b).byte j = if j = k then b else w.byte j := by
  simp only [Work.byte, Work.setByte, logRead]
  split <;> simp

/-- A store changes the bytes it covers, and no other. -/
theorem Work.byte_store_out (w : Work) (k n x j : Nat) (h : j < k ∨ k + n ≤ j) : (w.store k n x).byte j = w.byte j := by
  induction n generalizing w k x with
  | zero => rfl
  | succ n ih =>
    rw [Work.store, ih _ _ _ (by omega), Work.byte_setByte]
    have : j ≠ k := by omega
    simp [this]

theorem Work.byte_store_in (w : Work) (k n x i : Nat) (h : i < n) :
    (w.store k n x).byte (k + i) = BitVec.ofNat 8 (x / 256 ^ i) := by
  induction n generalizing w k x i with
  | zero => omega
  | succ n ih =>
    rw [Work.store]
    cases i with
    | zero =>
      rw [Work.byte_store_out _ _ _ _ _ (by omega), Work.byte_setByte]
      simp
    | succ i =>
      have := ih (w.setByte k (BitVec.ofNat 8 x)) (k + 1) (x / 256) i (by omega)
      rw [show k + (i + 1) = k + 1 + i by omega, this, Nat.div_div_eq_div_mul, Nat.pow_succ, Nat.mul_comm]

/-- What was stored is read back (R8). -/
theorem Work.load_store (w : Work) (k n x : Nat) : (w.store k n x).load k n = x % 256 ^ n := by
  have key : ∀ (n k x : Nat) (w : Work), (∀ i, i < n → w.byte (k + i) = BitVec.ofNat 8 (x / 256 ^ i)) →
      w.load k n = x % 256 ^ n := by
    intro n
    induction n with
    | zero => intro k x w _; simp [Work.load, Nat.mod_one]
    | succ n ih =>
      intro k x w hb
      have h0 := hb 0 (by omega)
      have := ih (k + 1) (x / 256) w (fun i hi => by
        have := hb (i + 1) (by omega)
        rw [show k + (i + 1) = k + 1 + i by omega] at this
        rw [this, Nat.div_div_eq_div_mul, Nat.pow_succ, Nat.mul_comm])
      simp only [Nat.add_zero, Nat.pow_zero, Nat.div_one] at h0
      rw [Work.load, this, h0, BitVec.toNat_ofNat]
      show x % 256 + 256 * (x / 256 % 256 ^ n) = x % 256 ^ (n + 1)
      rw [Nat.pow_succ, Nat.mul_comm (256 ^ n) 256, Nat.mod_mul]
  exact key n k x _ fun i hi => Work.byte_store_in w k n x i hi

end Sys2Proof.Machine
end

