-- ==== Sys2Proof/Laws/Sparse.lean ====
section
/-! SUPPORT. What reading a finite map gives after each operation on it. The laws hold of every list, in key order or
not. -/

namespace Sys2Proof.Machine

variable {α : Type}

theorem sget?_sset_same (m : Sparse α) (k : Nat) (v : α) : sget? (sset m k v) k = some v := by
  induction m with
  | nil => simp [sset, sget?]
  | cons e t ih =>
    obtain ⟨k', v'⟩ := e
    rcases Nat.lt_trichotomy k k' with h | h | h
    · simp [sset, h, sget?]
    · simp [sset, h, sget?]
    · simp [sset, Nat.lt_asymm h, Nat.ne_of_gt h, sget?, Nat.ne_of_lt h, ih]

theorem sget?_sset_ne (m : Sparse α) {k j : Nat} (v : α) (h : j ≠ k) : sget? (sset m k v) j = sget? m j := by
  induction m with
  | nil => simp [sset, sget?, h.symm]
  | cons e t ih =>
    obtain ⟨k', v'⟩ := e
    rcases Nat.lt_trichotomy k k' with h' | h' | h'
    · simp [sset, h', sget?, h.symm]
    · subst h'; simp [sset, sget?, h.symm]
    · by_cases hj : k' = j
      · subst hj; simp [sset, Nat.lt_asymm h', h.symm, sget?]
      · simp [sset, Nat.lt_asymm h', Nat.ne_of_gt h', sget?, hj, ih]

theorem sget?_sset (m : Sparse α) (k j : Nat) (v : α) :
    sget? (sset m k v) j = if j = k then some v else sget? m j := by
  split
  · next h => subst h; exact sget?_sset_same ..
  · next h => exact sget?_sset_ne m v h

theorem sget_sset (m : Sparse α) (k j : Nat) (v d : α) :
    sget (sset m k v) j d = if j = k then v else sget m j d := by
  unfold sget; rw [sget?_sset]; split <;> rfl

theorem sget?_supd (m : Sparse α) (k j : Nat) (f : α → α) :
    sget? (supd m k f) j = if j = k then (sget? m k).map f else sget? m j := by
  unfold supd
  cases h : sget? m k with
  | none => by_cases hj : j = k <;> simp [hj, h]
  | some v => simp only [sget?_sset, Option.map_some]

theorem sget?_sdel_same (m : Sparse α) (k : Nat) : sget? (sdel m k) k = none := by
  induction m with
  | nil => rfl
  | cons e t ih =>
    by_cases h : e.1 = k
    · simpa [sdel, h] using ih
    · simp only [sdel, List.filter_cons, bne_iff_ne, ne_eq, h, not_false_eq_true, ↓reduceIte] at ih ⊢
      simpa [sget?, h] using ih

theorem sget?_sdel_ne (m : Sparse α) {k j : Nat} (h : j ≠ k) : sget? (sdel m k) j = sget? m j := by
  induction m with
  | nil => rfl
  | cons e t ih =>
    by_cases he : e.1 = k
    · have hk : ¬k = j := fun h' => h h'.symm
      simpa [sdel, he, sget?, hk] using ih
    · simp only [sdel, List.filter_cons, bne_iff_ne, ne_eq, he, not_false_eq_true, ↓reduceIte] at ih ⊢
      simp only [sget?]
      split
      · rfl
      · exact ih

end Sys2Proof.Machine
end

