-- ==== Sys2Proof/Laws/State.lean ====
section
/-! SUPPORT. One lemma per field of State for each of its updates, and what the updated map gives. -/

namespace Sys2Proof.Machine

/-! ### Fields that an update leaves alone -/

@[simp] theorem Work.setGrp_now (w : Work) (k : Nat) (x : Group) : (w.setGrp k x).d.now = w.d.now := rfl
@[simp] theorem Work.setGrp_cur (w : Work) (k : Nat) (x : Group) : (w.setGrp k x).d.cur = w.d.cur := rfl
@[simp] theorem Work.setGrp_blocks (w : Work) (k : Nat) (x : Group) : (w.setGrp k x).d.blocks = w.d.blocks := rfl
@[simp] theorem Work.setGrp_launches (w : Work) (k : Nat) (x : Group) : (w.setGrp k x).d.launches = w.d.launches := rfl
@[simp] theorem Work.setGrp_cores (w : Work) (k : Nat) (x : Group) : (w.setGrp k x).d.cores = w.d.cores := rfl
@[simp] theorem Work.setGrp_dies (w : Work) (k : Nat) (x : Group) : (w.setGrp k x).d.dies = w.d.dies := rfl
@[simp] theorem Work.setGrp_parts (w : Work) (k : Nat) (x : Group) : (w.setGrp k x).d.parts = w.d.parts := rfl
@[simp] theorem Work.setGrp_pkg (w : Work) (k : Nat) (x : Group) : (w.setGrp k x).d.pkg = w.d.pkg := rfl
@[simp] theorem Work.setGrp_ops (w : Work) (k : Nat) (x : Group) : (w.setGrp k x).d.ops = w.d.ops := rfl
@[simp] theorem Work.setGrp_turns (w : Work) (k : Nat) (x : Group) : (w.setGrp k x).d.turns = w.d.turns := rfl
@[simp] theorem Work.setGrp_tick (w : Work) (k : Nat) (x : Group) : (w.setGrp k x).d.tick = w.d.tick := rfl
@[simp] theorem Work.setGrp_free (w : Work) (k : Nat) (x : Group) : (w.setGrp k x).d.free = w.d.free := rfl
@[simp] theorem Work.setGrp_nextId (w : Work) (k : Nat) (x : Group) : (w.setGrp k x).d.nextId = w.d.nextId := rfl
@[simp] theorem Work.setGrp_base (w : Work) (k : Nat) (x : Group) : (w.setGrp k x).base = w.base := rfl
@[simp] theorem Work.setGrp_log (w : Work) (k : Nat) (x : Group) : (w.setGrp k x).log = w.log := rfl

@[simp] theorem Work.updGrp_now (w : Work) (k : Nat) (f : Group → Group) : (w.updGrp k f).d.now = w.d.now := rfl
@[simp] theorem Work.updGrp_cur (w : Work) (k : Nat) (f : Group → Group) : (w.updGrp k f).d.cur = w.d.cur := rfl
@[simp] theorem Work.updGrp_blocks (w : Work) (k : Nat) (f : Group → Group) : (w.updGrp k f).d.blocks = w.d.blocks := rfl
@[simp] theorem Work.updGrp_launches (w : Work) (k : Nat) (f : Group → Group) : (w.updGrp k f).d.launches = w.d.launches := rfl
@[simp] theorem Work.updGrp_cores (w : Work) (k : Nat) (f : Group → Group) : (w.updGrp k f).d.cores = w.d.cores := rfl
@[simp] theorem Work.updGrp_dies (w : Work) (k : Nat) (f : Group → Group) : (w.updGrp k f).d.dies = w.d.dies := rfl
@[simp] theorem Work.updGrp_parts (w : Work) (k : Nat) (f : Group → Group) : (w.updGrp k f).d.parts = w.d.parts := rfl
@[simp] theorem Work.updGrp_pkg (w : Work) (k : Nat) (f : Group → Group) : (w.updGrp k f).d.pkg = w.d.pkg := rfl
@[simp] theorem Work.updGrp_ops (w : Work) (k : Nat) (f : Group → Group) : (w.updGrp k f).d.ops = w.d.ops := rfl
@[simp] theorem Work.updGrp_turns (w : Work) (k : Nat) (f : Group → Group) : (w.updGrp k f).d.turns = w.d.turns := rfl
@[simp] theorem Work.updGrp_tick (w : Work) (k : Nat) (f : Group → Group) : (w.updGrp k f).d.tick = w.d.tick := rfl
@[simp] theorem Work.updGrp_free (w : Work) (k : Nat) (f : Group → Group) : (w.updGrp k f).d.free = w.d.free := rfl
@[simp] theorem Work.updGrp_nextId (w : Work) (k : Nat) (f : Group → Group) : (w.updGrp k f).d.nextId = w.d.nextId := rfl
@[simp] theorem Work.updGrp_base (w : Work) (k : Nat) (f : Group → Group) : (w.updGrp k f).base = w.base := rfl
@[simp] theorem Work.updGrp_log (w : Work) (k : Nat) (f : Group → Group) : (w.updGrp k f).log = w.log := rfl

@[simp] theorem Work.updBlk_now (w : Work) (k : Nat) (f : Block → Block) : (w.updBlk k f).d.now = w.d.now := rfl
@[simp] theorem Work.updBlk_cur (w : Work) (k : Nat) (f : Block → Block) : (w.updBlk k f).d.cur = w.d.cur := rfl
@[simp] theorem Work.updBlk_groups (w : Work) (k : Nat) (f : Block → Block) : (w.updBlk k f).d.groups = w.d.groups := rfl
@[simp] theorem Work.updBlk_launches (w : Work) (k : Nat) (f : Block → Block) : (w.updBlk k f).d.launches = w.d.launches := rfl
@[simp] theorem Work.updBlk_cores (w : Work) (k : Nat) (f : Block → Block) : (w.updBlk k f).d.cores = w.d.cores := rfl
@[simp] theorem Work.updBlk_dies (w : Work) (k : Nat) (f : Block → Block) : (w.updBlk k f).d.dies = w.d.dies := rfl
@[simp] theorem Work.updBlk_parts (w : Work) (k : Nat) (f : Block → Block) : (w.updBlk k f).d.parts = w.d.parts := rfl
@[simp] theorem Work.updBlk_pkg (w : Work) (k : Nat) (f : Block → Block) : (w.updBlk k f).d.pkg = w.d.pkg := rfl
@[simp] theorem Work.updBlk_ops (w : Work) (k : Nat) (f : Block → Block) : (w.updBlk k f).d.ops = w.d.ops := rfl
@[simp] theorem Work.updBlk_turns (w : Work) (k : Nat) (f : Block → Block) : (w.updBlk k f).d.turns = w.d.turns := rfl
@[simp] theorem Work.updBlk_tick (w : Work) (k : Nat) (f : Block → Block) : (w.updBlk k f).d.tick = w.d.tick := rfl
@[simp] theorem Work.updBlk_free (w : Work) (k : Nat) (f : Block → Block) : (w.updBlk k f).d.free = w.d.free := rfl
@[simp] theorem Work.updBlk_nextId (w : Work) (k : Nat) (f : Block → Block) : (w.updBlk k f).d.nextId = w.d.nextId := rfl
@[simp] theorem Work.updBlk_base (w : Work) (k : Nat) (f : Block → Block) : (w.updBlk k f).base = w.base := rfl
@[simp] theorem Work.updBlk_log (w : Work) (k : Nat) (f : Block → Block) : (w.updBlk k f).log = w.log := rfl

@[simp] theorem Work.updCore_now (w : Work) (k : Nat) (f : Core → Core) : (w.updCore k f).d.now = w.d.now := rfl
@[simp] theorem Work.updCore_cur (w : Work) (k : Nat) (f : Core → Core) : (w.updCore k f).d.cur = w.d.cur := rfl
@[simp] theorem Work.updCore_groups (w : Work) (k : Nat) (f : Core → Core) : (w.updCore k f).d.groups = w.d.groups := rfl
@[simp] theorem Work.updCore_blocks (w : Work) (k : Nat) (f : Core → Core) : (w.updCore k f).d.blocks = w.d.blocks := rfl
@[simp] theorem Work.updCore_launches (w : Work) (k : Nat) (f : Core → Core) : (w.updCore k f).d.launches = w.d.launches := rfl
@[simp] theorem Work.updCore_dies (w : Work) (k : Nat) (f : Core → Core) : (w.updCore k f).d.dies = w.d.dies := rfl
@[simp] theorem Work.updCore_parts (w : Work) (k : Nat) (f : Core → Core) : (w.updCore k f).d.parts = w.d.parts := rfl
@[simp] theorem Work.updCore_pkg (w : Work) (k : Nat) (f : Core → Core) : (w.updCore k f).d.pkg = w.d.pkg := rfl
@[simp] theorem Work.updCore_ops (w : Work) (k : Nat) (f : Core → Core) : (w.updCore k f).d.ops = w.d.ops := rfl
@[simp] theorem Work.updCore_turns (w : Work) (k : Nat) (f : Core → Core) : (w.updCore k f).d.turns = w.d.turns := rfl
@[simp] theorem Work.updCore_tick (w : Work) (k : Nat) (f : Core → Core) : (w.updCore k f).d.tick = w.d.tick := rfl
@[simp] theorem Work.updCore_free (w : Work) (k : Nat) (f : Core → Core) : (w.updCore k f).d.free = w.d.free := rfl
@[simp] theorem Work.updCore_nextId (w : Work) (k : Nat) (f : Core → Core) : (w.updCore k f).d.nextId = w.d.nextId := rfl
@[simp] theorem Work.updCore_base (w : Work) (k : Nat) (f : Core → Core) : (w.updCore k f).base = w.base := rfl
@[simp] theorem Work.updCore_log (w : Work) (k : Nat) (f : Core → Core) : (w.updCore k f).log = w.log := rfl

@[simp] theorem Work.updDie_now (w : Work) (k : Nat) (f : Die → Die) : (w.updDie k f).d.now = w.d.now := rfl
@[simp] theorem Work.updDie_cur (w : Work) (k : Nat) (f : Die → Die) : (w.updDie k f).d.cur = w.d.cur := rfl
@[simp] theorem Work.updDie_groups (w : Work) (k : Nat) (f : Die → Die) : (w.updDie k f).d.groups = w.d.groups := rfl
@[simp] theorem Work.updDie_blocks (w : Work) (k : Nat) (f : Die → Die) : (w.updDie k f).d.blocks = w.d.blocks := rfl
@[simp] theorem Work.updDie_launches (w : Work) (k : Nat) (f : Die → Die) : (w.updDie k f).d.launches = w.d.launches := rfl
@[simp] theorem Work.updDie_cores (w : Work) (k : Nat) (f : Die → Die) : (w.updDie k f).d.cores = w.d.cores := rfl
@[simp] theorem Work.updDie_parts (w : Work) (k : Nat) (f : Die → Die) : (w.updDie k f).d.parts = w.d.parts := rfl
@[simp] theorem Work.updDie_pkg (w : Work) (k : Nat) (f : Die → Die) : (w.updDie k f).d.pkg = w.d.pkg := rfl
@[simp] theorem Work.updDie_ops (w : Work) (k : Nat) (f : Die → Die) : (w.updDie k f).d.ops = w.d.ops := rfl
@[simp] theorem Work.updDie_turns (w : Work) (k : Nat) (f : Die → Die) : (w.updDie k f).d.turns = w.d.turns := rfl
@[simp] theorem Work.updDie_tick (w : Work) (k : Nat) (f : Die → Die) : (w.updDie k f).d.tick = w.d.tick := rfl
@[simp] theorem Work.updDie_free (w : Work) (k : Nat) (f : Die → Die) : (w.updDie k f).d.free = w.d.free := rfl
@[simp] theorem Work.updDie_nextId (w : Work) (k : Nat) (f : Die → Die) : (w.updDie k f).d.nextId = w.d.nextId := rfl
@[simp] theorem Work.updDie_base (w : Work) (k : Nat) (f : Die → Die) : (w.updDie k f).base = w.base := rfl
@[simp] theorem Work.updDie_log (w : Work) (k : Nat) (f : Die → Die) : (w.updDie k f).log = w.log := rfl

@[simp] theorem Work.updPart_now (w : Work) (k : Nat) (f : Part → Part) : (w.updPart k f).d.now = w.d.now := rfl
@[simp] theorem Work.updPart_cur (w : Work) (k : Nat) (f : Part → Part) : (w.updPart k f).d.cur = w.d.cur := rfl
@[simp] theorem Work.updPart_groups (w : Work) (k : Nat) (f : Part → Part) : (w.updPart k f).d.groups = w.d.groups := rfl
@[simp] theorem Work.updPart_blocks (w : Work) (k : Nat) (f : Part → Part) : (w.updPart k f).d.blocks = w.d.blocks := rfl
@[simp] theorem Work.updPart_launches (w : Work) (k : Nat) (f : Part → Part) : (w.updPart k f).d.launches = w.d.launches := rfl
@[simp] theorem Work.updPart_cores (w : Work) (k : Nat) (f : Part → Part) : (w.updPart k f).d.cores = w.d.cores := rfl
@[simp] theorem Work.updPart_dies (w : Work) (k : Nat) (f : Part → Part) : (w.updPart k f).d.dies = w.d.dies := rfl
@[simp] theorem Work.updPart_pkg (w : Work) (k : Nat) (f : Part → Part) : (w.updPart k f).d.pkg = w.d.pkg := rfl
@[simp] theorem Work.updPart_ops (w : Work) (k : Nat) (f : Part → Part) : (w.updPart k f).d.ops = w.d.ops := rfl
@[simp] theorem Work.updPart_turns (w : Work) (k : Nat) (f : Part → Part) : (w.updPart k f).d.turns = w.d.turns := rfl
@[simp] theorem Work.updPart_tick (w : Work) (k : Nat) (f : Part → Part) : (w.updPart k f).d.tick = w.d.tick := rfl
@[simp] theorem Work.updPart_free (w : Work) (k : Nat) (f : Part → Part) : (w.updPart k f).d.free = w.d.free := rfl
@[simp] theorem Work.updPart_nextId (w : Work) (k : Nat) (f : Part → Part) : (w.updPart k f).d.nextId = w.d.nextId := rfl
@[simp] theorem Work.updPart_base (w : Work) (k : Nat) (f : Part → Part) : (w.updPart k f).base = w.base := rfl
@[simp] theorem Work.updPart_log (w : Work) (k : Nat) (f : Part → Part) : (w.updPart k f).log = w.log := rfl

@[simp] theorem Work.updPkg_now (w : Work) (f : Pkg → Pkg) : (w.updPkg f).d.now = w.d.now := rfl
@[simp] theorem Work.updPkg_cur (w : Work) (f : Pkg → Pkg) : (w.updPkg f).d.cur = w.d.cur := rfl
@[simp] theorem Work.updPkg_groups (w : Work) (f : Pkg → Pkg) : (w.updPkg f).d.groups = w.d.groups := rfl
@[simp] theorem Work.updPkg_blocks (w : Work) (f : Pkg → Pkg) : (w.updPkg f).d.blocks = w.d.blocks := rfl
@[simp] theorem Work.updPkg_launches (w : Work) (f : Pkg → Pkg) : (w.updPkg f).d.launches = w.d.launches := rfl
@[simp] theorem Work.updPkg_cores (w : Work) (f : Pkg → Pkg) : (w.updPkg f).d.cores = w.d.cores := rfl
@[simp] theorem Work.updPkg_dies (w : Work) (f : Pkg → Pkg) : (w.updPkg f).d.dies = w.d.dies := rfl
@[simp] theorem Work.updPkg_parts (w : Work) (f : Pkg → Pkg) : (w.updPkg f).d.parts = w.d.parts := rfl
@[simp] theorem Work.updPkg_ops (w : Work) (f : Pkg → Pkg) : (w.updPkg f).d.ops = w.d.ops := rfl
@[simp] theorem Work.updPkg_turns (w : Work) (f : Pkg → Pkg) : (w.updPkg f).d.turns = w.d.turns := rfl
@[simp] theorem Work.updPkg_tick (w : Work) (f : Pkg → Pkg) : (w.updPkg f).d.tick = w.d.tick := rfl
@[simp] theorem Work.updPkg_free (w : Work) (f : Pkg → Pkg) : (w.updPkg f).d.free = w.d.free := rfl
@[simp] theorem Work.updPkg_nextId (w : Work) (f : Pkg → Pkg) : (w.updPkg f).d.nextId = w.d.nextId := rfl
@[simp] theorem Work.updPkg_base (w : Work) (f : Pkg → Pkg) : (w.updPkg f).base = w.base := rfl
@[simp] theorem Work.updPkg_log (w : Work) (f : Pkg → Pkg) : (w.updPkg f).log = w.log := rfl

@[simp] theorem Work.updG_now (w : Work) (f : Group → Group) : (w.updG f).d.now = w.d.now := rfl
@[simp] theorem Work.updG_cur (w : Work) (f : Group → Group) : (w.updG f).d.cur = w.d.cur := rfl
@[simp] theorem Work.updG_blocks (w : Work) (f : Group → Group) : (w.updG f).d.blocks = w.d.blocks := rfl
@[simp] theorem Work.updG_launches (w : Work) (f : Group → Group) : (w.updG f).d.launches = w.d.launches := rfl
@[simp] theorem Work.updG_cores (w : Work) (f : Group → Group) : (w.updG f).d.cores = w.d.cores := rfl
@[simp] theorem Work.updG_dies (w : Work) (f : Group → Group) : (w.updG f).d.dies = w.d.dies := rfl
@[simp] theorem Work.updG_parts (w : Work) (f : Group → Group) : (w.updG f).d.parts = w.d.parts := rfl
@[simp] theorem Work.updG_pkg (w : Work) (f : Group → Group) : (w.updG f).d.pkg = w.d.pkg := rfl
@[simp] theorem Work.updG_ops (w : Work) (f : Group → Group) : (w.updG f).d.ops = w.d.ops := rfl
@[simp] theorem Work.updG_turns (w : Work) (f : Group → Group) : (w.updG f).d.turns = w.d.turns := rfl
@[simp] theorem Work.updG_tick (w : Work) (f : Group → Group) : (w.updG f).d.tick = w.d.tick := rfl
@[simp] theorem Work.updG_free (w : Work) (f : Group → Group) : (w.updG f).d.free = w.d.free := rfl
@[simp] theorem Work.updG_nextId (w : Work) (f : Group → Group) : (w.updG f).d.nextId = w.d.nextId := rfl
@[simp] theorem Work.updG_base (w : Work) (f : Group → Group) : (w.updG f).base = w.base := rfl
@[simp] theorem Work.updG_log (w : Work) (f : Group → Group) : (w.updG f).log = w.log := rfl

@[simp] theorem Work.updB_now (w : Work) (f : Block → Block) : (w.updB f).d.now = w.d.now := rfl
@[simp] theorem Work.updB_cur (w : Work) (f : Block → Block) : (w.updB f).d.cur = w.d.cur := rfl
@[simp] theorem Work.updB_groups (w : Work) (f : Block → Block) : (w.updB f).d.groups = w.d.groups := rfl
@[simp] theorem Work.updB_launches (w : Work) (f : Block → Block) : (w.updB f).d.launches = w.d.launches := rfl
@[simp] theorem Work.updB_cores (w : Work) (f : Block → Block) : (w.updB f).d.cores = w.d.cores := rfl
@[simp] theorem Work.updB_dies (w : Work) (f : Block → Block) : (w.updB f).d.dies = w.d.dies := rfl
@[simp] theorem Work.updB_parts (w : Work) (f : Block → Block) : (w.updB f).d.parts = w.d.parts := rfl
@[simp] theorem Work.updB_pkg (w : Work) (f : Block → Block) : (w.updB f).d.pkg = w.d.pkg := rfl
@[simp] theorem Work.updB_ops (w : Work) (f : Block → Block) : (w.updB f).d.ops = w.d.ops := rfl
@[simp] theorem Work.updB_turns (w : Work) (f : Block → Block) : (w.updB f).d.turns = w.d.turns := rfl
@[simp] theorem Work.updB_tick (w : Work) (f : Block → Block) : (w.updB f).d.tick = w.d.tick := rfl
@[simp] theorem Work.updB_free (w : Work) (f : Block → Block) : (w.updB f).d.free = w.d.free := rfl
@[simp] theorem Work.updB_nextId (w : Work) (f : Block → Block) : (w.updB f).d.nextId = w.d.nextId := rfl
@[simp] theorem Work.updB_base (w : Work) (f : Block → Block) : (w.updB f).base = w.base := rfl
@[simp] theorem Work.updB_log (w : Work) (f : Block → Block) : (w.updB f).log = w.log := rfl

@[simp] theorem Work.fresh_now (w : Work) : w.fresh.2.d.now = w.d.now := rfl
@[simp] theorem Work.newId_now (w : Work) : w.newId.2.d.now = w.d.now := rfl
@[simp] theorem Work.fresh_cur (w : Work) : w.fresh.2.d.cur = w.d.cur := rfl
@[simp] theorem Work.newId_cur (w : Work) : w.newId.2.d.cur = w.d.cur := rfl
@[simp] theorem Work.fresh_groups (w : Work) : w.fresh.2.d.groups = w.d.groups := rfl
@[simp] theorem Work.newId_groups (w : Work) : w.newId.2.d.groups = w.d.groups := rfl
@[simp] theorem Work.fresh_blocks (w : Work) : w.fresh.2.d.blocks = w.d.blocks := rfl
@[simp] theorem Work.newId_blocks (w : Work) : w.newId.2.d.blocks = w.d.blocks := rfl
@[simp] theorem Work.fresh_launches (w : Work) : w.fresh.2.d.launches = w.d.launches := rfl
@[simp] theorem Work.newId_launches (w : Work) : w.newId.2.d.launches = w.d.launches := rfl
@[simp] theorem Work.fresh_cores (w : Work) : w.fresh.2.d.cores = w.d.cores := rfl
@[simp] theorem Work.newId_cores (w : Work) : w.newId.2.d.cores = w.d.cores := rfl
@[simp] theorem Work.fresh_dies (w : Work) : w.fresh.2.d.dies = w.d.dies := rfl
@[simp] theorem Work.newId_dies (w : Work) : w.newId.2.d.dies = w.d.dies := rfl
@[simp] theorem Work.fresh_parts (w : Work) : w.fresh.2.d.parts = w.d.parts := rfl
@[simp] theorem Work.newId_parts (w : Work) : w.newId.2.d.parts = w.d.parts := rfl
@[simp] theorem Work.fresh_pkg (w : Work) : w.fresh.2.d.pkg = w.d.pkg := rfl
@[simp] theorem Work.newId_pkg (w : Work) : w.newId.2.d.pkg = w.d.pkg := rfl
@[simp] theorem Work.fresh_ops (w : Work) : w.fresh.2.d.ops = w.d.ops := rfl
@[simp] theorem Work.newId_ops (w : Work) : w.newId.2.d.ops = w.d.ops := rfl
@[simp] theorem Work.fresh_turns (w : Work) : w.fresh.2.d.turns = w.d.turns := rfl
@[simp] theorem Work.newId_turns (w : Work) : w.newId.2.d.turns = w.d.turns := rfl
@[simp] theorem Work.fresh_tick (w : Work) : w.fresh.2.d.tick = w.d.tick := rfl
@[simp] theorem Work.newId_tick (w : Work) : w.newId.2.d.tick = w.d.tick := rfl
@[simp] theorem Work.newId_free (w : Work) : w.newId.2.d.free = w.d.free := rfl
@[simp] theorem Work.fresh_nextId (w : Work) : w.fresh.2.d.nextId = w.d.nextId := rfl
@[simp] theorem Work.fresh_log (w : Work) : w.fresh.2.log = w.log := rfl
@[simp] theorem Work.newId_log (w : Work) : w.newId.2.log = w.log := rfl
@[simp] theorem Work.newId_fst (w : Work) : w.newId.1 = w.d.nextId := rfl
@[simp] theorem Work.newId_nextId (w : Work) : w.newId.2.d.nextId = w.d.nextId + 1 := rfl
@[simp] theorem Work.setByte_d (w : Work) (k : Nat) (b : Byte) : (w.setByte k b).d = w.d := rfl
@[simp] theorem Work.setByte_base (w : Work) (k : Nat) (b : Byte) : (w.setByte k b).base = w.base := rfl
@[simp] theorem Work.clear_d (w : Work) (k n : Nat) : (w.clear k n).d = w.d := rfl
@[simp] theorem begin_d (s : State) : (begin_ s).d = s.d := rfl
@[simp] theorem begin_base (s : State) : (begin_ s).base = s.mem := rfl
@[simp] theorem begin_log (s : State) : (begin_ s).log = [] := rfl
@[simp] theorem commit_d (m : Memory) (w : Work) : (commit m w).d = w.d := rfl
theorem commit_mem_nil (m : Memory) (w : Work) (h : w.log = []) : (commit m w).mem = m := by simp [commit, h]

@[simp] theorem Work.store_d (w : Work) (k n x : Nat) : (w.store k n x).d = w.d := by
  induction n generalizing w k x with
  | zero => rfl
  | succ n ih => rw [Work.store, ih]; rfl

/-! ### What an updated map gives -/

theorem Work.grp?_setGrp (w : Work) (k j : Nat) (x : Group) :
    (w.setGrp k x).grp? j = if j = k then some x else w.grp? j := sget?_sset ..

theorem Work.grp?_updGrp (w : Work) (k j : Nat) (f : Group → Group) :
    (w.updGrp k f).grp? j = if j = k then (w.grp? k).map f else w.grp? j := sget?_supd ..

theorem Work.blk?_updBlk (w : Work) (k j : Nat) (f : Block → Block) :
    (w.updBlk k f).blk? j = if j = k then (w.blk? k).map f else w.blk? j := sget?_supd ..

@[simp] theorem Work.grp?_updBlk (w : Work) (k j : Nat) (f : Block → Block) : (w.updBlk k f).grp? j = w.grp? j := rfl
@[simp] theorem Work.blk?_updGrp (w : Work) (k j : Nat) (f : Group → Group) : (w.updGrp k f).blk? j = w.blk? j := rfl
@[simp] theorem Work.grp?_updB (w : Work) (j : Nat) (f : Block → Block) : (w.updB f).grp? j = w.grp? j := rfl
@[simp] theorem Work.blk?_updG (w : Work) (j : Nat) (f : Group → Group) : (w.updG f).blk? j = w.blk? j := rfl

theorem Work.core_updCore (w : Work) (k j : Nat) (f : Core → Core) :
    (w.updCore k f).d.core j = if j = k then f (w.d.core k) else w.d.core j := sget_sset ..

theorem Work.die_updDie (w : Work) (k j : Nat) (f : Die → Die) :
    (w.updDie k f).d.die j = if j = k then f (w.d.die k) else w.d.die j := sget_sset ..

theorem Work.part_updPart (w : Work) (k j : Nat) (f : Part → Part) :
    (w.updPart k f).d.part j = if j = k then f (w.d.part k) else w.d.part j := sget_sset ..

@[simp] theorem Work.pkg_updPkg (w : Work) (f : Pkg → Pkg) : (w.updPkg f).d.pkg = f w.d.pkg := rfl

/-- The issuing group after a change to it. -/
theorem Work.grp?_updG (w : Work) (f : Group → Group) : (w.updG f).grp? w.slot = (w.grp? w.slot).map f := by
  simp [Work.updG, Work.grp?_updGrp]

theorem Work.grp?_updG_ne (w : Work) (f : Group → Group) {j : Nat} (h : j ≠ w.slot) : (w.updG f).grp? j = w.grp? j := by
  simp [Work.updG, Work.grp?_updGrp, h]

@[simp] theorem Work.slot_updG (w : Work) (f : Group → Group) : (w.updG f).slot = w.slot := rfl
@[simp] theorem Work.slot_updB (w : Work) (f : Block → Block) : (w.updB f).slot = w.slot := rfl
@[simp] theorem Work.slot_begin (s : State) : (begin_ s).slot = s.d.cur.slot := rfl

/-! ### Registers of a group -/

theorem Group.readV_writeV (g : Group) (l n l' n' : Nat) (x : Word) :
    (g.writeV l n x).readV l' n' = if 256 * l' + n' = 256 * l + n then x else g.readV l' n' := sget_sset ..

theorem Group.readS_writeS (g : Group) (n n' : Nat) (x : DWord) :
    (g.writeS n x).readS n' = if n' = n then x else g.readS n' := sget_sset ..

theorem Group.readT_writeT (g : Group) (n n' : Nat) (x : TRec) :
    (g.writeT n x).readT n' = if n' = n then x else g.readT n' := sget_sset ..

theorem Block.readB_writeB (b : Block) (n n' : Nat) (x : DWord) :
    (b.writeB n x).readB n' = if n' = n then x else b.readB n' := sget_sset ..

theorem Group.thread_setThread (g : Group) (l l' : Nat) (t : Thread) :
    (g.setThread l t).thread l' = if l' = l then t else g.thread l' := sget_sset ..

theorem Group.thread_updThread (g : Group) (l l' : Nat) (f : Thread → Thread) :
    (g.updThread l f).thread l' = if l' = l then f (g.thread l) else g.thread l' := sget_sset ..

@[simp] theorem Group.writeV_thr (g : Group) (l n : Nat) (x : Word) : (g.writeV l n x).thr = g.thr := rfl
@[simp] theorem Group.writeV_sreg (g : Group) (l n : Nat) (x : Word) : (g.writeV l n x).sreg = g.sreg := rfl
@[simp] theorem Group.writeV_t (g : Group) (l n : Nat) (x : Word) : (g.writeV l n x).t = g.t := rfl
@[simp] theorem Group.writeS_v (g : Group) (n : Nat) (x : DWord) : (g.writeS n x).v = g.v := rfl
@[simp] theorem Group.writeS_thr (g : Group) (n : Nat) (x : DWord) : (g.writeS n x).thr = g.thr := rfl
@[simp] theorem Group.setThread_v (g : Group) (l : Nat) (t : Thread) : (g.setThread l t).v = g.v := rfl
@[simp] theorem Group.setThread_sreg (g : Group) (l : Nat) (t : Thread) : (g.setThread l t).sreg = g.sreg := rfl
@[simp] theorem Group.setThread_t (g : Group) (l : Nat) (t : Thread) : (g.setThread l t).t = g.t := rfl
@[simp] theorem Group.updThread_v (g : Group) (l : Nat) (f : Thread → Thread) : (g.updThread l f).v = g.v := rfl
@[simp] theorem Group.updThread_sreg (g : Group) (l : Nat) (f : Thread → Thread) : (g.updThread l f).sreg = g.sreg := rfl
@[simp] theorem Group.updThread_t (g : Group) (l : Nat) (f : Thread → Thread) : (g.updThread l f).t = g.t := rfl

/-- P15 is never written (R46). -/
theorem Thread.setPred_15 (t : Thread) (b : Bool) : t.setPred 15 b = t := rfl

theorem Thread.pred_15 (t : Thread) : t.pred 15 = true := rfl

end Sys2Proof.Machine
end

