-- ==== Sys2Proof/Laws/Issue.lean ====
section
/-! SUPPORT. What an issue does around an instruction's own effect, said once: the work its effect starts from, the answer
when the effect is done, and what the finish leaves as it was. -/

namespace Sys2Proof.Machine

/-! ### Where the effect starts -/

/-- The work that an instruction's own effect starts from: the windows of the issuing lanes have moved on (R177) and the
B registers it writes are owned (R44). -/
def atIssue (s : State) (dst : List Named) : Work :=
  (begin_ s).passed.updB fun b => b.take s.d.cur.stamped s.d.now s.here.gidx dst

theorem Block.own_core (b : Block) (n i : Nat) (ds : List Named) : (b.own n i ds).core = b.core := by
  induction ds generalizing b with
  | nil => rfl
  | cons d t ih =>
      cases d <;> simp only [Block.own] <;> rw [ih]
      split <;> rfl

@[simp] theorem Block.own_b (b : Block) (n i : Nat) (ds : List Named) : (b.own n i ds).b = b.b := by
  induction ds generalizing b with
  | nil => rfl
  | cons d t ih =>
      cases d <;> simp only [Block.own] <;> rw [ih]
      split <;> rfl

theorem Block.take_core (b : Block) (k : Bool) (n i : Nat) (ds : List Named) : (b.take k n i ds).core = b.core := by
  unfold Block.take; split <;> simp [Block.own_core]

@[simp] theorem Block.take_b (b : Block) (k : Bool) (n i : Nat) (ds : List Named) : (b.take k n i ds).b = b.b := by
  unfold Block.take; split <;> simp

structure Issued (s : State) (h : Hdr) (src dst : List Named) (x : List Nat) : Prop where
  grp : sget? s.d.groups s.d.cur.slot = some s.here
  blk : sget? s.d.blocks s.here.blk = some s.myBlk
  rise : s.d.cur.lanes.Pairwise (· < ·)
  low : ∀ l ∈ s.d.cur.lanes, l < 32
  free : (!s.d.cur.stamped && s.here.mustWait h.ver1 s.d.cur.lanes (src ++ dst)) = false
  exec : s.here.executing h s.d.cur.lanes = x
  some_ : x ≠ []
  regs : regCheck s.here s.myBlk x src dst = 0

theorem issued_of {s : State} {h : Hdr} {src dst : List Named} {x : List Nat} (hi : issues s h src dst x = true) :
    Issued s h src dst x := by
  simp only [issues, lanesOk, Bool.and_eq_true, Bool.or_eq_true, Bool.not_eq_true', decide_eq_true_eq, beq_iff_eq,
    List.all_eq_true, Option.isSome_iff_exists, List.isEmpty_eq_false_iff] at hi
  obtain ⟨⟨⟨⟨⟨⟨⟨g, hg⟩, b, hb⟩, hl⟩, hw⟩, hx⟩, hn⟩, hr⟩ := hi
  have hg' : s.here = g := by simp [State.here, State.grp, hg]
  have hb' : s.myBlk = b := by simp [State.myBlk, State.blk, hb]
  refine ⟨hg'.symm ▸ hg, hb'.symm ▸ hb, hl.1, hl.2, ?_, hx, hn, hr⟩
  rcases hw with hw | hw
  · simp [hw]
  · simp [hw]

namespace Issued

variable {s : State} {h : Hdr} {src dst : List Named} {x : List Nat}

theorem lanes_nodup (hi : Issued s h src dst x) : x.Nodup := by
  rw [← hi.exec]
  exact (hi.rise.imp Nat.ne_of_lt).filter _

theorem lanes_low (hi : Issued s h src dst x) : ∀ l ∈ x, l < 32 := by
  rw [← hi.exec]
  exact fun l hl => hi.low l (List.mem_filter.mp hl).1

theorem lanes_sub (hi : Issued s h src dst x) : ∀ l ∈ x, l ∈ s.d.cur.lanes := by
  rw [← hi.exec]
  exact fun l hl => (List.mem_filter.mp hl).1

end Issued

/-- The answer of an instruction whose effect is done. -/
theorem issue_ok {s : State} {h : Hdr} {src dst : List Named} {x : List Nat} {body : Work → List Nat → Res} {w : Work}
    {js : List (Nat × Addr)} (hi : Issued s h src dst x) (hb : body (atIssue s dst) x = .ok w js) :
    issue s h src dst body = .next (commit s.mem (w.finish [] .hold js)) := by
  have hgrp : (begin_ s).grp? s.d.cur.slot = some s.here := hi.grp
  have hg : (begin_ s).g = s.here := by simp [Work.g, hgrp]
  have hp : (begin_ s).passed.grp? s.d.cur.slot = _ := Work.grp?_updG (begin_ s) _
  rw [Work.slot_begin, hgrp, Option.map_some] at hp
  have hpg : (begin_ s).passed.g.gidx = s.here.gidx ∧ (begin_ s).passed.g.blk = s.here.blk := by
    rw [Work.g, show (begin_ s).passed.slot = s.d.cur.slot from rfl, hp, Option.getD_some]
    split <;> exact ⟨rfl, rfl⟩
  have hblk : (begin_ s).passed.blk = s.myBlk := by
    rw [Work.blk, hpg.2]; rfl
  have key : (begin_ s).issue h src dst body = w.finish [] .hold js := by
    unfold Work.issue
    rw [hg]
    dsimp only
    rw [show (begin_ s).d.cur.lanes = s.d.cur.lanes from rfl, show (begin_ s).d.cur.stamped = s.d.cur.stamped from rfl,
      hi.free, hi.exec, if_neg Bool.false_ne_true]
    cases x with
    | nil => exact absurd rfl hi.some_
    | cons l t =>
      dsimp only
      rw [hblk, hi.regs, ite_self]
      rw [show ((begin_ s).passed.updB fun b => b.take (begin_ s).passed.d.cur.stamped (begin_ s).passed.d.now s.here.gidx dst) =
        atIssue s dst from rfl, hb]
      rfl
  unfold issue
  rw [hgrp]
  exact congrArg (fun w => Host.Outcome.next (commit s.mem w)) key

/-! ### Reading the work that the effect starts from -/

section AtIssue

variable {s : State} {h : Hdr} {src dst : List Named} {x : List Nat} (ds : List Named)

@[simp] theorem atIssue_cur : (atIssue s ds).d.cur = s.d.cur := rfl
@[simp] theorem atIssue_slot : (atIssue s ds).slot = s.d.cur.slot := rfl
@[simp] theorem atIssue_log : (atIssue s ds).log = [] := rfl
@[simp] theorem atIssue_base : (atIssue s ds).base = s.mem := rfl

/-- The issuing group when its effect starts. -/
def startGroup (s : State) : Group := if s.d.cur.stamped then s.here else s.here.stepWins s.d.cur.lanes

theorem atIssue_grp? (hi : Issued s h src dst x) : (atIssue s ds).grp? s.d.cur.slot = some (startGroup s) := by
  have hp : (begin_ s).passed.grp? s.d.cur.slot = _ := Work.grp?_updG (begin_ s) _
  have hgrp : (begin_ s).grp? s.d.cur.slot = some s.here := hi.grp
  rw [Work.slot_begin, hgrp, Option.map_some] at hp
  exact hp

theorem atIssue_g (hi : Issued s h src dst x) : (atIssue s ds).g = startGroup s := by
  simp [Work.g, atIssue_grp? ds hi]

@[simp] theorem startGroup_v : (startGroup s).v = s.here.v := by unfold startGroup; split <;> rfl
@[simp] theorem startGroup_sreg : (startGroup s).sreg = s.here.sreg := by unfold startGroup; split <;> rfl
@[simp] theorem startGroup_thr : (startGroup s).thr = s.here.thr := by unfold startGroup; split <;> rfl
@[simp] theorem startGroup_t : (startGroup s).t = s.here.t := by unfold startGroup; split <;> rfl
@[simp] theorem startGroup_blk : (startGroup s).blk = s.here.blk := by unfold startGroup; split <;> rfl
@[simp] theorem startGroup_gidx : (startGroup s).gidx = s.here.gidx := by unfold startGroup; split <;> rfl
@[simp] theorem startGroup_thread (l : Nat) : (startGroup s).thread l = s.here.thread l := by simp [Group.thread]
theorem startGroup_core : (startGroup s).core = s.here.core := by unfold startGroup; split <;> rfl
theorem startGroup_owed : owedOf (startGroup s) = owedOf s.here := by
  unfold startGroup owedOf
  split
  · rfl
  · simp [Group.stepWins, Function.comp_def]

theorem atIssue_blk? (hi : Issued s h src dst x) :
    (atIssue s ds).blk? s.here.blk = some (s.myBlk.take s.d.cur.stamped s.d.now s.here.gidx ds) := by
  have hg : (begin_ s).passed.g.blk = s.here.blk := by
    have h2 : (begin_ s).passed.g = startGroup s := atIssue_g [] hi
    rw [h2, startGroup_blk]
  unfold atIssue Work.updB
  rw [hg, Work.blk?_updBlk, if_pos rfl]
  have hb : (begin_ s).blk? s.here.blk = some s.myBlk := hi.blk
  rw [show (begin_ s).passed.blk? s.here.blk = (begin_ s).blk? s.here.blk from rfl, hb]; rfl

theorem atIssue_blk (hi : Issued s h src dst x) : (atIssue s ds).blk = s.myBlk.take s.d.cur.stamped s.d.now s.here.gidx ds := by
  simp [Work.blk, atIssue_g ds hi, atIssue_blk? ds hi]

theorem begin_g (hi : Issued s h src dst x) : (begin_ s).g = s.here := by
  have hgrp : (begin_ s).grp? s.d.cur.slot = some s.here := hi.grp
  simp [Work.g, hgrp]

theorem begin_blk (hi : Issued s h src dst x) : (begin_ s).blk = s.myBlk := by
  have hb : (begin_ s).blk? s.here.blk = some s.myBlk := hi.blk
  simp [Work.blk, begin_g hi, hb]

/-- Operands read there are the operands of the state. -/
theorem atIssue_op32 (hi : Issued s h src dst x) (l : Nat) (o : Opnd) : (atIssue s ds).op32 l o = (begin_ s).op32 l o := by
  cases o <;>
    simp [Work.op32, atIssue_g ds hi, atIssue_blk ds hi, begin_g hi, begin_blk hi, Group.readV, Group.readQ, Group.readS,
      Block.readB]

theorem atIssue_op64 (hi : Issued s h src dst x) (l : Nat) (o : Opnd) : (atIssue s ds).op64 l o = (begin_ s).op64 l o := by
  cases o <;>
    simp [Work.op64, atIssue_g ds hi, atIssue_blk ds hi, begin_g hi, begin_blk hi, Group.readV, Group.readQ, Group.readS,
      Block.readB]

theorem atIssue_opRun (hi : Issued s h src dst x) (l : Nat) (o : Opnd) (k : Nat) :
    (atIssue s ds).opRun l o k = (begin_ s).opRun l o k := by
  cases o <;>
    simp [Work.opRun, atIssue_g ds hi, begin_g hi, Group.readV, Group.readQ, atIssue_op32 ds hi, atIssue_op64 ds hi]

theorem atIssue_thread (hi : Issued s h src dst x) (l : Nat) : (atIssue s ds).g.thread l = (begin_ s).g.thread l := by
  simp [atIssue_g ds hi, begin_g hi]

end AtIssue

/-! ### What the finish leaves as it was -/

/-- A change of threads lane by lane acts on each lane alone. -/
theorem foldl_thread {ls : List Nat} (hn : ls.Nodup) (st : Group → Nat → Group) (f : Nat → Thread → Thread)
    (hs : ∀ g l k, (st g l).thread k = if k = l then f l (g.thread l) else g.thread k) (g : Group) (k : Nat) :
    (ls.foldl st g).thread k = if k ∈ ls then f k (g.thread k) else g.thread k := by
  induction ls generalizing g with
  | nil => simp
  | cons l t ih =>
    rw [List.nodup_cons] at hn
    rw [List.foldl_cons, ih hn.2, hs]
    by_cases hk : k = l
    · subst hk; simp [hn.1]
    · simp [hk]

/-- A field that each step of a fold keeps is kept. -/
theorem foldl_keeps {α β : Type} (ls : List α) (st : Group → α → Group) (φ : Group → β)
    (hs : ∀ g a, φ (st g a) = φ g) (g : Group) : φ (ls.foldl st g) = φ g := by
  induction ls generalizing g with
  | nil => rfl
  | cons a t ih => rw [List.foldl_cons, ih, hs]

/-- Meetings change no group field but the threads and the windows. -/
theorem meetings_keeps {β : Type} (φ : Group → β) (hφ : ∀ g l f, φ (Group.updThread g l f) = φ g)
    (hw : ∀ g l, φ (Group.closeWin g l) = φ g) (g : Group) : φ g.meetings = φ g := by
  unfold Group.meetings
  dsimp only
  rw [foldl_keeps _ _ φ fun g l => by unfold Group.release; split <;> simp [hφ]]
  exact foldl_keeps _ _ φ (fun g l => by unfold Group.arrive; split <;> simp [hφ, hw]) g

/-- What each step of a fold keeps of a lane's thread is kept. -/
theorem foldl_keeps_thread {β : Type} (ls : List Nat) (st : Group → Nat → Group) (φ : Thread → β) (k : Nat)
    (hs : ∀ g l, φ ((st g l).thread k) = φ (g.thread k)) (g : Group) :
    φ ((ls.foldl st g).thread k) = φ (g.thread k) :=
  foldl_keeps ls st (fun g => φ (g.thread k)) hs g

/-- Meetings change of a thread only its state and its M. -/
theorem meetings_thread {β : Type} (φ : Thread → β)
    (hφ : ∀ (t : Thread) st m, φ { t with st := st, m := m } = φ t) (g : Group) (k : Nat) :
    φ (g.meetings.thread k) = φ (g.thread k) := by
  unfold Group.meetings
  dsimp only
  rw [foldl_keeps_thread _ _ φ k fun g l => ?_]
  · exact foldl_keeps_thread _ _ φ k (fun g l => by
      unfold Group.arrive
      split
      · rw [Group.thread_updThread]; split
        · next h => subst h; exact hφ _ .held _
        · rfl
      · rfl) g
  · unfold Group.release
    split
    · rw [Group.thread_updThread]; split
      · next h => subst h; exact hφ _ .runnable none
      · rfl
    · rfl

/-! ### The finish -/

section Ends

variable (c : Cur) (ls : List Nat) (why : Why) (js : List (Nat × Addr))

theorem ends_keeps {β : Type} (φ : Group → β) (h1 : ∀ g l f, φ (Group.updThread g l f) = φ g)
    (h2 : ∀ g l, φ (Group.closeWin g l) = φ g) (h3 : ∀ (g : Group) n, φ { g with issue := n } = φ g) (g : Group) :
    φ (g.ends c ls why js) = φ g := by
  unfold Group.ends
  dsimp only
  rw [meetings_keeps φ h1 h2, foldl_keeps _ _ φ fun g l => by rw [h1]; split <;> simp [h2]]
  exact h3 g _

@[simp] theorem ends_v (g : Group) : (g.ends c ls why js).v = g.v :=
  ends_keeps c ls why js Group.v (fun _ _ _ => rfl) (fun _ _ => rfl) (fun _ _ => rfl) g
@[simp] theorem ends_sreg (g : Group) : (g.ends c ls why js).sreg = g.sreg :=
  ends_keeps c ls why js Group.sreg (fun _ _ _ => rfl) (fun _ _ => rfl) (fun _ _ => rfl) g
@[simp] theorem ends_t (g : Group) : (g.ends c ls why js).t = g.t :=
  ends_keeps c ls why js Group.t (fun _ _ _ => rfl) (fun _ _ => rfl) (fun _ _ => rfl) g
@[simp] theorem ends_blk (g : Group) : (g.ends c ls why js).blk = g.blk :=
  ends_keeps c ls why js Group.blk (fun _ _ _ => rfl) (fun _ _ => rfl) (fun _ _ => rfl) g
theorem ends_core (g : Group) : (g.ends c ls why js).core = g.core :=
  ends_keeps c ls why js Group.core (fun _ _ _ => rfl) (fun _ _ => rfl) (fun _ _ => rfl) g
theorem ends_owed (g : Group) : owedOf (g.ends c ls why js) = owedOf g :=
  ends_keeps c ls why js owedOf (fun _ _ _ => rfl)
    (fun g l => by simp [owedOf, Group.closeWin, Function.comp_def]) (fun _ _ => rfl) g

theorem closeWin_thread (g : Group) (l k : Nat) : (g.closeWin l).thread k = g.thread k := rfl

theorem ite_closeWin_thread (p : Prop) [Decidable p] (g : Group) (l k : Nat) :
    (if p then g.closeWin l else g).thread k = g.thread k := by split <;> rfl

/-- A thread after the finish, its meetings apart. -/
theorem ends_thread {β : Type} (φ : Thread → β) (hφ : ∀ (t : Thread) st m, φ { t with st := st, m := m } = φ t)
    (hn : c.lanes.Nodup) (g : Group) (k : Nat) :
    φ ((g.ends c ls why js).thread k) =
      φ (if k ∈ c.lanes then Thread.ends c (if c.stamped then g.issue else g.issue + 1) ls why js k (g.thread k)
        else g.thread k) := by
  unfold Group.ends
  dsimp only
  rw [meetings_thread φ hφ, foldl_thread hn _ (Thread.ends c (if c.stamped then g.issue else g.issue + 1) ls why js)
    fun g l k => by rw [Group.thread_updThread, ite_closeWin_thread, ite_closeWin_thread]]
  rfl

theorem threadEnds_core (n l : Nat) (t : Thread) : (t.ends c n ls why js l).core = t.core := by
  unfold Thread.ends
  dsimp only
  split
  · rfl
  · split <;> split <;> rfl

theorem threadEnds_p (n l : Nat) (t : Thread) : (t.ends c n ls why js l).p = t.p := by
  unfold Thread.ends
  dsimp only
  split
  · rfl
  · split <;> split <;> rfl

theorem threadEnds_l (n l : Nat) (t : Thread) (i : Nat) : (t.ends c n ls why js l).readL i = t.readL i := by
  unfold Thread.ends
  dsimp only
  split
  · rfl
  · split <;> split <;> rfl

theorem ends_thread_core (hn : c.lanes.Nodup) (g : Group) (k : Nat) :
    ((g.ends c ls why js).thread k).core = (g.thread k).core := by
  rw [ends_thread c ls why js Thread.core (fun _ _ _ => rfl) hn]
  split
  · exact threadEnds_core ..
  · rfl

theorem ends_thread_p (hn : c.lanes.Nodup) (g : Group) (k : Nat) :
    ((g.ends c ls why js).thread k).p = (g.thread k).p := by
  rw [ends_thread c ls why js Thread.p (fun _ _ _ => rfl) hn]
  split
  · exact threadEnds_p ..
  · rfl

theorem ends_thread_l (hn : c.lanes.Nodup) (g : Group) (k i : Nat) :
    ((g.ends c ls why js).thread k).readL i = (g.thread k).readL i := by
  rw [ends_thread c ls why js (fun t => t.readL i) (fun _ _ _ => rfl) hn]
  split
  · exact threadEnds_l ..
  · rfl

theorem threadEnds_m (n l : Nat) (t : Thread) : (t.ends c n ls why js l).m = t.m := by
  unfold Thread.ends
  dsimp only
  split
  · rfl
  · split <;> split <;> rfl

/-- Meetings change an M only as they release its thread. -/
theorem meetings_m (g : Group) (k : Nat) :
    (g.meetings.thread k).m = (g.thread k).m ∨
      ((g.meetings.thread k).m = none ∧ (g.meetings.thread k).st = .runnable) := by
  have key : ∀ (ls : List Nat) (g0 g1 : Group),
      (g1.thread k).m = (g.thread k).m ∨ ((g1.thread k).m = none ∧ (g1.thread k).st = .runnable) →
      ((ls.foldl (Group.release g0) g1).thread k).m = (g.thread k).m ∨
        (((ls.foldl (Group.release g0) g1).thread k).m = none ∧
          ((ls.foldl (Group.release g0) g1).thread k).st = .runnable) := by
    intro ls g0
    induction ls with
    | nil => exact fun g1 h => h
    | cons l t ih =>
      intro g1 h
      rw [List.foldl_cons]
      refine ih _ ?_
      unfold Group.release
      split
      · rw [Group.thread_updThread]
        split
        · exact .inr ⟨rfl, rfl⟩
        · exact h
      · exact h
  unfold Group.meetings
  refine key _ _ _ (.inl ?_)
  exact foldl_keeps_thread _ _ Thread.m k (fun g l => by
    unfold Group.arrive
    split
    · rw [Group.thread_updThread]; split
      · next h => subst h; rfl
      · rfl
    · rfl) g

theorem ends_thread_m (hn : c.lanes.Nodup) (g : Group) (k : Nat) :
    ((g.ends c ls why js).thread k).m = (g.thread k).m ∨
      (((g.ends c ls why js).thread k).m = none ∧ ((g.ends c ls why js).thread k).st = .runnable) := by
  unfold Group.ends
  dsimp only
  rcases meetings_m _ k with h | h
  · refine .inl (h.trans ?_)
    rw [foldl_thread hn _ (Thread.ends c (if c.stamped then g.issue else g.issue + 1) ls why js)
      fun g l k => by rw [Group.thread_updThread, ite_closeWin_thread, ite_closeWin_thread]]
    split
    · exact threadEnds_m ..
    · rfl
  · exact .inr h

/-- Where a thread stands after an instruction that no thread waits in. -/
theorem ends_thread_pc (hn : c.lanes.Nodup) (g : Group) (k : Nat) :
    ((g.ends c [] why js).thread k).pc =
      if k ∈ c.lanes ∧ (g.thread k).st ≠ .exited then ((js.find? fun j => j.1 == k).map (·.2)).getD c.next
      else (g.thread k).pc := by
  rw [ends_thread c [] why js Thread.pc (fun _ _ _ => rfl) hn]
  by_cases hk : k ∈ c.lanes
  · by_cases he : (g.thread k).st = .exited
    · simp [hk, he, Thread.ends]
    · simp [hk, he, Thread.ends]
  · simp [hk]

end Ends

end Sys2Proof.Machine
end

