-- ==== Sys2Proof/Laws/Order.lean ====
section
/-! SUPPORT. What the bookkeeping of happens-before and of strong accesses can do: it touches the clocks, the releases and the
record of strong accesses alone, and no memory unless accesses of different sizes clash. -/

namespace Sys2Proof.Machine

/-! ### Memory and the fields of others -/

@[simp] theorem Work.closeEp_log (w : Work) (k : Nat) : (w.closeEp k).log = w.log := rfl
@[simp] theorem Work.closeEp_base (w : Work) (k : Nat) : (w.closeEp k).base = w.base := rfl
@[simp] theorem Work.closeEp_pkg (w : Work) (k : Nat) : (w.closeEp k).d.pkg = w.d.pkg := rfl
@[simp] theorem Work.closeEp_blocks (w : Work) (k : Nat) : (w.closeEp k).d.blocks = w.d.blocks := rfl
@[simp] theorem Work.closeEp_cores (w : Work) (k : Nat) : (w.closeEp k).d.cores = w.d.cores := rfl
@[simp] theorem Work.closeEp_ops (w : Work) (k : Nat) : (w.closeEp k).d.ops = w.d.ops := rfl
@[simp] theorem Work.closeEp_slot (w : Work) (k : Nat) : (w.closeEp k).slot = w.slot := rfl

@[simp] theorem Work.synced_log (w : Work) (k : Nat) : (w.synced k).log = w.log := rfl
@[simp] theorem Work.synced_base (w : Work) (k : Nat) : (w.synced k).base = w.base := rfl
@[simp] theorem Work.synced_pkg (w : Work) (k : Nat) : (w.synced k).d.pkg = w.d.pkg := rfl
@[simp] theorem Work.synced_blocks (w : Work) (k : Nat) : (w.synced k).d.blocks = w.d.blocks := rfl

@[simp] theorem Work.learnVc_log (w : Work) (k : Nat) (c : Clock) : (w.learnVc k c).log = w.log := rfl
@[simp] theorem Work.learnVc_base (w : Work) (k : Nat) (c : Clock) : (w.learnVc k c).base = w.base := rfl
@[simp] theorem Work.learnVc_pkg (w : Work) (k : Nat) (c : Clock) : (w.learnVc k c).d.pkg = w.d.pkg := rfl
@[simp] theorem Work.learnVc_blocks (w : Work) (k : Nat) (c : Clock) : (w.learnVc k c).d.blocks = w.d.blocks := rfl

@[simp] theorem Work.tell_log (w : Work) (pa n : Nat) (who : Agent) (sc : Scope) (ep : Nat) (vc : Clock) :
    (w.tell pa n who sc ep vc).log = w.log := rfl
@[simp] theorem Work.tell_base (w : Work) (pa n : Nat) (who : Agent) (sc : Scope) (ep : Nat) (vc : Clock) :
    (w.tell pa n who sc ep vc).base = w.base := rfl
@[simp] theorem Work.tell_groups (w : Work) (pa n : Nat) (who : Agent) (sc : Scope) (ep : Nat) (vc : Clock) :
    (w.tell pa n who sc ep vc).d.groups = w.d.groups := rfl
@[simp] theorem Work.tell_mix (w : Work) (pa n : Nat) (who : Agent) (sc : Scope) (ep : Nat) (vc : Clock) :
    (w.tell pa n who sc ep vc).d.pkg.mix = w.d.pkg.mix := rfl

@[simp] theorem Work.spadDrop_log (w : Work) (k n : Nat) : (w.spadDrop k n).log = w.log := rfl
@[simp] theorem Work.spadDrop_base (w : Work) (k n : Nat) : (w.spadDrop k n).base = w.base := rfl
@[simp] theorem Work.spadDrop_groups (w : Work) (k n : Nat) : (w.spadDrop k n).d.groups = w.d.groups := rfl
@[simp] theorem Work.spadDrop_mix (w : Work) (k n : Nat) : (w.spadDrop k n).d.pkg.mix = w.d.pkg.mix := rfl

theorem Work.openSync_off (w : Work) : w.openSync false = w := rfl
theorem Work.openSync_on (w : Work) : w.openSync true = w.closeEp w.slot := rfl
@[simp] theorem Work.openSync_log (w : Work) (on : Bool) : (w.openSync on).log = w.log := by cases on <;> rfl
@[simp] theorem Work.openSync_base (w : Work) (on : Bool) : (w.openSync on).base = w.base := by cases on <;> rfl
@[simp] theorem Work.openSync_pkg (w : Work) (on : Bool) : (w.openSync on).d.pkg = w.d.pkg := by cases on <;> rfl
@[simp] theorem Work.openSync_blocks (w : Work) (on : Bool) : (w.openSync on).d.blocks = w.d.blocks := by cases on <;> rfl
@[simp] theorem Work.openSync_slot (w : Work) (on : Bool) : (w.openSync on).slot = w.slot := by cases on <;> rfl

/-! ### Strong accesses (R88) -/

/-- Can an access with clock `c` before it leave bytes undefined that it shares with `r`? -/
def Strong.meets (a : Strong) (c : Clock) (r : Strong) : Bool :=
  r.n != a.n && overlap a.pa a.n r.pa r.n && !r.before c && related r.scope r.who a.scope a.who

theorem Work.clash_apart (w : Work) {a r : Strong} {c : Clock} (h : a.meets c r = false) : w.clash a c r = w := by
  unfold Work.clash
  rw [if_neg]
  simp only [Strong.meets] at h
  simp [h]

/-- A strong access that meets none of another size is recorded and does nothing else. -/
theorem Work.noteStrong_apart (w : Work) {a : Strong} {c : Clock}
    (h : ∀ r ∈ sget w.d.pkg.mix (sectorOf a.pa) [], a.meets c r = false) :
    w.noteStrong false a c = w.updPkg fun p =>
      let l := sget w.d.pkg.mix (sectorOf a.pa) []
      { p with mix := sset p.mix (sectorOf a.pa) (a :: l.filter fun r => { r with ep := a.ep } != a) } := by
  have fold : ∀ l : List Strong, (∀ r ∈ l, a.meets c r = false) → l.foldl (fun w r => w.clash a c r) w = w := by
    intro l
    induction l with
    | nil => exact fun _ => rfl
    | cons r l ih =>
        intro h
        rw [List.foldl_cons, Work.clash_apart w (h r (by simp))]
        exact ih fun q hq => h q (by simp [hq])
  simp only [Work.noteStrong, Bool.false_eq_true, if_false, fold _ h]

/-- Equal sizes never clash. -/
theorem Strong.meets_same {a r : Strong} (c : Clock) (h : r.n = a.n) : a.meets c r = false := by
  simp [Strong.meets, h]

/-- Neither do accesses of which the earlier happens before the later. -/
theorem Strong.meets_before {a r : Strong} {c : Clock} (h : r.before c = true) : a.meets c r = false := by
  simp [Strong.meets, h]

end Sys2Proof.Machine
end

