-- ==== Sys2Proof/Laws/Results.lean ====
section
/-! SUPPORT. What the state is after an instruction that changes only registers, predicates and threads of its group, or a
B register: the frame, the PCs, and the results. -/

namespace Sys2Proof.Machine

/-- The state after an effect on the issuing group. -/
def afterG (s : State) (ds : List Named) (G : Group → Group) (js : List (Nat × Addr)) : State :=
  commit s.mem (((atIssue s ds).updG G).finish [] .hold js)

/-- The state after an effect on the block of the issuing group. -/
def afterB (s : State) (ds : List Named) (B : Block → Block) (js : List (Nat × Addr)) : State :=
  commit s.mem (((atIssue s ds).updB B).finish [] .hold js)

variable {s : State} {h : Hdr} {src dst : List Named} {x : List Nat} (ds : List Named) (js : List (Nat × Addr))

section OnGroup

variable (G : Group → Group)

theorem afterG_here (hi : Issued s h src dst x) :
    (afterG s ds G js).here = (G (startGroup s)).ends s.d.cur [] .hold js := by
  have h1 : ((atIssue s ds).updG G).grp? s.d.cur.slot = some (G (startGroup s)) := by
    have := Work.grp?_updG (atIssue s ds) G
    rwa [atIssue_slot, atIssue_grp? ds hi] at this
  have h2 : (((atIssue s ds).updG G).finish [] .hold js).grp? s.d.cur.slot =
      some ((G (startGroup s)).ends s.d.cur [] .hold js) := by
    have := Work.grp?_updG ((atIssue s ds).updG G) (Group.ends s.d.cur [] .hold js)
    rw [show ((atIssue s ds).updG G).slot = s.d.cur.slot from rfl, h1] at this
    exact this
  show ((((atIssue s ds).updG G).finish [] .hold js).grp? s.d.cur.slot).getD Group.gone = _
  rw [h2, Option.getD_some]

theorem afterG_others (k : Nat) (hk : k ≠ s.d.cur.slot) :
    sget? (afterG s ds G js).d.groups k = sget? s.d.groups k := by
  have h1 := Work.grp?_updG_ne ((atIssue s ds).updG G) (Group.ends s.d.cur [] .hold js) (j := k) hk
  have h2 := Work.grp?_updG_ne (atIssue s ds) G (j := k) hk
  have h3 : (atIssue s ds).grp? k = (begin_ s).grp? k := Work.grp?_updG_ne (begin_ s) _ (j := k) hk
  exact (h1.trans h2).trans h3

theorem afterG_blocks (hi : Issued s h src dst x) (k : Nat) :
    sget? (afterG s ds G js).d.blocks k =
      if k = s.here.blk then some (s.myBlk.take s.d.cur.stamped s.d.now s.here.gidx ds) else sget? s.d.blocks k := by
  have hg : (begin_ s).passed.g.blk = s.here.blk := by
    have h2 : (begin_ s).passed.g = startGroup s := atIssue_g [] hi
    rw [h2, startGroup_blk]
  have h1 : (atIssue s ds).blk? k = _ := Work.blk?_updBlk (begin_ s).passed (begin_ s).passed.g.blk k _
  rw [hg] at h1
  have hb : (begin_ s).passed.blk? s.here.blk = some s.myBlk := hi.blk
  rw [hb] at h1
  exact h1

theorem afterG_only (hi : Issued s h src dst x) {G' : Group → Group} {T : Nat → Thread → Thread}
    {new : List (Nat × List Reg × Payload)} (hc : (G (startGroup s)).core = G' (startGroup s).core)
    (hb : (G (startGroup s)).blk = (startGroup s).blk)
    (ho : owedOf (G (startGroup s)) = owedOf (startGroup s) ++ new)
    (ht : ∀ l, ((G (startGroup s)).thread l).core = T l ((startGroup s).thread l).core) :
    Only s (afterG s ds G js) G' T id new := by
  have hn := hi.rise.imp Nat.ne_of_lt
  have hblk : (afterG s ds G js).here.blk = s.here.blk := by
    rw [afterG_here ds js G hi, ends_blk, hb, startGroup_blk]
  refine ⟨fun a => rfl, rfl, afterG_others ds js G, fun k hk => by rw [afterG_blocks ds js G hi, if_neg hk], ?_, ?_, ?_, ?_⟩
  · rw [afterG_here ds js G hi, ends_core, hc, startGroup_core]
  · rw [afterG_here ds js G hi, ends_owed, ho, startGroup_owed]
  · rw [State.myBlk, State.blk, hblk, afterG_blocks ds js G hi, if_pos rfl]
    exact Block.take_core ..
  · intro l
    rw [afterG_here ds js G hi, ends_thread_core _ _ _ _ hn, ht, startGroup_thread]

theorem afterG_same (hi : Issued s h src dst x) (hc : (G (startGroup s)).core = (startGroup s).core)
    (hb : (G (startGroup s)).blk = (startGroup s).blk)
    (ho : owedOf (G (startGroup s)) = owedOf (startGroup s))
    (ht : ∀ l, ((G (startGroup s)).thread l).core = ((startGroup s).thread l).core) :
    OnlyRegs s (afterG s ds G js) :=
  afterG_only ds js G hi hc hb (by rw [ho, List.append_nil]) ht

theorem afterG_sameB (hi : Issued s h src dst x) (hb : (G (startGroup s)).blk = (startGroup s).blk) :
    SameB s (afterG s ds G js) := by
  intro n
  have hblk : (afterG s ds G js).here.blk = s.here.blk := by
    rw [afterG_here ds js G hi, ends_blk, hb, startGroup_blk]
  rw [State.myBlk, State.blk, hblk, afterG_blocks ds js G hi, if_pos rfl]
  simp [Block.readB]

theorem afterG_pc (hi : Issued s h src dst x) (l : Nat) :
    (afterG s ds G js).pc l =
      if l ∈ s.d.cur.lanes ∧ ((G (startGroup s)).thread l).st ≠ .exited then
        ((js.find? fun j => j.1 == l).map (·.2)).getD s.d.cur.next
      else ((G (startGroup s)).thread l).pc := by
  rw [State.pc, afterG_here ds js G hi, ends_thread_pc _ _ _ (hi.rise.imp Nat.ne_of_lt)]

theorem afterG_meets (hi : Issued s h src dst x) :
    MeetsAt (afterG s ds G js) fun l => ((G (startGroup s)).thread l).m := by
  intro l
  rw [afterG_here ds js G hi]
  exact ends_thread_m _ _ _ _ (hi.rise.imp Nat.ne_of_lt) _ l

theorem afterG_advances (hi : Issued s h src dst x)
    (ht : ∀ l, ((G (startGroup s)).thread l).st = (s.here.thread l).st ∧
      ((G (startGroup s)).thread l).pc = (s.here.thread l).pc ∧
      ((G (startGroup s)).thread l).m = (s.here.thread l).m) : Advances s (afterG s ds G []) := by
  refine ⟨⟨fun l hl he => ?_, fun l hl => ?_⟩, ?_⟩
  · rw [afterG_pc ds [] G hi, if_pos ⟨hl, (ht l).1 ▸ he⟩]; rfl
  · rw [afterG_pc ds [] G hi, if_neg (fun hc => hl hc.1), (ht l).2.1]; rfl
  · intro l
    dsimp only
    rw [← (ht l).2.2]
    exact afterG_meets ds [] G hi l

end OnGroup

section OnBlock

variable (B : Block → Block)

theorem afterB_grp? (hi : Issued s h src dst x) :
    (((atIssue s ds).updB B).finish [] .hold js).grp? s.d.cur.slot = some ((startGroup s).ends s.d.cur [] .hold js) := by
  have := Work.grp?_updG ((atIssue s ds).updB B) (Group.ends s.d.cur [] .hold js)
  rw [show ((atIssue s ds).updB B).slot = s.d.cur.slot from rfl,
    show ((atIssue s ds).updB B).grp? s.d.cur.slot = (atIssue s ds).grp? s.d.cur.slot from rfl, atIssue_grp? ds hi] at this
  exact this

theorem afterB_here (hi : Issued s h src dst x) :
    (afterB s ds B js).here = (startGroup s).ends s.d.cur [] .hold js := by
  show ((((atIssue s ds).updB B).finish [] .hold js).grp? s.d.cur.slot).getD Group.gone = _
  rw [afterB_grp? ds js B hi, Option.getD_some]

theorem afterB_blocks (hi : Issued s h src dst x) (k : Nat) :
    sget? (afterB s ds B js).d.blocks k =
      if k = s.here.blk then some (B (s.myBlk.take s.d.cur.stamped s.d.now s.here.gidx ds)) else sget? s.d.blocks k := by
  have h1 := Work.blk?_updBlk (atIssue s ds) (atIssue s ds).g.blk k B
  rw [atIssue_g ds hi, startGroup_blk, atIssue_blk? ds hi] at h1
  have h2 := afterG_blocks (js := js) ds id hi k
  have h3 : (atIssue s ds).blk? k = if k = s.here.blk then some (s.myBlk.take s.d.cur.stamped s.d.now s.here.gidx ds) else sget? s.d.blocks k := h2
  have h4 : sget? (afterB s ds B js).d.blocks k = ((atIssue s ds).updBlk s.here.blk B).blk? k := by
    have : (atIssue s ds).updB B = (atIssue s ds).updBlk s.here.blk B := by
      rw [Work.updB, atIssue_g ds hi, startGroup_blk]
    show ((atIssue s ds).updB B).blk? k = _
    rw [this]
  rw [h4, h1]
  split
  · rfl
  · next hk => rw [h3, if_neg hk]

theorem afterB_same (hi : Issued s h src dst x) (hc : ∀ b, (B b).core = b.core) : OnlyRegs s (afterB s ds B js) := by
  have hn := hi.rise.imp Nat.ne_of_lt
  have hblk : (afterB s ds B js).here.blk = s.here.blk := by rw [afterB_here ds js B hi, ends_blk, startGroup_blk]
  refine ⟨fun a => rfl, rfl, fun k hk => ?_, fun k hk => by rw [afterB_blocks ds js B hi, if_neg hk], ?_, ?_, ?_, ?_⟩
  · have h1 := Work.grp?_updG_ne ((atIssue s ds).updB B) (Group.ends s.d.cur [] .hold js) (j := k) hk
    have h3 : (atIssue s ds).grp? k = (begin_ s).grp? k := Work.grp?_updG_ne (begin_ s) _ (j := k) hk
    exact h1.trans h3
  · rw [afterB_here ds js B hi, ends_core, startGroup_core]; rfl
  · rw [afterB_here ds js B hi, ends_owed, startGroup_owed, List.append_nil]
  · rw [State.myBlk, State.blk, hblk, afterB_blocks ds js B hi, if_pos rfl, Option.getD_some, hc]
    exact Block.take_core ..
  · intro l
    rw [afterB_here ds js B hi, ends_thread_core _ _ _ _ hn, startGroup_thread]; rfl

theorem afterB_advances (hi : Issued s h src dst x) : Advances s (afterB s ds B []) := by
  refine ⟨⟨fun l hl he => ?_, fun l hl => ?_⟩, ?_⟩
  · rw [State.pc, afterB_here ds [] B hi, ends_thread_pc _ _ _ (hi.rise.imp Nat.ne_of_lt), startGroup_thread,
      if_pos ⟨hl, he⟩]; rfl
  · rw [State.pc, afterB_here ds [] B hi, ends_thread_pc _ _ _ (hi.rise.imp Nat.ne_of_lt), startGroup_thread,
      if_neg (fun hc => hl hc.1)]; rfl
  · intro l
    dsimp only
    rw [afterB_here ds [] B hi, ← startGroup_thread]
    exact ends_thread_m _ _ _ _ (hi.rise.imp Nat.ne_of_lt) _ l

end OnBlock

/-! ### Writing a result per lane -/

/-- The group after a V or Q result. -/
def putLanes (d : Dst) (wide push : Bool) (x : List Nat) (f : Nat → DWord) (g : Group) : Group :=
  (x.map fun l => (l, splitWords wide (f l))).foldl (fun g p => g.writeLane d push p.1 p.2) g

theorem writeRun_keeps {β : Type} (φ : Group → β) (hφ : ∀ g l n w, φ (Group.writeV g l n w) = φ g) (g : Group) (l : Nat)
    (q : Bool) (n : Nat) (ws : List Word) : φ (g.writeRun l q n ws) = φ g := by
  induction ws generalizing g n with
  | nil => rfl
  | cons w t ih =>
    rw [Group.writeRun, ih]
    cases q
    · exact hφ ..
    · simp only [↓reduceIte, Group.writeQ]
      split
      · exact hφ ..
      · rfl

theorem writeLane_keeps {β : Type} (φ : Group → β) (h1 : ∀ g l n w, φ (Group.writeV g l n w) = φ g)
    (h2 : ∀ g l ws, φ (Group.pushAll g l ws) = φ g) (g : Group) (d : Dst) (push : Bool) (l : Nat) (ws : List Word) :
    φ (g.writeLane d push l ws) = φ g := by
  cases d <;> simp only [Group.writeLane]
  · split
    · rw [h2, writeRun_keeps φ h1]
    · rw [writeRun_keeps φ h1]
  · split
    · rw [h2, writeRun_keeps φ h1]
    · rw [writeRun_keeps φ h1]

theorem putLanes_keeps {β : Type} (φ : Group → β) (h1 : ∀ g l n w, φ (Group.writeV g l n w) = φ g)
    (h2 : ∀ g l ws, φ (Group.pushAll g l ws) = φ g) (d : Dst) (wide push : Bool) (x : List Nat) (f : Nat → DWord)
    (g : Group) : φ (putLanes d wide push x f g) = φ g := by
  unfold putLanes
  exact foldl_keeps _ _ φ (fun (g : Group) (p : Nat × List Word) => writeLane_keeps φ h1 h2 g d push p.1 p.2) g

theorem push_keeps {β : Type} (φ : Thread → β) (hφ : ∀ t w, φ (Thread.push t w) = φ t) (t : Thread) (ws : List Word) :
    φ (ws.foldl Thread.push t) = φ t := by
  induction ws generalizing t with
  | nil => rfl
  | cons w r ih => rw [List.foldl_cons, ih, hφ]

theorem pushAll_thread {β : Type} (φ : Thread → β) (hφ : ∀ t w, φ (Thread.push t w) = φ t) (g : Group) (l k : Nat)
    (ws : List Word) : φ ((g.pushAll l ws).thread k) = φ (g.thread k) := by
  rw [Group.pushAll, Group.thread_updThread]
  split
  · next h => subst h; exact push_keeps φ hφ ..
  · rfl

theorem putLanes_thread {β : Type} (φ : Thread → β) (hφ : ∀ t w, φ (Thread.push t w) = φ t) (d : Dst) (wide push : Bool)
    (x : List Nat) (f : Nat → DWord) (g : Group) (k : Nat) :
    φ ((putLanes d wide push x f g).thread k) = φ (g.thread k) :=
  putLanes_keeps (fun g => φ (g.thread k)) (fun _ _ _ _ => rfl) (fun g l ws => pushAll_thread φ hφ g l k ws) d wide push x
    f g

theorem writeRun_thread (g : Group) (l : Nat) (q : Bool) (n : Nat) (ws : List Word) (k : Nat) :
    (g.writeRun l q n ws).thread k = g.thread k :=
  writeRun_keeps (fun g => g.thread k) (fun _ _ _ _ => rfl) g l q n ws

/-- The last-result file after a V or Q result (R42). -/
theorem putLanes_readL (d : Dst) (hd : d.isVQ = true) (wide push : Bool) {x : List Nat} (hx : x.Nodup) (f : Nat → DWord)
    (g : Group) (k i : Nat) :
    ((putLanes d wide push x f g).thread k).readL i =
      (if push = true ∧ k ∈ x then (splitWords wide (f k)).foldl Thread.push (g.thread k) else g.thread k).readL i := by
  have key : ∀ l (g : Group) ws k, (g.writeLane d push l ws).thread k =
      if push = true ∧ k = l then ws.foldl Thread.push (g.thread k) else g.thread k := by
    intro l g ws k
    have h : ∀ (g' : Group), (if push = true then g'.pushAll l ws else g').thread k =
        if push = true ∧ k = l then ws.foldl Thread.push (g'.thread k) else g'.thread k := by
      intro g'
      by_cases hp : push = true
      · simp only [hp, ↓reduceIte, true_and, Group.pushAll, Group.thread_updThread]
        split
        · next h => subst h; rfl
        · rfl
      · simp [hp]
    cases d with
    | v n => rw [show g.writeLane (.v n) push l ws = if push = true then (g.writeRun l false n.toNat ws).pushAll l ws
        else g.writeRun l false n.toNat ws from rfl, h]; simp only [writeRun_thread]
    | q n => rw [show g.writeLane (.q n) push l ws = if push = true then (g.writeRun l true n.toNat ws).pushAll l ws
        else g.writeRun l true n.toNat ws from rfl, h]; simp only [writeRun_thread]
    | s n => cases hd
    | b n => cases hd
    | none => cases hd
  have hfold : (putLanes d wide push x f g).thread k =
      if push = true ∧ k ∈ x then (splitWords wide (f k)).foldl Thread.push (g.thread k) else g.thread k := by
    unfold putLanes
    induction x generalizing g with
    | nil => simp
    | cons l t ih =>
      rw [List.nodup_cons] at hx
      rw [List.map_cons, List.foldl_cons, ih hx.2, key]
      by_cases hk : k = l
      · subst hk
        by_cases hp : push = true <;> simp [hx.1, hp]
      · by_cases hp : push = true <;> simp [hk, hp]
  rw [hfold]

/-- Reading a V register after a run has been written to consecutive V registers of a lane. -/
theorem writeRun_readV (g : Group) (l n : Nat) (ws : List Word) (k m : Nat) (hn : n + ws.length ≤ 256) (hm : m < 256)
    : (g.writeRun l false n ws).readV k m =
      if k = l ∧ n ≤ m ∧ m < n + ws.length then ws.getD (m - n) 0 else g.readV k m := by
  induction ws generalizing g n with
  | nil => rw [Group.writeRun, if_neg]; simp only [List.length_nil]; omega
  | cons w t ih =>
    simp only [List.length_cons] at hn
    rw [Group.writeRun, ih _ _ (by omega)]
    simp only [Bool.false_eq_true, ↓reduceIte, Group.readV_writeV]
    by_cases h1 : k = l ∧ n + 1 ≤ m ∧ m < n + 1 + t.length
    · rw [if_pos h1, if_pos ⟨h1.1, by omega, by simp only [List.length_cons]; omega⟩]
      obtain ⟨j, hj⟩ : ∃ j, m - n = j + 1 := ⟨m - n - 1, by omega⟩
      rw [hj, List.getD_cons_succ, show m - (n + 1) = j by omega]
    · rw [if_neg h1]
      by_cases h2 : 256 * k + m = 256 * l + n
      · have hk : k = l := by omega
        have hmn : m = n := by omega
        rw [if_pos h2, if_pos ⟨hk, by omega, by simp only [List.length_cons]; omega⟩, hmn, Nat.sub_self]; rfl
      · rw [if_neg h2, if_neg]
        simp only [List.length_cons]
        omega

theorem splitWords_length (wide : Bool) (v : DWord) : (splitWords wide v).length = if wide then 2 else 1 := by
  cases wide <;> rfl

/-- V results: the registers written, and all others of the lanes. -/
theorem putLanes_readV (n : BitVec 8) (wide push : Bool) (hw : wide = true → n ≠ 255) {x : List Nat} (hx : x.Nodup)
    (f : Nat → DWord) (g : Group) (k m : Nat) (hm : m < 256) :
    (putLanes (.v n) wide push x f g).readV k m =
      if k ∈ x ∧ n.toNat ≤ m ∧ m < n.toNat + (splitWords wide (f k)).length then
        (splitWords wide (f k)).getD (m - n.toNat) 0 else g.readV k m := by
  have hn : ∀ v, n.toNat + (splitWords wide v).length ≤ 256 := by
    intro v
    rw [splitWords_length]
    have := n.isLt
    cases wide with
    | false => simp; omega
    | true =>
      have : n.toNat ≠ 255 := fun h => hw rfl (BitVec.eq_of_toNat_eq h)
      simp; omega
  have key : ∀ l (g : Group) v, (g.writeLane (.v n) push l (splitWords wide v)).readV k m =
      (g.writeRun l false n.toNat (splitWords wide v)).readV k m := by
    intro l g v
    rw [show g.writeLane (.v n) push l (splitWords wide v) =
      if push = true then (g.writeRun l false n.toNat (splitWords wide v)).pushAll l (splitWords wide v)
      else g.writeRun l false n.toNat (splitWords wide v) from rfl]
    split <;> rfl
  unfold putLanes
  induction x generalizing g with
  | nil => simp
  | cons l t ih =>
    rw [List.nodup_cons] at hx
    rw [List.map_cons, List.foldl_cons, ih hx.2, key, writeRun_readV _ _ _ _ _ _ (hn _) hm]
    by_cases hk : k = l
    · subst hk; simp [hx.1]
    · simp [hk]

theorem putLanes_owed (d : Dst) (wide push : Bool) (x : List Nat) (f : Nat → DWord) (g : Group) :
    owedOf (putLanes d wide push x f g) = owedOf g :=
  putLanes_keeps owedOf (fun _ _ _ _ => rfl) (fun _ _ _ => rfl) d wide push x f g

/-- A result per lane in a V destination. -/
theorem wroteV_after (hi : Issued s h src dst x) (n : BitVec 8) (wide push : Bool) (hw : wide = true → n ≠ 255)
    (f : Nat → DWord) : WroteV s (afterG s ds (putLanes (.v n) wide push x f) js) x n.toNat fun l => splitWords wide (f l) := by
  have hr : ∀ k m, m < 256 → (afterG s ds (putLanes (.v n) wide push x f) js).here.readV k m =
      if k ∈ x ∧ n.toNat ≤ m ∧ m < n.toNat + (splitWords wide (f k)).length then
        (splitWords wide (f k)).getD (m - n.toNat) 0 else s.here.readV k m := fun k m hm => by
    rw [afterG_here ds js _ hi, Group.readV, ends_v]
    refine (putLanes_readV n wide push hw hi.lanes_nodup f (startGroup s) k m hm).trans ?_
    simp only [Group.readV, startGroup_v]
  have hlen : ∀ v, n.toNat + (splitWords wide v).length ≤ 256 := by
    intro v
    rw [splitWords_length]
    have := n.isLt
    cases wide with
    | false => simp; omega
    | true =>
      have : n.toNat ≠ 255 := fun h => hw rfl (BitVec.eq_of_toNat_eq h)
      simp; omega
  refine ⟨fun l hl i hil => ?_, fun l m hm hnot => ?_⟩
  · have := hlen (f l)
    dsimp only at hil ⊢
    rw [hr l (n.toNat + i) (by omega), if_pos ⟨hl, by omega, by omega⟩, Nat.add_sub_cancel_left]
  · rw [hr l m hm]
    exact if_neg hnot

theorem qmap_lt (t : Thread) (i v : Nat) (h : t.qmap i = some v) : v < 256 := by
  unfold Thread.qmap at h
  cases hq : sget? t.q i with
  | none => simp [hq] at h
  | some b => simp [hq] at h; subst h; exact b.isLt

/-- Reading a V register after a word has been written through a region's map (R41). -/
theorem writeQ_readV (g : Group) (l i : Nat) (w : Word) (k m : Nat) (hm : m < 256) :
    (g.writeQ l i w).readV k m = if k = l ∧ (g.thread l).qmap i = some m then w else g.readV k m := by
  unfold Group.writeQ
  cases hq : (g.thread l).qmap i with
  | none => simp
  | some v =>
    have := qmap_lt _ _ _ hq
    dsimp only
    rw [Group.readV_writeV]
    by_cases hk : k = l ∧ v = m
    · obtain ⟨rfl, rfl⟩ := hk; simp
    · rw [if_neg (by omega), if_neg (by simpa using hk)]

theorem writeQ_thread (g : Group) (l i : Nat) (w : Word) (k : Nat) : (g.writeQ l i w).thread k = g.thread k := by
  unfold Group.writeQ; split <;> rfl

/-- V registers after a Q result, by register. -/
theorem putLanes_readQ (n : BitVec 4) (wide push : Bool) {x : List Nat} (hx : x.Nodup) (f : Nat → DWord) (g : Group)
    (k m : Nat) (hm : m < 256) :
    (putLanes (.q n) wide push x f g).readV k m =
      if k ∈ x ∧ wide = true ∧ (g.thread k).qmap (n.toNat + 1) = some m then (f k >>> 32).truncate 32
      else if k ∈ x ∧ (g.thread k).qmap n.toNat = some m then (f k).truncate 32 else g.readV k m := by
  have key : ∀ l (g : Group) v, (g.writeLane (.q n) push l (splitWords wide v)).readV k m =
      if k = l ∧ wide = true ∧ (g.thread l).qmap (n.toNat + 1) = some m then (v >>> 32).truncate 32
      else if k = l ∧ (g.thread l).qmap n.toNat = some m then v.truncate 32 else g.readV k m := by
    intro l g v
    rw [show g.writeLane (.q n) push l (splitWords wide v) =
      if push = true then (g.writeRun l true n.toNat (splitWords wide v)).pushAll l (splitWords wide v)
      else g.writeRun l true n.toNat (splitWords wide v) from rfl]
    rw [show (if push = true then (g.writeRun l true n.toNat (splitWords wide v)).pushAll l (splitWords wide v)
      else g.writeRun l true n.toNat (splitWords wide v)).readV k m =
        (g.writeRun l true n.toNat (splitWords wide v)).readV k m by split <;> rfl]
    cases wide
    · simp [splitWords, Group.writeRun, writeQ_readV _ _ _ _ _ _ hm]
    · simp [splitWords, Group.writeRun, writeQ_readV _ _ _ _ _ _ hm, writeQ_thread]
  have keyT : ∀ l (g : Group) v k, ((g.writeLane (.q n) push l v).thread k).qmap = (g.thread k).qmap := fun l g v k =>
    writeLane_keeps (fun g : Group => (g.thread k).qmap) (fun _ _ _ _ => rfl)
      (fun g l ws => pushAll_thread Thread.qmap (fun _ _ => rfl) g l k ws) g (.q n) push l v
  unfold putLanes
  induction x generalizing g with
  | nil => simp
  | cons l t ih =>
    rw [List.nodup_cons] at hx
    rw [List.map_cons, List.foldl_cons, ih hx.2, key]
    simp only [keyT]
    by_cases hk : k = l
    · subst hk; simp [hx.1]
    · simp [hk]

/-- What a V or Q result leaves as it was. -/
theorem putLanes_frame (hi : Issued s h src dst x) (d : Dst) (wide push : Bool) (f : Nat → DWord) :
    OnlyRegs s (afterG s ds (putLanes d wide push x f) []) ∧
    Advances s (afterG s ds (putLanes d wide push x f) []) ∧ SameP s (afterG s ds (putLanes d wide push x f) []) ∧
    SameS s (afterG s ds (putLanes d wide push x f) []) ∧ SameB s (afterG s ds (putLanes d wide push x f) []) := by
  have hn := hi.rise.imp Nat.ne_of_lt
  refine ⟨?_, ?_, ?_, ?_, ?_⟩
  · exact afterG_same ds [] _ hi (putLanes_keeps _ (fun _ _ _ _ => rfl) (fun _ _ _ => rfl) ..)
      (putLanes_keeps Group.blk (fun _ _ _ _ => rfl) (fun _ _ _ => rfl) ..) (putLanes_owed ..)
      (fun l => putLanes_thread Thread.core (fun _ _ => rfl) ..)
  · exact afterG_advances ds _ hi fun l => ⟨by
      rw [putLanes_thread Thread.st (fun _ _ => rfl), startGroup_thread], by
      rw [putLanes_thread Thread.pc (fun _ _ => rfl), startGroup_thread], by
      rw [putLanes_thread Thread.m (fun _ _ => rfl), startGroup_thread]⟩
  · intro l
    rw [afterG_here ds [] _ hi, ends_thread_p _ _ _ _ hn, putLanes_thread Thread.p (fun _ _ => rfl), startGroup_thread]
  · intro m
    rw [afterG_here ds [] _ hi, Group.readS, ends_sreg,
      putLanes_keeps Group.sreg (fun _ _ _ _ => rfl) (fun _ _ _ => rfl), startGroup_sreg]; rfl
  · exact afterG_sameB ds [] _ hi (putLanes_keeps Group.blk (fun _ _ _ _ => rfl) (fun _ _ _ => rfl) ..)

theorem putLanes_l (hi : Issued s h src dst x) (d : Dst) (hd : d.isVQ = true) (wide push : Bool) (f : Nat → DWord) :
    if push then Pushed s (afterG s ds (putLanes d wide push x f) []) x fun l => splitWords wide (f l)
    else SameL s (afterG s ds (putLanes d wide push x f) []) := by
  have hn := hi.rise.imp Nat.ne_of_lt
  have hl : ∀ l i, ((afterG s ds (putLanes d wide push x f) []).here.thread l).readL i =
      (if push = true ∧ l ∈ x then (splitWords wide (f l)).foldl Thread.push (s.here.thread l)
        else s.here.thread l).readL i := fun l i => by
    rw [afterG_here ds [] _ hi, ends_thread_l _ _ _ _ hn, putLanes_readL d hd wide push hi.lanes_nodup f]
    simp only [startGroup_thread]
  cases push with
  | true => intro l i; rw [hl]; simp
  | false => intro l i; rw [hl]; simp

theorem wroteQ_after (hi : Issued s h src dst x) (n : BitVec 4) (wide push : Bool) (f : Nat → DWord) (k m : Nat)
    (hm : m < 256) : (afterG s ds (putLanes (.q n) wide push x f) js).here.readV k m =
      if k ∈ x ∧ wide = true ∧ (s.here.thread k).qmap (n.toNat + 1) = some m then (f k >>> 32).truncate 32
      else if k ∈ x ∧ (s.here.thread k).qmap n.toNat = some m then (f k).truncate 32 else s.here.readV k m := by
  rw [afterG_here ds js _ hi, Group.readV, ends_v]
  refine (putLanes_readQ n wide push hi.lanes_nodup f (startGroup s) k m hm).trans ?_
  simp only [startGroup_thread, Group.readV, startGroup_v]

/-- The pair a wide V destination names lies in the file. -/
def dstPair (d : Dst) (wide : Bool) : Prop :=
  match d with
  | .v n => wide = true → n ≠ 255
  | _ => True

/-- An instruction whose effect is one result per executing lane computes it, whatever its destination. -/
theorem computes {i : Instr} {body : Work → List Nat → Res} (he : exec i s = issue s h src dst body)
    (hi : Issued s h src dst x) {d : Dst} {wide push : Bool} (hw : dstPair d wide) (hd : d ≠ .none) {f : Nat → DWord}
    (hb : body (atIssue s dst) x = .ok ((atIssue s dst).writeDst x d wide push f) []) :
    Computes i s x d wide push f := by
  have hn := hi.rise.imp Nat.ne_of_lt
  obtain ⟨a, xs, rfl⟩ : ∃ a xs, x = a :: xs := by
    cases x with
    | nil => exact absurd rfl hi.some_
    | cons a xs => exact ⟨a, xs, rfl⟩
  cases d with
  | v n =>
    obtain ⟨h1, h2, h3, h4, h5⟩ := putLanes_frame dst hi (.v n) wide push f
    exact ⟨afterG s dst (putLanes (.v n) wide push (a :: xs) f) [], by rw [he, issue_ok hi hb]; rfl, h1, h2, h3,
      wroteV_after dst [] hi n wide push hw f, h4, h5, putLanes_l dst hi (.v n) rfl wide push f⟩
  | q n =>
    obtain ⟨h1, h2, h3, h4, h5⟩ := putLanes_frame dst hi (.q n) wide push f
    refine ⟨afterG s dst (putLanes (.q n) wide push (a :: xs) f) [], by rw [he, issue_ok hi hb]; rfl, h1, h2, h3, ?_, ?_, ?_,
      h4, h5, putLanes_l dst hi (.q n) rfl wide push f⟩
    · intro l hl v hv hne
      rw [wroteQ_after dst [] hi n wide push f l v (qmap_lt _ _ _ hv), if_neg, if_pos ⟨hl, hv⟩]
      rintro ⟨-, h1, h2⟩
      rcases hne with h | h
      · exact absurd h1 (by simp [h])
      · exact h h2
    · intro l hl v hwd hv
      rw [wroteQ_after dst [] hi n wide push f l v (qmap_lt _ _ _ hv), if_pos ⟨hl, hwd, hv⟩]
    · intro l m hm hnot
      rw [wroteQ_after dst [] hi n wide push f l m hm, if_neg, if_neg]
      · rintro ⟨hl, h1⟩; exact (hnot hl).1 h1
      · rintro ⟨hl, h1, h2⟩
        rcases (hnot hl).2 with h | h
        · exact absurd h1 (by simp [h])
        · exact h h2
  | s n =>
    refine ⟨afterG s dst (fun g => g.writeS n.toNat (f a)) [], by rw [he, issue_ok hi hb]; rfl, ?_, ?_, ?_, ?_, ?_, ?_, ?_, ?_⟩
    · exact afterG_same dst [] _ hi rfl rfl rfl fun l => rfl
    · exact afterG_advances dst _ hi fun l => ⟨congrArg Thread.st (startGroup_thread l), congrArg Thread.pc (startGroup_thread l),
        congrArg Thread.m (startGroup_thread l)⟩
    · intro l; rw [afterG_here dst [] _ hi, ends_thread_p _ _ _ _ hn]; exact congrArg Thread.p (startGroup_thread l)
    · intro l m; rw [afterG_here dst [] _ hi]; simp [Group.readV, Group.writeS]
    · exact afterG_sameB dst [] _ hi rfl
    · intro l i; rw [afterG_here dst [] _ hi, ends_thread_l _ _ _ _ hn]; exact congrArg (fun t => Thread.readL t i) (startGroup_thread l)
    · rw [afterG_here dst [] _ hi]; simp [Group.readS, Group.writeS, sget_sset]
    · intro m hm; rw [afterG_here dst [] _ hi]; simp [Group.readS, Group.writeS, sget_sset, hm]
  | b n =>
    have hblk : (afterB s dst (fun b => b.writeB n.toNat (f a)) []).here.blk = s.here.blk := by
      rw [afterB_here dst [] _ hi, ends_blk, startGroup_blk]
    have hread : ∀ m, (afterB s dst (fun b => b.writeB n.toNat (f a)) []).myBlk.readB m =
        if m = n.toNat then f a else s.myBlk.readB m := fun m => by
      rw [State.myBlk, State.blk, hblk, afterB_blocks dst [] _ hi, if_pos rfl]
      simp [Block.readB, Block.writeB, sget_sset]
    refine ⟨afterB s dst (fun b => b.writeB n.toNat (f a)) [], by rw [he, issue_ok hi hb]; rfl, ?_, ?_, ?_, ?_, ?_, ?_, ?_, ?_⟩
    · exact afterB_same dst [] _ hi fun b => rfl
    · exact afterB_advances dst _ hi
    · intro l; rw [afterB_here dst [] _ hi, ends_thread_p _ _ _ _ hn]; exact congrArg Thread.p (startGroup_thread l)
    · intro l m; rw [afterB_here dst [] _ hi]; simp [Group.readV]
    · intro m; rw [afterB_here dst [] _ hi]; simp [Group.readS]
    · intro l i; rw [afterB_here dst [] _ hi, ends_thread_l _ _ _ _ hn]; exact congrArg (fun t => Thread.readL t i) (startGroup_thread l)
    · exact (hread _).trans (if_pos rfl)
    · intro m hm; exact (hread m).trans (if_neg hm)
  | none => exact absurd rfl hd

/-! ### Effects on threads -/

/-- The group after `F` on each thread of `x`. -/
def onThreads (x : List Nat) (F : Nat → Thread → Thread) (g : Group) : Group :=
  x.foldl (fun (g : Group) l => g.updThread l (F l)) g

theorem onThreads_thread {x : List Nat} (hx : x.Nodup) (F : Nat → Thread → Thread) (g : Group) (k : Nat) :
    (onThreads x F g).thread k = if k ∈ x then F k (g.thread k) else g.thread k :=
  foldl_thread hx _ F (fun g l k => Group.thread_updThread ..) g k

theorem onThreads_keeps {β : Type} (φ : Group → β) (h : ∀ g l f, φ (Group.updThread g l f) = φ g) (x : List Nat)
    (F : Nat → Thread → Thread) (g : Group) : φ (onThreads x F g) = φ g :=
  foldl_keeps _ _ φ (fun (g : Group) l => h g l (F l)) g

/-- What an effect on threads alone leaves. -/
theorem threads_after (hi : Issued s h src dst x) (F : Nat → Thread → Thread) {T : Nat → Thread → Thread}
    (hT : ∀ l t, (F l t).core = T l t.core) :
    Only s (afterG s ds (onThreads x F) js) id (fun l => if l ∈ x then T l else id) id [] ∧
    SameV s (afterG s ds (onThreads x F) js) ∧ SameS s (afterG s ds (onThreads x F) js) ∧
    SameB s (afterG s ds (onThreads x F) js) ∧
    (∀ (β : Type) (φ : Thread → β), (∀ (t : Thread) st m, φ { t with st := st, m := m } = φ t) →
      (∀ n l t, φ (Thread.ends s.d.cur n [] .hold js l t) = φ t) → ∀ k,
      φ ((afterG s ds (onThreads x F) js).here.thread k) = φ (if k ∈ x then F k (s.here.thread k) else s.here.thread k)) ∧
    MeetsAt (afterG s ds (onThreads x F) js) (fun k => (if k ∈ x then F k (s.here.thread k) else s.here.thread k).m) := by
  have hn := hi.rise.imp Nat.ne_of_lt
  have hth : ∀ k, (onThreads x F (startGroup s)).thread k = if k ∈ x then F k (s.here.thread k) else s.here.thread k :=
    fun k => by rw [onThreads_thread hi.lanes_nodup, startGroup_thread]
  refine ⟨?_, ?_, ?_, ?_, ?_, ?_⟩
  · refine afterG_only ds js _ hi (onThreads_keeps Group.core (fun _ _ _ => rfl) ..)
      (onThreads_keeps Group.blk (fun _ _ _ => rfl) ..) ?_ fun l => ?_
    · rw [List.append_nil]; exact onThreads_keeps owedOf (fun _ _ _ => rfl) ..
    · rw [hth, startGroup_thread]
      split
      · next hl => simp only [hl, ↓reduceIte, hT]
      · next hl => simp only [hl, ↓reduceIte, id]
  · intro l n
    rw [afterG_here ds js _ hi, Group.readV, ends_v, onThreads_keeps Group.v (fun _ _ _ => rfl), startGroup_v]; rfl
  · intro n
    rw [afterG_here ds js _ hi, Group.readS, ends_sreg, onThreads_keeps Group.sreg (fun _ _ _ => rfl), startGroup_sreg]; rfl
  · exact afterG_sameB ds js _ hi (onThreads_keeps Group.blk (fun _ _ _ => rfl) ..)
  · intro β φ h1 h2 k
    rw [afterG_here ds js _ hi, ends_thread s.d.cur [] .hold js φ h1 hn, ← hth]
    split
    · exact h2 ..
    · rfl
  · intro k
    dsimp only
    rw [← hth]
    exact afterG_meets ds js _ hi k

theorem pred_setPred (t : Thread) (pd q : BitVec 4) (b : Bool) :
    (t.setPred pd b).pred q = if q = pd ∧ pd.toNat ≠ 15 then b else t.pred q := by
  unfold Thread.setPred
  by_cases h15 : pd.toNat = 15
  · simp [h15]
  · simp only [h15, ↓reduceIte, ne_eq, not_false_eq_true, and_true]
    have hpd : pd.toNat < 15 := by have := pd.isLt; omega
    by_cases hq : q = pd
    · subst hq
      cases b <;> simp [Thread.pred, h15, hpd]
    · have hne : q.toNat ≠ pd.toNat := fun h => hq (BitVec.eq_of_toNat_eq h)
      by_cases hq15 : q.toNat = 15
      · simp [Thread.pred, hq, hq15]
      · have hqd : q.toNat < 15 := by have := q.isLt; omega
        rcases Nat.lt_or_gt_of_ne hne with h | h
        · cases b <;> simp [Thread.pred, hq, hqd, h]
        · have h' : ¬q.toNat < pd.toNat := by omega
          have h0 : ¬q.toNat - pd.toNat = 0 := by omega
          cases b <;> simp [Thread.pred, hq, hqd, h', h0]

/-- An instruction whose effect is one predicate per executing lane. -/
theorem decides {i : Instr} {body : Work → List Nat → Res} (he : exec i s = issue s h src dst body)
    (hi : Issued s h src dst x) {pd : BitVec 4} {f : Nat → Bool}
    (hb : body (atIssue s dst) x = .ok ((atIssue s dst).writePred x pd f) []) : Decides i s x pd f := by
  obtain ⟨h1, h2, h3, h4, h5, h6⟩ := threads_after dst [] hi (fun l t => t.setPred pd (f l)) (T := fun _ => id)
    (fun l t => by unfold Thread.setPred; split <;> rfl)
  have hT : (fun (l : Nat) => if l ∈ x then (id : Thread → Thread) else id) = fun _ => id := by
    funext l; split <;> rfl
  rw [hT] at h1
  refine ⟨afterG s dst (onThreads x fun l t => t.setPred pd (f l)) [], ?_, h1, ⟨⟨fun l hl he' => ?_, fun l hl => ?_⟩, ?_⟩,
    ⟨h2, h3, h4, fun l k => ?_⟩, fun l q => ?_⟩
  · rw [he, issue_ok hi hb]
    unfold afterG Work.writePred onThreads
    simp only [List.foldl_map]
  · rw [afterG_pc dst [] _ hi, if_pos]
    · rfl
    · refine ⟨hl, ?_⟩
      rw [onThreads_thread hi.lanes_nodup, startGroup_thread]
      split
      · unfold Thread.setPred; split <;> exact he'
      · exact he'
  · rw [afterG_pc dst [] _ hi, if_neg (fun hc => hl hc.1), onThreads_thread hi.lanes_nodup, startGroup_thread]
    split
    · unfold Thread.setPred; split <;> rfl
    · rfl
  · intro l
    have := h6 l
    have hm : (if l ∈ x then (s.here.thread l).setPred pd (f l) else s.here.thread l).m = (s.here.thread l).m := by
      split
      · unfold Thread.setPred; split <;> rfl
      · rfl
    simp only [hm] at this
    exact this
  · rw [h5 Word (fun t => t.readL k) (fun _ _ _ => rfl) (fun n l t => threadEnds_l ..) l]
    split
    · unfold Thread.setPred; split <;> rfl
    · rfl
  · rw [h5 Bool (fun t => t.pred q) (fun _ _ _ => rfl)
      (fun n l t => by unfold Thread.pred; rw [threadEnds_p]) l]
    by_cases hl : l ∈ x
    · simp only [hl, ↓reduceIte, true_and, pred_setPred]
    · simp only [hl, ↓reduceIte, false_and]

end Sys2Proof.Machine
end

