-- ==== Sys2Proof/Tests/Slice0.lean ====
section
/-! SUPPORT. Tests: terms that the well-formedness checks refuse, words written out from the encoding tables that decode to
the instructions they stand for, single steps with results calculated by hand from the rules, and for every statement with
hypotheses one theorem that shows, clause by clause, a concrete state and operands that meet all of them together. -/

namespace Sys2Proof.Tests

set_option Elab.async false
set_option synthInstance.maxSize 4000
set_option synthInstance.maxHeartbeats 400000
set_option maxRecDepth 100000
set_option linter.all false

open Sys2Proof Sys2Proof.Machine

/-! ### Well-formedness refuses -/

/-- Guard ?P15, VER 01, CTL 0. -/
def hd : Hdr := { neg := false, grd := 15, ver1 := true, ctl := 0 }
/-- The same with a lookahead count, which only the long-latency class has (R176). -/
def hd5 : Hdr := { hd with ctl := 5 }
def io : IntOp := { ty := .i32, sat := false, d := .v 8, a := .v 2, b := .v 3, c := .v 4 }
def io2 : IntOp := { io with c := .v 0 }
def fo : FpOp := { ty := .f32, rnd := .rne, sat := false, ftz := false, d := .v 8, a := .v 2, b := .v 3, c := .v 0 }
def fo1 : FpOp := { fo with b := .v 0 }
def mo : MemOp :=
  { ty := .b32, space := .g, strong := false, ord := .rlx, scope := .blk, disp := 0, d := .v 8, base := .v 2, off := .inl 0, data := .v 0 }
def so : MemOp := { mo with d := .none, data := .v 4 }
def ao : MemOp := { mo with ty := .n32, strong := true, data := .v 4 }
def co : CopyOp := { bo := false, col := false, a := .s 8, b := .s 9, c := .v 0, tr := 1, tk := 20, ext := 0 }
def ro : RingWOp := { ty := .b32, ord := .rlx, scope := .die, d := .v 8, a := .s 6, v := .v 0, c := .v 0, disp := 0 }
def rc : RingCOp := { ord := .rlx, scope := .die, tk := 4, run := .v 16, a := .s 6, disp := 0 }

theorem test_wf_accepts : ∀ i ∈ ([.mad hd io, .add hd io2, .add { hd5 with ver1 := false } io2, .fadd hd fo, .frcp hd5 fo1,
    .ld hd5 mo, .st hd so, .atom hd .add ao, .copyT hd co, .ringRd hd ro, .ringCap hd rc] : List Instr), i.wf = true :=
        by decide

/-- CTL under VER 01, unused fields, .sat, destinations, pairs, named constants, LIT words (R176, R179 to R181, R190, R192). -/
theorem test_wf_refuses_integer : ∀ i ∈ ([.add hd5 io2, .add hd io, .and hd { io2 with sat := true },
    .add hd { io2 with d := .none },
    .add hd { io2 with ty := .i64, a := .v 255 }, .add hd { io2 with ty := .i64, d := .q 15 },
        .add hd { io2 with b := .named 0 },
    .mad hd { io with b := .lit 1, c := .lit 2 }, .lea hd { io with ty := .i16 }, .bfx hd io, .bfx hd { io2 with sat := true },
    .bfi hd { io with sat := true }, .sel hd { ty := .i64, d := .v 255, a := .v 2, b := .v 4, p := ⟨false, 0⟩ },
    .cmp hd { ty := .i32, pd := 0, a := .named 1, b := .v 3, cond := .lt }, .moviB32 hd .none 0, .moviB64 hd (.v 255) 0] :
    List Instr), i.wf = false := by decide

/-- Lanes, predicates and control (R195 to R205). -/
theorem test_wf_refuses_control : ∀ i ∈ ([.movs hd { wide := false, first := true, d := .v 8, a := .v 2, lane := .v 0 },
    .movs hd { wide := false, first := true, d := .s 8, a := .v 2, lane := .v 1 },
        .movs hd { wide := true, first := true, d := .s 8, a := .v 255, lane := .v 0 },
    .xlane hd { mode := .at, d := .none, a := .v 2, b := .v 3, c := .v 4 }, .agree hd5 .every 0 ⟨false, 0⟩,
        .pmask hd false .none ⟨false, 0⟩,
    .lane hd .iss .none, .pand hd5 0 ⟨false, 0⟩ ⟨false, 1⟩, .pmovPk hd (.s 4), .pmovUpk hd (.lit 5), .bra hd5 8,
        .braInd hd (.v 255),
    .call hd 255 8, .ret hd (.lit 5), .meetSetXch hd 255 8, .nap hd (.named 0), .region hd 8 9 64 8, .region hd 250 7 0 0,
        .region hd 8 0 64 6,
    .rdsp hd .none 0, .rdsp hd (.v 0) 0x0E, .rdsp hd (.v 255) 0x0A, .wrsp hd 0x00 (.v 2), .wrsp hd 0x08 (.v 255)] : List Instr),
    i.wf = false := by decide

/-- Rounding, .sat, .ftz, pairs, formats and field ranges (Table 12.1, R215 to R236). -/
theorem test_wf_refuses_float : ∀ i ∈ ([.fadd hd { fo with ty := .f16, ftz := true }, .fadd hd { fo with c := .v 1 },
    .fmin hd { fo with rnd := .rz },
    .fmin hd { fo with sat := true }, .frcp hd { fo1 with rnd := .rs }, .frcp hd { fo1 with a := .lit 0 },
        .fadd hd { fo with d := .none },
    .fcmp hd { ty := .f16, ftz := false, pd := 3, a := .v 2, b := .v 3, cond := .eq }, .fclass hd { fo1 with ftz := true },
    .dot2 hd { fo with c := .v 4 }, .pfma hd { fo with ty := .f16, ftz := true, c := .v 4 }, .dadd hd { fo with d := .v 255 },
        .dfma hd { fo with rnd := .rs },
    .cvt hd { tyTo := .b32, tyFr := .f32, rnd := .rne, sat := false, ftz := false, d := .v 7, a := .v 2 },
    .cvt hd { tyTo := .n32, tyFr := .i32, rnd := .rz, sat := false, ftz := false, d := .v 7, a := .v 2 },
    .pk hd { fmt := .f32, rnd := .rne, sat := false, ftz := false, d := .v 7, a := .v 2 },
    .pk hd { fmt := .e2m1, rnd := .rne, sat := false, ftz := false, d := .v 7, a := .v 250 },
    .upk hd { fmt := .f16, ftz := false, i := 2, d := .v 7, a := .v 2 },
        .upk hd { fmt := .f16, ftz := false, i := 1, d := .v 7, a := .named 0 },
    .qnt hd { fmt := .f16, rnd := .rne, pk := true, d := .v 6, a := .v 2 },
        .dqnt hd { fmt := .f16, rnd := .rne, ftz := false, i := 0, d := .v 6, a := .v 2, c := .v 3 },
    .keyx hd { inv := false, desc := false, ty := .b32, d := .v 6, a := .v 2 },
        .hist hd { wide := false, shift := 30, width := 4, d := .none, key := .v 2, base := .v 3 },
    .hist hd { wide := false, shift := 0, width := 0, d := .none, key := .v 2, base := .v 3 },
    .scan hd { fn := .add, excl := true, all := true, ty := .i32, rnd := .rne, ftz := false, d := .v 6, a := .v 2 },
    .scan hd { fn := .min, excl := false, all := false, ty := .f32, rnd := .rne, ftz := true, d := .v 6, a := .v 2 },
    .qdx hd { coarse := false, rnd := .rs, ftz := false, d := .v 6, a := .v 2 }] : List Instr), i.wf = false := by decide

/-- Bases, types, strength, order, data, scopes (R184, R237 to R256). -/
theorem test_wf_refuses_memory : ∀ i ∈ ([.ld hd { mo with base := .v 3 }, .ld hd { mo with ty := .f32 },
    .ld hd { mo with ord := .acq },
    .ld hd { mo with strong := true, ord := .rel }, .ld hd { mo with strong := true, space := .c },
        .ld hd { mo with ty := .b128, d := .v 253 },
    .ld hd { mo with data := .v 1 }, .ld hd { mo with off := .s 4 }, .st hd { so with space := .c },
        .st hd { so with d := .v 8 },
    .st hd { so with ty := .i8 }, .st hd { so with data := .l 0 }, .ldv hd { mo with ty := .b8 },
        .pf hd { mo with ty := .b8, d := .none, space := .s },
    .atom hd .and ao, .atom hd .add { ao with strong := false }, .atom hd .add { ao with space := .l }, .atomCas hd ao,
        .red hd .xch { so with ty := .b32 },
    .red hd .add { so with ty := .n32, strong := true }, .waitc hd .copy (.lit 0),
        .waitV hd { cond := .eq, acq := false, shared := false, scope := .die, ty := .b8, base := .v 2, a := .v 4, disp := 0 },
    .barArrive hd .quad 1, .barWait hd .grp 0, .boInit hd (.lit 0) (.v 2), .boExpect hd (.v 2) (.named 0),
        .boArriveExpect hd .none (.v 2) (.lit 1),
    .boWait hd (.v 2) (.named 0)] : List Instr), i.wf = false := by decide

/-- Engine, collection, ring, Pergola and privileged forms (R257 to R302, R214). -/
theorem test_wf_refuses_engines : ∀ i ∈ ([.copyT hd { co with col := true }, .copyT hd { co with c := .v 1 }, .idxWalk hd co,
    .idxGather hd { co with b := .lit 3 },
    .cbload hd 5 20 (.s 4) (.inl 3), .tload hd 1 false (.v 255) 0, .tset hd 1 0 0 (.lit 1), .jArm hd 1 (.named 0),
    .mma hd { j := 1, acc := 2, row0 := .s 8, col0 := .s 9, k0 := .inl 0, ta := 1, tb := 2, aS := false, bS := false, ftz := false, md := 1 },
    .smma hd { j := 1, acc := 2, row0 := .s 8, col0 := .s 9, k0 := .inl 1, ta := 1, tb := 2, aS := true, bS := true, ftz := false, md := 0 },
    .mxLd hd 1 true (.v 2) (.v 3) 1, .mxSt hd
        { acc := 1, row0 := .v 2, col0 := .v 3, out := 1, ta := 2, tb := 3, rnd := .rs, sat := false, ftz := false, sp := false },
    .rebal hd { tot := false, tk := 4, d := .v 8, a := .v 2, b := .v 3, c := .v 4 }, .collOpen hd 1 20 (.v 255),
        .collIns hd (.s 4) 1 (.v 2) (.v 4) (.v 5),
    .collNext hd (.v 253) 1, .collCount hd 20 1 (.lit 0) (.v 2), .ringBoard hd (.v 255) 0,
        .ringRd hd { ro with scope := .blk }, .ringRd hd { ro with ty := .n32 },
    .ringRd hd { ro with ord := .rel }, .ringRd hd { ro with v := .v 1 }, .ringUp hd .add { ro with ty := .b32 },
        .ringUp hd .add { ro with ty := .n32, c := .v 1 },
    .ringUpPop hd ro, .ringCap hd { rc with run := .v 241 }, .ringCap hd { rc with ord := .rel }, .ringRet hd rc,
        .ringRev hd .none, .ringWait hd (.lit 1),
    .pgBuild hd 20 (.v 255), .pgStat hd false (.v 249) (.s 4), .trace hd false (.v 252) 20 (.s 4) (.v 16),
        .comp hd 1 20 (.v 2) (.v 3) (.v 4) (.v 253),
    .tret hd (.v 255), .rdpriv hd (.v 0) 0x4C, .wrpriv hd 0x40 (.v 2), .wrpriv hd 0x47 (.v 2), .saveGroup hd (.lit 1) (.s 4),
        .halt hd5, .intpendClear hd (.lit 1),
    .xlinv hd (.v 255)] : List Instr), i.wf = false := by decide

/-! ### Words written out from the spec's encoding -/

/-- shl.b32 V1, V0, 2 and fma.f32 V4, V1, V2, L0: the worked encodings of 10_encoding.md. -/
theorem test_decode_worked_short :
    decodeTableWord 64 (words 0x012F00D4 0x000E0800 0 0) = some
        (.shl hd { ty := .n32, sat := false, d := .v 1, a := .v 0, b := .inl 2, c := .v 0 }) ∧
    decodeTableWord 64 (words 0x040F0434 0x00100A00 0 0) =
      some (.fma hd { ty := .f32, rnd := .rne, sat := false, ftz := false, d := .v 4, a := .v 1, b := .v 2, c := .l 0 }) :=
          by decide +kernel

/-- ld.b32 V2, [B0 + V1] with lookahead 1: the worked encoding of 10_encoding.md. -/
theorem test_decode_worked_load : decodeTableWord 96 (words 0x020F1705 0x34000400 0x00000022 0) =
    some (.ld { hd with ctl := 1 } { ty := .b32, space := .g, strong := false, ord := .rlx, scope := .blk, disp := 0, d := .v 2, base := .b 0, off := .v 1, data := .v 0 }) := by decide +kernel

/-- rdsp V0, LANE; cmp.lt.n32 P0, V0, B3; ?!P0 exit; ?P0 bra +8 words; region V8, 4, V64, 6; meet.set +29 words. -/
theorem test_decode_control :
    decodeTableWord 64 (words 0x000F0374 0 0 0) = some (.rdsp hd (.v 0) 0) ∧
    decodeTableWord 64 (words 0x002F0174 0xC00D0C02 0 0) = some
        (.cmp hd { ty := .n32, pd := 0, a := .v 0, b := .b 3, cond := .lt }) ∧
    decodeTableWord 64 (words 0x00100294 0xC0000000 0 0) = some (.exit { hd with neg := true, grd := 0 }) ∧
    decodeTableWord 64 (words 0x00000254 8 0 0) = some (.bra { hd with grd := 0 } 8) ∧
    decodeTableWord 64 (words 0x080F02E4 0xC8640000 0 0) = some (.region hd 8 4 64 6) ∧
    decodeTableWord 64 (words 0x000F02A4 0x1D 0 0) = some (.meetSet hd 0x1D) := by decide +kernel

/-- cont.set S4, +66 words; cont.resume S4; fence.die; bar.arrive.blk 2; bo.wait [V21], 0. -/
theorem test_decode_waits :
    decodeTableWord 64 (words 0x040F0334 0x42 0 0) = some (.contSet hd 4 0x42) ∧
    decodeTableWord 64 (words 0x000F0344 0xF0400000 0 0) = some (.contResume hd 4) ∧
    decodeTableWord 64 (words 0x030F0904 0xC0000000 0 0) = some (.fence hd .die) ∧
    decodeTableWord 64 (words 0x210F0934 0xC0000000 0 0) = some (.barArrive hd .blk 2) ∧
    decodeTableWord 64 (words 0x000F0984 0xC15E0000 0 0) = some (.boWait hd (.v 21) (.inl 0)) := by decide +kernel

/-- fadd.f16 V3, V1, V2; cvt.n32.f32.rz V7, V2; qnt.pk.mxe4m3.f32 V6, V2. -/
theorem test_decode_float :
    decodeTableWord 64 (words 0x032F0404 0x00100800 0 0) =
      some (.fadd hd { ty := .f16, rnd := .rne, sat := false, ftz := false, d := .v 3, a := .v 1, b := .v 2, c := .v 0 }) ∧
    decodeTableWord 96 (words 0x070F0605 0x00200000 0x22DC0000 0) =
      some (.cvt hd { tyTo := .n32, tyFr := .f32, rnd := .rz, sat := false, ftz := false, d := .v 7, a := .v 2 }) ∧
    decodeTableWord 96 (words 0x060F0635 0x00200000 0x061C0001 0) = some
        (.qnt hd { fmt := .mxe4m3, rnd := .rne, pk := true, d := .v 6, a := .v 2 }) := by
  decide +kernel

/-- st.strong.rel.die.b32 [S4], V9; atom.add.die.n32 V3, [B0 + 8], 1. -/
theorem test_decode_memory :
    decodeTableWord 96 (words 0x000F0715 0xF04E0009 0x00000662 0) =
      some (.st hd { ty := .b32, space := .g, strong := true, ord := .rel, scope := .die, disp := 0, d := .none, base := .s 4, off := .inl 0, data := .v 9 }) ∧
    decodeTableWord 96 (words 0x030F0745 0x340E0381 0x0001046B 0) =
      some (.atom hd .add { ty := .n32, space := .g, strong := true, ord := .rlx, scope := .die, disp := 8, d := .v 3, base := .b 0, off := .inl 0, data := .inl 1 }) := by decide +kernel

/-- copy.t.bo S4, T0, [0x1000], S8, S9, [0]; mma J1, A2, T1, T2, S8, S9, 0; copy.g.bo with lookahead 4. -/
theorem test_decode_engines :
    decodeTableWord 128 (words 0x000F0A06 0xF08C2780 0x01000002 0x00001000) =
      some (.copyT hd { bo := true, col := false, a := .s 8, b := .s 9, c := .inl 0, tr := 0, tk := 4, ext := 0x1000 }) ∧
    decodeTableWord 128 (words 0x120F0B36 0xF08C2780 0x10000000 0x00000002) =
      some (.mma hd
        { j := 1, acc := 2, row0 := .s 8, col0 := .s 9, k0 := .inl 0, ta := 1, tb := 2, aS := false, bS := false, ftz := false, md := 0 }) ∧
    decodeTableWord 128 (words 0x000F4A16 0xC10E2006 0x01000002 0x00001000) =
      some (.copyG { hd with ctl := 4 } { bo := true, col := false, a := .v 16, b := .inl 8, c := .v 6, tr := 0, tk := 4, ext := 0x1000 }) := by
  decide +kernel

/-- coll.ins V9, T3, V4, V6, V7; coll.commit T0, S2; ring.up.pop.acq.b128 V8, [S6], 4; pg.build S20, [S17]. -/
theorem test_decode_collections :
    decodeTableWord 128 (words 0x090F0C16 0x00401807 0x30000000 0) = some (.collIns hd (.v 9) 3 (.v 4) (.v 6) (.v 7)) ∧
    decodeTableWord 128 (words 0x000F0C36 0xC0000000 0x00800000 0) = some (.collCommit hd 0 2) ∧
    decodeTableWord 128 (words 0x08EF0D36 0x306E1000 0x00019001 0) =
      some (.ringUpPop hd { ty := .b128, ord := .acq, scope := .die, d := .v 8, a := .s 6, v := .inl 4, c := .v 0, disp := 0 })
          ∧
    decodeTableWord 128 (words 0x000F0D86 0xF1100000 0x05000000 0) = some (.pgBuild hd 20 (.s 17)) := by decide +kernel

/-- halt; tret [S4]; rdpriv S5, 0x041. -/
theorem test_decode_privileged :
    decodeTableWord 64 (words 0x000F0F54 0xC0000000 0 0) = some (.halt hd) ∧
    decodeTableWord 64 (words 0x000F0F04 0xF0400000 0 0) = some (.tret hd (.s 4)) ∧
    decodeTableWord 64 (words 0x050F0F14 0x80010400 0 0) = some (.rdpriv hd (.s 5) 0x41) := by decide +kernel

/-- Table 10.15: the word of zeros; LEN 11 with VER 01; ld with STR 0 and ORD 01; add.i32 with CTL 0101 under VER 01, and under
VER 00; SB = 0x3E0 in format S; ?!P15 halt in user mode. -/
theorem test_decode_borderline :
    decode true 0 = .error .illegal ∧ decode true 0x00000007 = .error .illegal ∧
    decode true (words 0x020F1705 0x34000400 0x00000122 0) = .error .illegal ∧
    decode true (words 0x010F5004 0x00200C00 0 0) = .error .illegal ∧
    decode true (words 0x010F5000 0x00200C00 0 0) =
      .ok (.add { hd with ver1 := false, ctl := 5 } { io2 with d := .v 1 }) ∧
    decode true (words 0x010F0004 0x002F8000 0 0) = .error .illegal ∧
    decode false (words 0x001F0F54 0xC0000000 0 0) = .error .privileged := by decide +kernel

/-! ### Small states -/

/-- The state with an instruction about to issue: block 0, privileged, is one group on core 0 whose threads are the lanes `ls`,
all of them issuing at 0x40000. The first 512 MiB are mapped to themselves on die 0. -/
def st (ls : List Nat) : State :=
  let b := State.reset.withFetchWord 64 0
  { b with d := { b.d with
      cur := { slot := 0, lanes := ls, pc := 0x40000, len := 8, word := 0, stamped := false }
      groups := [(0, { b.grp 0 with thr := ls.map fun l => (l, { (b.grp 0).thread 0 with stamp := 1 }) })]
      turns := [] } }

def updG (f : Group → Group) (s : State) : State := { s with d := { s.d with groups := supd s.d.groups s.d.cur.slot f } }
def updB (f : Block → Block) (s : State) : State := { s with d := { s.d with blocks := supd s.d.blocks 0 f } }
def updDie (f : Die → Die) (s : State) : State := { s with d := { s.d with dies := sset s.d.dies 0 (f (s.d.die 0)) } }
def updPkg (f : Pkg → Pkg) (s : State) : State := { s with d := { s.d with pkg := f s.d.pkg } }
def updThr (f : Nat → Thread → Thread) : State → State := updG fun g => { g with thr := g.thr.map fun e => (e.1, f e.1 e.2) }

/-- V register `n` of lane `l`, an S, B or T register, and `n` bytes of memory hold `x`. -/
def setV (l n : Nat) (x : Word) : State → State := updG fun g => g.writeV l n x
def setS (n : Nat) (x : DWord) : State → State := updG fun g => g.writeS n x
def setB (n : Nat) (x : DWord) : State → State := updB fun b => b.writeB n x
def setT (n : Nat) (x : TRec) : State → State := updG fun g => g.writeT n x
def cells (a n x : Nat) : Memory :=
  (List.range n).filterMap fun i => if x / 256 ^ i % 256 = 0 then none else some (a + i, BitVec.ofNat 8 (x / 256 ^ i))
def poke (a n x : Nat) (s : State) : State :=
  { s with mem := s.mem.filter (fun c => decide (c.1 < a)) ++ cells a n x ++ s.mem.filter fun c => decide (a + n ≤ c.1) }

/-! #### The states of the witnesses: memory with tiles, collections, structures and objects, operations on their way, stopped
blocks, launches and links -/

def sR : State := st [0,1] |> updThr (fun l t =>
    { t with p := if l = 1 then 0x2b5e else 0x0144, q := [(0,40),(1,41),(2,42),(3,43),(5,60)], l0 := 0x12345678, l1 := 0xdeadbeef, l2 := 7, l3 := 0xffffffff, seed := 0x123456789abcdef0 + l }) |>
  setV 0 2 0x80000005 |> setV 1 2 0x7 |> setV 0 3 0xfffffff0 |> setV 1 3 0x9abcdef1 |> setV 0 4 3 |> setV 1 4 0xffffffff |>
      setV 0 5 0x11 |> setV 1 5 0x22 |>
  setV 0 8 0x88 |> setV 1 8 0x89 |> setV 0 9 0x99 |> setV 1 9 0x9a |> setV 0 42 0x4242 |> setV 1 43 0x4343 |>
      setS 4 0x8000000000001000 |> setS 9 5 |> setB 3 0xfedcba9876543210 |> setB 5 77 |> setV 0 63 3 |> setV 1 62 0x12
def f32s : List Nat := [0x3f800000,0x80000000,0x7f800000,0xff800001,0x00000005,0xc1280000,0x7f7fffff,0x80800000,0x34000001,0x40490fdb,0xbf000000,0xff800000]
def f16s : List Nat := [0x3c00bc01,0x7c00fc00,0x7e000001,0x80008001,0x7bff0400,0x3f80c120,0x000103ff,0x7f80ff80,0x00010080,0xc5004248]
def sF : State := (List.range 12).foldl (fun s k => s |> setV 0 (20+k) (BitVec.ofNat 32 (f32s.getD k 0)) |>
    setV 1 (20+k) (BitVec.ofNat 32 (f32s.getD ((k*5+3)%12) 0)) |>
   setV 0 (40+k) (BitVec.ofNat 32 (f16s.getD (k%10) 0)) |> setV 1 (40+k) (BitVec.ofNat 32 (f16s.getD ((k*7+2)%10) 0))) (sR |>
       setB 6 0x400921fb54442d18 |> setS 6 0xbff0000000000001 |> setS 7 0x0000000000000001)
def addGrp (k : Nat) (f : Group → Group) (s : State) : State :=
    { s with d := { s.d with groups := sset s.d.groups k (f (s.grp 0)) } }
def waitOf (why : Why) : Wait := { why := why, iss := 0, word := 7, len := 12 }
def sG : State := sR |> addGrp 4 fun g => { g with gidx := 1, extH := true, blk := 4 }
def sW : State := sR |> updG (fun g => {g with growW := some 7, since := 5, v := sset g.v 70 5}) |> updThr fun l t =>
    {t with st := .waiting, wait := some (waitOf .grow)}
def sW3 : State := sW |> updG fun g => {g with cv := true, contPc := 0x4444, contTok := 12}
def heldG (k : Nat) (g : Group) : Group :=
    { g with gidx := k, growW := none, extH := true, thr := g.thr.map fun e => (e.1, { e.2 with st := .held, m := some 0x40100, wait := none }) }
def sW4 : State := sW3 |> addGrp 4 (heldG 4) |> addGrp 8 (fun g => {g with gidx := 8, since := 2, growW := some 9}) |>
    addGrp 12 (heldG 12)
def sN : State := { (sR |> updThr fun l t => {t with st := .waiting, wait := some (waitOf (.nap 7 [(0,3),(1,10)]))}) with d := { (sR |> updThr fun l t => {t with st := .waiting, wait := some (waitOf (.nap 7 [(0,3),(1,10)]))}).d with now := 17 } }
def sP : State := sR |> setS 4 0xfedcba9876543210 |> setS 6 0x123 |> updDie fun d =>
    { d with ptRoot := 0x100000, hq := 0x8000001f }
def sM : State := sR |> setV 0 10 0x1000 |> setV 1 10 0x1040 |> setV 0 12 0x100 |> setV 1 12 0x140 |> setV 0 13 8 |>
    setV 1 13 16 |> setS 5 0x1080 |> setS 6 0x180 |>
  poke 0x1000 16 0xfedcba98765432100123456789abcdef |> poke 0x1010 16 0xdeadbeefcafebabe8001800280038004 |>
      poke 0x1040 16 0x5555aaaa5555aaaa111122223333f4f5 |> poke 0x1050 16 0x99 |> poke 0x1080 16 0x8182838485868788 |>
  poke (2^57+0x100) 16 0xfedcba98765432100123456789abcdef |> poke (2^57+0x110) 16 0xdeadbeefcafebabe8001800280038004 |>
      poke (2^57+0x140) 16 0x5555aaaa5555aaaa111122223333f4f5 |> poke (2^57+0x150) 16 0x7a7b7c7d7e7f
def leaf0 : Leaf := ⟨0,0,false,false,false,false,0,0⟩
def lfOf (s : State) (o : MemOp) (u : Bool) (k : XKind) (l : Nat) : Leaf :=
    match (begin_ s).translate (slotDie s.d.cur.slot) (memEa s o u l).toNat k (!s.myBlk.priv) with | .ok f => f | _ => leaf0
def we (id slot pa n data : Nat) : WEntry :=
    { id := id, slot := slot, lane := 0, also := [], loc := false, pa := pa, n := n, ty := .b32, data := data, kind := .store, strong := false, acq := false, scope := .blk, owed := none, wide := false, va := 0x1000, instr := 5, lanes := 1, iss := Stamp.none, passed := none, readBy := [] }
def updCore (f : Core → Core) (s : State) : State := { s with d := { s.d with cores := sset s.d.cores 0 (f (s.d.core 0)) } }
def ow (id : Nat) (dst : List Reg) (p : Payload) : Owed := { id := id, wins := [(0,0)], dst := dst, pay := p }
def sL : State := sM |> updG fun g =>
    { g with owed := [ow 1 [.v 0 20] (.ready [0x77]), ow 2 [.s 8] (.ready [0x77,0x88]), ow 3 [.v 1 30] (.load {lane:=1,va:=0x1040,pa:=0x1040,n:=2,loc:=false,more:=[],ro:=false,ext:=.sign,cst:=false,cached:=true,strong:=false,acq:=false,scope:=.blk,lease:=0,wide:=false,instr:=5,lanes:=2,iss:=Stamp.none,passed:=none}),
   ow 4 [.s 9] (.load {lane:=0,va:=0x1000,pa:=0x1000,n:=8,loc:=false,more:=[],ro:=false,ext:=.zero,cst:=false,cached:=true,strong:=false,acq:=false,scope:=.blk,lease:=3,wide:=true,instr:=5,lanes:=2,iss:=Stamp.none,passed:=none})] }
def sSt : State := sM |> updCore fun c =>
    { c with path := [we 5 0 0x1004 4 0xaabbccdd, we 6 0 0x2000 2 0x1234, we 7 0 0x5000 16 0x123400000000] }
def sCp : State := { sM with d := { sM.d with now := 1000, cores := [(0, { Core.reset with copies := [⟨3,2,false,[]⟩,⟨4,5,true,[]⟩,⟨5,9,false,[]⟩], path := [we 9 0 0x2000 4 1, { we 8 0 0x1008 4 1 with strong := true, kind := .atomic .add }] })], parts := [(0, { Part.reset with dbgctl := 0xffffffff })], pkg := { sM.d.pkg with mix := [(0x1000/128, [⟨0x1008, 8, ⟨0,0,0⟩, 0, .sys⟩])] } } }
def atNow (n : Nat) (s : State) : State := { s with d := { s.d with now := n } }
def mkT (base : Nat) (ty : Ty) (tc tr stride cols rows : Nat) (z : Nat := 0) (tsv : Nat := 0) (sofs : Nat := 0) : TRec :=
  BitVec.ofNat 256 (base + 2^64*tsv + 2^65*z + 2^67*encTy ty + 2^72*tc + 2^80*(tr-1) + 2^88*stride + 2^128*cols + 2^160*rows +
      2^192*sofs)
def sFe : State := sM |> updG (fun g => { g with cnt := [(2, 1)], horizon := 3 }) |> updCore fun c =>
    { c with copies := [⟨4,5,true,[]⟩,⟨5,9,false,[]⟩] }
def lfW (s : State) (o : WaitVOp) (l : Nat) : Leaf :=
    match (begin_ s).translate (slotDie s.d.cur.slot) (waitEa s o l).toNat .load (!s.myBlk.priv) with | .ok f => f | _ => leaf0
def wvOp : WaitVOp := { cond := .eq, acq := false, shared := true, scope := .die, ty := .b32, base := .v 12, a := .v 2, disp := 0 }
def wvH : Hdr := {neg:=false,grd:=15,ver1:=true,ctl:=0}
def sWv : State := sM |> updThr fun l t =>
    if l = 1 then { t with st := .waiting, wait := some { why := .cont [(1,[2^57+0x140,0x3333f4f5,700])], iss := 0, word := (encode (.waitV wvH wvOp)).getD 0, len := 12 } } else t
def lrec : LRec := ⟨0x40000,false,false,3,0,2,1,4,false,0,8,4,0,0,0,0x10000,0,0⟩
def launch : Launch := { rec_ := lrec, queue := 0, xdie := 0, popTime := 0, pri := 0, heavy := false, dieMask := 1, localKb := 0, priv := true, gang := 3, pbid := 0, pbsys := false, pbn := 0, after := [], created := [0,1], retired := [], ending := false, status := 0, bars := [], waitFrom := 0, vc := [], ran := [] }
def withLaunch (id : Nat) (f : Launch → Launch) (s : State) : State :=
    { s with d := { s.d with launches := sset s.d.launches id (f launch) } }
def sB1 : State := sM |> withLaunch 0 id |> updB fun b => { b with bown := [(3,0)] }
def sB2 : State := sB1 |> updB (fun b => { b with gcnt := 2, bars := [(3, ⟨5, [1], [], []⟩)] }) |> addGrp 1 fun g =>
    { g with gidx := 1 }
def sB3 : State := sB1 |> updB (fun b => { b with gcnt := 2, bars := [(3, ⟨5, [], [], []⟩)] }) |> addGrp 1 fun g =>
    { g with gidx := 1 }
def sB4 : State := atNow 1000 (sB1 |> withLaunch 0 fun l => {l with gang := 1}) 
def sB5 : State := atNow 1000 (sB3 |> addGrp 8 (fun g => { g with blk := 8 }))
def sBw (ph : Nat) : State := atNow 1000 (sB2 |> updG fun g => { g with bar := [(3, ⟨false, true, ph⟩),(16,⟨true,true,ph⟩)] } )
def sO : State := sM |> poke (2^57+0x100) 16 (boWord 2 1 7 false 5) |> poke (2^57+0x140) 16 (boWord 3 3 0xffffffff false 0) |>
    setV 0 14 7 |> setV 1 14 0xffffffff |> setV 0 15 9 |> setV 1 15 0
def sC : State := (List.range 2).foldl (fun s i => s |> poke (0x300000 + 100*i) 8 (0x0123456789abcdef * (i+3) % 2^64) |>
    poke (2^57+0x1000+52*i) 4 (i*0x01234567 % 2^32)) (sM |>
  setT 1 (mkT 0x300000 .b8 0 4 128 100 3) |> setT 2 (mkT 0x300000 .mxe4m3 1 2 128 96 5 1 0 0x800) |>
      setT 3 (mkT 0x300000 .f32 0 2 256 64 2 1) |> setT 4 (mkT 0x300000 .e2m3 3 2 96 128 9) |>
      setT 5 (mkT 0x300000 .f32 0 2 256 64 2 4) |>
  setV 0 30 0 |> setV 1 30 1 |> setV 0 31 32 |> setV 1 31 0 |> setV 0 32 0x100 |> setV 1 32 0x140 |>
      poke (2^57+0x100) 16 (boWord 3 3 0 false 0) |> poke (2^57+0x140) 16 (boWord 3 3 0 false 0) |> setS 12 0x300000 |>
      setS 13 0x200000000030000 |> setV 0 33 2 |> setV 1 33 2 |> setV 0 34 0x200 |> setV 1 34 0x210 |>
  poke (2^57+0x200) 16 0x0000000700000001_00000000_00000002)
def sCb : State := sC |> updB fun b => { b with cb := some ⟨0x300000, 256, 1, (List.range 2048).map (BitVec.ofNat 8)⟩ }
def sX : State := sM |> setT 1 (mkT 0x300000 .f16 1 64 128 64 64) |> setT 2 (mkT 0x310000 .f16 1 64 128 64 64) |>
    setT 3 (mkT 0x320000 .f32 1 64 256 64 64) |> setT 4 (mkT 0x330000 .f16 3 64 256 128 64) |>
    setT 5 (mkT 0x330000 .e4m3 1 64 64 100 50) |> setT 6 (mkT 0x330000 .mxe4m3 1 64 64 96 50 0 1 0x8000) |>
  setV 0 30 0 |> setV 1 30 0 |> updB fun b =>
      { b with joins := [(1, { declared := [0,1], signed := [], word := 0, st := .armed }),(2, { declared := [0,1,34], signed := [], word := 0, st := .armed })] }
def sI (pos : Nat) : State := sC |> setV 0 35 0x300 |> setV 1 35 0x300 |>
    poke (2^57+0x200) 32 (0x340000 + 2^64*0x341000 + 2^160*1 + 2^192*3 + 2^224*pos) |>
    poke 0x340000 20 (0 + 2^32*2 + 2^64*5 + 2^96*5 + 2^128*8) |>
    poke 0x341000 32 0x0000000800000007000000060000000500000004000000030000000200000001 |>
  poke (2^57+0x300) 24 (0x0000000100000000 + 2^64*0x0000000000000003 + 2^128*0x0000000900000001)
def nx (i : Instr) (s : State) : State := match exec i s with | .next t => t | _ => s
def updOps (f : EOp → EOp) (s : State) : State := { s with d := { s.d with ops := s.d.ops.map f } }
def readAll (s : State) : State := updOps (fun e =>
    { e with parts := e.parts.map fun p => let src := p.src.map fun b => match b.key? with
    | some a => b.take e.book ((begin_ s).physByte a)
    | none => b
  { p with src := src, val := some (src.map BSrc.byte) } }) s
def cur2 (s : State) : State := { s with d := { s.d with cur := sC.d.cur } }
def sE1 : State := nx (.copyT wvH { bo := false, col := false, a := .inl 0, b := .inl 0, c := .v 0, tr := 1, tk := 20, ext := 0x2000 }) sC
def sE2 : State := nx (.copyTCb wvH { bo := false, col := false, a := .inl 0, b := .inl 0, c := .v 0, tr := 1, tk := 21, ext := 0x8000 }) (cur2 { sE1 with d := { sE1.d with blocks := sCb.d.blocks } })
def sE3 : State := readAll sE2
def sE4 : State := updOps (fun e => { e with parts := [], word := 0x1234 }) sE2
def sEw : State := nx (.idxWalk wvH { bo := false, col := false, a := .v 34, b := .v 0, c := .v 0, tr := 0, tk := 22, ext := 0x2008 }) (sI 0)
def sEw2 : State := nx (.idxWalk wvH { bo := false, col := false, a := .inl 0, b := .v 0, c := .v 0, tr := 0, tk := 23, ext := 0x3008 }) (cur2 sEw)
def sEw3 : State := { sEw2 with d := { sEw2.d with ops := sEw2.d.ops.zipIdx.map fun p => if p.2 = 0 then { p.1 with waits := false, parts := [] } else p.1 } }
def sMz : State := nx (.mxZero wvH 2) (sX |> updB fun b => { b with accs := [(accKey 2 0 0, 5), (accKey 3 1 1, 7)] })
def cD : CDesc := { desc := 0x350000, gobj := 0x351000, gpa := 0x351000, w := 16, f := 8, k := 2, pw := 8, stg := 0x360000, scap := 16, pool := 0x370000, pcap := 32, stgPages := [], poolPages := [] }
def cDescN : Nat := 0x351000 + 2^64*0x370000 + 2^128*32 + 2^160*16 + 2^192*0x360000 + 2^256*16 + 2^264*8 + 2^272*2 + 2^276*8
def gObj (gen dir count stage : Nat) (busy : Bool := false) (pins : Nat := 0) : Nat :=
    gen + 2^63*busy.toNat + 2^64*dir + 2^128*count + 2^192*stage + 2^256*pins
def sK : State := sM |> poke 0x350000 64 cDescN |> poke 0x351000 64 (gObj 1 0x370000 4 0) |> poke 0x370000 16 1 |>
    poke 0x370010 16 (3 + 2^48*4 + 2^64*1 + 2^96*2) |>
    poke 0x370200 512 7295816173555867367672755157956663024676907094573060 |> poke 0x370400 512 33490951 |>
  setS 14 0x350000 |> setT 1 (BitVec.ofNat 256 (handleOf 0x350000 cDescN)) |> setV 0 40 5 |> setV 1 40 9 |> setV 0 41 0 |>
      setV 1 41 0 |> setV 0 44 0x300 |> setV 1 44 1 |> setV 0 46 300 |> setV 1 46 300
def cItr (lo hi : Nat) : TRec := if lo = 3 then 123412841799090453167331679462625127397938334307601932323691069451 else
    4113761393303019519507898797322661925964065434094499798449815563
def sK2 : State := atNow 1000 (sK |> setT 2 (cItr 3 300) |> setT 3 (cItr 4 10) |>
    setT 4 (BitVec.ofNat 256 ((cItr 4 10).toNat - 2)) |> updG fun g => { g with horizon := 2 })
def rsl (obj data : Nat) : RSlot := { RSlot.free with used := true, obj := obj, data := data, from_ := 130, touch := 3 }
def ride (i : Nat) (r : RSlot) : State → State := updDie fun d => { d with slots := sset d.slots i r }
def stgRec (op k f p : Nat) : Nat := p + 2^32*k + 2^80*f + 2^104*op
def sCo (pins n now : Nat) : State :=
    atNow now (sK |> poke 0x360000 16 (stgRec 1 3 1 7) |> poke 0x360010 16 (stgRec 2 9 0 255) |>
    poke 0x360020 16 (stgRec 1 700 9 1) |> ride 16 (rsl 0x351000 (gObj 1 0x370000 4 3 true pins)) |>
  fun s => { s with d := { s.d with nextId := 9, ops := [{ (begin_ s).newOp .coll (.collCommit { cD with stgPages := [0x360000], poolPages := [0x370000] } (some n) none) with id := 9, tok := some 20, waits := true }, { (begin_ s).newOp .coll .plain with id := 30 }] } } |>
  updDie fun d => { d with gens := [⟨0x351000, 1, [0,1,2]⟩,⟨0x351000, 0, []⟩] })
def sRi : State := atNow 1282 (sM |> setS 14 0x1040 |> setS 15 0x1000 |> setS 16 0x1100 |>
    poke 0x1100 64 0x5566778899aabbccddeeff |> ride 16 (rsl 0x1040 0x123456789abcdef00112233445566778899) |>
    setV 0 10 0x1040 |> setV 1 10 0x1050 |> setV 0 50 3 |> setV 1 50 4)
def capR : RSlot := { rsl 0x1040 0x99 with captured := true, cstop := 0, cgrp := 0, cdl := 10 }
def sRc : State := (sRi |> ride 16 capR |> updG fun g => { g with cap := some ⟨0,16,false⟩ })
def ringPa (s : State) (a : Opnd) (disp : Word) (k : Nat) : Nat :=
    match (begin_ s).translate (slotDie s.d.cur.slot) ((((s.op64 k a).toNat : Int) + disp.toInt) % 2 ^ 64).toNat .ring (!s.myBlk.priv) with | .ok lf => lf.pa | _ => 0
def sRg (i : Nat) (f : RSlot → RSlot) (o : RingOp) : State := sRi |>
    updG (fun g => { g with acks := 2, owed := [ow 1 [.v 0 20] (.ready [0x77]), ow 5 [.v 0 21,.v 0 22] .pend] }) |>
    updDie fun d => { d with slots := [(i, f (rsl 0x1040 0x123456789abcdef00112233445566778899))], ringQ := [o] }
def rop (op : ROp) (n ofs v : Nat) (remote : Bool) : RingOp :=
    { id := 7, ins := 7, slot := some 0, stop := 0, remote := remote, obj := 0x1040, lanes := [⟨0,ofs,v,0x44556677,false,some 5⟩], act := .up op true, n := n, acq := false, rel := false, scope := .die, since := 1000, wide := false, iss := Stamp.none }
def sBd : State := sRi |> updDie fun d => { d with slots := [], boardQ := [⟨0x1100, some 33, 0⟩] }
def sWb : State := atNow 1154 (sM |> ride 16 { rsl 0x1040 0x123456789abcdef00112233445566778899 with mark := some (1026, 2) })
def cmd (id code arg : Nat) (st : CmdSt) : Cmd := ⟨id, code, 3, arg, st, 1000⟩
def sCm (c : Cmd) : State := sRi |> updDie fun d => { d with ringCmds := [cmd 1 1 9 .done, c, cmd 3 2 5 .waiting] }
def pgDescN (ptype nprim leafMax dgp : Nat) : Nat :=
    2^192*0x381000 + 2^256*0x3A0000 + 2^320*0x390000 + 2^384*nprim + 2^416*64 + 2^448*ptype + 2^451*dgp + 2^452*leafMax
def pgObj (gen hdr cand pins : Nat) (busy : Bool) : Nat := gen + 2^63*busy.toNat + 2^128*hdr + 2^192*cand + 2^256*pins
def sPg0 (d : Nat) : State := sM |> setS 17 0x380000 |> poke 0x380000 64 d |>
    poke 0x390000 16 (0x3f800000 + 2^32*0x40000000 + 2^96*0x3f000000) |>
    poke 0x390010 16 (0xbf800000 + 2^32*0x40000000 + 2^96*0x3f800000) |>
    poke 0x390020 16 (0x3f800000 + 2^32*0x40800000 + 2^64*0x41000000 + 2^96*0x3f800000)
def sPg : State := sPg0 (pgDescN 0 3 2 0)
def structL (s : State) (a : Opnd) (l : Nat) (ck : Bool) (ar : XKind) (pr : Bool) : List PDesc :=
    match (begin_ s).structAt ((s.op64 l a).toNat : Int) l ck (some ar) pr with | .ok (some p) => [p] | _ => []
def pgP : PDesc := (structL sPg (.s 17) 0 true .engW true).headD (pDescOf 0 0)
def sCmp : State := sM |> setT 7 (mkT 0x3b0000 .b32 0 4 64 16 4) |> setV 0 20 1 |> setV 1 20 3 |> setV 0 21 2 |> setV 1 21 2 |>
    setV 0 22 99 |> setV 1 22 7 |> setV 0 24 0x3f000000 |> setV 0 27 0x3f000000 |> setV 1 24 0x3f800000 |>
    poke 0x3b0090 16 (0x3e800000 + 2^96*0x3f000000)
def sPb (cmd : Nat) (bad : Bool) (obj : Nat) : State :=
    atNow 1282 ((if bad then sPg0 (pgDescN 0 4 2 0) else sPg) |> ride 16 (rsl 0x381000 obj) |> fun s =>
    { s with d := { s.d with nextId := 9, ops := [{ (begin_ s).newOp .pg (.pgBuild cmd { pgP with nprim := if bad then 4 else 3 } true none) with id := 9, tok := some 20, waits := true }] } })
def sPr (pins : Nat) : State := atNow 1282 (sPg |> ride 16 (rsl 0x381000 (pgObj 2 0x3a0200 0 pins false)) |> updDie fun d =>
    { d with trees := [(⟨0x381000, some 1, [1,2,3]⟩, pgP), (⟨0x381000, some 2, [2,4]⟩, pgP)] })
def sCf : State := nx (.comp wvH 7 20 (.v 20) (.v 21) (.v 22) (.v 24)) sCmp
def addBlk (k : Nat) (f : Block → Block) (s : State) : State :=
    { s with d := { s.d with blocks := sset s.d.blocks k (f (s.blk 0)) } }
def sHr (m p : Word) : State := sM |> addGrp 4 (fun g => {g with stop := some .halt, active := false}) |> updCore fun c =>
    { c with intPend := p, intMask := m }
def sHa (room : Nat) : State := sRi |>
    addGrp 4 (fun g => { g with stop := some .trap, append := [(0x7712345, 0x17), (5, 6)] }) |>
    updDie (fun d => { d with hq := 0x80000005, hTmpl := 0x2347, slots := sset [] 16 (rsl 0x1040 (0x55 * 2^128 + 9 * 2^64 + room)) }) |>
   fun s => { s with d := { s.d with parts := [(0, { s.d.part 0 with qbase := 0x9000 })] } } |>
   poke (0x9000 + 64*5) 64 (1 + 2^37 * 4 + 2^256 * 0x6000 + 2^320*0x1040) |>
       poke 0x2340 64 (0x1234567890abcdef * 2^300 + 2^400 + 77)
def frameN (ret : Nat) : Nat := 1 + 2^64 * 99 + 2^128 * ret + 2^144 * 0x32 + 2^199 * 0x50008 + 2^263*0x1234
def sTr (ret : Nat) : State := sM |> addGrp 4 (fun g =>
    {g with stop := some .trap, stopLanes := [0], blk := 4, active := false }) |> addBlk 4 (fun b => { b with gcnt := 1 }) |>
    poke 0x800 64 (frameN ret) |> setS 18 0x800 |> withLaunch 0 id |>
   addGrp 5 (fun g => {g with stop := some .trap, stopLanes := [0], blk := 4, active := false })
def hdl (k : Nat) : DWord := BitVec.ofNat 64 (groupHandle k)
def sSg (cause : Nat) (pk : Bool) (tk : Nat) : State :=
    (sM |> addGrp tk (fun g => { g with blk := tk, gidx := 0, pk := if pk then some ⟨0x5000,6,cause,0x77,false,false⟩ else none, stop := if cause = cGROW_STALL then some .trap else none }) |> setS 18 (hdl 4) |> setS 19 0x8080 |> updPkg (fun p => { p with tickets := [⟨70000, 0x8080, []⟩, ⟨80000,0x8100,[]⟩] }) |>
   poke (512*4+256) 8 0x12345 |> poke (512*(tk % 8192) + 256) 8 0x777)
def sPv : State := sM |> updCore (fun c => { c with intPend := 0xffffffff, intMask := 5 }) |>
    updDie (fun d => { d with eccCnt := [(3,(4,true)),(0x1001,(2,false))] }) |> updPkg fun p =>
    { p with linkStat := 3, hostInts := [9] }
def sXl : State := atNow (128*20) (sM |>
    updThr (fun l t => { t with st := .runnable, wait := some (waitOf (.cont [(0,[3,4,5]),(1,[3,4,5])])) }) |> fun s =>
    { s with d := { s.d with cur := { s.d.cur with stamped := true } } })
def sAt : State := sM |> setS 20 0x240000 |> setS 21 0x240010 |> setS 22 0xFFFF0000 |> poke 0x240000 32 0x123456789 |>
    updPkg fun p => { p with fwDigest := (List.range 32).map (BitVec.ofNat 8), fwStat := 0x3f0000, podId := 7, rdyPkg := 9, failPkg := 2, rdyEng := 0xff, failEng := 3, reports := 41 }
def fillG (g : Group) (vb : Nat) : Group := { g with
  thr := (List.range 32).map fun l => (l,
      { (g.thread 0) with pc := BitVec.ofNat 57 (0x40000 + 8*l), m := if l % 3 = 0 then some (BitVec.ofNat 57 (0x50000+l)) else none, stamp := 5 + l/8, st := if l % 5 = 4 then .exited else if l % 5 = 3 then .orphaned else if l % 3 = 0 then .held else .runnable, wait := none, p := BitVec.ofNat 15 (l*1031), l0 := BitVec.ofNat 32 (l*0x1234567), l1 := 3, l2 := BitVec.ofNat 32 (l+9), l3 := 0xfffffff0, q := [(0,BitVec.ofNat 8 (l % 8)),(3,5)], seed := BitVec.ofNat 64 (l * 0x123456789abcd) })
  v := (List.range (8*vb)).map (fun n => (256*3 + n, BitVec.ofNat 32 (n*77+1))) ++
      (List.range (8*vb)).map (fun n => (256*31 + n, BitVec.ofNat 32 (n*0x7777777)))
  sreg := [(0,5),(7,0xfedcba9876543210),(63,8)], t := [(2, BitVec.ofNat 256 (2^255+2^130+7)),(15,9)], issue := 4711, horizon :=
      12 , contTok := 9, cv := true, contPc := 0x40010, pk := none }
def sSv0 (vb : Nat) (f : Group → Group) : State :=
    atNow 0x50000 (sM |> addBlk 4 (fun b => { b with gcnt := 1, vbase := vb, launch := 0 }) |>
    addGrp 4 (fun g => f (fillG { g with blk := 4, gidx := 0, stop := some .trap, active := false } vb)) |> setS 18 (hdl 4) |>
    setS 20 0x242300 |> setS 21 0x24F800)
def sSv (vb : Nat) (f : Group → Group) : State := sSv0 vb f
def bkd (k : Nat) : DWord := BitVec.ofNat 64 (blockHandle k)
def sSB (acc : Nat) (st : Stop) (cb : Bool) : State :=
    (sM |> addBlk 4 (fun b => { b with gcnt := 2, vbase := 1, launch := 0, acc := acc, spad := 1, b := [(0,5),(63,0xfedcba9876543210)], bown := [(0,0),(5,1)], bars := [(0,⟨7, [4], [], []⟩),(15,⟨2^32+5, [], [], []⟩)], accs := [(0,9),(4095,0x12345678)], joins := [(1, { declared := [0,1,34], signed := [0], word := 77, st := .issued })], cb := if cb then some ⟨0x300000, 256, 1, (List.range 2048).map (BitVec.ofNat 8)⟩ else none, cbRec := if cb then 0x300000 + 2^64*256 + 2^72 else 0, saved := 5 }) |>
   addGrp 4 (fun g => { g with blk := 4, gidx := 0, stop := some st, mSpad := 0x8003 , active := false }) |>
       addGrp 5 (fun g => { g with blk := 4, gidx := 1, stop := some .phint, mSpad := 0x100, active := false }) |>
       setS 18 (bkd 4) |> setS 20 0x242300 |> setS 21 0x24F800) |>
   fun s => (List.range 16).foldl (fun s i => s |> poke (spadKey 4 (64*i + 5)) 4 (0x10203040 + i)) s
def pcm (code : Nat) (arg : Nat) (s : State) : State := s |> updCore fun c =>
    { c with pstat := 0x5, pcmds := [⟨1,code,3,9,.done,1⟩,⟨2,code,0,arg,.waiting,1⟩,⟨3,code,0,arg,.waiting,1⟩], parg := 99 }
def sPm0 : State := atNow 1000 (sSB 0 .phint false |>
    addGrp 4 (fun g => { g with blk := 4, gidx := 0, stop := some .phint, thr := [(0, g.thread 0)], active := false, sreg := [(3,9),(6,7)], pk := some ⟨0x5000,6,0x19,0x77,true,true⟩ }) |> addGrp 5 (fun g => { g with blk := 4, gidx := 1, stop := some .trap, thr := [(0, g.thread 0)], pk := some ⟨0x5000,6,0x19,0x77,true,false⟩ }) |> withLaunch 0 id |> updPkg fun p => { p with tickets := [⟨70000, 0x8080, []⟩, ⟨80000,0x8100,[]⟩] })
def sPq (f : Block → Block) : State := { sPm0 with d := { sPm0.d with blocks := supd sPm0.d.blocks 4 f } }
def sAtt (loc : Nat) (m : Nat) : State :=
    (sPm0 |> addGrp 70000 (fun g => { g with blk := 70000, gidx := 0, stop := some .phint }) |>
    addGrp 70001 (fun g => { g with blk := 70000, gidx := 1, stop := some .trap }) |> fun s =>
    { s with d := { s.d with blocks := sset (sset s.d.blocks 70000 { s.blk 4 with spad := 1, localKb := loc }) 0 { s.blk 0 with spad := 1, acc := 0 } } }) |> withLaunch 0 (fun l => { l with dieMask := m }) |> pcm 4 0x8080
def recN (gpb gw nblk vb spad acc : Nat) (compl : Nat := 0x20000) (kaddr : Nat := 0x40000) : Nat :=
    kaddr + 2^72*5 + 2^75*gpb + 2^80*gw + 2^96*nblk + 2^175*vb + 2^179*spad + 2^188*acc + 2^192*0x12345 + 2^320*compl +
    2^384*0xabcdef + 2^448*0x99
def sQp (rec : Nat) (kind : Nat := 1) (extra : State → State := id) : State :=
    (sRi |> updDie (fun d => { d with slots := sset [] 16 (rsl 0x1040 (0x55 * 2^128 + 9 * 2^64 + 3)) }) |>
   fun s => { s with d := { s.d with parts := [(0, { s.d.part 0 with qbase := 0x9000, qctl := 1 })], launches := [(0,launch)], nextId := 50 } }) |>
   poke (0x9000 + 64*5) 64 (kind + 2^32 + 2^34*3 + 2^37 * 4 + 2^56 + 2^256 * 0x6000 + 2^320*0x1040) |>
       poke (0x6000+64*3) 64 rec |> extra
def launch1 (n : Nat) : Launch := { launch with rec_ := LRec.ofNat (recN 1 2 n 2 1 1), created := [0], retired := [1,2], pri := 3, localKb := 0, gang := 0 }
def sPl (n : Nat) (loc : Nat) : State :=
    atNow 1000 (sM |> withLaunch 9 (fun _ => { launch1 n with localKb := loc }) |> poke (spadKey 40 8) 8 0x12345678)
def sRt (n : Nat) (idx : Nat) : State :=
    atNow 1000 (sM |> withLaunch 9 (fun _ => launch1 n) |>
    addBlk 4 (fun b => { b with gcnt := 2, launch := 9, idx := idx, vbase := 2, spad := 1 }) |>
    addGrp 4 (fun g => { g with blk := 4, thr := [] }) |> poke 0x20040 1 0x6)
def sGx (n : Nat) : State := (List.range n).foldl (fun s i =>
    addGrp (4*(i+1)) (fun g => { g with active := true, thr := if i = 1 then g.thr.map (fun e => (e.1, { e.2 with st := .waiting, wait := some (waitOf .hold) })) else g.thr }) s) (sM |> updG fun g => { g with active := true }) |> addGrp 64 (fun g => { g with active := false, since := 5 }) |> addGrp 68 (fun g => { g with active := false, since := 9 })
def sEl2 (full : Bool) : State := pcm 7 0x20000 (sRt 9 3 |> addBlk 12 (fun b => { b with launch := 9, idx := 5 }) |> fun s =>
    if full then { s with d := { s.d with launches := s.d.launches.map fun e => (e.1, { e.2 with created := List.range 9 }) } }
    else { s with d := { s.d with launches := s.d.launches.map fun e => (e.1, { e.2 with rec_ := { e.2.rec_ with nblk := 4 }, created := [1,2,3], retired := [1,2] }) } })
def sMv : State := nx (.pageMoveStart 0 0x40000 0x20000000 false) (sM |> setS 30 1)
def sSn : State := sM |> fun s => { s with d := { s.d with ops := [{ (begin_ s).newOp .send .plain with id := 9, left := 3 }], pkg := { s.d.pkg with sends := [⟨9,0,7,0,[1,2],false⟩,⟨9,200,7,16,[3],false⟩,⟨9,0,7,16,[4,5],true⟩] }, parts := [(2, { s.d.part 2 with rxBase := 0x400000, rxSize := 1, soDrop := 7 })] } }
/-- Accepted sends for the receive window of part 2. -/
def sSnB (o : List Send) : State := sSn |> updPkg (fun p => { p with linkStat := 0x04000101, outbox := o, sends := [] }) |>
    fun s => { s with d := { s.d with parts := [(2, { s.d.part 2 with sysId := 7 })] } }
def we0 : WEntry := { id := 0, slot := 0, lane := 0, also := [], pa := 0, n := 4, loc := false, ty := .b32, data := 0, kind := .store, strong := false, acq := false, scope := .blk, owed := none, wide := false, va := 0, instr := 0, lanes := 0, iss := Stamp.none, passed := none, readBy := [] }
def pbA (mem arr ex pops pbn : Nat) (loc : List Nat) : PodBar := ⟨⟨5,loc,[],[]⟩,mem,arr,ex,pops,pbn⟩
def sPbar (mem arr ex pops pbn : Nat) (loc : List Nat) (waitG : Bool := false) : State := sM |>
    withLaunch 0 (fun l => { l with pbid := 6, pbsys := true }) |>
    updPkg (fun p => { p with podBars := [(13, pbA mem arr ex pops pbn loc)] }) |> updB (fun b => { b with launch := 0 }) |>
    fun s => if waitG then s |> updG fun g => { g with bar := [(20, ⟨true,true,5⟩)] } else s
def sEc : State := atNow 5000 (sM |> updDie fun d =>
    { d with eccWin := 1, eccStart := 3000, eccThr := 3, eccCnt := [(64,(2,false)),(4096,(65535,true))] })
def sTh (win now : Nat) (z h : Bool) (lvl temp : Nat) : State :=
    atNow now (sM |> updDie fun d => { d with win := win, winZero := z, winHigh := h, level := lvl, temp := temp })
/-- A matrix operation with one granule read, first of its engine's reservations. -/
def sGr (k : EKind) : State := (sX |> updB fun b => { b with accs := [(accKey 2 0 0, 0x3f800000), (accKey 3 1 1, 7)] }) |>
    fun s =>
  { s with d := { s.d with ops := [{ (begin_ s).newOp .mtx k with id := 3, waits := true, parts := [⟨[], .buf, some [0x3f, 0x80]⟩] }] } } |> updDie fun d => { d with resv := [(0, [⟨3, 0, 0⟩])] }
/-- A commit of three removals from an empty collection, and one whose publication waits for its passage. -/
def sCoE : State := sCo 0 3 1282 |> poke 0x360000 48 (stgRec 2 3 1 7 + 2^128 * stgRec 2 9 0 255 + 2^256 * stgRec 2 700 9 1) |>
    ride 16 (rsl 0x351000 (gObj 1 0 0 3 true 0))
def sCoD : State := updOps (fun e => if e.id = 9 then
    { e with parts := [], kind := .collCommit { cD with stgPages := [0x360000], poolPages := [0x370000] } (some 3) (some (gObj 2 0x370800 3 0, 3 * 2^39, [4, 5])) } else e) (sCo 0 3 1282)
/-- A refit of one primitive in an arena with room, or full; a build whose candidate waits for its passage. -/
def sPf (full : Bool) : State := sPb 1 false (pgObj 1 0x3a0200 0 0 true) |> poke 0x3a0000 8 (if full then 2^64 - 1 else 31) |>
  poke 0x3a0200 64 (1 + 2^64*0x3a0400 + 2^128*0x3a0600 + 2^192*0x3a0800 + 2^384*5 + 2^416 + 2^448 + 2^480*3)
def sPd : State := updOps (fun e => { e with parts := [], kind := .pgBuild 0 { pgP with nprim := 3 } true (some (some (3801600, [1, 2, 3, 4]), 0)) }) (sPb 0 false (pgObj 1 0 0 0 true))
/-- The image of a group, and of a block, is read. -/
def sRst : State := sSv0 1 id |> poke 0x242301 1 1 |> poke 0x242308 8 4711 |> poke 0x242c00 16 0x123456789
def sRbk : State := sSB 0 .trap false |> poke 0x242304 8 77 |> poke 0x243000 16 0x123456789
/-- Local memory: 4 KiB per thread, mapped to itself. -/
def sLo : State := sM |> updDie (fun d => { d with locBase := 0x1000000 }) |> updB (fun b => { b with localKb := 4 }) |>
    setS 7 0x10 |> poke 0x1000000 16 0x123456789abcdef
def trW (s : State) (a : Nat) (k : XKind) (u : Bool) : List Leaf :=
    match (begin_ s).translate (slotDie s.d.cur.slot) a k u with | .ok f => [f] | _ => []
def locLvs (s : State) (o : MemOp) (k : XKind) (l : Nat) : List Leaf := (List.range ((o.ty.bytes + 3) / 4)).flatMap fun i =>
    trW s (localAt s l ((memEa s o true l).toNat + 4 * i)) k true
/-- What a lane's load comes to owe, computed. -/
def payOf (s : State) (o : MemOp) (ldv : Bool) (x : List Nat) (l : Nat) : Payload :=
  match o.space with
  | .s => if decide (SpadOk s o true l) then .ready
      (loadWords o.d o.ty.bytes (memSigned o) ((begin_ s).load (spadAt s o true l) o.ty.bytes)) else .ready
      (loadWords o.d o.ty.bytes false 0)
  | .l => match locLvs s o .load l with
    | lf :: ws => .load { loadP s o ldv x l lf with va := BitVec.ofNat 57 (localAt s l (memEa s o true l).toNat), loc := true, more := ws.map Leaf.pa }
    | [] => .ready (loadWords o.d o.ty.bytes false 0)
  | _ => match trW s (memEa s o true l).toNat .load (!s.myBlk.priv) with
    | lf :: _ => if decide (memEa s o true l % o.ty.bytes = 0 ∧
        memEa s o true l < 2 ^ 57) then .load (loadP s o ldv x l lf) else .ready (loadWords o.d o.ty.bytes false 0)
    | [] => .ready (loadWords o.d o.ty.bytes false 0)
def partsOf (s : State) (o : MemOp) (l : Nat) : List (Nat × Nat × Nat) :=
  let n := min o.ty.bytes 4
  match o.space with
  | .l => (locLvs s o .store l).zipIdx.map fun w => (w.1.pa, n, memData s o l / 2 ^ (32 * w.2) % 256 ^ n)
  | _ => (trW s (memEa s o true l).toNat .store (!s.myBlk.priv)).map fun lf => (lf.pa, o.ty.bytes, memData s o l)
/-- The second 512 MiB are those of system 7; lane 1 stores there. -/
def sSo : State := sM |> poke 0x200010 16 (0xFB + 2 ^ 64 * (2 ^ 56 + 7 * 2 ^ 34)) |> setV 1 10 0x20000040
/-- A join that thread 2 of the next group has signed. -/
def sXj (w : QWord) : State := sX |> addGrp 1 (fun g =>
    { g with gidx := 1, thr := [(2, { g.thread 0 with st := .waiting, wait := some (waitOf (.cont [])) })] }) |>
  updB fun b => { b with gcnt := 2, joins := [(1, { declared := [0,1,34], signed := [34], word := w, st := .armed })] }
/-- A pinned generation's header. -/
def sPh (pin : Nat) (gen : Nat) : State := sPr (2 ^ 64 * 2 ^ (8 * 0) * 0 + 2 ^ 64 * pin) |>
    setS 18 (if gen = 2 then 0x3a0200 else 0x3a0400) |> poke 0x3a0200 64 (0x123456789abcdef * 2 ^ 256 + 5) |>
    poke 0x3a0400 64 (0xfedcba9876543 * 2 ^ 300 + 6)

/-! ### Single steps -/

/-- What lane `l` finds in V register `n` after an instruction. -/
def vAfter (o : Host.Outcome State Fault Refusal) (l n : Nat) : Option Word :=
  match o with
  | .next t => some (t.here.readV l n)
  | .fault _ | .refused _ => none

/-- R190: the sum is taken modulo 2^32; under .sat a signed result is clamped (R62). -/
theorem test_add_wraps : vAfter (exec (.add hd { io2 with ty := .n32 }) (st [0] |> setV 0 2 0xFFFFFFFF |>
    setV 0 3 2)) 0 8 = some 1 ∧
    vAfter (exec (.add hd { io2 with sat := true }) (st [0] |> setV 0 2 0x7FFFFFFF |> setV 0 3 1)) 0 8 = some 0x7FFFFFFF := by
  decide +kernel

/-- Operands are read before the result is written: V2 := V3 - V2. -/
theorem test_sub_own_source :
    vAfter (exec (.sub hd { io2 with d := .v 2, a := .v 3, b := .v 2 }) (st [0] |> setV 0 2 5 |>
        setV 0 3 3)) 0 2 = some 0xFFFFFFFE := by
  decide +kernel

/-- mul.hi.i32 of -1 and 2 is the high word of -2; of the same patterns as unsigned it is 1. -/
theorem test_mulhi_sign : vAfter (exec (.mulHi hd io2) (st [0] |> setV 0 2 0xFFFFFFFF |> setV 0 3 2)) 0 8 = some 0xFFFFFFFF ∧
    vAfter (exec (.mulHi hd { io2 with ty := .n32 }) (st [0] |> setV 0 2 0xFFFFFFFF |> setV 0 3 2)) 0 8 = some 1 := by
  decide +kernel

/-- R58: 1 + 2^-24 is a tie and goes to the even 1; rounded up it is 1 + 2^-23. -/
theorem test_fadd_rounds : vAfter (exec (.fadd hd fo) (st [0] |> setV 0 2 0x3F800000 |>
    setV 0 3 0x33800000)) 0 8 = some 0x3F800000 ∧
    vAfter (exec (.fadd hd { fo with rnd := .ru }) (st [0] |> setV 0 2 0x3F800000 |>
        setV 0 3 0x33800000)) 0 8 = some 0x3F800001 := by
  decide +kernel

/-- R55: a NaN operand with a payload gives the canonical NaN. -/
theorem test_fmul_nan : vAfter (exec (.fmul hd fo) (st [0] |> setV 0 2 0xFF800001 |>
    setV 0 3 0x3F800000)) 0 8 = some 0x7FC00000 := by
  decide +kernel

/-- fma rounds once: (1 + 2^-23)^2 - (1 + 2^-22) is 2^-46 exactly. -/
theorem test_fma_exact : vAfter (exec (.fma hd { fo with b := .v 2, c := .v 4 }) (st [0] |> setV 0 2 0x3F800001 |>
    setV 0 4 0xBF800002)) 0 8 =
    some 0x28800000 := by decide +kernel

/-- An unguarded lane writes nothing (R178): guard ?P0, set in lane 1 only. -/
theorem test_guard : let s := st [0, 1] |> updThr (fun l t => { t with p := if l = 1 then 1 else 0 }) |> setV 1 2 7
    vAfter (exec (.mov { hd with grd := 0 } { io2 with b := .v 0 }) s) 0 8 = some 0 ∧
      vAfter (exec (.mov { hd with grd := 0 } { io2 with b := .v 0 }) s) 1 8 = some 7 := by decide +kernel

/-- The first step after reset with rdsp V0, LANE at the program counter runs it. -/
theorem test_step_runs : (match step (State.reset.withFetchWord 64 (words 0x000F0374 0 0 0)) with
    | .next t => [t.d.cur.pc, ((t.grp t.d.cur.slot).thread 0).pc]
    | .fault _ | .refused _ => []) = [0x40000, 0x40008] := by decide +kernel

/-- halt stops the group (R333). -/
theorem test_halt_stops : (match exec (.halt hd) (st [0]) with
    | .next t => t.here.stop
    | .fault _ | .refused _ => none) = some .halt := by decide +kernel

def op0 : EOp := (begin_ sM).newOp .coll .plain
def cand0 : Cand := ⟨[],none,none,[],0,0,0,0⟩
def placed0 : PlacedCand := ⟨[],0,[],[]⟩
/-! #### What a computation decides of the statements' hypotheses -/

def loadOf : Payload → List LoadP
  | .load p => [p]
  | .ready _ | .pend => []
def okOf {ε α : Type} : Except ε α → List α
  | .ok a => [a]
  | .error _ => []
def errOf {ε α : Type} : Except ε α → List ε
  | .error e => [e]
  | .ok _ => []
def dieOf : Home → Option Nat
  | .die d => some d
  | .out _ _ | .pod | .host | .doorbell _ | .bad => none
def isOut : Home → Bool
  | .out _ _ => true
  | .die _ | .pod | .host | .doorbell _ | .bad => false

theorem all_load (p : Payload) (P : LoadP → Prop) : (∀ q, p = .load q → P q) ↔ ∀ q ∈ loadOf p, P q := by
  cases p <;> simp [loadOf]
theorem no_load (p : Payload) : (∀ q, p ≠ .load q) ↔ loadOf p = [] := by cases p <;> simp [loadOf]
theorem eq_ok {ε α : Type} (x : Except ε α) (a : α) : x = .ok a ↔ okOf x = [a] := by cases x <;> simp [okOf]
theorem eq_error {ε α : Type} (x : Except ε α) (e : ε) : x = .error e ↔ errOf x = [e] := by cases x <;> simp [errOf]
theorem ex_ok {ε α : Type} (x : Except ε α) (P : α → Prop) : (∃ a, x = .ok a ∧ P a) ↔ ∃ a ∈ okOf x, P a := by
  cases x <;> simp [okOf]
theorem on_die (h : Home) : (∃ d, h = .die d) ↔ (dieOf h).isSome = true := by cases h <;> simp [dieOf]
theorem not_out (h : Home) : (∀ a b, h ≠ .out a b) ↔ isOut h = false := by cases h <;> simp [isOut]
theorem all_some {α : Type} (o : Option α) (P : α → Prop) : (∀ a, o = some a → P a) ↔ ∀ a ∈ o.toList, P a := by
  cases o <;> simp

def isRed : WKind → Bool
  | .red _ _ => true
  | _ => false
def namesB : Reg → Bool
  | .b _ => true
  | _ => false
theorem is_red (k : WKind) : (∃ op id, k = .red op id) ↔ isRed k = true := by cases k <;> simp [isRed]
theorem no_b (l : List Reg) : (∀ n, Reg.b n ∉ l) ↔ l.any namesB = false := by
  rw [List.any_eq_false]
  exact ⟨fun h r hr => by cases r <;> simp [namesB] <;> exact h _ hr, fun h n hn => by simpa [namesB] using h _ hn⟩

theorem ex_ok_list {ε α : Type} (x : Except ε α) (P : α → Prop) : (∃ a, okOf x = [a] ∧ P a) ↔ ∃ a ∈ okOf x, P a := by
  cases x <;> simp [okOf]
theorem ex_die (h : Home) (P : Nat → Prop) : (∃ d, h = .die d ∧ P d) ↔ ∃ d ∈ (dieOf h).toList, P d :=
    by cases h <;> simp [dieOf]
def vBelow : Reg → Bool
  | .v _ n => decide (n < 64)
  | _ => true
theorem v_below (l : List Reg) : (∀ k n, Reg.v k n ∈ l → n < 64) ↔ l.all vBelow = true := by
  rw [List.all_eq_true]
  exact ⟨fun h r hr => by cases r <;> simp [vBelow]; exact h _ _ hr, fun h k n hn => by simpa [vBelow] using h _ hn⟩
def isCbCopy : EKind → Bool
  | .copy (some _) => true
  | _ => false
def isCb : EKind → Bool
  | .codebook _ => true
  | _ => false
theorem no_cb_copy (k : EKind) : (∀ c, k ≠ .copy (some c)) ↔ isCbCopy k = false := by
  cases k <;> simp [isCbCopy]
  rename_i c; cases c <;> simp
theorem no_cb (k : EKind) : (∀ c, k ≠ .codebook c) ↔ isCb k = false := by cases k <;> simp [isCb]

def okQ {ε α : Type} : Except ε α → Bool
  | .ok _ => true
  | .error _ => false
theorem ex_is_ok {ε α : Type} (x : Except ε α) : (∃ a, x = .ok a) ↔ okQ x = true := by cases x <;> simp [okQ]
theorem ex_ok_some {ε α : Type} (x : Except ε α) : (∃ a, okOf x = [a]) ↔ okQ x = true := by cases x <;> simp [okQ, okOf]
theorem ex_err_some {ε α : Type} (x : Except ε α) : (∃ a, errOf x = [a]) ↔ okQ x = false := by cases x <;> simp [okQ, errOf]
theorem ex_is_error {ε α : Type} (x : Except ε α) : (∃ a, x = .error a) ↔ okQ x = false := by cases x <;> simp [okQ]
theorem ex_is_some {α : Type} (o : Option α) : (∃ a, o = some a) ↔ o.isSome = true := by cases o <;> simp
theorem all_some2 {α β : Type} (o : Option α) (u : Option β) (P : α → β → Prop) :
    (∀ a b, o = some a → u = some b → P a b) ↔ ∀ a ∈ o.toList, ∀ b ∈ u.toList, P a b := by
  cases o <;> cases u <;> simp
def retQ : RAct → Bool
  | .ret _ _ => true
  | _ => false
theorem no_ret (r : RAct) : (∀ k v, r ≠ .ret k v) ↔ retQ r = false := by cases r <;> simp [retQ]
def isComp : EKind → Bool
  | .comp _ => true
  | _ => false
theorem no_comp (k : EKind) : (∀ fs, k ≠ .comp fs) ↔ isComp k = false := by cases k <;> simp [isComp]
def isCopy : EKind → Bool
  | .copy _ => true
  | _ => false
theorem ex_copy (k : EKind) : (∃ c, k = .copy c) ↔ isCopy k = true := by cases k <;> simp [isCopy]
def builds : EKind → List (Nat × PDesc × Option (Option (Nat × List Nat) × Nat))
  | .pgBuild c q true o => [(c, q, o)]
  | _ => []
theorem no_build (k : EKind) (P : Nat → PDesc → Option (Option (Nat × List Nat) × Nat) → Prop) :
    (∀ c q o, k = .pgBuild c q true o → P c q o) ↔ ∀ z ∈ builds k, P z.1 z.2.1 z.2.2 := by
  constructor
  · intro h z hz
    cases k with
    | pgBuild c q b o => cases b <;> simp [builds] at hz; subst hz; exact h c q o rfl
    | _ => simp [builds] at hz
  · rintro h c q o rfl
    exact h (c, q, o) (by simp [builds])

/-- Memory of die 0 is ready and sound, and nothing is on its way: no object, lease, poison, operation or store. -/
abbrev Calm (s : State) : Prop :=
  s.d.pkg.podId.toNat % 2 ^ 13 = 0 ∧ s.d.pkg.rdyPkg.getLsbD (bSDRAM 0) = true ∧ s.d.pkg.failPkg.getLsbD (bSDRAM 0) = false ∧
    (s.d.die 0).slots = [] ∧ (s.d.die 0).leases = [] ∧ s.d.pkg.poison = [] ∧ s.d.ops = [] ∧ ∀ e ∈ s.d.cores, e.2.path = []

theorem calm_home {s : State} {a : Nat} (h : Calm s) (ha : a < 0x600000000) : homeOf s.d a = .die 0 := by
  have h1 : ¬ 2 ^ 56 ≤ a := by omega
  have h2 : localDie (a % 2 ^ 43) = some 0 := by
    rw [Nat.mod_eq_of_lt (by omega), localDie, if_pos (by omega), Nat.div_eq_of_lt ha]
  rw [homeOf, if_neg h1]
  simp only [h2, h.1, Nat.div_eq_of_lt (show a < 2 ^ 43 by omega), if_true]

theorem calm_byte {s : State} {a : Nat} (h : Calm s) (ha : a < 0x600000000) :
    (homeUp s.d a = true ∧ s.d.rideOf a = none) ∧ ((begin_ s).leaseFree a = true ∧ homeFailed s.d a = false) ∧
      (begin_ s).deadAt a true = false ∧ NoRace s a := by
  have hh := calm_home h ha
  have h2 : localTier a = false := by
    exact decide_eq_false (by rw [Nat.mod_eq_of_lt (by omega)]; omega)
  obtain ⟨_, hr, hf, hs, hl, hp, ho, hc⟩ := h
  refine ⟨⟨?_, ?_⟩, ⟨?_, ?_⟩, ?_, ?_⟩
  · simp [homeUp, hh, hr, h2]
  · simp [Dev.rideOf, hh, hs]
  · simp only [Work.leaseFree, Work.pinned, begin_, hh, hl, ho, List.any_nil, Bool.not_false, Bool.and_true]
    exact decide_eq_true (Nat.zero_le _)
  · simp [homeFailed, hh, hf, h2]
  · simp [Work.deadAt, Work.poisoned, begin_, homeFailed, hh, hf, h2, hp]
  · intro e he q hq
    rw [hc e he] at hq
    cases hq

theorem calm_range {s : State} {b va n : Nat} (h : Calm s) (hb : b + 65536 ≤ 0x600000000) (hn : va % 65536 + n ≤ 65536) :
    RangeOk s [b] va n ∧ RangeWrites s [b] va n ∧ RangeReads s [b] va n := by
  have at_ : ∀ i < n, rangeAt [b] va i = b + (va % 65536 + i) := fun i hi => by
    have h0 : (va + i) / 65536 - va / 65536 = 0 := by omega
    have h1 : (va + i) % 65536 = va % 65536 + i := by omega
    simp [rangeAt, pageAt, h0, h1]
  have all := fun i (hi : i < n) => calm_byte (a := rangeAt [b] va i) h (by rw [at_ i hi]; omega)
  exact ⟨⟨fun i hi => (all i hi).1, fun i hi j hj e => by rw [at_ i hi, at_ j hj] at e; omega⟩, fun i hi => (all i hi).2.1,
    fun i hi => (all i hi).2.2⟩

theorem low_place {w : Work} {p : PDesc} {hdr seed : Nat} {c : Cand}
    (h : (lowRuns p.acap (w.blockUsed p) [blocksOf (128 * c.nodes.length),
      if c.copy.isSome then blocksOf (primSize p.ptype * c.ninc) else 0,
      if c.list.isSome then blocksOf (4 * c.ninc) else 0, 1]).isSome = true) :
    ∃ q, w.placeCand p hdr seed c = some q := by
  obtain ⟨l, hl⟩ := Option.isSome_iff_exists.mp h
  simp only [Work.placeCand, placesOf, hl]
  cases placeParts seed p.acap p.ptype p.nprim (w.blockUsed p) 0 _ <;> exact ⟨_, rfl⟩

/-! The bytes an engine part reads, and what a lane's load, store or prefetch comes to, from the computation of it. -/

def onlyKey : BSrc → Option Nat
  | .key k => some k
  | .val _ | .cb _ _ | .got _ _ => none
theorem key_all (l : List BSrc) (P : Nat → Prop) : (∀ k, BSrc.key k ∈ l → P k) ↔ ∀ k ∈ l.filterMap onlyKey, P k := by
  simp only [List.mem_filterMap]
  refine ⟨fun h k ⟨b, hb, e⟩ => ?_, fun h k hk => h k ⟨_, hk, rfl⟩⟩
  cases b <;> simp [onlyKey] at e
  subst e
  exact h _ hb

def locWs (s : State) (o : MemOp) (kind : XKind) (l : Nat) : List Leaf := (List.range ((o.ty.bytes + 3) / 4)).flatMap fun i =>
  okOf ((begin_ s).translate (slotDie s.d.cur.slot) (localAt s l ((memEa s o true l).toNat + 4 * i)) kind true)
def locQ (s : State) (o : MemOp) (kind : XKind) (l : Nat) (ws : List Leaf) : Bool :=
  decide (o.space = .l ∧ memEa s o true l % o.ty.bytes = 0 ∧ memEa s o true l + o.ty.bytes ≤ 1024 * s.myBlk.localKb ∧
    ws.length = (o.ty.bytes + 3) / 4) && (List.range ws.length).all fun i => decide (okOf ((begin_ s).translate
      (slotDie s.d.cur.slot) (localAt s l ((memEa s o true l).toNat + 4 * i)) kind true) = ws[i]?.toList)
theorem loc_ok {s : State} {o : MemOp} {kind : XKind} {l : Nat} {ws : List Leaf} (h : locQ s o kind l ws = true) :
    LocOk s o kind l ws := by
  simp only [locQ, Bool.and_eq_true, decide_eq_true_eq, List.all_eq_true, List.mem_range] at h
  refine ⟨h.1.1, h.1.2.1, h.1.2.2.1, h.1.2.2.2, fun i lf e => ?_⟩
  have hi := h.2 i (List.getElem?_eq_some_iff.mp e).1
  rw [e] at hi
  exact (eq_ok _ _).2 hi
def globQ (s : State) (o : MemOp) (kind : XKind) (l : Nat) (lf : Leaf) : Bool :=
  decide ((o.space = .g ∨ o.space = .c) ∧ memEa s o true l % o.ty.bytes = 0 ∧ memEa s o true l < 2 ^ 57 ∧
    okOf ((begin_ s).translate (slotDie s.d.cur.slot) (memEa s o true l).toNat kind (!s.myBlk.priv)) = [lf])
theorem glob_ok {s : State} {o : MemOp} {kind : XKind} {l : Nat} {lf : Leaf} (h : globQ s o kind l lf = true) :
    GlobOk s o true kind l lf := by
  simp only [globQ, decide_eq_true_eq] at h
  exact ⟨h.1, h.2.1, h.2.2.1, (eq_ok _ _).2 h.2.2.2⟩
def globLvs (s : State) (o : MemOp) (kind : XKind) (l : Nat) : List Leaf :=
  okOf ((begin_ s).translate (slotDie s.d.cur.slot) (memEa s o true l).toNat kind (!s.myBlk.priv))

/-- A lane's load goes by one of the three ways that are no failure. -/
def givesQ (s : State) (o : MemOp) (ldv : Bool) (x : List Nat) (l : Nat) (p : Payload) : Bool :=
  decide (SpadOk s o true l ∧
    p = .ready (loadWords o.d o.ty.bytes (memSigned o) ((begin_ s).load (spadAt s o true l) o.ty.bytes))) ||
  (globLvs s o .load l).any (fun lf => globQ s o .load l lf && decide (p = .load (loadP s o ldv x l lf))) ||
  match locWs s o .load l with
  | lf :: ws => locQ s o .load l (lf :: ws) && decide (p = .load { loadP s o ldv x l lf with
      va := BitVec.ofNat 57 (localAt s l (memEa s o true l).toNat), loc := true, more := ws.map Leaf.pa })
  | [] => false
theorem gives_all {s : State} {o : MemOp} {ldv : Bool} {x : List Nat} {pay : Nat → Payload}
    (h : ∀ l ∈ x, givesQ s o ldv x l (pay l) = true) : ∀ l ∈ x, LoadGives s o ldv x l (pay l) := by
  intro l hl
  have h := h l hl
  simp only [givesQ, Bool.or_eq_true, List.any_eq_true, Bool.and_eq_true, decide_eq_true_eq] at h
  obtain (h | ⟨lf, -, h⟩) | h := h
  · exact .inl h
  · exact .inr (.inl ⟨lf, glob_ok h.1, h.2⟩)
  · split at h
    · simp only [Bool.and_eq_true, decide_eq_true_eq] at h
      exact .inr (.inr (.inl ⟨_, _, loc_ok h.1, h.2⟩))
    · cases h
def storesQ (s : State) (o : MemOp) (l : Nat) (ps : List (Nat × Nat × Nat)) : Bool :=
  let n := min o.ty.bytes 4
  (globLvs s o .store l).any (fun lf => globQ s o .store l lf && decide (ps = [(lf.pa, o.ty.bytes, memData s o l)])) ||
    locQ s o .store l (locWs s o .store l) &&
      decide (ps = (locWs s o .store l).zipIdx.map fun w => (w.1.pa, n, memData s o l / 2 ^ (32 * w.2) % 256 ^ n))
theorem stores_all {s : State} {o : MemOp} {y : List Nat} {parts : Nat → List (Nat × Nat × Nat)}
    (h : ∀ l ∈ y, storesQ s o l (parts l) = true) : ∀ l ∈ y, StoreParts s o l (parts l) := by
  intro l hl
  have h := h l hl
  simp only [storesQ, Bool.or_eq_true, List.any_eq_true, Bool.and_eq_true, decide_eq_true_eq] at h
  obtain ⟨lf, -, h⟩ | h := h
  · exact .inl ⟨lf, glob_ok h.1, h.2⟩
  · exact .inr ⟨_, loc_ok h.1, h.2⟩
theorem misnames_range {s : State} {x : List Nat} {src dst : List Named} {c : Nat}
    (h : c = cREG_RANGE ∧ ∃ n < 64, 8 * s.myBlk.vbase ≤ n ∧ Named.v n ∈ src ++ dst) : Misnames s x src dst c := .inl h
def staged : EKind → List CDesc
  | .collStage _ c _ => [c]
  | _ => []
theorem no_stage (k : EKind) (P : CDesc → Prop) : (∀ r c ls, k = .collStage r c ls → P c) ↔ ∀ c ∈ staged k, P c := by
  constructor
  · intro h c hc
    cases k <;> simp [staged] at hc
    subst hc
    exact h _ _ _ rfl
  · rintro h r c ls rfl
    exact h c (by simp [staged])

/-! ### The statements about decoding and steps -/

def sRun (w : Nat) : State := State.reset.withFetchWord 64 w
def gRun (w : Nat) : Group := ((sRun w).slot? 0).getD Group.gone

theorem turn_run (w : Nat) (h : ((sRun w).d.turns.head? = some { dt := 0, who := .group 0 }) ∧
    (∀ c, (begin_ (sRun w)).nextDue = some c → (sRun w).d.now + 0 ≤ c.1) ∧ sget? (sRun w).d.groups 0 = some (gRun w) ∧
    (begin_ (atTurn (sRun w) { dt := 0, who := .group 0 })).mayIssue (gRun w) = true ∧
    (begin_ (atTurn (sRun w) { dt := 0, who := .group 0 })).rotation 0 (gRun w) = true ∧
    (begin_ (atTurn (sRun w) { dt := 0, who := .group 0 })).byIndex (gRun w) = true ∧ (gRun w).hmix = none ∧
    (∀ k < 32, ((gRun w).thread k).st ≠ .orphaned) ∧ (gRun w).leader = some 0) : TurnOf (sRun w) 0 0 0 (gRun w) := by
  obtain ⟨h1, h⟩ := h
  refine ⟨?_, h⟩
  cases e : (sRun w).d.turns with
  | nil => simp [e] at h1
  | cons a t => simp [e] at h1; exact ⟨t, by rw [h1]⟩

theorem witness_StepRunsDecoded :
    let w := words 0x000F0374 0 0 0
    TurnOf (sRun w) 0 0 0 (gRun w) ∧
      (begin_ (atTurn (sRun w) { dt := 0, who := .group 0 })).fetch (slotDie 0) (!((sRun w).blk (gRun w).blk).priv)
        ((gRun w).thread 0).pc = .word w 8 ∧
      decode ((sRun w).blk (gRun w).blk).priv w = .ok (.rdsp hd (.v 0) 0) := by
  intro w
  exact ⟨turn_run _ (by simp only [all_some]; decide +kernel), by decide +kernel, by decide +kernel⟩

theorem witness_EncodeDecode : let i : Instr := .region hd 8 4 64 6
    let w : Nat := words 0x080F02E4 0xC8640000 0 0
    i.wf = true ∧ encode i = some w ∧ w ≠ 0 := by decide +kernel

theorem witness_DecodedWellFormed : decode false (words 0x080F02E4 0xC8640000 0 0) = .ok (.region hd 8 4 64 6) :=
    by decide +kernel

/-- A guard that no lane meets. -/
theorem witness_StepAnswers :
    let s : State := st [0, 1]
    let h : Hdr := { hd with neg := true }
    let i : Instr := .add h io2
    i.wf = true ∧ i.hdr = some h ∧ (s.slot? s.d.cur.slot).isSome = true ∧ lanesOk s.d.cur.lanes = true ∧
      s.d.cur.stamped = false ∧ s.here.owed = [] ∧ s.here.spend = [] ∧ s.here.executing h s.d.cur.lanes = [] :=
          by decide +kernel

/-- Clause by clause; 0x3A is a reserved opcode (Table 10.13). -/
theorem witness_DecodeRefuses :
    ((false, (0 : BitVec 4), true) ≠ (false, 0, false)) ∧ 2 ≤ fld (words 0x000F0378 0 0 0) 2 2 ∧
    (let i : Instr := .tret hd (.s 4)
     let w : Nat := words 0x000F0F04 0xF0400000 0 0
     i.wf = true ∧ encode i = some w ∧ fld w 4 8 ≥ 0xF0) ∧
    (let w := words 0x000F03A4 0 0 0
     TurnOf (sRun w) 0 0 0 (gRun w) ∧ (∀ e ∈ (sRun w).d.blocks, (e.2.stagger.bind fun p => p.1) ≠ some (gRun w).blk) ∧
      (begin_ (atTurn (sRun w) { dt := 0, who := .group 0 })).fetch (slotDie 0) (!((sRun w).blk (gRun w).blk).priv)
        ((gRun w).thread 0).pc = .word w 8 ∧
      decode ((sRun w).blk (gRun w).blk).priv w = .error .illegal ∧ (gRun w).owed = [] ∧ memWf (sRun w).mem = true) := by
  refine ⟨by decide, by decide, by decide +kernel, ?_⟩
  intro w
  exact ⟨turn_run _ (by simp only [all_some]; decide +kernel), by decide +kernel, by decide +kernel, by decide +kernel,
    by decide +kernel, by decide +kernel⟩

theorem witness_MemoryCanonical : let s : State := sRun (words 0x000F0374 0 0 0)
    memWf s.mem = true ∧ (match step s with | .next t => [t.mem] | .fault _ | .refused _ => []) = [s.mem] := by decide +kernel

/-! ### The statements about instructions and steps of the device -/

theorem witness_IntegerArithmetic :
    (let s : State := sR
     let h : Hdr := { neg := false, grd := 15, ver1 := true, ctl := 0 }
     let o : IntOp := { ty := .i32, sat := false, d := .b 5, a := .b 3, b := .lit 0x87654321, c := .v 0 }
     let x : List Nat := [0, 1]
     Runs (.add h o) s h (intSrc o 2) (intDst o) x) ∧
    (let s : State := sR
     let h : Hdr := { neg := false, grd := 15, ver1 := true, ctl := 0 }
     let o : IntOp := { ty := .i32, sat := false, d := .b 5, a := .b 3, b := .lit 0x87654321, c := .v 0 }
     let x : List Nat := [0, 1]
     Runs (.sub h o) s h (intSrc o 2) (intDst o) x) ∧
    (let s : State := sR
     let h : Hdr := { neg := false, grd := 15, ver1 := true, ctl := 0 }
     let o : IntOp := { ty := .i32, sat := false, d := .b 5, a := .b 3, b := .lit 0x87654321, c := .v 0 }
     let x : List Nat := [0, 1]
     Runs (.mulLo h o) s h (intSrc o 2) (intDst o) x) ∧
    (let s : State := sR
     let h : Hdr := { neg := false, grd := 15, ver1 := true, ctl := 0 }
     let o : IntOp := { ty := .i32, sat := false, d := .b 5, a := .b 3, b := .lit 0x87654321, c := .v 0 }
     let x : List Nat := [0, 1]
     Runs (.mulHi h o) s h (intSrc o 2) (intDst o) x) ∧
    (let s : State := sR
     let h : Hdr := { neg := false, grd := 15, ver1 := true, ctl := 0 }
     let o : IntOp := { ty := .i32, sat := false, d := .b 5, a := .b 3, b := .lit 0x87654321, c := .v 0 }
     let x : List Nat := [0, 1]
     Runs (.mad h o) s h (intSrc o 3) (intDst o) x) ∧
    (let s : State := sR
     let h : Hdr := { neg := false, grd := 15, ver1 := true, ctl := 0 }
     let o : IntOp := { ty := .i32, sat := false, d := .b 5, a := .b 3, b := .lit 0x87654321, c := .v 0 }
     let x : List Nat := [0, 1]
     Runs (.min h o) s h (intSrc o 2) (intDst o) x) ∧
    (let s : State := sR
     let h : Hdr := { neg := false, grd := 15, ver1 := true, ctl := 0 }
     let o : IntOp := { ty := .i32, sat := false, d := .b 5, a := .b 3, b := .lit 0x87654321, c := .v 0 }
     let x : List Nat := [0, 1]
     Runs (.max h o) s h (intSrc o 2) (intDst o) x) ∧
    (let s : State := sR
     let h : Hdr := { neg := false, grd := 15, ver1 := true, ctl := 0 }
     let o : IntOp := { ty := .i32, sat := true, d := .q 2, a := .v 3, b := .v 0, c := .v 0 }
     let x : List Nat := [0, 1]
     Runs (.abs h o) s h (intSrc o 1) (intDst o) x) ∧
    (let s : State := sR
     let h : Hdr := { neg := false, grd := 15, ver1 := true, ctl := 0 }
     let o : IntOp := { ty := .i32, sat := true, d := .q 2, a := .v 3, b := .v 0, c := .v 0 }
     let x : List Nat := [0, 1]
     Runs (.neg h o) s h (intSrc o 1) (intDst o) x) := by
  refine ⟨?_, ?_, ?_, ?_, ?_, ?_, ?_, ?_, ?_⟩ <;>
    (try simp -zeta only
      [FenceMet, AtGate, BoOk, EngineOn, EngineOnAt, RingAt, RingRoom, GlobOk, PcmdAt, ex_ok, ex_ok_list, ex_die, v_below,
          no_cb_copy, no_cb, all_load, no_load, eq_ok, eq_error, on_die, not_out, all_some2, all_some, is_red, no_b,
          ex_is_ok, ex_ok_some, ex_err_some, ex_is_some, ex_is_error, no_ret, no_comp, ex_copy, no_build, key_all, Unread,
          Stands, no_stage]) <;>
    decide +kernel

theorem witness_IntegerBits :
    (let s : State := sR
     let h : Hdr := { neg := false, grd := 15, ver1 := true, ctl := 0 }
     let o : IntOp := { ty := .i32, sat := false, d := .b 5, a := .b 3, b := .lit 0x87654321, c := .v 0 }
     let x : List Nat := [0, 1]
     Runs (.and h o) s h (intSrc o 2) (intDst o) x) ∧
    (let s : State := sR
     let h : Hdr := { neg := false, grd := 15, ver1 := true, ctl := 0 }
     let o : IntOp := { ty := .i32, sat := false, d := .b 5, a := .b 3, b := .lit 0x87654321, c := .v 0 }
     let x : List Nat := [0, 1]
     Runs (.or h o) s h (intSrc o 2) (intDst o) x) ∧
    (let s : State := sR
     let h : Hdr := { neg := false, grd := 15, ver1 := true, ctl := 0 }
     let o : IntOp := { ty := .i32, sat := false, d := .b 5, a := .b 3, b := .lit 0x87654321, c := .v 0 }
     let x : List Nat := [0, 1]
     Runs (.xor h o) s h (intSrc o 2) (intDst o) x) ∧
    (let s : State := sR
     let h : Hdr := { neg := false, grd := 15, ver1 := true, ctl := 0 }
     let o : IntOp := { ty := .n32, sat := false, d := .b 5, a := .b 3, b := .v 0, c := .v 0 }
     let x : List Nat := [0, 1]
     Runs (.not h o) s h (intSrc o 1) (intDst o) x) ∧
    (let s : State := sR
     let h : Hdr := { neg := false, grd := 15, ver1 := true, ctl := 0 }
     let o : IntOp := { ty := .i32, sat := false, d := .b 5, a := .b 3, b := .lit 0x87654321, c := .v 0 }
     let x : List Nat := [0, 1]
     Runs (.shl h o) s h (intSrc o 2) (intDst o) x) ∧
    (let s : State := sR
     let h : Hdr := { neg := false, grd := 15, ver1 := true, ctl := 0 }
     let o : IntOp := { ty := .i32, sat := false, d := .b 5, a := .b 3, b := .lit 0x87654321, c := .v 0 }
     let x : List Nat := [0, 1]
     Runs (.shr h o) s h (intSrc o 2) (intDst o) x) ∧
    (let s : State := sR
     let h : Hdr := { neg := false, grd := 15, ver1 := true, ctl := 0 }
     let o : IntOp := { ty := .i32, sat := false, d := .b 5, a := .b 3, b := .lit 0x87654321, c := .v 0 }
     let x : List Nat := [0, 1]
     Runs (.sar h o) s h (intSrc o 2) (intDst o) x) ∧
    (let s : State := sR
     let h : Hdr := { neg := false, grd := 15, ver1 := true, ctl := 0 }
     let o : IntOp := { ty := .n32, sat := false, d := .b 5, a := .b 3, b := .v 0, c := .v 0 }
     let x : List Nat := [0, 1]
     Runs (.brev h o) s h (intSrc o 1) (intDst o) x) ∧
    (let s : State := sR
     let h : Hdr := { neg := false, grd := 15, ver1 := true, ctl := 0 }
     let o : IntOp := { ty := .i32, sat := false, d := .b 5, a := .b 3, b := .lit 0x87654321, c := .v 0 }
     let x : List Nat := [0, 1]
     Runs (.bfx h o) s h (o.a.names (if o.ty.wide then 2 else 1) ++ o.b.names 1) (intDst o) x) ∧
    (let s : State := sR
     let h : Hdr := { neg := false, grd := 15, ver1 := true, ctl := 0 }
     let o : IntOp := { ty := .i32, sat := false, d := .b 5, a := .b 3, b := .lit 0x87654321, c := .v 0 }
     let x : List Nat := [0, 1]
     Runs (.bfi h o) s h (o.a.names (if o.ty.wide then 2 else 1) ++ o.b.names (if o.ty.wide then 2 else 1) ++
         o.c.names 1) (intDst o) x) ∧
    (let s : State := sR
     let h : Hdr := { neg := false, grd := 15, ver1 := true, ctl := 0 }
     let o : IntOp := { ty := .n32, sat := false, d := .b 5, a := .b 3, b := .v 0, c := .v 0 }
     let x : List Nat := [0, 1]
     Runs (.popc h o) s h (intSrc o 1) (intDst o) x) ∧
    (let s : State := sR
     let h : Hdr := { neg := false, grd := 15, ver1 := true, ctl := 0 }
     let o : IntOp := { ty := .n32, sat := false, d := .b 5, a := .b 3, b := .v 0, c := .v 0 }
     let x : List Nat := [0, 1]
     Runs (.clz h o) s h (intSrc o 1) (intDst o) x) ∧
    (let s : State := sR
     let h : Hdr := { neg := false, grd := 15, ver1 := true, ctl := 0 }
     let o : IntOp := { ty := .n32, sat := false, d := .b 5, a := .b 3, b := .v 0, c := .v 0 }
     let x : List Nat := [0, 1]
     Runs (.ctz h o) s h (intSrc o 1) (intDst o) x) := by
  refine ⟨?_, ?_, ?_, ?_, ?_, ?_, ?_, ?_, ?_, ?_, ?_, ?_, ?_⟩ <;>
    (try simp -zeta only
      [FenceMet, AtGate, BoOk, EngineOn, EngineOnAt, RingAt, RingRoom, GlobOk, PcmdAt, ex_ok, ex_ok_list, ex_die, v_below,
          no_cb_copy, no_cb, all_load, no_load, eq_ok, eq_error, on_die, not_out, all_some2, all_some, is_red, no_b,
          ex_is_ok, ex_ok_some, ex_err_some, ex_is_some, ex_is_error, no_ret, no_comp, ex_copy, no_build, key_all, Unread,
          Stands, no_stage]) <;>
    decide +kernel

theorem witness_IntegerMoves :
    (let s : State := sR
     let h : Hdr := { neg := false, grd := 15, ver1 := true, ctl := 0 }
     let x : List Nat := [0, 1]
     let o : IntOp := { ty := .n32, sat := false, d := .b 5, a := .b 3, b := .v 0, c := .v 0 }
     Runs (.mov h o) s h (intSrc o 1) (intDst o) x) ∧
    (let s : State := sR
     let h : Hdr := { neg := false, grd := 15, ver1 := true, ctl := 0 }
     let x : List Nat := [0, 1]
     let o : SelOp := { ty := .i32, d := .v 8, a := .v 2, b := .b 3, p := { neg := false, p := 3 } }
     Runs (.sel h o) s h (o.a.names (if o.ty.wide then 2 else 1) ++
         o.b.names (if o.ty.wide then 2 else 1)) (o.d.names (if o.ty.wide then 2 else 1)) x) ∧
    (let s : State := sR
     let h : Hdr := { neg := false, grd := 15, ver1 := true, ctl := 0 }
     let x : List Nat := [0, 1]
     let o : IntOp := { ty := .i32, sat := false, d := .b 5, a := .b 3, b := .lit 0x87654321, c := .v 0 }
     Runs (.lea h o) s h (o.a.names 2 ++ o.b.names (if o.ty.wide then 2 else 1) ++
         o.c.names (if o.ty.wide then 2 else 1)) (o.d.names 2) x) ∧
    (let s : State := sR
     let h : Hdr := { neg := false, grd := 15, ver1 := true, ctl := 0 }
     let x : List Nat := [0, 1]
     let d : Dst := .v 8
     let k : Word := 0x87654321
     Runs (.moviB32 h d k) s h [] (d.names 1) x) ∧
    (let s : State := sR
     let h : Hdr := { neg := false, grd := 15, ver1 := true, ctl := 0 }
     let x : List Nat := [0, 1]
     let d : Dst := .v 8
     let k : DWord := 0x87654321abcdef01
     Runs (.moviB64 h d k) s h [] (d.names 2) x) := by
  refine ⟨?_, ?_, ?_, ?_, ?_⟩ <;>
    (try simp -zeta only
      [FenceMet, AtGate, BoOk, EngineOn, EngineOnAt, RingAt, RingRoom, GlobOk, PcmdAt, ex_ok, ex_ok_list, ex_die, v_below,
          no_cb_copy, no_cb, all_load, no_load, eq_ok, eq_error, on_die, not_out, all_some2, all_some, is_red, no_b,
          ex_is_ok, ex_ok_some, ex_err_some, ex_is_some, ex_is_error, no_ret, no_comp, ex_copy, no_build, key_all, Unread,
          Stands, no_stage]) <;>
    decide +kernel

theorem witness_Predicates :
    (let s : State := sR
     let h : Hdr := { neg := false, grd := 15, ver1 := true, ctl := 0 }
     let x : List Nat := [0, 1]
     let pd : BitVec 4 := 3
     let a : PredF := { neg := false, p := 3 }
     let b : PredF := { neg := false, p := 3 }
     let o : CmpOp := { ty := .i32, pd := 4, a := .v 2, b := .v 3, cond := .eq }
     Runs (.cmp h o) s h (o.a.names (if o.ty.wide then 2 else 1) ++ o.b.names (if o.ty.wide then 2 else 1)) [] x) ∧
    (let s : State := sR
     let h : Hdr := { neg := false, grd := 15, ver1 := true, ctl := 0 }
     let x : List Nat := [0, 1]
     let pd : BitVec 4 := 3
     let a : PredF := { neg := false, p := 3 }
     let b : PredF := { neg := false, p := 3 }
     Runs (.pand h pd a b) s h [] [] x) ∧
    (let s : State := sR
     let h : Hdr := { neg := false, grd := 15, ver1 := true, ctl := 0 }
     let x : List Nat := [0, 1]
     let pd : BitVec 4 := 3
     let a : PredF := { neg := false, p := 3 }
     let b : PredF := { neg := false, p := 3 }
     Runs (.por h pd a b) s h [] [] x) ∧
    (let s : State := sR
     let h : Hdr := { neg := false, grd := 15, ver1 := true, ctl := 0 }
     let x : List Nat := [0, 1]
     let pd : BitVec 4 := 3
     let a : PredF := { neg := false, p := 3 }
     let b : PredF := { neg := false, p := 3 }
     Runs (.pxor h pd a b) s h [] [] x) ∧
    (let s : State := sR
     let h : Hdr := { neg := false, grd := 15, ver1 := true, ctl := 0 }
     let x : List Nat := [0, 1]
     let pd : BitVec 4 := 3
     let a : PredF := { neg := false, p := 3 }
     Runs (.pnot h pd a) s h [] [] x) ∧
    (let s : State := sR
     let h : Hdr := { neg := false, grd := 15, ver1 := true, ctl := 0 }
     let x : List Nat := [0, 1]
     let pd : BitVec 4 := 3
     let a : PredF := { neg := false, p := 3 }
     Runs (.pmov h pd a) s h [] [] x) ∧
    (let s : State := sR
     let h : Hdr := { neg := false, grd := 15, ver1 := true, ctl := 0 }
     let x : List Nat := [0, 1]
     let pd : BitVec 4 := 3
     Runs (.lead h pd) s h [] [] x) ∧
    (let s : State := sR
     let h : Hdr := { neg := false, grd := 15, ver1 := true, ctl := 0 }
     let x : List Nat := [0, 1]
     let pd : BitVec 4 := 3
     let q : PredF := { neg := false, p := 3 }
     Runs (.agree h .every pd q) s h [] [] x) ∧
    (let s : State := sR
     let h : Hdr := { neg := false, grd := 15, ver1 := true, ctl := 0 }
     let x : List Nat := [0, 1]
     let pd : BitVec 4 := 3
     let q : PredF := { neg := false, p := 3 }
     Runs (.agree h .some pd q) s h [] [] x) ∧
    (let s : State := sR
     let h : Hdr := { neg := false, grd := 15, ver1 := true, ctl := 0 }
     let x : List Nat := [0, 1]
     let pd : BitVec 4 := 3
     let q : PredF := { neg := false, p := 3 }
     Runs (.agree h .same pd q) s h [] [] x) ∧
    (let s : State := sR
     let h : Hdr := { neg := false, grd := 15, ver1 := true, ctl := 0 }
     let x : List Nat := [0, 1]
     let pd : BitVec 4 := 3
     let q : PredF := { neg := false, p := 3 }
     Runs (.agree h .odd pd q) s h [] [] x) := by
  refine ⟨?_, ?_, ?_, ?_, ?_, ?_, ?_, ?_, ?_, ?_, ?_⟩ <;>
    (try simp -zeta only
      [FenceMet, AtGate, BoOk, EngineOn, EngineOnAt, RingAt, RingRoom, GlobOk, PcmdAt, ex_ok, ex_ok_list, ex_die, v_below,
          no_cb_copy, no_cb, all_load, no_load, eq_ok, eq_error, on_die, not_out, all_some2, all_some, is_red, no_b,
          ex_is_ok, ex_ok_some, ex_err_some, ex_is_some, ex_is_error, no_ret, no_comp, ex_copy, no_build, key_all, Unread,
          Stands, no_stage]) <;>
    decide +kernel

theorem witness_LaneValues :
    (let s : State := sR
     let h : Hdr := { neg := false, grd := 15, ver1 := true, ctl := 0 }
     let x : List Nat := [0, 1]
     let o : MovsOp := { wide := true, first := true, d := .s 9, a := .v 2, lane := .v 0 }
     Runs (.movs h o) s h (o.a.names (if o.wide then 2 else 1) ++ o.lane.names 1) (o.d.names 1) x) ∧
    (let s : State := sR
     let h : Hdr := { neg := false, grd := 15, ver1 := true, ctl := 0 }
     let x : List Nat := [0, 1]
     let o : XlaneOp := { mode := .at, d := .v 8, a := .v 2, b := .inl 1, c := .inl 2 }
     Runs (.xlane h o) s h (o.a.names 1 ++ o.b.names 1 ++ o.c.names 1) (o.d.names 1) x) ∧
    (let s : State := sR
     let h : Hdr := { neg := false, grd := 15, ver1 := true, ctl := 0 }
     let x : List Nat := [0, 1]
     let inv : Bool := true
     let d : Dst := .v 8
     let q : PredF := { neg := false, p := 3 }
     Runs (.pmask h inv d q) s h [] (d.names 1) x) ∧
    (let s : State := sR
     let h : Hdr := { neg := false, grd := 15, ver1 := true, ctl := 0 }
     let x : List Nat := [0, 1]
     let d : Dst := .v 8
     Runs (.lane h .iss d) s h [] (d.names 1) x) ∧
    (let s : State := sR
     let h : Hdr := { neg := false, grd := 15, ver1 := true, ctl := 0 }
     let x : List Nat := [0, 1]
     let d : Dst := .v 8
     Runs (.lane h .lt d) s h [] (d.names 1) x) ∧
    (let s : State := sR
     let h : Hdr := { neg := false, grd := 15, ver1 := true, ctl := 0 }
     let x : List Nat := [0, 1]
     let d : Dst := .v 8
     Runs (.lane h .rank d) s h [] (d.names 1) x) ∧
    (let s : State := sR
     let h : Hdr := { neg := false, grd := 15, ver1 := true, ctl := 0 }
     let x : List Nat := [0, 1]
     let d : Dst := .v 8
     Runs (.pmovPk h d) s h [] (d.names 1) x) ∧
    (let s : State := sR
     let h : Hdr := { neg := false, grd := 15, ver1 := true, ctl := 0 }
     let x : List Nat := [0, 1]
     let a : Opnd := .v 2
     Runs (.pmovUpk h a) s h (a.names 1) [] x) := by
  refine ⟨?_, ?_, ?_, ?_, ?_, ?_, ?_, ?_⟩ <;>
    (try simp -zeta only
      [FenceMet, AtGate, BoOk, EngineOn, EngineOnAt, RingAt, RingRoom, GlobOk, PcmdAt, ex_ok, ex_ok_list, ex_die, v_below,
          no_cb_copy, no_cb, all_load, no_load, eq_ok, eq_error, on_die, not_out, all_some2, all_some, is_red, no_b,
          ex_is_ok, ex_ok_some, ex_err_some, ex_is_some, ex_is_error, no_ret, no_comp, ex_copy, no_build, key_all, Unread,
          Stands, no_stage]) <;>
    decide +kernel

theorem witness_Branches :
    (let s : State := sR |> setS 4 0x123450
     let h : Hdr := { neg := false, grd := 15, ver1 := true, ctl := 0 }
     let x : List Nat := [0, 1]
     let ofs : Word := 8
     Runs (.bra h ofs) s h [] [] x) ∧
    (let s : State := sR |> setS 4 0x123450
     let h : Hdr := { neg := false, grd := 15, ver1 := true, ctl := 0 }
     let x : List Nat := [0, 1]
     let a : Opnd := .s 4
     (∀ k ∈ x, (s.op64 k a).toNat < 2 ^ 57 ∧ (s.op64 k a).toNat % 4 = 0) ∧ Runs (.braInd h a) s h (a.names 2) [] x) ∧
    (let s : State := sR |> setS 4 0x123450
     let h : Hdr := { neg := false, grd := 15, ver1 := true, ctl := 0 }
     let x : List Nat := [0, 1]
     let a : Opnd := .s 4
     (∀ k ∈ x, (s.op64 k a).toNat < 2 ^ 57 ∧ (s.op64 k a).toNat % 4 = 0) ∧ Runs (.ret h a) s h (a.names 2) [] x) ∧
    (let s : State := sR |> setS 4 0x123450
     let h : Hdr := { neg := false, grd := 15, ver1 := true, ctl := 0 }
     let x : List Nat := [0, 1]
     let a : Opnd := .v 2
     memWf s.mem = true ∧ s.here.owed = [] ∧ (∃ k ∈ x, 2 ^ 57 ≤ (s.op64 k a).toNat) ∧
         Runs (.braInd h a) s h (a.names 2) [] x) ∧
    (let s : State := sR |> setS 4 0x123450
     let h : Hdr := { neg := false, grd := 15, ver1 := true, ctl := 0 }
     let x : List Nat := [0, 1]
     let a : Opnd := .v 2
     memWf s.mem = true ∧ s.here.owed = [] ∧ (∃ k ∈ x, 2 ^ 57 ≤ (s.op64 k a).toNat) ∧ Runs (.ret h a) s h (a.names 2) [] x) ∧
    (let s : State := sR |> setS 4 0x123450
     let h : Hdr := { neg := false, grd := 15, ver1 := true, ctl := 0 }
     let x : List Nat := [0, 1]
     let a : Opnd := .inl 13
     memWf s.mem = true ∧ s.here.owed = [] ∧ (∀ k ∈ x, (s.op64 k a).toNat < 2 ^ 57) ∧
         (∃ k ∈ x, (s.op64 k a).toNat % 4 ≠ 0) ∧ Runs (.braInd h a) s h (a.names 2) [] x) ∧
    (let s : State := sR |> setS 4 0x123450
     let h : Hdr := { neg := false, grd := 15, ver1 := true, ctl := 0 }
     let x : List Nat := [0, 1]
     let a : Opnd := .inl 13
     memWf s.mem = true ∧ s.here.owed = [] ∧ (∀ k ∈ x, (s.op64 k a).toNat < 2 ^ 57) ∧
         (∃ k ∈ x, (s.op64 k a).toNat % 4 ≠ 0) ∧ Runs (.ret h a) s h (a.names 2) [] x) ∧
    (let s : State := sR |> setS 4 0x123450
     let h : Hdr := { neg := false, grd := 15, ver1 := true, ctl := 0 }
     let x : List Nat := [0, 1]
     let ofs : Word := 8
     let l : BitVec 8 := 8
     Runs (.call h l ofs) s h [] [.v l.toNat, .v (l.toNat + 1)] x) := by
  refine ⟨?_, ?_, ?_, ?_, ?_, ?_, ?_, ?_⟩ <;>
    (try simp -zeta only
      [FenceMet, AtGate, BoOk, EngineOn, EngineOnAt, RingAt, RingRoom, GlobOk, PcmdAt, ex_ok, ex_ok_list, ex_die, v_below,
          no_cb_copy, no_cb, all_load, no_load, eq_ok, eq_error, on_die, not_out, all_some2, all_some, is_red, no_b,
          ex_is_ok, ex_ok_some, ex_err_some, ex_is_some, ex_is_error, no_ret, no_comp, ex_copy, no_build, key_all, Unread,
          Stands, no_stage]) <;>
    decide +kernel

theorem witness_Meetings :
    (let s : State := sR
     let h : Hdr := { neg := false, grd := 15, ver1 := true, ctl := 0 }
     let x : List Nat := [0, 1]
     let ofs : Word := 8
     Runs (.meetSet h ofs) s h [] [] x) ∧
    (let s : State := sR
     let h : Hdr := { neg := false, grd := 15, ver1 := true, ctl := 0 }
     let x : List Nat := [0, 1]
     let ofs : Word := 8
     let l : BitVec 8 := 8
     Runs (.meetSetXch h l ofs) s h [] [.v l.toNat, .v (l.toNat + 1)] x) ∧
    (let s : State := sR
     let h : Hdr := { neg := false, grd := 15, ver1 := true, ctl := 0 }
     let x : List Nat := [0, 1]
     let a : Opnd := .s 4
     Runs (.meetSetFrom h a) s h (a.names 2) [] x) ∧
    (let s : State := sR
     let h : Hdr := { neg := false, grd := 15, ver1 := true, ctl := 0 }
     let x : List Nat := [0, 1]
     Runs (.meet h) s h [] [] x) ∧
    (let s : State := sR
     let h : Hdr := { neg := false, grd := 15, ver1 := true, ctl := 0 }
     let x : List Nat := [0, 1]
     Runs (.meetBrk h) s h [] [] x) := by
  refine ⟨?_, ?_, ?_, ?_, ?_⟩ <;>
    (try simp -zeta only
      [FenceMet, AtGate, BoOk, EngineOn, EngineOnAt, RingAt, RingRoom, GlobOk, PcmdAt, ex_ok, ex_ok_list, ex_die, v_below,
          no_cb_copy, no_cb, all_load, no_load, eq_ok, eq_error, on_die, not_out, all_some2, all_some, is_red, no_b,
          ex_is_ok, ex_ok_some, ex_err_some, ex_is_some, ex_is_error, no_ret, no_comp, ex_copy, no_build, key_all, Unread,
          Stands, no_stage]) <;>
    decide +kernel

theorem witness_FloatArithmetic :
    (let s : State := sF
     let h : Hdr := { neg := false, grd := 15, ver1 := true, ctl := 0 }
     let o : FpOp := { ty := .f32, rnd := .rne, sat := false, ftz := false, d := .s 9, a := .v 41, b := .v 48, c := .v 0 }
     let x : List Nat := [0, 1]
     Runs (.fadd h o) s h (fpSrc o 2) (o.d.names 1) x) ∧
    (let s : State := sF
     let h : Hdr := { neg := false, grd := 15, ver1 := true, ctl := 0 }
     let o : FpOp := { ty := .f32, rnd := .rne, sat := false, ftz := false, d := .s 9, a := .v 41, b := .v 48, c := .v 0 }
     let x : List Nat := [0, 1]
     Runs (.fsub h o) s h (fpSrc o 2) (o.d.names 1) x) ∧
    (let s : State := sF
     let h : Hdr := { neg := false, grd := 15, ver1 := true, ctl := 0 }
     let o : FpOp := { ty := .f32, rnd := .rne, sat := false, ftz := false, d := .s 9, a := .v 41, b := .v 48, c := .v 0 }
     let x : List Nat := [0, 1]
     Runs (.fmul h o) s h (fpSrc o 2) (o.d.names 1) x) ∧
    (let s : State := sF
     let h : Hdr := { neg := false, grd := 15, ver1 := true, ctl := 0 }
     let o : FpOp := { ty := .f32, rnd := .rne, sat := false, ftz := false, d := .s 9, a := .v 41, b := .v 48, c := .v 49 }
     let x : List Nat := [0, 1]
     Runs (.fma h o) s h (fpSrc o 3) (o.d.names 1) x) := by
  refine ⟨?_, ?_, ?_, ?_⟩ <;>
    (try simp -zeta only
      [FenceMet, AtGate, BoOk, EngineOn, EngineOnAt, RingAt, RingRoom, GlobOk, PcmdAt, ex_ok, ex_ok_list, ex_die, v_below,
          no_cb_copy, no_cb, all_load, no_load, eq_ok, eq_error, on_die, not_out, all_some2, all_some, is_red, no_b,
          ex_is_ok, ex_ok_some, ex_err_some, ex_is_some, ex_is_error, no_ret, no_comp, ex_copy, no_build, key_all, Unread,
          Stands, no_stage]) <;>
    decide +kernel

theorem witness_FloatSelection :
    (let s : State := sF
     let h : Hdr := { neg := false, grd := 15, ver1 := true, ctl := 0 }
     let o : FpOp := { ty := .f16, rnd := .rne, sat := false, ftz := false, d := .v 8, a := .v 45, b := .b 6, c := .v 0 }
     let x : List Nat := [0, 1]
     Runs (.fmin h o) s h (fpSrc o 2) (o.d.names 1) x) ∧
    (let s : State := sF
     let h : Hdr := { neg := false, grd := 15, ver1 := true, ctl := 0 }
     let o : FpOp := { ty := .f16, rnd := .rne, sat := false, ftz := false, d := .v 8, a := .v 45, b := .b 6, c := .v 0 }
     let x : List Nat := [0, 1]
     Runs (.fmax h o) s h (fpSrc o 2) (o.d.names 1) x) ∧
    (let s : State := sF
     let h : Hdr := { neg := false, grd := 15, ver1 := true, ctl := 0 }
     let o : FpOp := { ty := .f32, rnd := .rne, sat := false, ftz := false, d := .s 9, a := .v 41, b := .v 0, c := .v 0 }
     let x : List Nat := [0, 1]
     Runs (.frnd h o) s h (fpSrc o 1) (o.d.names 1) x) ∧
    (let s : State := sF
     let h : Hdr := { neg := false, grd := 15, ver1 := true, ctl := 0 }
     let o : FpOp := { ty := .f32, rnd := .rne, sat := false, ftz := false, d := .s 9, a := .v 41, b := .v 0, c := .v 0 }
     let x : List Nat := [0, 1]
     Runs (.fclass h o) s h (fpSrc o 1) (o.d.names 1) x) ∧
    (let s : State := sF
     let h : Hdr := { neg := false, grd := 15, ver1 := true, ctl := 0 }
     let o : FcmpOp := { ty := .f32, ftz := true, pd := 14, a := .v 20, b := .v 21, cond := .eq }
     let x : List Nat := [0, 1]
     Runs (.fcmp h o) s h (o.a.names 1 ++ o.b.names 1) [] x) := by
  refine ⟨?_, ?_, ?_, ?_, ?_⟩ <;>
    (try simp -zeta only
      [FenceMet, AtGate, BoOk, EngineOn, EngineOnAt, RingAt, RingRoom, GlobOk, PcmdAt, ex_ok, ex_ok_list, ex_die, v_below,
          no_cb_copy, no_cb, all_load, no_load, eq_ok, eq_error, on_die, not_out, all_some2, all_some, is_red, no_b,
          ex_is_ok, ex_ok_some, ex_err_some, ex_is_some, ex_is_error, no_ret, no_comp, ex_copy, no_build, key_all, Unread,
          Stands, no_stage]) <;>
    decide +kernel

theorem witness_FloatFunctions :
    (let fn : TFn := .sqrt
     let ty : FpTy := .f32
     let r : Rnd := .rne
     let ftz : Bool := false
     let p : Nat := 2147483648
     r ≠ .rs ∧ (∃ y, tableFn fn (if ftz then flush32 ((fpFmt ty).decode p) else (fpFmt ty).decode p) = some y)) ∧
    (let s : State := sF
     let h : Hdr := { neg := false, grd := 15, ver1 := true, ctl := 0 }
     let o : FpOp := { ty := .f32, rnd := .rne, sat := false, ftz := false, d := .s 9, a := .v 41, b := .v 0, c := .v 0 }
     let x : List Nat := [0, 1]
     Runs (.frcp h o) s h (o.a.names 1) (o.d.names 1) x) ∧
    (let s : State := sF
     let h : Hdr := { neg := false, grd := 15, ver1 := true, ctl := 0 }
     let o : FpOp := { ty := .f32, rnd := .rne, sat := false, ftz := false, d := .s 9, a := .v 41, b := .v 0, c := .v 0 }
     let x : List Nat := [0, 1]
     Runs (.fsqrt h o) s h (o.a.names 1) (o.d.names 1) x) ∧
    (let s : State := sF
     let h : Hdr := { neg := false, grd := 15, ver1 := true, ctl := 0 }
     let o : FpOp := { ty := .f32, rnd := .rne, sat := false, ftz := false, d := .s 9, a := .v 41, b := .v 0, c := .v 0 }
     let x : List Nat := [0, 1]
     Runs (.frsq h o) s h (o.a.names 1) (o.d.names 1) x) ∧
    (let s : State := sF
     let h : Hdr := { neg := false, grd := 15, ver1 := true, ctl := 0 }
     let o : FpOp := { ty := .f32, rnd := .rne, sat := false, ftz := false, d := .s 9, a := .v 41, b := .v 0, c := .v 0 }
     let x : List Nat := [0, 1]
     Runs (.fexp2 h o) s h (o.a.names 1) (o.d.names 1) x) ∧
    (let s : State := sF
     let h : Hdr := { neg := false, grd := 15, ver1 := true, ctl := 0 }
     let o : FpOp := { ty := .f32, rnd := .rne, sat := false, ftz := false, d := .s 9, a := .v 41, b := .v 0, c := .v 0 }
     let x : List Nat := [0, 1]
     Runs (.flog2 h o) s h (o.a.names 1) (o.d.names 1) x) ∧
    (let s : State := sF
     let h : Hdr := { neg := false, grd := 15, ver1 := true, ctl := 0 }
     let o : FpOp := { ty := .f32, rnd := .rne, sat := false, ftz := false, d := .s 9, a := .v 41, b := .v 0, c := .v 0 }
     let x : List Nat := [0, 1]
     Runs (.fsin h o) s h (o.a.names 1) (o.d.names 1) x) ∧
    (let s : State := sF
     let h : Hdr := { neg := false, grd := 15, ver1 := true, ctl := 0 }
     let o : FpOp := { ty := .f32, rnd := .rne, sat := false, ftz := false, d := .s 9, a := .v 41, b := .v 0, c := .v 0 }
     let x : List Nat := [0, 1]
     Runs (.fcos h o) s h (o.a.names 1) (o.d.names 1) x) := by
  refine ⟨?_, ?_, ?_, ?_, ?_, ?_, ?_, ?_⟩ <;>
    (try simp -zeta only
      [FenceMet, AtGate, BoOk, EngineOn, EngineOnAt, RingAt, RingRoom, GlobOk, PcmdAt, ex_ok, ex_ok_list, ex_die, v_below,
          no_cb_copy, no_cb, all_load, no_load, eq_ok, eq_error, on_die, not_out, all_some2, all_some, is_red, no_b,
          ex_is_ok, ex_ok_some, ex_err_some, ex_is_some, ex_is_error, no_ret, no_comp, ex_copy, no_build, key_all, Unread,
          Stands, no_stage]) <;>
    decide +kernel

theorem witness_FloatPairsDoubles :
    (let s : State := sF
     let h : Hdr := { neg := false, grd := 15, ver1 := true, ctl := 0 }
     let o : FpOp := { ty := .f16, rnd := .rne, sat := false, ftz := false, d := .s 9, a := .v 41, b := .v 48, c := .v 49 }
     let x : List Nat := [0, 1]
     Runs (.dot2 h o) s h (fpSrc o 3) (o.d.names 1) x) ∧
    (let s : State := sF
     let h : Hdr := { neg := false, grd := 15, ver1 := true, ctl := 0 }
     let o : FpOp := { ty := .f16, rnd := .rne, sat := false, ftz := false, d := .s 9, a := .v 41, b := .v 48, c := .v 49 }
     let x : List Nat := [0, 1]
     Runs (.pfma h o) s h (fpSrc o 3) (o.d.names 1) x) ∧
    (let s : State := sF
     let h : Hdr := { neg := false, grd := 15, ver1 := true, ctl := 0 }
     let o : FpOp := { ty := .f16, rnd := .rne, sat := false, ftz := false, d := .s 9, a := .v 41, b := .v 48, c := .v 49 }
     let x : List Nat := [0, 1]
     Runs (.pfmaCx h o) s h (fpSrc o 3) (o.d.names 1) x) ∧
    (let s : State := sF
     let h : Hdr := { neg := false, grd := 15, ver1 := true, ctl := 0 }
     let o : FpOp := { ty := .f32, rnd := .rne, sat := false, ftz := false, d := .v 8, a := .v 20, b := .v 23, c := .v 0 }
     let x : List Nat := [0, 1]
     Runs (.dadd h o) s h (o.a.names 2 ++ o.b.names 2) (o.d.names 2) x) ∧
    (let s : State := sF
     let h : Hdr := { neg := false, grd := 15, ver1 := true, ctl := 0 }
     let o : FpOp := { ty := .f32, rnd := .rne, sat := false, ftz := false, d := .v 8, a := .v 20, b := .v 23, c := .v 0 }
     let x : List Nat := [0, 1]
     Runs (.dmul h o) s h (o.a.names 2 ++ o.b.names 2) (o.d.names 2) x) ∧
    (let s : State := sF
     let h : Hdr := { neg := false, grd := 15, ver1 := true, ctl := 0 }
     let o : FpOp := { ty := .f32, rnd := .rne, sat := false, ftz := false, d := .s 9, a := .v 41, b := .v 48, c := .v 49 }
     let x : List Nat := [0, 1]
     Runs (.dfma h o) s h (o.a.names 2 ++ o.b.names 2 ++ o.c.names 2) (o.d.names 2) x) := by
  refine ⟨?_, ?_, ?_, ?_, ?_, ?_⟩ <;>
    (try simp -zeta only
      [FenceMet, AtGate, BoOk, EngineOn, EngineOnAt, RingAt, RingRoom, GlobOk, PcmdAt, ex_ok, ex_ok_list, ex_die, v_below,
          no_cb_copy, no_cb, all_load, no_load, eq_ok, eq_error, on_die, not_out, all_some2, all_some, is_red, no_b,
          ex_is_ok, ex_ok_some, ex_err_some, ex_is_some, ex_is_error, no_ret, no_comp, ex_copy, no_build, key_all, Unread,
          Stands, no_stage]) <;>
    decide +kernel

theorem witness_Conversions :
    (let s : State := sF
     let h : Hdr := { neg := false, grd := 15, ver1 := true, ctl := 0 }
     let x : List Nat := [0, 1]
     let o : CvtOp := { tyTo := .i8, tyFr := .i8, rnd := .rne, sat := false, ftz := false, d := .v 8, a := .v 20 }
     Runs (.cvt h o) s h (o.a.names (if o.tyFr.wide then 2 else 1)) (o.d.names (if o.tyTo.wide then 2 else 1)) x) ∧
    (let s : State := sF
     let h : Hdr := { neg := false, grd := 15, ver1 := true, ctl := 0 }
     let x : List Nat := [0, 1]
     let o : PkOp := { fmt := .e4m3, rnd := .rne, sat := false, ftz := false, d := .v 8, a := .v 20 }
     let n := o.fmt.packCount.getD 1
     Runs (.pk h o) s h (o.a.names n) (o.d.names 1) x) ∧
    (let s : State := sF
     let h : Hdr := { neg := false, grd := 15, ver1 := true, ctl := 0 }
     let x : List Nat := [0, 1]
     let o : UpkOp := { fmt := .e4m3, ftz := false, i := 0, d := .v 8, a := .v 40 }
     Runs (.upk h o) s h (o.a.names 1) (o.d.names 1) x) ∧
    (let s : State := sF
     let h : Hdr := { neg := false, grd := 15, ver1 := true, ctl := 0 }
     let x : List Nat := [0, 1]
     let o : DqntOp := { fmt := .e5m2, rnd := .rne, ftz := false, i := 0, d := .v 8, a := .v 40, c := .v 41 }
     Runs (.dqnt h o) s h (o.a.names 1 ++ o.c.names 1) (o.d.names 1) x) ∧
    (let s : State := sF
     let h : Hdr := { neg := false, grd := 15, ver1 := true, ctl := 0 }
     let x : List Nat := [0, 1]
     let o : KeyOp := { inv := true, desc := true, ty := .i8, d := .v 8, a := .v 20 }
     Runs (.keyx h o) s h (o.a.names (if o.ty.wide then 2 else 1)) (o.d.names (if o.ty.wide then 2 else 1)) x) := by
  refine ⟨?_, ?_, ?_, ?_, ?_⟩ <;>
    (try simp -zeta only
      [FenceMet, AtGate, BoOk, EngineOn, EngineOnAt, RingAt, RingRoom, GlobOk, PcmdAt, ex_ok, ex_ok_list, ex_die, v_below,
          no_cb_copy, no_cb, all_load, no_load, eq_ok, eq_error, on_die, not_out, all_some2, all_some, is_red, no_b,
          ex_is_ok, ex_ok_some, ex_err_some, ex_is_some, ex_is_error, no_ret, no_comp, ex_copy, no_build, key_all, Unread,
          Stands, no_stage]) <;>
    decide +kernel

theorem witness_BlockOperations :
    (let s : State := sF
     let h : Hdr := { neg := false, grd := 15, ver1 := true, ctl := 0 }
     let x : List Nat := [0, 1]
     let o : QntOp := { fmt := .mxi8, rnd := .rne, pk := true, d := .v 8, a := .v 20 }
     Runs (.qnt h o) s h (o.a.names 1) (o.d.names 1) x) ∧
    (let s : State := sF
     let h : Hdr := { neg := false, grd := 15, ver1 := true, ctl := 0 }
     let x : List Nat := [0, 1]
     let o : ScanOp := { fn := .add, excl := false, all := false, ty := .i32, rnd := .rne, ftz := false, d := .v 8, a := .v 20 }
     Runs (.scan h o) s h (o.a.names 1) (o.d.names 1) x) ∧
    (let s : State := sF
     let h : Hdr := { neg := false, grd := 15, ver1 := true, ctl := 0 }
     let x : List Nat := [0, 1]
     let o : QdOp := { coarse := true, rnd := .rne, ftz := false, d := .v 8, a := .v 20 }
     Runs (.qdx h o) s h (o.a.names 1) (o.d.names 1) x) ∧
    (let s : State := sF
     let h : Hdr := { neg := false, grd := 15, ver1 := true, ctl := 0 }
     let x : List Nat := [0, 1]
     let o : QdOp := { coarse := true, rnd := .rne, ftz := false, d := .v 8, a := .v 20 }
     Runs (.qdy h o) s h (o.a.names 1) (o.d.names 1) x) ∧
    (let s : State := sF |> setV 0 10 0x100 |> setV 0 11 0xabcd |> poke (2^57+0x100+4*13) 4 0xffffffff |>
         poke (2^57+0x100+4*10) 8 0x1122334455667788
     let h : Hdr := { neg := false, grd := 3, ver1 := true, ctl := 0 }
     let o : HistOp := { wide := false, shift := 0, width := 4, d := .v 8, key := .v 11, base := .v 10 }
     let x : List Nat := [1]
     let k := fun l => spadKey s.here.blk ((s.op32 l o.base).toNat +
     4 * ((if o.wide then (s.op64 l o.key).toNat else (s.op32 l o.key).toNat) / 2 ^ o.shift.toNat % 2 ^ o.width.toNat))
     Runs (.hist h o) s h (o.key.names (if o.wide then 2 else 1) ++ o.base.names 1) (o.d.names 1) x ∧
         (∀ l ∈ x, (s.op32 l o.base).toNat % 4 = 0 ∧
         (s.op32 l o.base).toNat + 4 * 2 ^ o.width.toNat ≤ 1024 * s.myBlk.spad) ∧ s.here.acq = [] ∧
         (begin_ s).strongBefore s.d.cur.slot (realLanes s x) s.d.nextId = false ∧
         (∀ l ∈ realLanes s x, Sizes s (k l) 4 ((begin_ s).agentOf s.d.cur.slot) .blk s.here.vc ∧ Unread s (k l) 4) ∧
         memWf s.mem = true) := by
  refine ⟨?_, ?_, ?_, ?_, ?_⟩ <;>
    (try simp -zeta only
      [FenceMet, AtGate, BoOk, EngineOn, EngineOnAt, RingAt, RingRoom, GlobOk, PcmdAt, ex_ok, ex_ok_list, ex_die, v_below,
          no_cb_copy, no_cb, all_load, no_load, eq_ok, eq_error, on_die, not_out, all_some2, all_some, is_red, no_b,
          ex_is_ok, ex_ok_some, ex_err_some, ex_is_some, ex_is_error, no_ret, no_comp, ex_copy, no_build, key_all, Unread,
          Stands, no_stage]) <;>
    decide +kernel

theorem witness_RegionsExtendedSet :
    (let s : State := sR |> updB fun b => { b with vbase := 1 }
     let h : Hdr := { neg := false, grd := 15, ver1 := true, ctl := 0 }
     let x : List Nat := [0, 1]
     let v1 : BitVec 8 := 70
     let v2 : BitVec 8 := 10
     let n1 : BitVec 5 := 2
     let n2 : BitVec 5 := 3
     let runs := (List.range n1.toNat).map (fun i => (i, v1 + BitVec.ofNat 8 i)) ++
     (List.range n2.toNat).map fun i => (n1.toNat + i, v2 + BitVec.ofNat 8 i)
     let out := fun n => decide (8 * s.myBlk.vbase ≤ n) && decide (n < 64)
     (v1.toNat + n1.toNat ≤ 256 ∧ v2.toNat + n2.toNat ≤ 256) ∧ memWf s.mem = true ∧ s.here.owed = [] ∧
         Runs (.region h v1 n1 v2 n2) s h [] [] x ∧ (∃ r ∈ runs, out r.2.toNat = true)) ∧
    (let s : State := sR
     let h : Hdr := { neg := false, grd := 15, ver1 := true, ctl := 0 }
     let x : List Nat := [0, 1]
     let v1 : BitVec 8 := 70
     let v2 : BitVec 8 := 10
     let n1 : BitVec 5 := 2
     let n2 : BitVec 5 := 3
     let runs := (List.range n1.toNat).map (fun i => (i, v1 + BitVec.ofNat 8 i)) ++
     (List.range n2.toNat).map fun i => (n1.toNat + i, v2 + BitVec.ofNat 8 i)
     let out := fun n => decide (8 * s.myBlk.vbase ≤ n) && decide (n < 64)
     let far := fun n => decide (64 ≤ n) && !s.here.extH
     (v1.toNat + n1.toNat ≤ 256 ∧ v2.toNat + n2.toNat ≤ 256) ∧ memWf s.mem = true ∧ s.here.owed = [] ∧
         Runs (.region h v1 n1 v2 n2) s h [] [] x ∧ (∀ r ∈ runs, out r.2.toNat = false) ∧ (∃ r ∈ runs, far r.2.toNat = true)) ∧
    (let s : State := sR
     let h : Hdr := { neg := false, grd := 15, ver1 := true, ctl := 0 }
     let x : List Nat := [0, 1]
     let v1 : BitVec 8 := 2
     let v2 : BitVec 8 := 10
     let n1 : BitVec 5 := 2
     let n2 : BitVec 5 := 3
     let runs := (List.range n1.toNat).map (fun i => (i, v1 + BitVec.ofNat 8 i)) ++
     (List.range n2.toNat).map fun i => (n1.toNat + i, v2 + BitVec.ofNat 8 i)
     (∀ r ∈ runs, vCheck s.myBlk.vbase s.here.extH r.2.toNat = 0) ∧ Runs (.region h v1 n1 v2 n2) s h [] [] x) ∧
    (let s : State := sR
     let h : Hdr := { neg := false, grd := 15, ver1 := true, ctl := 0 }
     let x : List Nat := [0, 1]
     Runs (.regionEnd h) s h [] [] x) ∧
    (let s : State := sR |> updG fun g => {g with extH := true, owed := [{id:=3,wins:=[(0,1)],dst:=[.v 0 3],pay:=.pend}]}
     let h : Hdr := { neg := false, grd := 15, ver1 := true, ctl := 0 }
     let x : List Nat := [0, 1]
     s.here.extH = true ∧ Runs (.grow h) s h [] [] x) ∧
    (let s : State := sR
     let h : Hdr := { neg := false, grd := 15, ver1 := true, ctl := 0 }
     let x : List Nat := [0, 1]
     s.here.extH = false ∧ (s.grp (partner s.d.cur.slot)).extH = false ∧ (s.grp (partner s.d.cur.slot)).growW = none ∧
         Runs (.grow h) s h [] [] x) ∧
    (let s : State := sG
     let h : Hdr := { neg := false, grd := 15, ver1 := true, ctl := 0 }
     let x : List Nat := [0, 1]
     s.here.extH = false ∧ (((s.grp (partner s.d.cur.slot)).extH = true ∨
         ((s.grp (partner s.d.cur.slot)).stop = none ∧ ∃ c, (s.grp (partner s.d.cur.slot)).growW = some c ∧
         c < s.here.growW.getD s.d.now))) ∧ Runs (.grow h) s h [] [] x) ∧
    (let s : State := sR
     let h : Hdr := { neg := false, grd := 15, ver1 := true, ctl := 0 }
     let x : List Nat := [0, 1]
     s.here.extH = false ∧ Runs (.shrink h) s h [] [] x) ∧
    (let s : State := sR |> updG fun g => {g with extH := true, owed := [{id:=3,wins:=[(0,1)],dst:=[.v 0 3],pay:=.pend}]}
     let h : Hdr := { neg := false, grd := 15, ver1 := true, ctl := 0 }
     let x : List Nat := [0, 1]
     s.here.extH = true ∧ ((∀ e ∈ s.here.owed, ∀ l n, Reg.v l n ∈ e.dst → n < 64)) ∧ Runs (.shrink h) s h [] [] x) ∧
    (let s : State := sW |> updG fun g => {g with extIn := some ⟨[(70, 5)], true⟩, stop := some .phint}
     let slot : Nat := 0
     let g : Group := (s.slot? slot).getD Group.gone
     s.slot? slot = some g ∧ g.growW.isSome = true ∧ (s.grp (partner slot)).extH = false ∧
         ((∀ c c', g.growW = some c → (s.grp (partner slot)).growW = some c' → c < c')) ∧ (∃ e, g.extIn = some e) ∧
         slot < 65536) ∧
    (let s : State := sW
     let slot : Nat := 0
     let g : Group := (s.slot? slot).getD Group.gone
     s.slot? slot = some g ∧ g.growW.isSome = true ∧ (s.grp (partner slot)).extH = false ∧
         ((∀ c c', g.growW = some c → (s.grp (partner slot)).growW = some c' → c < c')) ∧ g.extIn = none ∧ g.stop = none) ∧
    (let s : State := sW4
     let core : Nat := 0
     let part : Nat := 0
     let slot : Nat := 0
     let c : Nat := 7
     let g : Group := (s.slot? slot).getD Group.gone
     slot ∈ partSlots core part ∧ s.slot? slot = some g ∧ (begin_ s).groupLive slot = true ∧ g.growW = some c ∧
         g.growers ≠ [] ∧ g.stop = none ∧ g.pendFault = none ∧ g.cv = true ∧ g.anyParked = false ∧ g.owed = [] ∧
         ((∀ k ∈ partSlots core part, (begin_ s).groupLive k = true → (begin_ s).stalled k = true ∧ ∀ c',
         (s.grp k).growW = some c' → (s.grp (partner k)).extH = true ∧ (k = slot ∨ c < c')))) := by
  refine ⟨?_, ?_, ?_, ?_, ?_, ?_, ?_, ?_, ?_, ?_, ?_, ?_⟩ <;>
    (try simp -zeta only
      [FenceMet, AtGate, BoOk, EngineOn, EngineOnAt, RingAt, RingRoom, GlobOk, PcmdAt, ex_ok, ex_ok_list, ex_die, v_below,
          no_cb_copy, no_cb, all_load, no_load, eq_ok, eq_error, on_die, not_out, all_some2, all_some, is_red, no_b,
          ex_is_ok, ex_ok_some, ex_err_some, ex_is_some, ex_is_error, no_ret, no_comp, ex_copy, no_build, key_all, Unread,
          Stands, no_stage]) <;>
    decide +kernel

theorem witness_HintsContinuations :
    (let s : State := sR
     let h : Hdr := { neg := false, grd := 15, ver1 := true, ctl := 0 }
     let x : List Nat := [0, 1]
     let b : BitVec 8 := 3
     let e : BitVec 8 := 9
     let sp : BitVec 16 := 0x1234
     s.myBlk.preq = none ∧ Runs (.phint h b e sp) s h [] [] x) ∧
    (let s : State := sR |> updB fun b => {b with preq := some 3}
     let h : Hdr := { neg := false, grd := 15, ver1 := true, ctl := 0 }
     let x : List Nat := [0, 1]
     let b : BitVec 8 := 3
     let e : BitVec 8 := 9
     let sp : BitVec 16 := 0x1234
     s.myBlk.preq.isSome = true ∧ (∀ l < 32, l ∈ x ↔ (s.here.thread l).st = .runnable) ∧ Runs (.phint h b e sp) s h [] [] x) ∧
    (let s : State := sR
     let h : Hdr := { neg := false, grd := 15, ver1 := true, ctl := 0 }
     let x : List Nat := [0, 1]
     let tok : BitVec 6 := 4
     let ofs : Word := 8
     Runs (.contSet h tok ofs) s h [] [] x) ∧
    (let s : State := sR
     let h : Hdr := { neg := false, grd := 15, ver1 := true, ctl := 0 }
     let x : List Nat := [0, 1]
     Runs (.contSetClr h) s h [] [] x) ∧
    (let s : State := sR
     let h : Hdr := { neg := false, grd := 15, ver1 := true, ctl := 0 }
     let x : List Nat := [0, 1]
     let tok : BitVec 6 := 4
     (∀ l ∈ x, (s.here.thread l).parked = false) ∧ Runs (.contResume h tok) s h [.s tok.toNat] [] x) ∧
    (let s : State := sR |> updG (fun g =>
         {g with cv := true, contPc := 0x99, contTok := 7, pk := some ⟨0x41230,4,0x50,0x77,true,false⟩}) |>
         updThr fun l t => {t with parked := l == 1}
     let h : Hdr := { neg := false, grd := 15, ver1 := true, ctl := 0 }
     let x : List Nat := [0, 1]
     let tok : BitVec 6 := 4
     let pk := { pc := 0x000000000041230, tok := 4, cause := 80, page := 119, signalled := true, late := false }
     s.here.pk = some pk ∧ pk.tok = tok.toNat ∧ pk.signalled = true ∧
         ((∀ l < 32, (s.here.thread l).parked = true → l ∈ x)) ∧ (∃ l ∈ x, (s.here.thread l).parked = true) ∧
         Runs (.contResume h tok) s h [.s tok.toNat] [] x) := by
  refine ⟨?_, ?_, ?_, ?_, ?_, ?_⟩ <;>
    (try simp -zeta only
      [FenceMet, AtGate, BoOk, EngineOn, EngineOnAt, RingAt, RingRoom, GlobOk, PcmdAt, ex_ok, ex_ok_list, ex_die, v_below,
          no_cb_copy, no_cb, all_load, no_load, eq_ok, eq_error, on_die, not_out, all_some2, all_some, is_red, no_b,
          ex_is_ok, ex_ok_some, ex_err_some, ex_is_some, ex_is_error, no_ret, no_comp, ex_copy, no_build, key_all, Unread,
          Stands, no_stage]) <;>
    decide +kernel

theorem witness_TrapInstructions :
    (let s : State := sR
     let h : Hdr := { neg := false, grd := 15, ver1 := true, ctl := 0 }
     let x : List Nat := [0, 1]
     let code : BitVec 8 := 90
     memWf s.mem = true ∧ s.here.owed = [] ∧ Runs (.trap h code) s h [] [] x) ∧
    (let s : State := sR
     let h : Hdr := { neg := false, grd := 15, ver1 := true, ctl := 0 }
     let x : List Nat := [0, 1]
     memWf s.mem = true ∧ s.here.owed = [] ∧ Runs (.brkpt h) s h [] [] x) ∧
    (let s : State := sR |> updB fun b => { b with vbase := 1 }
     let h : Hdr := { neg := false, grd := 15, ver1 := true, ctl := 0 }
     let x : List Nat := [0, 1]
     let i : Instr := .mov wvH { ty := .i32, sat := false, d := .v 20, a := .v 2, b := .v 0, c := .v 0 }
     let src : List Named := [.v 2]
     let dst : List Named := [.v 20]
     let c : Nat := 3
     memWf s.mem = true ∧ s.here.owed = [] ∧
         (((∃ o, i = .mov h o ∧ src = intSrc o 1 ∧ dst = intDst o) ∨ ∃ acc, i = .mxZero h acc ∧ src = [.a acc.toNat] ∧
         dst = [])) ∧ Stands s h src dst x ∧ Misnames s x src dst c) := by
  refine ⟨?_, ?_, ?_⟩
  · try simp -zeta only [FenceMet, AtGate, BoOk, EngineOn, EngineOnAt, RingAt, RingRoom, GlobOk, PcmdAt, ex_ok, ex_ok_list, ex_die, v_below, no_cb_copy, no_cb, all_load, no_load, eq_ok, eq_error, on_die, not_out, all_some2, all_some, is_red, no_b, ex_is_ok, ex_ok_some, ex_err_some, ex_is_some, ex_is_error, no_ret, no_comp, ex_copy, no_build, key_all, Unread, Stands, no_stage]
    decide +kernel
  · try simp -zeta only [FenceMet, AtGate, BoOk, EngineOn, EngineOnAt, RingAt, RingRoom, GlobOk, PcmdAt, ex_ok, ex_ok_list, ex_die, v_below, no_cb_copy, no_cb, all_load, no_load, eq_ok, eq_error, on_die, not_out, all_some2, all_some, is_red, no_b, ex_is_ok, ex_ok_some, ex_err_some, ex_is_some, ex_is_error, no_ret, no_comp, ex_copy, no_build, key_all, Unread, Stands, no_stage]
    decide +kernel
  · intro s h x i src dst c
    refine ⟨?_, ?_, ?_, ?_, ?_⟩ <;> first
      | exact gives_all (by decide +revert +kernel)
      | exact stores_all (by decide +revert +kernel)
      | exact misnames_range (by decide +revert +kernel)
      | exact .inl ⟨_, rfl, rfl, rfl⟩
      | exact .inl (glob_ok (by decide +revert +kernel))
      | exact low_place (by decide +revert +kernel)
      | exact (calm_range (by decide +revert +kernel) (by decide +revert +kernel) (by decide +revert +kernel)).1
      | exact (calm_range (by decide +revert +kernel) (by decide +revert +kernel) (by decide +revert +kernel)).2.1
      | exact (calm_range (by decide +revert +kernel) (by decide +revert +kernel) (by decide +revert +kernel)).2.2
      | exact fun i hi => ⟨(calm_byte (by decide +revert +kernel) (by have : lf.pa = 2359296 := rfl; omega)).2.1.1, (calm_byte (by decide +revert +kernel) (by have : lf.pa = 2359296 := rfl; omega)).1.1⟩
      | exact fun i hi => (calm_byte (by decide +revert +kernel) (by have : lf.pa = 2359296 := rfl; omega)).1.2
      | decide +revert +kernel
      | (simp only [FenceMet, AtGate, BoOk, EngineOn, EngineOnAt, RingAt, RingRoom, GlobOk, PcmdAt, ex_ok, ex_ok_list, ex_die, v_below, no_cb_copy, no_cb, all_load, no_load, eq_ok, eq_error, on_die, not_out, all_some2, all_some, is_red, no_b, ex_is_ok, ex_ok_some, ex_err_some, ex_is_some, ex_is_error, no_ret, no_comp, ex_copy, no_build, key_all, Unread, Stands, no_stage]; decide +revert +kernel)

theorem witness_NapExit :
    (let s : State := sR
     let h : Hdr := { neg := false, grd := 15, ver1 := true, ctl := 0 }
     let x : List Nat := [0, 1]
     let a : Opnd := .v 2
     Runs (.nap h a) s h (a.names 1) [] x) ∧
    (let s : State := sN
     let slot : Nat := 0
     let lane : Nat := 0
     let start : Nat := 7
     let g : Group := (s.slot? slot).getD Group.gone
     let wt : Wait := { why := .nap 7 [(0, 3), (1, 10)], iss := 0, word := 7, len := 12 }
     let ns : List (Nat × Nat) := [(0, 3), (1, 10)]
     lane < 32 ∧ s.slot? slot = some g ∧ (g.thread lane).st = .waiting ∧ (g.thread lane).wait = some wt ∧
         wt.why = .nap start ns ∧ start + napOf ns lane ≤ s.d.now) ∧
    (let s : State := sR
     let h : Hdr := { neg := false, grd := 15, ver1 := true, ctl := 0 }
     let x : List Nat := [0, 1]
     Runs (.exit h) s h [] [] x) := by
  refine ⟨?_, ?_, ?_⟩ <;>
    (try simp -zeta only
      [FenceMet, AtGate, BoOk, EngineOn, EngineOnAt, RingAt, RingRoom, GlobOk, PcmdAt, ex_ok, ex_ok_list, ex_die, v_below,
          no_cb_copy, no_cb, all_load, no_load, eq_ok, eq_error, on_die, not_out, all_some2, all_some, is_red, no_b,
          ex_is_ok, ex_ok_some, ex_err_some, ex_is_some, ex_is_error, no_ret, no_comp, ex_copy, no_build, key_all, Unread,
          Stands, no_stage]) <;>
    decide +kernel

theorem witness_SpecialRegisters :
    (let s : State := sR |> updG (fun g =>
         {g with gidx := 3, extH := true, horizon := 77, cv := true, contPc := 0x1234}) |>
         updB (fun b => {b with gcnt := 4, gridx := 5, gridy := 6}) |>
         updThr (fun l t => {t with helper := l==1, pixx := 8, pixy := 9})
     let h : Hdr := { neg := false, grd := 15, ver1 := true, ctl := 0 }
     let x : List Nat := [0, 1]
     let d : Dst := .v 8
     let num : BitVec 10 := 0
     let n := num.toNat
     n < 0x40 ∧ Runs (.rdsp h d num) s h [] (d.names (if regWide n then 2 else 1)) x) ∧
    (let s : State := sR |> updG (fun g =>
         {g with gidx := 3, extH := true, horizon := 77, cv := true, contPc := 0x1234}) |>
         updB (fun b => {b with gcnt := 4, gridx := 5, gridy := 6}) |>
         updThr (fun l t => {t with helper := l==1, pixx := 8, pixy := 9})
     let h : Hdr := { neg := false, grd := 15, ver1 := true, ctl := 0 }
     let x : List Nat := [0, 1]
     let d : Dst := .v 8
     let num : BitVec 10 := 64
     let n := num.toNat
     0x40 ≤ n ∧ Runs (.rdsp h d num) s h [] (d.names (if regWide n then 2 else 1)) x) ∧
    (let s : State := sR |> updG (fun g =>
         {g with gidx := 3, extH := true, horizon := 77, cv := true, contPc := 0x1234}) |>
         updB (fun b => {b with gcnt := 4, gridx := 5, gridy := 6}) |>
         updThr (fun l t => {t with helper := l==1, pixx := 8, pixy := 9})
     let h : Hdr := { neg := false, grd := 15, ver1 := true, ctl := 0 }
     let x : List Nat := [0, 1]
     let d : Dst := .v 8
     let num : BitVec 10 := 64
     let n := num.toNat
     0x40 ≤ n ∧ Runs (.rdpriv h d num) s h [] (d.names (if regWide n then 2 else 1)) x) ∧
    (let s : State := sR |> updG (fun g =>
         {g with gidx := 3, extH := true, horizon := 77, cv := true, contPc := 0x1234}) |>
         updB (fun b => {b with gcnt := 4, gridx := 5, gridy := 6}) |>
         updThr (fun l t => {t with helper := l==1, pixx := 8, pixy := 9})
     let h : Hdr := { neg := false, grd := 15, ver1 := true, ctl := 0 }
     let x : List Nat := [0, 1]
     let d : Dst := .v 8
     let num : BitVec 10 := 0
     let n := num.toNat
     n < 0x40 ∧ Runs (.rdpriv h d num) s h [] (d.names (if regWide n then 2 else 1)) x) ∧
    (let s : State := sR |> updG (fun g =>
         {g with gidx := 3, extH := true, horizon := 77, cv := true, contPc := 0x1234}) |>
         updB (fun b => {b with gcnt := 4, gridx := 5, gridy := 6}) |>
         updThr (fun l t => {t with helper := l==1, pixx := 8, pixy := 9})
     let h : Hdr := { neg := false, grd := 15, ver1 := true, ctl := 0 }
     let x : List Nat := [0, 1]
     let a : Opnd := .s 4
     Runs (.wrsp h 0x08 a) s h (a.names 2) [] x) := by
  refine ⟨?_, ?_, ?_, ?_, ?_⟩ <;>
    (try simp -zeta only
      [FenceMet, AtGate, BoOk, EngineOn, EngineOnAt, RingAt, RingRoom, GlobOk, PcmdAt, ex_ok, ex_ok_list, ex_die, v_below,
          no_cb_copy, no_cb, all_load, no_load, eq_ok, eq_error, on_die, not_out, all_some2, all_some, is_red, no_b,
          ex_is_ok, ex_ok_some, ex_err_some, ex_is_some, ex_is_error, no_ret, no_comp, ex_copy, no_build, key_all, Unread,
          Stands, no_stage]) <;>
    decide +kernel

theorem witness_PrivilegedWrites :
    (let s : State := sP
     let h : Hdr := { neg := false, grd := 1, ver1 := true, ctl := 0 }
     let l : Nat := 1
     let num : BitVec 10 := 65
     let a : Opnd := .s 4
     let n := num.toNat
     Runs (.wrpriv h num a) s h (a.names (if regWide n then 2 else 1)) [] [l] ∧
         (begin_ s).passed.strongBefore s.d.cur.slot [l] s.d.nextId = false ∧ (∃ m, privMask n = some m)) ∧
    (let s : State := sP
     let h : Hdr := { neg := false, grd := 1, ver1 := true, ctl := 0 }
     let l : Nat := 1
     let num : BitVec 10 := 0x198
     let a : Opnd := .s 4
     let n := num.toNat
     Runs (.wrpriv h num a) s h (a.names (if regWide n then 2 else 1)) [] [l] ∧
         (begin_ s).passed.strongBefore s.d.cur.slot [l] s.d.nextId = false ∧ n = 0x198) ∧
    (let s : State := sP
     let h : Hdr := { neg := false, grd := 1, ver1 := true, ctl := 0 }
     let l : Nat := 1
     let num : BitVec 10 := 0x108
     let a : Opnd := .inl 0
     let n := num.toNat
     let v := privVal s n l a
     Runs (.wrpriv h num a) s h (a.names (if regWide n then 2 else 1)) [] [l] ∧
         (begin_ s).passed.strongBefore s.d.cur.slot [l] s.d.nextId = false ∧ n = 0x108 ∧ v = 0) ∧
    (let s : State := sP
     let h : Hdr := { neg := false, grd := 1, ver1 := true, ctl := 0 }
     let l : Nat := 1
     let num : BitVec 10 := 0x108
     let a : Opnd := .s 4
     let n := num.toNat
     let v := privVal s n l a
     Runs (.wrpriv h num a) s h (a.names (if regWide n then 2 else 1)) [] [l] ∧
         (begin_ s).passed.strongBefore s.d.cur.slot [l] s.d.nextId = false ∧ n = 0x108 ∧ v ≠ 0) := by
  refine ⟨?_, ?_, ?_, ?_⟩ <;>
    (try simp -zeta only
      [FenceMet, AtGate, BoOk, EngineOn, EngineOnAt, RingAt, RingRoom, GlobOk, PcmdAt, ex_ok, ex_ok_list, ex_die, v_below,
          no_cb_copy, no_cb, all_load, no_load, eq_ok, eq_error, on_die, not_out, all_some2, all_some, is_red, no_b,
          ex_is_ok, ex_ok_some, ex_err_some, ex_is_some, ex_is_error, no_ret, no_comp, ex_copy, no_build, key_all, Unread,
          Stands, no_stage]) <;>
    decide +kernel

theorem witness_Loads :
    (let s : State := sLo
     let o : MemOp := { ty := .b8, space := .l, strong := false, ord := .rlx, scope := .blk, disp := 8, d := .v 16, base := .s 7, off := .inl 0, data := .v 0 }
     let x : List Nat := [0, 1]
     let pay : Nat → Payload := payOf s o false x
     let h : Hdr := { neg := false, grd := 15, ver1 := true, ctl := 0 }
     s.here.acq = [] ∧ ((o.space = .s → o.strong = true →
         (begin_ s).passed.strongBefore s.d.cur.slot x s.d.nextId = false ∧ ∀ l ∈ x, SpadOk s o true l →
         SpadSizes s o true l)) ∧ (∀ l ∈ x, LoadGives s o false x l (pay l)) ∧
         Runs (.ld h o) s h (memSrc o true) (memDst o) x ∧ o.space = .l) ∧
    (let s : State := sM
     let o : MemOp := { ty := .b8, space := .s, strong := false, ord := .rlx, scope := .die, disp := 0, d := .v 16, base := .v 12, off := .inl 0, data := .v 0 }
     let x : List Nat := [0, 1]
     let pay : Nat → Payload := payOf s o false x
     let h : Hdr := { neg := false, grd := 15, ver1 := true, ctl := 0 }
     s.here.acq = [] ∧ ((o.space = .s → o.strong = true →
         (begin_ s).passed.strongBefore s.d.cur.slot x s.d.nextId = false ∧ ∀ l ∈ x, SpadOk s o true l →
         SpadSizes s o true l)) ∧ (∀ l ∈ x, LoadGives s o false x l (pay l)) ∧
         Runs (.ld h o) s h (memSrc o true) (memDst o) x ∧ o.space = .s) ∧
    (let s : State := sM
     let o : MemOp := { ty := .b8, space := .g, strong := false, ord := .rlx, scope := .die, disp := 0, d := .v 16, base := .v 10, off := .inl 0, data := .v 0 }
     let x : List Nat := [0, 1]
     let pay : Nat → Payload := payOf s o false x
     let h : Hdr := { neg := false, grd := 15, ver1 := true, ctl := 0 }
     s.here.acq = [] ∧ ((o.space = .s → o.strong = true →
         (begin_ s).passed.strongBefore s.d.cur.slot x s.d.nextId = false ∧ ∀ l ∈ x, SpadOk s o true l →
         SpadSizes s o true l)) ∧ (∀ l ∈ x, LoadGives s o false x l (pay l)) ∧
         Runs (.ld h o) s h (memSrc o true) (memDst o) x ∧ o.space ≠ .l ∧ o.space ≠ .s) ∧
    (let s : State := sM
     let o : MemOp := { ty := .b32, space := .g, strong := false, ord := .rlx, scope := .die, disp := 0, d := .v 16, base := .v 10, off := .inl 0, data := .v 0 }
     let x : List Nat := [0, 1]
     let pay : Nat → Payload := payOf s o true x
     let h : Hdr := { neg := false, grd := 15, ver1 := true, ctl := 0 }
     s.here.acq = [] ∧ ((o.space = .s → o.strong = true →
         (begin_ s).passed.strongBefore s.d.cur.slot x s.d.nextId = false ∧ ∀ l ∈ x, SpadOk s o true l →
         SpadSizes s o true l)) ∧ (∀ l ∈ x, LoadGives s o true x l (pay l)) ∧
         Runs (.ldv h o) s h (memSrc o true) (memDst o) x) := by
  refine ⟨?_, ?_, ?_, ?_⟩
  · intro s o x pay h
    refine ⟨?_, ?_, ?_, ?_, ?_⟩ <;> first
      | exact gives_all (by decide +revert +kernel)
      | exact stores_all (by decide +revert +kernel)
      | exact misnames_range (by decide +revert +kernel)
      | exact .inl ⟨_, rfl, rfl, rfl⟩
      | exact .inl (glob_ok (by decide +revert +kernel))
      | exact low_place (by decide +revert +kernel)
      | exact (calm_range (by decide +revert +kernel) (by decide +revert +kernel) (by decide +revert +kernel)).1
      | exact (calm_range (by decide +revert +kernel) (by decide +revert +kernel) (by decide +revert +kernel)).2.1
      | exact (calm_range (by decide +revert +kernel) (by decide +revert +kernel) (by decide +revert +kernel)).2.2
      | exact fun i hi => ⟨(calm_byte (by decide +revert +kernel) (by have : lf.pa = 2359296 := rfl; omega)).2.1.1, (calm_byte (by decide +revert +kernel) (by have : lf.pa = 2359296 := rfl; omega)).1.1⟩
      | exact fun i hi => (calm_byte (by decide +revert +kernel) (by have : lf.pa = 2359296 := rfl; omega)).1.2
      | decide +revert +kernel
      | (simp only [FenceMet, AtGate, BoOk, EngineOn, EngineOnAt, RingAt, RingRoom, GlobOk, PcmdAt, ex_ok, ex_ok_list, ex_die, v_below, no_cb_copy, no_cb, all_load, no_load, eq_ok, eq_error, on_die, not_out, all_some2, all_some, is_red, no_b, ex_is_ok, ex_ok_some, ex_err_some, ex_is_some, ex_is_error, no_ret, no_comp, ex_copy, no_build, key_all, Unread, Stands, no_stage]; decide +revert +kernel)
  · intro s o x pay h
    refine ⟨?_, ?_, ?_, ?_, ?_⟩ <;> first
      | exact gives_all (by decide +revert +kernel)
      | exact stores_all (by decide +revert +kernel)
      | exact misnames_range (by decide +revert +kernel)
      | exact .inl ⟨_, rfl, rfl, rfl⟩
      | exact .inl (glob_ok (by decide +revert +kernel))
      | exact low_place (by decide +revert +kernel)
      | exact (calm_range (by decide +revert +kernel) (by decide +revert +kernel) (by decide +revert +kernel)).1
      | exact (calm_range (by decide +revert +kernel) (by decide +revert +kernel) (by decide +revert +kernel)).2.1
      | exact (calm_range (by decide +revert +kernel) (by decide +revert +kernel) (by decide +revert +kernel)).2.2
      | exact fun i hi => ⟨(calm_byte (by decide +revert +kernel) (by have : lf.pa = 2359296 := rfl; omega)).2.1.1, (calm_byte (by decide +revert +kernel) (by have : lf.pa = 2359296 := rfl; omega)).1.1⟩
      | exact fun i hi => (calm_byte (by decide +revert +kernel) (by have : lf.pa = 2359296 := rfl; omega)).1.2
      | decide +revert +kernel
      | (simp only [FenceMet, AtGate, BoOk, EngineOn, EngineOnAt, RingAt, RingRoom, GlobOk, PcmdAt, ex_ok, ex_ok_list, ex_die, v_below, no_cb_copy, no_cb, all_load, no_load, eq_ok, eq_error, on_die, not_out, all_some2, all_some, is_red, no_b, ex_is_ok, ex_ok_some, ex_err_some, ex_is_some, ex_is_error, no_ret, no_comp, ex_copy, no_build, key_all, Unread, Stands, no_stage]; decide +revert +kernel)
  · intro s o x pay h
    refine ⟨?_, ?_, ?_, ?_, ?_, ?_⟩ <;> first
      | exact gives_all (by decide +revert +kernel)
      | exact stores_all (by decide +revert +kernel)
      | exact misnames_range (by decide +revert +kernel)
      | exact .inl ⟨_, rfl, rfl, rfl⟩
      | exact .inl (glob_ok (by decide +revert +kernel))
      | exact low_place (by decide +revert +kernel)
      | exact (calm_range (by decide +revert +kernel) (by decide +revert +kernel) (by decide +revert +kernel)).1
      | exact (calm_range (by decide +revert +kernel) (by decide +revert +kernel) (by decide +revert +kernel)).2.1
      | exact (calm_range (by decide +revert +kernel) (by decide +revert +kernel) (by decide +revert +kernel)).2.2
      | exact fun i hi => ⟨(calm_byte (by decide +revert +kernel) (by have : lf.pa = 2359296 := rfl; omega)).2.1.1, (calm_byte (by decide +revert +kernel) (by have : lf.pa = 2359296 := rfl; omega)).1.1⟩
      | exact fun i hi => (calm_byte (by decide +revert +kernel) (by have : lf.pa = 2359296 := rfl; omega)).1.2
      | decide +revert +kernel
      | (simp only [FenceMet, AtGate, BoOk, EngineOn, EngineOnAt, RingAt, RingRoom, GlobOk, PcmdAt, ex_ok, ex_ok_list, ex_die, v_below, no_cb_copy, no_cb, all_load, no_load, eq_ok, eq_error, on_die, not_out, all_some2, all_some, is_red, no_b, ex_is_ok, ex_ok_some, ex_err_some, ex_is_some, ex_is_error, no_ret, no_comp, ex_copy, no_build, key_all, Unread, Stands, no_stage]; decide +revert +kernel)
  · intro s o x pay h
    refine ⟨?_, ?_, ?_, ?_⟩ <;> first
      | exact gives_all (by decide +revert +kernel)
      | exact stores_all (by decide +revert +kernel)
      | exact misnames_range (by decide +revert +kernel)
      | exact .inl ⟨_, rfl, rfl, rfl⟩
      | exact .inl (glob_ok (by decide +revert +kernel))
      | exact low_place (by decide +revert +kernel)
      | exact (calm_range (by decide +revert +kernel) (by decide +revert +kernel) (by decide +revert +kernel)).1
      | exact (calm_range (by decide +revert +kernel) (by decide +revert +kernel) (by decide +revert +kernel)).2.1
      | exact (calm_range (by decide +revert +kernel) (by decide +revert +kernel) (by decide +revert +kernel)).2.2
      | exact fun i hi => ⟨(calm_byte (by decide +revert +kernel) (by have : lf.pa = 2359296 := rfl; omega)).2.1.1, (calm_byte (by decide +revert +kernel) (by have : lf.pa = 2359296 := rfl; omega)).1.1⟩
      | exact fun i hi => (calm_byte (by decide +revert +kernel) (by have : lf.pa = 2359296 := rfl; omega)).1.2
      | decide +revert +kernel
      | (simp only [FenceMet, AtGate, BoOk, EngineOn, EngineOnAt, RingAt, RingRoom, GlobOk, PcmdAt, ex_ok, ex_ok_list, ex_die, v_below, no_cb_copy, no_cb, all_load, no_load, eq_ok, eq_error, on_die, not_out, all_some2, all_some, is_red, no_b, ex_is_ok, ex_ok_some, ex_err_some, ex_is_some, ex_is_error, no_ret, no_comp, ex_copy, no_build, key_all, Unread, Stands, no_stage]; decide +revert +kernel)

theorem witness_LoadsLand :
    (let s : State := sL
     let slot : Nat := 0
     let k : Nat := 0
     let g : Group := (s.slot? slot).getD Group.gone
     let e : Owed := { id := 1, wins := [(0, 0)], dst := [.v 0 20], pay := .ready [119] }
     let w : Word := 119
     let l := 0
     let n := 20
     s.slot? slot = some g ∧ g.owed[k]? = some e ∧ (∀ p ∈ e.wins, p.2 = 0) ∧
         ((∀ o ∈ g.owed, e.id < o.id → ∀ r ∈ e.dst, r ∉ o.dst)) ∧ l < 32 ∧ n < 256 ∧ e.dst = [.v l n] ∧ e.pay = .ready [w]) ∧
    (let s : State := sL
     let slot : Nat := 0
     let k : Nat := 1
     let g : Group := (s.slot? slot).getD Group.gone
     let e : Owed := { id := 2, wins := [(0, 0)], dst := [.s 8], pay := .ready [119, 136] }
     let lo : Word := 119
     let hi : Word := 136
     let n := 8
     s.slot? slot = some g ∧ g.owed[k]? = some e ∧ (∀ p ∈ e.wins, p.2 = 0) ∧
         ((∀ o ∈ g.owed, e.id < o.id → ∀ r ∈ e.dst, r ∉ o.dst)) ∧ e.dst = [.s n] ∧ e.pay = .ready [lo, hi]) ∧
    (let s : State := sL
     let slot : Nat := 0
     let k : Nat := 2
     let g : Group := (s.slot? slot).getD Group.gone
     let e : Owed := (g.owed[k]?.toList).getD 0 (ow 0 [] .pend)
     let p : LoadP := { lane := 1, va := 0x000000000001040, pa := 4160, n := 2, loc := false, more := [], ro := false, ext := .sign, cst := false, cached := true, strong := false, acq := false, scope := .blk, lease := 0, wide := false, instr := 5, lanes := 2, iss := { ep := 0, vc := [], sync := 0, rel := false }, passed := none }
     let d : Nat := 0
     s.slot? slot = some g ∧ g.owed[k]? = some e ∧ e.pay = .load p ∧
         ((∀ o ∈ g.owed, ∀ q, o.pay = .load q → o.id < e.id → q.lane = p.lane → ∀ r ∈ q.pieces, p.meets r.1 r.2 = false)) ∧
         (∀ d ∈ s.d.dies, ∀ o ∈ d.2.ringQ, o.slot ≠ some slot) ∧ s.path (slotCore slot) = [] ∧
         (begin_ s).lateBefore [(p.pa, p.n)] false ((begin_ s).agentOf slot) none e.id p.passed = false ∧ p.more = [] ∧
         p.strong = false ∧ p.acq = false ∧ 0 < p.n ∧ p.pa + p.n ≤ 2 ^ 57 ∧ homeOf s.d p.pa = .die d ∧
         homeUp s.d p.pa = true ∧ homeFailed s.d p.pa = false ∧ (begin_ s).poisoned p.pa = false ∧ NoRide s p.pa p.n) := by
  refine ⟨?_, ?_, ?_⟩ <;>
    (try simp -zeta only
      [FenceMet, AtGate, BoOk, EngineOn, EngineOnAt, RingAt, RingRoom, GlobOk, PcmdAt, ex_ok, ex_ok_list, ex_die, v_below,
          no_cb_copy, no_cb, all_load, no_load, eq_ok, eq_error, on_die, not_out, all_some2, all_some, is_red, no_b,
          ex_is_ok, ex_ok_some, ex_err_some, ex_is_some, ex_is_error, no_ret, no_comp, ex_copy, no_build, key_all, Unread,
          Stands, no_stage]) <;>
    decide +kernel

theorem witness_Stores :
    (let s : State := sM
     let h : Hdr := { neg := false, grd := 15, ver1 := true, ctl := 0 }
     let o : MemOp := { ty := .b8, space := .s, strong := false, ord := .rlx, scope := .die, disp := 0, d := .none, base := .v 12, off := .inl 0, data := .v 2 }
     let x : List Nat := [0, 1]
     let y := realLanes s x
     s.here.acq = [] ∧ memWf s.mem = true ∧ (∀ l ∈ y, SpadOk s o true l ∧ SpadFree s o true l) ∧
         Apart y (spadAt s o true) o.ty.bytes ∧ ((o.ord = .rel → (begin_ s).passed.fenceOk s.d.cur.slot o.scope = true)) ∧
         ((o.strong = true → (begin_ s).passed.strongBefore s.d.cur.slot x s.d.nextId = false ∧ ∀ l ∈ y,
         SpadSizes s o true l)) ∧ Runs (.st h o) s h (memSrc o true ++ o.data.names (regCount o.ty.bytes)) [] x) ∧
    (let s : State := sLo
     let o : MemOp := { ty := .b8, space := .l, strong := false, ord := .rlx, scope := .blk, disp := 8, d := .none, base := .s 7, off := .inl 0, data := .v 2 }
     let x : List Nat := [0, 1]
     let h : Hdr := { neg := false, grd := 15, ver1 := true, ctl := 0 }
     let parts : Nat → List (Nat × Nat × Nat) := partsOf s o
     let y := realLanes s x
     s.here.acq = [] ∧ (∀ l ∈ y, StoreParts s o l (parts l)) ∧
         ((o.ord = .rel → (begin_ s).passed.fenceOk s.d.cur.slot o.scope = true)) ∧
         Runs (.st h o) s h (memSrc o true ++ o.data.names (regCount o.ty.bytes)) [] x ∧ o.space = .l) ∧
    (let s : State := sM
     let o : MemOp := { ty := .b8, space := .g, strong := false, ord := .rlx, scope := .die, disp := 0, d := .none, base := .v 10, off := .inl 0, data := .v 2 }
     let x : List Nat := [0, 1]
     let h : Hdr := { neg := false, grd := 15, ver1 := true, ctl := 0 }
     let parts : Nat → List (Nat × Nat × Nat) := partsOf s o
     let y := realLanes s x
     let sends := y.flatMap fun l => (parts l).filterMap (sendOf s)
     s.here.acq = [] ∧ (∀ l ∈ y, StoreParts s o l (parts l)) ∧
         ((o.ord = .rel → (begin_ s).passed.fenceOk s.d.cur.slot o.scope = true)) ∧
         Runs (.st h o) s h (memSrc o true ++ o.data.names (regCount o.ty.bytes)) [] x ∧ o.space ≠ .l ∧ sends = []) ∧
    (let s : State := sSo
     let o : MemOp := { ty := .b8, space := .g, strong := false, ord := .rlx, scope := .die, disp := 0, d := .none, base := .v 10, off := .inl 0, data := .v 2 }
     let x : List Nat := [0, 1]
     let h : Hdr := { neg := false, grd := 15, ver1 := true, ctl := 0 }
     let parts : Nat → List (Nat × Nat × Nat) := partsOf s o
     let y := realLanes s x
     let sends := y.flatMap fun l => (parts l).filterMap (sendOf s)
     s.here.acq = [] ∧ (∀ l ∈ y, StoreParts s o l (parts l)) ∧
         ((o.ord = .rel → (begin_ s).passed.fenceOk s.d.cur.slot o.scope = true)) ∧
         Runs (.st h o) s h (memSrc o true ++ o.data.names (regCount o.ty.bytes)) [] x ∧ sends ≠ []) := by
  refine ⟨?_, ?_, ?_, ?_⟩
  · try simp -zeta only [FenceMet, AtGate, BoOk, EngineOn, EngineOnAt, RingAt, RingRoom, GlobOk, PcmdAt, ex_ok, ex_ok_list, ex_die, v_below, no_cb_copy, no_cb, all_load, no_load, eq_ok, eq_error, on_die, not_out, all_some2, all_some, is_red, no_b, ex_is_ok, ex_ok_some, ex_err_some, ex_is_some, ex_is_error, no_ret, no_comp, ex_copy, no_build, key_all, Unread, Stands, no_stage]
    decide +kernel
  · intro s o x h parts y
    refine ⟨?_, ?_, ?_, ?_, ?_⟩ <;> first
      | exact gives_all (by decide +revert +kernel)
      | exact stores_all (by decide +revert +kernel)
      | exact misnames_range (by decide +revert +kernel)
      | exact .inl ⟨_, rfl, rfl, rfl⟩
      | exact .inl (glob_ok (by decide +revert +kernel))
      | exact low_place (by decide +revert +kernel)
      | exact (calm_range (by decide +revert +kernel) (by decide +revert +kernel) (by decide +revert +kernel)).1
      | exact (calm_range (by decide +revert +kernel) (by decide +revert +kernel) (by decide +revert +kernel)).2.1
      | exact (calm_range (by decide +revert +kernel) (by decide +revert +kernel) (by decide +revert +kernel)).2.2
      | exact fun i hi => ⟨(calm_byte (by decide +revert +kernel) (by have : lf.pa = 2359296 := rfl; omega)).2.1.1, (calm_byte (by decide +revert +kernel) (by have : lf.pa = 2359296 := rfl; omega)).1.1⟩
      | exact fun i hi => (calm_byte (by decide +revert +kernel) (by have : lf.pa = 2359296 := rfl; omega)).1.2
      | decide +revert +kernel
      | (simp only [FenceMet, AtGate, BoOk, EngineOn, EngineOnAt, RingAt, RingRoom, GlobOk, PcmdAt, ex_ok, ex_ok_list, ex_die, v_below, no_cb_copy, no_cb, all_load, no_load, eq_ok, eq_error, on_die, not_out, all_some2, all_some, is_red, no_b, ex_is_ok, ex_ok_some, ex_err_some, ex_is_some, ex_is_error, no_ret, no_comp, ex_copy, no_build, key_all, Unread, Stands, no_stage]; decide +revert +kernel)
  · intro s o x h parts y sends
    refine ⟨?_, ?_, ?_, ?_, ?_, ?_⟩ <;> first
      | exact gives_all (by decide +revert +kernel)
      | exact stores_all (by decide +revert +kernel)
      | exact misnames_range (by decide +revert +kernel)
      | exact .inl ⟨_, rfl, rfl, rfl⟩
      | exact .inl (glob_ok (by decide +revert +kernel))
      | exact low_place (by decide +revert +kernel)
      | exact (calm_range (by decide +revert +kernel) (by decide +revert +kernel) (by decide +revert +kernel)).1
      | exact (calm_range (by decide +revert +kernel) (by decide +revert +kernel) (by decide +revert +kernel)).2.1
      | exact (calm_range (by decide +revert +kernel) (by decide +revert +kernel) (by decide +revert +kernel)).2.2
      | exact fun i hi => ⟨(calm_byte (by decide +revert +kernel) (by have : lf.pa = 2359296 := rfl; omega)).2.1.1, (calm_byte (by decide +revert +kernel) (by have : lf.pa = 2359296 := rfl; omega)).1.1⟩
      | exact fun i hi => (calm_byte (by decide +revert +kernel) (by have : lf.pa = 2359296 := rfl; omega)).1.2
      | decide +revert +kernel
      | (simp only [FenceMet, AtGate, BoOk, EngineOn, EngineOnAt, RingAt, RingRoom, GlobOk, PcmdAt, ex_ok, ex_ok_list, ex_die, v_below, no_cb_copy, no_cb, all_load, no_load, eq_ok, eq_error, on_die, not_out, all_some2, all_some, is_red, no_b, ex_is_ok, ex_ok_some, ex_err_some, ex_is_some, ex_is_error, no_ret, no_comp, ex_copy, no_build, key_all, Unread, Stands, no_stage]; decide +revert +kernel)
  · intro s o x h parts y sends
    refine ⟨?_, ?_, ?_, ?_, ?_⟩ <;> first
      | exact gives_all (by decide +revert +kernel)
      | exact stores_all (by decide +revert +kernel)
      | exact misnames_range (by decide +revert +kernel)
      | exact .inl ⟨_, rfl, rfl, rfl⟩
      | exact .inl (glob_ok (by decide +revert +kernel))
      | exact low_place (by decide +revert +kernel)
      | exact (calm_range (by decide +revert +kernel) (by decide +revert +kernel) (by decide +revert +kernel)).1
      | exact (calm_range (by decide +revert +kernel) (by decide +revert +kernel) (by decide +revert +kernel)).2.1
      | exact (calm_range (by decide +revert +kernel) (by decide +revert +kernel) (by decide +revert +kernel)).2.2
      | exact fun i hi => ⟨(calm_byte (by decide +revert +kernel) (by have : lf.pa = 2359296 := rfl; omega)).2.1.1, (calm_byte (by decide +revert +kernel) (by have : lf.pa = 2359296 := rfl; omega)).1.1⟩
      | exact fun i hi => (calm_byte (by decide +revert +kernel) (by have : lf.pa = 2359296 := rfl; omega)).1.2
      | decide +revert +kernel
      | (simp only [FenceMet, AtGate, BoOk, EngineOn, EngineOnAt, RingAt, RingRoom, GlobOk, PcmdAt, ex_ok, ex_ok_list, ex_die, v_below, no_cb_copy, no_cb, all_load, no_load, eq_ok, eq_error, on_die, not_out, all_some2, all_some, is_red, no_b, ex_is_ok, ex_ok_some, ex_err_some, ex_is_some, ex_is_error, no_ret, no_comp, ex_copy, no_build, key_all, Unread, Stands, no_stage]; decide +revert +kernel)

theorem witness_StoresPerform :
    let s : State := sSt
    let core : Nat := 0
    let k : Nat := 0
    let d : Nat := 0
    let e : WEntry := ((s.path core)[k]?.toList).getD 0 we0
    (s.path core)[k]? = some e ∧ e.kind = .store ∧ e.strong = false ∧ e.acq = false ∧ memWf s.mem = true ∧
        homeOf s.d e.pa = .die d ∧ s.d.rideOf e.pa = none ∧ homeFailed s.d e.pa = false ∧
        (begin_ s).mayPerform core k e = true ∧ (∃ g, s.slot? e.slot = some g) := by
  try simp -zeta only [FenceMet, AtGate, BoOk, EngineOn, EngineOnAt, RingAt, RingRoom, GlobOk, PcmdAt, ex_ok, ex_ok_list, ex_die, v_below, no_cb_copy, no_cb, all_load, no_load, eq_ok, eq_error, on_die, not_out, all_some2, all_some, is_red, no_b, ex_is_ok, ex_ok_some, ex_err_some, ex_is_some, ex_is_error, no_ret, no_comp, ex_copy, no_build, key_all, Unread, Stands, no_stage]
  decide +kernel

theorem witness_Atomics :
    (let s : State := sM
     let h : Hdr := { neg := false, grd := 15, ver1 := true, ctl := 0 }
     let o : MemOp := { ty := .i32, space := .s, strong := true, ord := .rlx, scope := .die, disp := 0, d := .v 16, base := .v 12, off := .inl 0, data := .v 2 }
     let x : List Nat := [0, 1]
     let op : AOp := .add
     let y := realLanes s x
     let n := o.ty.bytes
     s.here.acq = [] ∧ memWf s.mem = true ∧ (∀ e ∈ s.here.owed, e.id < s.d.nextId) ∧
         (((o.ord = .rel ∨ o.ord = .acqrel) → (begin_ s).passed.fenceOk s.d.cur.slot o.scope = true)) ∧
         (begin_ s).passed.strongBefore s.d.cur.slot y s.d.nextId = false ∧ y ≠ [] ∧
         (∀ l ∈ y, SpadOk s o true l ∧ SpadFree s o true l ∧ SpadSizes s o true l) ∧ Apart y (spadAt s o true) n ∧
         Runs (.atom h op o) s h (memSrc o true ++ o.data.names (regCount n)) (memDst o) x) ∧
    (let s : State := sM
     let h : Hdr := { neg := false, grd := 15, ver1 := true, ctl := 0 }
     let o : MemOp := { ty := .b32, space := .s, strong := true, ord := .rlx, scope := .die, disp := 0, d := .v 16, base := .v 12, off := .v 4, data := .v 2 }
     let x : List Nat := [0, 1]
     let y := realLanes s x
     let n := o.ty.bytes
     s.here.acq = [] ∧ memWf s.mem = true ∧ (∀ e ∈ s.here.owed, e.id < s.d.nextId) ∧
         (((o.ord = .rel ∨ o.ord = .acqrel) → (begin_ s).passed.fenceOk s.d.cur.slot o.scope = true)) ∧
         (begin_ s).passed.strongBefore s.d.cur.slot y s.d.nextId = false ∧ y ≠ [] ∧
         (∀ l ∈ y, SpadOk s o false l ∧ SpadFree s o false l ∧ SpadSizes s o false l) ∧ Apart y (spadAt s o false) n ∧
         Runs (.atomCas h o) s h (memSrc o false ++ o.data.names (regCount n) ++ o.off.names (regCount n)) (memDst o) x) ∧
    (let s : State := sM
     let h : Hdr := { neg := false, grd := 15, ver1 := true, ctl := 0 }
     let o : MemOp := { ty := .i32, space := .g, strong := true, ord := .rlx, scope := .die, disp := 0, d := .v 16, base := .v 10, off := .inl 0, data := .v 2 }
     let x : List Nat := [0, 1]
     let op : AOp := .add
     let lf : Nat → Leaf := lfOf s o true .rmw
     let y := realLanes s x
     let n := o.ty.bytes
     s.here.acq = [] ∧ (((o.ord = .rel ∨ o.ord = .acqrel) → (begin_ s).passed.fenceOk s.d.cur.slot o.scope = true)) ∧
         o.space = .g ∧ (∀ l ∈ y, GlobOk s o true .rmw l (lf l)) ∧
         Runs (.atom h op o) s h (memSrc o true ++ o.data.names (regCount n)) (memDst o) x) ∧
    (let s : State := sM
     let h : Hdr := { neg := false, grd := 15, ver1 := true, ctl := 0 }
     let o : MemOp := { ty := .b32, space := .g, strong := true, ord := .rlx, scope := .die, disp := 0, d := .v 16, base := .v 10, off := .v 4, data := .v 2 }
     let x : List Nat := [0, 1]
     let lf : Nat → Leaf := lfOf s o false .rmw
     let y := realLanes s x
     let n := o.ty.bytes
     s.here.acq = [] ∧ (((o.ord = .rel ∨ o.ord = .acqrel) → (begin_ s).passed.fenceOk s.d.cur.slot o.scope = true)) ∧
         o.space = .g ∧ (∀ l ∈ y, GlobOk s o false .rmw l (lf l)) ∧
         Runs (.atomCas h o) s h (memSrc o false ++ o.data.names (regCount n) ++ o.off.names (regCount n)) (memDst o) x) ∧
    (let s : State := sM
     let h : Hdr := { neg := false, grd := 15, ver1 := true, ctl := 0 }
     let o : MemOp := { ty := .i32, space := .g, strong := false, ord := .rlx, scope := .die, disp := 0, d := .none, base := .v 10, off := .inl 0, data := .v 2 }
     let x : List Nat := [0, 1]
     let op : AOp := .add
     let lf : Nat → Leaf := lfOf s o true .rmw
     let y := realLanes s x
     let n := o.ty.bytes
     s.here.acq = [] ∧ (((o.ord = .rel ∨ o.ord = .acqrel) → (begin_ s).passed.fenceOk s.d.cur.slot o.scope = true)) ∧
         (∀ l ∈ y, GlobOk s o true .rmw l (lf l)) ∧ ((∀ k ∈ y, ∀ l ∈ y, k ≠ l → memEa s o true k ≠ memEa s o true l)) ∧
         Runs (.red h op o) s h (memSrc o true ++ o.data.names (regCount n)) [] x) := by
  refine ⟨?_, ?_, ?_, ?_, ?_⟩ <;>
    (try simp -zeta only
      [FenceMet, AtGate, BoOk, EngineOn, EngineOnAt, RingAt, RingRoom, GlobOk, PcmdAt, ex_ok, ex_ok_list, ex_die, v_below,
          no_cb_copy, no_cb, all_load, no_load, eq_ok, eq_error, on_die, not_out, all_some2, all_some, is_red, no_b,
          ex_is_ok, ex_ok_some, ex_err_some, ex_is_some, ex_is_error, no_ret, no_comp, ex_copy, no_build, key_all, Unread,
          Stands, no_stage]) <;>
    decide +kernel

theorem witness_CopiesReports :
    (let s : State := sM
     let h : Hdr := { neg := false, grd := 1, ver1 := true, ctl := 0 }
     let o : MemOp := { ty := .b8, space := .g, strong := false, ord := .rlx, scope := .grp, disp := 8, d := .none, base := .v 10, off := .inl 0, data := .v 0 }
     let l : Nat := 1
     let lf : Leaf := { pa := 4168, lease := 4, ring := true, wr := true, tier := false, mig := false, at_ := 2097152, size := 536870912 }
     let d : Nat := 0
     ((GlobOk s o true .load l lf ∨ LocOk s o .load l [lf])) ∧ Runs (.pf h o) s h (memSrc o true) [] [l] ∧
         d = slotDie s.d.cur.slot ∧ homeOf s.d lf.pa = .die d ∧ d = coreDie (slotCore s.d.cur.slot) ∧
         (begin_ s).writeComing lf.pa = false ∧ (s.d.die d).slots = [] ∧
         (∀ c ∈ (s.d.core (slotCore s.d.cur.slot)).copies, c.sector ≠ sectorOf lf.pa) ∧
         ((o.space = .c ∨ (o.space = .g ∧ lf.wr = false) → (begin_ s).peerCopies (slotCore s.d.cur.slot) lf.pa = []))) ∧
    (let s : State := sCp
     let core : Nat := 0
     let k : Nat := 0
     let c : L1Copy := { sector := 3, endRev := 2, remote := false, hist := [] }
     (s.d.core core).copies[k]? = some c ∧ c.endRev ≤ coreCount s.d.now core ∧ c.remote = false) ∧
    (let s : State := sCp
     let core : Nat := 0
     let k : Nat := 1
     let c : L1Copy := { sector := 4, endRev := 5, remote := true, hist := [] }
     (s.d.core core).copies[k]? = some c ∧ c.endRev ≤ coreCount s.d.now core ∧ c.remote = true) ∧
    (let s : State := sCp
     let core : Nat := 0
     let k : Nat := 0
     let e : WEntry := (((s.path core).filter WEntry.strong)[k]?.toList).getD 0 we0
     let g : Group := (s.slot? e.slot).getD Group.gone
     ((s.path core).filter WEntry.strong)[k]? = some e ∧ s.slot? e.slot = some g ∧ g.hmix = none ∧
         (begin_ s).mixMode e.pa = true ∧ (begin_ s).mixed e.pa e.n = true) := by
  refine ⟨?_, ?_, ?_, ?_⟩
  · intro s h o l lf d
    refine ⟨?_, ?_, ?_, ?_, ?_, ?_, ?_, ?_, ?_⟩ <;> first
      | exact gives_all (by decide +revert +kernel)
      | exact stores_all (by decide +revert +kernel)
      | exact misnames_range (by decide +revert +kernel)
      | exact .inl ⟨_, rfl, rfl, rfl⟩
      | exact .inl (glob_ok (by decide +revert +kernel))
      | exact low_place (by decide +revert +kernel)
      | exact (calm_range (by decide +revert +kernel) (by decide +revert +kernel) (by decide +revert +kernel)).1
      | exact (calm_range (by decide +revert +kernel) (by decide +revert +kernel) (by decide +revert +kernel)).2.1
      | exact (calm_range (by decide +revert +kernel) (by decide +revert +kernel) (by decide +revert +kernel)).2.2
      | exact fun i hi => ⟨(calm_byte (by decide +revert +kernel) (by have : lf.pa = 2359296 := rfl; omega)).2.1.1, (calm_byte (by decide +revert +kernel) (by have : lf.pa = 2359296 := rfl; omega)).1.1⟩
      | exact fun i hi => (calm_byte (by decide +revert +kernel) (by have : lf.pa = 2359296 := rfl; omega)).1.2
      | decide +revert +kernel
      | (simp only [FenceMet, AtGate, BoOk, EngineOn, EngineOnAt, RingAt, RingRoom, GlobOk, PcmdAt, ex_ok, ex_ok_list, ex_die, v_below, no_cb_copy, no_cb, all_load, no_load, eq_ok, eq_error, on_die, not_out, all_some2, all_some, is_red, no_b, ex_is_ok, ex_ok_some, ex_err_some, ex_is_some, ex_is_error, no_ret, no_comp, ex_copy, no_build, key_all, Unread, Stands, no_stage]; decide +revert +kernel)
  · try simp -zeta only [FenceMet, AtGate, BoOk, EngineOn, EngineOnAt, RingAt, RingRoom, GlobOk, PcmdAt, ex_ok, ex_ok_list, ex_die, v_below, no_cb_copy, no_cb, all_load, no_load, eq_ok, eq_error, on_die, not_out, all_some2, all_some, is_red, no_b, ex_is_ok, ex_ok_some, ex_err_some, ex_is_some, ex_is_error, no_ret, no_comp, ex_copy, no_build, key_all, Unread, Stands, no_stage]
    decide +kernel
  · try simp -zeta only [FenceMet, AtGate, BoOk, EngineOn, EngineOnAt, RingAt, RingRoom, GlobOk, PcmdAt, ex_ok, ex_ok_list, ex_die, v_below, no_cb_copy, no_cb, all_load, no_load, eq_ok, eq_error, on_die, not_out, all_some2, all_some, is_red, no_b, ex_is_ok, ex_ok_some, ex_err_some, ex_is_some, ex_is_error, no_ret, no_comp, ex_copy, no_build, key_all, Unread, Stands, no_stage]
    decide +kernel
  · try simp -zeta only [FenceMet, AtGate, BoOk, EngineOn, EngineOnAt, RingAt, RingRoom, GlobOk, PcmdAt, ex_ok, ex_ok_list, ex_die, v_below, no_cb_copy, no_cb, all_load, no_load, eq_ok, eq_error, on_die, not_out, all_some2, all_some, is_red, no_b, ex_is_ok, ex_ok_some, ex_err_some, ex_is_some, ex_is_error, no_ret, no_comp, ex_copy, no_build, key_all, Unread, Stands, no_stage]
    decide +kernel

theorem witness_MisalignedTraps :
    (let s : State := sM
     let c : Nat := 16
     let l : Nat := 1
     let h : Hdr := { neg := false, grd := 1, ver1 := true, ctl := 0 }
     let o : MemOp := { ty := .b16, space := .g, strong := false, ord := .rlx, scope := .die, disp := 0x7ffff, d := .v 16, base := .v 10, off := .inl 0, data := .v 0 }
     memWf s.mem = true ∧ s.here.owed = [] ∧ s.here.acq = [] ∧ (s.here.thread l).helper = false ∧ FailsAs s o true l c ∧
         Runs (.ld h o) s h (memSrc o true) (memDst o) [l]) ∧
    (let s : State := sM
     let c : Nat := 16
     let l : Nat := 1
     let h : Hdr := { neg := false, grd := 1, ver1 := true, ctl := 0 }
     let o : MemOp := { ty := .b32, space := .g, strong := false, ord := .rlx, scope := .die, disp := 0x7ffff, d := .v 16, base := .v 10, off := .inl 0, data := .v 0 }
     memWf s.mem = true ∧ s.here.owed = [] ∧ s.here.acq = [] ∧ (s.here.thread l).helper = false ∧ FailsAs s o true l c ∧
         Runs (.ldv h o) s h (memSrc o true) (memDst o) [l]) ∧
    (let s : State := sM
     let c : Nat := 16
     let l : Nat := 1
     let h : Hdr := { neg := false, grd := 1, ver1 := true, ctl := 0 }
     let o : MemOp := { ty := .b16, space := .g, strong := false, ord := .rlx, scope := .die, disp := 0x7ffff, d := .none, base := .v 10, off := .inl 0, data := .v 2 }
     let src := memSrc o true ++ o.data.names (regCount o.ty.bytes)
     memWf s.mem = true ∧ s.here.owed = [] ∧ s.here.acq = [] ∧ (s.here.thread l).helper = false ∧ FailsAs s o true l c ∧
         Runs (.st h o) s h src [] [l]) ∧
    (let s : State := sM
     let c : Nat := 16
     let op : AOp := .add
     let l : Nat := 1
     let h : Hdr := { neg := false, grd := 1, ver1 := true, ctl := 0 }
     let o : MemOp := { ty := .i32, space := .g, strong := true, ord := .rlx, scope := .die, disp := 0x7ffff, d := .v 16, base := .v 10, off := .inl 0, data := .v 2 }
     let src := memSrc o true ++ o.data.names (regCount o.ty.bytes)
     memWf s.mem = true ∧ s.here.owed = [] ∧ s.here.acq = [] ∧ (s.here.thread l).helper = false ∧ FailsAs s o true l c ∧
         Runs (.atom h op o) s h src (memDst o) [l]) ∧
    (let s : State := sM
     let c : Nat := 16
     let op : AOp := .and
     let l : Nat := 1
     let h : Hdr := { neg := false, grd := 1, ver1 := true, ctl := 0 }
     let o : MemOp := { ty := .b32, space := .g, strong := false, ord := .rlx, scope := .die, disp := 0x7ffff, d := .none, base := .v 10, off := .inl 0, data := .v 2 }
     let src := memSrc o true ++ o.data.names (regCount o.ty.bytes)
     memWf s.mem = true ∧ s.here.owed = [] ∧ s.here.acq = [] ∧ (s.here.thread l).helper = false ∧ FailsAs s o true l c ∧
         Runs (.red h op o) s h src [] [l]) ∧
    (let s : State := sM |> setV 1 11 0x80000000
     let c : Nat := 17
     let l : Nat := 1
     let h : Hdr := { neg := false, grd := 1, ver1 := true, ctl := 0 }
     let o : MemOp := { ty := .b32, space := .g, strong := true, ord := .rlx, scope := .die, disp := 0, d := .v 16, base := .v 10, off := .v 4, data := .v 2 }
     memWf s.mem = true ∧ s.here.owed = [] ∧ s.here.acq = [] ∧ (s.here.thread l).helper = false ∧ FailsAs s o false l c ∧
         Runs (.atomCas h o) s h (memSrc o false ++ o.data.names (regCount o.ty.bytes) ++
         o.off.names (regCount o.ty.bytes)) (memDst o) [l]) := by
  refine ⟨?_, ?_, ?_, ?_, ?_, ?_⟩ <;>
    (try simp -zeta only
      [FenceMet, AtGate, BoOk, EngineOn, EngineOnAt, RingAt, RingRoom, GlobOk, PcmdAt, ex_ok, ex_ok_list, ex_die, v_below,
          no_cb_copy, no_cb, all_load, no_load, eq_ok, eq_error, on_die, not_out, all_some2, all_some, is_red, no_b,
          ex_is_ok, ex_ok_some, ex_err_some, ex_is_some, ex_is_error, no_ret, no_comp, ex_copy, no_build, key_all, Unread,
          Stands, no_stage]) <;>
    decide +kernel

theorem witness_FencesWaits :
    (let s : State := sFe
     let h : Hdr := { neg := false, grd := 15, ver1 := true, ctl := 0 }
     let x : List Nat := [0, 1]
     let sc : Scope := .grp
     Runs (.fence h sc) s h [] [] x ∧ FenceMet s sc) ∧
    (let s : State := sFe
     let h : Hdr := { neg := false, grd := 15, ver1 := true, ctl := 0 }
     let x : List Nat := [0, 1]
     let sc : Scope := .quad
     Runs (.fence h sc) s h [] [] x ∧ ¬ FenceMet s sc) ∧
    (let s : State := sFe
     let h : Hdr := { neg := false, grd := 15, ver1 := true, ctl := 0 }
     let x : List Nat := [0, 1]
     let c : Cls := .copy
     let n : Opnd := .inl 0
     s.d.cur.stamped = false ∧ Runs (.waitc h c n) s h (n.names 1) [] x ∧ s.here.count c ≤ (s.op32 (x.headD 0) n).toNat) ∧
    (let s : State := sFe
     let h : Hdr := { neg := false, grd := 15, ver1 := true, ctl := 0 }
     let x : List Nat := [0, 1]
     let c : Cls := .gs
     let n : Opnd := .inl 0
     s.d.cur.stamped = false ∧ Runs (.waitc h c n) s h (n.names 1) [] x ∧ (s.op32 (x.headD 0) n).toNat < s.here.count c) ∧
    (let s : State := sM
     let h : Hdr := { neg := false, grd := 15, ver1 := true, ctl := 0 }
     let o : WaitVOp := { cond := .eq, acq := false, shared := true, scope := .die, ty := .b32, base := .v 12, a := .inl 0, disp := 0xfffffff8 }
     let x : List Nat := [0, 1]
     let n := o.ty.bytes
     let ea := waitEa s o
     let me := (begin_ s).agentOf s.d.cur.slot
     let v := fun l => (begin_ s).load (spadKey s.here.blk (ea l).toNat) n
     s.d.cur.stamped = false ∧ s.here.acq = [] ∧ (∀ l ∈ x, ea l % n = 0) ∧
         Runs (.waitV h o) s h (o.base.names (if o.shared then 1 else 2) ++ o.a.names (if o.ty.wide then 2 else 1)) [] x ∧
         o.shared = true ∧ (∀ l ∈ x, 0 ≤ ea l ∧ ea l + n ≤ 1024 * s.myBlk.spad) ∧
         (∀ l ∈ x, (begin_ s).strongBefore s.d.cur.slot [l] s.d.nextId = false ∧
         Sizes s (spadKey s.here.blk (ea l).toNat) n me o.scope s.here.vc) ∧ (∀ l ∈ x, waitHolds s o l (v l))) ∧
    (let s : State := sM
     let h : Hdr := { neg := false, grd := 15, ver1 := true, ctl := 0 }
     let o : WaitVOp := { cond := .eq, acq := false, shared := true, scope := .die, ty := .b32, base := .v 12, a := .v 2, disp := 0 }
     let x : List Nat := [0, 1]
     let n := o.ty.bytes
     let ea := waitEa s o
     let me := (begin_ s).agentOf s.d.cur.slot
     let v := fun l => (begin_ s).load (spadKey s.here.blk (ea l).toNat) n
     s.d.cur.stamped = false ∧ s.here.acq = [] ∧ (∀ l ∈ x, ea l % n = 0) ∧
         Runs (.waitV h o) s h (o.base.names (if o.shared then 1 else 2) ++ o.a.names (if o.ty.wide then 2 else 1)) [] x ∧
         o.shared = true ∧ (∀ l ∈ x, 0 ≤ ea l ∧ ea l + n ≤ 1024 * s.myBlk.spad) ∧
         (∀ l ∈ x, (begin_ s).strongBefore s.d.cur.slot [l] s.d.nextId = false ∧
         Sizes s (spadKey s.here.blk (ea l).toNat) n me o.scope s.here.vc) ∧ (∀ l ∈ x, ¬ waitHolds s o l (v l))) ∧
    (let s : State := sM
     let h : Hdr := { neg := false, grd := 15, ver1 := true, ctl := 0 }
     let o : WaitVOp := { cond := .eq, acq := false, shared := false, scope := .die, ty := .b32, base := .v 10, a := .inl 0, disp := 0xfffffff8 }
     let x : List Nat := [0, 1]
     let lf : Nat → Leaf := lfW s o
     let n := o.ty.bytes
     let ea := waitEa s o
     let me := (begin_ s).agentOf s.d.cur.slot
     s.d.cur.stamped = false ∧ s.here.acq = [] ∧ (∀ l ∈ x, ea l % n = 0) ∧
         Runs (.waitV h o) s h (o.base.names (if o.shared then 1 else 2) ++ o.a.names (if o.ty.wide then 2 else 1)) [] x ∧
         o.shared = false ∧ ((∀ l ∈ x, ea l < 2 ^ 57 ∧
         (begin_ s).translate (slotDie s.d.cur.slot) (ea l).toNat .load (!s.myBlk.priv) = .ok (lf l) ∧
         homeUp s.d (lf l).pa = true ∧ homeFailed s.d (lf l).pa = false ∧ (begin_ s).poisoned (lf l).pa = false ∧
         NoRide s (lf l).pa n ∧ (begin_ s).strongBefore s.d.cur.slot [l] s.d.nextId = false ∧
         (∀ e ∈ s.d.cores, ∀ q ∈ e.2.path, overlap q.pa q.n (lf l).pa n = false) ∧
         (begin_ s).ringBefore s.d.cur.slot l (lf l).pa s.d.nextId = false ∧
         (begin_ s).loadBefore s.d.cur.slot [l] s.d.nextId [((lf l).pa, n)] = false ∧
         (begin_ s).lateBefore [((lf l).pa, n)] false me (some o.scope) s.d.nextId none = false ∧
         ((begin_ s).mixMode (lf l).pa = false ∨ (begin_ s).mixed (lf l).pa n = false) ∧
         Sizes s (lf l).pa n me o.scope s.here.vc ∧ (begin_ s).isEntry ((lf l).pa / 16 * 16) = false ∧
         waitHolds s o l ((begin_ s).load (lf l).pa n)))) ∧
    (let s : State := sWv
     let slot : Nat := 0
     let l : Nat := 1
     let key : Nat := 144115188075856192
     let a : Nat := 859043061
     let id : Nat := 700
     let g : Group := (s.slot? slot).getD Group.gone
     let wt : Wait := { why := .cont [(1, [144115188075856192, 859043061, 700])], iss := 0, word := 1851476698300127181211942, len := 12 }
     let h : Hdr := { neg := false, grd := 15, ver1 := true, ctl := 0 }
     let o : WaitVOp := { cond := .eq, acq := false, shared := true, scope := .die, ty := .b32, base := .v 12, a := .v 2, disp := 0 }
     let args : List (Nat × List Nat) := [(1, [144115188075856192, 859043061, 700])]
     let more : List Nat := []
     l < 32 ∧ s.slot? slot = some g ∧ g.stop = none ∧ (∀ k < 32, (g.thread k).st = .waiting ↔ k = l) ∧
         (g.thread l).wait = some wt ∧ decode true wt.word = .ok (.waitV h o) ∧ wt.why = .cont args ∧
         ((args.find? fun p => p.1 == l) = some (l, key :: a :: id :: more)) ∧ o.shared = true ∧ key ≠ noKey ∧
         (begin_ s).strongBefore slot [l] id = false ∧ Sizes s key o.ty.bytes ((begin_ s).agentOf slot) o.scope g.vc ∧
         condHolds o.cond (tyNum o.ty ((begin_ s).load key o.ty.bytes)) (tyNum o.ty a) = true) := by
  refine ⟨?_, ?_, ?_, ?_, ?_, ?_, ?_, ?_⟩ <;>
    (try simp -zeta only
      [FenceMet, AtGate, BoOk, EngineOn, EngineOnAt, RingAt, RingRoom, GlobOk, PcmdAt, ex_ok, ex_ok_list, ex_die, v_below,
          no_cb_copy, no_cb, all_load, no_load, eq_ok, eq_error, on_die, not_out, all_some2, all_some, is_red, no_b,
          ex_is_ok, ex_ok_some, ex_err_some, ex_is_some, ex_is_error, no_ret, no_comp, ex_copy, no_build, key_all, Unread,
          Stands, no_stage]) <;>
    decide +kernel

theorem witness_Barriers :
    (let s : State := sB1
     let h : Hdr := { neg := false, grd := 15, ver1 := true, ctl := 0 }
     let x : List Nat := [0, 1]
     let sc : Scope := .blk
     let k : BitVec 4 := 0
     let st := fun (u : State) => sget u.here.bar (barNo sc k.toNat) BarSt.zero
     let slot := s.d.cur.slot
     let bar := sget s.myBlk.bars k.toNat Bar.zero
     let full := ∀ j < s.myBlk.gcnt, (begin_ s).groupLive (s.here.blk + j) = true →
     s.here.blk + j = slot ∨ s.here.blk + j ∈ bar.arrived
     s.d.cur.stamped = false ∧ x = s.here.live ∧ FenceMet s sc ∧ (st s).arr = false ∧ (begin_ s).barScopeOk sc = true ∧
         (∃ j < s.myBlk.gcnt, slot = s.here.blk + j) ∧ Runs (.barArrive h sc k) s h [] [] x ∧ sc = .blk ∧
         (∀ e ∈ s.here.owed, ∀ n, Reg.b n ∉ e.dst) ∧ full) ∧
    (let s : State := sB2
     let h : Hdr := { neg := false, grd := 15, ver1 := true, ctl := 0 }
     let x : List Nat := [0, 1]
     let sc : Scope := .blk
     let k : BitVec 4 := 0
     let st := fun (u : State) => sget u.here.bar (barNo sc k.toNat) BarSt.zero
     let slot := s.d.cur.slot
     let bar := sget s.myBlk.bars k.toNat Bar.zero
     let full := ∀ j < s.myBlk.gcnt, (begin_ s).groupLive (s.here.blk + j) = true →
     s.here.blk + j = slot ∨ s.here.blk + j ∈ bar.arrived
     s.d.cur.stamped = false ∧ x = s.here.live ∧ FenceMet s sc ∧ (st s).arr = false ∧ (begin_ s).barScopeOk sc = true ∧
         (∃ j < s.myBlk.gcnt, slot = s.here.blk + j) ∧ Runs (.barArrive h sc k) s h [] [] x ∧ sc = .blk ∧
         (∀ e ∈ s.here.owed, ∀ n, Reg.b n ∉ e.dst) ∧ ¬ full) ∧
    (let s : State := sB4
     let h : Hdr := { neg := false, grd := 15, ver1 := true, ctl := 0 }
     let x : List Nat := [0, 1]
     let sc : Scope := .quad
     let k : BitVec 4 := 0
     let st := fun (u : State) => sget u.here.bar (barNo sc k.toNat) BarSt.zero
     let slot := s.d.cur.slot
     let ln := ((sget? s.d.launches s.myBlk.launch).toList).getD 0 launch
     let key := barKey (barNo sc 0) ((begin_ s).barUnit sc slot)
     let bar := sget ln.bars key Bar.zero
     let full := ∀ q ∈ (begin_ s).launchMembers s.myBlk.launch, (begin_ s).barUnit sc q = (begin_ s).barUnit sc slot →
     q = slot ∨ q ∈ bar.arrived
     s.d.cur.stamped = false ∧ x = s.here.live ∧ FenceMet s sc ∧ (st s).arr = false ∧ (begin_ s).barScopeOk sc = true ∧
         (∃ j < s.myBlk.gcnt, slot = s.here.blk + j) ∧ Runs (.barArrive h sc k) s h [] [] x ∧
         ((sc = .quad ∨ sc = .die ∨ sc = .pkg)) ∧ sget? s.d.launches s.myBlk.launch = some ln ∧ full) ∧
    (let s : State := sB5
     let h : Hdr := { neg := false, grd := 15, ver1 := true, ctl := 0 }
     let x : List Nat := [0, 1]
     let sc : Scope := .quad
     let k : BitVec 4 := 0
     let st := fun (u : State) => sget u.here.bar (barNo sc k.toNat) BarSt.zero
     let slot := s.d.cur.slot
     let ln := ((sget? s.d.launches s.myBlk.launch).toList).getD 0 launch
     let key := barKey (barNo sc 0) ((begin_ s).barUnit sc slot)
     let bar := sget ln.bars key Bar.zero
     let full := ∀ q ∈ (begin_ s).launchMembers s.myBlk.launch, (begin_ s).barUnit sc q = (begin_ s).barUnit sc slot →
     q = slot ∨ q ∈ bar.arrived
     s.d.cur.stamped = false ∧ x = s.here.live ∧ FenceMet s sc ∧ (st s).arr = false ∧ (begin_ s).barScopeOk sc = true ∧
         (∃ j < s.myBlk.gcnt, slot = s.here.blk + j) ∧ Runs (.barArrive h sc k) s h [] [] x ∧
         ((sc = .quad ∨ sc = .die ∨ sc = .pkg)) ∧ sget? s.d.launches s.myBlk.launch = some ln ∧ ¬ full) ∧
    (let s : State := atNow 1000 (sPbar 3 1 2 1 1 [] |> fun s =>
         { s with d := { s.d with launches := s.d.launches.map fun e => (e.1, { e.2 with created := [0,1,2,3] }) } })
     let h : Hdr := { neg := false, grd := 15, ver1 := true, ctl := 0 }
     let x : List Nat := [0, 1]
     let sc : Scope := .sys
     let k : BitVec 4 := 0
     let st := fun (u : State) => sget u.here.bar (barNo sc k.toNat) BarSt.zero
     let slot := s.d.cur.slot
     let ln := ((sget? s.d.launches s.myBlk.launch).toList).getD 0 launch
     let key := podKey ln.pbid ln.pbsys
     let pb := sget s.d.pkg.podBars key PodBar.zero
     let full := 0 < pb.pbn ∧ pb.pbn ≤ pb.pops ∧ (begin_ s).podCreated ln.pbid ln.pbsys = true ∧
     (∀ q ∈ (begin_ s).podMembers ln.pbid ln.pbsys, q = slot ∨ q ∈ pb.bar.arrived) ∧ pb.members ≤ pb.arrived + pb.exited
     s.d.cur.stamped = false ∧ x = s.here.live ∧ FenceMet s sc ∧ (st s).arr = false ∧ (begin_ s).barScopeOk sc = true ∧
         (∃ j < s.myBlk.gcnt, slot = s.here.blk + j) ∧ Runs (.barArrive h sc k) s h [] [] x ∧ ((sc = .pod ∨ sc = .sys)) ∧
         sget? s.d.launches s.myBlk.launch = some ln ∧ full) ∧
    (let s : State := atNow 1000 (sPbar 3 1 0 1 2 [])
     let h : Hdr := { neg := false, grd := 15, ver1 := true, ctl := 0 }
     let x : List Nat := [0, 1]
     let sc : Scope := .sys
     let k : BitVec 4 := 0
     let st := fun (u : State) => sget u.here.bar (barNo sc k.toNat) BarSt.zero
     let slot := s.d.cur.slot
     let ln := ((sget? s.d.launches s.myBlk.launch).toList).getD 0 launch
     let key := podKey ln.pbid ln.pbsys
     let pb := sget s.d.pkg.podBars key PodBar.zero
     let full := 0 < pb.pbn ∧ pb.pbn ≤ pb.pops ∧ (begin_ s).podCreated ln.pbid ln.pbsys = true ∧
     (∀ q ∈ (begin_ s).podMembers ln.pbid ln.pbsys, q = slot ∨ q ∈ pb.bar.arrived) ∧ pb.members ≤ pb.arrived + pb.exited
     s.d.cur.stamped = false ∧ x = s.here.live ∧ FenceMet s sc ∧ (st s).arr = false ∧ (begin_ s).barScopeOk sc = true ∧
         (∃ j < s.myBlk.gcnt, slot = s.here.blk + j) ∧ Runs (.barArrive h sc k) s h [] [] x ∧ ((sc = .pod ∨ sc = .sys)) ∧
         sget? s.d.launches s.myBlk.launch = some ln ∧ ¬ full) ∧
    (let s : State := sB1
     let h : Hdr := { neg := false, grd := 15, ver1 := true, ctl := 0 }
     let x : List Nat := [0, 1]
     let sc : Scope := .blk
     let k : BitVec 4 := 0
     let st := fun (u : State) => sget u.here.bar (barNo sc k.toNat) BarSt.zero
     (begin_ s).barScopeOk sc = true ∧ Runs (.barWait h sc k) s h [] [] x ∧ (st s).owe = false) ∧
    (let s : State := sBw 4
     let h : Hdr := { neg := false, grd := 15, ver1 := true, ctl := 0 }
     let x : List Nat := [0, 1]
     let sc : Scope := .blk
     let k : BitVec 4 := 3
     let st := fun (u : State) => sget u.here.bar (barNo sc k.toNat) BarSt.zero
     (begin_ s).barScopeOk sc = true ∧ Runs (.barWait h sc k) s h [] [] x ∧ (st s).owe = true ∧
         (st s).phase < ((begin_ s).barOf sc k.toNat).phase) ∧
    (let s : State := sBw 4
     let h : Hdr := { neg := false, grd := 15, ver1 := true, ctl := 0 }
     let x : List Nat := [0, 1]
     let sc : Scope := .quad
     let k : BitVec 4 := 0
     let st := fun (u : State) => sget u.here.bar (barNo sc k.toNat) BarSt.zero
     (begin_ s).barScopeOk sc = true ∧ Runs (.barWait h sc k) s h [] [] x ∧ (st s).owe = true ∧
         ((begin_ s).barOf sc k.toNat).phase ≤ (st s).phase) := by
  refine ⟨?_, ?_, ?_, ?_, ?_, ?_, ?_, ?_, ?_⟩ <;>
    (try simp -zeta only
      [FenceMet, AtGate, BoOk, EngineOn, EngineOnAt, RingAt, RingRoom, GlobOk, PcmdAt, ex_ok, ex_ok_list, ex_die, v_below,
          no_cb_copy, no_cb, all_load, no_load, eq_ok, eq_error, on_die, not_out, all_some2, all_some, is_red, no_b,
          ex_is_ok, ex_ok_some, ex_err_some, ex_is_some, ex_is_error, no_ret, no_comp, ex_copy, no_build, key_all, Unread,
          Stands, no_stage]) <;>
    decide +kernel

theorem witness_BarrierObjects :
    (let s : State := sO
     let h : Hdr := { neg := false, grd := 15, ver1 := true, ctl := 0 }
     let a : Opnd := .v 12
     let n : Opnd := .v 14
     let x : List Nat := [0, 1]
     let apart := ∀ k ∈ x, ∀ l ∈ x, k ≠ l → boOfs s a k ≠ boOfs s a l
     memWf s.mem = true ∧ BoOk s a x ∧ s.d.cur.stamped = false ∧
         (∀ l ∈ x, (s.here.thread l).helper = false ∧ Unread s (boKey s a l) 16) ∧ apart ∧ s.here.acq = [] ∧
         Runs (.boInit h a n) s h (a.names 1 ++ n.names 1) [] x) ∧
    (let s : State := sO
     let h : Hdr := { neg := false, grd := 15, ver1 := true, ctl := 0 }
     let a : Opnd := .v 12
     let n : Opnd := .v 14
     let x : List Nat := [0, 1]
     let apart := ∀ k ∈ x, ∀ l ∈ x, k ≠ l → boOfs s a k ≠ boOfs s a l
     memWf s.mem = true ∧ BoOk s a x ∧ s.d.cur.stamped = false ∧
         (∀ l ∈ x, (s.here.thread l).helper = false ∧ Unread s (boKey s a l) 16) ∧ apart ∧ s.here.acq = [] ∧
         Runs (.boExpect h a n) s h (a.names 1 ++ n.names 1) [] x) ∧
    (let s : State := sO
     let h : Hdr := { neg := false, grd := 15, ver1 := true, ctl := 0 }
     let a : Opnd := .v 12
     let d : Dst := .v 8
     let x : List Nat := [0, 1]
     let apart := ∀ k ∈ x, ∀ l ∈ x, k ≠ l → boOfs s a k ≠ boOfs s a l
     memWf s.mem = true ∧ BoOk s a x ∧ s.d.cur.stamped = false ∧
         (∀ l ∈ x, (s.here.thread l).helper = false ∧ Unread s (boKey s a l) 16) ∧ FenceMet s .blk ∧
         Runs (.boArrive h d a) s h (a.names 1) (d.names 1) x ∧ apart ∧ (∀ l ∈ x, boDone s a l = false)) ∧
    (let s : State := sO
     let h : Hdr := { neg := false, grd := 15, ver1 := true, ctl := 0 }
     let a : Opnd := .v 12
     let n : Opnd := .v 14
     let d : Dst := .v 8
     let x : List Nat := [0, 1]
     let apart := ∀ k ∈ x, ∀ l ∈ x, k ≠ l → boOfs s a k ≠ boOfs s a l
     memWf s.mem = true ∧ BoOk s a x ∧ s.d.cur.stamped = false ∧
         (∀ l ∈ x, (s.here.thread l).helper = false ∧ Unread s (boKey s a l) 16) ∧ FenceMet s .blk ∧
         Runs (.boArriveExpect h d a n) s h (a.names 1 ++ n.names 1) (d.names 1) x ∧ apart ∧ (∀ l ∈ x, boDone s a l = false)) ∧
    (let s : State := sO
     let h : Hdr := { neg := false, grd := 15, ver1 := true, ctl := 0 }
     let a : Opnd := .v 12
     let d : Dst := .v 8
     let x : List Nat := [0, 1]
     memWf s.mem = true ∧ BoOk s a x ∧ s.d.cur.stamped = false ∧
         (∀ l ∈ x, (s.here.thread l).helper = false ∧ Unread s (boKey s a l) 16) ∧ FenceMet s .blk ∧
         Runs (.boArriveOnce h d a) s h (a.names 1) (d.names 1) x ∧ boDone s a (x.headD 0) = false) ∧
    (let s : State := sO
     let h : Hdr := { neg := false, grd := 15, ver1 := true, ctl := 0 }
     let a : Opnd := .v 12
     let n : Opnd := .v 14
     let d : Dst := .v 8
     let x : List Nat := [0, 1]
     memWf s.mem = true ∧ BoOk s a x ∧ s.d.cur.stamped = false ∧
         (∀ l ∈ x, (s.here.thread l).helper = false ∧ Unread s (boKey s a l) 16) ∧ FenceMet s .blk ∧
         Runs (.boArriveOnceExpect h d a n) s h (a.names 1 ++ n.names 1) (d.names 1) x ∧ boDone s a (x.headD 0) = false) ∧
    (let s : State := sO
     let h : Hdr := { neg := false, grd := 15, ver1 := true, ctl := 0 }
     let a : Opnd := .v 12
     let n : Opnd := .v 15
     let x : List Nat := [0, 1]
     let val := fun l => (s.op32 l n).toNat
     memWf s.mem = true ∧ BoOk s a x ∧ s.d.cur.stamped = false ∧
         (∀ l ∈ x, (s.here.thread l).helper = false ∧ Unread s (boKey s a l) 16) ∧ s.here.acq = [] ∧
         Runs (.boWait h a n) s h (a.names 1 ++ n.names 1) [] x ∧ (∀ l ∈ x, boPhase s a l ≠ val l)) ∧
    (let s : State := sO
     let h : Hdr := { neg := false, grd := 15, ver1 := true, ctl := 0 }
     let a : Opnd := .v 12
     let n : Opnd := .v 14
     let x : List Nat := [0, 1]
     let val := fun l => (s.op32 l n).toNat
     memWf s.mem = true ∧ BoOk s a x ∧ s.d.cur.stamped = false ∧
         (∀ l ∈ x, (s.here.thread l).helper = false ∧ Unread s (boKey s a l) 16) ∧ s.here.acq = [] ∧
         Runs (.boWait h a n) s h (a.names 1 ++ n.names 1) [] x ∧ (∀ l ∈ x, boPhase s a l = val l)) := by
  refine ⟨?_, ?_, ?_, ?_, ?_, ?_, ?_, ?_⟩ <;>
    (try simp -zeta only
      [FenceMet, AtGate, BoOk, EngineOn, EngineOnAt, RingAt, RingRoom, GlobOk, PcmdAt, ex_ok, ex_ok_list, ex_die, v_below,
          no_cb_copy, no_cb, all_load, no_load, eq_ok, eq_error, on_die, not_out, all_some2, all_some, is_red, no_b,
          ex_is_ok, ex_ok_some, ex_err_some, ex_is_some, ex_is_error, no_ret, no_comp, ex_copy, no_build, key_all, Unread,
          Stands, no_stage]) <;>
    decide +kernel

theorem witness_EngineCopies :
    (let o : CopyOp := { bo := false, col := false, a := .v 34, b := .v 33, c := .v 0, tr := 1, tk := 20, ext := 0x00002000 }
     let s : State := sC |> setT 1 0xffffffffffffffffffffffffffffffff
     let h : Hdr := { neg := false, grd := 15, ver1 := true, ctl := 0 }
     let x : List Nat := [0, 1]
     let col := s.first x o.b
     let run := fun i => Runs i s h (copySrc o) [.s o.tk.toNat] x
     EngineOn s eCopy ∧ recBad (s.here.readT o.tr.toNat) = true ∧ memWf s.mem = true ∧ s.here.owed = [] ∧
         run (.copyT h o) ∧ run (.copyG h o) ∧ 0 < col ∧ col ≤ 8) ∧
    (let s : State := sC
     let h : Hdr := { neg := false, grd := 15, ver1 := true, ctl := 0 }
     let o : CopyOp := { bo := false, col := false, a := .v 30, b := .v 31, c := .v 0, tr := 1, tk := 20, ext := 0x00002000 }
     let x : List Nat := [0, 1]
     let w := begin_ s
     let l := x.headD 0
     let f := s.tile o.tr
     let row := s.first x o.a
     let col := s.first x o.b
     let off := o.ext.toNat
     let run := fun i => Runs i s h (copySrc o) [.s o.tk.toNat] x
     EngineOn s eCopy ∧ recBad (s.here.readT o.tr.toNat) = false ∧ off % 16 = 0 ∧ ((o.bo = true → BoOk s o.c [l])) ∧
         col % 32 = 0 ∧ Fits s off f.size ∧ run (.copyT h o) ∧
         ((∃ rows, collect ((List.range f.trows).map fun r => w.tensorRow f (row + r) col f.tcols) = .ok rows))) ∧
    (let s : State := sCb
     let h : Hdr := { neg := false, grd := 15, ver1 := true, ctl := 0 }
     let o : CopyOp := { bo := false, col := false, a := .v 30, b := .v 31, c := .v 0, tr := 1, tk := 20, ext := 0x00002000 }
     let x : List Nat := [0, 1]
     let w := begin_ s
     let l := x.headD 0
     let b := s.here.blk
     let f := s.tile o.tr
     let row := s.first x o.a
     let col := s.first x o.b
     let off := o.ext.toNat
     let run := fun i => Runs i s h (copySrc o) [.s o.tk.toNat] x
     let cb := (s.myBlk.cb.toList).getD 0 ⟨0,0,0,[]⟩
     let rb := f.tcols * (4 * 2 ^ cb.vec)
     EngineOn s eCopy ∧ recBad (s.here.readT o.tr.toNat) = false ∧ off % 16 = 0 ∧ ((o.bo = true → BoOk s o.c [l])) ∧
         col % 32 = 0 ∧ Fits s off (f.trows * rb) ∧ f.ty = .b8 ∧ s.myBlk.cb = some cb ∧ w.cbLoading b = false ∧
         ((f.z = 0 ∨ rb % swzSpan f.z = 0)) ∧ run (.copyTCb h o) ∧
         ((∃ rows, collect ((List.range f.trows).map fun r => w.tensorRow f (row + r) col f.tcols) = .ok rows))) ∧
    (let s : State := sC
     let h : Hdr := { neg := false, grd := 15, ver1 := true, ctl := 0 }
     let o : CopyOp := { bo := false, col := false, a := .v 30, b := .v 31, c := .v 0, tr := 1, tk := 20, ext := 0x00002000 }
     let x : List Nat := [0, 1]
     let w := begin_ s
     let l := x.headD 0
     let b := s.here.blk
     let f := s.tile o.tr
     let row := s.first x o.a
     let col := s.first x o.b
     let off := o.ext.toNat
     let run := fun i => Runs i s h (copySrc o) [.s o.tk.toNat] x
     let ps := ((w.storeRows f row col off).toOption.toList).getD 0 []
     EngineOn s eCopy ∧ recBad (s.here.readT o.tr.toNat) = false ∧ off % 16 = 0 ∧ ((o.bo = true → BoOk s o.c [l])) ∧
         col % 32 = 0 ∧ Fits s off f.size ∧ realLanes s x ≠ [] ∧
         w.spadAnyBusy b (· == .mtx) s.d.nextId (f.ranges off) = false ∧ run (.copyS h o) ∧
         w.storeRows f row col off = .ok ps) ∧
    (let s : State := sC
     let h : Hdr := { neg := false, grd := 15, ver1 := true, ctl := 0 }
     let o : CopyOp := { bo := false, col := false, a := .v 34, b := .v 33, c := .v 0, tr := 3, tk := 20, ext := 0x00002000 }
     let x : List Nat := [0, 1]
     let w := begin_ s
     let l := x.headD 0
     let b := s.here.blk
     let f := s.tile o.tr
     let row := s.first x o.a
     let col := s.first x o.b
     let off := o.ext.toNat
     let run := fun i => Runs i s h (copySrc o) [.s o.tk.toNat] x
     let rg := 256
     let idx := (List.range col).map fun j => w.load (spadKey b (row + 4 * j)) 4
     EngineOn s eCopy ∧ recBad (s.here.readT o.tr.toNat) = false ∧ off % 16 = 0 ∧ ((o.bo = true → BoOk s o.c [l])) ∧
         0 < col ∧ col ≤ 8 ∧ f.rg = some rg ∧ row % 4 = 0 ∧ Fits s row (4 * col) ∧ Fits s off (col * rg) ∧
         w.spadBusy b (· == .mtx) s.d.nextId row (4 * col) = false ∧ run (.copyG h o) ∧
         ((∃ rows, collect (idx.map fun i => w.gatherRow f rg i) = .ok rows))) ∧
    (let s : State := sC
     let h : Hdr := { neg := false, grd := 15, ver1 := true, ctl := 0 }
     let x : List Nat := [0, 1]
     let w := begin_ s
     let l := x.headD 0
     let b := s.here.blk
     let vec := 0
     let tk := 20
     let a := .s 12
     let n := .inl 3
     let va := (s.op64 l a).toNat
     let e := s.first x n
     EngineOn s eCopy ∧ 0 < e ∧ e ≤ 256 ∧ va % 16 = 0 ∧
         Runs (.cbload h vec tk a n) s h (a.names 2 ++ n.names 1) [.s tk.toNat] x ∧
         (∃ ks, w.keysOf .engR va (4 * 2 ^ vec.toNat * e) = .ok ks) ∧
         ((b ∈ w.cbBlocks (slotCore s.d.cur.slot) ∨ (w.cbBlocks (slotCore s.d.cur.slot)).length < 4))) ∧
    (let s : State := sC
     let h : Hdr := { neg := false, grd := 15, ver1 := true, ctl := 0 }
     let x : List Nat := [0, 1]
     let b := s.here.blk
     EngineOn s eCopy ∧ ((∀ e ∈ s.d.ops, e.blk = b → (∀ c, e.kind ≠ .copy (some c)) ∧ ∀ c, e.kind ≠ .codebook c)) ∧
         Runs (.cbfree h) s h [] [] x) := by
  refine ⟨?_, ?_, ?_, ?_, ?_, ?_, ?_⟩ <;>
    (try simp -zeta only
      [FenceMet, AtGate, BoOk, EngineOn, EngineOnAt, RingAt, RingRoom, GlobOk, PcmdAt, ex_ok, ex_ok_list, ex_die, v_below,
          no_cb_copy, no_cb, all_load, no_load, eq_ok, eq_error, on_die, not_out, all_some2, all_some, is_red, no_b,
          ex_is_ok, ex_ok_some, ex_err_some, ex_is_some, ex_is_error, no_ret, no_comp, ex_copy, no_build, key_all, Unread,
          Stands, no_stage]) <;>
    decide +kernel

theorem witness_EngineMatrix :
    (let s : State := sX
     let x : List Nat := [0, 1]
     let h : Hdr := { neg := false, grd := 15, ver1 := true, ctl := 0 }
     let w := begin_ s
     let join := fun (j : BitVec 3) => sget s.myBlk.joins j.toNat Join.idle
     let j := 3
     let mask := .inl 1
     let ds := w.declaredOf s.here.blk (s.first x mask)
     Runs (.jArm h j mask) s h (mask.names 1) [] x ∧ (join j).st = .idle ∧ ds ≠ []) ∧
    (let s : State := sX
     let x : List Nat := [0, 1]
     let h : Hdr := { neg := false, grd := 15, ver1 := true, ctl := 0 }
     let join := fun (j : BitVec 3) => sget s.myBlk.joins j.toNat Join.idle
     let j := 1
     let mask := .inl 1
     Runs (.jArm h j mask) s h (mask.names 1) [] x ∧ (join j).st = .armed ∧ memWf s.mem = true ∧ s.here.owed = []) ∧
    (let s : State := sX
     let x : List Nat := [0, 1]
     let h : Hdr := { neg := false, grd := 15, ver1 := true, ctl := 0 }
     let join := fun (j : BitVec 3) => sget s.myBlk.joins j.toNat Join.idle
     let ts := x.map fun k => 32 * s.here.gidx + k
     let o : MmaOp := { j := 3, acc := 2, row0 := .inl 0, col0 := .inl 0, k0 := .inl 0, ta := 1, tb := 2, aS := false, bS := false, ftz := false, md := 0 }
     let sp : Bool := false
     let i : Instr := if sp then .smma h o else .mma h o
     let jr := join o.j
     s.d.cur.stamped = false ∧ Runs i s h (o.row0.names 1 ++ o.col0.names 1 ++ o.k0.names 1 ++ tNames o.ta ++
         tNames o.tb ++ [.a o.acc.toNat]) [] x ∧ ((jr.st ≠ .armed ∨ ∃ t ∈ ts, t ∉ jr.declared ∨ t ∈ jr.signed)) ∧
         memWf s.mem = true ∧ s.here.owed = []) ∧
    (let s : State := sX
     let x : List Nat := [0, 1]
     let h : Hdr := { neg := false, grd := 15, ver1 := true, ctl := 0 }
     let w := begin_ s
     let l := x.headD 0
     let join := fun (j : BitVec 3) => sget s.myBlk.joins j.toNat Join.idle
     let ts := x.map fun k => 32 * s.here.gidx + k
     let o : MmaOp := { j := 1, acc := 2, row0 := .inl 0, col0 := .inl 0, k0 := .inl 0, ta := 1, tb := 2, aS := true, bS := true, ftz := false, md := 0 }
     let sp : Bool := false
     let i : Instr := if sp then .smma h o else .mma h o
     let jr := join o.j
     let signed := jr.signed ++ ts
     let same := jr.signed = [] ∨ sigWord jr.word.toNat = sigWord s.d.cur.word
     s.d.cur.stamped = false ∧ Runs i s h (o.row0.names 1 ++ o.col0.names 1 ++ o.k0.names 1 ++ tNames o.ta ++
         tNames o.tb ++ [.a o.acc.toNat]) [] x ∧ EngineOn s eMatrix ∧ jr.st = .armed ∧
         (∀ t ∈ ts, t ∈ jr.declared ∧ t ∉ jr.signed) ∧ (∀ t ∈ jr.declared, t ∈ signed) ∧
         (∃ e, w.mmaChecks o sp l = .ok e) ∧ same ∧ ResvRoom s ∧
         ((∀ t ∈ jr.signed, s.here.blk + t / 32 = s.d.cur.slot → t % 32 ∉ s.d.cur.lanes)) ∧ jr.signed = []) ∧
    (let s : State := sXj 0
     let x : List Nat := [0, 1]
     let h : Hdr := { neg := false, grd := 15, ver1 := true, ctl := 0 }
     let w := begin_ s
     let l := x.headD 0
     let join := fun (j : BitVec 3) => sget s.myBlk.joins j.toNat Join.idle
     let ts := x.map fun k => 32 * s.here.gidx + k
     let o : MmaOp := { j := 1, acc := 2, row0 := .inl 0, col0 := .inl 0, k0 := .inl 0, ta := 1, tb := 2, aS := true, bS := true, ftz := false, md := 0 }
     let sp : Bool := false
     let i : Instr := if sp then .smma h o else .mma h o
     let jr := join o.j
     let signed := jr.signed ++ ts
     let same := jr.signed = [] ∨ sigWord jr.word.toNat = sigWord s.d.cur.word
     s.d.cur.stamped = false ∧ Runs i s h (o.row0.names 1 ++ o.col0.names 1 ++ o.k0.names 1 ++ tNames o.ta ++
         tNames o.tb ++ [.a o.acc.toNat]) [] x ∧ EngineOn s eMatrix ∧ jr.st = .armed ∧
         (∀ t ∈ ts, t ∈ jr.declared ∧ t ∉ jr.signed) ∧ (∀ t ∈ jr.declared, t ∈ signed) ∧
         (∃ e, w.mmaChecks o sp l = .ok e) ∧ same ∧ ResvRoom s ∧
         ((∀ t ∈ jr.signed, s.here.blk + t / 32 = s.d.cur.slot → t % 32 ∉ s.d.cur.lanes)) ∧ jr.signed ≠ []) ∧
    (let s : State := sXj 0xffffffff
     let x : List Nat := [0, 1]
     let h : Hdr := { neg := false, grd := 15, ver1 := true, ctl := 0 }
     let w := begin_ s
     let l := x.headD 0
     let join := fun (j : BitVec 3) => sget s.myBlk.joins j.toNat Join.idle
     let ts := x.map fun k => 32 * s.here.gidx + k
     let o : MmaOp := { j := 1, acc := 2, row0 := .inl 0, col0 := .inl 0, k0 := .inl 0, ta := 1, tb := 2, aS := true, bS := true, ftz := false, md := 0 }
     let sp : Bool := false
     let i : Instr := if sp then .smma h o else .mma h o
     let jr := join o.j
     let signed := jr.signed ++ ts
     let same := jr.signed = [] ∨ sigWord jr.word.toNat = sigWord s.d.cur.word
     s.d.cur.stamped = false ∧ Runs i s h (o.row0.names 1 ++ o.col0.names 1 ++ o.k0.names 1 ++ tNames o.ta ++
         tNames o.tb ++ [.a o.acc.toNat]) [] x ∧ EngineOn s eMatrix ∧ jr.st = .armed ∧
         (∀ t ∈ ts, t ∈ jr.declared ∧ t ∉ jr.signed) ∧ (∀ t ∈ jr.declared, t ∈ signed) ∧
         (∃ e, w.mmaChecks o sp l = .ok e) ∧ ¬ same ∧ memWf s.mem = true ∧ s.here.owed = []) ∧
    (let s : State := sX
     let x : List Nat := [0, 1]
     let h : Hdr := { neg := false, grd := 15, ver1 := true, ctl := 0 }
     let join := fun (j : BitVec 3) => sget s.myBlk.joins j.toNat Join.idle
     let ts := x.map fun k => 32 * s.here.gidx + k
     let o : MmaOp := { j := 2, acc := 2, row0 := .inl 0, col0 := .inl 0, k0 := .inl 0, ta := 1, tb := 2, aS := false, bS := false, ftz := false, md := 0 }
     let sp : Bool := false
     let i : Instr := if sp then .smma h o else .mma h o
     let jr := join o.j
     let signed := jr.signed ++ ts
     s.d.cur.stamped = false ∧ Runs i s h (o.row0.names 1 ++ o.col0.names 1 ++ o.k0.names 1 ++ tNames o.ta ++
         tNames o.tb ++ [.a o.acc.toNat]) [] x ∧ EngineOn s eMatrix ∧ jr.st = .armed ∧
         (∀ t ∈ ts, t ∈ jr.declared ∧ t ∉ jr.signed) ∧ (∃ t ∈ jr.declared, t ∉ signed) ∧ jr.signed = []) ∧
    (let s : State := sXj 0
     let x : List Nat := [0]
     let h : Hdr := { neg := true, grd := 1, ver1 := true, ctl := 0 }
     let join := fun (j : BitVec 3) => sget s.myBlk.joins j.toNat Join.idle
     let ts := x.map fun k => 32 * s.here.gidx + k
     let o : MmaOp := { j := 1, acc := 2, row0 := .inl 0, col0 := .inl 0, k0 := .inl 0, ta := 1, tb := 2, aS := false, bS := false, ftz := false, md := 0 }
     let sp : Bool := false
     let i : Instr := if sp then .smma h o else .mma h o
     let jr := join o.j
     let signed := jr.signed ++ ts
     s.d.cur.stamped = false ∧ Runs i s h (o.row0.names 1 ++ o.col0.names 1 ++ o.k0.names 1 ++ tNames o.ta ++
         tNames o.tb ++ [.a o.acc.toNat]) [] x ∧ EngineOn s eMatrix ∧ jr.st = .armed ∧
         (∀ t ∈ ts, t ∈ jr.declared ∧ t ∉ jr.signed) ∧ (∃ t ∈ jr.declared, t ∉ signed) ∧ jr.signed ≠ []) ∧
    (let s : State := sX
     let h : Hdr := { neg := false, grd := 15, ver1 := true, ctl := 0 }
     let x : List Nat := [0, 1]
     let sp := false
     let acc := 2
     let row0 := .inl 0
     let col0 := .inl 0
     let tr := 1
     let f := s.tile tr
     EngineOn s eMatrix ∧ ResvRoom s ∧ Runs (.mxLd h acc sp row0 col0 tr) s h (row0.names 1 ++
         (if sp then [] else col0.names 1) ++ tNames tr ++ [.a acc.toNat]) [] x ∧
         ((recBad (s.here.readT tr.toNat) = true ∨ f.ty ≠ .f32 ∨ f.trows ≠ 64 ∨ f.tcols ≠ 64)) ∧ memWf s.mem = true ∧
         s.here.owed = []) ∧
    (let s : State := sX
     let h : Hdr := { neg := false, grd := 15, ver1 := true, ctl := 0 }
     let x : List Nat := [0, 1]
     let w := begin_ s
     let sp := true
     let acc := 2
     let row0 := .inl 0
     let col0 := .v 0
     let tr := 3
     let f := s.tile tr
     let row := s.first x row0
     EngineOn s eMatrix ∧ ResvRoom s ∧ Runs (.mxLd h acc sp row0 col0 tr) s h (row0.names 1 ++
         (if sp then [] else col0.names 1) ++ tNames tr ++ [.a acc.toNat]) [] x ∧ recBad (s.here.readT tr.toNat) = false ∧
         f.ty = .f32 ∧ f.trows = 64 ∧ f.tcols = 64 ∧ ((sp = true → row % 16 = 0 ∧ Fits s row f.size)) ∧
         (∃ bs, w.operand f sp row (s.first x col0) = .ok bs)) ∧
    (let s : State := sX
     let x : List Nat := [0, 1]
     let h : Hdr := { neg := false, grd := 15, ver1 := true, ctl := 0 }
     let acc := 2
     EngineOn s eMatrix ∧ ResvRoom s ∧ Runs (.mxZero h acc) s h [.a acc.toNat] [] x) ∧
    (let s : State := sX
     let x : List Nat := [0, 1]
     let h : Hdr := { neg := false, grd := 15, ver1 := true, ctl := 0 }
     let w := begin_ s
     let o : MxStOp := { acc := 3, row0 := .inl 0, col0 := .inl 0, out := 3, ta := 1, tb := 2, rnd := .rne, sat := false, ftz := true, sp := true }
     let r := s.here.readT o.out.toNat
     let f := tileOf r
     let ta := s.here.readT o.ta.toNat
     let tb := s.here.readT o.tb.toNat
     let row := s.first x o.row0
     let col := s.first x o.col0
     EngineOn s eMatrix ∧ ResvRoom s ∧ recBad r = false ∧ recBad ta = false ∧ recBad tb = false ∧ f.trows = 64 ∧
         f.tcols = 64 ∧ mxStTy f.ty = true ∧ ((o.ftz = true → f.ty = .f32)) ∧
         ((o.sp = false → (f.ty.isMx = true ∨ f.b = 6 ∨ f.b = 4) → col % 32 = 0)) ∧
         ((o.sp = true → row % 16 = 0 ∧ Fits s row f.size)) ∧ realLanes s x ≠ [] ∧
         Runs (.mxSt h o) s h (o.row0.names 1 ++ (if o.sp then [] else o.col0.names 1) ++ tNames o.out ++ tNames o.ta ++
         tNames o.tb ++ [.a o.acc.toNat]) [] x ∧ (∃ ps, w.outParts f o.sp row col = .ok ps)) := by
  refine ⟨?_, ?_, ?_, ?_, ?_, ?_, ?_, ?_, ?_, ?_, ?_, ?_⟩ <;>
    (try simp -zeta only
      [FenceMet, AtGate, BoOk, EngineOn, EngineOnAt, RingAt, RingRoom, GlobOk, PcmdAt, ex_ok, ex_ok_list, ex_die, v_below,
          no_cb_copy, no_cb, all_load, no_load, eq_ok, eq_error, on_die, not_out, all_some2, all_some, is_red, no_b,
          ex_is_ok, ex_ok_some, ex_err_some, ex_is_some, ex_is_error, no_ret, no_comp, ex_copy, no_build, key_all, Unread,
          Stands, no_stage]) <;>
    decide +kernel

theorem witness_RecordsIndex :
    (let s : State := sM
     let h : Hdr := { neg := false, grd := 15, ver1 := true, ctl := 0 }
     let x : List Nat := [0, 1]
     let l := x.headD 0
     let t := 3
     let a := .v 12
     let disp := 0
     let ea : Int := ((s.op32 l a).toNat : Int) + disp.toInt
     s.here.acq = [] ∧ ea % 32 = 0 ∧ 0 ≤ ea ∧ Fits s ea.toNat 32 ∧
         Runs (.tload h t true a disp) s h (a.names 1) (tNames t) x) ∧
    (let s : State := sM
     let h : Hdr := { neg := false, grd := 15, ver1 := true, ctl := 0 }
     let x : List Nat := [0, 1]
     let w := begin_ s
     let l := x.headD 0
     let t := 3
     let a := .inl 0
     let disp := 0
     let ea : Int := (((s.op64 l a).toNat : Int) + disp.toInt) % 2 ^ 64
     s.here.acq = [] ∧ ea % 32 = 0 ∧ ea < 2 ^ 57 ∧
         (∃ lf, w.translate (slotDie s.d.cur.slot) ea.toNat .load (!s.myBlk.priv) = .ok lf) ∧
         Runs (.tload h t false a disp) s h (a.names 2) (tNames t) x) ∧
    (let s : State := sM
     let h : Hdr := { neg := false, grd := 15, ver1 := true, ctl := 0 }
     let x : List Nat := [0, 1]
     let t := 3
     let m := 1
     let q : BitVec 2 := 0
     let a := .v 12
     Runs (.tset h t m q a) s h (a.names 2 ++ tNames m) (tNames t) x) ∧
    (let s : State := sM
     let h : Hdr := { neg := false, grd := 15, ver1 := true, ctl := 0 }
     let x : List Nat := [0, 1]
     let w := begin_ s
     let l := x.headD 0
     let b := s.here.blk
     let o : CopyOp := { bo := false, col := false, a := .v 34, b := .v 0, c := .v 0, tr := 0, tk := 20, ext := 0x00002008 }
     let rk := [[0, 1, 2, 3]]
     let sa := s.first x o.a
     let rp := rk.map fun (w : List Nat) => bytesNat (w.map s.byte)
     let off := o.ext.toNat
     let desc := w.load (spadKey b sa) 32
     let nr := desc / 2 ^ 192 % 2 ^ 32
     let r := walkOf (desc / 2 ^ 160 % 2 ^ 32) nr (desc / 2 ^ 224) rp
     EngineOn s eIndex ∧ ((o.bo = true → BoOk s o.c [l])) ∧ w.spadBusy b anyCls s.d.nextId sa 32 = false ∧ sa % 16 = 0 ∧
         off % 8 = 0 ∧ Fits s sa 32 ∧ nr ≤ 4096 ∧ desc / 2 ^ 57 % 2 ^ 7 = 0 ∧ desc / 2 ^ 121 % 2 ^ 39 = 0 ∧ desc % 4 = 0 ∧
         desc / 2 ^ 64 % 4 = 0 ∧ w.rowKeys (desc % 2 ^ 57) (desc / 2 ^ 160 % 2 ^ 32) nr = .ok rk ∧
         w.readNow rk.flatten = true ∧ (∀ k ∈ rk.flatten, s.d.rideOf k = none ∧ w.deadAt k true = false ∧ NoRace s k) ∧
         Fits s off (8 * r.1.length) ∧ ((∃ ks,
         collect (r.1.map fun c => w.keysOf .engR ((desc / 2 ^ 64 % 2 ^ 57 + 4 * c.1 : Nat) : Int) 4) = .ok ks)) ∧
         Runs (.idxWalk h o) s h (o.a.names 1 ++ (if o.bo then o.c.names 1 else [])) [.s o.tk.toNat] x) ∧
    (let s : State := sI 0
     let h : Hdr := { neg := false, grd := 15, ver1 := true, ctl := 0 }
     let x : List Nat := [0, 1]
     let w := begin_ s
     let l := x.headD 0
     let b := s.here.blk
     let o : CopyOp := { bo := false, col := false, a := .v 35, b := .inl 1, c := .v 0, tr := 3, tk := 20, ext := 0x2010 }
     let rg := 256
     let f := s.tile o.tr
     let lst := s.first x o.a
     let n := s.first x o.b
     let off := o.ext.toNat
     let xs := (List.range n).map fun j => w.load (spadKey b (lst + 8 * j + (if o.col then 4 else 0))) 4
     EngineOn s eIndex ∧ ((o.bo = true → BoOk s o.c [l])) ∧ 0 < n ∧ n ≤ 4096 ∧ recBad (s.here.readT o.tr.toNat) = false ∧
         f.rg = some rg ∧ lst % 8 = 0 ∧ off % 16 = 0 ∧ Fits s lst (8 * n) ∧ Fits s off (n * f.trows * rg) ∧
         w.spadBusy b anyCls s.d.nextId lst (8 * n) = false ∧
         ((∃ rows, collect ((xs.flatMap fun v => (List.range f.trows).map fun t => v * f.trows + t).map fun r =>
         w.gatherRow f rg r) = .ok rows)) ∧ Runs (.idxGather h o) s h (copySrc o) [.s o.tk.toNat] x) ∧
    (let s : State := sM
     let h : Hdr := { neg := false, grd := 15, ver1 := true, ctl := 0 }
     let x : List Nat := [0, 1]
     let b := s.here.blk
     let o : RebalOp := { tot := false, tk := 0, d := .v 8, a := .v 4, b := .v 3, c := .inl 0 }
     Runs (.rebal h o) s h (o.a.names 1 ++ o.b.names 1 ++ o.c.names 1) (o.d.names 2 ++
         (if o.tot then [.s o.tk.toNat] else [])) x) := by
  refine ⟨?_, ?_, ?_, ?_, ?_, ?_⟩ <;>
    (try simp -zeta only
      [FenceMet, AtGate, BoOk, EngineOn, EngineOnAt, RingAt, RingRoom, GlobOk, PcmdAt, ex_ok, ex_ok_list, ex_die, v_below,
          no_cb_copy, no_cb, all_load, no_load, eq_ok, eq_error, on_die, not_out, all_some2, all_some, is_red, no_b,
          ex_is_ok, ex_ok_some, ex_err_some, ex_is_some, ex_is_error, no_ret, no_comp, ex_copy, no_build, key_all, Unread,
          Stands, no_stage]) <;>
    decide +kernel

theorem witness_EnginesPerform :
    (let s : State := sE1
     let op : Nat := 0
     let e : EOp := (s.d.ops.find? (fun o => o.id == op)).getD op0
     let k : Nat := 0
     let p : EPart := (e.parts[k]?.toList).getD 0 ⟨[],.buf,none⟩
     (s.d.ops.find? (fun o => o.id == op) = some e) ∧ e.parts[k]? = some p ∧ (∀ fs, e.kind ≠ .comp fs) ∧
         (begin_ s).partDead p = false ∧ p.val = none ∧ ((e.waits = false ∨ p.dst = .buf)) ∧
         (∀ a ∈ p.src.filterMap BSrc.key?, (begin_ s).readOk e a = true ∧ NoRace s a)) ∧
    (let s : State := sE3
     let op : Nat := 0
     let e : EOp := (s.d.ops.find? (fun o => o.id == op)).getD op0
     let k : Nat := 0
     let p : EPart := (e.parts[k]?.toList).getD 0 ⟨[],.buf,none⟩
     let bs := [205, 105, 3, 157, 54, 208, 105, 3, 0, 0, 0, 0, 0, 0, 0, 0]
     let d := 144115188075864064
     (s.d.ops.find? (fun o => o.id == op) = some e) ∧ e.parts[k]? = some p ∧ (∀ fs, e.kind ≠ .comp fs) ∧
         (begin_ s).partDead p = false ∧ p.val = some bs ∧ p.dst = .key d ∧ e.waits = false ∧ e.bo = none ∧ e.raced = [] ∧
         memWf s.mem = true ∧ ((∀ r c ls, e.kind = .collStage r c ls → (begin_ s).zeroing c.gpa = false)) ∧
         ((2 ^ 57 ≤ d → Unread s d bs.length ∧ ∀ b ∈ (begin_ s).busyObjs ((d - 2 ^ 57) / 2 ^ 19),
         overlap b 16 (d % 2 ^ 19) bs.length = false)) ∧
         ((2 ^ 57 ≤ d ∨ ((begin_ s).leaseFree d = true ∧ homeUp s.d d = true ∧ s.d.rideOf d = none)))) ∧
    (let s : State := sE4
     let op : Nat := 0
     let e : EOp := (s.d.ops.find? (fun o => o.id == op)).getD op0
     let slot : Nat := 0
     (s.d.ops.find? (fun o => o.id == op) = some e) ∧ e.finished = true ∧ (begin_ s).olderOps e = false ∧
         e.slots = [slot] ∧ (∃ g, s.slot? slot = some g) ∧ (∃ tk, e.tok = some tk) ∧
         ((e.kind = .walk ∨ e.kind = .gather ∨ ∃ c, e.kind = .copy c))) ∧
    (let s : State := sGr (.mxSt 3 0x0000000000000000000000400000004000000001003f01700000000000320000 false 0 0
         0x0000000000000000000000400000004000000000803f01780000000000300000
         0x0000000000000000000000400000004000000000803f01780000000000310000 .rne false true false)
     let quad : Nat := 0
     let k : Nat := 0
     let r : Resv := { op := 3, passed := 0, since := 0 }
     let e : EOp := (((begin_ s).resvOps 0 0)[k]?.toList.map (·.2)).getD 0 op0
     let a : Nat := 3
     let b : Block := (sget? s.d.blocks e.blk).getD Block.gone
     let w := begin_ s
     let ops := w.resvOps (quad / 16) (quad % 16)
     let rt : TRec := 0x0000000000000000000000400000004000000001003f01700000000000320000
     let ta : TRec := 0x0000000000000000000000400000004000000000803f01780000000000300000
     let tb : TRec := 0x0000000000000000000000400000004000000000803f01780000000000310000
     let sp : Bool := false
     let row : Nat := 0
     let col : Nat := 0
     let rnd : Rnd := .rne
     let sat : Bool := false
     let ftz : Bool := true
     let hlp : Bool := false
     let f := tileOf rt
     let n := if sp then 64 else min 64 (f.cols - col)
     ops[k]? = some (r, e) ∧ bestEntry (w.eligibles [] ops 0) = some k ∧
         ((∀ p ∈ e.parts, p.dst = .buf → p.val.isSome = true)) ∧ sget? s.d.blocks e.blk = some b ∧ e.kind.acc = some a ∧
         e.kind = .mxSt a rt sp row col ta tb rnd sat ftz hlp ∧ mxStTy f.ty = true ∧ ((f.ty.isMx = true → n % 32 = 0))) ∧
    (let s : State := sMz
     let quad : Nat := 0
     let k : Nat := 0
     let r : Resv := { op := 0, passed := 0, since := 0 }
     let e : EOp := (((begin_ s).resvOps 0 0)[k]?.toList.map (·.2)).getD 0 op0
     let a : Nat := 2
     let b : Block := (sget? s.d.blocks e.blk).getD Block.gone
     let w := begin_ s
     let ops := w.resvOps (quad / 16) (quad % 16)
     ops[k]? = some (r, e) ∧ bestEntry (w.eligibles [] ops 0) = some k ∧
         ((∀ p ∈ e.parts, p.dst = .buf → p.val.isSome = true)) ∧ sget? s.d.blocks e.blk = some b ∧ e.kind.acc = some a ∧
         e.kind = .mxZero a) ∧
    (let s : State := sGr (.mxLd 2)
     let quad : Nat := 0
     let k : Nat := 0
     let r : Resv := { op := 3, passed := 0, since := 0 }
     let e : EOp := (((begin_ s).resvOps 0 0)[k]?.toList.map (·.2)).getD 0 op0
     let a : Nat := 2
     let b : Block := (sget? s.d.blocks e.blk).getD Block.gone
     let w := begin_ s
     let ops := w.resvOps (quad / 16) (quad % 16)
     ops[k]? = some (r, e) ∧ bestEntry (w.eligibles [] ops 0) = some k ∧
         ((∀ p ∈ e.parts, p.dst = .buf → p.val.isSome = true)) ∧ sget? s.d.blocks e.blk = some b ∧ e.kind.acc = some a ∧
         e.kind = .mxLd a) ∧
    (let s : State := sGr (.mma 2 64 .f16 .f16 false false 1)
     let quad : Nat := 0
     let k : Nat := 0
     let r : Resv := { op := 3, passed := 0, since := 0 }
     let e : EOp := (((begin_ s).resvOps 0 0)[k]?.toList.map (·.2)).getD 0 op0
     let a : Nat := 2
     let b : Block := (sget? s.d.blocks e.blk).getD Block.gone
     let w := begin_ s
     let ops := w.resvOps (quad / 16) (quad % 16)
     let n := 64
     let ta := .f16
     let tb := .f16
     let ftz := false
     let j := 1
     ops[k]? = some (r, e) ∧ bestEntry (w.eligibles [] ops 0) = some k ∧
         ((∀ p ∈ e.parts, p.dst = .buf → p.val.isSome = true)) ∧ sget? s.d.blocks e.blk = some b ∧ e.kind.acc = some a ∧
         e.kind = .mma a n ta tb false ftz j) ∧
    (let s : State := sGr (.mma 2 128 .f16 .f16 true false 1)
     let quad : Nat := 0
     let k : Nat := 0
     let r : Resv := { op := 3, passed := 0, since := 0 }
     let e : EOp := (((begin_ s).resvOps 0 0)[k]?.toList.map (·.2)).getD 0 op0
     let a : Nat := 2
     let b : Block := (sget? s.d.blocks e.blk).getD Block.gone
     let w := begin_ s
     let ops := w.resvOps (quad / 16) (quad % 16)
     let n := 128
     let ta := .f16
     let tb := .f16
     let ftz := false
     let j := 1
     ops[k]? = some (r, e) ∧ bestEntry (w.eligibles [] ops 0) = some k ∧
         ((∀ p ∈ e.parts, p.dst = .buf → p.val.isSome = true)) ∧ sget? s.d.blocks e.blk = some b ∧ e.kind.acc = some a ∧
         e.kind = .mma a n ta tb true ftz j ∧ n % 4 = 0) ∧
    (let s : State := sEw
     let die : Nat := 0
     let hd : Nat := 0
     let rest : List Nat := []
     let e : EOp := (s.d.ops.find? (fun o => o.id == hd)).getD op0
     (s.d.die die).idxQ = hd :: rest ∧ (s.d.ops.find? (fun o => o.id == hd) = some e) ∧ e.waits = true) ∧
    (let s : State := sEw3
     let die : Nat := 0
     let hd : Nat := 0
     let rest : List Nat := [1]
     let e : EOp := (s.d.ops.find? (fun o => o.id == hd)).getD op0
     let nx := 1
     let tl := []
     (s.d.die die).idxQ = hd :: rest ∧ (s.d.ops.find? (fun o => o.id == hd) = some e) ∧ rest = nx :: tl ∧ e.waits = false ∧
         e.parts = []) := by
  refine ⟨?_, ?_, ?_, ?_, ?_, ?_, ?_, ?_, ?_, ?_⟩ <;>
    (try simp -zeta only
      [FenceMet, AtGate, BoOk, EngineOn, EngineOnAt, RingAt, RingRoom, GlobOk, PcmdAt, ex_ok, ex_ok_list, ex_die, v_below,
          no_cb_copy, no_cb, all_load, no_load, eq_ok, eq_error, on_die, not_out, all_some2, all_some, is_red, no_b,
          ex_is_ok, ex_ok_some, ex_err_some, ex_is_some, ex_is_error, no_ret, no_comp, ex_copy, no_build, key_all, Unread,
          Stands, no_stage]) <;>
    decide +kernel

theorem witness_CollectionsIssue :
    (let s : State := sK
     let h : Hdr := { neg := false, grd := 15, ver1 := true, ctl := 0 }
     let x : List Nat := [0, 1]
     let tr : BitVec 4 := 1
     let tk : BitVec 6 := 20
     let w := begin_ s
     let a := .s 14
     let ea := (s.op64 (x.headD 0) a).toNat
     EngineOn s eParterre ∧ ea % 64 = 0 ∧ ea < 2 ^ 57 ∧
         (∃ lf, w.translate (slotDie s.d.cur.slot) ea .load (!s.myBlk.priv) = .ok lf) ∧
         Runs (.collOpen h tr tk a) s h (a.names 2) (tNames tr ++ [.s tk.toNat]) x) ∧
    (let s : State := sK
     let h : Hdr := { neg := false, grd := 15, ver1 := true, ctl := 0 }
     let x : List Nat := [0, 1]
     let d : Dst := .v 8
     let tr : BitVec 4 := 1
     let c : CDesc := { desc := 3473408, gobj := 3477504, gpa := 3477504, w := 16, f := 8, k := 2, pw := 8, stg := 3538944, scap := 16, pool := 3604480, pcap := 32, stgPages := [3538944], poolPages := [] }
     let w := begin_ s
     let key := .v 40
     let ofs := .inl 3
     let pay := .inl 4
     let remove : Bool := false
     let y := realLanes s x
     let i : Instr := if remove then .collRem h d tr key ofs pay else .collIns h d tr key ofs pay
     let el := fun l => ((s.op64 l key).toNat, (s.op32 l ofs).toNat, (s.op32 l pay).toNat)
     let inR := fun l => decide ((el l).1 < 2 ^ c.w ∧ (el l).2.1 < 2 ^ c.f ∧ (el l).2.2 < 2 ^ c.pw)
     RingRoom s ∧ EngineOnAt s (w.engineDie c.gpa) eParterre ∧ w.handleColl tr (some .engW) none = .ok c ∧
         (∃ l ∈ y, inR l = true) ∧ Runs i s h (key.names 2 ++ ofs.names 1 ++ pay.names 1 ++ tNames tr) (d.names 1) x) ∧
    (let s : State := sK
     let h : Hdr := { neg := false, grd := 15, ver1 := true, ctl := 0 }
     let x : List Nat := [0, 1]
     let tr : BitVec 4 := 1
     let tk : BitVec 6 := 20
     let c : CDesc := { desc := 3473408, gobj := 3477504, gpa := 3477504, w := 16, f := 8, k := 2, pw := 8, stg := 3538944, scap := 16, pool := 3604480, pcap := 32, stgPages := [3538944], poolPages := [] }
     let w := begin_ s
     RingRoom s ∧ EngineOnAt s (w.engineDie c.gpa) eParterre ∧ w.handleColl tr (some .engW) none = .ok c ∧
         Runs (.collCommit h tr tk) s h (tNames tr) [.s tk.toNat] x) := by
  refine ⟨?_, ?_, ?_⟩ <;>
    (try simp -zeta only
      [FenceMet, AtGate, BoOk, EngineOn, EngineOnAt, RingAt, RingRoom, GlobOk, PcmdAt, ex_ok, ex_ok_list, ex_die, v_below,
          no_cb_copy, no_cb, all_load, no_load, eq_ok, eq_error, on_die, not_out, all_some2, all_some, is_red, no_b,
          ex_is_ok, ex_ok_some, ex_err_some, ex_is_some, ex_is_error, no_ret, no_comp, ex_copy, no_build, key_all, Unread,
          Stands, no_stage]) <;>
    decide +kernel

theorem witness_CollectionsIterate :
    (let s : State := sK2
     let h : Hdr := { neg := false, grd := 15, ver1 := true, ctl := 0 }
     let x : List Nat := [0, 1]
     let t : BitVec 4 := 5
     let tr : BitVec 4 := 1
     let lo : Opnd := .v 40
     let hi : Opnd := .v 46
     let w := begin_ s
     let src := lo.names 2 ++ hi.names 2 ++ tNames tr
     EngineOn s eParterre ∧ RingRoom s ∧ (∃ c, w.handleColl tr none (some .engR) = .ok c) ∧
         Runs (.collIter h t tr lo hi) s h src (tNames t) x) ∧
    (let s : State := sK2
     let h : Hdr := { neg := false, grd := 15, ver1 := true, ctl := 0 }
     let x : List Nat := [0, 1]
     let d : Dst := .v 8
     let tr : BitVec 4 := 4
     let r := s.here.readT tr.toNat
     let it := Iter.ofRec r
     EngineOn s eParterre ∧ isIter r = true ∧ Runs (.collNext h d tr) s h (tNames tr) (d.names 4 ++ tNames tr) x ∧
         it.open_ = false) ∧
    (let s : State := sK2
     let h : Hdr := { neg := false, grd := 15, ver1 := true, ctl := 0 }
     let x : List Nat := [0, 1]
     let d : Dst := .v 8
     let tr : BitVec 4 := 2
     let c : CDesc := { desc := 3473408, gobj := 3477504, gpa := 3477504, w := 16, f := 8, k := 2, pw := 8, stg := 3538944, scap := 16, pool := 3604480, pcap := 32, stgPages := [], poolPages := [3604480] }
     let w := begin_ s
     let r := s.here.readT tr.toNat
     let it := Iter.ofRec r
     let got := w.nextLanes c it x
     EngineOn s eParterre ∧ isIter r = true ∧ Runs (.collNext h d tr) s h (tNames tr) (d.names 4 ++ tNames tr) x ∧
         it.open_ = true ∧ w.collMapped it.desca none (some .engR) = .ok c ∧
         w.chunksDead c (w.visited c it got.2) = false ∧ w.readNow (w.chunkKeys c (w.visited c it got.2)) = true) ∧
    (let s : State := sK2
     let h : Hdr := { neg := false, grd := 15, ver1 := true, ctl := 0 }
     let x : List Nat := [0, 1]
     let tr : BitVec 4 := 4
     let n : BitVec 6 := 20
     let lo : Opnd := .v 40
     let hi : Opnd := .v 46
     let r := s.here.readT tr.toNat
     let it := Iter.ofRec r
     let src := lo.names 2 ++ hi.names 2 ++ tNames tr
     EngineOn s eParterre ∧ Runs (.collCount h n tr lo hi) s h src [.s n.toNat] x ∧ isIter r = true ∧ it.open_ = false) ∧
    (let s : State := sK2
     let h : Hdr := { neg := false, grd := 15, ver1 := true, ctl := 0 }
     let x : List Nat := [0, 1]
     let tr : BitVec 4 := 2
     let n : BitVec 6 := 20
     let lo : Opnd := .v 40
     let hi : Opnd := .v 46
     let c : CDesc := { desc := 3473408, gobj := 3477504, gpa := 3477504, w := 16, f := 8, k := 2, pw := 8, stg := 3538944, scap := 16, pool := 3604480, pcap := 32, stgPages := [], poolPages := [3604480] }
     let w := begin_ s
     let r := s.here.readT tr.toNat
     let it := Iter.ofRec r
     let src := lo.names 2 ++ hi.names 2 ++ tNames tr
     EngineOn s eParterre ∧ Runs (.collCount h n tr lo hi) s h src [.s n.toNat] x ∧ isIter r = true ∧ it.open_ = true ∧
         w.collMapped it.desca none (some .engR) = .ok c ∧ w.chunksDead c (w.chunksOf c it.dira) = false ∧
         w.readNow (w.chunkKeys c (w.chunksOf c it.dira)) = true) ∧
    (let s : State := sK2
     let h : Hdr := { neg := false, grd := 15, ver1 := true, ctl := 0 }
     let x : List Nat := [0, 1]
     let tr : BitVec 4 := 1
     let n : BitVec 6 := 20
     let lo : Opnd := .v 40
     let hi : Opnd := .v 46
     let w := begin_ s
     let r := s.here.readT tr.toNat
     let src := lo.names 2 ++ hi.names 2 ++ tNames tr
     EngineOn s eParterre ∧ Runs (.collCount h n tr lo hi) s h src [.s n.toNat] x ∧ RingRoom s ∧ isIter r = false ∧
         (∃ c, w.handleColl tr none (some .engR) = .ok c)) ∧
    (let s : State := sK2
     let h : Hdr := { neg := false, grd := 15, ver1 := true, ctl := 0 }
     let x : List Nat := [0, 1]
     let tr : BitVec 4 := 4
     let r := s.here.readT tr.toNat
     let it := Iter.ofRec r
     isIter r = true ∧ Runs (.collClose h tr) s h [] (tNames tr) x ∧ it.open_ = false) ∧
    (let s : State := sK2
     let h : Hdr := { neg := false, grd := 15, ver1 := true, ctl := 0 }
     let x : List Nat := [0, 1]
     let tr : BitVec 4 := 2
     let w := begin_ s
     let r := s.here.readT tr.toNat
     let it := Iter.ofRec r
     isIter r = true ∧ Runs (.collClose h tr) s h [] (tNames tr) x ∧ it.open_ = true ∧ RingRoom s ∧ FenceMet s .pkg ∧
         (∃ c, w.collMapped it.desca none none = .ok c)) := by
  refine ⟨?_, ?_, ?_, ?_, ?_, ?_, ?_, ?_⟩ <;>
    (try simp -zeta only
      [FenceMet, AtGate, BoOk, EngineOn, EngineOnAt, RingAt, RingRoom, GlobOk, PcmdAt, ex_ok, ex_ok_list, ex_die, v_below,
          no_cb_copy, no_cb, all_load, no_load, eq_ok, eq_error, on_die, not_out, all_some2, all_some, is_red, no_b,
          ex_is_ok, ex_ok_some, ex_err_some, ex_is_some, ex_is_error, no_ret, no_comp, ex_copy, no_build, key_all, Unread,
          Stands, no_stage]) <;>
    decide +kernel

theorem witness_CollectionsCommit :
    (let s : State := sCo (2^128*1) 3 1282
     let op : Nat := 9
     let e : EOp := (s.d.ops.find? (fun o => o.id == op)).getD op0
     let c0 : CDesc := { desc := 3473408, gobj := 3477504, gpa := 3477504, w := 16, f := 8, k := 2, pw := 8, stg := 3538944, scap := 16, pool := 3604480, pcap := 32, stgPages := [3538944], poolPages := [3604480] }
     let pp : List Nat := [3604480]
     let n : Nat := 3
     let die : Nat := 0
     let i : Nat := 16
     let r : RSlot := sget (s.d.die 0).slots 16 RSlot.free
     let home := slotDie (e.slots.headD 0)
     let c := { c0 with poolPages := pp }
     let w := if gGEN r.data = 0 then (begin_ s).anew pp c.pool (512 * c.pcap) else begin_ s
     let recs := (List.range n).map (Work.stageKey c)
     let old := w.chunksOf c (gDIR r.data)
     (s.d.ops.find? (fun o => o.id == op) = some e) ∧ e.kind = .collCommit c0 (some n) none ∧ e.waits = true ∧
         w.leafPages home c.pool (512 * c.pcap) = some pp ∧ w.poolSettled home c = true ∧ w.zeroing c.gpa = false ∧
         AtGate s c.gpa die i r ∧ (∀ k ∈ recs, recOp (w.homeRead k 16) ≠ 0 ∧ w.deadAt k true = false) ∧
         w.chunksDead c old = false ∧ w.readNow recs = true ∧ w.readNow (recs ++ w.chunkKeys c old) = true ∧
         gPIN r.data ((gGEN r.data + 1) % 4) ≠ 0) ∧
    (let s : State := sCoE
     let op : Nat := 9
     let e : EOp := (s.d.ops.find? (fun o => o.id == op)).getD op0
     let c0 : CDesc := { desc := 3473408, gobj := 3477504, gpa := 3477504, w := 16, f := 8, k := 2, pw := 8, stg := 3538944, scap := 16, pool := 3604480, pcap := 32, stgPages := [3538944], poolPages := [3604480] }
     let pp : List Nat := [3604480]
     let n : Nat := 3
     let die : Nat := 0
     let i : Nat := 16
     let r : RSlot := sget (s.d.die 0).slots 16 RSlot.free
     let home := slotDie (e.slots.headD 0)
     let c := { c0 with poolPages := pp }
     let w := if gGEN r.data = 0 then (begin_ s).anew pp c.pool (512 * c.pcap) else begin_ s
     let eng := w.genDie c.gpa
     let recs := (List.range n).map (Work.stageKey c)
     let old := w.chunksOf c (gDIR r.data)
     (s.d.ops.find? (fun o => o.id == op) = some e) ∧ e.kind = .collCommit c0 (some n) none ∧ e.waits = true ∧
         w.leafPages home c.pool (512 * c.pcap) = some pp ∧ w.poolSettled home c = true ∧ w.zeroing c.gpa = false ∧
         AtGate s c.gpa die i r ∧ (∀ k ∈ recs, recOp (w.homeRead k 16) ≠ 0 ∧ w.deadAt k true = false) ∧
         w.chunksDead c old = false ∧ w.readNow recs = true ∧ w.readNow (recs ++ w.chunkKeys c old) = true ∧
         (∃ p, w.commitPlan eng c n r.data = .ok p)) ∧
    (let s : State := sCoD
     let op : Nat := 9
     let e : EOp := (s.d.ops.find? (fun o => o.id == op)).getD op0
     let c : CDesc := { desc := 3473408, gobj := 3477504, gpa := 3477504, w := 16, f := 8, k := 2, pw := 8, stg := 3538944, scap := 16, pool := 3604480, pcap := 32, stgPages := [3538944], poolPages := [3604480] }
     let n : Nat := 3
     let pub : Nat × Nat × List Nat := (gObj 2 0x370800 3 0, 3 * 2^39, [4, 5])
     let die : Nat := 0
     let i : Nat := 16
     let r : RSlot := sget (s.d.die 0).slots 16 RSlot.free
     (s.d.ops.find? (fun o => o.id == op) = some e) ∧ e.kind = .collCommit c (some n) (some pub) ∧ e.waits = true ∧
         e.parts = [] ∧ AtGate s c.gpa die i r) ∧
    (let s : State := sCo 0 3 1282
     let die : Nat := 0
     let k : Nat := 1
     let g : CGen := { gpa := 3477504, gen := 0, chunks := [] }
     let d : Nat := 0
     let i : Nat := 16
     let r : RSlot := sget (s.d.die 0).slots 16 RSlot.free
     (s.d.die die).gens[k]? = some g ∧ AtGate s g.gpa d i r ∧ g.gen < gGEN r.data ∧ gPIN r.data (g.gen % 4) = 0) := by
  refine ⟨?_, ?_, ?_, ?_⟩ <;>
    (try simp -zeta only
      [FenceMet, AtGate, BoOk, EngineOn, EngineOnAt, RingAt, RingRoom, GlobOk, PcmdAt, ex_ok, ex_ok_list, ex_die, v_below,
          no_cb_copy, no_cb, all_load, no_load, eq_ok, eq_error, on_die, not_out, all_some2, all_some, is_red, no_b,
          ex_is_ok, ex_ok_some, ex_err_some, ex_is_some, ex_is_error, no_ret, no_comp, ex_copy, no_build, key_all, Unread,
          Stands, no_stage]) <;>
    decide +kernel

theorem witness_RingIssue :
    (let s : State := sRi
     let h : Hdr := { neg := false, grd := 1, ver1 := true, ctl := 0 }
     let x : List Nat := [1]
     let l := x.headD 0
     let slot := s.d.cur.slot
     let a := .s 15
     let disp := 0
     let pa := 4096
     let k := 0
     RingAt s a disp 64 l pa ∧ homeOf s.d pa = .die k ∧ pa % 64 = 0 ∧ s.d.rideOf pa = none ∧
         (begin_ s).stopHolds (slotCore slot) < 64 ∧ x = [l] ∧ Runs (.ringBoard h a disp) s h (a.names 2) [] x) ∧
    (let s : State := sRi
     let h : Hdr := { neg := false, grd := 1, ver1 := true, ctl := 0 }
     let x : List Nat := [1]
     let l := x.headD 0
     let slot := s.d.cur.slot
     let a := .s 14
     let disp := 0
     let pa := 4160
     let k := 0
     let i := 16
     let r := { used := true, obj := 4160, data := 99114423104580546001136484573464325752985, from_ := 130, captured := false, cstop := 0, cgrp := 0, cdl := 0, touch := 3, mark := none, why := 0, wb := 0, rel := none, lastOrd := none, lastOwn := none }
     RingAt s a disp 64 l pa ∧ s.d.rideOf pa = some (k, i, r) ∧ r.obj = pa ∧ r.state i s.d.now = .riding ∧ r.mark = none ∧
         (begin_ s).stopHolds (slotCore slot) < 64 ∧ x = [l] ∧ Runs (.ringAlight h a disp) s h (a.names 2) [] x) ∧
    (let s : State := sRi
     let h : Hdr := { neg := false, grd := 15, ver1 := true, ctl := 0 }
     let x : List Nat := [0, 1]
     let o : RingWOp := { ty := .b32, ord := .rlx, scope := .die, d := .v 16, a := .v 10, v := .v 0, c := .v 0, disp := 8 }
     let pa : Nat → Nat := ringPa s o.a o.disp
     let obj := 4160
     let n := o.ty.bytes
     RingRoom s ∧ (∀ k ∈ x, objOf (pa k) = obj) ∧ ((o.ord = .rel ∨ o.ord = .acqrel → FenceMet s o.scope)) ∧
         (∀ k ∈ x, RingAt s o.a o.disp n k (pa k)) ∧ Runs (.ringRd h o) s h (o.a.names 2) (o.d.names (regCount n)) x) ∧
    (let s : State := sRi
     let h : Hdr := { neg := false, grd := 15, ver1 := true, ctl := 0 }
     let x : List Nat := [0, 1]
     let o : RingWOp := { ty := .b32, ord := .rlx, scope := .die, d := .v 16, a := .v 10, v := .v 0, c := .v 0, disp := 8 }
     let pa : Nat → Nat := ringPa s o.a o.disp
     let obj := 4160
     let n := o.ty.bytes
     let op := .and
     RingRoom s ∧ (∀ k ∈ x, objOf (pa k) = obj) ∧ ((o.ord = .rel ∨ o.ord = .acqrel → FenceMet s o.scope)) ∧
         (∀ k ∈ x, RingAt s o.a o.disp n k (pa k) ∧ (s.here.thread k).helper = false) ∧
         Runs (.ringUp h op o) s h (o.a.names 2 ++
         (o.v.names (regCount n) ++ (if op = .cas then o.c.names (regCount n) else []))) (o.d.names (regCount n)) x) ∧
    (let s : State := sRi
     let h : Hdr := { neg := false, grd := 15, ver1 := true, ctl := 0 }
     let x : List Nat := [0, 1]
     let o : RingWOp := { ty := .b128, ord := .rlx, scope := .die, d := .v 16, a := .v 10, v := .v 0, c := .v 0, disp := 0xffffffc0 }
     let pa : Nat → Nat := ringPa s o.a o.disp
     let obj := 4096
     RingRoom s ∧ (∀ k ∈ x, objOf (pa k) = obj) ∧ ((o.ord = .rel ∨ o.ord = .acqrel → FenceMet s o.scope)) ∧
         (∀ k ∈ x, RingAt s o.a o.disp 16 k (pa k) ∧ (s.here.thread k).helper = false) ∧
         Runs (.ringUpPop h o) s h (o.a.names 2 ++ o.v.names 1) (o.d.names 4) x) ∧
    (let s : State := sRi
     let h : Hdr := { neg := false, grd := 15, ver1 := true, ctl := 0 }
     let x : List Nat := [0, 1]
     let l := x.headD 0
     let slot := s.d.cur.slot
     let o : RingCOp := { ord := .rlx, scope := .die, tk := 9, run := .v 16, a := .s 14, disp := 0 }
     let pa := 4160
     ((o.ord = .rel ∨ o.ord = .acqrel → FenceMet s o.scope)) ∧ RingRoom s ∧ RingAt s o.a o.disp 64 l pa ∧
         homeOf s.d pa = .die (slotDie slot) ∧
         Runs (.ringCap h o) s h (o.a.names 2) (o.run.names 16 ++ [.s o.tk.toNat]) x ∧ s.here.cap = none) ∧
    (let s : State := sRc
     let h : Hdr := { neg := false, grd := 15, ver1 := true, ctl := 0 }
     let x : List Nat := [0, 1]
     let l := x.headD 0
     let slot := s.d.cur.slot
     let o : RingCOp := { ord := .rlx, scope := .die, tk := 9, run := .v 16, a := .s 14, disp := 0 }
     let pa := 4160
     let c := { die := 0, slot := 16, timedOut := false }
     ((o.ord = .rel ∨ o.ord = .acqrel → FenceMet s o.scope)) ∧ RingRoom s ∧ RingAt s o.a o.disp 64 l pa ∧
         homeOf s.d pa = .die (slotDie slot) ∧
         Runs (.ringCap h o) s h (o.a.names 2) (o.run.names 16 ++ [.s o.tk.toNat]) x ∧ s.here.cap = some c ∧
         c.timedOut = false) ∧
    (let s : State := sRi
     let h : Hdr := { neg := false, grd := 15, ver1 := true, ctl := 0 }
     let x : List Nat := [0, 1]
     let o : RingCOp := { ord := .rlx, scope := .die, tk := 9, run := .v 16, a := .v 0, disp := 0 }
     ((o.ord = .rel ∨ o.ord = .acqrel → FenceMet s o.scope)) ∧ Runs (.ringRet h o) s h (o.run.names 16) [.s o.tk.toNat] x ∧
         s.here.cap = none) ∧
    (let s : State := sRi |> updG fun g => { g with cap := some ⟨0,16,true⟩ }
     let h : Hdr := { neg := false, grd := 15, ver1 := true, ctl := 0 }
     let x : List Nat := [0, 1]
     let slot := s.d.cur.slot
     let o : RingCOp := { ord := .rlx, scope := .die, tk := 9, run := .v 16, a := .v 0, disp := 0 }
     let c := { die := 0, slot := 16, timedOut := true }
     ((o.ord = .rel ∨ o.ord = .acqrel → FenceMet s o.scope)) ∧ Runs (.ringRet h o) s h (o.run.names 16) [.s o.tk.toNat] x ∧
         ((∀ r ∈ (s.d.die (slotDie slot)).ringQ, r.slot = some slot → ∀ k v, r.act ≠ .ret k v)) ∧ s.here.cap = some c ∧
         c.timedOut = true) ∧
    (let s : State := sRc
     let h : Hdr := { neg := false, grd := 15, ver1 := true, ctl := 0 }
     let x : List Nat := [0, 1]
     let slot := s.d.cur.slot
     let o : RingCOp := { ord := .rlx, scope := .die, tk := 9, run := .v 16, a := .v 0, disp := 0 }
     let c := { die := 0, slot := 16, timedOut := false }
     let obj := (SlotOf s c.die c.slot).obj
     ((o.ord = .rel ∨ o.ord = .acqrel → FenceMet s o.scope)) ∧ Runs (.ringRet h o) s h (o.run.names 16) [.s o.tk.toNat] x ∧
         ((∀ r ∈ (s.d.die (slotDie slot)).ringQ, r.slot = some slot → ∀ k v, r.act ≠ .ret k v)) ∧ s.here.cap = some c ∧
         c.timedOut = false ∧ RingRoom s ∧ c.die = slotDie slot ∧ homeOf s.d obj = .die c.die) ∧
    (let s : State := sRi
     let h : Hdr := { neg := false, grd := 15, ver1 := true, ctl := 0 }
     let x : List Nat := [0, 1]
     let d := .v 8
     Runs (.ringRev h d) s h [] (d.names 2) x) ∧
    (let s : State := sRi
     let h : Hdr := { neg := false, grd := 15, ver1 := true, ctl := 0 }
     let x : List Nat := [0, 1]
     let l := x.headD 0
     let slot := s.d.cur.slot
     let n := .inl 5
     s.d.cur.stamped = false ∧ Runs (.ringWait h n) s h (n.names 2) [] x ∧
         (s.op64 l n).toNat ≤ (s.d.now - 2 * (slotCore slot % 64)) / 128) ∧
    (let s : State := sRi
     let h : Hdr := { neg := false, grd := 15, ver1 := true, ctl := 0 }
     let x : List Nat := [0, 1]
     let l := x.headD 0
     let slot := s.d.cur.slot
     let n := .inl 11
     s.d.cur.stamped = false ∧ Runs (.ringWait h n) s h (n.names 2) [] x ∧
         (s.d.now - 2 * (slotCore slot % 64)) / 128 < (s.op64 l n).toNat) := by
  refine ⟨?_, ?_, ?_, ?_, ?_, ?_, ?_, ?_, ?_, ?_, ?_, ?_, ?_⟩ <;>
    (try simp -zeta only
      [FenceMet, AtGate, BoOk, EngineOn, EngineOnAt, RingAt, RingRoom, GlobOk, PcmdAt, ex_ok, ex_ok_list, ex_die, v_below,
          no_cb_copy, no_cb, all_load, no_load, eq_ok, eq_error, on_die, not_out, all_some2, all_some, is_red, no_b,
          ex_is_ok, ex_ok_some, ex_err_some, ex_is_some, ex_is_error, no_ret, no_comp, ex_copy, no_build, key_all, Unread,
          Stands, no_stage]) <;>
    decide +kernel

theorem witness_RingPassages :
    (let s : State := sM
     (begin_ s).nextDue = none) ∧
    (let s : State := sRg 16 id (rop .add 4 8 5 false)
     let die : Nat := 0
     let i : Nat := 16
     let slot : Nat := 0
     let o : RingOp := { id := 7, ins := 7, slot := some 0, stop := 0, remote := false, obj := 4160, lanes := [{ lane := 0, ofs := 8, v := 5, c := 1146447479, helper := false, owed := some 5 }], act := .up (.add) true, n := 4, acq := false, rel := false, scope := .die, since := 1000, wide := false, iss := { ep := 0, vc := [], sync := 0, rel := false } }
     let l : RLane := { lane := 0, ofs := 8, v := 5, c := 1146447479, helper := false, owed := some 5 }
     let op : ROp := .add
     let sg : Bool := true
     let g : Group := (s.slot? 0).getD Group.gone
     let r := { used := true, obj := 4160, data := 99114423104580546001136484573464325752985, from_ := 130, captured := false, cstop := 0, cgrp := 0, cdl := 0, touch := 3, mark := none, why := 0, wb := 0, rel := none, lastOrd := none, lastOwn := none }
     o.lanes = [l] ∧ l.helper = false ∧ o.act = .up op sg ∧ o.slot = some slot ∧ o.acq = false ∧ s.slot? slot = some g ∧
         (s.d.die die).ringQ = [o] ∧ (begin_ s).opWaits o = false ∧
         Sizes s (o.obj + l.ofs) o.n ((begin_ s).ringAgent o) o.scope o.iss.vc ∧
         (begin_ s).isEntry ((o.obj + l.ofs) / 16 * 16) = false ∧ r = SlotOf s die i ∧ r.captured = false ∧
         r.applies i s.d.now = true ∧ r.from_ ≤ s.d.now ∧ o.remote = false ∧ o.obj = r.obj ∧ o.since ≤ s.d.now ∧
         nextPass i o.stop s.d.now = s.d.now) ∧
    (let s : State := sRg 16 id (rop .xch 4 8 5 true)
     let die : Nat := 0
     let i : Nat := 16
     let slot : Nat := 0
     let o : RingOp := { id := 7, ins := 7, slot := some 0, stop := 0, remote := true, obj := 4160, lanes := [{ lane := 0, ofs := 8, v := 5, c := 1146447479, helper := false, owed := some 5 }], act := .up (.xch) true, n := 4, acq := false, rel := false, scope := .die, since := 1000, wide := false, iss := { ep := 0, vc := [], sync := 0, rel := false } }
     let l : RLane := { lane := 0, ofs := 8, v := 5, c := 1146447479, helper := false, owed := some 5 }
     let op : ROp := .xch
     let sg : Bool := true
     let g : Group := (s.slot? 0).getD Group.gone
     let r := { used := true, obj := 4160, data := 99114423104580546001136484573464325752985, from_ := 130, captured := false, cstop := 0, cgrp := 0, cdl := 0, touch := 3, mark := none, why := 0, wb := 0, rel := none, lastOrd := none, lastOwn := none }
     o.lanes = [l] ∧ l.helper = false ∧ o.act = .up op sg ∧ o.slot = some slot ∧ o.acq = false ∧ s.slot? slot = some g ∧
         (s.d.die die).ringQ = [o] ∧ (begin_ s).opWaits o = false ∧
         Sizes s (o.obj + l.ofs) o.n ((begin_ s).ringAgent o) o.scope o.iss.vc ∧
         (begin_ s).isEntry ((o.obj + l.ofs) / 16 * 16) = false ∧ (s.d.die die).slots = [(i, r)] ∧ r.used = true ∧
         r.obj = o.obj ∧ o.remote = true ∧ (∃ h, homeOf s.d o.obj = .die h) ∧ r.applies i s.d.now = true ∧
         nextPass i 0 s.d.now = s.d.now ∧ r.lastOrd ≠ some s.d.now ∧ r.lastOwn ≠ some s.d.now) ∧
    (let s : State := sBd
     let die : Nat := 0
     let k : Nat := 33
     let b : Board := { obj := 4352, slot := some 33, due := 0 }
     (s.d.die die).boardQ = [b] ∧ b.slot = some k ∧ (SlotOf s die k).used = false ∧
         s.d.pkg.rdyPkg.getLsbD (bRING die) = true ∧ s.d.pkg.failPkg.getLsbD (bRING die) = false ∧
         (s.d.die die).drain = none ∧ (begin_ s).leaseFree b.obj = true ∧ homeUp s.d b.obj = true ∧
         (begin_ s).deadAt b.obj true = false) ∧
    (let s : State := sRi |> atNow (128*67+2)
     let die : Nat := 0
     let i : Nat := 16
     let r := SlotOf s die i
     r.state i s.d.now = .riding ∧ r.mark = none ∧ nextPass i 0 s.d.now = s.d.now ∧ r.touch + 64 ≤ passRev i 0 s.d.now) ∧
    (let s : State := sWb
     let die : Nat := 0
     let i : Nat := 16
     let r := SlotOf s die i
     memWf s.mem = true ∧ r.writeAt i = some s.d.now ∧ (begin_ s).leaseFree r.obj = true) ∧
    (let s : State := sRc
     let die : Nat := 0
     let i : Nat := 16
     let g : Group := (s.slot? 0).getD Group.gone
     let c : Capture := { die := 0, slot := 16, timedOut := false }
     let r := SlotOf s die i
     r.used = true ∧ r.captured = true ∧ s.d.now = passage i r.cstop r.cdl ∧ (s.d.die die).ringQ = [] ∧
         s.slot? r.cgrp = some g ∧ g.cap = some c ∧ c.die = die ∧ c.slot = i) := by
  refine ⟨?_, ?_, ?_, ?_, ?_, ?_, ?_⟩ <;>
    (try simp -zeta only
      [FenceMet, AtGate, BoOk, EngineOn, EngineOnAt, RingAt, RingRoom, GlobOk, PcmdAt, ex_ok, ex_ok_list, ex_die, v_below,
          no_cb_copy, no_cb, all_load, no_load, eq_ok, eq_error, on_die, not_out, all_some2, all_some, is_red, no_b,
          ex_is_ok, ex_ok_some, ex_err_some, ex_is_some, ex_is_error, no_ret, no_comp, ex_copy, no_build, key_all, Unread,
          Stands, no_stage]) <;>
    decide +kernel

theorem witness_RingCommands :
    (let s : State := sCm (cmd 2 1 16 .waiting)
     let die : Nat := 0
     let c : Cmd := { id := 2, code := 1, slot := 3, arg := 16, st := .waiting, since := 1000 }
     ((s.d.die die).ringCmds.find? (fun k =>
         k.code == 1 && k.st == .waiting && decide (k.since < s.d.now) && nextPass k.arg 0 s.d.now == s.d.now) = some c)) ∧
    (let s : State := sCm (cmd 2 2 16 .waiting)
     let die : Nat := 0
     let c : Cmd := { id := 3, code := 2, slot := 3, arg := 5, st := .waiting, since := 1000 }
     let r := SlotOf s die c.arg
     let cmds := (s.d.die die).ringCmds.filter fun k => k.code == 2 && (k.st == .waiting || k.st == .started)
     ((s.d.die die).ringCmds.map Cmd.id).Nodup ∧ c ∈ cmds ∧ r.used = false) ∧
    (let s : State := (sCm (cmd 2 2 16 .waiting) |> updDie fun d =>
         { d with ringCmds := d.ringCmds ++ [cmd 4 2 17 .waiting, cmd 5 2 16 .started] })
     let die : Nat := 0
     let c : Cmd := { id := 5, code := 2, slot := 3, arg := 16, st := .started, since := 1000 }
     let r := SlotOf s die c.arg
     let cmds := (s.d.die die).ringCmds.filter fun k => k.code == 2 && (k.st == .waiting || k.st == .started)
     ((s.d.die die).ringCmds.map Cmd.id).Nodup ∧ c ∈ cmds ∧ r.used = true ∧ c.st = .started) ∧
    (let s : State := sCm (cmd 2 2 16 .waiting) |> ride 16 { rsl 0x1040 7 with from_ := 5000 }
     let die : Nat := 0
     let c : Cmd := { id := 2, code := 2, slot := 3, arg := 16, st := .waiting, since := 1000 }
     let r := SlotOf s die c.arg
     let st := r.state c.arg s.d.now
     let cmds := (s.d.die die).ringCmds.filter fun k => k.code == 2 && (k.st == .waiting || k.st == .started)
     ((s.d.die die).ringCmds.map Cmd.id).Nodup ∧ c ∈ cmds ∧ c.st = .waiting ∧ st = .boarding) ∧
    (let s : State := sCm (cmd 2 2 16 .waiting)
     let die : Nat := 0
     let c : Cmd := { id := 2, code := 2, slot := 3, arg := 16, st := .waiting, since := 1000 }
     let r := SlotOf s die c.arg
     let st := r.state c.arg s.d.now
     let cmds := (s.d.die die).ringCmds.filter fun k => k.code == 2 && (k.st == .waiting || k.st == .started)
     ((s.d.die die).ringCmds.map Cmd.id).Nodup ∧ c ∈ cmds ∧ c.st = .waiting ∧ st = .riding) ∧
    (let s : State := sCm (cmd 2 3 0 .waiting)
     let die : Nat := 0
     let c : Cmd := { id := 2, code := 3, slot := 3, arg := 0, st := .waiting, since := 1000 }
     let found := fun code => (s.d.die die).ringCmds.find? (fun k =>
         k.code == code && (k.st == .waiting || k.st == .started)) =
     some c
     found 3 ∧ c.st = .waiting) ∧
    (let s : State := sCm (cmd 2 3 0 .started) |> updDie fun d => { d with slots := [], drain := some 8 }
     let die : Nat := 0
     let c : Cmd := { id := 2, code := 3, slot := 3, arg := 0, st := .started, since := 1000 }
     let found := fun code => (s.d.die die).ringCmds.find? (fun k =>
         k.code == code && (k.st == .waiting || k.st == .started)) =
     some c
     found 3 ∧ c.st = .started ∧ ((s.d.die die).slots.any (fun q => q.2.used) = false)) ∧
    (let s : State := sCm (cmd 2 4 0 .waiting)
     let die : Nat := 0
     let c : Cmd := { id := 2, code := 4, slot := 3, arg := 0, st := .waiting, since := 1000 }
     let found := fun code => (s.d.die die).ringCmds.find? (fun k =>
         k.code == code && (k.st == .waiting || k.st == .started)) =
     some c
     found 4) := by
  refine ⟨?_, ?_, ?_, ?_, ?_, ?_, ?_, ?_⟩ <;>
    (try simp -zeta only
      [FenceMet, AtGate, BoOk, EngineOn, EngineOnAt, RingAt, RingRoom, GlobOk, PcmdAt, ex_ok, ex_ok_list, ex_die, v_below,
          no_cb_copy, no_cb, all_load, no_load, eq_ok, eq_error, on_die, not_out, all_some2, all_some, is_red, no_b,
          ex_is_ok, ex_ok_some, ex_err_some, ex_is_some, ex_is_error, no_ret, no_comp, ex_copy, no_build, key_all, Unread,
          Stands, no_stage]) <;>
    decide +kernel

theorem witness_PergolaIssue :
    (let s : State := sPg
     let h : Hdr := { neg := false, grd := 15, ver1 := true, ctl := 0 }
     let x : List Nat := [0, 1]
     let a : Opnd := .s 17
     let tk : BitVec 6 := 20
     let p : PDesc := { gpa := 3674112, ptype := 0, leafMax := 2, dgp := false, nprim := 3, acap := 64, prim := 3735552, arena := 3801088, arenaPages := [3801088], primPages := [3735552] }
     let w := begin_ s
     let l := x.headD 0
     let va : Int := ((s.op64 l a).toNat : Int)
     let on := EngineOnAt s (w.pgDie p) ePergola
     let cmd : Nat := 0
     let i : Instr := Instr.pgBuild h tk a
     RingRoom s ∧ ((cmd = 0 ∧ i = .pgBuild h tk a) ∨ (cmd = 1 ∧ i = .pgRefit h tk a) ∨ (cmd = 2 ∧ i = .pgRebal h tk a)) ∧
         Runs i s h (a.names 2) [.s tk.toNat] x ∧ on ∧ w.structAt va l true (some .engW) (cmd != 2) = .ok (some p) ∧ cmd = 0) ∧
    (let s : State := sPg
     let h : Hdr := { neg := false, grd := 15, ver1 := true, ctl := 0 }
     let x : List Nat := [0, 1]
     let a : Opnd := .s 17
     let tk : BitVec 6 := 20
     let p : PDesc := { gpa := 3674112, ptype := 0, leafMax := 2, dgp := false, nprim := 3, acap := 64, prim := 3735552, arena := 3801088, arenaPages := [3801088], primPages := [3735552] }
     let w := begin_ s
     let l := x.headD 0
     let va : Int := ((s.op64 l a).toNat : Int)
     let on := EngineOnAt s (w.pgDie p) ePergola
     let cmd : Nat := 1
     let i : Instr := .pgRefit h tk a
     RingRoom s ∧ ((cmd = 0 ∧ i = .pgBuild h tk a) ∨ (cmd = 1 ∧ i = .pgRefit h tk a) ∨ (cmd = 2 ∧ i = .pgRebal h tk a)) ∧
         Runs i s h (a.names 2) [.s tk.toNat] x ∧ on ∧ w.structAt va l true (some .engW) (cmd != 2) = .ok (some p) ∧ cmd = 1) ∧
    (let s : State := sPg
     let h : Hdr := { neg := false, grd := 15, ver1 := true, ctl := 0 }
     let x : List Nat := [0, 1]
     let a : Opnd := .s 17
     let tk : BitVec 6 := 20
     let p : PDesc := { gpa := 3674112, ptype := 0, leafMax := 2, dgp := false, nprim := 3, acap := 64, prim := 3735552, arena := 3801088, arenaPages := [3801088], primPages := [] }
     let w := begin_ s
     let l := x.headD 0
     let va : Int := ((s.op64 l a).toNat : Int)
     let on := EngineOnAt s (w.pgDie p) ePergola
     let cmd : Nat := 2
     let i : Instr := .pgRebal h tk a
     RingRoom s ∧ ((cmd = 0 ∧ i = .pgBuild h tk a) ∨ (cmd = 1 ∧ i = .pgRefit h tk a) ∨ (cmd = 2 ∧ i = .pgRebal h tk a)) ∧
         Runs i s h (a.names 2) [.s tk.toNat] x ∧ on ∧ w.structAt va l true (some .engW) (cmd != 2) = .ok (some p) ∧ cmd = 2) ∧
    (let s : State := sPg0 (pgDescN 3 3 2 0)
     let h : Hdr := { neg := false, grd := 15, ver1 := true, ctl := 0 }
     let x : List Nat := [0, 1]
     let a : Opnd := .s 17
     let tk : BitVec 6 := 20
     let w := begin_ s
     let l := x.headD 0
     let va : Int := ((s.op64 l a).toNat : Int)
     let cmd : Nat := 0
     let i : Instr := Instr.pgBuild h tk a
     RingRoom s ∧ ((cmd = 0 ∧ i = .pgBuild h tk a) ∨ (cmd = 1 ∧ i = .pgRefit h tk a) ∨ (cmd = 2 ∧ i = .pgRebal h tk a)) ∧
         Runs i s h (a.names 2) [.s tk.toNat] x ∧ EngineOn s ePergola ∧
         w.structAt va l true (some .engW) (cmd != 2) = .ok none) ∧
    (let s : State := atNow 1000 sPg
     let h : Hdr := { neg := false, grd := 15, ver1 := true, ctl := 0 }
     let x : List Nat := [0, 1]
     let a : Opnd := .s 17
     let tk : BitVec 6 := 20
     let p : PDesc := { gpa := 3674112, ptype := 0, leafMax := 2, dgp := false, nprim := 3, acap := 64, prim := 3735552, arena := 3801088, arenaPages := [3801088], primPages := [] }
     let w := begin_ s
     let l := x.headD 0
     let va : Int := ((s.op64 l a).toNat : Int)
     let on := EngineOnAt s (w.pgDie p) ePergola
     RingRoom s ∧ on ∧ w.structAt va l false (some .engR) false = .ok (some p) ∧ FenceMet s .pkg ∧
         Runs (.pgPublish h tk a) s h (a.names 2) [.s tk.toNat] x) ∧
    (let s : State := sPg
     let h : Hdr := { neg := false, grd := 15, ver1 := true, ctl := 0 }
     let x : List Nat := [0, 1]
     let a : Opnd := .s 17
     let p : PDesc := { gpa := 3674112, ptype := 0, leafMax := 2, dgp := false, nprim := 3, acap := 64, prim := 3735552, arena := 3801088, arenaPages := [3801088], primPages := [] }
     let w := begin_ s
     let l := x.headD 0
     let va : Int := ((s.op64 l a).toNat : Int)
     let on := EngineOnAt s (w.pgDie p) ePergola
     let d := .v 8
     RingRoom s ∧ on ∧ w.structAt va l false (some .engR) false = .ok (some p) ∧
         Runs (.pgStat h false d a) s h (a.names 2) (d.names 8) x) ∧
    (let s : State := sPg
     let h : Hdr := { neg := false, grd := 15, ver1 := true, ctl := 0 }
     let x : List Nat := [0, 1]
     let a : Opnd := .s 17
     let tk : BitVec 6 := 20
     let p : PDesc := { gpa := 3674112, ptype := 0, leafMax := 2, dgp := false, nprim := 3, acap := 64, prim := 3735552, arena := 3801088, arenaPages := [3801088], primPages := [] }
     let w := begin_ s
     let l := x.headD 0
     let va : Int := ((s.op64 l a).toNat : Int)
     let on := EngineOnAt s (w.pgDie p) ePergola
     let any := true
     let d := .v 8
     let ray := .v 20
     let c := if any then 1 else 5
     RingRoom s ∧ on ∧ w.structAt va l false (some .engR) false = .ok (some p) ∧
         Runs (.trace h any d tk a ray) s h (a.names 2 ++ ray.names 8) (d.names c ++ [.s tk.toNat]) x) ∧
    (let s : State := sPh 1 2
     let h : Hdr := { neg := false, grd := 15, ver1 := true, ctl := 0 }
     let x : List Nat := [0, 1]
     let a : Opnd := .s 18
     let w := begin_ s
     let l := x.headD 0
     let va : Int := ((s.op64 l a).toNat : Int)
     let d := .v 8
     let lf := { pa := 3801600, lease := 4, ring := true, wr := true, tier := false, mig := false, at_ := 2097152, size := 536870912 }
     s.here.acq = [] ∧ va % 64 = 0 ∧ va < 2 ^ 57 ∧
         w.translate (slotDie s.d.cur.slot) va.toNat .load (!s.myBlk.priv) = .ok lf ∧ w.descWaits lf.pa = none ∧
         Runs (.pgStat h true d a) s h (a.names 2) (d.names 8) x ∧ w.hdrKnown lf.pa = true ∧ lf.pa % 64 = 0 ∧
         (∀ i < 64, NoRace s (lf.pa + i))) ∧
    (let s : State := sPh 0 0
     let h : Hdr := { neg := false, grd := 15, ver1 := true, ctl := 0 }
     let x : List Nat := [0, 1]
     let a : Opnd := .s 18
     let w := begin_ s
     let l := x.headD 0
     let va : Int := ((s.op64 l a).toNat : Int)
     let d := .v 8
     let lf := { pa := 3802112, lease := 4, ring := true, wr := true, tier := false, mig := false, at_ := 2097152, size := 536870912 }
     s.here.acq = [] ∧ va % 64 = 0 ∧ va < 2 ^ 57 ∧
         w.translate (slotDie s.d.cur.slot) va.toNat .load (!s.myBlk.priv) = .ok lf ∧ w.descWaits lf.pa = none ∧
         Runs (.pgStat h true d a) s h (a.names 2) (d.names 8) x ∧ w.hdrKnown lf.pa = false) ∧
    (let s : State := sCmp
     let h : Hdr := { neg := false, grd := 15, ver1 := true, ctl := 0 }
     let x : List Nat := [0, 1]
     let tk : BitVec 6 := 20
     let w := begin_ s
     let tr := 7
     let xo := .v 20
     let yo := .v 21
     let key := .v 22
     let col := .v 24
     let r := s.here.readT tr.toNat
     let at_ := fun k => ((s.op32 k xo).toNat, (s.op32 k yo).toNat)
     let inside := (realLanes s x).filter fun k => decide ((at_ k).1 < rCOLS r / 4) && decide ((at_ k).2 < rROWS r)
     EngineOn s ePergola ∧ targetBad r = false ∧
         Runs (.comp h tr tk xo yo key col) s h (xo.names 1 ++ yo.names 1 ++ key.names 1 ++ col.names 4 ++
         tNames tr) [.s tk.toNat] x ∧ ((∃ ps,
         collect (inside.map fun k => (w.keysOf .rmw ((rBASE r + (at_ k).2 * rSTRIDE r + 16 * (at_ k).1 : Nat) : Int)
         16).map fun ks => (k, ks.headD 0)) = .ok ps))) := by
  refine ⟨?_, ?_, ?_, ?_, ?_, ?_, ?_, ?_, ?_, ?_⟩ <;>
    (try simp -zeta only
      [FenceMet, AtGate, BoOk, EngineOn, EngineOnAt, RingAt, RingRoom, GlobOk, PcmdAt, ex_ok, ex_ok_list, ex_die, v_below,
          no_cb_copy, no_cb, all_load, no_load, eq_ok, eq_error, on_die, not_out, all_some2, all_some, is_red, no_b,
          ex_is_ok, ex_ok_some, ex_err_some, ex_is_some, ex_is_error, no_ret, no_comp, ex_copy, no_build, key_all, Unread,
          Stands, no_stage]) <;>
    decide +kernel

theorem witness_PergolaPerform :
    (let s : State := sPb 0 true (pgObj 1 0 0 0 true)
     let op : Nat := 9
     let e : EOp := (s.d.ops.find? (fun o => o.id == op)).getD op0
     let cmd : Nat := 0
     let p : PDesc := { gpa := 3674112, ptype := 0, leafMax := 2, dgp := false, nprim := 4, acap := 64, prim := 3735552, arena := 3801088, arenaPages := [3801088], primPages := [3735552] }
     let w := begin_ s
     let old := w.objData p.gpa
     let hdr := if gHDR old = 0 then 0 else w.arenaRead p (gHDR old) 64
     let ks := w.buildKeys p cmd (gHDR old) hdr
     (s.d.ops.find? (fun o => o.id == op) = some e) ∧ e.kind = .pgBuild cmd p true none ∧ e.waits = true ∧ e.parts = [] ∧
         (∀ k ∈ ks, w.deadAt k true = false) ∧ w.readNow ks = true ∧ (∃ c, w.candOf p cmd hdr s.d.free = .error c)) ∧
    (let s : State := sPf true
     let op : Nat := 9
     let e : EOp := (s.d.ops.find? (fun o => o.id == op)).getD op0
     let cmd : Nat := 1
     let p : PDesc := { gpa := 3674112, ptype := 0, leafMax := 2, dgp := false, nprim := 3, acap := 64, prim := 3735552, arena := 3801088, arenaPages := [3801088], primPages := [3735552] }
     let w := begin_ s
     let old := w.objData p.gpa
     let hdr := if gHDR old = 0 then 0 else w.arenaRead p (gHDR old) 64
     let ks := w.buildKeys p cmd (gHDR old) hdr
     let c := ((match w.candOf p cmd hdr s.d.free with | .ok c => [c] | _ => [])).getD 0 cand0
     (s.d.ops.find? (fun o => o.id == op) = some e) ∧ e.kind = .pgBuild cmd p true none ∧ e.waits = true ∧ e.parts = [] ∧
         (∀ k ∈ ks, w.deadAt k true = false) ∧ w.readNow ks = true ∧ w.candOf p cmd hdr s.d.free = .ok c ∧
         w.placeCand p hdr s.d.free c = none ∧ w.reclaimable (w.genDie p.gpa) p old = false) ∧
    (let s : State := sPf false
     let op : Nat := 9
     let e : EOp := (s.d.ops.find? (fun o => o.id == op)).getD op0
     let cmd : Nat := 1
     let p : PDesc := { gpa := 3674112, ptype := 0, leafMax := 2, dgp := false, nprim := 3, acap := 64, prim := 3735552, arena := 3801088, arenaPages := [3801088], primPages := [3735552] }
     let w := begin_ s
     let old := w.objData p.gpa
     let hdr := if gHDR old = 0 then 0 else w.arenaRead p (gHDR old) 64
     let ks := w.buildKeys p cmd (gHDR old) hdr
     let c := ((match w.candOf p cmd hdr s.d.free with | .ok c => [c] | _ => [])).getD 0 cand0
     (s.d.ops.find? (fun o => o.id == op) = some e) ∧ e.kind = .pgBuild cmd p true none ∧ e.waits = true ∧ e.parts = [] ∧
         (∀ k ∈ ks, w.deadAt k true = false) ∧ w.readNow ks = true ∧ w.candOf p cmd hdr s.d.free = .ok c ∧
         (∃ q, w.placeCand p hdr s.d.free c = some q)) ∧
    (let s : State := sPd
     let op : Nat := 9
     let e : EOp := (s.d.ops.find? (fun o => o.id == op)).getD op0
     let cmd : Nat := 0
     let p : PDesc := { gpa := 3674112, ptype := 0, leafMax := 2, dgp := false, nprim := 3, acap := 64, prim := 3735552, arena := 3801088, arenaPages := [3801088], primPages := [3735552] }
     let out : Option (Nat × List Nat) := some (3801600, [1, 2, 3, 4])
     let word : Nat := 0
     let die : Nat := 0
     let i : Nat := 16
     let r : RSlot := SlotOf s 0 16
     (s.d.ops.find? (fun o => o.id == op) = some e) ∧ e.kind = .pgBuild cmd p true (some (out, word)) ∧ e.waits = true ∧
         e.parts = [] ∧ AtGate s p.gpa die i r) ∧
    (let s : State := sPr 0
     let die : Nat := 0
     let k : Nat := 0
     let g : PGen := { gpa := 3674112, gen := some 1, blocks := [1, 2, 3] }
     let n : Nat := 1
     let p : PDesc := { gpa := 3674112, ptype := 0, leafMax := 2, dgp := false, nprim := 3, acap := 64, prim := 3735552, arena := 3801088, arenaPages := [3801088], primPages := [3735552] }
     let d : Nat := 0
     let i : Nat := 16
     let r : RSlot := SlotOf s 0 16
     (s.d.die die).trees[k]? = some (g, p) ∧ g.gen = some n ∧ AtGate s g.gpa d i r ∧ n < gGEN r.data ∧
         gPIN r.data (n % 4) = 0 ∧ (∀ q ∈ (begin_ s).mapChanges p [] ((s.d.die die).unshared g.gpa g),
         (begin_ s).leaseFree q.1 = true ∧ homeUp s.d q.1 = true ∧ s.d.rideOf q.1 = none) ∧
         ((∀ e ∈ s.d.ops, ∀ cmd q out, e.kind = .pgBuild cmd q true out → q.gpa = g.gpa → e.parts = []))) ∧
    (let s : State := sCf
     let op : Nat := 0
     let e : EOp := (s.d.ops.find? (fun o => o.id == op)).getD op0
     let fs : List Frag := [{ pa := 3866800, key := 7, col := [1065353216, 0, 0, 0] },
         { pa := 3866768, key := 99, col := [1056964608, 0, 0, 1056964608] }]
     let k : Nat := 0
     let f : Frag := { pa := 3866800, key := 7, col := [1065353216, 0, 0, 0] }
     (s.d.ops.find? (fun o => o.id == op) = some e) ∧ s.d.ops = [e] ∧ e.kind = .comp fs ∧ fs[k]? = some f ∧
         (∀ g ∈ fs.take k, g.pa ≠ f.pa) ∧ memWf s.mem = true ∧ homeUp s.d f.pa = true ∧ homeFailed s.d f.pa = false ∧
         (begin_ s).poisoned f.pa = false ∧ s.d.rideOf f.pa = none ∧ (begin_ s).leaseFree f.pa = true) := by
  refine ⟨?_, ?_, ?_, ?_, ?_, ?_⟩
  · try simp -zeta only [FenceMet, AtGate, BoOk, EngineOn, EngineOnAt, RingAt, RingRoom, GlobOk, PcmdAt, ex_ok, ex_ok_list, ex_die, v_below, no_cb_copy, no_cb, all_load, no_load, eq_ok, eq_error, on_die, not_out, all_some2, all_some, is_red, no_b, ex_is_ok, ex_ok_some, ex_err_some, ex_is_some, ex_is_error, no_ret, no_comp, ex_copy, no_build, key_all, Unread, Stands, no_stage]
    decide +kernel
  · try simp -zeta only [FenceMet, AtGate, BoOk, EngineOn, EngineOnAt, RingAt, RingRoom, GlobOk, PcmdAt, ex_ok, ex_ok_list, ex_die, v_below, no_cb_copy, no_cb, all_load, no_load, eq_ok, eq_error, on_die, not_out, all_some2, all_some, is_red, no_b, ex_is_ok, ex_ok_some, ex_err_some, ex_is_some, ex_is_error, no_ret, no_comp, ex_copy, no_build, key_all, Unread, Stands, no_stage]
    decide +kernel
  · intro s op e cmd p w old hdr ks c
    refine ⟨?_, ?_, ?_, ?_, ?_, ?_, ?_, ?_⟩ <;> first
      | exact gives_all (by decide +revert +kernel)
      | exact stores_all (by decide +revert +kernel)
      | exact misnames_range (by decide +revert +kernel)
      | exact .inl ⟨_, rfl, rfl, rfl⟩
      | exact .inl (glob_ok (by decide +revert +kernel))
      | exact low_place (by decide +revert +kernel)
      | exact (calm_range (by decide +revert +kernel) (by decide +revert +kernel) (by decide +revert +kernel)).1
      | exact (calm_range (by decide +revert +kernel) (by decide +revert +kernel) (by decide +revert +kernel)).2.1
      | exact (calm_range (by decide +revert +kernel) (by decide +revert +kernel) (by decide +revert +kernel)).2.2
      | exact fun i hi => ⟨(calm_byte (by decide +revert +kernel) (by have : lf.pa = 2359296 := rfl; omega)).2.1.1, (calm_byte (by decide +revert +kernel) (by have : lf.pa = 2359296 := rfl; omega)).1.1⟩
      | exact fun i hi => (calm_byte (by decide +revert +kernel) (by have : lf.pa = 2359296 := rfl; omega)).1.2
      | decide +revert +kernel
      | (simp only [FenceMet, AtGate, BoOk, EngineOn, EngineOnAt, RingAt, RingRoom, GlobOk, PcmdAt, ex_ok, ex_ok_list, ex_die, v_below, no_cb_copy, no_cb, all_load, no_load, eq_ok, eq_error, on_die, not_out, all_some2, all_some, is_red, no_b, ex_is_ok, ex_ok_some, ex_err_some, ex_is_some, ex_is_error, no_ret, no_comp, ex_copy, no_build, key_all, Unread, Stands, no_stage]; decide +revert +kernel)
  · try simp -zeta only [FenceMet, AtGate, BoOk, EngineOn, EngineOnAt, RingAt, RingRoom, GlobOk, PcmdAt, ex_ok, ex_ok_list, ex_die, v_below, no_cb_copy, no_cb, all_load, no_load, eq_ok, eq_error, on_die, not_out, all_some2, all_some, is_red, no_b, ex_is_ok, ex_ok_some, ex_err_some, ex_is_some, ex_is_error, no_ret, no_comp, ex_copy, no_build, key_all, Unread, Stands, no_stage]
    decide +kernel
  · try simp -zeta only [FenceMet, AtGate, BoOk, EngineOn, EngineOnAt, RingAt, RingRoom, GlobOk, PcmdAt, ex_ok, ex_ok_list, ex_die, v_below, no_cb_copy, no_cb, all_load, no_load, eq_ok, eq_error, on_die, not_out, all_some2, all_some, is_red, no_b, ex_is_ok, ex_ok_some, ex_err_some, ex_is_some, ex_is_error, no_ret, no_comp, ex_copy, no_build, key_all, Unread, Stands, no_stage]
    decide +kernel
  · try simp -zeta only [FenceMet, AtGate, BoOk, EngineOn, EngineOnAt, RingAt, RingRoom, GlobOk, PcmdAt, ex_ok, ex_ok_list, ex_die, v_below, no_cb_copy, no_cb, all_load, no_load, eq_ok, eq_error, on_die, not_out, all_some2, all_some, is_red, no_b, ex_is_ok, ex_ok_some, ex_err_some, ex_is_some, ex_is_error, no_ret, no_comp, ex_copy, no_build, key_all, Unread, Stands, no_stage]
    decide +kernel

theorem witness_TrapReturns :
    (let s : State := sM
     let h : Hdr := { neg := false, grd := 15, ver1 := true, ctl := 0 }
     let x : List Nat := [0, 1]
     Runs (.halt h) s h [] [] x) ∧
    (let s : State := sHr 1 3
     let slot : Nat := 4
     let g : Group := (s.slot? slot).getD Group.gone
     s.slot? slot = some g ∧ slot < 65536 ∧ g.stop = some .halt ∧
         (s.d.core (slotCore slot)).intPend &&& (s.d.core (slotCore slot)).intMask ≠ 0) ∧
    (let s : State := sHa 3
     let slot : Nat := 4
     let g : Group := (s.slot? slot).getD Group.gone
     let d : Nat := 0
     let i : Nat := 16
     let r : RSlot := SlotOf s 0 16
     let addr : Nat := 124855109
     let cause : Nat := 23
     let p : Nat := 0
     let pa : Nat := 4160
     let rest : List (Nat × Nat) := [(5, 6)]
     let lf : Leaf := { pa := 25152, lease := 4, ring := true, wr := true, tier := false, mig := false, at_ := 2097152, size := 536870912 }
     let w := begin_ s
     let e := s.d.die (slotDie slot)
     let q := e.hq.toNat % 2 ^ 14
     let x := w.descOf p q
     let tail := r.data / 2 ^ 64 % 2 ^ 64
     s.slot? slot = some g ∧ g.append = (addr, cause) :: rest ∧ s.d.queuePart q = some p ∧ w.headPa p q = some pa ∧
         AtGate s pa d i r ∧ w.translate (s.d.partDie p) (dRAREA x + 64 * (tail % 2 ^ dLOG2N x)) .store false = .ok lf ∧
         w.leaseFree lf.pa = true ∧ homeUp s.d lf.pa = true ∧ s.d.rideOf lf.pa = none ∧
         tail < r.data % 2 ^ 64 + 2 ^ dLOG2N x ∧ memWf s.mem = true) ∧
    (let s : State := sTr 0
     let h : Hdr := { neg := false, grd := 1, ver1 := true, ctl := 0 }
     let a : Opnd := .s 5
     let l : Nat := 1
     let p := (s.op64 l a).toNat
     ((∀ e ∈ s.d.groups, e.1 < 65536 → e.2.stop = some .trap → s.d.frameAddr e.1 ≠ p)) ∧ (begin_ s).frameReady p = true ∧
         memWf s.mem = true ∧ s.here.owed = [] ∧ Runs (.tret h a) s h (a.names 2) [] [l]) ∧
    (let s : State := sTr 0
     let h : Hdr := { neg := false, grd := 1, ver1 := true, ctl := 0 }
     let a : Opnd := .s 18
     let l : Nat := 1
     let slot : Nat := 4
     let g : Group := (s.slot? slot).getD Group.gone
     let p := (s.op64 l a).toNat
     let f := (begin_ s).load p 64
     s.slot? slot = some g ∧ g.stop = some .trap ∧ slot < 65536 ∧ slot ≠ s.d.cur.slot ∧ s.d.frameAddr slot = p ∧
         ((∀ e ∈ s.d.groups, e.1 ≠ slot → e.2.stop = some .trap → s.d.frameAddr e.1 ≠ p)) ∧
         (begin_ s).frameReady p = true ∧ (begin_ s).deadAt p true = false ∧ s.d.rideOf p = none ∧ memWf s.mem = true ∧
         (s.byte p).toNat % 2 = 1 ∧ Runs (.tret h a) s h (a.names 2) [] [l] ∧ f / 2 ^ 128 % 4 = 0) ∧
    (let s : State := sTr 1
     let h : Hdr := { neg := false, grd := 1, ver1 := true, ctl := 0 }
     let a : Opnd := .s 18
     let l : Nat := 1
     let slot : Nat := 4
     let g : Group := (s.slot? slot).getD Group.gone
     let b : Block := s.blk g.blk
     let p := (s.op64 l a).toNat
     let f := (begin_ s).load p 64
     s.slot? slot = some g ∧ g.stop = some .trap ∧ slot < 65536 ∧ slot ≠ s.d.cur.slot ∧ s.d.frameAddr slot = p ∧
         ((∀ e ∈ s.d.groups, e.1 ≠ slot → e.2.stop = some .trap → s.d.frameAddr e.1 ≠ p)) ∧
         (begin_ s).frameReady p = true ∧ (begin_ s).deadAt p true = false ∧ s.d.rideOf p = none ∧ memWf s.mem = true ∧
         (s.byte p).toNat % 2 = 1 ∧ Runs (.tret h a) s h (a.names 2) [] [l] ∧ f / 2 ^ 128 % 4 ≠ 0 ∧
         sget? s.d.blocks g.blk = some b ∧ s.d.cur.slot ∉ b.slots g.blk) := by
  refine ⟨?_, ?_, ?_, ?_, ?_, ?_⟩ <;>
    (try simp -zeta only
      [FenceMet, AtGate, BoOk, EngineOn, EngineOnAt, RingAt, RingRoom, GlobOk, PcmdAt, ex_ok, ex_ok_list, ex_die, v_below,
          no_cb_copy, no_cb, all_load, no_load, eq_ok, eq_error, on_die, not_out, all_some2, all_some, is_red, no_b,
          ex_is_ok, ex_ok_some, ex_err_some, ex_is_some, ex_is_error, no_ret, no_comp, ex_copy, no_build, key_all, Unread,
          Stands, no_stage]) <;>
    decide +kernel

theorem witness_FaultSignals :
    (let s : State := sSg cFLT_ABSENT true 4
     let k : Nat := 4
     let g : Group := (s.slot? k).getD Group.gone
     let pk : Parked := { pc := 0x000000000005000, tok := 6, cause := 82, page := 119, signalled := false, late := false }
     let h : Hdr := { neg := false, grd := 1, ver1 := true, ctl := 0 }
     let a : Opnd := .s 18
     let l : Nat := 1
     let v := (s.op64 l a).toNat
     let n := s.d.frameAddr k + 256
     memWf s.mem = true ∧ s.slot? k = some g ∧ s.d.rideOf n = none ∧
         (begin_ s).passed.strongBefore s.d.cur.slot [l] s.d.nextId = false ∧
         v = 2 ^ 21 * (v / 2 ^ 21 % 8) + 2 ^ 15 * (v / 2 ^ 15 % 64) + 2 ^ 8 * (v / 2 ^ 8 % 128) ∧
         k = 8192 * (v / 2 ^ 21) + 128 * (v / 2 ^ 15 % 64) + v / 2 ^ 8 % 128 ∧ (begin_ s).leaseFree n = true ∧
         Runs (.signal h a) s h (a.names 2) [] [l] ∧ g.pk = some pk) ∧
    (let s : State := sSg 1 false 4
     let k : Nat := 4
     let g : Group := (s.slot? k).getD Group.gone
     let h : Hdr := { neg := false, grd := 1, ver1 := true, ctl := 0 }
     let a : Opnd := .s 18
     let l : Nat := 1
     let v := (s.op64 l a).toNat
     let n := s.d.frameAddr k + 256
     memWf s.mem = true ∧ s.slot? k = some g ∧ s.d.rideOf n = none ∧
         (begin_ s).passed.strongBefore s.d.cur.slot [l] s.d.nextId = false ∧
         v = 2 ^ 21 * (v / 2 ^ 21 % 8) + 2 ^ 15 * (v / 2 ^ 15 % 64) + 2 ^ 8 * (v / 2 ^ 8 % 128) ∧
         k = 8192 * (v / 2 ^ 21) + 128 * (v / 2 ^ 15 % 64) + v / 2 ^ 8 % 128 ∧ (begin_ s).leaseFree n = true ∧
         Runs (.signal h a) s h (a.names 2) [] [l] ∧ g.pk = none) ∧
    (let s : State := sSg 1 false 4 |> setS 18 (hdl 4 + 1)
     let k : Nat := 4
     let g : Group := (s.slot? k).getD Group.gone
     let h : Hdr := { neg := false, grd := 1, ver1 := true, ctl := 0 }
     let a : Opnd := .s 18
     let l : Nat := 1
     let v := (s.op64 l a).toNat
     let n := s.d.frameAddr k + 256
     memWf s.mem = true ∧ s.slot? k = some g ∧ s.d.rideOf n = none ∧
         (begin_ s).passed.strongBefore s.d.cur.slot [l] s.d.nextId = false ∧ s.here.owed = [] ∧
         v ≠ 2 ^ 21 * (v / 2 ^ 21 % 8) + 2 ^ 15 * (v / 2 ^ 15 % 64) + 2 ^ 8 * (v / 2 ^ 8 % 128) ∧
         Runs (.signal h a) s h (a.names 2) [] [l]) ∧
    (let s : State := sSg 1 false 4
     let k : Nat := 4
     let g : Group := (s.slot? k).getD Group.gone
     let h : Hdr := { neg := false, grd := 1, ver1 := true, ctl := 0 }
     let a : Opnd := .s 5
     let l : Nat := 1
     let v := (s.op64 l a).toNat
     let n := s.d.frameAddr k + 256
     memWf s.mem = true ∧ s.slot? k = some g ∧ s.d.rideOf n = none ∧
         (begin_ s).passed.strongBefore s.d.cur.slot [l] s.d.nextId = false ∧ s.here.owed = [] ∧
         (∀ tk ∈ s.d.pkg.tickets, tk.ticket ≠ v / 128 * 128) ∧ Runs (.sigtkt h a) s h (a.names 2) [] [l]) ∧
    (let s : State := sSg cFLT_ABSENT true 70000
     let k : Nat := 70000
     let g : Group := (s.slot? k).getD Group.gone
     let pk : Parked := { pc := 0x000000000005000, tok := 6, cause := 82, page := 119, signalled := false, late := false }
     let h : Hdr := { neg := false, grd := 1, ver1 := true, ctl := 0 }
     let a : Opnd := .s 19
     let l : Nat := 1
     let v := (s.op64 l a).toNat
     let n := s.d.frameAddr k + 256
     let tk := { key := 70000, ticket := 32896, locals := [] }
     memWf s.mem = true ∧ s.slot? k = some g ∧ s.d.rideOf n = none ∧
         (begin_ s).passed.strongBefore s.d.cur.slot [l] s.d.nextId = false ∧
         (s.d.pkg.tickets.find? (fun u => u.ticket == v / 128 * 128) = some tk) ∧ k = tk.key + v % 128 ∧ g.blk = tk.key ∧
         g.pk = some pk ∧ Runs (.sigtkt h a) s h (a.names 2) [] [l]) ∧
    (let s : State := sSg cGROW_STALL true 4 |> addGrp 8 id
     let slot : Nat := 4
     let g : Group := (s.slot? slot).getD Group.gone
     let pk : Parked := { pc := 0x000000000005000, tok := 6, cause := 6, page := 119, signalled := false, late := false }
     let e : Nat := 251
     let at_ : Nat := 2097152
     let lvl : Nat := 1
     s.slot? slot = some g ∧ g.pk = some pk ∧ pk.signalled = false ∧
         (((pk.cause = cGROW_STALL ∧ slot < 65536 ∧ (s.grp (partner slot)).extH = false) ∨
         ((begin_ s).leafAt (slotDie slot) (65536 * pk.page) = some (e, at_, lvl) ∧ e / 2 ^ 14 % 2 = 0 ∧
         (pk.cause = cFLT_MIGRATE ∨ (pk.cause = cFLT_LPDDR ∧ (e / 2 ^ 15 % 2 = 0 ∨ e / 2 ^ 13 % 2 = 0)))))) ∧
         pk.cause = cGROW_STALL) ∧
    (let s : State := sSg cFLT_LPDDR true 4
     let slot : Nat := 4
     let g : Group := (s.slot? slot).getD Group.gone
     let pk : Parked := { pc := 0x000000000005000, tok := 6, cause := 80, page := 119, signalled := false, late := false }
     let e : Nat := 251
     let at_ : Nat := 2097152
     let lvl : Nat := 1
     s.slot? slot = some g ∧ g.pk = some pk ∧ pk.signalled = false ∧
         (((pk.cause = cGROW_STALL ∧ slot < 65536 ∧ (s.grp (partner slot)).extH = false) ∨
         ((begin_ s).leafAt (slotDie slot) (65536 * pk.page) = some (e, at_, lvl) ∧ e / 2 ^ 14 % 2 = 0 ∧
         (pk.cause = cFLT_MIGRATE ∨ (pk.cause = cFLT_LPDDR ∧ (e / 2 ^ 15 % 2 = 0 ∨ e / 2 ^ 13 % 2 = 0)))))) ∧
         pk.cause = cFLT_LPDDR) ∧
    (let s : State := sSg cFLT_MIGRATE true 4
     let slot : Nat := 4
     let g : Group := (s.slot? slot).getD Group.gone
     let pk : Parked := { pc := 0x000000000005000, tok := 6, cause := 81, page := 119, signalled := false, late := false }
     let e : Nat := 251
     let at_ : Nat := 2097152
     let lvl : Nat := 1
     s.slot? slot = some g ∧ g.pk = some pk ∧ pk.signalled = false ∧
         (((pk.cause = cGROW_STALL ∧ slot < 65536 ∧ (s.grp (partner slot)).extH = false) ∨
         ((begin_ s).leafAt (slotDie slot) (65536 * pk.page) = some (e, at_, lvl) ∧ e / 2 ^ 14 % 2 = 0 ∧
         (pk.cause = cFLT_MIGRATE ∨ (pk.cause = cFLT_LPDDR ∧ (e / 2 ^ 15 % 2 = 0 ∨ e / 2 ^ 13 % 2 = 0)))))) ∧
         pk.cause = cFLT_MIGRATE) := by
  refine ⟨?_, ?_, ?_, ?_, ?_, ?_, ?_, ?_⟩ <;>
    (try simp -zeta only
      [FenceMet, AtGate, BoOk, EngineOn, EngineOnAt, RingAt, RingRoom, GlobOk, PcmdAt, ex_ok, ex_ok_list, ex_die, v_below,
          no_cb_copy, no_cb, all_load, no_load, eq_ok, eq_error, on_die, not_out, all_some2, all_some, is_red, no_b,
          ex_is_ok, ex_ok_some, ex_err_some, ex_is_some, ex_is_error, no_ret, no_comp, ex_copy, no_build, key_all, Unread,
          Stands, no_stage]) <;>
    decide +kernel

theorem witness_PrivilegedSteps :
    (let s : State := sPv
     let h : Hdr := { neg := false, grd := 15, ver1 := true, ctl := 0 }
     let x : List Nat := [0, 1]
     let a : Opnd := .v 2
     Runs (.intpendClear h a) s h (a.names 1) [] x) ∧
    (let s : State := sPv
     let h : Hdr := { neg := false, grd := 1, ver1 := true, ctl := 0 }
     let a : Opnd := .v 2
     let l : Nat := 1
     Runs (.partmapWrite h a) s h (a.names 1) [] [l] ∧ (begin_ s).passed.strongBefore s.d.cur.slot [l] s.d.nextId = false) ∧
    (let s : State := sPv
     let h : Hdr := { neg := false, grd := 1, ver1 := true, ctl := 0 }
     let a : Opnd := .v 2
     let l : Nat := 1
     let die := slotDie s.d.cur.slot
     Runs (.eccwinWrite h a) s h (a.names 1) [] [l] ∧ ((s.d.die die).eccCnt.map Prod.fst).Nodup) ∧
    (let s : State := atNow 1000 sPv
     let h : Hdr := { neg := false, grd := 15, ver1 := true, ctl := 0 }
     let x : List Nat := [0, 1]
     let a : Opnd := .v 2
     Runs (.hostint h a) s h (a.names 1) [] x ∧ s.d.cur.stamped = false ∧ FenceMet s .sys ∧ s.d.pkg.linkStat.toNat % 256 ≠ 0) ∧
    (let s : State := sM |> updPkg fun p => { p with linkStat := 0x100}
     let h : Hdr := { neg := false, grd := 15, ver1 := true, ctl := 0 }
     let x : List Nat := [0, 1]
     let a : Opnd := .v 2
     Runs (.hostint h a) s h (a.names 1) [] x ∧ s.d.cur.stamped = false ∧ s.d.pkg.linkStat.toNat % 256 = 0) ∧
    (let s : State := sM
     let h : Hdr := { neg := false, grd := 15, ver1 := true, ctl := 0 }
     let x : List Nat := [0, 1]
     let a : Opnd := .v 2
     Runs (.xlinv h a) s h (a.names 2) [] x ∧ s.d.cur.stamped = false) ∧
    (let s : State := sXl
     let h : Hdr := { neg := false, grd := 15, ver1 := true, ctl := 0 }
     let x : List Nat := [0, 1]
     let a : Opnd := .v 2
     let die := slotDie s.d.cur.slot
     let args := [(0, [3, 4, 5]), (1, [3, 4, 5])]
     let id0 : Nat → Nat := fun _ => 3
     let rev0 : Nat → Nat := fun _ => 4
     let v : Nat → Nat := fun _ => 5
     Runs (.xlinv h a) s h (a.names 2) [] x ∧ s.d.cur.stamped = true ∧
         ((∀ k ∈ x, (s.here.thread k).wait.map Wait.why = some (.cont args) ∧
         args.find? (fun p => p.1 == k) = some (k, [id0 k, rev0 k, v k]))) ∧ rev0 (x.headD 0) + 16 ≤ s.d.now / 128 ∧
         (begin_ s).opsBefore (s.d.partDies (dieParts s.d die)) (id0 (x.headD 0)) = false) := by
  refine ⟨?_, ?_, ?_, ?_, ?_, ?_, ?_⟩ <;>
    (try simp -zeta only
      [FenceMet, AtGate, BoOk, EngineOn, EngineOnAt, RingAt, RingRoom, GlobOk, PcmdAt, ex_ok, ex_ok_list, ex_die, v_below,
          no_cb_copy, no_cb, all_load, no_load, eq_ok, eq_error, on_die, not_out, all_some2, all_some, is_red, no_b,
          ex_is_ok, ex_ok_some, ex_err_some, ex_is_some, ex_is_error, no_ret, no_comp, ex_copy, no_build, key_all, Unread,
          Stands, no_stage]) <;>
    decide +kernel

theorem witness_Attestation :
    (let s : State := atNow 1000 sAt
     let h : Hdr := { neg := false, grd := 1, ver1 := true, ctl := 0 }
     let a : Opnd := .s 21
     let l : Nat := 1
     let va := (s.op64 l a).toNat % 2 ^ 57
     FenceMet s .sys ∧ Runs (.attaddr h a) s h (a.names 2) [] [l] ∧ va % 4096 ≠ 0) ∧
    (let s : State := atNow 1000 sAt
     let h : Hdr := { neg := false, grd := 1, ver1 := true, ctl := 0 }
     let a : Opnd := .s 22
     let l : Nat := 1
     let va := (s.op64 l a).toNat % 2 ^ 57
     let die := slotDie s.d.cur.slot
     let tr := (begin_ s).translate die va .store (!s.myBlk.priv)
     let c := 20
     FenceMet s .sys ∧ Runs (.attaddr h a) s h (a.names 2) [] [l] ∧ va % 4096 = 0 ∧ tr = .error c ∧ c ≠ cWALKWAIT ∧
         c ≠ cWALKDEAD) ∧
    (let s : State := atNow 1000 (sM |> setS 20 0x240000 |> poke 0x240000 32 0x123456789)
     let h : Hdr := { neg := false, grd := 1, ver1 := true, ctl := 0 }
     let a : Opnd := .s 20
     let l : Nat := 1
     let va := (s.op64 l a).toNat % 2 ^ 57
     let die := slotDie s.d.cur.slot
     let tr := (begin_ s).translate die va .store (!s.myBlk.priv)
     let lf := { pa := 2359296, lease := 4, ring := true, wr := true, tier := false, mig := false, at_ := 2097152, size := 536870912 }
     FenceMet s .sys ∧ Runs (.attaddr h a) s h (a.names 2) [] [l] ∧ va % 4096 = 0 ∧ tr = .ok lf ∧ memWf s.mem = true ∧
         (begin_ s).deadAt lf.pa true = false ∧
         (∀ i < 8, (begin_ s).leaseFree (lf.pa + 512 * i) = true ∧ homeUp s.d (lf.pa + 512 * i) = true) ∧
         (∀ i < 4096, s.d.rideOf (lf.pa + i) = none)) := by
  refine ⟨?_, ?_, ?_⟩
  · try simp -zeta only [FenceMet, AtGate, BoOk, EngineOn, EngineOnAt, RingAt, RingRoom, GlobOk, PcmdAt, ex_ok, ex_ok_list, ex_die, v_below, no_cb_copy, no_cb, all_load, no_load, eq_ok, eq_error, on_die, not_out, all_some2, all_some, is_red, no_b, ex_is_ok, ex_ok_some, ex_err_some, ex_is_some, ex_is_error, no_ret, no_comp, ex_copy, no_build, key_all, Unread, Stands, no_stage]
    decide +kernel
  · try simp -zeta only [FenceMet, AtGate, BoOk, EngineOn, EngineOnAt, RingAt, RingRoom, GlobOk, PcmdAt, ex_ok, ex_ok_list, ex_die, v_below, no_cb_copy, no_cb, all_load, no_load, eq_ok, eq_error, on_die, not_out, all_some2, all_some, is_red, no_b, ex_is_ok, ex_ok_some, ex_err_some, ex_is_some, ex_is_error, no_ret, no_comp, ex_copy, no_build, key_all, Unread, Stands, no_stage]
    decide +kernel
  · intro s h a l va die tr lf
    refine ⟨?_, ?_, ?_, ?_, ?_, ?_, ?_, ?_⟩ <;> first
      | exact gives_all (by decide +revert +kernel)
      | exact stores_all (by decide +revert +kernel)
      | exact misnames_range (by decide +revert +kernel)
      | exact .inl ⟨_, rfl, rfl, rfl⟩
      | exact .inl (glob_ok (by decide +revert +kernel))
      | exact low_place (by decide +revert +kernel)
      | exact (calm_range (by decide +revert +kernel) (by decide +revert +kernel) (by decide +revert +kernel)).1
      | exact (calm_range (by decide +revert +kernel) (by decide +revert +kernel) (by decide +revert +kernel)).2.1
      | exact (calm_range (by decide +revert +kernel) (by decide +revert +kernel) (by decide +revert +kernel)).2.2
      | exact fun i hi => ⟨(calm_byte (by decide +revert +kernel) (by have : lf.pa = 2359296 := rfl; omega)).2.1.1, (calm_byte (by decide +revert +kernel) (by have : lf.pa = 2359296 := rfl; omega)).1.1⟩
      | exact fun i hi => (calm_byte (by decide +revert +kernel) (by have : lf.pa = 2359296 := rfl; omega)).1.2
      | decide +revert +kernel
      | (simp only [FenceMet, AtGate, BoOk, EngineOn, EngineOnAt, RingAt, RingRoom, GlobOk, PcmdAt, ex_ok, ex_ok_list, ex_die, v_below, no_cb_copy, no_cb, all_load, no_load, eq_ok, eq_error, on_die, not_out, all_some2, all_some, is_red, no_b, ex_is_ok, ex_ok_some, ex_err_some, ex_is_some, ex_is_error, no_ret, no_comp, ex_copy, no_build, key_all, Unread, Stands, no_stage]; decide +revert +kernel)

theorem witness_SaveRestoreGroup :
    (let s : State := sSv 1 id
     let h : Hdr := { neg := false, grd := 1, ver1 := true, ctl := 0 }
     let slot : Opnd := .s 20
     let handle : Opnd := .s 18
     let l : Nat := 1
     let k : Nat := 4
     let g : Group := (s.slot? k).getD Group.gone
     let ps : List Nat := [2359296]
     let va := (s.op64 l slot).toNat
     let die := slotDie s.d.cur.slot
     let vb := (s.blk g.blk).vbase
     let g := g.whole
     let n := if g.extH then 0x8D00 else 0xD00 + 1024 * vb
     memWf s.mem = true ∧ s.slot? k = some g ∧ g.stop.isSome = true ∧ k ≠ s.d.cur.slot ∧ vb ≤ 8 ∧ g.contTok < 64 ∧
         va % 256 = 0 ∧ va < 2 ^ 57 ∧ handleGroup (s.op64 l handle).toNat = some k ∧ s.d.cur.stamped = false ∧
         FenceMet s .blk ∧ (begin_ s).groupQuiet k = true ∧ RangeOk s ps va n ∧ RangeWrites s ps va n ∧
         (begin_ s).mapPages die .engW false va n = .ok ps ∧
         Runs (.saveGroup h slot handle) s h (slot.names 2 ++ handle.names 2) [] [l]) ∧
    (let s : State := sRst
     let h : Hdr := { neg := false, grd := 1, ver1 := true, ctl := 0 }
     let slot : Opnd := .s 20
     let handle : Opnd := .s 18
     let l : Nat := 1
     let k : Nat := 4
     let g : Group := (s.slot? k).getD Group.gone
     let ps : List Nat := [2359296]
     let va := (s.op64 l slot).toNat
     let die := slotDie s.d.cur.slot
     let vb := (s.blk g.blk).vbase
     let ext : Bool := false
     let n := if ext then 0x8D00 else 0xD00 + 1024 * vb
     let num := s.rangeNum ps va
     memWf s.mem = true ∧ s.slot? k = some g ∧ g.stop.isSome = true ∧ k ≠ s.d.cur.slot ∧ vb ≤ 8 ∧ g.contTok < 64 ∧
         va % 256 = 0 ∧ va < 2 ^ 57 ∧ handleGroup (s.op64 l handle).toNat = some k ∧ s.d.cur.stamped = false ∧
         FenceMet s .blk ∧ (begin_ s).headExt va = ext ∧ num 0 1 % 2 = ext.toNat ∧ num 1 1 % 16 = vb ∧ RangeOk s ps va n ∧
         RangeReads s ps va n ∧ (begin_ s).mapPages die .engR false va n = .ok ps ∧
         Runs (.restoreGroup h slot handle) s h (slot.names 2 ++ handle.names 2) [] [l]) := by
  refine ⟨?_, ?_⟩
  · intro s h slot handle l k g ps va die vb g n
    refine ⟨?_, ?_, ?_, ?_, ?_, ?_, ?_, ?_, ?_, ?_, ?_, ?_, ?_, ?_, ?_, ?_⟩ <;> first
      | exact gives_all (by decide +revert +kernel)
      | exact stores_all (by decide +revert +kernel)
      | exact misnames_range (by decide +revert +kernel)
      | exact .inl ⟨_, rfl, rfl, rfl⟩
      | exact .inl (glob_ok (by decide +revert +kernel))
      | exact low_place (by decide +revert +kernel)
      | exact (calm_range (by decide +revert +kernel) (by decide +revert +kernel) (by decide +revert +kernel)).1
      | exact (calm_range (by decide +revert +kernel) (by decide +revert +kernel) (by decide +revert +kernel)).2.1
      | exact (calm_range (by decide +revert +kernel) (by decide +revert +kernel) (by decide +revert +kernel)).2.2
      | exact fun i hi => ⟨(calm_byte (by decide +revert +kernel) (by have : lf.pa = 2359296 := rfl; omega)).2.1.1, (calm_byte (by decide +revert +kernel) (by have : lf.pa = 2359296 := rfl; omega)).1.1⟩
      | exact fun i hi => (calm_byte (by decide +revert +kernel) (by have : lf.pa = 2359296 := rfl; omega)).1.2
      | decide +revert +kernel
      | (simp only [FenceMet, AtGate, BoOk, EngineOn, EngineOnAt, RingAt, RingRoom, GlobOk, PcmdAt, ex_ok, ex_ok_list, ex_die, v_below, no_cb_copy, no_cb, all_load, no_load, eq_ok, eq_error, on_die, not_out, all_some2, all_some, is_red, no_b, ex_is_ok, ex_ok_some, ex_err_some, ex_is_some, ex_is_error, no_ret, no_comp, ex_copy, no_build, key_all, Unread, Stands, no_stage]; decide +revert +kernel)
  · intro s h slot handle l k g ps va die vb ext n num
    refine ⟨?_, ?_, ?_, ?_, ?_, ?_, ?_, ?_, ?_, ?_, ?_, ?_, ?_, ?_, ?_, ?_, ?_, ?_⟩ <;> first
      | exact gives_all (by decide +revert +kernel)
      | exact stores_all (by decide +revert +kernel)
      | exact misnames_range (by decide +revert +kernel)
      | exact .inl ⟨_, rfl, rfl, rfl⟩
      | exact .inl (glob_ok (by decide +revert +kernel))
      | exact low_place (by decide +revert +kernel)
      | exact (calm_range (by decide +revert +kernel) (by decide +revert +kernel) (by decide +revert +kernel)).1
      | exact (calm_range (by decide +revert +kernel) (by decide +revert +kernel) (by decide +revert +kernel)).2.1
      | exact (calm_range (by decide +revert +kernel) (by decide +revert +kernel) (by decide +revert +kernel)).2.2
      | exact fun i hi => ⟨(calm_byte (by decide +revert +kernel) (by have : lf.pa = 2359296 := rfl; omega)).2.1.1, (calm_byte (by decide +revert +kernel) (by have : lf.pa = 2359296 := rfl; omega)).1.1⟩
      | exact fun i hi => (calm_byte (by decide +revert +kernel) (by have : lf.pa = 2359296 := rfl; omega)).1.2
      | decide +revert +kernel
      | (simp only [FenceMet, AtGate, BoOk, EngineOn, EngineOnAt, RingAt, RingRoom, GlobOk, PcmdAt, ex_ok, ex_ok_list, ex_die, v_below, no_cb_copy, no_cb, all_load, no_load, eq_ok, eq_error, on_die, not_out, all_some2, all_some, is_red, no_b, ex_is_ok, ex_ok_some, ex_err_some, ex_is_some, ex_is_error, no_ret, no_comp, ex_copy, no_build, key_all, Unread, Stands, no_stage]; decide +revert +kernel)

theorem witness_SaveRestoreBlock :
    (let s : State := sSB 0 .trap false
     let h : Hdr := { neg := false, grd := 1, ver1 := true, ctl := 0 }
     let slot : Opnd := .s 20
     let handle : Opnd := .s 18
     let l : Nat := 1
     let k : Nat := 4
     let b : Block := (sget? s.d.blocks k).getD Block.gone
     let ps : List Nat := [2359296]
     let va := (s.op64 l slot).toNat
     let die := slotDie s.d.cur.slot
     let win := 0xD00 + 16384 * b.acc
     let n := win + 1024 * b.spad + 16
     memWf s.mem = true ∧ (begin_ s).stoppedBlock (s.op64 l handle).toNat = some k ∧ sget? s.d.blocks k = some b ∧
         k ≠ s.here.blk ∧ va % 256 = 0 ∧ va < 2 ^ 57 ∧ s.d.cur.stamped = false ∧ FenceMet s .blk ∧ RangeOk s ps va n ∧
         (∀ q ∈ b.slots k, (begin_ s).groupQuiet q = true) ∧ RangeWrites s ps va n ∧
         (begin_ s).mapPages die .engW false va n = .ok ps ∧
         Runs (.saveBlock h slot handle) s h (slot.names 2 ++ handle.names 2) [] [l]) ∧
    (let s : State := sRbk
     let h : Hdr := { neg := false, grd := 1, ver1 := true, ctl := 0 }
     let slot : Opnd := .s 20
     let handle : Opnd := .s 18
     let l : Nat := 1
     let k : Nat := 4
     let b : Block := (sget? s.d.blocks k).getD Block.gone
     let ps : List Nat := [2359296]
     let va := (s.op64 l slot).toNat
     let die := slotDie s.d.cur.slot
     let win := 0xD00 + 16384 * b.acc
     let n := win + 1024 * b.spad + 16
     let num := s.rangeNum ps va
     memWf s.mem = true ∧ (begin_ s).stoppedBlock (s.op64 l handle).toNat = some k ∧ sget? s.d.blocks k = some b ∧
         k ≠ s.here.blk ∧ va % 256 = 0 ∧ va < 2 ^ 57 ∧ s.d.cur.stamped = false ∧ FenceMet s .blk ∧ RangeOk s ps va n ∧
         num (win + 1024 * b.spad + 15) 1 < 128 ∧ RangeReads s ps va n ∧
         (begin_ s).mapPages die .engR false va n = .ok ps ∧
         Runs (.restoreBlock h slot handle) s h (slot.names 2 ++ handle.names 2) [] [l]) := by
  refine ⟨?_, ?_⟩
  · intro s h slot handle l k b ps va die win n
    refine ⟨?_, ?_, ?_, ?_, ?_, ?_, ?_, ?_, ?_, ?_, ?_, ?_, ?_⟩ <;> first
      | exact gives_all (by decide +revert +kernel)
      | exact stores_all (by decide +revert +kernel)
      | exact misnames_range (by decide +revert +kernel)
      | exact .inl ⟨_, rfl, rfl, rfl⟩
      | exact .inl (glob_ok (by decide +revert +kernel))
      | exact low_place (by decide +revert +kernel)
      | exact (calm_range (by decide +revert +kernel) (by decide +revert +kernel) (by decide +revert +kernel)).1
      | exact (calm_range (by decide +revert +kernel) (by decide +revert +kernel) (by decide +revert +kernel)).2.1
      | exact (calm_range (by decide +revert +kernel) (by decide +revert +kernel) (by decide +revert +kernel)).2.2
      | exact fun i hi => ⟨(calm_byte (by decide +revert +kernel) (by have : lf.pa = 2359296 := rfl; omega)).2.1.1, (calm_byte (by decide +revert +kernel) (by have : lf.pa = 2359296 := rfl; omega)).1.1⟩
      | exact fun i hi => (calm_byte (by decide +revert +kernel) (by have : lf.pa = 2359296 := rfl; omega)).1.2
      | decide +revert +kernel
      | (simp only [FenceMet, AtGate, BoOk, EngineOn, EngineOnAt, RingAt, RingRoom, GlobOk, PcmdAt, ex_ok, ex_ok_list, ex_die, v_below, no_cb_copy, no_cb, all_load, no_load, eq_ok, eq_error, on_die, not_out, all_some2, all_some, is_red, no_b, ex_is_ok, ex_ok_some, ex_err_some, ex_is_some, ex_is_error, no_ret, no_comp, ex_copy, no_build, key_all, Unread, Stands, no_stage]; decide +revert +kernel)
  · intro s h slot handle l k b ps va die win n num
    refine ⟨?_, ?_, ?_, ?_, ?_, ?_, ?_, ?_, ?_, ?_, ?_, ?_, ?_⟩ <;> first
      | exact gives_all (by decide +revert +kernel)
      | exact stores_all (by decide +revert +kernel)
      | exact misnames_range (by decide +revert +kernel)
      | exact .inl ⟨_, rfl, rfl, rfl⟩
      | exact .inl (glob_ok (by decide +revert +kernel))
      | exact low_place (by decide +revert +kernel)
      | exact (calm_range (by decide +revert +kernel) (by decide +revert +kernel) (by decide +revert +kernel)).1
      | exact (calm_range (by decide +revert +kernel) (by decide +revert +kernel) (by decide +revert +kernel)).2.1
      | exact (calm_range (by decide +revert +kernel) (by decide +revert +kernel) (by decide +revert +kernel)).2.2
      | exact fun i hi => ⟨(calm_byte (by decide +revert +kernel) (by have : lf.pa = 2359296 := rfl; omega)).2.1.1, (calm_byte (by decide +revert +kernel) (by have : lf.pa = 2359296 := rfl; omega)).1.1⟩
      | exact fun i hi => (calm_byte (by decide +revert +kernel) (by have : lf.pa = 2359296 := rfl; omega)).1.2
      | decide +revert +kernel
      | (simp only [FenceMet, AtGate, BoOk, EngineOn, EngineOnAt, RingAt, RingRoom, GlobOk, PcmdAt, ex_ok, ex_ok_list, ex_die, v_below, no_cb_copy, no_cb, all_load, no_load, eq_ok, eq_error, on_die, not_out, all_some2, all_some, is_red, no_b, ex_is_ok, ex_ok_some, ex_err_some, ex_is_some, ex_is_error, no_ret, no_comp, ex_copy, no_build, key_all, Unread, Stands, no_stage]; decide +revert +kernel)

theorem witness_Preemption :
    (let s : State := pcm 1 (blockHandle 4) sPm0
     let core : Nat := 0
     let k : Nat := 4
     let c : Cmd := { id := 2, code := 1, slot := 0, arg := 9223372036854776832, st := .waiting, since := 1 }
     let b : Block := (sget? s.d.blocks k).getD Block.gone
     let w := begin_ s
     sget? s.d.blocks k = some b ∧ PcmdAt s core 1 c ∧ w.handleBlk c.arg = some k) ∧
    (let s : State := pcm 2 (blockHandle 4) (sPq fun b => {b with preq := some 7, drained := true})
     let core : Nat := 0
     let k : Nat := 4
     let c : Cmd := { id := 2, code := 2, slot := 0, arg := 9223372036854776832, st := .waiting, since := 1 }
     let b : Block := (sget? s.d.blocks k).getD Block.gone
     let w := begin_ s
     sget? s.d.blocks k = some b ∧ PcmdAt s core 2 c ∧ w.handleBlk c.arg = some k ∧ b.preq.isSome = true) ∧
    (let s : State := pcm 5 (blockHandle 4) (sPq fun b => {b with preq := some 0, drained := true})
     let core : Nat := 0
     let k : Nat := 4
     let c : Cmd := { id := 2, code := 5, slot := 0, arg := 9223372036854776832, st := .waiting, since := 1 }
     let b : Block := (sget? s.d.blocks k).getD Block.gone
     let w := begin_ s
     sget? s.d.blocks k = some b ∧ PcmdAt s core 5 c ∧ w.stoppedBlock c.arg = some k) ∧
    (let s : State := pcm 3 (blockHandle 4) (sPq fun b => {b with preq := some 0, drained := true})
     let core : Nat := 0
     let k : Nat := 4
     let c : Cmd := { id := 2, code := 3, slot := 0, arg := 9223372036854776832, st := .waiting, since := 1 }
     let b : Block := (sget? s.d.blocks k).getD Block.gone
     let w := begin_ s
     let n := 0
     sget? s.d.blocks k = some b ∧ PcmdAt s core 3 c ∧ w.stoppedBlock c.arg = some k ∧ b.drained = true ∧ b.gcnt ≤ 128 ∧
         (∀ q ∈ b.slots k, w.frameValid q = false) ∧ s.d.pkg.tickets.length < 4096 ∧ w.freeKey = some n) ∧
    (let s : State := sAtt 0 1
     let core : Nat := 0
     let k : Nat := 70000
     let c : Cmd := { id := 2, code := 4, slot := 0, arg := 32896, st := .waiting, since := 1 }
     let b : Block := (sget? s.d.blocks k).getD Block.gone
     let w := begin_ s
     let toCore : Nat := 0
     let slot : Nat := 8
     let tk : Ticket := { key := 70000, ticket := 32896, locals := [] }
     let ln : Launch := (sget? s.d.launches b.launch).getD launch
     sget? s.d.blocks k = some b ∧ PcmdAt s core 4 c ∧ w.ticket? c.arg = some tk ∧ tk.key = k ∧ 65536 ≤ k ∧ toCore < 512 ∧
         slot < 128 ∧ sget? s.d.launches b.launch = some ln ∧ ln.dieMask.testBit (toCore / 64) = true ∧
         s.d.dieServes (toCore / 64) = true ∧ w.fits (128 * toCore + slot) b.gcnt b.spad b.acc b.cb.isSome = true) ∧
    (let s : State := pcm 6 (blockHandle 4) sPm0
     let core : Nat := 0
     let k : Nat := 4
     let c : Cmd := { id := 2, code := 6, slot := 0, arg := 9223372036854776832, st := .waiting, since := 1 }
     let b : Block := (sget? s.d.blocks k).getD Block.gone
     let w := begin_ s
     sget? s.d.blocks k = some b ∧ PcmdAt s core 6 c ∧ w.handleBlk c.arg = some k) ∧
    (let s : State := {(sPq fun b => {b with preq := some 0}) with d := { (sPq fun b => {b with preq := some 0}).d with blocks := (sPq fun b => {b with preq := some 0}).d.blocks.filter (fun e => e.1 == 4) }}
     let core : Nat := 0
     let k : Nat := 4
     let b : Block := (sget? s.d.blocks k).getD Block.gone
     let w := begin_ s
     sget? s.d.blocks k = some b ∧ b.preq = some core ∧ b.drained = false ∧ (∀ q ∈ b.slots k, w.groupDrained q = true) ∧
         (∀ e ∈ s.d.ops, e.blk ≠ k)) := by
  refine ⟨?_, ?_, ?_, ?_, ?_, ?_, ?_⟩ <;>
    (try simp -zeta only
      [FenceMet, AtGate, BoOk, EngineOn, EngineOnAt, RingAt, RingRoom, GlobOk, PcmdAt, ex_ok, ex_ok_list, ex_die, v_below,
          no_cb_copy, no_cb, all_load, no_load, eq_ok, eq_error, on_die, not_out, all_some2, all_some, is_red, no_b,
          ex_is_ok, ex_ok_some, ex_err_some, ex_is_some, ex_is_error, no_ret, no_comp, ex_copy, no_build, key_all, Unread,
          Stands, no_stage]) <;>
    decide +kernel

theorem witness_LaunchesBlocks :
    (let s : State := sQp (recN 1 2 4 2 1 1)
     let q : Nat := 5
     let p : Nat := 0
     let d : Nat := 0
     let i : Nat := 16
     let head : Nat := 4160
     let pa : Nat := 24768
     let r : RSlot := SlotOf s 0 16
     let w := begin_ s
     let x := w.descOf p q
     let j := r.data % 2 ^ 64
     let n := bytesNat (w.physBytes pa 64)
     s.d.servers q = [p] ∧ s.d.pkg.rdyPkg.getLsbD 0 = true ∧ dEN x = true ∧ dKIND x = false ∧ w.descBad p x = false ∧
         w.look (s.d.partDie p) (dHOBJ x) .ring = .ok head ∧ s.d.launches.length < 4096 ∧ w.holdsRecord q = false ∧
         AtGate s head d i r ∧ j < r.data / 2 ^ 64 % 2 ^ 64 ∧
         w.look (s.d.partDie p) (dRAREA x + 64 * (j % 2 ^ dLOG2N x)) .load = .ok pa ∧ w.misled q x r.data head pa = false ∧
         w.judge p x n = .launch) ∧
    (let s : State := sQp (recN 1 2 4 0 1 1)
     let q : Nat := 5
     let p : Nat := 0
     let d : Nat := 0
     let i : Nat := 16
     let head : Nat := 4160
     let pa : Nat := 24768
     let r : RSlot := SlotOf s 0 16
     let w := begin_ s
     let x := w.descOf p q
     let j := r.data % 2 ^ 64
     let n := bytesNat (w.physBytes pa 64)
     let c := 131072
     s.d.servers q = [p] ∧ s.d.pkg.rdyPkg.getLsbD 0 = true ∧ dEN x = true ∧ dKIND x = false ∧ w.descBad p x = false ∧
         w.look (s.d.partDie p) (dHOBJ x) .ring = .ok head ∧ s.d.launches.length < 4096 ∧ w.holdsRecord q = false ∧
         AtGate s head d i r ∧ j < r.data / 2 ^ 64 % 2 ^ 64 ∧
         w.look (s.d.partDie p) (dRAREA x + 64 * (j % 2 ^ dLOG2N x)) .load = .ok pa ∧ w.misled q x r.data head pa = false ∧
         w.judge p x n = .bad c ∧ s.d.rideOf c = none ∧ memWf s.mem = true ∧ c % 64 = 0) ∧
    (let s : State := sQp (recN 1 2 4 2 1 1 0x20001)
     let q : Nat := 5
     let p : Nat := 0
     let d : Nat := 0
     let i : Nat := 16
     let head : Nat := 4160
     let pa : Nat := 24768
     let r : RSlot := SlotOf s 0 16
     let w := begin_ s
     let x := w.descOf p q
     let j := r.data % 2 ^ 64
     let n := bytesNat (w.physBytes pa 64)
     s.d.servers q = [p] ∧ s.d.pkg.rdyPkg.getLsbD 0 = true ∧ dEN x = true ∧ dKIND x = false ∧ w.descBad p x = false ∧
         w.look (s.d.partDie p) (dHOBJ x) .ring = .ok head ∧ s.d.launches.length < 4096 ∧ w.holdsRecord q = false ∧
         AtGate s head d i r ∧ j < r.data / 2 ^ 64 % 2 ^ 64 ∧
         w.look (s.d.partDie p) (dRAREA x + 64 * (j % 2 ^ dLOG2N x)) .load = .ok pa ∧ w.misled q x r.data head pa = false ∧
         w.judge p x n = .rej) ∧
    (let s : State := sPl 5 0
     let id : Nat := 9
     let slot : Nat := 128
     let ln : Launch := (sget? s.d.launches id).getD launch
     let i : Nat := 1
     let is : List Nat := [2, 3, 4]
     let w := begin_ s
     let r := ln.rec_
     sget? s.d.launches id = some ln ∧ ln.gang = 0 ∧ w.readyBlocks ln = i :: is ∧ w.dieTakes ln (slot / 8192) = true ∧
         w.turnOf id (slot / 8192) ln = true ∧ w.fits slot (r.gpb + 1) r.spad r.acc false = true ∧ memWf s.mem = true) ∧
    (let s : State := sPl 5 0 |> updB fun b => {b with stagger := some (none, 900)}
     let k : Nat := 0
     let c : Nat := 900
     let b : Block := (sget? s.d.blocks k).getD Block.gone
     sget? s.d.blocks k = some b ∧ b.stagger = some (none, c) ∧ c ≤ s.d.now) ∧
    (let s : State := sRt 9 3
     let k : Nat := 4
     let b : Block := (sget? s.d.blocks k).getD Block.gone
     let ln : Launch := (sget? s.d.launches b.launch).getD launch
     let pa : Nat := 131136
     let pa0 : Nat := 131072
     let w := begin_ s
     let w' := w.countBlk ln
     let c := w.blockClock b k
     let n := ln.retired.length + 1
     sget? s.d.blocks k = some b ∧ (∀ q ∈ b.slots k, w.groupOver q = true) ∧ (∀ e ∈ s.d.ops, e.blk ≠ k) ∧
         memWf s.mem = true ∧ sget? s.d.launches b.launch = some ln ∧ w.complPa ln 0 = some pa0 ∧
         w.complPa ln (64 + b.idx / 8) = some pa ∧ w'.complPa ln (64 + b.idx / 8) = some pa ∧ s.d.rideOf pa = none ∧
         s.d.rideOf pa0 = none ∧ ((pa < pa0 ∨ pa0 + 64 ≤ pa)) ∧ n ≤ ln.rec_.nblk ∧
         ((n = ln.rec_.nblk → ((w'.setBit ln b.idx c).removeBlk k).complPa ln 0 = some pa0))) ∧
    (let s : State := sEl2 false
     let core : Nat := 0
     let id : Nat := 9
     let c : Cmd := { id := 2, code := 7, slot := 0, arg := 131072, st := .waiting, since := 1 }
     let ln : Launch := (sget? s.d.launches id).getD launch
     PcmdAt s core 7 c ∧ (begin_ s).launchAt c.arg = some id ∧ sget? s.d.launches id = some ln ∧
         ((begin_ s).complPa ln 0).isSome = true ∧
         (∀ i ≤ ln.rec_.nblk / 512, ((begin_ s).complPa ln (64 + 64 * i)).isSome = true)) ∧
    (let s : State := sGx 3
     let in_ : Nat := 64
     let g : Group := (s.slot? in_).getD Group.gone
     s.slot? in_ = some g ∧ (begin_ s).readyLongest in_ g = true ∧ ((begin_ s).activeIn in_).length < 8) ∧
    (let s : State := sGx 7
     let in_ : Nat := 64
     let out : Nat := 8
     let g : Group := (s.slot? in_).getD Group.gone
     let o := ((s.slot? out).toList).getD 0 Group.gone
     s.slot? in_ = some g ∧ (begin_ s).readyLongest in_ g = true ∧ 8 ≤ ((begin_ s).activeIn in_).length ∧
         s.slot? out = some o ∧ o.active = true ∧ o.longWait = true ∧ out < 65536 ∧ slotCore out = slotCore in_ ∧
         out % 4 = in_ % 4) := by
  refine ⟨?_, ?_, ?_, ?_, ?_, ?_, ?_, ?_, ?_⟩ <;>
    (try simp -zeta only
      [FenceMet, AtGate, BoOk, EngineOn, EngineOnAt, RingAt, RingRoom, GlobOk, PcmdAt, ex_ok, ex_ok_list, ex_die, v_below,
          no_cb_copy, no_cb, all_load, no_load, eq_ok, eq_error, on_die, not_out, all_some2, all_some, is_red, no_b,
          ex_is_ok, ex_ok_some, ex_err_some, ex_is_some, ex_is_error, no_ret, no_comp, ex_copy, no_build, key_all, Unread,
          Stands, no_stage]) <;>
    decide +kernel

theorem witness_PagesLinks :
    (let s : State := sM |> setS 30 1
     let die : Nat := 0
     let va : Addr := 0x000000000040000
     let at_ : Nat := 2097152
     let lvl : Nat := 1
     let e : Nat := 251
     let newPa : Addr := 0x000000020000000
     let tier : Bool := false
     let size := 2 ^ lvlShift lvl
     let new := newPa.toNat
     let mine := fun a => ∃ h, homeOf s.d a = .die h ∧ dieParts s.d h = dieParts s.d die
     (begin_ s).leafAt die va.toNat = some (e, at_, lvl) ∧ e / 2 ^ 14 % 2 = 0 ∧ new % size = 0 ∧ mine new ∧
         mine (new + size - 1) ∧ mine (eAddr e) ∧ localTier new = tier ∧ localTier (new + size - 1) = tier ∧
         (begin_ s).placeFree new size = true ∧ (begin_ s).leafReady at_ = true ∧ s.d.rideOf at_ = none ∧
         memWf s.mem = true ∧ (begin_ s).load at_ 16 = e ∧ Sizes s at_ 16 Agent.walker .pkg []) ∧
    (let s : State := sMv
     let k : Nat := 0
     let m : Move := { die := 0, leaf := 2097152, old := 0, new := 536870912, size := 536870912, tier := false, mark := 0 }
     let w := begin_ s
     let e := w.load m.leaf 16
     s.d.pkg.moves[k]? = some m ∧ w.opsBefore (s.d.partDies (dieParts s.d m.die)) m.mark = false ∧ w.pageRides m = false ∧
         w.leafReady m.leaf = true ∧ s.d.rideOf m.leaf = none ∧ memWf s.mem = true ∧ eAddr e = m.old ∧ m.leaf % 16 = 0 ∧
         Sizes s m.leaf 16 Agent.walker .pkg [] ∧ e / 2 ^ 14 % 2 = 1 ∧ e % 2 = 1 ∧
         ((m.leaf + 16 ≤ m.new ∨ m.new + m.size ≤ m.leaf)) ∧ m.new % 512 = 0 ∧ m.size % 512 = 0) ∧
    (let s : State := (sM |> updPkg fun p => { p with linkStat := 0x04000101 })
     let pa : Addr := 0x000000000001008
     let n : Nat := 1
     let d : Nat := 0
     let host : Bool := false
     let a := pa.toNat
     let plain := (begin_ s).mixMode a = false ∧ ((begin_ s).isEntry (a / 16 * 16) = false ∨ n = 16) ∧
     Sizes s a n (if host then Agent.host else Agent.pod) .sys (if host then s.d.pkg.hostVc else [])
     (if host then s.d.pkg.linkStat.toNat % 256 else s.d.pkg.linkStat.toNat / 2 ^ 8 % 2 ^ 18) ≠ 0 ∧ homeOf s.d a = .die d ∧
         a % n = 0 ∧ n ∈ [1, 2, 4, 8, 16] ∧ memWf s.mem = true ∧ (begin_ s).gateNow a = true ∧ s.d.rideOf a = none ∧
         (begin_ s).lateBefore [(a, n)] true (if host then Agent.host else Agent.pod) none s.d.nextId none = false ∧ plain) ∧
    (let s : State := (sM |> updPkg fun p => { p with linkStat := 0x04000101 })
     let pa : Addr := 0x000000000001008
     let n : Nat := 1
     let d : Nat := 0
     let host : Bool := false
     let a := pa.toNat
     (if host then s.d.pkg.linkStat.toNat % 256 else s.d.pkg.linkStat.toNat / 2 ^ 8 % 2 ^ 18) ≠ 0 ∧ homeOf s.d a = .die d ∧
         a % n = 0 ∧ n ∈ [1, 2, 4, 8, 16] ∧ memWf s.mem = true ∧ (begin_ s).gateNow a = true ∧ s.d.rideOf a = none ∧
         (begin_ s).lateBefore [(a, n)] true (if host then Agent.host else Agent.pod) none s.d.nextId none = false ∧
         host = false) ∧
    (let s : State := (sM |> updPkg fun p => { p with linkStat := 0x04000101 })
     let pa : Addr := 0x000000000001008
     let d : Nat := 0
     let ty : Ty := .b32
     let rop : ROp := .cas
     let a := pa.toNat
     s.d.pkg.linkStat.toNat / 2 ^ 8 % 2 ^ 18 ≠ 0 ∧ homeOf s.d a = .die d ∧ rop.tyOk ty = true) ∧
    (let s : State := (sM |> updPkg fun p => { p with linkStat := 0x04000101 })
     let pa : Addr := 0x000000000001008
     let d : Nat := 0
     let a := pa.toNat
     s.d.pkg.linkStat.toNat / 2 ^ 8 % 2 ^ 18 ≠ 0 ∧ homeOf s.d a = .die d) ∧
    (let s : State := (sM |> updPkg fun p => { p with linkStat := 0x04000101 })
     let pa : Addr := 0x000000000001008
     let d : Nat := 0
     let ty : Ty := .b32
     let a := pa.toNat
     s.d.pkg.linkStat.toNat / 2 ^ 8 % 2 ^ 18 ≠ 0 ∧ homeOf s.d a = .die d ∧ ((ty.bytes = 4 ∨ ty.bytes = 8))) ∧
    (let s : State := (sM |> updPkg fun p => { p with linkStat := 0x04000101 })
     let pa : Addr := 0x000000000001100
     let d : Nat := 0
     let a := pa.toNat
     s.d.pkg.linkStat.toNat / 2 ^ 8 % 2 ^ 18 ≠ 0 ∧ homeOf s.d a = .die d ∧ a % 64 = 0 ∧ s.d.rideOf a = none) ∧
    (let s : State := (sRi |> updPkg fun p => { p with linkStat := 0x04000101 })
     let pa : Addr := 0x000000000001040
     let d : Nat := 0
     let data : QWord := 0x00000000000000000000001234567890
     let a := pa.toNat
     let i := 16
     let r := { used := true, obj := 4160, data := 99114423104580546001136484573464325752985, from_ := 130, captured := false, cstop := 0, cgrp := 0, cdl := 0, touch := 3, mark := none, why := 0, wb := 0, rel := none, lastOrd := none, lastOwn := none }
     s.d.pkg.linkStat.toNat / 2 ^ 8 % 2 ^ 18 ≠ 0 ∧ homeOf s.d a = .die d ∧ a % 64 = 0 ∧ s.d.rideOf a = some (d, i, r) ∧
         r.state i s.d.now = .riding ∧ r.mark = none) ∧
    (let s : State := sHa 3 |> updPkg fun p => { p with linkStat := 0x101 }
     let q : Nat := 5
     let p : Nat := 0
     let pa : Nat := 4160
     let d : Nat := 0
     s.d.pkg.linkStat.toNat % 256 ≠ 0 ∧ s.d.queuePart q = some p ∧ (begin_ s).headPa p q = some pa ∧ homeOf s.d pa = .die d) ∧
    (let s : State := (sM |> updPkg fun p => { p with linkStat := 0x04000101 })
     s.d.pkg.linkStat.toNat % 256 ≠ 0) ∧
    (let s : State := sSn |> updPkg fun p => { p with linkStat := 0x04000101 }
     let core : Nat := 0
     let k : Nat := 0
     let x : Send := { op := 9, slot := 0, sys := 7, ofs := 0, data := [1, 2], fenced := false }
     ((s.d.pkg.sends.filter fun y => slotCore y.slot == core)[k]? = some x) ∧ s.d.pkg.linkStat.getLsbD 26 = true ∧
         memWf s.mem = true ∧ ((∀ o ∈ s.d.ops, o.id = x.op → ∀ off ∈ o.bo, Unread s (spadKey o.blk off) 16))) ∧
    (let s : State := sSnB [⟨8,0,7,16,[3],false⟩,⟨9,0,7,32,[1],true⟩]
     let part : Nat := 2
     let ofs : Nat := 32
     let data : List Byte := [1]
     let own := (begin_ s).arriving part ofs data
     let sent := own.find? fun x => !(x.fenced && (begin_ s).sendBefore x)
     s.d.pkg.linkStat.getLsbD 26 = true ∧ part < 8 ∧ own ≠ [] ∧ sent = none) ∧
    (let s : State := sSnB []
     let part : Nat := 2
     let ofs : Nat := 70000
     let data : List Byte := [1]
     let p := s.d.part part
     let own := (begin_ s).arriving part ofs data
     let sent := own.find? fun x => !(x.fenced && (begin_ s).sendBefore x)
     s.d.pkg.linkStat.getLsbD 26 = true ∧ part < 8 ∧ ((own = [] ∨ sent ≠ none)) ∧ 65536 * p.rxSize.toNat ≤ ofs) ∧
    (let s : State := sSnB [⟨9,0,7,32,[1],false⟩,⟨9,0,7,16,[2],true⟩,⟨9,0,7,48,[2,3],true⟩]
     let part : Nat := 2
     let ofs : Nat := 32
     let d : Nat := 0
     let data : List Byte := [1]
     let p := s.d.part part
     let own := (begin_ s).arriving part ofs data
     let sent := own.find? fun x => !(x.fenced && (begin_ s).sendBefore x)
     let pa := (s.d.pkg.podId.toNat % 2 ^ 13) * 2 ^ 43 + p.rxBase.toNat % 2 ^ 43 / 65536 * 65536 + ofs
     s.d.pkg.linkStat.getLsbD 26 = true ∧ part < 8 ∧ ((own = [] ∨ sent ≠ none)) ∧ ofs < 65536 * p.rxSize.toNat ∧
         homeOf s.d pa = .die d ∧ data ≠ [] ∧ pa % 16 + data.length ≤ 16 ∧ memWf s.mem = true ∧
         (begin_ s).leaseFree pa = true ∧ (begin_ s).gateNow pa = true ∧ s.d.rideOf pa = none) ∧
    (let s : State := sM |> updPkg fun p => {p with linkStat := 0x105, ucieDown := [4]}
     let m : Fin 8 := 1
     m.val ∉ s.d.pkg.ucieDown ∧ s.d.pkg.linkStat.getLsbD m.val = false) ∧
    (let s : State := sPbar 3 1 0 1 2 []
     let sys : Bool := true
     let id : BitVec 16 := 6
     let m : Nat := 0
     let a : Nat := 0
     let x : Nat := 0
     let popped : Bool := true
     let pb : PodBar := sget s.d.pkg.podBars 13 PodBar.zero
     let new : PodBar := { pb with members := pb.members + m, arrived := pb.arrived + a, exited := pb.exited + x, pops := pb.pops + popped.toNat }
     let e : Nat × Launch := (s.d.launches).getD 0 (0, launch)
     let k := 2 * id.toNat + sys.toNat
     id ≠ 0 ∧ sget? s.d.pkg.podBars k = some pb ∧
         new = { pb with members := pb.members + m, arrived := pb.arrived + a, exited := pb.exited + x, pops := pb.pops + popped.toNat } ∧ new.arrived + new.exited ≤ new.members ∧ e ∈ s.d.launches ∧ e.2.pbid = id.toNat ∧ e.2.pbsys = sys) := by
  refine ⟨?_, ?_, ?_, ?_, ?_, ?_, ?_, ?_, ?_, ?_, ?_, ?_, ?_, ?_, ?_, ?_, ?_⟩ <;>
    (try simp -zeta only
      [FenceMet, AtGate, BoOk, EngineOn, EngineOnAt, RingAt, RingRoom, GlobOk, PcmdAt, ex_ok, ex_ok_list, ex_die, v_below,
          no_cb_copy, no_cb, all_load, no_load, eq_ok, eq_error, on_die, not_out, all_some2, all_some, is_red, no_b,
          ex_is_ok, ex_ok_some, ex_err_some, ex_is_some, ex_is_error, no_ret, no_comp, ex_copy, no_build, key_all, Unread,
          Stands, no_stage]) <;>
    decide +kernel

theorem witness_BringUp :
    (let s : State := sRc |> updPkg fun p => {p with rdyPkg := 2, rdyEng := 0}
     let f : Fn := .queue
     s.d.pkg.isReady f = false ∧ s.d.pkg.isFailed f = false ∧ memWf s.mem = true ∧
         s.d.rideOf (s.d.pkg.rdyAddr.toNat / 64 % 2 ^ 51 * 64) = none ∧
         (match f with | .hlink => s.d.pkg.linkStat.toNat % 256 ≠ 0 | .fw => s.d.pkg.fwStat.toNat % 65536 = 1 | _ => s.d.pkg.isReady .fw = true)) ∧
    (let s : State := sRc |> updPkg fun p => {p with rdyPkg := 2, rdyEng := 0}
     let f : Fn := .queue
     s.d.pkg.isReady f = false ∧ s.d.pkg.isFailed f = false ∧ memWf s.mem = true ∧
         s.d.rideOf (s.d.pkg.rdyAddr.toNat / 64 % 2 ^ 51 * 64) = none) ∧
    (let s : State := sM |> updPkg fun p => { p with failPkg := 2 }
     s.d.pkg.fwStat.toNat % 65536 = 0 ∧ s.d.pkg.isFailed .fw = true) ∧
    (let s : State := sRc |> updPkg fun p => {p with rdyPkg := 2, rdyEng := 0}
     s.d.pkg.fwStat.toNat % 65536 = 0 ∧ s.d.pkg.isFailed .fw = false) := by
  refine ⟨?_, ?_, ?_, ?_⟩ <;>
    (try simp -zeta only
      [FenceMet, AtGate, BoOk, EngineOn, EngineOnAt, RingAt, RingRoom, GlobOk, PcmdAt, ex_ok, ex_ok_list, ex_die, v_below,
          no_cb_copy, no_cb, all_load, no_load, eq_ok, eq_error, on_die, not_out, all_some2, all_some, is_red, no_b,
          ex_is_ok, ex_ok_some, ex_err_some, ex_is_some, ex_is_error, no_ret, no_comp, ex_copy, no_build, key_all, Unread,
          Stands, no_stage]) <;>
    decide +kernel

theorem witness_PowerErrors :
    (let s : State := sEc
     let die : Nat := 0
     let e := s.d.die die
     let kind := 1
     let unit := 0
     let bank := 63
     let k := 4096 * kind + 64 * unit + bank
     let spent := ∃ c ∈ e.eccCnt, c.1 ≠ k ∧ c.1 / 64 = k / 64 ∧ c.2.2 = true
     die < 8 ∧ kind ≤ 4 ∧ bank < 64 ∧ unit < 64 ∧ ((kind = 3 → unit < 32)) ∧ ((kind = 4 → unit = 0)) ∧ spent) ∧
    (let s : State := sEc
     let die : Nat := 0
     let e := s.d.die die
     let span := e.eccWin.toNat % 65536 * 65536
     let kind := 0
     let unit := 0
     let bank := 0
     let k := 4096 * kind + 64 * unit + bank
     let spent := ∃ c ∈ e.eccCnt, c.1 ≠ k ∧ c.1 / 64 = k / 64 ∧ c.2.2 = true
     die < 8 ∧ kind ≤ 4 ∧ bank < 64 ∧ unit < 64 ∧ ((kind = 3 → unit < 32)) ∧ ((kind = 4 → unit = 0)) ∧ ¬spent ∧ 0 < span ∧
         s.d.now + 1 < e.eccStart + span) ∧
    (let s : State := atNow 70000 sEc
     let die : Nat := 0
     let e := s.d.die die
     let span := e.eccWin.toNat % 65536 * 65536
     die < 8 ∧ 0 < span ∧ e.eccStart + span ≤ s.d.now ∧ (e.eccCnt.map Prod.fst).Nodup) ∧
    (let s : State := sSB 0 .phint false
     let die : Nat := 0
     let block : Nat := 0
     die < 8 ∧ (∃ b, sget? s.d.blocks block = some b) ∧ slotDie block = die) ∧
    (let s : State := sTh 0 4000 false true 3 0
     let die : Nat := 0
     let e := s.d.die die
     let lim := e.tlimit.toNat % 65536
     die < 8 ∧ e.trip = false ∧ e.temp < lim + 120 ∧ e.level ≤ 7) ∧
    (let s : State := sTh 0 4096 false true 3 0
     let die : Nat := 0
     let e := s.d.die die
     let lim := e.tlimit.toNat % 65536
     let room := fun (temp draw : Nat) => if lim ≤ temp then 0 else e.pbudget.toNat - draw
     let crit := e.pwrCtl.toNat / 2 ^ 16 % 2 ^ 16
     let draw := 920
     die < 8 ∧ room e.temp draw < crit ∧ crit ≤ room e.temp e.draw) ∧
    (let s : State := sEc
     let die : Nat := 0
     let e := s.d.die die
     let lim := e.tlimit.toNat % 65536
     let temp : BitVec 16 := 0x0370
     die < 8 ∧ lim + 120 ≤ temp.toNat) ∧
    (let s : State := sTh 0 4096 false true 3 0x400
     let die : Nat := 0
     let e := s.d.die die
     let lim := e.tlimit.toNat % 65536
     let temp : BitVec 16 := 0x02f7
     die < 8 ∧ temp.toNat < lim) := by
  refine ⟨?_, ?_, ?_, ?_, ?_, ?_, ?_, ?_⟩ <;>
    (try simp -zeta only
      [FenceMet, AtGate, BoOk, EngineOn, EngineOnAt, RingAt, RingRoom, GlobOk, PcmdAt, ex_ok, ex_ok_list, ex_die, v_below,
          no_cb_copy, no_cb, all_load, no_load, eq_ok, eq_error, on_die, not_out, all_some2, all_some, is_red, no_b,
          ex_is_ok, ex_ok_some, ex_err_some, ex_is_some, ex_is_error, no_ret, no_comp, ex_copy, no_build, key_all, Unread,
          Stands, no_stage]) <;>
    decide +kernel

end Sys2Proof.Tests
end

section
/-! PROOFS. Writes of privileged registers (O27): which unit of the issuing core holds a register, what a write changes of
that unit, and what the issue around the write leaves. -/

namespace Sys2Proof.Machine

/-! ### The bits that a write keeps (R6) -/

theorem keepBits_eq_and (x : DWord) {hi lo : Nat} (h : lo ≤ hi) :
    keepBits x hi lo = x &&& BitVec.ofNat 64 (2 ^ (hi + 1) - 2 ^ lo) := by
  have hm : 2 ^ (hi + 1) - 2 ^ lo = (2 ^ (hi - lo + 1) - 1) * 2 ^ lo := by
    rw [Nat.sub_mul, ← Nat.pow_add, Nat.one_mul, show hi - lo + 1 + lo = hi + 1 by omega]
  refine BitVec.eq_of_getLsbD_eq fun i hi64 => ?_
  rw [hm, keepBits, BitVec.getLsbD_and, BitVec.getLsbD_ofNat, BitVec.getLsbD_ofNat, bits, Nat.testBit_mul_two_pow,
    Nat.testBit_mul_two_pow, Nat.testBit_mod_two_pow, Nat.testBit_div_two_pow, Nat.testBit_two_pow_sub_one]
  by_cases hl : lo ≤ i
  · simp [hl, hi64, BitVec.getLsbD, Bool.and_comm]
  · simp [hl]

/-- A 32-bit register holds the low word of the value written. -/
theorem setWidth_setWidth_32 (x : DWord) : (x.setWidth 32).setWidth 64 = x &&& 0xFFFFFFFF := by
  rw [← BitVec.toNat_inj]
  calc ((x.setWidth 32).setWidth 64).toNat
      _ = x.toNat % 2 ^ 32 := by simp; omega
      _ = (x &&& 0xFFFFFFFF).toNat := (Nat.and_two_pow_sub_one_eq_mod x.toNat 32).symm

theorem and_ones (x : DWord) : x &&& 0xFFFFFFFFFFFFFFFF#64 = x := BitVec.and_allOnes

/-- PBUDGET keeps its low 16 bits, at most 0x4B0 (R328; assumption 54). -/
theorem pbudget_value (x : DWord) :
    (if (x.truncate 32 &&& 0xFFFF : Word).toNat ≤ 0x4B0 then x.truncate 32 &&& 0xFFFF else 0x4B0 : Word).zeroExtend 64 =
      BitVec.ofNat 64 (min (x.toNat % 65536) 0x4B0) := by
  have h : (x.truncate 32 &&& 0xFFFF : Word).toNat = x.toNat % 65536 := by
    simp [Nat.and_two_pow_sub_one_eq_mod _ 16]
  rw [← BitVec.toNat_inj]
  split
  · next hle =>
    rw [h] at hle
    rw [BitVec.toNat_setWidth, h, BitVec.toNat_ofNat, Nat.min_eq_left hle]
  · next hle =>
    rw [h] at hle
    rw [Nat.min_eq_right (by omega)]
    rfl

/-! ### The registers by unit (Tables 21.1, 22.1, 23.4, 24.1) -/

/-- What the reading of a privileged register depends on: whether the block is privileged, the time, and the units of the
issuing core. -/
structure PrivUnits where
  priv : Bool
  now : Nat
  part : Part
  die : Die
  core : Core
  pkg : Pkg

/-- The units that a working copy has for its issuing core. -/
def Work.units (w : Work) : PrivUnits :=
  ⟨w.blk.priv, w.d.now, w.d.part w.partNo, w.d.die w.dieNo, w.d.core w.coreNo, w.d.pkg⟩

/-- A register of a partition, or `r` where the number is none of its own. -/
def Part.regOr (p : Part) (k : Nat) (r : DWord) : DWord :=
  match k with
  | 0x41 => p.qbase
  | 0x42 => p.qctl
  | 0x43 => p.dbgctl
  | 0x101 => p.sysId.zeroExtend 64
  | 0x103 => p.qrange.zeroExtend 64
  | 0x106 => p.rxBase
  | 0x107 => p.rxSize
  | 0x108 => p.soDrop
  | _ => r

/-- ECCCNT as `Die.eccRead` gives it, from the fields that it reads. -/
def eccValue (now : Nat) (win sel : Word) (cnt : Sparse (Nat × Bool)) (start : Nat) : Nat :=
  { Die.reset with eccWin := win, eccSel := sel, eccCnt := cnt, eccStart := start }.eccRead now

theorem eccRead_eq (e : Die) (now : Nat) : e.eccRead now = eccValue now e.eccWin e.eccSel e.eccCnt e.eccStart := by
  unfold eccValue Die.eccRead Die.eccRoll
  dsimp only
  by_cases h0 : e.eccWin.toNat % 65536 * 65536 = 0
  · simp only [h0, ↓reduceIte]; rfl
  · by_cases h1 : e.eccStart + e.eccWin.toNat % 65536 * 65536 ≤ now
    · simp only [h0, h1, ↓reduceIte]; rfl
    · simp only [h0, h1, ↓reduceIte]

/-- A register of a die at a cycle, or `r` where the number is none of its own. -/
def Die.regOr (now : Nat) (e : Die) (k : Nat) (r : DWord) : DWord :=
  match k with
  | 0x44 => BitVec.ofNat 64 (min 65535 e.headroom)
  | 0x45 => e.pwrCtl
  | 0x46 => e.stagger.zeroExtend 64
  | 0x49 => e.ringSel.zeroExtend 64
  | 0x4A => e.ringHlo
  | 0x4B => e.ringHhi
  | 0x80 => e.ptRoot
  | 0x81 => e.frameBase
  | 0x83 => e.hTmpl
  | 0x84 => e.hq.zeroExtend 64
  | 0x8A => e.locBase
  | 0x190 => e.eccWin.zeroExtend 64
  | 0x191 => e.eccThr.zeroExtend 64
  | 0x192 => e.eccSel.zeroExtend 64
  | 0x193 => BitVec.ofNat 64 (eccValue now e.eccWin e.eccSel e.eccCnt e.eccStart)
  | 0x194 => e.eccLast
  | 0x198 => e.pbudget.zeroExtend 64
  | 0x199 => BitVec.ofNat 64 e.temp
  | 0x19A => e.tlimit.zeroExtend 64
  | _ => r

/-- A register of a core, or `r` where the number is none of its own. -/
def Core.regOr (c : Core) (k : Nat) (r : DWord) : DWord :=
  match k with
  | 0x47 => c.intPend.zeroExtend 64
  | 0x48 => c.intMask.zeroExtend 64
  | 0x86 => c.parg
  | 0x88 => c.pstat.zeroExtend 64
  | _ => r

/-- A register of the package, or `r` where the number is none of its own. -/
def Pkg.regOr (p : Pkg) (k : Nat) (r : DWord) : DWord :=
  match k with
  | 0x4D => p.lrejq
  | 0x100 => p.podId.zeroExtend 64
  | 0x102 => p.partMap.zeroExtend 64
  | 0x105 => p.linkStat.zeroExtend 64
  | 0x109 => p.soRoute
  | 0x180 => p.rdyPkg.zeroExtend 64
  | 0x181 => p.rdyEng
  | 0x182 => p.failPkg.zeroExtend 64
  | 0x183 => p.failEng
  | 0x184 => p.rdyAddr
  | 0x185 => p.rdyVec.zeroExtend 64
  | 0x186 => p.fwStat.zeroExtend 64
  | 0x188 => p.attStat.zeroExtend 64
  | 0x19B => p.pkgPwr.zeroExtend 64
  | _ => r

/-! Each table is part of the model's own (`Work.privReg`): where the units agree but for one, that one's table tells what
has changed. -/

section Reading

variable {w v : Work}

theorem privReg_congr (h : v.units = w.units) (k : Nat) : v.privReg k = w.privReg k := by
  simp only [Work.units, PrivUnits.mk.injEq] at h
  obtain ⟨hb, hn, hp, hd, hc, hk⟩ := h
  simp only [Work.privReg, hb, hn, hp, hd, hc, hk]

theorem privReg_part {p : Part} (h : v.units = { w.units with part := p }) (k : Nat) :
    v.privReg k = p.regOr k (w.privReg k) := by
  simp only [Work.units, PrivUnits.mk.injEq] at h
  obtain ⟨hb, hn, hp, hd, hc, hk⟩ := h
  simp only [Work.privReg, Part.regOr, hb, hn, hp, hd, hc, hk]
  split <;> simp

theorem privReg_die {e : Die} (h : v.units = { w.units with die := e }) (k : Nat) :
    v.privReg k = e.regOr w.d.now k (w.privReg k) := by
  simp only [Work.units, PrivUnits.mk.injEq] at h
  obtain ⟨hb, hn, hp, hd, hc, hk⟩ := h
  simp only [Work.privReg, Die.regOr, eccRead_eq, hb, hn, hp, hd, hc, hk]
  split <;> simp

theorem privReg_core {c : Core} (h : v.units = { w.units with core := c }) (k : Nat) :
    v.privReg k = c.regOr k (w.privReg k) := by
  simp only [Work.units, PrivUnits.mk.injEq] at h
  obtain ⟨hb, hn, hp, hd, hc, hk⟩ := h
  simp only [Work.privReg, Core.regOr, hb, hn, hp, hd, hc, hk]
  split <;> simp

theorem privReg_pkg {p : Pkg} (h : v.units = { w.units with pkg := p }) (k : Nat) :
    v.privReg k = p.regOr k (w.privReg k) := by
  simp only [Work.units, PrivUnits.mk.injEq] at h
  obtain ⟨hb, hn, hp, hd, hc, hk⟩ := h
  simp only [Work.privReg, Pkg.regOr, hb, hn, hp, hd, hc, hk]
  split <;> simp

end Reading

/-! ### The units after an update -/

section Units

variable (w : Work)

theorem units_updPart (f : Part → Part) :
    (w.updPart w.partNo f).units = { w.units with part := f (w.d.part w.partNo) } := by
  refine congrArg (fun p => { w.units with part := p }) ?_
  exact (w.part_updPart w.partNo w.partNo f).trans (if_pos rfl)

theorem units_updDie (f : Die → Die) :
    (w.updDie w.dieNo f).units = { w.units with die := f (w.d.die w.dieNo) } := by
  refine congrArg (fun e => { w.units with die := e }) ?_
  exact (w.die_updDie w.dieNo w.dieNo f).trans (if_pos rfl)

theorem units_updCore (k : Nat) (f : Core → Core) :
    (w.updCore k f).units = { w.units with core := if w.coreNo = k then f (w.d.core k) else w.d.core w.coreNo } :=
  congrArg (fun c => { w.units with core := c }) (w.core_updCore k w.coreNo f)

theorem units_updPkg (f : Pkg → Pkg) (hm : (f w.d.pkg).partMap = w.d.pkg.partMap) :
    (w.updPkg f).units = { w.units with pkg := f w.d.pkg } := by
  have hp : (w.updPkg f).partNo = w.partNo := by simp only [Work.partNo, dieParts, Work.pkg_updPkg, hm]; rfl
  refine congrArg (fun n => ({ w.units with part := w.d.part n, pkg := f w.d.pkg } : PrivUnits)) hp

theorem units_updG {f : Group → Group} (hf : ∀ g, (f g).blk = g.blk) : (w.updG f).units = w.units := by
  have hg : (w.updG f).g.blk = w.g.blk := by
    rw [Work.g, Work.slot_updG, Work.grp?_updG, Work.g]
    cases w.grp? w.slot with
    | none => rfl
    | some g => exact hf g
  exact congrArg (fun b => { w.units with priv := ((w.blk? b).getD Block.gone).priv }) hg

theorem units_finish (ls : List Nat) (why : Why) (js : List (Nat × Addr)) : (w.finish ls why js).units = w.units :=
  units_updG w fun g => ends_blk w.d.cur ls why js g

end Units

theorem units_atIssue {s : State} {h : Hdr} {src dst : List Named} {x : List Nat} (ds : List Named)
    (hi : Issued s h src dst x) : (atIssue s ds).units = (begin_ s).units := by
  have hb : (atIssue s ds).blk.priv = (begin_ s).blk.priv := by
    rw [atIssue_blk ds hi, begin_blk hi]
    exact (congrArg Block.priv (Block.take_core s.myBlk s.d.cur.stamped s.d.now s.here.gidx ds) :)
  exact congrArg (fun b => { (begin_ s).units with priv := b }) hb

/-! ### An effect that changes no group, no block and no memory -/

/-- `v` has written no more than `w`, and its groups, blocks and issue in progress are those of `w`: what they differ in lies in
the units of the package. -/
structure SameGroups (w v : Work) : Prop where
  log : v.log = w.log
  cur : v.d.cur = w.d.cur
  groups : v.d.groups = w.d.groups
  blocks : v.d.blocks = w.d.blocks

theorem SameGroups.trans {w v u : Work} (h1 : SameGroups w v) (h2 : SameGroups v u) : SameGroups w u :=
  ⟨h2.log.trans h1.log, h2.cur.trans h1.cur, h2.groups.trans h1.groups, h2.blocks.trans h1.blocks⟩

section After

variable {s : State} {h : Hdr} {src dst : List Named} {x : List Nat} {ds : List Named} {w : Work}

theorem sameGroups_here (hi : Issued s h src dst x) (hw : SameGroups (atIssue s ds) w) (js : List (Nat × Addr)) :
    (commit s.mem (w.finish [] .hold js)).here = (startGroup s).ends s.d.cur [] .hold js := by
  have hs : w.slot = s.d.cur.slot := congrArg Cur.slot hw.cur
  have hg : w.grp? w.slot = some (startGroup s) := by
    rw [hs]; exact (congrArg (sget? · s.d.cur.slot) hw.groups).trans (atIssue_grp? ds hi)
  have hf := Work.grp?_updG w (Group.ends w.d.cur [] .hold js)
  have hh : (commit s.mem (w.finish [] .hold js)).here =
      ((w.updG (Group.ends w.d.cur [] .hold js)).grp? w.slot).getD Group.gone := rfl
  rw [hh, hf, hg, hw.cur, atIssue_cur, Option.map_some, Option.getD_some]

theorem sameGroups_others (hw : SameGroups (atIssue s ds) w) (js : List (Nat × Addr)) {k : Nat} (hk : k ≠ s.d.cur.slot) :
    (commit s.mem (w.finish [] .hold js)).slot? k = s.slot? k := by
  have hs : w.slot = s.d.cur.slot := congrArg Cur.slot hw.cur
  calc (w.finish [] .hold js).grp? k
      _ = w.grp? k := Work.grp?_updG_ne w _ (hs ▸ hk)
      _ = (atIssue s ds).grp? k := congrArg (sget? · k) hw.groups
      _ = (begin_ s).grp? k := Work.grp?_updG_ne (begin_ s) _ hk

/-- Such an effect leaves memory, registers and the other groups as they were, and the threads go on behind the instruction. -/
theorem sameGroups_after (hi : Issued s h src dst x) (hw : SameGroups (atIssue s ds) w) :
    let t := commit s.mem (w.finish [] .hold [])
    SameMem s t ∧ SameAll s t ∧ Advances s t ∧ ∀ k, k ≠ s.d.cur.slot → t.slot? k = s.slot? k := by
  intro t
  have hn := hi.rise.imp Nat.ne_of_lt
  have hhere : t.here = (startGroup s).ends s.d.cur [] .hold [] := sameGroups_here hi hw []
  have hsame : t.here = (afterG s ds id []).here := hhere.trans (afterG_here ds [] id hi).symm
  have hmy : t.myBlk = (afterG s ds id []).myBlk := by
    have hb : t.d.blocks = (afterG s ds id []).d.blocks := hw.blocks
    rw [State.myBlk, State.blk, hb, hsame]; rfl
  have hmem : t.mem = s.mem := commit_mem_nil _ _ hw.log
  refine ⟨fun a => congrArg (mread · a) hmem, ⟨⟨fun l n => ?_, fun n => ?_, fun n => ?_, fun l i => ?_⟩, fun l => ?_⟩, ?_,
    fun k => sameGroups_others hw []⟩
  · rw [hhere, Group.readV, ends_v, startGroup_v]; rfl
  · rw [hhere, Group.readS, ends_sreg, startGroup_sreg]; rfl
  · rw [hmy]; exact afterG_sameB ds [] id hi rfl n
  · rw [hhere, ends_thread_l _ _ _ _ hn, startGroup_thread]
  · rw [hhere, ends_thread_p _ _ _ _ hn, startGroup_thread]
  · have hadv : Advances s (afterG s ds id []) := afterG_advances ds id hi fun l => by
      simp only [id, startGroup_thread, and_self]
    unfold Advances Jumps MeetsAt State.pc at hadv ⊢
    rwa [hsame]

end After

/-! ### A privileged register put into its unit -/

/-- `v` is `w` with one privileged register of the issuing core, `num`, reading `y`. -/
structure PutsPriv (w v : Work) (num : Nat) (y : DWord) : Prop extends SameGroups w v where
  reads : ∀ k, k ∉ privDepends num → v.privReg k = if k = num then y else w.privReg k
  dies : ∀ k, k ≠ w.dieNo → v.d.die k = w.d.die k

/-- `f` changes, of a unit's registers as `regOr` reads them, `num` alone, to `y`, and those that depend on it. -/
structure SetsReg {α : Type} (regOr : α → Nat → DWord → DWord) (num : Nat) (y : DWord) (f : α → α) : Prop where
  self : ∀ a r, regOr (f a) num r = y
  other : ∀ a k r, k ≠ num → k ∉ privDepends num → regOr (f a) k r = regOr a k r

section Puts

variable {w : Work} {num : Nat} {y : DWord}

/-- A unit `a` of `w` becomes `f a`, and nothing else changes. -/
theorem putsPriv_of {α : Type} {regOr : α → Nat → DWord → DWord} {f : α → α} {a : α} {v : Work} (hu : SameGroups w v)
    (hd : ∀ k, k ≠ w.dieNo → v.d.die k = w.d.die k) (hv : ∀ k, v.privReg k = regOr (f a) k (w.privReg k))
    (hw : ∀ k, w.privReg k = regOr a k (w.privReg k)) (hf : SetsReg regOr num y f) : PutsPriv w v num y := by
  refine ⟨hu, fun k hk => ?_, hd⟩
  rw [hv]
  split
  · next hn => subst hn; exact hf.self a _
  · next hn => exact (hf.other a k _ hn hk).trans (hw k).symm

theorem putsPriv_part {f : Part → Part} (hf : SetsReg Part.regOr num y f) : PutsPriv w (w.updPart w.partNo f) num y :=
  putsPriv_of ⟨rfl, rfl, rfl, rfl⟩ (fun _ _ => rfl) (privReg_part (units_updPart w f)) (privReg_part rfl) hf

theorem putsPriv_die {f : Die → Die} (hf : SetsReg (Die.regOr w.d.now) num y f) :
    PutsPriv w (w.updDie w.dieNo f) num y :=
  putsPriv_of ⟨rfl, rfl, rfl, rfl⟩ (fun k hk => (w.die_updDie w.dieNo k f).trans (if_neg hk))
    (privReg_die (units_updDie w f)) (privReg_die rfl) hf

theorem putsPriv_core {f : Core → Core} (hf : SetsReg Core.regOr num y f) :
    PutsPriv w (w.updCore w.coreNo f) num y :=
  putsPriv_of ⟨rfl, rfl, rfl, rfl⟩ (fun _ _ => rfl)
    (fun k => by rw [privReg_core (units_updCore w w.coreNo f), if_pos rfl]) (privReg_core rfl) hf

theorem putsPriv_pkg {f : Pkg → Pkg} (hf : SetsReg Pkg.regOr num y f) (hm : (f w.d.pkg).partMap = w.d.pkg.partMap) :
    PutsPriv w (w.updPkg f) num y :=
  putsPriv_of ⟨rfl, rfl, rfl, rfl⟩ (fun _ _ => rfl) (privReg_pkg (units_updPkg w f hm)) (privReg_pkg rfl) hf

/-! ### Changes of a die's budget, limit or marks (R328, R329, R369) -/

theorem regOr_roll (now t k : Nat) (e : Die) (r : DWord) : (e.roll t).regOr now k r = e.regOr now k r := by
  unfold Die.roll
  dsimp only
  split <;> rfl

/-- INTPEND.PWR raised on cores of a die. -/
def Work.raisePwr (w : Work) (die : Nat) (cs : List Nat) : Work := cs.foldl (fun w c => w.raiseInt (64 * die + c) 5) w

theorem raisePwr_sameGroups (w : Work) (die : Nat) (cs : List Nat) : SameGroups w (w.raisePwr die cs) := by
  induction cs generalizing w with
  | nil => exact ⟨rfl, rfl, rfl, rfl⟩
  | cons c t ih => exact SameGroups.trans (v := w.raiseInt (64 * die + c) 5) ⟨rfl, rfl, rfl, rfl⟩ (ih _)

theorem raisePwr_dies (w : Work) (die : Nat) (cs : List Nat) : (w.raisePwr die cs).d.dies = w.d.dies := by
  induction cs generalizing w with
  | nil => rfl
  | cons c t ih => exact ih (w.raiseInt (64 * die + c) 5)

theorem privReg_raiseInt (w : Work) (c b : Nat) {k : Nat} (h : k ≠ 0x47) : (w.raiseInt c b).privReg k = w.privReg k := by
  have hr : ∀ (c : Core) x r, { c with intPend := x }.regOr k r = c.regOr k r := fun c x r => by
    unfold Core.regOr
    split
    · exact absurd rfl h
    all_goals rfl
  rw [Work.raiseInt, privReg_core (units_updCore w _ _)]
  refine Eq.trans ?_ (privReg_core (w := w) (v := w) rfl k).symm
  split
  · next hc => rw [hr, ← hc]
  · rfl

theorem privReg_raisePwr (w : Work) (die : Nat) (cs : List Nat) {k : Nat} (h : k ≠ 0x47) :
    (w.raisePwr die cs).privReg k = w.privReg k := by
  induction cs generalizing w with
  | nil => rfl
  | cons c t ih => exact (ih (w.raiseInt (64 * die + c) 5)).trans (privReg_raiseInt w _ 5 h)

/-- A die whose limit, marks, budget, draw or temperature have changed: the thermal trip and the window's record. -/
def Die.settled (e : Die) : Die :=
  let lim := e.tlimit.toNat % 65536
  let trip := if lim + 120 ≤ e.temp then true else if e.temp < lim then false else e.trip
  { e with trip := trip, level := if trip then 7 else e.level, winZero := e.winZero && e.headroom == 0,
           winHigh := e.winHigh && decide (e.low ≤ e.headroom) }

theorem regOr_settled (now k : Nat) (e : Die) (r : DWord) : e.settled.regOr now k r = e.regOr now k r := rfl

/-- `Work.power` on a die of the package: the die settles, and INTPEND.PWR is raised where HEADROOM has fallen below CRIT. -/
theorem power_eq (w : Work) {die : Nat} (hd : die < 8) (f : Die → Die) :
    w.power die f =
      let e := (f ((w.d.die die).roll w.d.now)).settled
      if e.headroom < e.crit ∧ e.crit ≤ ((w.d.die die).roll w.d.now).headroom then
        (w.updDie die fun _ => e).raisePwr die (List.range 64)
      else w.updDie die fun _ => e := by
  unfold Work.power
  rw [if_neg (Nat.not_le.2 hd)]
  rfl

theorem putsPriv_power {f : Die → Die} (hf : SetsReg (Die.regOr w.d.now) num y f) (hd : 0x47 ∈ privDepends num) :
    PutsPriv w (w.power w.dieNo f) num y := by
  have hdie : PutsPriv w (w.updDie w.dieNo fun _ => (f ((w.d.die w.dieNo).roll w.d.now)).settled) num y :=
    putsPriv_die (f := fun e => (f (e.roll w.d.now)).settled)
      ⟨fun e r => (regOr_settled ..).trans (hf.self _ r),
        fun e k r hn hk => by rw [regOr_settled, hf.other _ k r hn hk, regOr_roll]⟩
  have h8 : w.dieNo < 8 := Nat.mod_lt _ (by decide)
  rw [power_eq w h8]
  dsimp only
  split
  · exact ⟨hdie.toSameGroups.trans (raisePwr_sameGroups ..),
      fun k hk => (privReg_raisePwr _ _ _ fun h : k = 0x47 => hk (h ▸ hd)).trans (hdie.reads k hk),
      fun k hk => (congrArg (sget · k Die.reset) (raisePwr_dies ..)).trans (hdie.dies k hk)⟩
  · exact hdie

end Puts

/-! ### What each write puts -/

/-- A write of a register that keeps the bits of `m` puts them. -/
theorem writePriv_puts (w : Work) {num m : Nat} (x : DWord) (hm : privMask num = some m) :
    PutsPriv w (w.writePriv num x) num (x &&& BitVec.ofNat 64 m) := by
  unfold privMask at hm
  unfold Work.writePriv
  split at hm <;> cases hm <;> dsimp only
  -- a partition: QBASE, QCTL, DBGCTL, QRANGE, RXBASE, RXSIZE
  case h_1 | h_2 | h_3 | h_14 | h_15 | h_16 =>
    refine putsPriv_part ⟨fun p r => ?_, fun p k r hn hk => ?_⟩
    · simp [Part.regOr, keepBits_eq_and, setWidth_setWidth_32, BitVec.and_assoc, and_ones, ← BitVec.and_or_distrib_left]
    · unfold Part.regOr
      split <;> simp_all
  -- a die: STAGGER, RINGSEL, PTROOT, FRAMEBASE, HTMPL, HQ, LOCBASE, ECCTHR, ECCSEL
  case h_5 | h_7 | h_8 | h_9 | h_10 | h_11 | h_13 | h_19 | h_20 =>
    refine putsPriv_die ⟨fun e r => ?_, fun e k r hn hk => ?_⟩
    · simp [Die.regOr, keepBits_eq_and, setWidth_setWidth_32, BitVec.and_assoc]
    · unfold Die.regOr
      split <;> simp_all [Die.headroom, privDepends]
  -- a core: INTMASK, PARG
  case h_6 | h_12 =>
    refine putsPriv_core ⟨fun c r => ?_, fun c k r hn hk => ?_⟩
    · simp [Core.regOr, setWidth_setWidth_32, and_ones]
    · unfold Core.regOr
      split <;> simp_all
  -- a die's power: PWRCTL, TLIMIT
  case h_4 | h_21 =>
    refine putsPriv_power ⟨fun e r => ?_, fun e k r hn hk => ?_⟩ (by decide)
    · simp [Die.regOr, keepBits_eq_and, setWidth_setWidth_32, BitVec.and_assoc]
    · unfold Die.regOr
      split <;> simp_all [privDepends]
  -- the package: RDYADDR, RDYVEC
  case h_17 | h_18 =>
    refine putsPriv_pkg ⟨fun p r => ?_, fun p k r hn hk => ?_⟩ rfl
    · simp [Pkg.regOr, keepBits_eq_and, setWidth_setWidth_32, BitVec.and_assoc, ← BitVec.and_or_distrib_left]
    · unfold Pkg.regOr
      split <;> simp_all

theorem writePbudget_puts (w : Work) (x : DWord) :
    PutsPriv w (w.writePriv 0x198 x) 0x198 (BitVec.ofNat 64 (min (x.toNat % 65536) 0x4B0)) := by
  unfold Work.writePriv
  dsimp only
  refine putsPriv_power ⟨fun e r => pbudget_value x, fun e k r hn hk => ?_⟩ (by decide)
  unfold Die.regOr
  split <;> simp_all [privDepends]

theorem writeSodrop_puts (w : Work) {x : DWord} (hx : x = 0) : PutsPriv w (w.writePriv 0x108 x) 0x108 0 := by
  unfold Work.writePriv
  dsimp only
  rw [if_pos hx]
  refine putsPriv_part ⟨fun p r => rfl, fun p k r hn hk => ?_⟩
  unfold Part.regOr
  split <;> simp_all

/-- Another value than 0 leaves SODROP as it was (assumption 54). -/
theorem writeSodrop_keeps (w : Work) {x : DWord} (hx : x ≠ 0) :
    PutsPriv w (w.writePriv 0x108 x) 0x108 (w.privReg 0x108) := by
  have hw : w.writePriv 0x108 x = w := if_neg hx
  rw [hw]
  exact ⟨⟨rfl, rfl, rfl, rfl⟩, fun k _ => by split <;> simp_all, fun _ _ => rfl⟩

/-! ### wrpriv -/

theorem exec_wrpriv (h : Hdr) (num : BitVec 10) (a : Opnd) (s : State) :
    exec (.wrpriv h num a) s = execWrpriv h num a s := rfl

section Wrpriv

variable {s : State} {h : Hdr} {l : Nat} {num : BitVec 10} {a : Opnd}

theorem privVal_atIssue {src dst : List Named} {x : List Nat} (ds : List Named) (hi : Issued s h src dst x) (n l : Nat)
    (a : Opnd) : (if regWide n then (atIssue s ds).op64 l a else ((atIssue s ds).op32 l a).zeroExtend 64) = privVal s n l a := by
  rw [atIssue_op64 ds hi, atIssue_op32 ds hi]; rfl

/-- One thread's write of a register that is no command and not SRSEED, with no strong access before it. -/
theorem wrpriv_ends {P : State → Prop} (hi : Issued s h (a.names (if regWide num.toNat then 2 else 1)) [] [l])
    (hs : (begin_ s).passed.strongBefore s.d.cur.slot [l] s.d.nextId = false)
    (hplain : num.toNat ≠ 0x87 ∧ num.toNat ≠ 0x4C ∧ num.toNat ≠ 0x08)
    (hP : P (commit s.mem (((atIssue s []).writePriv num.toNat (privVal s num.toNat l a)).finish [] .hold []))) :
    Ends (.wrpriv h num a) s P := by
  obtain ⟨h87, h4C, h08⟩ := hplain
  have hs' : (atIssue s []).strongBefore (atIssue s []).slot [l] (atIssue s []).d.nextId = false := hs
  refine ⟨_, ?_, hP⟩
  rw [exec_wrpriv]
  refine issue_ok hi ?_
  dsimp only
  rw [if_neg h87, if_neg h4C, hs', if_neg Bool.false_ne_true, if_neg h08, ← privVal_atIssue [] hi]
  rfl

/-- A register put into its unit by the effect of an instruction is what the step leaves written. -/
theorem wrotePriv_after {src dst : List Named} {x : List Nat} {ds : List Named} {w : Work} {n : Nat} {y : DWord}
    (hi : Issued s h src dst x) (hw : PutsPriv (atIssue s ds) w n y) (hn : n ∉ privDepends n) :
    WrotePriv s (commit s.mem (w.finish [] .hold [])) n y := by
  have hread : ∀ k, k ∉ privDepends n → (begin_ (commit s.mem (w.finish [] .hold []))).privReg k =
      if k = n then y else (begin_ s).privReg k := fun k hk => by
    have h1 : (w.finish [] .hold []).privReg k = w.privReg k := privReg_congr (units_finish w ..) k
    rw [← privReg_congr (units_atIssue ds hi) k, ← hw.reads k hk, ← h1]
    rfl
  obtain ⟨hmem, hall, hadv, hgrp⟩ := sameGroups_after hi hw.toSameGroups
  exact ⟨(hread n hn).trans (if_pos rfl), fun k hk hd => (hread k hd).trans (if_neg hk), hmem, hall, hadv, hgrp, hw.dies⟩

end Wrpriv

theorem not_mem_privDepends_self (n : Nat) : n ∉ privDepends n := by
  unfold privDepends
  split
  · next h => rcases h with rfl | rfl | rfl <;> decide
  · split
    · next h => subst h; decide
    · exact List.not_mem_nil

theorem plain_of_privMask {n m : Nat} (hm : privMask n = some m) : n ≠ 0x87 ∧ n ≠ 0x4C ∧ n ≠ 0x08 := by
  refine ⟨?_, ?_, ?_⟩ <;> rintro rfl <;> cases hm

/-- Settles O27: each write is a change of one field of one unit of the issuing core (`writePriv_puts`), of which every
other register is read as before, and the issue around it changes no unit (`wrotePriv_after`). -/
theorem privilegedWrites : Obligations.PrivilegedWrites := by
  unfold Obligations.PrivilegedWrites
  intro s h l num a n v ⟨_, hr⟩ hs
  have hi := issued_of hr
  have write : ∀ {y}, n ≠ 0x87 ∧ n ≠ 0x4C ∧ n ≠ 0x08 → PutsPriv (atIssue s []) ((atIssue s []).writePriv n v) n y →
      Ends (.wrpriv h num a) s fun t => WrotePriv s t n y := fun hp hw =>
    wrpriv_ends hi hs hp (wrotePriv_after hi hw (not_mem_privDepends_self n))
  refine ⟨fun m hm => write (plain_of_privMask hm) (writePriv_puts _ v hm), fun hn => ?_, fun hn hv => ?_, fun hn hv => ?_⟩
  · exact write (by omega) (hn ▸ writePbudget_puts _ v)
  · exact write (by omega) (hn ▸ writeSodrop_puts _ hv)
  · rw [← privReg_congr (units_atIssue [] hi)]
    exact write (by omega) (hn ▸ writeSodrop_keeps _ hv)

end Sys2Proof.Machine
end

section
/-! PROOFS. No step stops the machine, and an instruction that no thread executes has no effect (O8): what each kind of turn answers,
and the state after an issue whose guard is false in every lane. -/

namespace Sys2Proof.Machine

/-! ### What an instruction answers -/

/-- Every encoded instruction is an issue: an effect of its own within what `issue` does for all. -/
theorem exec_encoded {i : Instr} {h : Hdr} (hi : i.hdr = some h) (s : State) :
    ∃ src dst body, exec i s = issue s h src dst body := by
  cases i <;> cases hi <;> exact ⟨_, _, _, rfl⟩

/-- A device step answers a next state wherever it is made. -/
theorem exec_device {i : Instr} (hi : i.hdr = none) (s : State) : ∃ t, exec i s = .next t := by
  cases i <;> cases hi <;> exact ⟨_, rfl⟩

/-- What has no encoding has no header. -/
theorem hdr_of_encode {i : Instr} (hi : encode i = none) : i.hdr = none := by
  cases hh : i.hdr with
  | none => rfl
  | some h => cases i <;> cases hh <;> cases hi

/-- The issue of a resident group. -/
theorem issue_resident {s : State} {h : Hdr} {src dst : List Named} {body : Work → List Nat → Res} {g : Group}
    (hg : sget? s.d.groups s.d.cur.slot = some g) :
    issue s h src dst body = .next (commit s.mem ((begin_ s).issue h src dst body)) := by
  have hg' : (begin_ s).grp? s.d.cur.slot = some g := hg
  simp only [issue, hg']

/-- Whatever is executed for a resident group answers a next state. -/
theorem exec_resident {s : State} {g : Group} (hg : sget? s.d.groups s.d.cur.slot = some g) (i : Instr) :
    ∃ t, exec i s = .next t := by
  cases hh : i.hdr with
  | none => exact exec_device hh s
  | some h =>
    obtain ⟨src, dst, body, he⟩ := exec_encoded hh s
    exact ⟨_, he.trans (issue_resident hg)⟩

/-! ### What a turn answers -/

/-- The group that a turn serves stays resident where its issue starts. -/
theorem issuing_resident {w : Work} {slot : Nat} {g : Group} (hg : w.grp? slot = some g) (l word len : Nat) :
    (w.issuing slot g l word len).grp? slot = some { g with turn := w.d.now + 1 } := by
  have hs : (w.served slot).grp? slot = some { g with turn := w.d.now + 1 } := by
    rw [Work.served, Work.grp?_updGrp, if_pos rfl, hg, Option.map_some]
  have hi : (w.issuing slot g l word len).grp? slot = (w.startIssue slot g.blk).grp? slot := rfl
  rw [hi, ← hs, Work.startIssue]
  split <;> rfl

theorem groupTurn_answers (s : State) (slot : Nat) : ∃ t, groupTurn s slot = .next t := by
  unfold groupTurn
  dsimp only
  split
  · exact ⟨_, rfl⟩
  next g hg =>
  split
  · exact ⟨_, rfl⟩
  split
  · exact ⟨_, rfl⟩
  split
  · exact ⟨_, rfl⟩
  split
  · exact ⟨_, rfl⟩
  next l hl =>
  split
  iterate 5 exact ⟨_, rfl⟩
  next x len hf =>
  split
  · exact exec_resident (s := commit s.mem ((begin_ s).issuing slot g l x len)) (issuing_resident hg l x len) _
  · exact ⟨_, rfl⟩

theorem wakeTurn_answers (s : State) (slot lane : Nat) : ∃ t, wakeTurn s slot lane = .next t := by
  unfold wakeTurn
  dsimp only
  split
  · exact ⟨_, rfl⟩
  next g hg =>
  split
  case h_2 => exact ⟨_, rfl⟩
  split
  · exact ⟨_, rfl⟩
  · split
    · exact ⟨_, rfl⟩
    · split
      · refine exec_resident (s := commit s.mem _) (g := g) ?_ _
        exact hg
      · exact ⟨_, rfl⟩
  · split
    · split
      · exact ⟨_, rfl⟩
      · split
        · exact ⟨_, rfl⟩
        · exact ⟨_, rfl⟩
    · exact ⟨_, rfl⟩
  · exact ⟨_, rfl⟩
  · exact ⟨_, rfl⟩

theorem deviceTurn_answers (s : State) {i : Instr} (hi : isDevice i = true) : ∃ t, deviceTurn s i = .next t := by
  obtain ⟨t, ht⟩ := exec_device (hdr_of_encode (Option.isNone_iff_eq_none.mp hi)) s
  unfold deviceTurn
  split
  · exact ⟨_, rfl⟩
  · exact ⟨t, ht⟩

theorem runWho_answers (s : State) (who : Who) : ∃ t, runWho s who = .next t := by
  cases who with
  | group slot => exact groupTurn_answers s slot
  | wake slot lane => exact wakeTurn_answers s slot lane
  | device i =>
    show ∃ t, (if isDevice i then deviceTurn s i else .next s) = .next t
    split
    · next h => exact deviceTurn_answers s h
    · exact ⟨_, rfl⟩

/-! ### The steps that time brings about -/

/-- What a fold that keeps or replaces selects is of the list. -/
theorem foldl_select_mem {α : Type} {f : Option α → α → Option α} (hf : ∀ b x, f b x = b ∨ f b x = some x) :
    ∀ (l : List α) (b : Option α) (p : α), l.foldl f b = some p → b = some p ∨ p ∈ l := by
  intro l
  induction l with
  | nil => exact fun b p h => .inl h
  | cons x l ih =>
    intro b p h
    rcases ih (f b x) p h with h | h
    · rcases hf b x with hb | hb
      · exact .inl (hb ▸ h)
      · rw [hb] at h
        exact .inr (Option.some.inj h ▸ List.mem_cons_self)
    · exact .inr (List.mem_cons_of_mem x h)

/-- Each of them is a device step. -/
theorem slotDue_device {now die : Nat} {e : Die} {i : Nat} {r : RSlot} {p : Nat × Instr} (hp : p ∈ slotDue now die e i r) :
    p.2.hdr = none := by
  unfold slotDue at hp
  split at hp
  · cases hp
  simp only [List.mem_append, List.mem_map] at hp
  rcases hp with ((⟨o, -, rfl⟩ | hp) | hp) | hp
  · rfl
  · split at hp
    · rw [List.mem_singleton.mp hp]; rfl
    · cases hp
  · split at hp
    · rw [List.mem_singleton.mp hp]; rfl
    · cases hp
  · split at hp
    · rcases List.mem_cons.mp hp with rfl | hp
      · rfl
      · split at hp
        · rw [List.mem_singleton.mp hp]; rfl
        · cases hp
    · cases hp

theorem boardDue_device {d : Dev} {die : Nat} {e : Die} {p : Nat × Instr} (hp : p ∈ boardDue d die e) : p.2.hdr = none := by
  unfold boardDue at hp
  split at hp
  · cases hp
  rw [List.mem_ite_nil_right] at hp
  rw [List.mem_singleton.mp hp.2]; rfl

theorem ringDue_device {d : Dev} {p : Nat × Instr} (hp : p ∈ d.ringDue) : p.2.hdr = none := by
  simp only [Dev.ringDue, snapDue, List.mem_flatMap, List.mem_append, List.mem_map] at hp
  obtain ⟨e, -, (hp | ⟨c, -, rfl⟩) | ⟨r, -, hp⟩⟩ := hp
  · exact boardDue_device hp
  · rfl
  · exact slotDue_device hp

theorem waitDue_device {w : Work} {slot : Nat} {g : Group} {p : Nat × Instr} (hp : p ∈ w.waitDue slot g) : p.2.hdr = none := by
  unfold Work.waitDue at hp
  obtain ⟨l, -, hl⟩ := List.mem_filterMap.mp hp
  split at hl
  · rw [← Option.some.inj hl]; rfl
  · split at hl
    · cases hl
    · obtain ⟨q, -, rfl⟩ := Option.map_eq_some_iff.mp hl; rfl
  · cases hl

theorem nextDue_device {w : Work} {c : Nat} {i : Instr} (h : w.nextDue = some (c, i)) : i.hdr = none := by
  unfold Work.nextDue at h
  have hsel := foldl_select_mem (fun b x => ?_) _ none (c, i) h
  · rcases hsel with h0 | hm
    · cases h0
    rcases List.mem_append.mp hm with hm | hm
    · exact ringDue_device hm
    · obtain ⟨e, -, he⟩ := List.mem_flatMap.mp hm
      split at he
      · exact waitDue_device he
      · cases he
  · split
    · exact .inr rfl
    · split
      · exact .inr rfl
      · exact .inl rfl

theorem settled_next (t : State) : settled (.next t) = .next (settle t) := rfl

/-- No step faults or refuses. -/
theorem step_answers (s : State) : ∃ t, step s = .next t := by
  have key : ∀ o : Host.Outcome State Fault Refusal, (∃ t, o = .next t) → ∃ t, settled o = .next t := by
    rintro _ ⟨t, rfl⟩
    exact ⟨settle t, settled_next t⟩
  unfold step oneStep
  refine key _ ?_
  split
  · next c i hd =>
    split
    · exact exec_device (nextDue_device hd) _
    · exact runWho_answers _ _
  · exact runWho_answers _ _

/-! ### An instruction that no thread executes -/

/-- Nothing is waited for where nothing is owed or pending. -/
theorem mustWait_nothing {g : Group} (ho : g.owed = []) (hp : g.spend = []) (v : Bool) (ls : List Nat) (ns : List Named) :
    g.mustWait v ls ns = false := by
  have hb : ∀ l r, g.blocked v l r = false := fun l r => by simp [Group.blocked, ho]
  unfold Group.mustWait
  rw [List.any_eq_false]
  intro n _
  rw [Bool.not_eq_true, Bool.or_eq_false_iff]
  refine ⟨?_, List.any_eq_false.mpr fun l _ => ?_⟩
  · split
    · rw [hp]; rfl
    · rfl
  · split
    · rw [hb]; exact Bool.false_ne_true
    · exact Bool.false_ne_true

/-- The state after an issue whose guard is false in every lane. -/
def afterIdle (s : State) : State := commit s.mem ((begin_ s).passed.finish [] .hold [])

section AfterIdle

variable {s : State}

theorem issue_idle {h : Hdr} {g : Group} (hg : s.slot? s.d.cur.slot = some g) (ho : s.here.owed = []) (hp : s.here.spend = [])
    (hx : s.here.executing h s.d.cur.lanes = []) (src dst : List Named) (body : Work → List Nat → Res) :
    issue s h src dst body = .next (afterIdle s) := by
  have hb : (begin_ s).g = s.here := rfl
  have hs : (begin_ s).issue h src dst body = (begin_ s).passed.finish [] .hold [] := by
    unfold Work.issue
    dsimp only
    rw [hb, mustWait_nothing ho hp, Bool.and_false, if_neg Bool.false_ne_true]
    rw [show s.here.executing h (begin_ s).d.cur.lanes = [] from hx]
  rw [issue_resident hg, hs]
  rfl

theorem afterIdle_here (hg : (s.slot? s.d.cur.slot).isSome = true) :
    (afterIdle s).here = (startGroup s).ends s.d.cur [] .hold [] := by
  obtain ⟨g, hg⟩ := Option.isSome_iff_exists.mp hg
  have hh : s.here = g := congrArg (Option.getD · Group.gone) hg
  have h0 : (begin_ s).grp? s.d.cur.slot = some s.here := hh.symm ▸ hg
  have h1 : (begin_ s).passed.grp? s.d.cur.slot = some (startGroup s) :=
    (Work.grp?_updG (begin_ s) _).trans (congrArg (Option.map _) h0)
  have h2 : ((begin_ s).passed.finish [] .hold []).grp? s.d.cur.slot = _ := Work.grp?_updG (begin_ s).passed _
  rw [show (begin_ s).passed.slot = s.d.cur.slot from rfl, h1, Option.map_some] at h2
  show (((begin_ s).passed.finish [] .hold []).grp? s.d.cur.slot).getD Group.gone = _
  rw [h2, Option.getD_some]
  rfl

theorem afterIdle_others {k : Nat} (hk : k ≠ s.d.cur.slot) : sget? (afterIdle s).d.groups k = sget? s.d.groups k :=
  (Work.grp?_updG_ne (begin_ s).passed _ hk).trans (Work.grp?_updG_ne (begin_ s) _ hk)

variable (hg : (s.slot? s.d.cur.slot).isSome = true) (hn : s.d.cur.lanes.Nodup)
include hg

theorem afterIdle_myBlk : (afterIdle s).myBlk = s.myBlk := by
  rw [State.myBlk, afterIdle_here hg, ends_blk, startGroup_blk]
  rfl

include hn

theorem afterIdle_onlyRegs : OnlyRegs s (afterIdle s) := by
  refine ⟨fun _ => rfl, rfl, fun k hk => afterIdle_others hk, fun _ _ => rfl, ?_, ?_, ?_, fun l => ?_⟩
  · rw [afterIdle_here hg, ends_core, startGroup_core]; rfl
  · rw [afterIdle_here hg, ends_owed, startGroup_owed, List.append_nil]
  · rw [afterIdle_myBlk hg]; rfl
  · rw [afterIdle_here hg, ends_thread_core _ _ _ _ hn, startGroup_thread]; rfl

theorem afterIdle_sameAll : SameAll s (afterIdle s) := by
  refine ⟨⟨fun l n => ?_, fun n => ?_, fun n => ?_, fun l i => ?_⟩, fun l => ?_⟩
  · rw [afterIdle_here hg, Group.readV, ends_v, startGroup_v]; rfl
  · rw [afterIdle_here hg, Group.readS, ends_sreg, startGroup_sreg]; rfl
  · rw [afterIdle_myBlk hg]
  · rw [afterIdle_here hg, ends_thread_l _ _ _ _ hn, startGroup_thread]
  · rw [afterIdle_here hg, ends_thread_p _ _ _ _ hn, startGroup_thread]

theorem afterIdle_advances : Advances s (afterIdle s) := by
  have hpc := ends_thread_pc s.d.cur .hold [] hn (startGroup s)
  refine ⟨⟨fun l hl he => ?_, fun l hl => ?_⟩, fun l => ?_⟩
  · rw [State.pc, afterIdle_here hg, hpc, startGroup_thread, if_pos ⟨hl, he⟩]; rfl
  · rw [State.pc, afterIdle_here hg, hpc, startGroup_thread, if_neg fun h => hl h.1]; rfl
  · have hm := ends_thread_m s.d.cur [] .hold [] hn (startGroup s) l
    rw [startGroup_thread] at hm
    rw [afterIdle_here hg]
    exact hm

end AfterIdle

/-- Settles O8: every turn executes for a resident group or makes a device step, and both answer (`step_answers`); an issue with
no executing lane is its finish alone (`issue_idle`). -/
theorem stepAnswers : Obligations.StepAnswers := by
  unfold Obligations.StepAnswers
  refine ⟨step_answers, fun s i h _ hh hg hl _ ho hp hx => ?_⟩
  have hn : s.d.cur.lanes.Nodup := by
    simp only [lanesOk, Bool.and_eq_true, decide_eq_true_eq] at hl
    exact hl.1.imp Nat.ne_of_lt
  obtain ⟨src, dst, body, he⟩ := exec_encoded hh s
  obtain ⟨g, hg'⟩ := Option.isSome_iff_exists.mp hg
  exact ⟨afterIdle s, he.trans (issue_idle hg' ho hp hx src dst body), afterIdle_onlyRegs hg hn, afterIdle_sameAll hg hn,
    afterIdle_advances hg hn⟩

end Sys2Proof.Machine
end

section
/-! PROOFS. A step runs the instruction decoded at the selected thread's PC (O3): the state an issue starts on, and the turn
of a group that may issue. -/

namespace Sys2Proof.Machine

/-! ### What the start of an issue changes -/

section StartIssue

variable (w : Work) (slot blk : Nat)

theorem startIssue_log : (w.startIssue slot blk).log = w.log := by
  unfold Work.startIssue; dsimp only; split <;> rfl

theorem startIssue_groups : (w.startIssue slot blk).d.groups = (w.served slot).d.groups := by
  unfold Work.startIssue; dsimp only; split <;> rfl

theorem startIssue_core {k : Nat} (hk : k ≠ slotCore slot) : (w.startIssue slot blk).d.core k = w.d.core k := by
  have h := Work.core_updCore (w.served slot) (slotCore slot) k fun c =>
    { c with issued := sset c.issued (slot % 4) ((w.served slot).d.now + 1) }
  rw [if_neg hk] at h
  unfold Work.startIssue; dsimp only; split <;> exact h

theorem startIssue_rest (c : Cur) :
    { (w.startIssue slot blk).d with groups := [], blocks := [], cores := [], cur := c } =
      { w.d with groups := [], blocks := [], cores := [], cur := c } := by
  unfold Work.startIssue; dsimp only; split <;> rfl

end StartIssue

/-! ### Which turns issue -/

/-- A group with nothing held for it takes no fault before it issues. -/
theorem orphans_nil {g : Group} (h : ∀ k < 32, (g.thread k).st ≠ .orphaned) : g.orphans = [] := by
  have hl : g.lanesWith (fun t => t.st == .orphaned) = [] := by
    rw [Group.lanesWith, List.filter_eq_nil_iff]
    intro k hk
    rw [beq_iff_eq]
    exact h k (List.mem_range.mp hk)
  unfold Group.orphans
  rw [hl]

theorem holds_false {g : Group} (hm : g.hmix = none) (ho : g.orphans = []) : g.holds = false := by
  simp [Group.holds, hm, ho]

theorem heldFault_none (w : Work) (slot : Nat) {g : Group} (hm : g.hmix = none) (ho : g.orphans = []) :
    w.heldFault slot g = none := by
  unfold Work.heldFault
  rw [hm, ho]

/-- A group's turn that comes executes the instruction its leader's bytes decode to. -/
theorem groupTurn_executes {s : State} {slot l x len : Nat} {g : Group} {i : Instr} (hg : sget? s.d.groups slot = some g)
    (hmay : (begin_ s).mayIssue g = true) (hrot : (begin_ s).rotation slot g = true) (hidx : (begin_ s).byIndex g = true)
    (hmix : g.hmix = none) (horph : g.orphans = []) (hlead : g.leader = some l)
    (hf : (begin_ s).fetch (slotDie slot) (!(s.blk g.blk).priv) (g.thread l).pc = .word x len)
    (hd : decode (s.blk g.blk).priv x = .ok i) :
    groupTurn s slot = exec i (commit s.mem ((begin_ s).issuing slot g l x len)) := by
  have hg' : (begin_ s).grp? slot = some g := hg
  have hready : (begin_ s).ready g = true := by
    simp [Work.ready, hmay, holds_false hmix horph, hlead]
  have hblk : (((begin_ s).blk? g.blk).getD Block.gone) = s.blk g.blk := rfl
  unfold groupTurn
  simp only [hg', holds_false hmix horph, Bool.and_false, Bool.false_and, Bool.false_eq_true, if_false, hready, hrot, hidx,
    Bool.and_true, Bool.not_true, heldFault_none _ slot hmix horph, hlead, hblk, hf, hd]

/-- Where no passage of the ring comes before the next turn, a step is that turn. -/
theorem step_turn {s : State} {t : Turn} {ts : List Turn} (ht : s.d.turns = t :: ts)
    (hd : ∀ c, (begin_ s).nextDue = some c → s.d.now + t.dt ≤ c.1) : step s = settled (runWho (atTurn s t) t.who) := by
  have hn : nextTurn s = t := by simp only [nextTurn, ht]
  unfold step oneStep
  rw [hn]
  dsimp only
  split
  · next c i hc => rw [if_neg (Nat.not_lt.mpr (hd _ hc))]
  · rfl

/-! ### What the settling changes -/

theorem sget?_map {α β : Type} (f : Nat → α → β) (m : Sparse α) (k : Nat) :
    sget? (m.map fun e => (e.1, f e.1 e.2)) k = (sget? m k).map (f k) := by
  induction m with
  | nil => rfl
  | cons e m ih =>
    simp only [List.map_cons, sget?, ih]
    split
    · next h => rw [h]; rfl
    · rfl

/-- A settled group differs in nothing but since when it is ready. -/
theorem settle_slot (t : State) (k : Nat) :
    (settle t).slot? k = (t.slot? k).map fun g => { g with since := ((settle t).grp k).since } := by
  have h : (settle t).slot? k = (t.slot? k).map ((begin_ t).settleGrp k) := sget?_map (begin_ t).settleGrp t.d.groups k
  cases hg : t.slot? k with
  | none => rw [h, hg]; rfl
  | some g =>
    have hs : (settle t).grp k = (begin_ t).settleGrp k g := by
      rw [State.grp, show sget? (settle t).d.groups k = (settle t).slot? k from rfl, h, hg]; rfl
    rw [h, hg, hs]; rfl

/-- Settles O3: the turn is the step (`step_turn`), its instruction is executed where the issue has started
(`groupTurn_executes`), and the start of an issue changes no more than is said (`startIssue_rest`). -/
theorem stepRunsDecoded : Obligations.StepRunsDecoded := by
  unfold Obligations.StepRunsDecoded
  refine ⟨?_, fun t => ⟨rfl, rfl, rfl, settle_slot t⟩⟩
  intro s dt slot l x len g i s' hturn hf hd
  obtain ⟨⟨ts, hts⟩, hdue, hg, hmay, hrot, hidx, hmix, horph, hlead⟩ := hturn
  have hw : runWho s' (.group slot) = exec i (commit s'.mem ((begin_ s').issuing slot g l x len)) :=
    groupTurn_executes hg hmay hrot hidx hmix (orphans_nil horph) hlead hf hd
  refine ⟨commit s'.mem ((begin_ s').issuing slot g l x len), ?_, ?_, rfl, ?_, fun k hk => ?_, ?_, fun k hk => ?_⟩
  · rw [step_turn hts hdue, ← hw]
  · exact commit_mem_nil _ _ (startIssue_log ..)
  · exact issuing_resident (w := begin_ s') hg l x len
  · exact (congrArg (sget? · k) (startIssue_groups ..)).trans ((Work.grp?_updGrp ..).trans (if_neg hk))
  · exact startIssue_rest ..
  · exact startIssue_core (begin_ s') slot g.blk hk

end Sys2Proof.Machine
end

section
/-! PROOFS. The instructions on M (O15): threads through a meeting, what a meeting leaves, and each form on M. -/

namespace Sys2Proof.Machine

/-! ### Threads through a meeting (R13) -/

/-- A thread that a meeting has looked at: held where its PC is its M. -/
def Thread.arrived (t : Thread) : Thread := if t.st = .runnable ∧ t.m = some t.pc then { t with st := .held } else t

/-- Is a thread held once a meeting has looked at it? -/
def Thread.stands (t : Thread) : Bool := decide (t.st = .held ∨ (t.st = .runnable ∧ t.m = some t.pc))

@[simp] theorem Thread.arrived_m (t : Thread) : t.arrived.m = t.m := by unfold Thread.arrived; split <;> rfl

theorem Thread.arrived_st (t : Thread) : t.arrived.st = if t.stands then .held else t.st := by
  unfold Thread.arrived Thread.stands
  by_cases h : t.st = .runnable ∧ t.m = some t.pc
  · simp [h]
  · by_cases hh : t.st = .held
    · simp [hh]
    · simp [h, hh]

theorem Thread.arrived_held (t : Thread) : (t.arrived.st == .held) = t.stands := by
  rw [Thread.arrived_st]
  cases h : t.stands with
  | true => rfl
  | false =>
    have : t.st ≠ .held := fun hh => by simp [Thread.stands, hh] at h
    simpa using this

theorem Thread.arrived_exited (t : Thread) : (t.arrived.st == .exited) = decide (t.st = .exited) := by
  rw [Thread.arrived_st]
  cases h : t.stands with
  | true =>
    have : t.st ≠ .exited := fun hh => by simp [Thread.stands, hh] at h
    simp [this]
  | false => rfl

theorem arrive_thread (g : Group) (l k : Nat) :
    (g.arrive l).thread k = if k = l then (g.thread l).arrived else g.thread k := by
  unfold Group.arrive Thread.arrived
  by_cases h : (g.thread l).st = .runnable ∧ (g.thread l).m = some (g.thread l).pc
  · rw [if_pos h, if_pos h, Group.thread_updThread, closeWin_thread, closeWin_thread]
  · rw [if_neg h, if_neg h]
    split
    · next hk => rw [hk]
    · rfl

theorem arriveAll_thread (g : Group) {k : Nat} (hk : k < 32) :
    ((List.range 32).foldl Group.arrive g).thread k = (g.thread k).arrived := by
  rw [foldl_thread List.nodup_range Group.arrive (fun _ t => t.arrived) arrive_thread,
    if_pos (List.mem_range.mpr hk)]

/-- Have all threads with the M of lane `l` come to it or exited? -/
def Group.cohortMet (g : Group) (l : Nat) : Bool :=
  (g.thread l).stands && (List.range 32).all fun k =>
    decide ((g.thread k).st = .exited ∨ (g.thread k).m ≠ (g.thread l).m ∨ (g.thread k).stands = true)

theorem cohortHeld_of_arrived {g g0 : Group} (h : ∀ k < 32, g0.thread k = (g.thread k).arrived) {l : Nat} (hl : l < 32) :
    g0.cohortHeld l = g.cohortMet l := by
  unfold Group.cohortHeld Group.cohortMet
  rw [h l hl, Thread.arrived_held, Thread.arrived_m]
  congr 1
  rw [Bool.eq_iff_iff, List.all_eq_true, List.all_eq_true]
  refine forall₂_congr fun k hk => ?_
  rw [h k (List.mem_range.mp hk), Thread.arrived_exited, Thread.arrived_held, Thread.arrived_m]
  simp [or_assoc]

theorem release_thread (g0 g : Group) (l k : Nat) :
    (Group.release g0 g l).thread k =
      if k = l then (if g0.cohortHeld l then { g.thread l with st := .runnable, m := none } else g.thread l)
      else g.thread k := by
  unfold Group.release
  by_cases h : g0.cohortHeld l = true
  · rw [if_pos h, if_pos h, Group.thread_updThread]
  · rw [if_neg h, if_neg h]
    split
    · next hk => rw [hk]
    · rfl

/-- A thread after the meetings: released, or held, or as it was. -/
theorem meetings_thread_eq (g : Group) {k : Nat} (hk : k < 32) :
    g.meetings.thread k =
      if g.cohortMet k then { (g.thread k).arrived with st := .runnable, m := none } else (g.thread k).arrived := by
  unfold Group.meetings
  dsimp only
  rw [foldl_thread List.nodup_range _
    (fun l t => if ((List.range 32).foldl Group.arrive g).cohortHeld l then { t with st := .runnable, m := none } else t)
    (release_thread _), if_pos (List.mem_range.mpr hk), cohortHeld_of_arrived (fun k hk => arriveAll_thread g hk) hk, arriveAll_thread g hk]

/-! ### Meetings after an issue -/

theorem thread_ends_running {c : Cur} {n l : Nat} {js : List (Nat × Addr)} {t : Thread} (h : t.st ≠ .exited) :
    (Thread.ends c n [] .hold js l t).st = .runnable ∧
      (Thread.ends c n [] .hold js l t).pc = ((js.find? fun j => j.1 == l).map (·.2)).getD c.next := by
  unfold Thread.ends
  rw [if_neg h]
  exact ⟨rfl, rfl⟩

theorem thread_ends_exited {c : Cur} {n l : Nat} {js : List (Nat × Addr)} {t : Thread} (h : t.st = .exited) :
    Thread.ends c n [] .hold js l t = t := by
  unfold Thread.ends
  rw [if_pos h]

/-- The group's `n`-th issue, in which no thread waits, without its meetings. -/
def Group.moved (c : Cur) (n : Nat) (js : List (Nat × Addr)) (g : Group) : Group :=
  c.lanes.foldl (fun (g : Group) l =>
    (if (g.thread l).st ≠ .exited ∧ ([] : List Nat).contains l then g.closeWin l else g).updThread l
      (Thread.ends c n [] .hold js l)) { g with issue := n }

theorem ends_eq_moved (c : Cur) (js : List (Nat × Addr)) (g : Group) :
    g.ends c [] .hold js = (g.moved c (if c.stamped then g.issue else g.issue + 1) js).meetings := by
  unfold Group.ends Group.moved
  rfl

theorem moved_thread {c : Cur} (n : Nat) {js : List (Nat × Addr)} (hn : c.lanes.Nodup) (g : Group) (k : Nat) :
    (g.moved c n js).thread k = if k ∈ c.lanes then Thread.ends c n [] .hold js k (g.thread k) else g.thread k := by
  unfold Group.moved
  rw [foldl_thread hn _ (Thread.ends c n [] .hold js)
    fun g l k => by rw [Group.thread_updThread, ite_closeWin_thread, ite_closeWin_thread]]
  rfl

variable {s t : State} {h : Hdr} {src dst : List Named} {x : List Nat}

/-- Whoever stands at its M after an issue that no thread waits in is held or released, as `Meets` says: `m` the threads' M then,
and `a` where those stand that have not exited. -/
theorem meets_after {g : Group} {js : List (Nat × Addr)} {a : Nat → Addr} {m : Nat → Option Addr}
    (hn : s.d.cur.lanes.Nodup) (hhere : t.here = g.ends s.d.cur [] .hold js)
    (hst : ∀ k, (g.thread k).st = (s.here.thread k).st) (hm : ∀ k, (g.thread k).m = m k)
    (ha : ∀ k, (g.thread k).st ≠ .exited →
      (if k ∈ s.d.cur.lanes then ((js.find? fun j => j.1 == k).map (·.2)).getD s.d.cur.next else (g.thread k).pc) = a k) :
    Meets s t s.d.cur.lanes a m := by
  rw [ends_eq_moved] at hhere
  generalize (if s.d.cur.stamped then g.issue else g.issue + 1) = n at hhere
  have hth := moved_thread n (js := js) hn g
  generalize g.moved s.d.cur n js = g' at hhere hth
  have hm' : ∀ k, (g'.thread k).m = m k := fun k => by
    rw [hth, ← hm]
    split
    · exact threadEnds_m ..
    · rfl
  have hst' : ∀ k, (g'.thread k).st =
      if k ∈ s.d.cur.lanes ∧ (s.here.thread k).st ≠ .exited then .runnable else (s.here.thread k).st := fun k => by
    rw [hth, ← hst]
    by_cases hk : k ∈ s.d.cur.lanes
    · by_cases he : (g.thread k).st = .exited
      · rw [if_pos hk, thread_ends_exited he, if_neg fun h => h.2 he]
      · rw [if_pos hk, (thread_ends_running he).1, if_pos ⟨hk, he⟩]
    · rw [if_neg hk, if_neg fun h => hk h.1]
  have hpc' : ∀ k, (g'.thread k).st ≠ .exited → (g'.thread k).pc = a k := fun k hne => by
    have he : (g.thread k).st ≠ .exited := fun he => hne <| by rw [hst', if_neg fun h => h.2 (hst k ▸ he), ← hst, he]
    rw [hth, ← ha k he]
    split
    · exact (thread_ends_running he).2
    · rfl
  have hstands : ∀ k, (g'.thread k).stands = decide ((g'.thread k).st = .held ∨
      ((g'.thread k).st = .runnable ∧ m k = some (a k))) := fun k => by
    unfold Thread.stands
    rw [hm']
    refine decide_eq_decide.mpr (or_congr_right (and_congr_right fun hr => ?_))
    rw [hpc' k (by rw [hr]; exact TState.noConfusion)]
  have hmet : ∀ l, g'.cohortMet l = (decide ((g'.thread l).st = .held ∨ ((g'.thread l).st = .runnable ∧ m l = some (a l))) &&
      (List.range 32).all fun k => decide ((g'.thread k).st = .exited ∨ m k ≠ m l ∨
        decide ((g'.thread k).st = .held ∨ ((g'.thread k).st = .runnable ∧ m k = some (a k))) = true)) := fun l => by
    unfold Group.cohortMet
    simp only [hstands, hm']
  unfold Meets
  simp only [← hst', ← hmet]
  intro l hl
  rw [hhere, meetings_thread_eq g' hl, ← hstands, ← hm' l]
  split
  · exact ⟨rfl, rfl⟩
  · exact ⟨Thread.arrived_m _, Thread.arrived_st _⟩

/-! ### The effects -/

theorem sset_sset {α : Type} (m : Sparse α) (k : Nat) (a b : α) : sset (sset m k a) k b = sset m k b := by
  induction m with
  | nil => simp [sset]
  | cons e m ih =>
    obtain ⟨k', v⟩ := e
    rcases Nat.lt_trichotomy k k' with h | h | h
    · simp [sset, h]
    · simp [sset, h]
    · simp [sset, Nat.lt_asymm h, Nat.ne_of_gt h, ih]

theorem supd_supd {α : Type} (m : Sparse α) (k : Nat) (f g : α → α) :
    supd (supd m k f) k g = supd m k fun x => g (f x) := by
  unfold supd
  cases hm : sget? m k with
  | none => simp only [hm]
  | some v => simp only [sget?_sset_same, sset_sset]

/-- Two changes of a group one after the other are one change. -/
theorem updGrp_updGrp (w : Work) (k : Nat) (f g : Group → Group) :
    (w.updGrp k f).updGrp k g = w.updGrp k fun x => g (f x) :=
  congrArg (fun m => ({ w with d := { w.d with groups := m } } : Work)) (supd_supd ..)

theorem updG_updG (w : Work) (f g : Group → Group) : (w.updG f).updG g = w.updG fun x => g (f x) := updGrp_updGrp ..

/-- What is left where the effect is none. -/
theorem afterG_id (s : State) (ds : List Named) (js : List (Nat × Addr)) :
    afterG s ds id js = commit s.mem ((atIssue s ds).finish [] .hold js) :=
  congrArg (commit s.mem) (updG_updG ..)

/-- The address that a relative target names (R179). -/
theorem relTarget_eq (s : State) (ofs : Word) : relTarget s.d.cur ofs = relAddr s ofs := by
  have h4 : ((ofs.signExtend 57) <<< 2 : Addr) = BitVec.ofInt 57 (4 * ofs.toInt) := by
    rw [BitVec.shiftLeft_eq_mul_twoPow, BitVec.ofInt_mul, BitVec.mul_comm]
    rfl
  rw [relTarget, relAddr, h4, BitVec.ofInt_add, BitVec.ofInt_natCast, BitVec.ofNat_toNat, BitVec.setWidth_eq]

/-- The word of a thread's M (R204). -/
theorem mWord_some (a : Addr) : (1#64 <<< 63) ||| a.zeroExtend 64 = BitVec.ofNat 64 (2 ^ 63 + a.toNat) := by
  have ha := a.isLt
  rw [← BitVec.toNat_inj]
  have h := Nat.two_pow_add_eq_or_of_lt (i := 63) (b := a.toNat) (by omega) 1
  simp only [BitVec.toNat_or, BitVec.toNat_setWidth, BitVec.toNat_ofNat]
  rw [Nat.mul_one] at h
  rw [h, Nat.mod_eq_of_lt (a := a.toNat) (by omega), Nat.mod_eq_of_lt (a := 2 ^ 63 ||| a.toNat)]
  · rfl
  · rw [← h]; omega

/-- `setM` is an effect on the executing threads. -/
theorem setM_eq (w : Work) (x : List Nat) (f : Nat → Option Addr) :
    w.setM x f = w.updG (onThreads x fun l t => { t with m := f l }) := by
  unfold Work.setM onThreads
  simp only [List.foldl_map]

/-- A group whose executing threads have new M's. -/
theorem setM_thread (hi : Issued s h src dst x) (f : Nat → Option Addr) (g : Group) (k : Nat) :
    (onThreads x (fun l t => { t with m := f l }) g).thread k =
      { g.thread k with m := if k ∈ x then f k else (g.thread k).m } := by
  rw [onThreads_thread hi.lanes_nodup]
  split <;> rfl

/-- Where threads stand after an effect that changes no thread's place and lets no lane jump. -/
theorem afterG_stays {ds : List Named} {G : Group → Group} (hi : Issued s h src dst x)
    (hst : ∀ k, ((G (startGroup s)).thread k).st = (s.here.thread k).st)
    (hpc : ∀ k, ((G (startGroup s)).thread k).pc = (s.here.thread k).pc) :
    Jumps s (afterG s ds G []) (fun _ => s.d.cur.next) := by
  refine ⟨fun l hl he => ?_, fun l hl => ?_⟩
  · rw [afterG_pc ds [] G hi, hst, if_pos ⟨hl, he⟩]; rfl
  · rw [afterG_pc ds [] G hi, if_neg (fun hc => hl hc.1), hpc]; rfl

/-- The meetings after such an effect. -/
theorem afterG_meeting {ds : List Named} {G : Group → Group} {m : Nat → Option Addr} (hi : Issued s h src dst x)
    (hst : ∀ k, ((G (startGroup s)).thread k).st = (s.here.thread k).st)
    (hpc : ∀ k, ((G (startGroup s)).thread k).pc = (s.here.thread k).pc) (hm : ∀ k, ((G (startGroup s)).thread k).m = m k) :
    Meets s (afterG s ds G []) s.d.cur.lanes (fun k => if k ∈ s.d.cur.lanes then s.d.cur.next else s.pc k) m := by
  refine meets_after (hi.rise.imp Nat.ne_of_lt) (afterG_here ds [] G hi) hst hm fun k _ => ?_
  split
  · rfl
  · exact hpc k

/-- An instruction that sets the M of its executing threads and nothing else. -/
theorem setM_meets {i : Instr} {body : Work → List Nat → Res} {f m : Nat → Option Addr}
    (he : exec i s = issue s h src dst body) (hi : Issued s h src dst x)
    (hb : body (atIssue s dst) x = .ok ((atIssue s dst).setM x f) []) (hf : ∀ l ∈ x, f l = m l) :
    ∃ t, exec i s = .next t ∧ OnlyRegs s t ∧ SameAll s t ∧ Jumps s t (fun _ => s.d.cur.next) ∧
      Meets s t s.d.cur.lanes (fun k => if k ∈ s.d.cur.lanes then s.d.cur.next else s.pc k)
        (fun k => if k ∈ x then m k else s.ms k) := by
  obtain ⟨h1, h2, h3, h4, h5, -⟩ := threads_after dst [] hi (fun l t => { t with m := f l }) (T := fun _ => id) fun _ _ => rfl
  have hT : (fun (l : Nat) => if l ∈ x then (id : Thread → Thread) else id) = fun _ => id := funext fun l => ite_self id
  rw [hT] at h1
  have hth := fun k => setM_thread hi f (startGroup s) k
  have keeps : ∀ (β : Type) (φ : Thread → β), (∀ t st m, φ { t with st := st, m := m } = φ t) →
      (∀ n l t, φ (Thread.ends s.d.cur n [] .hold [] l t) = φ t) → ∀ k,
      φ ((afterG s dst (onThreads x fun l t => { t with m := f l }) []).here.thread k) = φ (s.here.thread k) :=
    fun β φ hφ hends k => by
      rw [h5 β φ hφ hends k]
      split
      · exact hφ (s.here.thread k) (s.here.thread k).st (f k)
      · rfl
  refine ⟨afterG s dst (onThreads x fun l t => { t with m := f l }) [], ?_, h1, ⟨⟨h2, h3, h4, fun l k => ?_⟩, fun l => ?_⟩,
    afterG_stays hi (fun k => ?_) fun k => ?_, afterG_meeting hi (fun k => ?_) (fun k => ?_) fun k => ?_⟩
  · rw [he, issue_ok hi hb, setM_eq]; rfl
  · exact keeps Word (fun t => t.readL k) (fun _ _ _ => rfl) (fun n l t => threadEnds_l ..) l
  · exact keeps _ Thread.p (fun _ _ _ => rfl) (fun n l t => threadEnds_p ..) l
  iterate 4 rw [hth, startGroup_thread]
  · rw [hth, startGroup_thread]
    dsimp only
    split
    · next hk => exact hf k hk
    · rfl

/-- Where the lanes of a list that have a target jump. -/
theorem find_jump (x : List Nat) (f : Nat → Option Addr) (k : Nat) :
    ((x.filterMap fun l => (f l).map fun a => (l, a)).find? fun j => j.1 == k).map (·.2) = if k ∈ x then f k else none := by
  induction x with
  | nil => rfl
  | cons l x ih =>
    rw [List.filterMap_cons]
    by_cases hk : k = l
    · subst hk
      cases hf : f k with
      | none =>
        simp only [Option.map_none, List.mem_cons, true_or, if_true]
        rw [ih, hf, ite_self]
      | some a => simp
    · have hm : k ∈ l :: x ↔ k ∈ x := by simp [hk]
      simp only [hm]
      cases hf : f l with
      | none => exact ih
      | some a =>
        have hne : (l == k) = false := beq_eq_false_iff_ne.mpr fun h => hk h.symm
        simpa only [Option.map_some, List.find?_cons, hne] using ih

/-- An issue whose only effect is where its threads go on. -/
theorem jumpsOnly_same (hi : Issued s h src dst x) (js : List (Nat × Addr)) :
    OnlyRegs s (afterG s dst id js) ∧ SameAll s (afterG s dst id js) := by
  have hn := hi.rise.imp Nat.ne_of_lt
  have hh := afterG_here dst js id hi
  refine ⟨afterG_same dst js id hi rfl rfl rfl fun _ => rfl, ⟨fun l n => ?_, fun n => ?_, afterG_sameB dst js id hi rfl, fun l i => ?_⟩,
    fun l => ?_⟩
  · rw [hh, Group.readV, ends_v]; exact congrArg (sget · _ 0) (startGroup_v (s := s))
  · rw [hh, Group.readS, ends_sreg]; exact congrArg (sget · n 0) (startGroup_sreg (s := s))
  · rw [hh, ends_thread_l _ _ _ _ hn]; exact congrArg (Thread.readL · i) (startGroup_thread l)
  · rw [hh, ends_thread_p _ _ _ _ hn]; exact congrArg Thread.p (startGroup_thread l)

/-- meet: a thread goes to its M where it has one. -/
theorem meet_meets (hi : Issued s h [] [] x) :
    ∃ t, exec (.meet h) s = .next t ∧ OnlyRegs s t ∧ SameAll s t ∧
      Jumps s t (fun k => if k ∈ x then (s.ms k).getD s.d.cur.next else s.d.cur.next) ∧
      Meets s t s.d.cur.lanes (fun k => if k ∈ x then (s.ms k).getD s.d.cur.next else
        if k ∈ s.d.cur.lanes then s.d.cur.next else s.pc k) s.ms := by
  let js := x.filterMap fun l => (s.ms l).map fun a => (l, a)
  have hjs : ∀ k, ((js.find? fun j => j.1 == k).map (·.2)).getD s.d.cur.next =
      if k ∈ x then (s.ms k).getD s.d.cur.next else s.d.cur.next := fun k => by
    rw [find_jump]
    split <;> rfl
  have hth : ∀ k, (id (startGroup s)).thread k = s.here.thread k := fun k => startGroup_thread k
  have hb : (fun (w : Work) x => Res.ok w (x.filterMap fun l => (w.g.thread l).m.map fun a => (l, a))) (atIssue s []) x =
      .ok (atIssue s []) js := by
    simp only [atIssue_g [] hi, startGroup_thread]
    rfl
  obtain ⟨hregs, hall⟩ := jumpsOnly_same hi js
  refine ⟨afterG s [] id js, ?_, hregs, hall, ⟨fun l hl he => ?_, fun l hl => ?_⟩,
    meets_after (hi.rise.imp Nat.ne_of_lt) (afterG_here [] js id hi) (fun k => ?_) (fun k => ?_) fun k _ => ?_⟩
  · rw [afterG_id]; exact issue_ok hi hb
  · rw [afterG_pc [] js id hi, hth, if_pos ⟨hl, he⟩, hjs]
  · rw [afterG_pc [] js id hi, hth, if_neg fun hc => hl hc.1]; rfl
  · rw [hth]
  · rw [hth]; rfl
  · rw [hjs, hth]
    by_cases hx : k ∈ x
    · rw [if_pos (hi.lanes_sub k hx), if_pos hx]
      exact (if_pos hx).symm
    · rw [if_neg hx, if_neg hx]; rfl

/-- meet.set in its exchanging form: the pair takes the M word that was, the M the target. -/
theorem meetSetXch_meets {l : BitVec 8} {ofs : Word} (hl : l ≠ 255) (hi : Issued s h [] [.v l.toNat, .v (l.toNat + 1)] x) :
    ∃ t, exec (.meetSetXch h l ofs) s = .next t ∧ OnlyRegs s t ∧ Jumps s t (fun _ => s.d.cur.next) ∧
      Meets s t s.d.cur.lanes (fun k => if k ∈ s.d.cur.lanes then s.d.cur.next else s.pc k)
        (fun k => if k ∈ x then some (relAddr s ofs) else s.ms k) ∧
      Wrote s t x (.v l) true true fun k => (s.here.thread k).mWord := by
  have hn := hi.rise.imp Nat.ne_of_lt
  let ds : List Named := [.v l.toNat, .v (l.toNat + 1)]
  let P := putLanes (.v l) true true x fun k => (s.here.thread k).mWord
  let F := onThreads x fun _ t => { t with m := some (relTarget s.d.cur ofs) }
  let G := fun g => F (P g)
  have hb : (fun (w : Work) x => Res.ok ((w.writeDst x (.v l) true true fun t => (w.g.thread t).mWord).setM x
      fun _ => some (relTarget w.d.cur ofs)) []) (atIssue s ds) x = .ok ((atIssue s ds).updG G) [] := by
    have hf : (fun t => ((atIssue s ds).g.thread t).mWord) = fun k => (s.here.thread k).mWord := by
      simp only [atIssue_g ds hi, startGroup_thread]
    dsimp only
    rw [hf, setM_eq]
    exact congrArg (Res.ok · []) (updG_updG ..)
  -- what the last-result file and the V registers become, the M's are no part of
  have hth : ∀ g k, (G g).thread k = { (P g).thread k with m := if k ∈ x then some (relTarget s.d.cur ofs) else ((P g).thread k).m } :=
    fun g k => setM_thread hi (fun _ => some (relTarget s.d.cur ofs)) (P g) k
  have hP : ∀ {β : Type} (φ : Thread → β), (∀ t w, φ (Thread.push t w) = φ t) → ∀ k,
      φ ((P (startGroup s)).thread k) = φ (s.here.thread k) := fun φ hφ k => by
    rw [putLanes_thread φ hφ, startGroup_thread]
  have hkeep : ∀ {β : Type} (φ : Group → β), (∀ g l f, φ (Group.updThread g l f) = φ g) → ∀ g, φ (G g) = φ (P g) :=
    fun φ hφ g => onThreads_keeps φ hφ x _ (P g)
  have hpg : ∀ {β : Type} (φ : Group → β), (∀ g l n w, φ (Group.writeV g l n w) = φ g) → (∀ g l f, φ (Group.updThread g l f) = φ g) →
      φ (G (startGroup s)) = φ (startGroup s) := fun φ h1 h2 =>
    (hkeep φ h2 _).trans (putLanes_keeps φ h1 (fun g l ws => h2 g l _) ..)
  have hst : ∀ k, ((G (startGroup s)).thread k).st = (s.here.thread k).st := fun k => by
    rw [hth]; exact hP Thread.st (fun _ _ => rfl) k
  have hpc : ∀ k, ((G (startGroup s)).thread k).pc = (s.here.thread k).pc := fun k => by
    rw [hth]; exact hP Thread.pc (fun _ _ => rfl) k
  have hm : ∀ k, ((G (startGroup s)).thread k).m = if k ∈ x then some (relAddr s ofs) else s.ms k := fun k => by
    rw [hth, ← relTarget_eq]
    exact if_congr Iff.rfl rfl (hP Thread.m (fun _ _ => rfl) k)
  have hh := afterG_here ds [] G hi
  have hhP := afterG_here ds [] P hi
  have hv : (afterG s ds G []).here.v = (afterG s ds P []).here.v := by
    rw [hh, hhP, ends_v, ends_v, hkeep Group.v fun _ _ _ => rfl]
  refine ⟨afterG s ds G [], issue_ok hi hb, afterG_same ds [] G hi (hpg Group.core (fun _ _ _ _ => rfl) fun _ _ _ => rfl)
      (hpg Group.blk (fun _ _ _ _ => rfl) fun _ _ _ => rfl) (hpg owedOf (fun _ _ _ _ => rfl) fun _ _ _ => rfl) fun k => ?_,
    afterG_stays hi hst hpc, afterG_meeting hi hst hpc hm, fun k => ?_, ?_, fun n => ?_, ?_, fun k i => ?_⟩
  · rw [hth, startGroup_thread]
    exact hP Thread.core (fun _ _ => rfl) k
  · rw [hh, ends_thread_p _ _ _ _ hn, hth]
    exact hP Thread.p (fun _ _ => rfl) k
  · have hw := wroteV_after ds [] hi l true true (fun _ => hl) fun k => (s.here.thread k).mWord
    unfold WroteV Group.readV at hw ⊢
    rw [hv]
    exact hw
  · rw [hh, Group.readS, ends_sreg, hpg Group.sreg (fun _ _ _ _ => rfl) fun _ _ _ => rfl, startGroup_sreg]; rfl
  · exact afterG_sameB ds [] G hi (hpg Group.blk (fun _ _ _ _ => rfl) fun _ _ _ => rfl)
  · have hL : ((afterG s ds G []).here.thread k).readL i = ((afterG s ds P []).here.thread k).readL i := by
      rw [hh, hhP, ends_thread_l _ _ _ _ hn, ends_thread_l _ _ _ _ hn, hth]
      rfl
    rw [hL]
    exact putLanes_l ds hi (.v l) rfl true true (fun k => (s.here.thread k).mWord) k i

/-- Settles O15: the forms that set M are one effect on the executing threads (`setM_meets`, `meetSetXch_meets`), meet one on where
they go on (`meet_meets`), and the meetings behind each are those of the rule (`meets_after`). -/
theorem meetings : Obligations.Meetings := by
  unfold Obligations.Meetings
  intro s h x ofs l a
  refine ⟨fun ⟨_, hr⟩ => ?_, fun ⟨hwf, hr⟩ => ?_, fun ⟨_, hr⟩ => ?_, fun ⟨_, hr⟩ => ?_, fun ⟨_, hr⟩ => ?_⟩
  · exact setM_meets rfl (issued_of hr) rfl fun k _ => congrArg some (relTarget_eq s ofs)
  · have hl : l ≠ 255 := by
      simp only [Instr.wf, Bool.and_eq_true, bne_iff_ne] at hwf
      exact hwf.2
    have hM : (fun k => (s.here.thread k).mWord) = fun k =>
        match s.ms k with
        | some m => BitVec.ofNat 64 (2 ^ 63 + m.toNat)
        | none => 0 := by
      funext k
      unfold Thread.mWord State.ms
      cases (s.here.thread k).m with
      | none => rfl
      | some a => exact mWord_some a
    obtain ⟨t, h1, h2, h3, h4, h5⟩ := meetSetXch_meets (ofs := ofs) hl (issued_of hr)
    exact ⟨t, h1, h2, h3, h4, hM ▸ h5⟩
  · have hi := issued_of hr
    refine setM_meets rfl hi rfl fun k _ => ?_
    rw [atIssue_op64 [] hi]
    rfl
  · exact meet_meets (issued_of hr)
  · exact setM_meets rfl (issued_of hr) rfl fun k _ => rfl

end Sys2Proof.Machine
end

section
/-! PROOFS. Loads as they issue (O28): a state, which no run reaches, where an acquiring load of the scratchpad leaves an
acquire outstanding. -/

namespace Sys2Proof.Machine

/-- A load that a group owes already, under the very id that the next access takes: no run reaches it, and the statement
about loads takes it in. -/
def strayLoad : Owed :=
  { id := 0, wins := [], dst := [], pay := .load
      { lane := 0, va := 0, pa := 0, n := 4, loc := false, more := [], ro := false, ext := .zero, cst := false,
        cached := true, strong := false, acq := false, scope := .blk, lease := 0, wide := false, instr := 0, lanes := 1,
        iss := Stamp.none, passed := none } }

/-- One runnable thread with a KiB of scratchpad about to issue, whose group owes `strayLoad`. -/
def strayState : State :=
  { State.reset with d := { State.reset.d with
      cur := { slot := 0, lanes := [0], pc := 0x40000, len := 12, word := 0, stamped := false }
      groups := [(0, { Group.gone with thr := [(0, { Thread.gone with st := .runnable })], owed := [strayLoad] })]
      blocks := [(0, { Block.gone with gcnt := 1, vbase := 8, spad := 1 })] } }

def strayHdr : Hdr := { neg := false, grd := 15, ver1 := true, ctl := 0 }

/-- ld.s.strong.acq.blk.b32 V8, [S0] -/
def strayOp : MemOp :=
  { ty := .b32, space := .s, strong := true, ord := .acq, scope := .blk, disp := 0, d := .v 8, base := .v 0, off := .inl 0,
    data := .v 0 }

/-- What the load gives its lane: the scratchpad's bytes. -/
def strayPay (l : Nat) : Payload :=
  .ready (loadWords strayOp.d strayOp.ty.bytes (memSigned strayOp)
    ((begin_ strayState).load (spadAt strayState strayOp true l) strayOp.ty.bytes))

theorem strayRuns : Runs (.ld strayHdr strayOp) strayState strayHdr (memSrc strayOp true) (memDst strayOp) [0] := by
  constructor <;> decide +kernel

theorem straySizes (l : Nat) : SpadSizes strayState strayOp true l := by
  intro r hr
  cases hr

theorem strayGives : LoadGives strayState strayOp false [0] 0 (strayPay 0) := .inl ⟨by decide +kernel, rfl⟩

/-- The acquires that an answer leaves outstanding. -/
def acqAfter (r : Host.Outcome State Fault Refusal) : List Nat := match r with | .next t => t.here.acq | _ => []

/-- The load takes the stray entry for one of its own and waits for it. -/
theorem strayLoad_waitedFor : acqAfter (exec (.ld strayHdr strayOp) strayState) = [0] := by decide +kernel

/-- Refutes O28: an acquiring load of the scratchpad that leaves an acquire outstanding (`strayLoad_waitedFor`). -/
theorem not_loads : ¬ Obligations.Loads := by
  unfold Obligations.Loads
  intro hall
  have h := hall strayState strayHdr strayOp [0] strayPay rfl fun _ _ => ⟨by decide +kernel, fun l _ _ => straySizes l⟩
  dsimp only at h
  obtain ⟨t, hexec, -, -, -, -, -, hacq, -⟩ := h.1 (by simpa using strayGives) strayRuns
  have hwait := strayLoad_waitedFor
  rw [hexec] at hwait
  exact absurd (hwait.symm.trans (hacq (.inr rfl))) (by decide)

end Sys2Proof.Machine
end

section
/-! PROOFS. Hardware barriers (O36): works that differ in barriers and clocks alone, the count of an arrival at each scope,
and the end of a wait. -/

namespace Sys2Proof.Machine

/-! ### Works that differ in barriers and clocks alone -/

/-- A group without its barriers, its clocks and what it is owed. -/
def Group.plain (g : Group) : Group := { g with bar := [], sync := 0, ep := 0, vc := [], owed := [] }

/-- A block without its barriers and the owners of its B registers. -/
def Block.plain (b : Block) : Block := { b with bars := [], bown := [] }

/-- What reads nothing of barriers, clocks and results owed reads the same of groups that differ in them alone. -/
theorem Group.of_plain {β : Type} (φ : Group → β) (hφ : ∀ g, φ g.plain = φ g) {g g' : Group} (h : g.plain = g'.plain) :
    φ g = φ g' := by rw [← hφ g, ← hφ g', h]

theorem Block.of_plain {β : Type} (φ : Block → β) (hφ : ∀ b, φ b.plain = φ b) {b b' : Block} (h : b.plain = b'.plain) :
    φ b = φ b' := by rw [← hφ b, ← hφ b', h]

/-- `w'` differs from `w` in its barriers, in what is ordered by them, and in results owed. -/
structure SameTeams (w w' : Work) : Prop where
  log : w'.log = w.log
  cur : w'.d.cur = w.d.cur
  grps : ∀ k, (w'.grp? k).map Group.plain = (w.grp? k).map Group.plain
  blks : ∀ k, (w'.blk? k).map Block.plain = (w.blk? k).map Block.plain
  list : ∀ p, p ∈ w'.d.blocks.map (fun e => (e.1, e.2.plain)) ↔ p ∈ w.d.blocks.map fun e => (e.1, e.2.plain)

theorem mem_of_sget? {α : Type} {m : Sparse α} {k : Nat} {v : α} (h : sget? m k = some v) : (k, v) ∈ m := by
  induction m with
  | nil => cases h
  | cons e m ih =>
    obtain ⟨j, u⟩ := e
    simp only [sget?] at h
    split at h
    · next hj => cases h; rw [hj]; exact List.mem_cons_self
    · exact List.mem_cons_of_mem _ (ih h)

/-- A new value at a key that keeps `φ` of the old one leaves the same keys with the same `φ`. -/
theorem mem_map_sset {α β : Type} (φ : α → β) {m : Sparse α} {k : Nat} {v v' : α} (h : sget? m k = some v)
    (hφ : φ v' = φ v) (p : Nat × β) :
    p ∈ (sset m k v').map (fun e => (e.1, φ e.2)) ↔ p ∈ m.map fun e => (e.1, φ e.2) := by
  have hmem : (k, φ v') ∈ m.map fun e => (e.1, φ e.2) := by
    rw [hφ]; exact List.mem_map_of_mem (f := fun e : Nat × α => (e.1, φ e.2)) (mem_of_sget? h)
  induction m with
  | nil => cases h
  | cons e m ih =>
    obtain ⟨j, u⟩ := e
    rcases Nat.lt_trichotomy k j with hk | hk | hk
    · simp only [sset, if_pos hk]
      rw [List.map_cons, List.mem_cons, or_iff_right_of_imp]
      exact fun hp => hp ▸ hmem
    · subst hk
      simp only [sget?, if_true] at h
      cases h
      simp [sset, hφ]
    · have hj : ¬ j = k := Nat.ne_of_lt hk
      simp only [sget?, if_neg hj] at h
      simp only [sset, if_neg (Nat.lt_asymm hk), if_neg fun hc : k = j => hj hc.symm, List.map_cons, List.mem_cons]
      exact or_congr_right (ih h (hφ ▸ List.mem_map_of_mem (f := fun e : Nat × α => (e.1, φ e.2)) (mem_of_sget? h)))

theorem mem_map_supd {α β : Type} (φ : α → β) {f : α → α} (hφ : ∀ v, φ (f v) = φ v) (m : Sparse α) (k : Nat) (p : Nat × β) :
    p ∈ (supd m k f).map (fun e => (e.1, φ e.2)) ↔ p ∈ m.map fun e => (e.1, φ e.2) := by
  unfold supd
  cases h : sget? m k with
  | none => exact Iff.rfl
  | some v => exact mem_map_sset φ h (hφ v) p

theorem get_supd {α β : Type} (φ : α → β) {f : α → α} (hφ : ∀ v, φ (f v) = φ v) (m : Sparse α) (k j : Nat) :
    (sget? (supd m k f) j).map φ = (sget? m j).map φ := by
  rw [sget?_supd]
  split
  · next h =>
    subst h
    cases sget? m j with
    | none => rfl
    | some v => exact congrArg some (hφ v)
  · rfl

namespace SameTeams

variable {w w' w'' : Work}

theorem refl (w : Work) : SameTeams w w := ⟨rfl, rfl, fun _ => rfl, fun _ => rfl, fun _ => Iff.rfl⟩

theorem trans (h : SameTeams w w') (h' : SameTeams w' w'') : SameTeams w w'' :=
  ⟨h'.log.trans h.log, h'.cur.trans h.cur, fun k => (h'.grps k).trans (h.grps k), fun k => (h'.blks k).trans (h.blks k),
    fun p => (h'.list p).trans (h.list p)⟩

theorem updGrp (w : Work) (k : Nat) {f : Group → Group} (hf : ∀ g, (f g).plain = g.plain) : SameTeams w (w.updGrp k f) :=
  ⟨rfl, rfl, get_supd Group.plain hf _ _, fun _ => rfl, fun _ => Iff.rfl⟩

theorem updBlk (w : Work) (k : Nat) {f : Block → Block} (hf : ∀ b, (f b).plain = b.plain) : SameTeams w (w.updBlk k f) :=
  ⟨rfl, rfl, fun _ => rfl, get_supd Block.plain hf _ _, mem_map_supd Block.plain hf _ _⟩

/-- A change outside groups and blocks. -/
theorem of_eq (hl : w'.log = w.log) (hc : w'.d.cur = w.d.cur) (hg : w'.d.groups = w.d.groups)
    (hb : w'.d.blocks = w.d.blocks) : SameTeams w w' :=
  ⟨hl, hc, fun k => by unfold Work.grp?; rw [hg], fun k => by unfold Work.blk?; rw [hb], fun p => by rw [hb]⟩

theorem fenceDone (w : Work) (k : Nat) (sc : Scope) : SameTeams w (w.fenceDone k sc) := by
  have hs : SameTeams w (w.synced k) := by
    unfold Work.synced Work.closeEp
    exact (updGrp w k (f := fun g => { g with sync := w.d.nextId }) fun _ => rfl).trans (updGrp _ k fun _ => rfl)
  unfold Work.fenceDone
  dsimp only
  split
  · exact hs.trans (of_eq rfl rfl rfl rfl)
  · exact hs

theorem clearArr (w : Work) (n : Nat) (ls : List Nat) : SameTeams w (w.clearArr n ls) := by
  unfold Work.clearArr
  induction ls generalizing w with
  | nil => exact refl w
  | cons k ls ih =>
    rw [List.foldl_cons]
    refine trans ?_ (ih _)
    exact updGrp w k fun _ => rfl

/-- The effect of an instruction that writes no B register starts so. -/
theorem atIssue (s : State) : SameTeams (begin_ s) (atIssue s []) := by
  refine (updGrp (begin_ s) _ fun g => ?_).trans (updBlk _ _ fun b => ?_)
  · split <;> rfl
  · unfold Block.take; split <;> rfl

theorem grp?_some (h : SameTeams w w') {k : Nat} {g : Group} (hg : w.grp? k = some g) :
    ∃ g', w'.grp? k = some g' ∧ g'.plain = g.plain := by
  have hk := h.grps k
  rw [hg] at hk
  exact Option.map_eq_some_iff.mp hk

theorem blk?_some (h : SameTeams w w') {k : Nat} {b : Block} (hb : w.blk? k = some b) :
    ∃ b', w'.blk? k = some b' ∧ b'.plain = b.plain := by
  have hk := h.blks k
  rw [hb] at hk
  exact Option.map_eq_some_iff.mp hk

/-- What reads of a group only what is not a barrier's reads the same. -/
theorem onGrp {β : Type} (h : SameTeams w w') (φ : Group → β) (hφ : ∀ g, φ g.plain = φ g) (k : Nat) :
    (w'.grp? k).map φ = (w.grp? k).map φ := by
  have hk := congrArg (Option.map φ) (h.grps k)
  simpa only [Option.map_map, Function.comp_def, hφ] using hk

theorem onBlk {β : Type} (h : SameTeams w w') (φ : Block → β) (hφ : ∀ b, φ b.plain = φ b) (k : Nat) :
    (w'.blk? k).map φ = (w.blk? k).map φ := by
  have hk := congrArg (Option.map φ) (h.blks k)
  simpa only [Option.map_map, Function.comp_def, hφ] using hk

theorem groupLive (h : SameTeams w w') : w'.groupLive = w.groupLive := by
  have key : ∀ u : Work, u.groupLive = fun k => ((u.grp? k).map fun g => !g.live.isEmpty).getD false := fun u => by
    funext k
    unfold Work.groupLive
    cases u.grp? k <;> rfl
  rw [key, key]
  funext k
  rw [h.onGrp (fun g => !g.live.isEmpty) (fun _ => rfl)]

theorem blockMembers (h : SameTeams w w') : w'.blockMembers = w.blockMembers := by
  have key : ∀ u : Work, u.blockMembers = fun k => ((u.blk? k).map fun b => (b.slots k).filter u.groupLive).getD [] := fun u => by
    funext k
    unfold Work.blockMembers
    cases u.blk? k <;> rfl
  rw [key, key, h.groupLive]
  funext k
  rw [h.onBlk (fun b => (b.slots k).filter w.groupLive) (fun _ => rfl)]

theorem mem_launchBlocks (h : SameTeams w w') {launch k : Nat} : k ∈ w'.launchBlocks launch ↔ k ∈ w.launchBlocks launch := by
  have key : ∀ u : Work, k ∈ u.launchBlocks launch ↔
      ∃ b : Block, b.launch = launch ∧ (k, b) ∈ u.d.blocks.map fun e => (e.1, e.2.plain) := fun u => by
    simp only [Work.launchBlocks, List.mem_map, List.mem_filter, beq_iff_eq]
    constructor
    · rintro ⟨e, ⟨he, hl⟩, rfl⟩
      exact ⟨e.2.plain, hl, e, he, rfl⟩
    · rintro ⟨b, hl, e, he, hk⟩
      cases hk
      exact ⟨e, ⟨he, hl⟩, rfl⟩
  rw [key, key]
  exact exists_congr fun b => and_congr_right fun _ => h.list _

theorem mem_launchMembers (h : SameTeams w w') {launch q : Nat} :
    q ∈ w'.launchMembers launch ↔ q ∈ w.launchMembers launch := by
  simp only [Work.launchMembers, List.mem_flatMap, h.mem_launchBlocks, h.blockMembers]

theorem barUnit (h : SameTeams w w') : w'.barUnit = w.barUnit := by
  have hu : ∀ k, ((w'.grp? k).bind fun g => w'.blk? g.blk).map Block.unit =
      ((w.grp? k).bind fun g => w.blk? g.blk).map Block.unit := fun k => by
    have hb := h.onGrp Group.blk (fun _ => rfl) k
    cases hg : w.grp? k with
    | none =>
      rw [hg] at hb
      rw [Option.map_eq_none_iff.mp hb]
      rfl
    | some g =>
      rw [hg] at hb
      obtain ⟨g', hg', he⟩ := Option.map_eq_some_iff.mp hb
      rw [hg', Option.bind_some, Option.bind_some, he]
      exact h.onBlk Block.unit (fun _ => rfl) g.blk
  funext sc k
  unfold Work.barUnit
  rw [hu]

theorem mem_podMembers (h : SameTeams w w') (hl : w'.d.launches = w.d.launches) {pbid q : Nat} {sys : Bool} :
    q ∈ w'.podMembers pbid sys ↔ q ∈ w.podMembers pbid sys := by
  simp only [Work.podMembers, List.mem_flatMap, hl, h.mem_launchMembers]

theorem slot (h : SameTeams w w') : w'.slot = w.slot := congrArg Cur.slot h.cur

theorem g (h : SameTeams w w') : w'.g.plain = w.g.plain := by
  unfold Work.g
  rw [h.slot]
  have hk := h.grps w.slot
  cases hg : w.grp? w.slot with
  | none =>
    rw [hg] at hk
    rw [Option.map_eq_none_iff.mp hk]
  | some g =>
    obtain ⟨g', hg', he⟩ := h.grp?_some hg
    rw [hg']
    exact he

theorem blk (h : SameTeams w w') : w'.blk.plain = w.blk.plain := by
  have hg : w'.g.blk = w.g.blk := Group.of_plain Group.blk (fun _ => rfl) h.g
  unfold Work.blk
  rw [hg]
  have hk := h.blks w.g.blk
  cases hb : w.blk? w.g.blk with
  | none =>
    rw [hb] at hk
    rw [Option.map_eq_none_iff.mp hk]
  | some b =>
    obtain ⟨b', hb', he⟩ := h.blk?_some hb
    rw [hb']
    exact he

end SameTeams

theorem podCreated_congr {w w' : Work} (hl : w'.d.launches = w.d.launches) : w'.podCreated = w.podCreated := by
  funext p b
  unfold Work.podCreated
  rw [hl]

theorem barScopeOk_congr {w w' : Work} (h : SameTeams w w') (hl : w'.d.launches = w.d.launches) (sc : Scope) :
    w'.barScopeOk sc = w.barScopeOk sc := by
  unfold Work.barScopeOk
  rw [hl, show w'.blk.launch = w.blk.launch from Block.of_plain Block.launch (fun _ => rfl) h.blk]

/-! ### What such an issue leaves -/

section Leaves

variable {s : State} {h : Hdr} {src dst : List Named} {x : List Nat} {w : Work}

/-- The state after an instruction whose effect has left `w`. -/
def leaves (s : State) (w : Work) : State := commit s.mem (w.finish [] .hold [])

theorem leaves_here (hc : w.d.cur = s.d.cur) {g : Group} (hg : w.grp? s.d.cur.slot = some g) :
    (leaves s w).here = g.ends s.d.cur [] .hold [] := by
  have h1 := Work.grp?_updG w (Group.ends s.d.cur [] .hold [])
  have hs : w.slot = s.d.cur.slot := congrArg Cur.slot hc
  rw [hs, hg] at h1
  have h2 : leaves s w = commit s.mem (w.updG (Group.ends s.d.cur [] .hold [])) := by
    unfold leaves Work.finish; rw [hc]
  have h3 : (w.updG (Group.ends s.d.cur [] .hold [])).grp? (w.updG (Group.ends s.d.cur [] .hold [])).slot =
      some (g.ends s.d.cur [] .hold []) := by rw [Work.slot_updG, hs, h1]; rfl
  have h4 : ∀ u : Work, (commit s.mem u).here = (u.grp? u.slot).getD Group.gone := fun _ => rfl
  rw [h2, h4, h3, Option.getD_some]

theorem leaves_bar (hc : w.d.cur = s.d.cur) {g : Group} (hg : w.grp? s.d.cur.slot = some g) :
    (leaves s w).here.bar = g.bar := by
  rw [leaves_here hc hg]
  exact ends_keeps _ _ _ _ Group.bar (fun _ _ _ => rfl) (fun _ _ => rfl) (fun _ _ => rfl) g

/-- Memory, registers and predicates are as before, and the issuing threads go on behind the instruction. -/
theorem leaves_frame (hi : Issued s h src dst x) (hT : SameTeams (begin_ s) w) :
    SameMem s (leaves s w) ∧ SameAll s (leaves s w) ∧ Advances s (leaves s w) := by
  have hn := hi.rise.imp Nat.ne_of_lt
  have hc : w.d.cur = s.d.cur := hT.cur
  obtain ⟨g, hg, hp⟩ := hT.grp?_some (k := s.d.cur.slot) hi.grp
  obtain ⟨b, hb, hbp⟩ := hT.blk?_some (k := s.here.blk) hi.blk
  have hh := leaves_here hc hg
  have hth : ∀ l, g.thread l = s.here.thread l := fun l => congrArg (sget · l Thread.gone) (Group.of_plain Group.thr (fun _ => rfl) hp)
  have hblk : (leaves s w).here.blk = s.here.blk := by rw [hh, ends_blk]; exact Group.of_plain Group.blk (fun _ => rfl) hp
  refine ⟨fun a => ?_, ⟨⟨fun l n => ?_, fun n => ?_, fun n => ?_, fun l i => ?_⟩, fun l => ?_⟩,
    ⟨⟨fun l hl he => ?_, fun l hl => ?_⟩, fun l => ?_⟩⟩
  · have : w.log = [] := hT.log
    exact congrArg (mread · a) (commit_mem_nil s.mem (w.finish [] .hold []) this)
  · rw [hh, Group.readV, ends_v]; exact congrArg (sget · _ 0) (Group.of_plain Group.v (fun _ => rfl) hp)
  · rw [hh, Group.readS, ends_sreg]; exact congrArg (sget · n 0) (Group.of_plain Group.sreg (fun _ => rfl) hp)
  · rw [State.myBlk, State.blk, hblk, show sget? (leaves s w).d.blocks s.here.blk = some b from hb]
    exact congrArg (sget · n 0) (Block.of_plain Block.b (fun _ => rfl) hbp)
  · rw [hh, ends_thread_l _ _ _ _ hn, hth]
  · rw [hh, ends_thread_p _ _ _ _ hn, hth]
  · rw [State.pc, hh, ends_thread_pc _ _ _ hn, hth, if_pos ⟨hl, he⟩]; rfl
  · rw [State.pc, hh, ends_thread_pc _ _ _ hn, hth, if_neg (fun hc => hl hc.1)]; rfl
  · dsimp only
    rw [hh, ← hth]
    exact ends_thread_m _ _ _ _ hn g l

/-- The block of the issuing group is the one that the effect leaves. -/
theorem leaves_myBlk (hi : Issued s h src dst x) (hT : SameTeams (begin_ s) w) {b : Block}
    (hb : w.blk? s.here.blk = some b) : (leaves s w).myBlk = b := by
  obtain ⟨g, hg, hp⟩ := hT.grp?_some (k := s.d.cur.slot) hi.grp
  have hblk : (leaves s w).here.blk = s.here.blk := by
    rw [leaves_here hT.cur hg, ends_blk]; exact Group.of_plain Group.blk (fun _ => rfl) hp
  rw [State.myBlk, State.blk, hblk, show sget? (leaves s w).d.blocks s.here.blk = some b from hb]
  rfl

end Leaves

/-! ### Arrivals -/

/-- The group in `slot` stands at barrier `n` as `b`. -/
def Work.standsAt (w : Work) (slot n : Nat) (b : BarSt) : Prop :=
  ∃ g, w.grp? slot = some g ∧ sget? g.bar n = some b

theorem clearArr_standsAt {w : Work} {slot n : Nat} {b : BarSt} (h : w.standsAt slot n b) (ls : List Nat) :
    (w.clearArr n ls).standsAt slot n (if slot ∈ ls then { b with arr := false } else b) := by
  unfold Work.clearArr
  induction ls generalizing w b with
  | nil => exact h
  | cons k ls ih =>
    obtain ⟨g, hg, hb⟩ := h
    have hk : (w.updGrp k fun g => { g with bar := supd g.bar n fun b => { b with arr := false } }).standsAt slot n
        (if slot = k then { b with arr := false } else b) := by
      by_cases he : slot = k
      · subst he
        refine ⟨{ g with bar := supd g.bar n fun b => { b with arr := false } }, ?_, ?_⟩
        · rw [Work.grp?_updGrp, if_pos rfl, hg]; rfl
        · rw [if_pos rfl]
          show sget? (supd g.bar n _) n = _
          rw [sget?_supd, if_pos rfl, hb]; rfl
      · refine ⟨g, ?_, ?_⟩
        · rw [Work.grp?_updGrp, if_neg he, hg]
        · rw [if_neg he, hb]
    have := ih hk
    rw [List.foldl_cons]
    by_cases he : slot = k
    · subst he
      simpa using this
    · simpa [he] using this

/-- The phases that complete change only groups. -/
theorem clearArr_keeps {β : Type} (φ : Dev → β) (hφ : ∀ d gs, φ { d with groups := gs } = φ d) (w : Work) (n : Nat)
    (ls : List Nat) : φ (w.clearArr n ls).d = φ w.d := by
  unfold Work.clearArr
  induction ls generalizing w with
  | nil => rfl
  | cons k ls ih => rw [List.foldl_cons, ih]; exact hφ ..

/-- A .blk barrier at which someone has arrived and someone is expected: its phase completes, or nothing happens. -/
theorem checkBlkBar_of_some {w : Work} {blk n : Nat} {b : Block} {bar : Bar} (hb : w.blk? blk = some b)
    (hbar : sget b.bars n Bar.zero = bar) (hm : w.blockMembers blk ≠ []) (ha : bar.arrived ≠ []) :
    w.checkBlkBar blk n = if ∀ q ∈ w.blockMembers blk, q ∈ bar.arrived then
      (w.updBlk blk fun b => { b with bars := sset b.bars n bar.next, bown := [] }).clearArr n bar.arrived else w := by
  unfold Work.checkBlkBar
  rw [hb]
  dsimp only
  rw [hbar]
  simp [hm, ha]

/-- A launch with a barrier's state. -/
def Launch.withBar (ln : Launch) (key : Nat) (bar : Bar) : Launch := { ln with bars := sset ln.bars key bar }

def Work.putLaunch (w : Work) (k : Nat) (ln : Launch) : Work := w.updDev fun d => { d with launches := sset d.launches k ln }

def Work.putPod (w : Work) (key : Nat) (pb : PodBar) : Work := w.updPkg fun p => { p with podBars := sset p.podBars key pb }

theorem checkWideBar_of_some {w : Work} {launch u : Nat} {sc : Scope} {ln : Launch} {bar : Bar}
    (hl : sget? w.d.launches launch = some ln) (hbar : sget ln.bars (barKey (barNo sc 0) u) Bar.zero = bar)
    (hm : ∃ q ∈ w.launchMembers launch, w.barUnit sc q = u) (ha : bar.arrived ≠ []) :
    w.checkWideBar launch sc u = if ∀ q ∈ w.launchMembers launch, w.barUnit sc q = u → q ∈ bar.arrived then
      (w.putLaunch launch (ln.withBar (barKey (barNo sc 0) u) bar.next)).clearArr (barNo sc 0) bar.arrived else w := by
  unfold Work.checkWideBar
  rw [hl]
  dsimp only
  rw [hbar]
  have hne : ((w.launchMembers launch).filter fun s => w.barUnit sc s == u) ≠ [] := by
    obtain ⟨q, hq, hu⟩ := hm
    exact List.ne_nil_of_mem (List.mem_filter.mpr ⟨hq, by simpa using hu⟩)
  have hall : ((w.launchMembers launch).filter fun s => w.barUnit sc s == u).all bar.arrived.contains = true ↔
      ∀ q ∈ w.launchMembers launch, w.barUnit sc q = u → q ∈ bar.arrived := by
    simp only [List.all_eq_true, List.mem_filter, beq_iff_eq, List.contains_iff_mem, and_imp]
  simp only [List.isEmpty_eq_false_iff.mpr hne, List.isEmpty_eq_false_iff.mpr ha, Bool.not_false, Bool.true_and, hall]
  rfl

theorem checkPodBar_of_some {w : Work} {pbid : Nat} {sys : Bool} {pb : PodBar}
    (hpb : sget w.d.pkg.podBars (podKey pbid sys) PodBar.zero = pb) (ha : pb.bar.arrived ≠ []) :
    w.checkPodBar pbid sys = if 0 < pb.pbn ∧ pb.pbn ≤ pb.pops ∧ w.podCreated pbid sys = true ∧
        (∀ q ∈ w.podMembers pbid sys, q ∈ pb.bar.arrived) ∧ pb.members ≤ pb.arrived + pb.exited then
      (w.putPod (podKey pbid sys) { pb with bar := pb.bar.next, arrived := 0 }).clearArr (if sys then 20 else 19) pb.bar.arrived
      else w := by
  unfold Work.checkPodBar
  dsimp only
  rw [hpb]
  simp only [List.isEmpty_eq_false_iff.mpr ha]
  simp [and_assoc]
  rfl

section Arrive

variable {s : State} {h : Hdr} {src dst : List Named} {x : List Nat} {sc : Scope} {w : Work}

/-! ### The conditions of an arrival -/

theorem fenceOk_of_met (hi : Issued s h src dst x) (hf : FenceMet s sc) :
    (atIssue s []).fenceOk s.d.cur.slot sc = true := by
  obtain ⟨hload, hring, hacq, hwide⟩ := hf
  have howed : ∀ e ∈ (startGroup s).owed, ∀ p, e.pay = .load p → p.loc = true := by
    unfold startGroup
    split
    · exact hload
    · intro e he
      obtain ⟨e', he', rfl⟩ := List.mem_map.mp he
      exact hload e' he'
  have hbusy : (atIssue s []).ringBusy s.d.cur.slot = false := by
    unfold Work.ringBusy
    simp only [List.any_eq_false]
    intro d hd hx
    simp only [List.any_eq_true, beq_iff_eq] at hx
    obtain ⟨o, ho, hs⟩ := hx
    exact hring d hd o ho hs
  have hacq' : (startGroup s).acq = [] := by unfold startGroup; split <;> exact hacq
  unfold Work.fenceOk
  rw [atIssue_grp? [] hi]
  simp only [hbusy, hacq', Bool.and_eq_true, List.all_eq_true, Bool.not_false, List.isEmpty_nil, and_true]
  refine ⟨fun e he => ?_, ?_⟩
  · split
    · next p hp => exact howed e he p hp
    · rfl
  cases hw : wideScope sc with
  | false => rfl
  | true =>
    have hne : sc ≠ .grp ∧ sc ≠ .blk := by
      constructor <;> (rintro rfl; cases hw)
    obtain ⟨hpath, hacks, hhor⟩ := hwide hne.1 hne.2
    have hacks' : (startGroup s).acks = s.here.acks := by unfold startGroup; split <;> rfl
    have hhor' : (startGroup s).horizon = s.here.horizon := by unfold startGroup; split <;> rfl
    have hp : ((s.path (slotCore s.d.cur.slot)).all fun e => e.slot != s.d.cur.slot || e.free) = true := by
      simp only [List.all_eq_true, Bool.or_eq_true, bne_iff_ne]
      intro e he
      by_cases hs : e.slot = s.d.cur.slot
      · refine .inr ?_
        unfold WEntry.free
        rcases hpath e he hs with hl | ⟨op, id, hk⟩
        · rw [hl]; rfl
        · rw [hk]; simp
      · exact .inl hs
    have hl : (begin_ s).localAcks s.d.cur.slot = (atIssue s []).localAcks s.d.cur.slot := rfl
    rw [hacks', hhor', hacks, hl]
    simp only [Bool.not_true, Bool.false_or, Bool.and_eq_true, beq_self_eq_true, and_true, decide_eq_true_eq]
    exact ⟨hp, hhor⟩

theorem owesB_startGroup (hB : ∀ e ∈ s.here.owed, ∀ n, Reg.b n ∉ e.dst) : (startGroup s).owesB = false := by
  have key : s.here.owesB = false := by
    simp only [Group.owesB, List.any_eq_false, List.any_eq_true, not_exists, not_and]
    rintro e he r hr hb
    cases r with
    | b n => exact hB e he n hr
    | _ => cases hb
  unfold startGroup
  split
  · exact key
  · unfold Group.owesB Group.stepWins
    rw [List.any_map]
    exact key

theorem startGroup_bar : (startGroup s).bar = s.here.bar := by unfold startGroup; split <;> rfl

theorem startGroup_live : (startGroup s).live = s.here.live := by unfold startGroup; split <;> rfl

/-- The work of a group whose fence before its arrival is over. -/
def fenced (s : State) (sc : Scope) : Work := (atIssue s []).fenceDone s.d.cur.slot sc

/-- bar.arrive: the fence is over, and the group is counted. -/
theorem barArrive_counts {k : BitVec 4} (hi : Issued s h [] [] x) (hst : s.d.cur.stamped = false) (hx : x = s.here.live)
    (hf : FenceMet s sc) (ha : (sget s.here.bar (barNo sc k.toNat) BarSt.zero).arr = false)
    (hsc : (begin_ s).barScopeOk sc = true) (hB : sc = .blk → ∀ e ∈ s.here.owed, ∀ n, Reg.b n ∉ e.dst) :
    exec (.barArrive h sc k) s = .next (leaves s ((fenced s sc).barCount sc k.toNat)) := by
  refine issue_ok hi ?_
  have hT := SameTeams.atIssue s
  have hsc' : (atIssue s []).barScopeOk sc = true := (barScopeOk_congr hT rfl sc).trans hsc
  have hx' : (x != (startGroup s).live) = false := by rw [startGroup_live, ← hx]; simp
  have hb : (sc == .blk && (startGroup s).owesB) = false := by
    by_cases hsb : sc = .blk
    · rw [owesB_startGroup (hB hsb), Bool.and_false]
    · rw [beq_eq_false_iff_ne.mpr hsb, Bool.false_and]
  rw [atIssue_cur, hst, hsc', atIssue_g [] hi, hx', atIssue_slot, fenceOk_of_met hi hf, hb, startGroup_bar, ha]
  rfl

/-! ### Counting -/

/-- What the count leaves: the group owes the wait of the phase, which is over when `full` (R17). -/
def Counts (s t : State) (n : Nat) (bar bar' : Bar) (full : Prop) : Prop :=
  SameMem s t ∧ SameAll s t ∧ Advances s t ∧ (sget t.here.bar n BarSt.zero).owe = true ∧
    (sget t.here.bar n BarSt.zero).phase = bar.phase ∧
    (full → (sget t.here.bar n BarSt.zero).arr = false ∧ bar'.phase = bar.phase + 1 ∧ bar'.arrived = []) ∧
    (¬ full → (sget t.here.bar n BarSt.zero).arr = true ∧ bar'.phase = bar.phase ∧
      bar'.arrived = bar.arrived ++ [s.d.cur.slot])

/-- The barrier with one more arrival. -/
def Bar.joined (b : Bar) (slot : Nat) (vc : Clock) : Bar := { b with arrived := b.arrived ++ [slot], vc := Clock.join b.vc vc }

/-- The group has arrived at barrier `n`. -/
def Work.arrives (w : Work) (n : Nat) (bar : Bar) : Work :=
  w.updG fun g => { g with bar := sset g.bar n { arr := true, owe := true, phase := bar.phase } }

theorem SameTeams.arrives (w : Work) (n : Nat) (bar : Bar) : SameTeams w (w.arrives n bar) := SameTeams.updGrp _ _ fun _ => rfl

theorem arrives_standsAt (hi : Issued s h src dst x) (hT : SameTeams (begin_ s) w) (n : Nat) (bar : Bar) :
    (w.arrives n bar).standsAt s.d.cur.slot n { arr := true, owe := true, phase := bar.phase } := by
  obtain ⟨g, hg, -⟩ := hT.grp?_some (k := s.d.cur.slot) hi.grp
  have hs : w.slot = s.d.cur.slot := hT.slot
  refine ⟨{ g with bar := sset g.bar n { arr := true, owe := true, phase := bar.phase } }, ?_, sget?_sset_same ..⟩
  have := Work.grp?_updG w fun g => { g with bar := sset g.bar n { arr := true, owe := true, phase := bar.phase } }
  rw [hs, hg] at this
  exact this

theorem leaves_standsAt {n : Nat} {b : BarSt} (hc : w.d.cur = s.d.cur) (h : w.standsAt s.d.cur.slot n b) :
    sget (leaves s w).here.bar n BarSt.zero = b := by
  obtain ⟨g, hg, hb⟩ := h
  rw [leaves_bar hc hg, sget, hb]
  rfl

theorem counts_incomplete (hi : Issued s h src dst x) (hT : SameTeams (begin_ s) w) {n : Nat} {bar : Bar} {full : Prop}
    (hs : w.standsAt s.d.cur.slot n { arr := true, owe := true, phase := bar.phase }) (hf : ¬ full) (vc : Clock) :
    Counts s (leaves s w) n bar (bar.joined s.d.cur.slot vc) full := by
  obtain ⟨hmem, hall, hadv⟩ := leaves_frame hi hT
  unfold Counts
  rw [leaves_standsAt hT.cur hs]
  exact ⟨hmem, hall, hadv, rfl, rfl, fun h => absurd h hf, fun _ => ⟨rfl, rfl, rfl⟩⟩

theorem counts_complete (hi : Issued s h src dst x) (hT : SameTeams (begin_ s) w) {n : Nat} {bar : Bar} {full : Prop}
    (hs : w.standsAt s.d.cur.slot n { arr := true, owe := true, phase := bar.phase }) (hf : full) (vc : Clock) :
    Counts s (leaves s (w.clearArr n (bar.joined s.d.cur.slot vc).arrived)) n bar (bar.joined s.d.cur.slot vc).next full := by
  have hT' := hT.trans (SameTeams.clearArr w n (bar.joined s.d.cur.slot vc).arrived)
  obtain ⟨hmem, hall, hadv⟩ := leaves_frame hi hT'
  have hin : s.d.cur.slot ∈ (bar.joined s.d.cur.slot vc).arrived := by simp [Bar.joined]
  have hst := clearArr_standsAt hs (bar.joined s.d.cur.slot vc).arrived
  rw [if_pos hin] at hst
  unfold Counts
  rw [leaves_standsAt hT'.cur hst]
  exact ⟨hmem, hall, hadv, rfl, rfl, fun _ => ⟨rfl, rfl, rfl⟩, fun h => absurd hf h⟩

theorem fenced_teams (s : State) (sc : Scope) : SameTeams (begin_ s) (fenced s sc) :=
  (SameTeams.atIssue s).trans (SameTeams.fenceDone ..)

/-- The fence changes clocks and copies alone. -/
theorem fenced_keeps {β : Type} (φ : Dev → β) (hg : ∀ d v, φ { d with groups := v } = φ d)
    (hc : ∀ d v, φ { d with cores := v } = φ d) (s : State) (sc : Scope) : φ (fenced s sc).d = φ (atIssue s []).d := by
  have hs : φ ((atIssue s []).synced s.d.cur.slot).d = φ (atIssue s []).d := (hg _ _).trans (hg _ _)
  unfold fenced Work.fenceDone
  dsimp only
  split
  · exact (hc _ _).trans hs
  · exact hs

theorem Block.take_nil (b : Block) (k : Bool) (n i : Nat) : b.take k n i [] = b := by unfold Block.take; split <;> rfl

theorem fenced_blk? (hi : Issued s h src dst x) (sc : Scope) : (fenced s sc).blk? s.here.blk = some s.myBlk := by
  have hb : (fenced s sc).d.blocks = (atIssue s []).d.blocks := fenced_keeps Dev.blocks (fun _ _ => rfl) (fun _ _ => rfl) s sc
  have ha := atIssue_blk? [] hi
  rw [Block.take_nil] at ha
  unfold Work.blk? at ha ⊢
  rw [hb, ha]

/-- The group that arrives is one of those expected. -/
theorem here_mem_blockMembers (hi : Issued s h src dst x) (hx : x = s.here.live)
    (hj : ∃ j < s.myBlk.gcnt, s.d.cur.slot = s.here.blk + j) : s.d.cur.slot ∈ (begin_ s).blockMembers s.here.blk := by
  have hb : (begin_ s).blk? s.here.blk = some s.myBlk := hi.blk
  have hg : (begin_ s).grp? s.d.cur.slot = some s.here := hi.grp
  unfold Work.blockMembers Work.groupLive Block.slots
  rw [hb]
  obtain ⟨j, hlt, he⟩ := hj
  refine List.mem_filter.mpr ⟨List.mem_map.mpr ⟨j, List.mem_range.mpr hlt, he.symm⟩, ?_⟩
  rw [hg]
  have : s.here.live ≠ [] := hx ▸ hi.some_
  simpa using this

theorem forall_blockMembers (hi : Issued s h src dst x) (P : Nat → Prop) :
    (∀ q ∈ (begin_ s).blockMembers s.here.blk, P q) ↔
      ∀ j < s.myBlk.gcnt, (begin_ s).groupLive (s.here.blk + j) = true → P (s.here.blk + j) := by
  have hb : (begin_ s).blk? s.here.blk = some s.myBlk := hi.blk
  unfold Work.blockMembers Block.slots
  rw [hb]
  simp only [List.mem_filter, List.mem_map, List.mem_range]
  constructor
  · exact fun hq j hj hl => hq _ ⟨⟨j, hj, rfl⟩, hl⟩
  · rintro hq q ⟨⟨j, hj, rfl⟩, hl⟩
    exact hq j hj hl

theorem mem_joined {bar : Bar} {slot q : Nat} {vc : Clock} : q ∈ (bar.joined slot vc).arrived ↔ q = slot ∨ q ∈ bar.arrived := by
  simp [Bar.joined, or_comm]

theorem joined_ne_nil (bar : Bar) (slot : Nat) (vc : Clock) : (bar.joined slot vc).arrived ≠ [] := by simp [Bar.joined]

/-- An arrival at .blk. -/
theorem barCount_blk (hi : Issued s h src dst x) (hx : x = s.here.live)
    (hj : ∃ j < s.myBlk.gcnt, s.d.cur.slot = s.here.blk + j) (k : Nat) :
    let t := leaves s ((fenced s .blk).barCount .blk k)
    let bar := sget s.myBlk.bars k Bar.zero
    let full := ∀ j < s.myBlk.gcnt, (begin_ s).groupLive (s.here.blk + j) = true →
      s.here.blk + j = s.d.cur.slot ∨ s.here.blk + j ∈ bar.arrived
    Counts s t k bar (sget t.myBlk.bars k Bar.zero) full ∧ (full → t.myBlk.bown = []) ∧
      (¬ full → t.myBlk.bown = s.myBlk.bown) := by
  intro t bar full
  let w := fenced s .blk
  have hTw : SameTeams (begin_ s) w := fenced_teams s .blk
  have hTa : SameTeams (begin_ s) (w.arrives k bar) := hTw.trans (SameTeams.arrives ..)
  have hgb : (w.arrives k bar).g.blk = s.here.blk :=
    (Group.of_plain Group.blk (fun _ => rfl) hTa.g).trans (congrArg Group.blk (begin_g hi))
  have hwb : w.blk? s.here.blk = some s.myBlk := fenced_blk? hi .blk
  have hbar : w.barOf .blk k = bar := by
    have : w.g.blk = s.here.blk := (Group.of_plain Group.blk (fun _ => rfl) hTw.g).trans (congrArg Group.blk (begin_g hi))
    show sget w.blk.bars k Bar.zero = bar
    rw [Work.blk, this, hwb]; rfl
  let bar' := bar.joined s.d.cur.slot w.g.vc
  let w3 := (w.arrives k bar).updBlk s.here.blk fun b => { b with bars := sset b.bars k bar' }
  have hT3 : SameTeams (begin_ s) w3 := hTa.trans (SameTeams.updBlk _ _ fun _ => rfl)
  have hst3 : w3.standsAt s.d.cur.slot k { arr := true, owe := true, phase := bar.phase } := arrives_standsAt hi hTw k bar
  have hb3 : w3.blk? s.here.blk = some { s.myBlk with bars := sset s.myBlk.bars k bar' } := by
    rw [Work.blk?_updBlk, if_pos rfl, show (w.arrives k bar).blk? s.here.blk = some s.myBlk from hwb]; rfl
  have hcount : w.barCount .blk k = w3.checkBlkBar s.here.blk k := by
    have : w.barCount .blk k = ((w.arrives k (w.barOf .blk k)).updB fun b =>
        { b with bars := sset b.bars k ((w.barOf .blk k).joined w.slot w.g.vc) }).checkBlkBar (w.arrives k (w.barOf .blk k)).g.blk k := rfl
    rw [this, hbar, Work.updB, hgb, show w.slot = s.d.cur.slot from hTw.slot]
  have hmem : w3.blockMembers s.here.blk = (begin_ s).blockMembers s.here.blk := congrFun hT3.blockMembers _
  have hfull : (∀ q ∈ w3.blockMembers s.here.blk, q ∈ bar'.arrived) ↔ full := by
    rw [hmem, forall_blockMembers hi]
    simp only [bar', mem_joined, full]
  have hne : w3.blockMembers s.here.blk ≠ [] := by
    rw [hmem]; exact List.ne_nil_of_mem (here_mem_blockMembers hi hx hj)
  have ht : t = leaves s (w3.checkBlkBar s.here.blk k) := congrArg (leaves s) hcount
  rw [ht, checkBlkBar_of_some hb3 (by rw [sget_sset, if_pos rfl]) hne (joined_ne_nil _ _ _)]
  by_cases hf : full
  · rw [if_pos (hfull.mpr hf)]
    let w4 := w3.updBlk s.here.blk fun b => { b with bars := sset b.bars k bar'.next, bown := [] }
    have hT4 : SameTeams (begin_ s) w4 := hT3.trans (SameTeams.updBlk _ _ fun _ => rfl)
    have hb4 : (w4.clearArr k bar'.arrived).blk? s.here.blk =
        some { s.myBlk with bars := sset (sset s.myBlk.bars k bar') k bar'.next, bown := [] } := by
      unfold Work.blk?
      rw [clearArr_keeps Dev.blocks fun _ _ => rfl]
      show w4.blk? s.here.blk = _
      rw [Work.blk?_updBlk, if_pos rfl, hb3]; rfl
    rw [leaves_myBlk hi (hT4.trans (SameTeams.clearArr ..)) hb4]
    refine ⟨?_, fun _ => rfl, fun h => absurd hf h⟩
    dsimp only
    rw [sget_sset, if_pos rfl]
    exact counts_complete hi hT4 hst3 hf _
  · rw [if_neg (fun h => hf (hfull.mp h)), leaves_myBlk hi hT3 hb3]
    refine ⟨?_, fun h => absurd h hf, fun _ => rfl⟩
    dsimp only
    rw [sget_sset, if_pos rfl]
    exact counts_incomplete hi hT3 hst3 hf _

end Arrive

section Count

variable {s : State} {h : Hdr} {src dst : List Named} {x : List Nat} {sc : Scope} {w : Work}

theorem fenced_launches (s : State) (sc : Scope) : (fenced s sc).d.launches = s.d.launches :=
  fenced_keeps Dev.launches (fun _ _ => rfl) (fun _ _ => rfl) s sc

theorem fenced_pkg (s : State) (sc : Scope) : (fenced s sc).d.pkg = s.d.pkg :=
  fenced_keeps Dev.pkg (fun _ _ => rfl) (fun _ _ => rfl) s sc

theorem sameTeams_launch (hi : Issued s h src dst x) (hT : SameTeams (begin_ s) w) : w.blk.launch = s.myBlk.launch :=
  (Block.of_plain Block.launch (fun _ => rfl) hT.blk).trans (congrArg Block.launch (begin_blk hi))

/-- A resident block is one of its launch's. -/
theorem here_mem_launchMembers (hi : Issued s h src dst x) (hx : x = s.here.live)
    (hj : ∃ j < s.myBlk.gcnt, s.d.cur.slot = s.here.blk + j) : s.d.cur.slot ∈ (begin_ s).launchMembers s.myBlk.launch := by
  have hb : s.here.blk ∈ (begin_ s).launchBlocks s.myBlk.launch := by
    unfold Work.launchBlocks
    exact List.mem_map.mpr ⟨_, List.mem_filter.mpr ⟨mem_of_sget? hi.blk, by simp⟩, rfl⟩
  exact List.mem_flatMap.mpr ⟨_, hb, here_mem_blockMembers hi hx hj⟩

/-- The barrier of a launch, as the issuing group sees it. -/
theorem barOf_wide (w : Work) (hsc : sc = .quad ∨ sc = .die ∨ sc = .pkg) (k : Nat) {ln : Launch}
    (hl : sget? w.d.launches w.blk.launch = some ln) :
    w.barOf sc k = sget ln.bars (barKey (barNo sc 0) (w.barUnit sc w.slot)) Bar.zero := by
  rcases hsc with rfl | rfl | rfl <;> (unfold Work.barOf; rw [hl])

theorem barOf_pod (w : Work) (hsc : sc = .pod ∨ sc = .sys) (k : Nat) {ln : Launch}
    (hl : sget? w.d.launches w.blk.launch = some ln) :
    w.barOf sc k = (sget w.d.pkg.podBars (podKey ln.pbid ln.pbsys) PodBar.zero).bar := by
  rcases hsc with rfl | rfl <;> (unfold Work.barOf; rw [hl])

/-- What the count of an arrival does at .quad, .die and .pkg. -/
theorem barCount_wide_eq (w : Work) (hsc : sc = .quad ∨ sc = .die ∨ sc = .pkg) (k : Nat) {a : Work}
    (ha : a = w.arrives (barNo sc k) (w.barOf sc k)) {ln : Launch} (hl : sget? a.d.launches a.blk.launch = some ln) :
    w.barCount sc k = (a.putLaunch a.blk.launch (ln.withBar (barKey (barNo sc 0) (a.barUnit sc w.slot))
      ((w.barOf sc k).joined w.slot w.g.vc))).checkWideBar a.blk.launch sc (a.barUnit sc w.slot) := by
  subst ha
  unfold Work.arrives at hl
  rcases hsc with rfl | rfl | rfl <;> (unfold Work.barCount; dsimp only; rw [hl]; rfl)

/-- What the count of an arrival does at .pod and .sys. -/
theorem barCount_pod_eq (w : Work) (hsc : sc = .pod ∨ sc = .sys) (k : Nat) {a : Work}
    (ha : a = w.arrives (barNo sc k) (w.barOf sc k)) {ln : Launch} (hl : sget? a.d.launches a.blk.launch = some ln) :
    w.barCount sc k = (a.putPod (podKey ln.pbid ln.pbsys)
      { sget a.d.pkg.podBars (podKey ln.pbid ln.pbsys) PodBar.zero with
        bar := (w.barOf sc k).joined w.slot w.g.vc }).checkPodBar ln.pbid ln.pbsys := by
  subst ha
  unfold Work.arrives at hl
  rcases hsc with rfl | rfl <;> (unfold Work.barCount; dsimp only; rw [hl]; rfl)

/-- An arrival at .quad, .die or .pkg. -/
theorem barCount_wide (hi : Issued s h src dst x) (hx : x = s.here.live)
    (hj : ∃ j < s.myBlk.gcnt, s.d.cur.slot = s.here.blk + j) (hsc : sc = .quad ∨ sc = .die ∨ sc = .pkg) (k : Nat)
    {ln : Launch} (hl : sget? s.d.launches s.myBlk.launch = some ln) :
    let t := leaves s ((fenced s sc).barCount sc k)
    let key := barKey (barNo sc 0) ((begin_ s).barUnit sc s.d.cur.slot)
    let bar := sget ln.bars key Bar.zero
    let full := ∀ q ∈ (begin_ s).launchMembers s.myBlk.launch, (begin_ s).barUnit sc q = (begin_ s).barUnit sc s.d.cur.slot →
      q = s.d.cur.slot ∨ q ∈ bar.arrived
    ∃ ln', sget? t.d.launches s.myBlk.launch = some ln' ∧ Counts s t (barNo sc k) bar (sget ln'.bars key Bar.zero) full := by
  intro t key bar full
  let w := fenced s sc
  have hTw : SameTeams (begin_ s) w := fenced_teams s sc
  have hws : w.slot = s.d.cur.slot := hTw.slot
  have hwl : w.d.launches = s.d.launches := fenced_launches s sc
  have hTa : SameTeams (begin_ s) (w.arrives (barNo sc k) bar) := hTw.trans (SameTeams.arrives ..)
  have hbar : w.barOf sc k = bar := by
    rw [barOf_wide w hsc k (ln := ln) (by rw [hwl, sameTeams_launch hi hTw, hl]), hTw.barUnit, hws]
  let bar' := bar.joined s.d.cur.slot w.g.vc
  let ln1 := ln.withBar key bar'
  let w3 := (w.arrives (barNo sc k) bar).putLaunch s.myBlk.launch ln1
  have hT3 : SameTeams (begin_ s) w3 := hTa.trans (SameTeams.of_eq rfl rfl rfl rfl)
  have hst3 : w3.standsAt s.d.cur.slot (barNo sc k) { arr := true, owe := true, phase := bar.phase } :=
    arrives_standsAt hi hTw _ bar
  have hl3 : sget? w3.d.launches s.myBlk.launch = some ln1 := sget?_sset_same ..
  have hu3 : w3.barUnit sc = (begin_ s).barUnit sc := congrFun hT3.barUnit sc
  have hcount : w.barCount sc k = w3.checkWideBar s.myBlk.launch sc ((begin_ s).barUnit sc s.d.cur.slot) := by
    rw [barCount_wide_eq w hsc k (by rw [hbar]) (ln := ln) (by rw [sameTeams_launch hi hTa]; exact hwl ▸ hl),
      sameTeams_launch hi hTa, hTa.barUnit, hbar, hws]
  have hfull : (∀ q ∈ w3.launchMembers s.myBlk.launch, w3.barUnit sc q = (begin_ s).barUnit sc s.d.cur.slot →
      q ∈ bar'.arrived) ↔ full := by
    simp only [hT3.mem_launchMembers, hu3, bar', mem_joined, full]
  have hne : ∃ q ∈ w3.launchMembers s.myBlk.launch, w3.barUnit sc q = (begin_ s).barUnit sc s.d.cur.slot :=
    ⟨_, hT3.mem_launchMembers.mpr (here_mem_launchMembers hi hx hj), by rw [hu3]⟩
  have ht : t = leaves s (w3.checkWideBar s.myBlk.launch sc ((begin_ s).barUnit sc s.d.cur.slot)) :=
    congrArg (leaves s) hcount
  have hn : barNo sc 0 = barNo sc k := by rcases hsc with rfl | rfl | rfl <;> rfl
  rw [ht, checkWideBar_of_some hl3 (by unfold ln1 Launch.withBar; rw [sget_sset, if_pos rfl]) hne (joined_ne_nil _ _ _)]
  by_cases hf : full
  · rw [if_pos (hfull.mpr hf)]
    let ln2 := ln1.withBar key bar'.next
    let w4 := w3.putLaunch s.myBlk.launch ln2
    have hT4 : SameTeams (begin_ s) w4 := hT3.trans (SameTeams.of_eq rfl rfl rfl rfl)
    refine ⟨ln2, ?_, ?_⟩
    · have hk : (w4.clearArr (barNo sc 0) bar'.arrived).d.launches = w4.d.launches := clearArr_keeps Dev.launches (fun _ _ => rfl) ..
      exact (congrArg (sget? · s.myBlk.launch) hk).trans (sget?_sset_same ..)
    · rw [show sget ln2.bars key Bar.zero = bar'.next from by unfold ln2 Launch.withBar; rw [sget_sset, if_pos rfl], ← hn]
      exact counts_complete hi hT4 (hn ▸ hst3) hf _
  · rw [if_neg (fun h => hf (hfull.mp h))]
    refine ⟨ln1, hl3, ?_⟩
    rw [show sget ln1.bars key Bar.zero = bar' from by unfold ln1 Launch.withBar; rw [sget_sset, if_pos rfl]]
    exact counts_incomplete hi hT3 hst3 hf _

/-- An arrival at .pod or .sys of a launch enrolled there. -/
theorem barCount_pod (hi : Issued s h src dst x) (hsc : sc = .pod ∨ sc = .sys) (k : Nat)
    {ln : Launch} (hl : sget? s.d.launches s.myBlk.launch = some ln) (hok : (begin_ s).barScopeOk sc = true) :
    let t := leaves s ((fenced s sc).barCount sc k)
    let key := podKey ln.pbid ln.pbsys
    let pb := sget s.d.pkg.podBars key PodBar.zero
    let full := 0 < pb.pbn ∧ pb.pbn ≤ pb.pops ∧ (begin_ s).podCreated ln.pbid ln.pbsys = true ∧
      (∀ q ∈ (begin_ s).podMembers ln.pbid ln.pbsys, q = s.d.cur.slot ∨ q ∈ pb.bar.arrived) ∧ pb.members ≤ pb.arrived + pb.exited
    Counts s t (barNo sc k) pb.bar (sget t.d.pkg.podBars key PodBar.zero).bar full := by
  intro t key pb full
  let w := fenced s sc
  have hTw : SameTeams (begin_ s) w := fenced_teams s sc
  have hws : w.slot = s.d.cur.slot := hTw.slot
  have hwl : w.d.launches = s.d.launches := fenced_launches s sc
  have hwp : w.d.pkg = s.d.pkg := fenced_pkg s sc
  let n := barNo sc k
  have hTa : SameTeams (begin_ s) (w.arrives n pb.bar) := hTw.trans (SameTeams.arrives ..)
  have hbar : w.barOf sc k = pb.bar := by
    rw [barOf_pod w hsc k (ln := ln) (by rw [hwl, sameTeams_launch hi hTw, hl]), hwp]
  let bar' := pb.bar.joined s.d.cur.slot w.g.vc
  let pb1 : PodBar := { pb with bar := bar' }
  let w3 := (w.arrives n pb.bar).putPod key pb1
  have hT3 : SameTeams (begin_ s) w3 := hTa.trans (SameTeams.of_eq rfl rfl rfl rfl)
  have hst3 : w3.standsAt s.d.cur.slot n { arr := true, owe := true, phase := pb.bar.phase } :=
    arrives_standsAt hi hTw _ pb.bar
  have hcount : w.barCount sc k = w3.checkPodBar ln.pbid ln.pbsys := by
    rw [barCount_pod_eq w hsc k (by rw [hbar]) (ln := ln) (by rw [sameTeams_launch hi hTa]; exact hwl ▸ hl), hbar, hws,
      show (w.arrives n pb.bar).d.pkg = s.d.pkg from hwp]
  have hfull : (0 < pb1.pbn ∧ pb1.pbn ≤ pb1.pops ∧ w3.podCreated ln.pbid ln.pbsys = true ∧
      (∀ q ∈ w3.podMembers ln.pbid ln.pbsys, q ∈ pb1.bar.arrived) ∧ pb1.members ≤ pb1.arrived + pb1.exited) ↔ full := by
    have hl3 : w3.d.launches = (begin_ s).d.launches := hwl
    have hm : ∀ q, q ∈ w3.podMembers ln.pbid ln.pbsys ↔ q ∈ (begin_ s).podMembers ln.pbid ln.pbsys :=
      fun q => hT3.mem_podMembers hl3
    simp only [hm, podCreated_congr hl3, pb1, bar', mem_joined, full]
  have ht : t = leaves s (w3.checkPodBar ln.pbid ln.pbsys) := congrArg (leaves s) hcount
  have hpb3 : sget w3.d.pkg.podBars (podKey ln.pbid ln.pbsys) PodBar.zero = pb1 := by
    show sget (sset _ key pb1) key _ = _
    rw [sget_sset, if_pos rfl]
  have hn : (if ln.pbsys then 20 else 19) = n := by
    unfold Work.barScopeOk at hok
    rw [begin_blk hi, begin_d, hl] at hok
    rcases hsc with rfl | rfl
    · have : ln.pbsys = false := by simpa using (Bool.and_eq_true_iff.mp hok).2
      rw [this]; rfl
    · have : ln.pbsys = true := (Bool.and_eq_true_iff.mp hok).2
      rw [this]; rfl
  rw [ht, checkPodBar_of_some hpb3 (joined_ne_nil _ _ _)]
  by_cases hf : full
  · rw [if_pos (hfull.mpr hf), hn]
    let pb2 : PodBar := { pb1 with bar := bar'.next, arrived := 0 }
    let w4 := w3.putPod key pb2
    have hT4 : SameTeams (begin_ s) w4 := hT3.trans (SameTeams.of_eq rfl rfl rfl rfl)
    have hk : (w4.clearArr n bar'.arrived).d.pkg = w4.d.pkg := clearArr_keeps Dev.pkg (fun _ _ => rfl) ..
    have hb : sget (leaves s (w4.clearArr n bar'.arrived)).d.pkg.podBars key PodBar.zero = pb2 := by
      show sget (w4.clearArr n bar'.arrived).d.pkg.podBars key _ = _
      rw [hk]
      show sget (sset _ key pb2) key _ = _
      rw [sget_sset, if_pos rfl]
    rw [hb]
    exact counts_complete hi hT4 hst3 hf _
  · rw [if_neg (fun h => hf (hfull.mp h))]
    have hb : sget (leaves s w3).d.pkg.podBars key PodBar.zero = pb1 := hpb3
    rw [hb]
    exact counts_incomplete hi hT3 hst3 hf _

end Count

section Wait

variable {s : State} {h : Hdr} {src dst : List Named} {x : List Nat} {sc : Scope} {w : Work}

/-! ### An instruction in which threads wait -/

/-- The answer of an issue, whatever its effect answers. -/
theorem issue_answers {body : Work → List Nat → Res} (hi : Issued s h src dst x) :
    issue s h src dst body = .next (commit s.mem ((body (atIssue s dst) x).finish (begin_ s).passed x)) := by
  have hgrp : (begin_ s).grp? s.d.cur.slot = some s.here := hi.grp
  have hpg : (begin_ s).passed.g = startGroup s := atIssue_g [] hi
  have hblk : (begin_ s).passed.blk = s.myBlk := by rw [Work.blk, hpg, startGroup_blk]; rfl
  have key : (begin_ s).issue h src dst body = (body (atIssue s dst) x).finish (begin_ s).passed x := by
    unfold Work.issue
    rw [begin_g hi]
    dsimp only
    rw [show (begin_ s).d.cur.lanes = s.d.cur.lanes from rfl, show (begin_ s).d.cur.stamped = s.d.cur.stamped from rfl,
      hi.free, hi.exec, if_neg Bool.false_ne_true]
    cases x with
    | nil => exact absurd rfl hi.some_
    | cons l t =>
      dsimp only
      rw [hblk, hi.regs, ite_self]
      rfl
  unfold issue
  rw [hgrp]
  exact congrArg (fun w => Host.Outcome.next (commit s.mem w)) key

/-- A thread that waits in the instruction stays where it is, and no meeting touches it. -/
theorem ends_waits {c : Cur} {why : Why} (hn : c.lanes.Nodup) (g : Group) {l : Nat} (hl : l < 32) (hc : l ∈ c.lanes)
    (hx : l ∈ x) (he : (g.thread l).st ≠ .exited) :
    ((g.ends c x why []).thread l).st = .waiting ∧ ((g.ends c x why []).thread l).pc = (g.thread l).pc := by
  unfold Group.ends
  dsimp only
  generalize (if c.stamped then g.issue else g.issue + 1) = n
  have hT : (Thread.ends c n x why [] l (g.thread l)).st = .waiting ∧
      (Thread.ends c n x why [] l (g.thread l)).pc = (g.thread l).pc := by
    unfold Thread.ends
    rw [if_neg he]
    dsimp only
    rw [if_pos (List.contains_iff_mem.mpr hx)]
    exact ⟨rfl, by split <;> rfl⟩
  have hth := foldl_thread hn (fun (g : Group) l =>
    (if (g.thread l).st ≠ .exited ∧ x.contains l then g.closeWin l else g).updThread l
      (Thread.ends c n x why [] l)) (Thread.ends c n x why []) (fun g l k => by rw [Group.thread_updThread, ite_closeWin_thread, ite_closeWin_thread])
    { g with issue := n } l
  rw [if_pos hc] at hth
  generalize c.lanes.foldl _ _ = g' at hth ⊢
  have ht : g'.thread l = Thread.ends c n x why [] l (g.thread l) := hth
  obtain ⟨hst, hpc⟩ := hT
  have hs : (g'.thread l).stands = false := by
    rw [ht]
    unfold Thread.stands
    exact decide_eq_false (by rw [hst]; rintro (h | ⟨h, -⟩) <;> cases h)
  have hm : g'.cohortMet l = false := by unfold Group.cohortMet; rw [hs, Bool.false_and]
  have ha : (g'.thread l).arrived = g'.thread l := by
    unfold Thread.arrived
    rw [if_neg]
    rintro ⟨hr, -⟩
    rw [ht] at hr
    exact TState.noConfusion (hst.symm.trans hr)
  rw [meetings_thread_eq g' hl, hm, if_neg Bool.false_ne_true, ha, ht]
  exact ⟨hst, hpc⟩

theorem waits_here (hi : Issued s h src dst x) (why : Why) :
    (commit s.mem ((atIssue s dst).finish x why [])).here = (startGroup s).ends s.d.cur x why [] := by
  have h1 := Work.grp?_updG (atIssue s dst) (Group.ends s.d.cur x why [])
  rw [atIssue_slot, atIssue_grp? dst hi] at h1
  have h2 : ∀ u : Work, (commit s.mem u).here = (u.grp? u.slot).getD Group.gone := fun _ => rfl
  have h3 : (atIssue s dst).finish x why [] = (atIssue s dst).updG (Group.ends s.d.cur x why []) := by
    unfold Work.finish; rw [atIssue_cur]
  rw [h3, h2, Work.slot_updG, atIssue_slot, h1, Option.map_some, Option.getD_some]

/-- An instruction of which every executing thread waits. -/
theorem waits_of_finish {i : Instr} {why : Why} (hi : Issued s h src [] x)
    (hex : exec i s = .next (commit s.mem ((atIssue s []).finish x why []))) : Waits i s x := by
  have hn := hi.rise.imp Nat.ne_of_lt
  have hh := waits_here hi why
  refine ⟨commit s.mem ((atIssue s []).finish x why []), hex, fun a => rfl, ⟨⟨fun l n => ?_, fun n => ?_, fun n => ?_,
    fun l i => ?_⟩, fun l => ?_⟩, fun l hl he => ?_⟩
  · rw [hh, Group.readV, ends_v, startGroup_v]; rfl
  · rw [hh, Group.readS, ends_sreg, startGroup_sreg]; rfl
  · have hblk : (commit s.mem ((atIssue s []).finish x why [])).here.blk = s.here.blk := by rw [hh, ends_blk, startGroup_blk]
    have hb := atIssue_blk? [] hi
    rw [Block.take_nil] at hb
    rw [State.myBlk, State.blk, hblk]
    show (((atIssue s []).blk? s.here.blk).getD Block.gone).readB n = _
    rw [hb]
    rfl
  · rw [hh, ends_thread_l _ _ _ _ hn, startGroup_thread]
  · rw [hh, ends_thread_p _ _ _ _ hn, startGroup_thread]
  · have := ends_waits (why := why) hn (startGroup s) (hi.lanes_low l hl) (hi.lanes_sub l hl) hl (by rwa [startGroup_thread])
    rw [startGroup_thread] at this
    rw [State.pc, hh]
    exact this

/-! ### bar.wait -/

theorem barOf_atIssue (hi : Issued s h src dst x) (sc : Scope) (k : Nat) :
    (atIssue s []).barOf sc k = (begin_ s).barOf sc k := by
  have hb : (atIssue s []).blk = (begin_ s).blk := by rw [atIssue_blk [] hi, Block.take_nil, begin_blk hi]
  have hT := SameTeams.atIssue s
  unfold Work.barOf
  rw [hb, hT.barUnit, hT.slot]
  rfl

theorem fenceDone_grp?_ne (w : Work) {slot k : Nat} (sc : Scope) (hk : k ≠ slot) :
    (w.fenceDone slot sc).grp? k = w.grp? k := by
  have hs : (w.synced slot).grp? k = w.grp? k := by
    unfold Work.synced Work.closeEp
    dsimp only
    rw [Work.grp?_updGrp, if_neg hk, Work.grp?_updGrp, if_neg hk]
  unfold Work.fenceDone
  dsimp only
  split <;> exact hs

/-- The group whose fence is over has another clock and nothing else. -/
theorem fenceDone_grp?_same (w : Work) {slot : Nat} (sc : Scope) {g : Group} (hg : w.grp? slot = some g) :
    ∃ y e v, (w.fenceDone slot sc).grp? slot = some { g with sync := y, ep := e, vc := v } := by
  have hs : ∃ y e v, (w.synced slot).grp? slot = some { g with sync := y, ep := e, vc := v } := by
    unfold Work.synced Work.closeEp
    dsimp only
    rw [Work.grp?_updGrp, if_pos rfl, Work.grp?_updGrp, if_pos rfl, hg]
    exact ⟨_, _, _, rfl⟩
  unfold Work.fenceDone
  dsimp only
  split <;> exact hs

theorem fenceDone_path (w : Work) (slot : Nat) (sc : Scope) (c : Nat) :
    ((w.fenceDone slot sc).d.core c).path = (w.d.core c).path := by
  unfold Work.fenceDone
  dsimp only
  split
  · unfold Work.dropRemote
    rw [Work.core_updCore]
    split
    · next hc => rw [hc]; rfl
    · rfl
  · rfl

/-- A fence changes groups and cores alone. -/
theorem fenceDone_keeps {β : Type} (φ : Dev → β) (hg : ∀ d v, φ { d with groups := v } = φ d)
    (hc : ∀ d v, φ { d with cores := v } = φ d) (w : Work) (slot : Nat) (sc : Scope) : φ (w.fenceDone slot sc).d = φ w.d := by
  have hs : φ (w.synced slot).d = φ w.d := (hg _ _).trans (hg _ _)
  unfold Work.fenceDone
  dsimp only
  split
  · exact (hc _ _).trans hs
  · exact hs

/-- The effect of a bar.wait whose phase is over. -/
def waited (s : State) (sc : Scope) (n : Nat) (c : Clock) (b : BarSt) : Work :=
  (((atIssue s []).learnVc s.d.cur.slot c).fenceDone s.d.cur.slot sc).updG fun g =>
    { g with bar := sset g.bar n { b with owe := false } }

theorem SameTeams.learnVc (w : Work) (k : Nat) (c : Clock) : SameTeams w (w.learnVc k c) := SameTeams.updGrp w k fun _ => rfl

theorem fenced_after_learn (s : State) (sc : Scope) (c : Clock) :
    SameTeams (begin_ s) (((atIssue s []).learnVc s.d.cur.slot c).fenceDone s.d.cur.slot sc) :=
  ((SameTeams.atIssue s).trans (SameTeams.learnVc ..)).trans (SameTeams.fenceDone ..)

theorem waited_teams (s : State) (sc : Scope) (n : Nat) (c : Clock) (b : BarSt) : SameTeams (begin_ s) (waited s sc n c b) :=
  (fenced_after_learn s sc c).trans (SameTeams.updGrp _ _ fun _ => rfl)

theorem waited_grp? (hi : Issued s h src dst x) (sc : Scope) (n : Nat) (c : Clock) (b : BarSt) :
    ∃ y e v, (waited s sc n c b).grp? s.d.cur.slot =
      some { startGroup s with sync := y, ep := e, vc := v, bar := sset s.here.bar n { b with owe := false } } := by
  have h1 : ((atIssue s []).learnVc s.d.cur.slot c).grp? s.d.cur.slot =
      some { startGroup s with vc := Clock.join (startGroup s).vc c } := by
    unfold Work.learnVc
    rw [Work.grp?_updGrp, if_pos rfl, atIssue_grp? [] hi]
    rfl
  obtain ⟨y, e, v, h2⟩ := fenceDone_grp?_same _ sc h1
  have hs : (((atIssue s []).learnVc s.d.cur.slot c).fenceDone s.d.cur.slot sc).slot = s.d.cur.slot :=
    (fenced_after_learn s sc c).slot
  have h3 := Work.grp?_updG (((atIssue s []).learnVc s.d.cur.slot c).fenceDone s.d.cur.slot sc) fun g =>
    { g with bar := sset g.bar n { b with owe := false } }
  rw [hs, h2] at h3
  refine ⟨y, e, v, h3.trans ?_⟩
  rw [← startGroup_bar]
  rfl

theorem waited_keeps {β : Type} (φ : Dev → β) (hg : ∀ d v, φ { d with groups := v } = φ d)
    (hc : ∀ d v, φ { d with cores := v } = φ d) (s : State) (sc : Scope) (n : Nat) (c : Clock) (b : BarSt) :
    φ (waited s sc n c b).d = φ (atIssue s []).d :=
  (hg _ _).trans ((fenceDone_keeps φ hg hc ..).trans (hg _ _))

/-- What is left where the phase is over: the wait is owed no longer. -/
theorem waited_leaves (hi : Issued s h src dst x) (sc : Scope) (n : Nat) (c : Clock) (b : BarSt) :
    Synced s (leaves s (waited s sc n c b)) ∧
      (sget (leaves s (waited s sc n c b)).here.bar n BarSt.zero).owe = false ∧
      { (leaves s (waited s sc n c b)).here.unsynced with bar := [] } = { s.here.unsynced with bar := [] } := by
  have hT := waited_teams s sc n c b
  obtain ⟨hmem, hall, hadv⟩ := leaves_frame hi hT
  obtain ⟨y, e, v, hg⟩ := waited_grp? hi sc n c b
  have hh := leaves_here hT.cur hg
  have hblocks : (waited s sc n c b).d.blocks = (atIssue s []).d.blocks := waited_keeps Dev.blocks (fun _ _ => rfl) (fun _ _ => rfl) ..
  have hblk? : ∀ k, (waited s sc n c b).blk? k = if k = s.here.blk then some s.myBlk else sget? s.d.blocks k := fun k => by
    have := afterG_blocks (js := []) [] id hi k
    rw [Block.take_nil] at this
    exact (congrArg (sget? · k) hblocks).trans this
  have hslot : (waited s sc n c b).slot = s.d.cur.slot := hT.slot
  have hoth : ∀ k, k ≠ s.d.cur.slot → sget? (leaves s (waited s sc n c b)).d.groups k = sget? s.d.groups k := fun k hk => by
    have h1 := Work.grp?_updG_ne (waited s sc n c b) (Group.ends (waited s sc n c b).d.cur [] .hold []) (j := k) (hslot ▸ hk)
    have h2 : (waited s sc n c b).grp? k = (((atIssue s []).learnVc s.d.cur.slot c).fenceDone s.d.cur.slot sc).grp? k :=
      Work.grp?_updG_ne _ _ ((fenced_after_learn s sc c).slot.symm ▸ hk)
    have h3 : ((atIssue s []).learnVc s.d.cur.slot c).grp? k = (atIssue s []).grp? k := by
      unfold Work.learnVc
      rw [Work.grp?_updGrp, if_neg hk]
    have h4 : (atIssue s []).grp? k = (begin_ s).grp? k := Work.grp?_updG_ne (begin_ s) _ hk
    exact h1.trans (h2.trans ((fenceDone_grp?_ne _ sc hk).trans (h3.trans h4)))
  refine ⟨⟨hmem, ⟨hoth, fun k hk => ?_, ?_, ?_, ?_, ?_, hall, hadv⟩, ?_, fun k => ?_⟩, ?_, ?_⟩
  · exact (hblk? k).trans (if_neg hk)
  · rw [leaves_myBlk hi hT ((hblk? _).trans (if_pos rfl))]
  · exact waited_keeps Dev.dies (fun _ _ => rfl) (fun _ _ => rfl) s sc n c b
  · exact waited_keeps Dev.parts (fun _ _ => rfl) (fun _ _ => rfl) s sc n c b
  · exact waited_keeps Dev.launches (fun _ _ => rfl) (fun _ _ => rfl) s sc n c b
  · rw [hh, ends_owed]
    exact startGroup_owed
  · exact fenceDone_path ..
  · rw [leaves_bar hT.cur hg]
    dsimp only
    rw [sget_sset, if_pos rfl]
  · rw [hh]
    refine (ends_keeps _ _ _ _ (fun g => { g.unsynced with bar := [] }) (fun _ _ _ => rfl) (fun _ _ => rfl) (fun _ _ => rfl) _).trans ?_
    exact congrArg (fun c : Group => { c with sync := 0, ep := 0, vc := [], bar := [] }) startGroup_core

/-- The effect of bar.wait, once the launch has the barrier's scope. -/
theorem barWait_body {k : BitVec 4} {b : BarSt} (hi : Issued s h [] [] x) (hsc : (begin_ s).barScopeOk sc = true)
    (hb : sget s.here.bar (barNo sc k.toNat) BarSt.zero = b) :
    exec (.barWait h sc k) s = .next (commit s.mem (Res.finish (begin_ s).passed x
      (if b.owe = false then .ok (atIssue s []) []
       else if b.phase < ((begin_ s).barOf sc k.toNat).phase then
         .ok (waited s sc (barNo sc k.toNat) ((begin_ s).barOf sc k.toNat).done b) []
       else waitWith (atIssue s []) x fun _ => []))) := by
  have hsc' : (atIssue s []).barScopeOk sc = true := (barScopeOk_congr (SameTeams.atIssue s) rfl sc).trans hsc
  refine (issue_answers hi).trans (congrArg (fun r => Host.Outcome.next (commit s.mem (Res.finish (begin_ s).passed x r))) ?_)
  rw [atIssue_g [] hi, startGroup_bar, hb, hsc', barOf_atIssue hi, Bool.not_true, Bool.and_false, if_neg Bool.false_ne_true]
  by_cases ho : b.owe = false
  · rw [if_pos ho, ho]; rfl
  · rw [if_neg ho, Bool.not_eq_false] at *
    rw [ho]; rfl

end Wait

/-- Settles O36: an arrival is the fence and the count (`barArrive_counts`), the count is complete exactly when everyone expected
has arrived (`barCount_blk`, `barCount_wide`, `barCount_pod`), and a wait ends once its phase is over (`waited_leaves`). -/
theorem barriers : Obligations.Barriers := by
  unfold Obligations.Barriers
  intro s h x sc k
  refine ⟨fun hst hx hf ha hsc hj ⟨_, hr⟩ => ?_, fun hsc ⟨_, hr⟩ => ?_⟩
  · have hi := issued_of hr
    refine ⟨fun hb hB => ?_, fun hw ln hl => ?_, fun hp ln hl => ?_⟩
    · subst hb
      exact ⟨_, barArrive_counts hi hst hx hf ha hsc fun _ => hB, barCount_blk hi hx hj k.toNat⟩
    · have hne : sc ≠ .blk := by rintro rfl; simp at hw
      exact ⟨_, barArrive_counts hi hst hx hf ha hsc fun h => absurd h hne, barCount_wide hi hx hj hw k.toNat hl⟩
    · have hne : sc ≠ .blk := by rintro rfl; simp at hp
      exact ⟨_, barArrive_counts hi hst hx hf ha hsc fun h => absurd h hne, barCount_pod hi hp k.toNat hl hsc⟩
  · have hi := issued_of hr
    have hbody := barWait_body (k := k) hi hsc rfl
    refine ⟨fun ho => ?_, fun ho hlt => ?_, fun ho hle => ?_⟩
    · rw [if_pos ho] at hbody
      obtain ⟨honly, hall⟩ := jumpsOnly_same hi []
      have hadv := afterG_advances [] id hi fun l => by simp
      refine ⟨afterG s [] id [], ?_, honly, hadv.1, hadv.2, hall⟩
      rw [hbody, afterG_id]
      rfl
    · rw [if_neg (by rw [ho]; exact Bool.noConfusion), if_pos hlt] at hbody
      exact ⟨_, hbody, waited_leaves hi sc _ _ _⟩
    · rw [if_neg (by rw [ho]; exact Bool.noConfusion), if_neg (Nat.not_lt.mpr hle)] at hbody
      exact waits_of_finish hi hbody

end Sys2Proof.Machine
end

section
/-! PROOFS. What a write to memory leaves as it was, staggers, and places in the active set (clauses of O57). -/

namespace Sys2Proof.Machine

/-! ### What a write to memory leaves as it was -/

/-- The package without what a write to memory notes of copies, releases and poison. -/
def Pkg.plain (p : Pkg) : Pkg :=
  { p with mix := [], msgs := [], consts := [], torn := [], stale := [], made := [], wrote := [], poison := [] }

/-- The state without cores, dies, and what a write to memory notes. -/
def Dev.rest (d : Dev) : Dev := { d with cores := [], dies := [], pkg := d.pkg.plain }

/-- `w'` comes from `w` by writes to memory, whatever they write. -/
structure SameRest (w w' : Work) : Prop where
  base : w'.base = w.base
  rest : w'.d.rest = w.d.rest

namespace SameRest

variable {w w' w'' : Work}

theorem refl (w : Work) : SameRest w w := ⟨rfl, rfl⟩

theorem trans (h : SameRest w w') (h' : SameRest w' w'') : SameRest w w'' := ⟨h'.base.trans h.base, h'.rest.trans h.rest⟩

theorem updCore (w : Work) (k : Nat) (f : Core → Core) : SameRest w (w.updCore k f) := ⟨rfl, rfl⟩

theorem updDie (w : Work) (k : Nat) (f : Die → Die) : SameRest w (w.updDie k f) := ⟨rfl, rfl⟩

theorem updPkg (w : Work) {f : Pkg → Pkg} (hf : ∀ p, (f p).plain = p.plain) : SameRest w (w.updPkg f) :=
  ⟨rfl, congrArg (fun p => { w.d with cores := [], dies := [], pkg := p }) (hf w.d.pkg)⟩

theorem foldl {α : Type} (f : Work → α → Work) (hf : ∀ w a, SameRest w (f w a)) (l : List α) (w : Work) :
    SameRest w (l.foldl f w) := by
  induction l generalizing w with
  | nil => exact refl w
  | cons a l ih => exact (hf w a).trans (ih _)

theorem store (w : Work) (k n x : Nat) : SameRest w (w.store k n x) := by
  induction n generalizing w k x with
  | zero => exact refl w
  | succ n ih =>
    have h : SameRest w (w.setByte k (BitVec.ofNat 8 x)) := ⟨rfl, rfl⟩
    exact h.trans (ih _ _ _)

theorem heal (w : Work) (pa n : Nat) : SameRest w (w.heal pa n) := by
  unfold Work.heal
  split
  · exact refl w
  · exact updPkg w fun _ => rfl

theorem noteSector (w : Work) (sec : Nat) (old now : List Byte) : SameRest w (w.noteSector sec old now) := ⟨rfl, rfl⟩

theorem rewrite (w : Work) (pa n : Nat) (f : Work → Work) : SameRest (f w) (w.rewrite pa n f) := by
  have h : SameRest (f w) ((f w).updPkg fun p =>
      { p with stale := p.stale.filter (fun o => o != objOf pa), wrote := sset p.wrote (objOf pa) w.d.tick
               made := p.made.map fun e => (e.1, e.2 && !overlap (16 * e.1) 16 pa n)
               msgs := supd p.msgs (objOf pa) fun l => l.filter fun m => !overlap m.pa m.n pa n }) :=
    updPkg _ fun _ => rfl
  unfold Work.rewrite
  dsimp only
  split
  · exact h.trans (noteSector ..)
  · exact (h.trans (noteSector ..)).trans (updPkg _ fun _ => rfl)

theorem homeWrite (w : Work) (pa n x : Nat) : SameRest w (w.homeWrite pa n x) := by
  refine trans ?_ (rewrite w pa n _)
  split
  · exact updDie ..
  · exact (store ..).trans (heal ..)

theorem tell (w : Work) (pa n : Nat) (who : Agent) (sc : Scope) (ep : Nat) (vc : Clock) :
    SameRest w (w.tell pa n who sc ep vc) := updPkg w fun _ => rfl

theorem retelling {f : Work → Work} (h : SameRest w (f w)) : SameRest w (w.retelling f) := h.trans (updPkg _ fun _ => rfl)

/-- What reads neither cores, dies nor what writes note reads the same. -/
theorem onDev {β : Type} (h : SameRest w w') (φ : Dev → β) (hφ : ∀ d, φ d.rest = φ d) : φ w'.d = φ w.d := by
  rw [← hφ w'.d, ← hφ w.d, h.rest]

theorem groups (h : SameRest w w') : w'.d.groups = w.d.groups := h.onDev Dev.groups fun _ => rfl
theorem blocks (h : SameRest w w') : w'.d.blocks = w.d.blocks := h.onDev Dev.blocks fun _ => rfl
theorem launches (h : SameRest w w') : w'.d.launches = w.d.launches := h.onDev Dev.launches fun _ => rfl
theorem podId (h : SameRest w w') : w'.d.pkg.podId = w.d.pkg.podId := h.onDev (fun d => d.pkg.podId) fun _ => rfl

end SameRest

/-! ### Bytes -/

theorem byte_congr {w w' : Work} (hl : w'.log = w.log) (hb : w'.base = w.base) (k : Nat) : w'.byte k = w.byte k := by
  unfold Work.byte; rw [hl, hb]

theorem load_congr {w w' : Work} (h : ∀ k, w'.byte k = w.byte k) (k n : Nat) : w'.load k n = w.load k n := by
  induction n generalizing k with
  | zero => rfl
  | succ n ih => rw [Work.load, Work.load, h, ih]

/-- A number read depends on the bytes that hold it alone. -/
theorem load_congr_on {w w' : Work} (k n : Nat) (h : ∀ j, k ≤ j → j < k + n → w'.byte j = w.byte j) :
    w'.load k n = w.load k n := by
  induction n generalizing k with
  | zero => rfl
  | succ n ih =>
    rw [Work.load, Work.load, h k (Nat.le_refl k) (by omega), ih (k + 1) fun j h1 h2 => h j (by omega) (by omega)]

theorem rewrite_log (w : Work) (pa n : Nat) (f : Work → Work) : (w.rewrite pa n f).log = (f w).log := by
  unfold Work.rewrite
  dsimp only
  split <;> rfl

theorem rewrite_dies (w : Work) (pa n : Nat) (f : Work → Work) : (w.rewrite pa n f).d.dies = (f w).d.dies := by
  unfold Work.rewrite
  dsimp only
  split <;> rfl

theorem heal_log (w : Work) (pa n : Nat) : (w.heal pa n).log = w.log := by
  unfold Work.heal; split <;> rfl

theorem heal_dies (w : Work) (pa n : Nat) : (w.heal pa n).d.dies = w.d.dies := by
  unfold Work.heal; split <;> rfl

/-- A write of an object that does not ride is a store of its bytes. -/
theorem homeWrite_byte {w : Work} {pa : Nat} (h : w.d.rideOf pa = none) (n x j : Nat) :
    (w.homeWrite pa n x).byte j = (w.store pa n x).byte j := by
  refine byte_congr ?_ ((SameRest.homeWrite w pa n x).base.trans (SameRest.store w pa n x).base.symm) j
  unfold Work.homeWrite
  rw [rewrite_log, h]
  exact heal_log ..

theorem homeWrite_dies {w : Work} {pa : Nat} (h : w.d.rideOf pa = none) (n x : Nat) :
    (w.homeWrite pa n x).d.dies = w.d.dies := by
  unfold Work.homeWrite
  rw [rewrite_dies, h]
  exact (heal_dies ..).trans (congrArg Dev.dies (Work.store_d ..))

/-- A write of an object that rides is a write of its slot, and of no byte of memory. -/
theorem homeWrite_log_ride {w : Work} {pa : Nat} {r : Nat × Nat × RSlot} (h : w.d.rideOf pa = some r) (n x : Nat) :
    (w.homeWrite pa n x).log = w.log := by
  unfold Work.homeWrite
  rw [rewrite_log, h]
  rfl

theorem homeOf_congr {d d' : Dev} (h : d'.pkg.podId = d.pkg.podId) (pa : Nat) : homeOf d' pa = homeOf d pa := by
  unfold homeOf; rw [h]

theorem rideOf_congr {d d' : Dev} (hd : d'.dies = d.dies) (hp : d'.pkg.podId = d.pkg.podId) (pa : Nat) :
    d'.rideOf pa = d.rideOf pa := by
  unfold Dev.rideOf Dev.die
  rw [homeOf_congr hp, hd]

theorem sameMem_of_log {s : State} {w : Work} (h : w.log = []) : SameMem s (commit s.mem w) := fun a =>
  congrArg (mread · a) (commit_mem_nil s.mem w h)

/-! ### Staggers and places in the active set -/

/-- A stagger that is over ends (R330). -/
theorem staggerExpiry_ends {s : State} {k c : Nat} {b : Block} (hb : sget? s.d.blocks k = some b) (hg : b.stagger = some (none, c))
    (hc : c ≤ s.d.now) : Ends (.staggerExpiry k) s fun t => SameMem s t ∧ t.d.groups = s.d.groups ∧
      sget? t.d.blocks k = some { b with stagger := none } ∧ ∀ j, j ≠ k → sget? t.d.blocks j = sget? s.d.blocks j := by
  have hex : exec (.staggerExpiry k) s = .next (commit s.mem ((begin_ s).updBlk k fun b => { b with stagger := none })) := by
    refine congrArg (fun w => Host.Outcome.next (commit s.mem w)) ?_
    dsimp only
    have h1 : ((begin_ s).blk? k).bind Block.stagger = some (none, c) := by
      rw [show (begin_ s).blk? k = some b from hb]; exact hg
    rw [h1]
    dsimp only
    exact if_pos hc
  have hget := fun j => Work.blk?_updBlk (begin_ s) k j fun b => { b with stagger := none }
  refine ⟨_, hex, sameMem_of_log rfl, rfl, ?_, fun j hj => ?_⟩
  · refine (hget k).trans ?_
    rw [if_pos rfl, show (begin_ s).blk? k = some b from hb]
    rfl
  · exact (hget j).trans (if_neg hj)

section Exchange

variable {s : State} {out in_ : Nat} {g : Group}

theorem exec_groupExchange_free (hg : s.slot? in_ = some g) (hr : (begin_ s).readyLongest in_ g = true)
    (ha : ((begin_ s).activeIn in_).length < 8) : exec (.groupExchange out in_) s =
      .next (commit s.mem ((begin_ s).updGrp in_ (Group.activate s.d.now))) := by
  refine congrArg (fun w => Host.Outcome.next (commit s.mem w)) ?_
  dsimp only
  rw [show (begin_ s).grp? in_ = some g from hg]
  dsimp only
  rw [hr, if_pos ha]
  rfl

theorem exec_groupExchange_swap {o : Group} (hg : s.slot? in_ = some g) (hr : (begin_ s).readyLongest in_ g = true)
    (ha : 8 ≤ ((begin_ s).activeIn in_).length) (ho : s.slot? out = some o) (hact : o.active = true)
    (hlong : o.longWait = true) (hout : out < 65536) (hcore : slotCore out = slotCore in_) (hpart : out % 4 = in_ % 4) :
    exec (.groupExchange out in_) s = .next (commit s.mem
      (((begin_ s).updGrp out fun g => { g with active := false }).updGrp in_ (Group.activate s.d.now))) := by
  refine congrArg (fun w => Host.Outcome.next (commit s.mem w)) ?_
  dsimp only
  rw [show (begin_ s).grp? in_ = some g from hg, show (begin_ s).grp? out = some o from ho]
  dsimp only
  rw [hr, if_neg (Nat.not_lt.mpr ha), hact, hlong, hcore, hpart]
  simp [hout]

theorem groupExchange_ends (hg : s.slot? in_ = some g) (hr : (begin_ s).readyLongest in_ g = true) :
    let now := fun (t : State) => SameMem s t ∧ t.d.blocks = s.d.blocks ∧
      t.slot? in_ = some { g with active := true, since := 0, turn := s.d.now }
    (((begin_ s).activeIn in_).length < 8 → Ends (.groupExchange out in_) s fun t => now t ∧
      ∀ k, k ≠ in_ → t.slot? k = s.slot? k) ∧
    ∀ o, 8 ≤ ((begin_ s).activeIn in_).length → s.slot? out = some o → o.active = true → o.longWait = true → out < 65536 →
      slotCore out = slotCore in_ → out % 4 = in_ % 4 → Ends (.groupExchange out in_) s fun t => now t ∧
        t.slot? out = some { o with active := false } ∧ ∀ k, k ≠ in_ → k ≠ out → t.slot? k = s.slot? k := by
  intro now
  refine ⟨fun ha => ?_, fun o ha ho hact hlong hout hcore hpart => ?_⟩
  · have hget := fun k => Work.grp?_updGrp (begin_ s) in_ k (Group.activate s.d.now)
    refine ⟨_, exec_groupExchange_free hg hr ha, ⟨sameMem_of_log rfl, rfl, ?_⟩, fun k hk => (hget k).trans (if_neg hk)⟩
    refine (hget in_).trans ?_
    rw [if_pos rfl, show (begin_ s).grp? in_ = some g from hg]
    rfl
  · have hne : in_ ≠ out := by
      rintro rfl
      have : g = o := Option.some.inj (hg.symm.trans ho)
      subst this
      have hra := hr
      unfold Work.readyLongest at hra
      rw [hact] at hra
      cases hra
    have h1 := fun k => Work.grp?_updGrp (begin_ s) out k fun g => { g with active := false }
    have h2 := fun k => Work.grp?_updGrp ((begin_ s).updGrp out fun g => { g with active := false }) in_ k (Group.activate s.d.now)
    refine ⟨_, exec_groupExchange_swap hg hr ha ho hact hlong hout hcore hpart, ⟨sameMem_of_log rfl, rfl, ?_⟩, ?_, fun k hk hk' => ?_⟩
    · refine (h2 in_).trans ?_
      rw [if_pos rfl, h1, if_neg hne, show (begin_ s).grp? in_ = some g from hg]
      rfl
    · refine (h2 out).trans ?_
      rw [if_neg (Ne.symm hne), h1, if_pos rfl, show (begin_ s).grp? out = some o from ho]
      rfl
    · exact (h2 k).trans ((if_neg hk).trans ((h1 k).trans (if_neg hk')))

end Exchange

end Sys2Proof.Machine
end

section
/-! PROOFS. Records are popped (a clause of O57): the gate of a head object, and what becomes of a record. -/

namespace Sys2Proof.Machine

/-! ### Bytes that a step leaves -/

theorem commit_byte {s : State} {w : Work} (hm : memWf s.mem = true) (hb : w.base = s.mem) (a : Nat) :
    (commit s.mem w).byte a = w.byte a := mread_commit w a hm hb

theorem begin_byte (t : State) (a : Nat) : (begin_ t).byte a = t.byte a := rfl

theorem load_commit {s : State} {w : Work} (hm : memWf s.mem = true) (hb : w.base = s.mem) (a n : Nat) :
    (begin_ (commit s.mem w)).load a n = w.load a n :=
  load_congr (fun k => (begin_byte _ k).trans (commit_byte hm hb k)) a n

/-! ### Interrupts pending -/

/-- A core whose copies of a sector have learnt a value of it. -/
def Core.noted (c : Core) (sec : Nat) (now : List Byte) : Core :=
  { c with copies := c.copies.map fun k => if k.remote ∧ k.sector = sec then { k with hist := k.hist ++ [now] } else k }

theorem core_noteSector (w : Work) (sec : Nat) (old now : List Byte) (c : Nat) :
    ((w.noteSector sec old now).d.core c).intPend = (w.d.core c).intPend := by
  have h : sget? (w.noteSector sec old now).d.cores c = (sget? w.d.cores c).map fun e => e.noted sec now :=
    sget?_map (fun _ (e : Core) => e.noted sec now) w.d.cores c
  unfold Dev.core sget
  rw [h]
  cases sget? w.d.cores c <;> rfl

theorem core_rewrite (w : Work) (pa n : Nat) (f : Work → Work) (c : Nat) :
    ((w.rewrite pa n f).d.core c).intPend = ((f w).d.core c).intPend := by
  unfold Work.rewrite
  dsimp only
  split
  · exact core_noteSector ..
  · rw [show ∀ (v : Work) (g : Pkg → Pkg), (v.updPkg g).d.core c = v.d.core c from fun _ _ => rfl]
    exact core_noteSector ..

/-- An interrupt raised on the cores of a list. -/
theorem core_raise {ls : List Nat} (hn : ls.Nodup) (w : Work) (k c : Nat) :
    (ls.foldl (fun w c => w.raiseInt c k) w).d.core c =
      if c ∈ ls then { w.d.core c with intPend := (w.d.core c).intPend ||| (1#32 <<< k) } else w.d.core c := by
  induction ls generalizing w with
  | nil => simp
  | cons a ls ih =>
    rw [List.nodup_cons] at hn
    rw [List.foldl_cons, ih hn.2, Work.raiseInt, Work.core_updCore]
    by_cases hc : c = a
    · subst hc
      simp [hn.1]
    · simp [hc]

theorem raiseAll_intPend (w : Work) (k : Nat) {c : Nat} (hc : c < 512) :
    ((w.raiseAll k).d.core c).intPend = (w.d.core c).intPend ||| (1#32 <<< k) := by
  unfold Work.raiseAll
  rw [core_raise List.nodup_range, if_pos (List.mem_range.mpr hc)]

theorem raiseAll_rest (w : Work) (k : Nat) : SameRest w (w.raiseAll k) := SameRest.foldl _ (fun w c => SameRest.updCore w c _) _ w

theorem raiseAll_log (w : Work) (k : Nat) : (w.raiseAll k).log = w.log := by
  unfold Work.raiseAll
  generalize List.range 512 = ls
  induction ls generalizing w with
  | nil => rfl
  | cons c ls ih => exact (ih _).trans rfl

/-! ### A ring update of the queue unit -/

/-- The slot of an object takes a payload at the gate. -/
def gateSlot (now d i data : Nat) (v : Work) : Work :=
  v.updSlot d i fun r => { r with data := data, touch := passRev i 0 now }

/-- What an update at the gate leaves. -/
def gated (s : State) (pa d i : Nat) (e : Work × Nat) : Work :=
  e.1.retelling fun v => v.rewrite (objOf pa) 64 (gateSlot s.d.now d i e.2)

theorem gateUpdate_atGate {s : State} {pa d i : Nat} {r : RSlot} (h : AtGate s pa d i r) (f : Work → Nat → Work × Nat) :
    (begin_ s).gateUpdate pa f = (true, gated s pa d i (f (begin_ s) r.data)) := by
  obtain ⟨⟨h, hh⟩, hr, ha, hp, ho, hw⟩ := h
  unfold Work.gateUpdate
  rw [show homeOf (begin_ s).d pa = .die h from hh]
  dsimp only
  rw [show (begin_ s).d.rideOf pa = some (d, i, r) from hr]
  dsimp only
  rw [if_pos]
  · rfl
  · rw [show (begin_ s).d.now = s.d.now from rfl, ha, hp]
    simp [ho, hw]

section Gated

variable (s : State) (pa d i : Nat) (e : Work × Nat)

theorem gated_rest : SameRest e.1 (gated s pa d i e) := by
  unfold gated
  refine SameRest.retelling (SameRest.trans ?_ (SameRest.rewrite ..))
  unfold gateSlot Work.updSlot
  exact SameRest.updDie ..

theorem gated_pair_rest (w : Work) (data : Nat) : SameRest w (gated s pa d i (w, data)) := gated_rest s pa d i (w, data)

theorem gated_log : (gated s pa d i e).log = e.1.log := by
  unfold gated Work.retelling
  rw [Work.updPkg_log, rewrite_log]
  rfl

theorem gated_intPend (c : Nat) : ((gated s pa d i e).d.core c).intPend = (e.1.d.core c).intPend := by
  unfold gated Work.retelling
  rw [show ∀ (v : Work) (g : Pkg → Pkg), (v.updPkg g).d.core c = v.d.core c from fun _ _ => rfl, core_rewrite]
  rfl

theorem gated_pair_log (w : Work) (data : Nat) : (gated s pa d i (w, data)).log = w.log := gated_log s pa d i (w, data)

theorem gated_pair_intPend (w : Work) (data c : Nat) :
    ((gated s pa d i (w, data)).d.core c).intPend = (w.d.core c).intPend := gated_intPend s pa d i (w, data) c

theorem gated_dies : (gated s pa d i e).d.dies = (gateSlot s.d.now d i e.2 e.1).d.dies := by
  unfold gated Work.retelling
  rw [Work.updPkg_dies, rewrite_dies]

theorem gated_data (m : Memory) : (SlotOf (commit m (gated s pa d i e)) d i).data = e.2 := by
  have h : (gated s pa d i e).d.die d = (gateSlot s.d.now d i e.2 e.1).d.die d := by
    unfold Dev.die; rw [gated_dies]
  unfold SlotOf
  rw [commit_d, h, gateSlot, Work.updSlot, Work.die_updDie, if_pos rfl]
  dsimp only
  rw [sget_sset, if_pos rfl]

end Gated

/-! ### A record is popped (R323) -/

section Pop

variable {s : State} {q p head d i pa : Nat} {r : RSlot}

/-- What the pop of record `j` leaves of the package before it is judged. -/
def unstale (w : Work) (head pa j : Nat) : Work :=
  (w.dropFed head j).updPkg fun k =>
    { k with stale := (objOf pa :: k.stale).eraseDups
             told := sset k.told (objOf head) ((sget k.told (objOf head) []).filter fun t => decide (j + 1 < t.1)) }

/-- The record popped, judged as `v`. -/
def tookRecord (w : Work) (p q x n j head pa : Nat) (v : Verdict) : Work :=
  (unstale w head pa j).takeRecord p q x n j (w.feeders q head j) (w.heard (head + 8) 8 Agent.walker .sys) v

/-- What becomes of record `j` at `pa` once it is read. -/
def judgeBody (x p q head j pa data : Nat) (w : Work) (r : Nat × Work) : Verdict → Work × Nat
  | .later => (w, data)
  | v => ((unstale r.2 head pa j).takeRecord p q x r.1 j (w.feeders q head j)
      (w.heard (head + 8) 8 Agent.walker .sys) v, putBits data 0 64 (j + 1))

/-- What the queue unit does with the record at the place that it sees. -/
def seenBody (x p q head j data : Nat) (w : Work) : Seen → Work × Nat
  | .ok pa => judgeBody x p q head j pa data w (w.record q x data head pa) (w.judge p x (w.record q x data head pa).1)
  | .bad => (w.raiseAll 3, data)
  | .later => (w, data)

/-- What the queue unit does at the gate of the head object: it pops the record behind the head, or waits. -/
def popBody (x p q head : Nat) (w : Work) (data : Nat) : Work × Nat :=
  if bits data 0 64 < bits data 64 64 then
    seenBody x p q head (bits data 0 64) data w
      (w.look (w.d.partDie p) (dRAREA x + 64 * (bits data 0 64 % 2 ^ dLOG2N x)) .load)
  else (w, data)

/-- What the queue unit does with a head object that it sees. -/
def headBody (x p q : Nat) (w : Work) : Seen → Work
  | .bad => w.raiseAll 3
  | .later => w
  | .ok head =>
      if 4096 ≤ w.d.launches.length || w.holdsRecord q then w else (w.gateUpdate head (popBody x p q head)).2

theorem serve_eq (w : Work) (p q : Nat) : w.serve p q =
    if !w.d.pkg.rdyPkg.getLsbD 0 || !dEN (w.descOf p q) || dKIND (w.descOf p q) then w
    else if w.descBad p (w.descOf p q) then w.raiseAll 3
    else headBody (w.descOf p q) p q w (w.look (w.d.partDie p) (dHOBJ (w.descOf p q)) .ring) := by
  unfold Work.serve
  refine if_congr Iff.rfl rfl ?_
  refine if_congr Iff.rfl rfl ?_
  cases w.look (w.d.partDie p) (dHOBJ (w.descOf p q)) .ring with
  | bad | later => rfl
  | ok head =>
    refine if_congr Iff.rfl rfl (congrArg (fun f => (w.gateUpdate head f).2) ?_)
    funext v data
    refine if_congr Iff.rfl ?_ rfl
    cases v.look (v.d.partDie p) (dRAREA (w.descOf p q) + 64 * (bits data 0 64 % 2 ^ dLOG2N (w.descOf p q))) .load with
    | bad | later => rfl
    | ok pa => rfl

/-- A queue that has a good descriptor, and no record in hand, is served at the gate of its head object. -/
theorem serve_atGate {w : Work} {x : Nat} (hx : w.descOf p q = x) (hrdy : w.d.pkg.rdyPkg.getLsbD 0 = true)
    (hen : dEN x = true) (hkind : dKIND x = false) (hdesc : w.descBad p x = false)
    (hlook : w.look (w.d.partDie p) (dHOBJ x) .ring = .ok head) (hlen : w.d.launches.length < 4096)
    (hhold : w.holdsRecord q = false) : w.serve p q = (w.gateUpdate head (popBody x p q head)).2 := by
  rw [serve_eq, hx, if_neg, if_neg, hlook, headBody, if_neg]
  · simp [hhold, hlen]
  · simp [hdesc]
  · simp [hrdy, hen, hkind]

theorem popBody_pops {w : Work} {x data j n : Nat} {v : Verdict} (hj : bits data 0 64 = j) (hlt : j < bits data 64 64)
    (hrec : w.look (w.d.partDie p) (dRAREA x + 64 * (j % 2 ^ dLOG2N x)) .load = .ok pa)
    (hmis : w.misled q x data head pa = false) (hn : bytesNat (w.physBytes pa 64) = n) (hv : w.judge p x n = v)
    (hlater : v ≠ .later) : popBody x p q head w data = (tookRecord w p q x n j head pa v, putBits data 0 64 (j + 1)) := by
  have hr : w.record q x data head pa = (n, w) := by unfold Work.record; rw [hmis, hn]; rfl
  unfold popBody
  rw [hj, if_pos hlt, hrec, seenBody, hr, hv]
  cases v with
  | later => exact absurd rfl hlater
  | launch | bad c | rej => rfl

/-- The queue unit pops the record behind the head of a queue that one partition serves. -/
theorem queuePop_pops {x j n : Nat} {v : Verdict} (hs : s.d.servers q = [p]) (hx : (begin_ s).descOf p q = x)
    (hrdy : s.d.pkg.rdyPkg.getLsbD 0 = true) (hen : dEN x = true) (hkind : dKIND x = false)
    (hdesc : (begin_ s).descBad p x = false) (hlook : (begin_ s).look (s.d.partDie p) (dHOBJ x) .ring = .ok head)
    (hlen : s.d.launches.length < 4096) (hhold : (begin_ s).holdsRecord q = false) (hgate : AtGate s head d i r)
    (hj : bits r.data 0 64 = j) (hlt : j < bits r.data 64 64)
    (hrec : (begin_ s).look (s.d.partDie p) (dRAREA x + 64 * (j % 2 ^ dLOG2N x)) .load = .ok pa)
    (hmis : (begin_ s).misled q x r.data head pa = false) (hn : bytesNat ((begin_ s).physBytes pa 64) = n)
    (hv : (begin_ s).judge p x n = v) (hlater : v ≠ .later) :
    exec (.queuePop q) s = .next (commit s.mem (gated s head d i
      (tookRecord (begin_ s) p q x n j head pa v, putBits r.data 0 64 (j + 1)))) := by
  refine congrArg (fun w => Host.Outcome.next (commit s.mem w)) ?_
  dsimp only
  rw [show (begin_ s).d.servers q = [p] from hs]
  dsimp only
  rw [serve_atGate hx hrdy hen hkind hdesc hlook hlen hhold, gateUpdate_atGate hgate,
    popBody_pops hj hlt hrec hmis hn hv hlater]

end Pop

/-! ### What becomes of the record -/

section Took

variable (s : State) (p q x n j head pa : Nat)

/-- LREJ names the queue and the record. -/
def lrejSet (w : Work) (q j : Nat) : Work :=
  w.updPkg fun k => { k with lrejq := BitVec.ofNat 64 (q + 2 ^ 32 * (j % 2 ^ 32)) }

theorem tookRecord_rej (w : Work) : tookRecord w p q x n j head pa .rej = (lrejSet (unstale w head pa j) q j).raiseAll 6 := rfl

theorem tookRecord_rej_rest :
    SameRest (lrejSet (unstale (begin_ s) head pa j) q j) (tookRecord (begin_ s) p q x n j head pa .rej) := by
  rw [tookRecord_rej]; exact raiseAll_rest ..

theorem tookRecord_rej_log : (tookRecord (begin_ s) p q x n j head pa .rej).log = [] := by
  rw [tookRecord_rej, raiseAll_log]; rfl

theorem tookRecord_rej_intPend {c : Nat} (hc : c < 512) :
    ((tookRecord (begin_ s) p q x n j head pa .rej).d.core c).intPend = (s.d.core c).intPend ||| (1#32 <<< 6) := by
  rw [tookRecord_rej, raiseAll_intPend _ _ hc]; rfl

theorem addLaunch_log (w : Work) (after : List (Nat × Nat)) (vc : Clock) : (w.addLaunch p q x n after vc).log = w.log := by
  unfold Work.addLaunch; dsimp only; split <;> rfl

theorem addLaunch_groups (w : Work) (after : List (Nat × Nat)) (vc : Clock) :
    (w.addLaunch p q x n after vc).d.groups = w.d.groups := by
  unfold Work.addLaunch; dsimp only; split <;> rfl

theorem addLaunch_blocks (w : Work) (after : List (Nat × Nat)) (vc : Clock) :
    (w.addLaunch p q x n after vc).d.blocks = w.d.blocks := by
  unfold Work.addLaunch; dsimp only; split <;> rfl

/-- The launch that a record becomes (R20). -/
theorem addLaunch_launches (w : Work) (after : List (Nat × Nat)) (vc : Clock) :
    ∃ ln, (w.addLaunch p q x n after vc).d.launches = sset w.d.launches w.d.nextId ln ∧ ln.rec_ = LRec.ofNat n ∧ ln.queue = q ∧
      ln.popTime = w.d.now ∧ ln.waitFrom = w.d.now ∧ ln.pri = min (dQPRI x) (LRec.ofNat n).pri ∧ ln.dieMask = dDIEMASK x ∧
      ln.priv = dPRIV x ∧ ln.created = [] ∧ ln.retired = [] ∧ ln.status = 0 ∧ ln.after = after := by
  unfold Work.addLaunch
  dsimp only
  split <;> exact ⟨_, rfl, rfl, rfl, rfl, rfl, rfl, rfl, rfl, rfl, rfl, rfl, rfl⟩

theorem unstale_rideOf (w : Work) (a : Nat) : (unstale w head pa j).d.rideOf a = w.d.rideOf a := rideOf_congr rfl rfl a

end Took

/-- A record is popped: it becomes a launch, LAUNCH_BAD or LREJ (R20, R323). -/
theorem queuePop_ends {s : State} {q p head d i pa : Nat} {r : RSlot} :
    let w := begin_ s
    let x := w.descOf p q
    let j := r.data % 2 ^ 64
    let n := bytesNat (w.physBytes pa 64)
    s.d.servers q = [p] → s.d.pkg.rdyPkg.getLsbD 0 = true → dEN x = true →
    dKIND x = false → w.descBad p x = false → w.look (s.d.partDie p) (dHOBJ x) .ring = .ok head →
    s.d.launches.length < 4096 → w.holdsRecord q = false → AtGate s head d i r → j < r.data / 2 ^ 64 % 2 ^ 64 →
    w.look (s.d.partDie p) (dRAREA x + 64 * (j % 2 ^ dLOG2N x)) .load = .ok pa → w.misled q x r.data head pa = false →
    let popped := fun t => (SlotOf t d i).data = putBits r.data 0 64 (j + 1) ∧ t.d.groups = s.d.groups ∧ t.d.blocks = s.d.blocks
    (w.judge p x n = .launch → Ends (.queuePop q) s fun t => SameMem s t ∧ popped t ∧
      (∀ k, k ≠ s.d.nextId → sget? t.d.launches k = sget? s.d.launches k) ∧
      ∃ ln, sget? t.d.launches s.d.nextId = some ln ∧ ln.rec_ = LRec.ofNat n ∧ ln.queue = q ∧ ln.popTime = s.d.now ∧ ln.waitFrom = s.d.now ∧
        ln.pri = min (dQPRI x) (n / 2 ^ 72 % 8) ∧ ln.dieMask = dDIEMASK x ∧ ln.priv = dPRIV x ∧ ln.created = [] ∧
        ln.retired = [] ∧ ln.status = 0 ∧ ln.after = w.feeders q head j) ∧
    (∀ c, w.judge p x n = .bad c → s.d.rideOf c = none → memWf s.mem = true → c % 64 = 0 →
      Ends (.queuePop q) s fun t => Stored s t c 64 cLAUNCH_BAD ∧ popped t ∧ t.d.launches = s.d.launches) ∧
    (w.judge p x n = .rej → Ends (.queuePop q) s fun t => SameMem s t ∧ popped t ∧ t.d.launches = s.d.launches ∧
      t.d.pkg.lrejq = BitVec.ofNat 64 (q + 2 ^ 32 * (j % 2 ^ 32)) ∧ ∀ c < 512, Raised s t c 6) := by
  intro w x j n hs hrdy hen hkind hdesc hlook hlen hhold hgate hj hrec hmis popped
  have h0 : bits r.data 0 64 = j := by unfold bits; rw [Nat.pow_zero, Nat.div_one]
  have hex := fun {v} => queuePop_pops (v := v) hs rfl hrdy hen hkind hdesc hlook hlen hhold hgate h0 hj hrec hmis rfl
  have hpop : ∀ v, (tookRecord w p q x n j head pa v).d.groups = s.d.groups → (tookRecord w p q x n j head pa v).d.blocks = s.d.blocks →
      popped (commit s.mem (gated s head d i (tookRecord w p q x n j head pa v, putBits r.data 0 64 (j + 1)))) :=
    fun v hg hb => ⟨gated_data .., (gated_rest ..).groups.trans hg, (gated_rest ..).blocks.trans hb⟩
  refine ⟨fun hv => ?_, fun c hv hride hmem _ => ?_, fun hv => ?_⟩
  · obtain ⟨ln, hl, hln⟩ := addLaunch_launches p q x n (unstale w head pa j) (w.feeders q head j)
      (w.heard (head + 8) 8 Agent.walker .sys)
    have hl' : (gated s head d i (tookRecord w p q x n j head pa .launch, putBits r.data 0 64 (j + 1))).d.launches =
        sset s.d.launches s.d.nextId ln := (gated_rest ..).launches.trans hl
    refine ⟨_, hex hv Verdict.noConfusion, sameMem_of_log ((gated_log ..).trans (addLaunch_log ..)),
      hpop _ (addLaunch_groups ..) (addLaunch_blocks ..), fun k hk => ?_, ln, ?_, hln⟩
    · rw [commit_d, hl', sget?_sset_ne _ _ hk]
    · rw [commit_d, hl']; exact sget?_sset_same ..
  · have hr : (unstale w head pa j).d.rideOf c = none := (unstale_rideOf ..).trans hride
    have hrest : SameRest (unstale w head pa j) (tookRecord w p q x n j head pa (.bad c)) := SameRest.homeWrite ..
    have hb : ∀ a, (gated s head d i (tookRecord w p q x n j head pa (.bad c), putBits r.data 0 64 (j + 1))).byte a =
        ((unstale w head pa j).store c 64 (headerBits cLAUNCH_BAD 0)).byte a := fun a =>
      (byte_congr (gated_log ..) (gated_rest ..).base a).trans (homeWrite_byte hr ..)
    have hgr : SameRest (tookRecord w p q x n j head pa (.bad c))
        (gated s head d i (tookRecord w p q x n j head pa (.bad c), putBits r.data 0 64 (j + 1))) := gated_pair_rest ..
    have hbase : (gated s head d i (tookRecord w p q x n j head pa (.bad c), putBits r.data 0 64 (j + 1))).base = s.mem :=
      (hrest.trans hgr).base
    refine ⟨_, hex hv Verdict.noConfusion, ⟨?_, fun b hb' => ?_⟩, hpop _ hrest.groups hrest.blocks,
      (hrest.trans hgr).launches⟩
    · rw [load_commit hmem hbase, load_congr hb, Work.load_store]
      rfl
    · rw [commit_byte hmem hbase, hb, Work.byte_store_out _ _ _ _ _ hb']
      rfl
  · have hrest : SameRest (lrejSet (unstale w head pa j) q j) (tookRecord w p q x n j head pa .rej) :=
      tookRecord_rej_rest s p q x n j head pa
    have hgr : SameRest (tookRecord w p q x n j head pa .rej)
        (gated s head d i (tookRecord w p q x n j head pa .rej, putBits r.data 0 64 (j + 1))) := gated_pair_rest ..
    have hl := hgr.onDev (fun d => d.pkg.lrejq) fun _ => rfl
    have hl' := hrest.onDev (fun d => d.pkg.lrejq) fun _ => rfl
    refine ⟨_, hex hv Verdict.noConfusion, sameMem_of_log ?_, hpop .rej hrest.groups hrest.blocks, hgr.launches.trans hrest.launches,
      hl.trans hl', fun c hc => ?_⟩
    · rw [gated_pair_log]
      exact tookRecord_rej_log s p q x n j head pa
    · unfold Raised
      rw [commit_d, gated_pair_intPend]
      exact tookRecord_rej_intPend s p q x n j head pa hc

end Sys2Proof.Machine
end

section
/-! PROOFS. Blocks are placed (a clause of O57): local windows zeroed, and the groups of a new block. -/

namespace Sys2Proof.Machine

/-! ### Zeroing a local window (R74) -/

theorem byte_clear (w : Work) (k n a : Nat) : (w.clear k n).byte a = if k ≤ a ∧ a < k + n then 0 else w.byte a := by
  simp only [Work.byte, Work.clear, logRead]
  split <;> rfl

/-- A store of zero leaves a zero byte zero. -/
theorem byte_store_zero {w : Work} {a : Nat} (h : w.byte a = 0) (pa n : Nat) : (w.store pa n 0).byte a = 0 := by
  by_cases ha : pa ≤ a ∧ a < pa + n
  · obtain ⟨i, rfl⟩ := Nat.exists_eq_add_of_le ha.1
    rw [Work.byte_store_in w pa n 0 i (by omega), Nat.zero_div]
    rfl
  · rw [Work.byte_store_out w pa n 0 a (by omega), h]

/-- A write of zero leaves a zero byte zero. -/
theorem byte_homeWrite_zero {w : Work} {a : Nat} (h : w.byte a = 0) (pa n : Nat) : (w.homeWrite pa n 0).byte a = 0 := by
  cases hr : w.d.rideOf pa with
  | none => rw [homeWrite_byte hr, byte_store_zero h]
  | some r => rw [byte_congr (homeWrite_log_ride hr n 0) (SameRest.homeWrite ..).base, h]

theorem dropWindow_rest (w : Work) (core kb base : Nat) (ps : List Nat) : SameRest w (w.dropWindow core kb base ps) :=
  SameRest.foldl _ (fun w _ => SameRest.updCore w _ _) _ w

theorem dropWindow_log (w : Work) (core kb base : Nat) (ps : List Nat) : (w.dropWindow core kb base ps).log = w.log := by
  unfold Work.dropWindow
  generalize List.range (64 * kb) = is
  induction is generalizing w with
  | nil => rfl
  | cons i is ih => exact (ih _).trans rfl

theorem zeroLocal_rest (w : Work) (slot kb : Nat) : SameRest w (w.zeroLocal slot kb) := by
  unfold Work.zeroLocal Work.writeLocal
  split
  · exact SameRest.refl w
  · exact (SameRest.foldl _ (fun w _ => SameRest.homeWrite ..) _ w).trans (dropWindow_rest ..)

theorem zeroLocal_byte {w : Work} {a : Nat} (h : w.byte a = 0) (slot kb : Nat) : (w.zeroLocal slot kb).byte a = 0 := by
  unfold Work.zeroLocal Work.writeLocal
  split
  · exact h
  · next ps hps =>
    clear hps
    rw [byte_congr (dropWindow_log ..) (dropWindow_rest ..).base]
    generalize List.range (512 * kb) = is
    induction is generalizing w with
    | nil => exact h
    | cons i is ih =>
      refine ih ?_
      dsimp only
      rw [show (([] : List Byte).drop (64 * i)).take 64 = [] from by simp]
      exact byte_homeWrite_zero h ..

/-! ### The groups of a new block (R21) -/

/-- Group `g` of block `i`, as it is created in a slot. -/
def newGroup (ln : Launch) (slot i : Nat) (vc : Clock) (g : Nat) : Group :=
  { Group.gone with
    blk := slot, gidx := g, vc := vc, thr := (List.range 32).map fun l => (l, newThread ln.rec_ i g l) }

theorem newGroup_thread (ln : Launch) (slot i : Nat) (vc : Clock) (g : Nat) {l : Nat} (hl : l < 32) :
    (newGroup ln slot i vc g).thread l = newThread ln.rec_ i g l := by
  unfold Group.thread sget
  have h : ∀ is : List Nat, l ∈ is →
      sget? (is.map fun l => (l, newThread ln.rec_ i g l)) l = some (newThread ln.rec_ i g l) := by
    intro is
    induction is with
    | nil => exact fun h => absurd h (List.not_mem_nil)
    | cons a is ih =>
      intro h
      rw [List.map_cons, sget?]
      by_cases ha : a = l
      · rw [if_pos ha, ha]
      · rw [if_neg ha, ih ((List.mem_cons.mp h).resolve_left (Ne.symm ha))]
  rw [show (newGroup ln slot i vc g).thr = (List.range 32).map fun l => (l, newThread ln.rec_ i g l) from rfl,
    h _ (List.mem_range.mpr hl)]
  rfl

/-- Group `g` of block `i` enters its slot. -/
def placeGroup (ln : Launch) (slot i : Nat) (vc : Clock) (w : Work) (g : Nat) : Work :=
  ((w.updDev fun d => { d with groups := sset d.groups (slot + g) (newGroup ln slot i vc g) }).zeroLocal (slot + g)
    ln.localKb).readyAgain (slot + g)

/-- The first `n` groups of a block have entered their slots. -/
structure HasGroups (ln : Launch) (slot i : Nat) (vc : Clock) (n : Nat) (w w' : Work) : Prop where
  base : w'.base = w.base
  blocks : w'.d.blocks = w.d.blocks
  launches : w'.d.launches = w.d.launches
  group : ∀ g < n, w'.grp? (slot + g) = some { newGroup ln slot i vc g with active := false, since := 0 }
  other : ∀ k, (k < slot ∨ slot + n ≤ k) → w'.grp? k = w.grp? k
  zero : ∀ a, w.byte a = 0 → w'.byte a = 0
  bytes : ln.localKb = 0 → ∀ a, w'.byte a = w.byte a

theorem placeGroup_grp? (ln : Launch) (slot i : Nat) (vc : Clock) (w : Work) (g k : Nat) :
    (placeGroup ln slot i vc w g).grp? k =
      if k = slot + g then some { newGroup ln slot i vc g with active := false, since := 0 } else w.grp? k := by
  unfold placeGroup Work.readyAgain
  rw [Work.grp?_updGrp]
  unfold Work.grp?
  rw [(zeroLocal_rest ..).groups]
  unfold Work.updDev
  dsimp only
  rw [sget?_sset, sget?_sset, if_pos rfl]
  by_cases hk : k = slot + g
  · rw [if_pos hk, if_pos hk]; rfl
  · rw [if_neg hk, if_neg hk, if_neg hk]

theorem hasGroups_placed (ln : Launch) (slot i : Nat) (vc : Clock) (n : Nat) (w : Work) :
    HasGroups ln slot i vc n w ((List.range n).foldl (placeGroup ln slot i vc) w) := by
  induction n with
  | zero => exact ⟨rfl, rfl, rfl, fun _ h => absurd h (Nat.not_lt_zero _), fun _ _ => rfl, fun _ h => h, fun _ _ => rfl⟩
  | succ n ih =>
    rw [List.range_succ, List.foldl_append]
    obtain ⟨base, blocks, launches, group, other, zero, bytes⟩ := ih
    revert base blocks launches group other zero bytes
    generalize (List.range n).foldl (placeGroup ln slot i vc) w = v
    intro base blocks launches group other zero bytes
    have hget := placeGroup_grp? ln slot i vc v n
    have hrest := zeroLocal_rest (v.updDev fun d => { d with groups := sset d.groups (slot + n) (newGroup ln slot i vc n) })
      (slot + n) ln.localKb
    refine ⟨hrest.base.trans base, hrest.blocks.trans blocks, hrest.launches.trans launches, fun g hg => (hget _).trans ?_,
      fun k hk => ((hget k).trans (if_neg (by omega))).trans (other k (by omega)), fun a ha => ?_, fun h0 a => ?_⟩
    · by_cases hn : g = n
      · subst hn; exact if_pos rfl
      · exact (if_neg (by omega)).trans (group g (by omega))
    · exact zeroLocal_byte (show (Work.updDev v _).byte a = 0 from zero a ha) _ _
    · refine Eq.trans ?_ (bytes h0 a)
      show (Work.zeroLocal _ _ ln.localKb).byte a = _
      rw [h0]
      rfl

/-! ### A block is created (R21, R31) -/

section Create

variable (w : Work) (id : Nat) (ln : Launch) (i slot : Nat)

/-- The block enters the table of blocks. -/
def enterBlk : Work :=
  (w.pickWin (slotCore slot) ln.rec_.spad).2.updDev fun d => { d with
    blocks := sset d.blocks slot (newBlock id ln i slot (w.pickWin (slotCore slot) ln.rec_.spad).1 none)
    launches := supd d.launches id fun l => { l with created := l.created ++ [i], waitFrom := d.now } }

/-- The block's window is zero. -/
def clearWin : Work :=
  ((enterBlk w id ln i slot).clear (spadKey slot 0) (1024 * ln.rec_.spad)).spadRecords slot ln.rec_.spad none

/-- The copies that its creation drops. -/
def acquireWin : Work :=
  if ln.rec_.depmap = 0 ∧ ln.after = [] then clearWin w id ln i slot else (clearWin w id ln i slot).dropRemote (slotCore slot)

theorem create_eq : w.create id ln i slot none =
    (List.range (ln.rec_.gpb + 1)).foldl (placeGroup ln slot i (w.createVc ln i)) (acquireWin w id ln i slot) := rfl

theorem acquireWin_base : (acquireWin w id ln i slot).base = w.base := by
  unfold acquireWin; split <;> rfl

theorem acquireWin_log : (acquireWin w id ln i slot).log = (w.clear (spadKey slot 0) (1024 * ln.rec_.spad)).log := by
  unfold acquireWin; split <;> rfl

theorem acquireWin_groups : (acquireWin w id ln i slot).d.groups = w.d.groups := by
  unfold acquireWin; split <;> rfl

theorem acquireWin_blocks : (acquireWin w id ln i slot).d.blocks =
    sset w.d.blocks slot (newBlock id ln i slot (w.pickWin (slotCore slot) ln.rec_.spad).1 none) := by
  unfold acquireWin; split <;> rfl

theorem acquireWin_launches : (acquireWin w id ln i slot).d.launches =
    supd w.d.launches id fun l => { l with created := l.created ++ [i], waitFrom := w.d.now } := by
  unfold acquireWin; split <;> rfl

theorem acquireWin_byte (a : Nat) : (acquireWin w id ln i slot).byte a =
    if spadKey slot 0 ≤ a ∧ a < spadKey slot 0 + 1024 * ln.rec_.spad then 0 else w.byte a :=
  (byte_congr (acquireWin_log ..) (acquireWin_base ..) a).trans (byte_clear ..)

end Create

theorem staggerOf_first (w : Work) (die : Nat) : w.staggerOf die [] = none := by
  unfold Work.staggerOf
  simp

section Place

variable {s : State} {id slot i : Nat} {is : List Nat} {ln : Launch}

/-- A block of a launch that is no gang is placed where it fits. -/
theorem exec_blockPlace (hln : sget? s.d.launches id = some ln) (hgang : ln.gang = 0)
    (hready : (begin_ s).readyBlocks ln = i :: is) (hdie : (begin_ s).dieTakes ln (slot / 8192) = true)
    (hturn : (begin_ s).turnOf id (slot / 8192) ln = true)
    (hfits : (begin_ s).fits slot (ln.rec_.gpb + 1) ln.rec_.spad ln.rec_.acc false = true) :
    exec (.blockPlace id [slot]) s = .next (commit s.mem ((begin_ s).create id ln i slot none)) := by
  refine congrArg (fun w => Host.Outcome.next (commit s.mem w)) ?_
  dsimp only
  have hget : sget? (begin_ s).d.launches id = some ln := hln
  have hnext : (begin_ s).launchReady ln = true := by
    unfold Work.launchReady
    rw [hready, hgang]
    simp
  have hall : (begin_ s).placeAll id false [] [slot] = some ((begin_ s).create id ln i slot none) := by
    unfold Work.placeAll
    rw [hget]
    dsimp only
    rw [hready, hdie, hturn, hfits, staggerOf_first]
    rfl
  rw [hget]
  dsimp only
  rw [hnext, hgang, hall]
  rfl

/-- A placed block has its groups' threads at KADDR with fresh registers, B0 to B4 and a zeroed window (R21, R31). -/
theorem blockPlace_ends :
    let w := begin_ s
    let r := ln.rec_
    sget? s.d.launches id = some ln → ln.gang = 0 → w.readyBlocks ln = i :: is → w.dieTakes ln (slot / 8192) = true →
    w.turnOf id (slot / 8192) ln = true → w.fits slot (r.gpb + 1) r.spad r.acc false = true → memWf s.mem = true →
    Ends (.blockPlace id [slot]) s fun t =>
      sget? t.d.launches id = some { ln with created := ln.created ++ [i], waitFrom := s.d.now } ∧
      (∀ k, k ≠ slot → sget? t.d.blocks k = sget? s.d.blocks k) ∧
      (∀ k, (k < slot ∨ slot + r.gpb < k) → t.slot? k = s.slot? k) ∧
      (∀ j < 1024 * r.spad, t.byte (spadKey slot j) = 0) ∧
      (ln.localKb = 0 → ∀ a, (a < spadKey slot 0 ∨ spadKey slot (1024 * r.spad) ≤ a) → t.byte a = s.byte a) ∧
      (∃ b, sget? t.d.blocks slot = some b ∧ b.launch = id ∧ b.idx = i ∧ b.gcnt = r.gpb + 1 ∧ b.vbase = r.vbase ∧
        b.spad = r.spad ∧ b.acc = r.acc ∧ b.priv = ln.priv ∧ b.gridx = i % r.width ∧ b.gridy = i / r.width ∧
        b.readB 0 = r.arg.zeroExtend 64 ∧ b.readB 1 = BitVec.ofNat 64 i ∧ b.readB 2 = BitVec.ofNat 64 r.nblk ∧
        b.readB 3 = r.inl0 ∧ b.readB 4 = r.inl1) ∧
      ∀ q ≤ r.gpb, ∃ g, t.slot? (slot + q) = some g ∧ g.blk = slot ∧ g.gidx = q ∧ g.stop = none ∧ g.extH = false ∧
        ∀ l < 32, let th := g.thread l
          th.pc = r.kaddr ∧ th.st = .runnable ∧ th.m = none ∧ th.p = 0 ∧
            th.seed = BitVec.ofNat 64 (2 ^ 32 * (i % 2 ^ 32) + 32 * q + l) := by
  intro w r hln hgang hready hdie hturn hfits hmem
  have hr : r = ln.rec_ := rfl
  obtain ⟨base, blocks, launches, group, other, zero, bytes⟩ :=
    hasGroups_placed ln slot i (w.createVc ln i) (ln.rec_.gpb + 1) (acquireWin w id ln i slot)
  rw [← create_eq] at base blocks launches group other zero bytes
  have hblk := blocks.trans (acquireWin_blocks w id ln i slot)
  have hbase : (w.create id ln i slot none).base = s.mem := base.trans (acquireWin_base w id ln i slot)
  have hbyte := fun a => commit_byte hmem hbase a
  refine ⟨_, exec_blockPlace hln hgang hready hdie hturn hfits, ?_, fun k hk => ?_, fun k hk => ?_, fun j hj => ?_, fun h0 a ha => ?_,
    ⟨newBlock id ln i slot (w.pickWin (slotCore slot) ln.rec_.spad).1 none, ?_, rfl, rfl, rfl, rfl, rfl, rfl, rfl, rfl, rfl, rfl, rfl,
      rfl, rfl, rfl⟩, fun q hq => ⟨_, group q (Nat.lt_succ_of_le hq), rfl, rfl, rfl, rfl, fun l hl => ?_⟩⟩
  · rw [commit_d, launches, acquireWin_launches, sget?_supd, if_pos rfl, show w.d.launches = s.d.launches from rfl, hln]
    rfl
  · rw [commit_d, hblk]
    exact sget?_sset_ne _ _ hk
  · refine (other k (by rw [← hr]; omega)).trans ?_
    unfold Work.grp?
    rw [acquireWin_groups]
    rfl
  · rw [hbyte]
    refine zero _ ?_
    rw [acquireWin_byte, if_pos]
    rw [← hr]
    unfold spadKey
    exact ⟨by omega, by omega⟩
  · rw [hbyte, bytes h0, acquireWin_byte, if_neg]
    · rfl
    · rw [← hr]
      unfold spadKey at ha ⊢
      omega
  · rw [commit_d, hblk]
    exact sget?_sset_same ..
  · have hth : Group.thread { newGroup ln slot i (w.createVc ln i) q with active := false, since := 0 } l =
        newThread ln.rec_ i q l := newGroup_thread ln slot i (w.createVc ln i) q hl
    intro th
    rw [show th = newThread ln.rec_ i q l from hth]
    exact ⟨rfl, rfl, rfl, rfl, rfl⟩

end Place

end Sys2Proof.Machine
end

section
/-! PROOFS. Blocks retire (a clause of O57): where a completion record lies, its bits and its header, and a block that leaves. -/

namespace Sys2Proof.Machine

/-! ### Where a completion record lies does not depend on the launches

A translation is never unfolded in place: what decides on one is first written by a function of its outcome (`walk_succ`,
`translate_eq`, `complPa_eq`), and for functions that decide on `complPa` as a whole (`…_of_onPlace`), so that no check has to
compute a walk of unknown tables. -/

/-- The same work with another table of launches. -/
def Work.withLaunches (w : Work) (f : Sparse Launch → Sparse Launch) : Work :=
  w.updDev fun d => { d with launches := f d.launches }

/-- A level of a walk, from what stands at its entry. -/
def walkLevel (lvl at_ e : Nat) (dead wait : Bool) (next : Nat → Except Nat (Nat × Nat × Nat)) : Except Nat (Nat × Nat × Nat) :=
  let leaf := eBit e 1
  let align := if leaf then 2 ^ lvlShift lvl else lvlNext lvl
  if dead then .error cWALKDEAD
  else if wait then .error cWALKWAIT
  else if eReserved e || (leaf && lvl == 0) || (!leaf && lvl == 3) || eAddr e % align != 0 then .error cXL_BADPTE
  else if !eBit e 0 then .error (if leaf && eBit e 12 then cFLT_ABSENT else cXL_NOMAP)
  else if leaf then .ok (e, at_, lvl)
  else next (eAddr e)

theorem walk_succ (w : Work) (va n lvl tbl : Nat) : walk w va (n + 1) lvl tbl =
    walkLevel lvl (tbl + 16 * (va / 2 ^ lvlShift lvl % 2 ^ lvlBits lvl))
      (w.walkEntry (tbl + 16 * (va / 2 ^ lvlShift lvl % 2 ^ lvlBits lvl)))
      (homeFailed w.d (tbl + 16 * (va / 2 ^ lvlShift lvl % 2 ^ lvlBits lvl)) ||
        w.poisoned (tbl + 16 * (va / 2 ^ lvlShift lvl % 2 ^ lvlBits lvl)))
      (!homeUp w.d (tbl + 16 * (va / 2 ^ lvlShift lvl % 2 ^ lvlBits lvl)) ||
        w.lateBefore [(tbl + 16 * (va / 2 ^ lvlShift lvl % 2 ^ lvlBits lvl), 16)] false Agent.walker (some .pkg) w.d.nextId none)
      (walk w va n (lvl + 1)) := rfl

/-- What a translation makes of its walk. -/
def leafOf (va : Nat) (kind : XKind) (user : Bool) (reach : Bool → Nat → Bool) : Except Nat (Nat × Nat × Nat) → Except Nat Leaf
  | .error c => .error c
  | .ok (e, at_, lvl) =>
      match leafCheck kind user e with
      | 0 =>
          let size := 2 ^ lvlShift lvl
          let pa := eAddr e + va % size
          if reach (kind == .store || kind == .engW) pa then
            .ok { pa := pa, lease := (if e / 2 ^ 8 % 16 = 0 then 4 else e / 2 ^ 8 % 16), ring := eBit e 7,
                  wr := eBit e 4, tier := eBit e 15, mig := eBit e 14, at_ := at_, size := size }
          else .error cXL_PERM
      | c => .error c

theorem translate_eq (w : Work) (die va : Nat) (kind : XKind) (user : Bool) : w.translate die va kind user =
    if (w.d.die die).root = 0 then .error cXL_NOMAP
    else leafOf va kind user (reachable w.d die) (walk w va 4 0 (w.d.die die).root) := by
  refine if_congr Iff.rfl rfl ?_
  generalize walk w va 4 0 (w.d.die die).root = r
  cases r with
  | error c => rfl
  | ok r =>
    obtain ⟨e, at_, lvl⟩ := r
    unfold leafOf
    dsimp only <;> generalize leafCheck kind user e = c <;> cases c <;> rfl

/-- A place that can be written now. -/
def writable (free up : Nat → Bool) : Except Nat Leaf → Option Nat
  | .ok lf => if free lf.pa && up lf.pa then some lf.pa else none
  | .error _ => none

/-- What holds of a function written by `writable` holds of the place of a completion record. -/
theorem complPa_of_writable (P : (Work → Launch → Nat → Option Nat) → Prop)
    (h : P fun w ln o => writable w.leaseFree (homeUp w.d) (w.translate ln.xdie (ln.rec_.compl.toNat + o) .store false)) :
    P Work.complPa := by
  delta Work.complPa
  refine cast (congrArg P ?_) h
  funext w ln o
  cases w.translate ln.xdie (ln.rec_.compl.toNat + o) .store false with
  | error c => rfl
  | ok lf => rfl

theorem complPa_eq (w : Work) (ln : Launch) (o : Nat) : w.complPa ln o =
    writable w.leaseFree (homeUp w.d) (w.translate ln.xdie (ln.rec_.compl.toNat + o) .store false) :=
  complPa_of_writable (fun F => F w ln o = _) rfl

section WithLaunches

variable (w : Work) (f : Sparse Launch → Sparse Launch)

theorem rideOf_withLaunches (a : Nat) : (w.withLaunches f).d.rideOf a = w.d.rideOf a := rideOf_congr rfl rfl a

theorem physByte_withLaunches (a : Nat) : (w.withLaunches f).physByte a = w.physByte a := by
  unfold Work.physByte
  rw [rideOf_withLaunches]
  rfl

theorem walkEntry_withLaunches (a : Nat) : (w.withLaunches f).walkEntry a = w.walkEntry a := by
  unfold Work.walkEntry Work.entry16 Work.physBytes
  simp only [physByte_withLaunches]
  rfl

theorem homeFailed_withLaunches (a : Nat) : homeFailed (w.withLaunches f).d a = homeFailed w.d a := by
  unfold homeFailed
  rw [homeOf_congr (d := w.d) rfl]
  rfl

theorem homeUp_withLaunches (a : Nat) : homeUp (w.withLaunches f).d a = homeUp w.d a := by
  unfold homeUp
  rw [homeOf_congr (d := w.d) rfl]
  rfl

theorem reachable_withLaunches (die : Nat) (send : Bool) (a : Nat) :
    reachable (w.withLaunches f).d die send a = reachable w.d die send a := by
  unfold reachable
  rw [homeOf_congr (d := w.d) rfl]
  rfl

theorem leaseFree_withLaunches (a : Nat) : (w.withLaunches f).leaseFree a = w.leaseFree a := by
  unfold Work.leaseFree
  rw [homeOf_congr (d := w.d) rfl]
  rfl

theorem lateBefore_withLaunches (bytes : List (Nat × Nat)) (writes : Bool) (who : Agent) (sc : Option Scope) (id : Nat)
    (passed : Option (Nat × Scope)) :
    (w.withLaunches f).lateBefore bytes writes who sc id passed = w.lateBefore bytes writes who sc id passed := rfl

theorem poisoned_withLaunches (a : Nat) : (w.withLaunches f).poisoned a = w.poisoned a := rfl
theorem nextId_withLaunches : (w.withLaunches f).d.nextId = w.d.nextId := rfl
theorem die_withLaunches (k : Nat) : (w.withLaunches f).d.die k = w.d.die k := rfl

theorem walk_withLaunches (va n lvl tbl : Nat) : walk (w.withLaunches f) va n lvl tbl = walk w va n lvl tbl := by
  induction n generalizing lvl tbl with
  | zero => rfl
  | succ n ih =>
    rw [walk_succ, walk_succ, walkEntry_withLaunches, homeFailed_withLaunches, homeUp_withLaunches, lateBefore_withLaunches,
      poisoned_withLaunches, nextId_withLaunches, show walk (w.withLaunches f) va n (lvl + 1) = walk w va n (lvl + 1) from
        funext fun tbl => ih (lvl + 1) tbl]

theorem translate_withLaunches (die va : Nat) (kind : XKind) (user : Bool) :
    (w.withLaunches f).translate die va kind user = w.translate die va kind user := by
  rw [translate_eq, translate_eq, die_withLaunches, walk_withLaunches, show reachable (w.withLaunches f).d die = reachable w.d die from
    funext fun send => funext fun a => reachable_withLaunches w f die send a]

theorem complPa_withLaunches (ln : Launch) (o : Nat) : (w.withLaunches f).complPa ln o = w.complPa ln o := by
  rw [complPa_eq, complPa_eq, translate_withLaunches, show (w.withLaunches f).leaseFree = w.leaseFree from
    funext fun a => leaseFree_withLaunches w f a, show homeUp (w.withLaunches f).d = homeUp w.d from
    funext fun a => homeUp_withLaunches w f a]

end WithLaunches

/-- A completion record's place depends on the die and the address alone. -/
theorem complPa_congr (w : Work) {ln ln' : Launch} (hx : ln'.xdie = ln.xdie) (hr : ln'.rec_ = ln.rec_) (o : Nat) :
    w.complPa ln' o = w.complPa ln o := by
  rw [complPa_eq, complPa_eq, hx, hr]

/-! ### What is written at a completion record (R22, R23) -/

/-- What is done at a place, where there is one. -/
def onPlace (f : Nat → Work) (w : Work) : Option Nat → Work
  | some pa => f pa
  | none => w

theorem countBlk_of_onPlace (P : (Work → Launch → Work) → Prop)
    (h : P fun w ln => onPlace (fun pa => w.write64 pa (headerBits ln.status (ln.retired.length + 1))) w (w.complPa ln 0)) :
    P Work.countBlk := by
  delta Work.countBlk
  refine cast (congrArg P ?_) h
  funext w ln
  cases w.complPa ln 0 with
  | none => rfl
  | some pa => rfl

theorem countBlk_eq {w : Work} {ln : Launch} {pa : Nat} (h : w.complPa ln 0 = some pa) :
    w.countBlk ln = w.write64 pa (headerBits ln.status (ln.retired.length + 1)) :=
  countBlk_of_onPlace (fun F => F w ln = _) (by beta_reduce; rw [h]; rfl)

/-- Bit `i` of a bitmap is set in the byte at `pa`. -/
def markBit (w : Work) (i : Nat) (c : Clock) (pa : Nat) : Work :=
  (w.retelling fun w => w.homeWrite pa 1 (w.homeRead pa 1 ||| 2 ^ (i % 8))).tell pa 1 Agent.grid .pkg 0 c

theorem setBit_of_onPlace (P : (Work → Launch → Nat → Clock → Work) → Prop)
    (h : P fun w ln i c => onPlace (markBit w i c) w (w.complPa ln (64 + i / 8))) : P Work.setBit := by
  delta Work.setBit
  refine cast (congrArg P ?_) h
  funext w ln i c
  cases w.complPa ln (64 + i / 8) with
  | none => rfl
  | some pa => rfl

theorem setBit_eq {w : Work} {ln : Launch} {i pa : Nat} (h : w.complPa ln (64 + i / 8) = some pa) (c : Clock) :
    w.setBit ln i c = markBit w i c pa :=
  setBit_of_onPlace (fun F => F w ln i c = _) (by beta_reduce; rw [h]; rfl)

theorem setBit_rest (w : Work) (ln : Launch) (i : Nat) (c : Clock) : SameRest w (w.setBit ln i c) := by
  refine setBit_of_onPlace (fun F => SameRest w (F w ln i c)) ?_
  beta_reduce
  cases w.complPa ln (64 + i / 8) with
  | none => exact SameRest.refl w
  | some pa => exact (SameRest.retelling (SameRest.homeWrite ..)).trans (SameRest.tell ..)

/-- The launch of an id goes. -/
def dropLaunch (w : Work) (id : Nat) (ln : Launch) : Work :=
  if ln.pbid = 0 then w.withLaunches fun m => sdel m id else (w.withLaunches fun m => sdel m id).freePod ln.pbid ln.pbsys

/-- The header of a launch that is over. -/
def lastHeader (w : Work) (ln : Launch) (pa : Nat) : Work :=
  (w.write64 pa (headerBits ln.status ln.rec_.nblk)).tell pa 64 Agent.grid (if ln.rec_.sysc then .sys else .pkg) 0 ln.ran

theorem finishLaunch_of_onPlace (P : (Work → Nat → Work) → Prop)
    (h : P fun w id => (sget? w.d.launches id).elim w fun ln =>
      if ln.retired.length < ln.rec_.nblk then w else dropLaunch (onPlace (lastHeader w ln) w (w.complPa ln 0)) id ln) :
    P Work.finishLaunch := by
  delta Work.finishLaunch
  refine cast (congrArg P ?_) h
  funext w id
  cases sget? w.d.launches id with
  | none => rfl
  | some ln =>
    refine if_congr Iff.rfl rfl ?_
    cases w.complPa ln 0 with
    | none => rfl
    | some pa => rfl

theorem finishLaunch_more {w : Work} {id : Nat} {ln : Launch} (h : sget? w.d.launches id = some ln)
    (hn : ln.retired.length < ln.rec_.nblk) : w.finishLaunch id = w :=
  finishLaunch_of_onPlace (fun F => F w id = w) (by beta_reduce; rw [h]; exact if_pos hn)

theorem finishLaunch_last {w : Work} {id pa : Nat} {ln : Launch} (h : sget? w.d.launches id = some ln)
    (hn : ln.rec_.nblk ≤ ln.retired.length) (hpa : w.complPa ln 0 = some pa) :
    w.finishLaunch id = dropLaunch (lastHeader w ln pa) id ln :=
  finishLaunch_of_onPlace (fun F => F w id = _) (by
    beta_reduce; rw [h]; dsimp only [Option.elim]; rw [hpa]; exact if_neg (Nat.not_lt.mpr hn))

section DropLaunch

variable (w : Work) (id : Nat) (ln : Launch)

theorem freePod_eq (pbid : Nat) (sys : Bool) : ∃ f : Pkg → Pkg, w.freePod pbid sys = w.updPkg f := by
  unfold Work.freePod
  split
  · exact ⟨id, rfl⟩
  · split
    · exact ⟨_, rfl⟩
    · exact ⟨id, rfl⟩

/-- A launch that goes leaves the table, and of the package only the counts of its pod launch change. -/
theorem dropLaunch_eq : ∃ f : Pkg → Pkg, dropLaunch w id ln = (w.withLaunches fun m => sdel m id).updPkg f := by
  unfold dropLaunch
  split
  · exact ⟨fun p => p, rfl⟩
  · exact freePod_eq ..

end DropLaunch

/-! ### A block leaves its slots -/

theorem sget?_filter_key {α : Type} (m : Sparse α) (p : Nat → Bool) (k : Nat) :
    sget? (m.filter fun e => p e.1) k = if p k = true then sget? m k else none := by
  induction m with
  | nil => split <;> rfl
  | cons e m ih =>
    rw [List.filter_cons, sget?]
    by_cases hk : e.1 = k
    · subst hk
      by_cases hp : p e.1 = true
      · rw [if_pos hp, if_pos hp, sget?, if_pos rfl, if_pos rfl]
      · rw [if_neg hp, ih, if_neg hp, if_neg hp]
    · by_cases hp : p e.1 = true
      · rw [if_pos hp, sget?, if_neg hk, if_neg hk, ih]
      · rw [if_neg hp, if_neg hk, ih]

/-- The stagger of a block whose predecessor `k` has begun or gone runs from now. -/
def Block.staggerRuns (k now : Nat) (b : Block) : Block :=
  { b with stagger := b.stagger.map fun p => if p.1 = some k then (none, now + p.2) else p }

/-- A barrier without the arrivals of the groups in a run of slots. -/
def Bar.leave (k n : Nat) (x : Bar) : Bar :=
  { x with arrived := x.arrived.filter fun s => !(decide (k ≤ s) && decide (s < k + n)) }

/-- A launch whose barriers those groups have left. -/
def Launch.leave (k n : Nat) (l : Launch) : Launch := { l with bars := l.bars.map fun e => (e.1, e.2.leave k n) }

/-- A block has left its slots. -/
structure BlockGone (w : Work) (k : Nat) (b : Block) (w' : Work) : Prop where
  base : w'.base = w.base
  log : w'.log = w.log
  dies : w'.d.dies = w.d.dies
  podId : w'.d.pkg.podId = w.d.pkg.podId
  blocks : w'.d.blocks = sdel (w.d.blocks.map fun e => (e.1, e.2.staggerRuns k w.d.now)) k
  groups : w'.d.groups = w.d.groups.filter fun e => !(decide (k ≤ e.1) && decide (e.1 < k + b.gcnt))
  launches : w'.d.launches = w.d.launches.map fun l => (l.1, l.2.leave k b.gcnt)

theorem removeBlk_gone {w : Work} {k : Nat} {b : Block} (h : w.blk? k = some b) : BlockGone w k b (w.removeBlk k) := by
  unfold Work.removeBlk
  rw [h]
  dsimp only
  split <;> exact ⟨rfl, rfl, rfl, rfl, rfl, rfl, rfl⟩

theorem Block.mem_slots (b : Block) (k q : Nat) : q ∈ b.slots k ↔ k ≤ q ∧ q < k + b.gcnt := by
  unfold Block.slots
  simp only [List.mem_map, List.mem_range]
  refine ⟨?_, fun h => ⟨q - k, by omega, by omega⟩⟩
  rintro ⟨j, hj, rfl⟩
  omega

namespace BlockGone

variable {w w' : Work} {k : Nat} {b : Block} (h : BlockGone w k b w')
include h

theorem grp?_in {q : Nat} (hq : q ∈ b.slots k) : w'.grp? q = none := by
  unfold Work.grp?
  rw [h.groups, sget?_filter_key w.d.groups (fun q => !(decide (k ≤ q) && decide (q < k + b.gcnt))), if_neg]
  have := (b.mem_slots k q).mp hq
  simp [this]

theorem grp?_out {q : Nat} (hq : q ∉ b.slots k) : w'.grp? q = w.grp? q := by
  unfold Work.grp?
  rw [h.groups, sget?_filter_key w.d.groups (fun q => !(decide (k ≤ q) && decide (q < k + b.gcnt))), if_pos]
  have : ¬ (k ≤ q ∧ q < k + b.gcnt) := fun h => hq ((b.mem_slots k q).mpr h)
  simp only [Bool.not_eq_true', Bool.and_eq_false_iff, decide_eq_false_iff_not]
  omega

theorem blk?_self : w'.blk? k = none := by
  unfold Work.blk?
  rw [h.blocks, sget?_sdel_same]

theorem blk?_other {j : Nat} (hj : j ≠ k) : w'.blk? j = (w.blk? j).map (Block.staggerRuns k w.d.now) := by
  unfold Work.blk?
  rw [h.blocks, sget?_sdel_ne _ hj]
  exact sget?_map (fun _ => Block.staggerRuns k w.d.now) w.d.blocks j

theorem launch (id : Nat) : sget? w'.d.launches id = (sget? w.d.launches id).map (Launch.leave k b.gcnt) := by
  rw [h.launches]
  exact sget?_map (fun _ => Launch.leave k b.gcnt) w.d.launches id

end BlockGone

theorem leave_arrived {k m : Nat} {b : Block} {l : Launch} {bar : Bar} (h : sget? (l.leave k b.gcnt).bars m = some bar) :
    ∀ q ∈ bar.arrived, q ∉ b.slots k := by
  have hm : sget? (l.leave k b.gcnt).bars m = (sget? l.bars m).map (Bar.leave k b.gcnt) :=
    sget?_map (fun _ => Bar.leave k b.gcnt) l.bars m
  rw [hm] at h
  obtain ⟨bar', -, rfl⟩ := Option.map_eq_some_iff.mp h
  intro q hq hs
  have := (b.mem_slots k q).mp hs
  have hf : q ∈ bar'.arrived.filter fun s => !(decide (k ≤ s) && decide (s < k + b.gcnt)) := hq
  simp [List.mem_filter, this] at hf

/-! ### A block's bit and its launch's header -/

theorem load_one (w : Work) (a : Nat) : w.load a 1 = (w.byte a).toNat := rfl

theorem markBit_rest (w : Work) (i : Nat) (c : Clock) (pa : Nat) : SameRest w (markBit w i c pa) :=
  (SameRest.retelling (SameRest.homeWrite ..)).trans (SameRest.tell ..)

theorem markBit_dies {w : Work} {pa : Nat} (h : w.d.rideOf pa = none) (i : Nat) (c : Clock) :
    (markBit w i c pa).d.dies = w.d.dies := by
  unfold markBit Work.tell Work.retelling
  rw [Work.updPkg_dies, Work.updPkg_dies, homeWrite_dies h]

theorem markBit_byte {w : Work} {pa : Nat} (h : w.d.rideOf pa = none) (i : Nat) (c : Clock) (a : Nat) :
    (markBit w i c pa).byte a = (w.store pa 1 ((w.byte pa).toNat ||| 2 ^ (i % 8))).byte a := by
  have hr : w.homeRead pa 1 = (w.byte pa).toNat := by
    unfold Work.homeRead
    rw [h]
    exact load_one w pa
  rw [← hr]
  have hl : (markBit w i c pa).log = (w.homeWrite pa 1 (w.homeRead pa 1 ||| 2 ^ (i % 8))).log := by
    unfold markBit Work.tell Work.retelling
    rw [Work.updPkg_log, Work.updPkg_log]
  rw [byte_congr hl ((markBit_rest ..).base.trans (SameRest.homeWrite ..).base.symm), homeWrite_byte h]

theorem markBit_byte_self {w : Work} {pa : Nat} (h : w.d.rideOf pa = none) (i : Nat) (c : Clock) :
    ((markBit w i c pa).byte pa).toNat = (w.byte pa).toNat ||| 2 ^ (i % 8) := by
  rw [markBit_byte h, show (w.store pa 1 _).byte pa = _ from Work.byte_store_in w pa 1 _ 0 Nat.zero_lt_one, BitVec.toNat_ofNat,
    Nat.pow_zero, Nat.div_one]
  exact Nat.mod_eq_of_lt (Nat.or_lt_two_pow (n := 8) (BitVec.isLt _) (Nat.pow_lt_pow_right (by decide) (Nat.mod_lt _ (by decide))))

theorem markBit_byte_ne {w : Work} {pa a : Nat} (h : w.d.rideOf pa = none) (i : Nat) (c : Clock) (ha : a ≠ pa) :
    (markBit w i c pa).byte a = w.byte a := by
  rw [markBit_byte h]
  exact Work.byte_store_out _ _ _ _ _ (by omega)

theorem write64_rest (w : Work) (pa x : Nat) : SameRest w (w.write64 pa x) := SameRest.homeWrite w pa 64 x

theorem write64_load {w : Work} {pa x : Nat} (h : w.d.rideOf pa = none) (hx : x < 256 ^ 64) : (w.write64 pa x).load pa 64 = x := by
  unfold Work.write64
  rw [load_congr (homeWrite_byte h 64 x), Work.load_store, Nat.mod_eq_of_lt hx]

theorem write64_byte_out {w : Work} {pa a : Nat} (h : w.d.rideOf pa = none) (x : Nat) (ha : a < pa ∨ pa + 64 ≤ a) :
    (w.write64 pa x).byte a = w.byte a :=
  (homeWrite_byte h 64 x a).trans (Work.byte_store_out _ _ _ _ _ ha)

theorem headerBits_lt (status n : Nat) : headerBits status n < 256 ^ 64 := by
  unfold headerBits
  have h1 := Nat.mod_lt status (show 0 < 65536 by decide)
  have h2 := Nat.mod_lt n (show 0 < 2 ^ 32 by decide)
  have h3 : 2 ^ 64 ≤ 256 ^ 64 := by decide
  omega

/-! ### A launch ends, or goes on (R23) -/

/-- The header at `pa` holds `x`; no other byte, and no block or group, has changed. -/
structure HeaderIs (w : Work) (pa x : Nat) (w' : Work) : Prop where
  base : w'.base = w.base
  blocks : w'.d.blocks = w.d.blocks
  groups : w'.d.groups = w.d.groups
  load : w'.load pa 64 = x
  out : ∀ a, (a < pa ∨ pa + 64 ≤ a) → w'.byte a = w.byte a

theorem lastHeader_rest (w : Work) (ln : Launch) (pa : Nat) : SameRest w (lastHeader w ln pa) := by
  unfold lastHeader
  exact (write64_rest ..).trans (SameRest.tell ..)

theorem lastHeader_log (w : Work) (ln : Launch) (pa : Nat) :
    (lastHeader w ln pa).log = (w.write64 pa (headerBits ln.status ln.rec_.nblk)).log := by
  unfold lastHeader Work.tell
  rw [Work.updPkg_log]

/-- With its last block a launch is over. -/
theorem finishLaunch_headerIs {w : Work} {id pa : Nat} {ln : Launch} (h : sget? w.d.launches id = some ln)
    (hn : ln.rec_.nblk ≤ ln.retired.length) (hpa : w.complPa ln 0 = some pa) (hr : w.d.rideOf pa = none) :
    HeaderIs w pa (headerBits ln.status ln.rec_.nblk) (w.finishLaunch id) ∧ sget? (w.finishLaunch id).d.launches id = none := by
  rw [finishLaunch_last h hn hpa]
  obtain ⟨f, hf⟩ := dropLaunch_eq (lastHeader w ln pa) id ln
  rw [hf]
  have hrest := lastHeader_rest w ln pa
  have hlog := lastHeader_log w ln pa
  generalize lastHeader w ln pa = v at hrest hlog ⊢
  have hbyte : ∀ a, ((v.withLaunches fun m => sdel m id).updPkg f).byte a =
      (w.write64 pa (headerBits ln.status ln.rec_.nblk)).byte a :=
    byte_congr hlog (hrest.base.trans (write64_rest ..).base.symm)
  refine ⟨⟨hrest.base, hrest.blocks, hrest.groups, ?_, fun a ha => ?_⟩, sget?_sdel_same ..⟩
  · rw [load_congr hbyte, write64_load hr (headerBits_lt ..)]
  · rw [hbyte, write64_byte_out hr _ ha]

section Retire

variable {s : State} {k pa pa0 : Nat} {b : Block} {ln : Launch}

/-- What the retirement of a block leaves before its launch is looked at. -/
def retired (w : Work) (k : Nat) (b : Block) (ln : Launch) (c : Clock) : Work :=
  (((w.countBlk ln).setBit ln b.idx c).removeBlk k).withLaunches fun m => supd m b.launch fun l =>
    { l with retired := l.retired ++ [b.idx], ran := Clock.join l.ran c }

/-- A launch that has counted a block that leaves slot `k`. -/
def Launch.count (ln : Launch) (k : Nat) (b : Block) (c : Clock) : Launch :=
  { ln.leave k b.gcnt with
    retired := ln.retired ++ [b.idx]
    ran := Clock.join ln.ran c }

theorem count_complPa (w : Work) (c : Clock) (o : Nat) : w.complPa (ln.count k b c) o = w.complPa ln o :=
  complPa_congr w (ln := ln) (ln' := ln.count k b c) rfl rfl o

theorem retired_complPa (w : Work) (c : Clock) (ln' : Launch) : (retired w k b ln c).complPa ln' 0 =
    (((w.countBlk ln).setBit ln b.idx c).removeBlk k).complPa ln' 0 := by
  unfold retired
  rw [complPa_withLaunches]

theorem exec_blockRetire (hb : sget? s.d.blocks k = some b) (hover : ∀ q ∈ b.slots k, (begin_ s).groupOver q = true)
    (hops : ∀ e ∈ s.d.ops, e.blk ≠ k) (hln : sget? s.d.launches b.launch = some ln) (hpa0 : (begin_ s).complPa ln 0 = some pa0)
    (hpa : (begin_ s).complPa ln (64 + b.idx / 8) = some pa) : exec (.blockRetire k) s =
      .next (commit s.mem ((retired (begin_ s) k b ln ((begin_ s).blockClock b k)).finishLaunch b.launch)) := by
  refine congrArg (fun w => Host.Outcome.next (commit s.mem w)) ?_
  dsimp only
  rw [show (begin_ s).blk? k = some b from hb]
  dsimp only
  rw [if_neg]
  · rw [show sget? (begin_ s).d.launches b.launch = some ln from hln]
    dsimp only
    rw [hpa0, hpa]
    exact if_neg Bool.false_ne_true
  · have h1 : (b.slots k).all (begin_ s).groupOver = true := List.all_eq_true.mpr hover
    have h2 : (begin_ s).d.ops.any (fun e => e.blk == k) = false :=
      List.any_eq_false.mpr fun e he => by simpa using hops e he
    rw [h1, h2]
    simp

/-- The retired block's bit is set, its launch's header counts it, and it has left its slots. -/
structure Counted (s : State) (k pa pa0 : Nat) (b : Block) (ln : Launch) (c : Clock) (w : Work) : Prop where
  base : w.base = s.mem
  blkSelf : sget? w.d.blocks k = none
  blkOther : ∀ j, j ≠ k → sget? w.d.blocks j = (sget? s.d.blocks j).map (Block.staggerRuns k s.d.now)
  grpIn : ∀ q ∈ b.slots k, w.grp? q = none
  grpOut : ∀ q, q ∉ b.slots k → w.grp? q = s.slot? q
  launch : sget? w.d.launches b.launch =
    some (ln.count k b c)
  bit : (w.byte pa).toNat = (s.byte pa).toNat ||| 2 ^ (b.idx % 8)
  header : w.load pa0 64 = headerBits ln.status (ln.retired.length + 1)
  out : ∀ a, a ≠ pa → (a < pa0 ∨ pa0 + 64 ≤ a) → w.byte a = s.byte a
  ride : w.d.rideOf pa0 = none

theorem retired_counted (hb : sget? s.d.blocks k = some b) (hln : sget? s.d.launches b.launch = some ln)
    (hpa0 : (begin_ s).complPa ln 0 = some pa0) (hpa : ((begin_ s).countBlk ln).complPa ln (64 + b.idx / 8) = some pa)
    (hride : s.d.rideOf pa = none) (hride0 : s.d.rideOf pa0 = none) (hout : pa < pa0 ∨ pa0 + 64 ≤ pa) (c : Clock) :
    Counted s k pa pa0 b ln c (retired (begin_ s) k b ln c) := by
  unfold retired
  rw [setBit_eq hpa, countBlk_eq hpa0]
  have r1 : SameRest (begin_ s) ((begin_ s).write64 pa0 (headerBits ln.status (ln.retired.length + 1))) := write64_rest ..
  have d1 : ((begin_ s).write64 pa0 (headerBits ln.status (ln.retired.length + 1))).d.dies = s.d.dies := homeWrite_dies hride0 _ _
  have h1 := write64_load (w := begin_ s) hride0 (headerBits_lt ln.status (ln.retired.length + 1))
  have o1 : ∀ a, (a < pa0 ∨ pa0 + 64 ≤ a) →
      ((begin_ s).write64 pa0 (headerBits ln.status (ln.retired.length + 1))).byte a = s.byte a := fun a ha =>
    write64_byte_out (w := begin_ s) hride0 _ ha
  generalize (begin_ s).write64 pa0 (headerBits ln.status (ln.retired.length + 1)) = w1 at r1 d1 h1 o1 ⊢
  have hr : w1.d.rideOf pa = none := (rideOf_congr d1 r1.podId pa).trans hride
  have r2 := r1.trans (markBit_rest w1 b.idx c pa)
  have d2 := (markBit_dies hr b.idx c).trans d1
  have bit := markBit_byte_self hr b.idx c
  have out := fun a => markBit_byte_ne (a := a) hr b.idx c
  generalize markBit w1 b.idx c pa = w2 at r2 d2 bit out ⊢
  have hgone : BlockGone w2 k b (w2.removeBlk k) := removeBlk_gone (show sget? w2.d.blocks k = some b by rw [r2.blocks]; exact hb)
  generalize w2.removeBlk k = w3 at hgone ⊢
  have hnow : w2.d.now = s.d.now := r2.onDev Dev.now fun _ => rfl
  have hbyte : ∀ a, w3.byte a = w2.byte a := byte_congr hgone.log hgone.base
  have hself := hgone.blk?_self
  have hother := fun j (hj : j ≠ k) => hgone.blk?_other hj
  have hgout := fun q (hq : q ∉ b.slots k) => hgone.grp?_out hq
  have hlaunch := hgone.launch b.launch
  rw [r2.launches, show sget? (begin_ s).d.launches b.launch = some ln from hln] at hlaunch
  rw [hnow] at hother
  unfold Work.blk? at hother
  rw [r2.blocks] at hother
  unfold Work.grp? at hgout
  rw [r2.groups] at hgout
  refine ⟨hgone.base.trans r2.base, hself, hother, fun q hq => hgone.grp?_in hq, hgout, ?_, ?_, ?_, fun a ha ha0 => ?_, ?_⟩
  · show sget? (supd w3.d.launches b.launch _) b.launch = _
    rw [sget?_supd, if_pos rfl, hlaunch]
    rfl
  · show (w3.byte pa).toNat = _
    rw [hbyte, bit, o1 pa hout]
  · refine (load_congr_on (w := w1) pa0 64 fun j h1 h2 => ?_).trans h1
    show w3.byte j = _
    rw [hbyte, out j (by omega)]
  · show w3.byte a = _
    rw [hbyte, out a ha, o1 a ha0]
  · exact (rideOf_congr (hgone.dies.trans d2) (hgone.podId.trans r2.podId) pa0).trans hride0

/-- A retired block frees its slots, sets its bit and is counted in the header; with the last one the launch ends (R22, R23). -/
theorem blockRetire_ends :
    let w := begin_ s
    let w' := w.countBlk ln
    let c := w.blockClock b k
    let n := ln.retired.length + 1
    sget? s.d.blocks k = some b → (∀ q ∈ b.slots k, w.groupOver q = true) → (∀ e ∈ s.d.ops, e.blk ≠ k) → memWf s.mem = true →
    sget? s.d.launches b.launch = some ln → w.complPa ln 0 = some pa0 → w.complPa ln (64 + b.idx / 8) = some pa →
    w'.complPa ln (64 + b.idx / 8) = some pa → s.d.rideOf pa = none → s.d.rideOf pa0 = none →
    (pa < pa0 ∨ pa0 + 64 ≤ pa) → n ≤ ln.rec_.nblk → (n = ln.rec_.nblk → ((w'.setBit ln b.idx c).removeBlk k).complPa ln 0 = some pa0) →
    Ends (.blockRetire k) s fun t =>
      sget? t.d.blocks k = none ∧ (∀ q ∈ b.slots k, t.slot? q = none) ∧ (∀ q, q ∉ b.slots k → t.slot? q = s.slot? q) ∧
      (∀ j, j ≠ k → sget? t.d.blocks j = (sget? s.d.blocks j).map fun c =>
        { c with stagger := c.stagger.map fun p => if p.1 = some k then (none, s.d.now + p.2) else p }) ∧
      (t.byte pa).toNat = (s.byte pa).toNat ||| 2 ^ (b.idx % 8) ∧
      (begin_ t).load pa0 64 = ln.status % 65536 + 2 ^ 32 * (n % 2 ^ 32) ∧
      (∀ a, a ≠ pa → (a < pa0 ∨ pa0 + 64 ≤ a) → t.byte a = s.byte a) ∧
      (n = ln.rec_.nblk → sget? t.d.launches b.launch = none) ∧ (n < ln.rec_.nblk → ∃ ln', sget? t.d.launches b.launch = some ln' ∧
        { ln' with bars := [] } = { ln with retired := ln.retired ++ [b.idx], ran := Clock.join ln.ran c, bars := [] } ∧
        ∀ m bar, sget? ln'.bars m = some bar → ∀ q ∈ bar.arrived, q ∉ b.slots k) := by
  intro w w' c n hb hover hops hmem hln hpa0 hpa hpa' hride hride0 hout hn hlast
  have hex := exec_blockRetire hb hover hops hln hpa0 hpa
  have hc := retired_counted hb hln hpa0 hpa' hride hride0 hout c
  have hplace : n = ln.rec_.nblk → (retired w k b ln c).complPa (ln.count k b c) 0 = some pa0 := fun h => by
    rw [retired_complPa, count_complPa]
    exact hlast h
  change exec _ s = .next (commit s.mem ((retired w k b ln c).finishLaunch b.launch)) at hex
  change Counted s k pa pa0 b ln c (retired w k b ln c) at hc
  generalize retired w k b ln c = v at hex hc hplace
  obtain ⟨base, blkSelf, blkOther, grpIn, grpOut, launch, bit, header, out, ride⟩ := hc
  have hlen : (ln.retired ++ [b.idx]).length = n := List.length_append
  rcases Nat.lt_or_eq_of_le hn with hlt | heq
  · rw [finishLaunch_more launch (show (ln.retired ++ [b.idx]).length < ln.rec_.nblk by rw [hlen]; exact hlt)] at hex
    exact ⟨_, hex, blkSelf, grpIn, grpOut, blkOther, by rw [commit_byte hmem base, bit], by rw [load_commit hmem base, header]; rfl,
      fun a ha ha0 => by rw [commit_byte hmem base, out a ha ha0], fun h => absurd h (Nat.ne_of_lt hlt),
      fun _ => ⟨_, launch, rfl, fun m bar hbar => leave_arrived (l := ln) hbar⟩⟩
  · obtain ⟨⟨fbase, fblk, fgrp, fload, fout⟩, fgone⟩ := finishLaunch_headerIs launch
      (show ln.rec_.nblk ≤ (ln.retired ++ [b.idx]).length by rw [hlen, heq]) (hplace heq) ride
    have hbase := fbase.trans base
    refine ⟨_, hex, ?_, fun q hq => ?_, fun q hq => ?_, fun j hj => ?_, ?_, ?_, fun a ha ha0 => ?_, fun _ => ?_,
      fun h => absurd heq (Nat.ne_of_lt h)⟩
    · rw [commit_d, fblk]; exact blkSelf
    · unfold State.slot?; rw [commit_d, fgrp]; exact grpIn q hq
    · unfold State.slot?; rw [commit_d, fgrp]; exact grpOut q hq
    · rw [commit_d, fblk]; exact blkOther j hj
    · rw [commit_byte hmem hbase, fout pa hout, bit]
    · rw [load_commit hmem hbase, fload, heq]
      change headerBits ln.status ln.rec_.nblk = _
      unfold headerBits
      rfl
    · rw [commit_byte hmem hbase, fout a ha0, out a ha ha0]
    · rw [commit_d]; exact fgone

end Retire

end Sys2Proof.Machine
end

section
/-! PROOFS. Launches end (a clause of O57): what ends of threads change, and the clauses together. -/

namespace Sys2Proof.Machine

/-! ### What the end of a thread changes

The end of a block's threads closes their iterators, leaves their barriers and writes no memory (R202). -/

/-- A thread of a slot has exited, or the slot is free. -/
def Work.Gone (w : Work) (k l : Nat) : Prop := (((w.grp? k).getD Group.gone).thread l).st = .exited

/-- A launch without its barriers. -/
def Launch.still (l : Launch) : Launch := { l with bars := [] }

theorem still_status {l l' : Launch} (h : l'.still = l.still) : l'.status = l.status :=
  show l'.still.status = l.still.status by rw [h]

/-- `w'` comes from `w` by ends of threads: who has exited stays so, and a launch that has a status keeps all but its barriers. -/
structure Winds (w w' : Work) : Prop where
  log : w'.log = w.log
  base : w'.base = w.base
  tickets : w'.d.pkg.tickets = w.d.pkg.tickets
  blk : ∀ k, (w'.blk? k).map (fun b => (b.launch, b.gcnt)) = (w.blk? k).map fun b => (b.launch, b.gcnt)
  gone : ∀ k l, l < 32 → w.Gone k l → w'.Gone k l
  launch : ∀ id ln, sget? w.d.launches id = some ln → ln.status ≠ 0 →
    ∃ ln', sget? w'.d.launches id = some ln' ∧ ln'.still = ln.still

namespace Winds

variable {w w' w'' : Work}

/-- A change of anything else. -/
theorem of_eq (hl : w'.log = w.log) (hb : w'.base = w.base) (ht : w'.d.pkg.tickets = w.d.pkg.tickets)
    (hk : w'.d.blocks = w.d.blocks) (hg : w'.d.groups = w.d.groups) (hn : w'.d.launches = w.d.launches) : Winds w w' :=
  ⟨hl, hb, ht, fun k => by unfold Work.blk?; rw [hk], fun k l _ h => by unfold Work.Gone Work.grp? at h ⊢; rw [hg]; exact h,
    fun id ln h _ => ⟨ln, by rw [hn, h], rfl⟩⟩

theorem refl (w : Work) : Winds w w := of_eq rfl rfl rfl rfl rfl rfl

theorem trans (h : Winds w w') (h' : Winds w' w'') : Winds w w'' where
  log := h'.log.trans h.log
  base := h'.base.trans h.base
  tickets := h'.tickets.trans h.tickets
  blk k := (h'.blk k).trans (h.blk k)
  gone k l hl hk := h'.gone k l hl (h.gone k l hl hk)
  launch id ln hln hs := by
    obtain ⟨ln1, h1, e1⟩ := h.launch id ln hln hs
    obtain ⟨ln2, h2, e2⟩ := h'.launch id ln1 h1 (by
      rw [still_status e1]; exact hs)
    exact ⟨ln2, h2, e2.trans e1⟩

theorem foldl {α : Type} {f : Work → α → Work} (hf : ∀ w a, Winds w (f w a)) (ls : List α) (w : Work) :
    Winds w (ls.foldl f w) := by
  induction ls generalizing w with
  | nil => exact refl w
  | cons a ls ih => exact (hf w a).trans (ih _)

theorem updGrp (w : Work) (k : Nat) {f : Group → Group}
    (hf : ∀ g l, l < 32 → (g.thread l).st = .exited → ((f g).thread l).st = .exited) : Winds w (w.updGrp k f) where
  log := rfl
  base := rfl
  tickets := rfl
  blk _ := rfl
  launch _ ln h _ := ⟨ln, h, rfl⟩
  gone j l hl h := by
    unfold Work.Gone at h ⊢
    rw [Work.grp?_updGrp]
    split
    · next hj =>
      subst hj
      cases hg : w.grp? j with
      | none => rw [hg] at h; exact h
      | some g => rw [hg] at h; exact hf g l hl h
    · exact h

/-- A change of a group that leaves its threads. -/
theorem updGrp_thr (w : Work) (k : Nat) {f : Group → Group} (hf : ∀ g, (f g).thr = g.thr) : Winds w (w.updGrp k f) :=
  updGrp w k fun g l _ h => by unfold Group.thread at h ⊢; rw [hf]; exact h

theorem updBlk (w : Work) (k : Nat) {f : Block → Block} (hf : ∀ b, ((f b).launch, (f b).gcnt) = (b.launch, b.gcnt)) :
    Winds w (w.updBlk k f) where
  log := rfl
  base := rfl
  tickets := rfl
  gone _ _ _ h := h
  launch _ ln h _ := ⟨ln, h, rfl⟩
  blk j := by
    rw [Work.blk?_updBlk]
    split
    · next hj =>
      subst hj
      cases w.blk? j with
      | none => rfl
      | some b => exact congrArg some (hf b)
    · rfl

theorem then_core (h : Winds w w') (k : Nat) (f : Core → Core) : Winds w (w'.updCore k f) := ⟨h.1, h.2, h.3, h.4, h.5, h.6⟩

theorem then_blk (h : Winds w w') (k : Nat) {f : Block → Block} (hf : ∀ b, ((f b).launch, (f b).gcnt) = (b.launch, b.gcnt)) :
    Winds w (w'.updBlk k f) := h.trans (updBlk w' k hf)

theorem then_grp (h : Winds w w') (k : Nat) {f : Group → Group} (hf : ∀ g, (f g).thr = g.thr) : Winds w (w'.updGrp k f) :=
  h.trans (updGrp_thr w' k hf)

theorem updCore (w : Work) (k : Nat) (f : Core → Core) : Winds w (w.updCore k f) := of_eq rfl rfl rfl rfl rfl rfl
theorem updDie (w : Work) (k : Nat) (f : Die → Die) : Winds w (w.updDie k f) := of_eq rfl rfl rfl rfl rfl rfl

/-- The barriers of a launch change. -/
theorem setBars (w : Work) (id : Nat) {ln : Launch} (h : sget? w.d.launches id = some ln) (bars : Sparse Bar) :
    Winds w (w.updDev fun d => { d with launches := sset d.launches id { ln with bars := bars } }) where
  log := rfl
  base := rfl
  tickets := rfl
  blk _ := rfl
  gone _ _ _ h := h
  launch j l hj _ := by
    show ∃ ln', sget? (sset w.d.launches id { ln with bars := bars }) j = some ln' ∧ _
    rw [sget?_sset]
    split
    · next e =>
      subst e
      rw [h] at hj
      cases hj
      exact ⟨_, rfl, rfl⟩
    · exact ⟨l, hj, rfl⟩

theorem setStatus (w : Work) (id code : Nat) : Winds w (w.setStatus id code) where
  log := rfl
  base := rfl
  tickets := rfl
  blk _ := rfl
  gone _ _ _ h := h
  launch j l hj hs := by
    refine ⟨l, ?_, rfl⟩
    show sget? (supd w.d.launches id _) j = some l
    rw [sget?_supd]
    split
    · next e =>
      subst e
      rw [hj]
      exact congrArg some (congrArg (fun x => { l with status := x }) (if_neg hs))
    · exact hj

/-! #### Barriers -/

theorem clearArr (w : Work) (n : Nat) (ls : List Nat) : Winds w (w.clearArr n ls) := by
  unfold Work.clearArr
  refine foldl (fun w k => ?_) ls w
  exact updGrp_thr w k fun _ => rfl

theorem checkBlkBar (w : Work) (blk n : Nat) : Winds w (w.checkBlkBar blk n) := by
  unfold Work.checkBlkBar
  split
  · exact refl w
  · dsimp only
    split
    · refine trans ?_ (clearArr ..)
      exact updBlk w blk fun _ => rfl
    · exact refl w

theorem checkWideBar (w : Work) (launch : Nat) (sc : Scope) (u : Nat) : Winds w (w.checkWideBar launch sc u) := by
  unfold Work.checkWideBar
  split
  · exact refl w
  · next ln h =>
    dsimp only
    split
    · exact (setBars w launch h _).trans (clearArr ..)
    · exact refl w

theorem checkPodBar (w : Work) (pbid : Nat) (sys : Bool) : Winds w (w.checkPodBar pbid sys) := by
  unfold Work.checkPodBar
  dsimp only
  split
  · refine trans ?_ (clearArr ..)
    exact of_eq rfl rfl rfl rfl rfl rfl
  · exact refl w

theorem checkAllBars (w : Work) (slot : Nat) : Winds w (w.checkAllBars slot) := by
  unfold Work.checkAllBars
  split
  · exact refl w
  · next g _ =>
    have h1 : Winds w ((List.range 16).foldl (fun w n => w.checkBlkBar g.blk n) w) := foldl (fun w n => checkBlkBar w g.blk n) _ w
    dsimp only
    split
    · exact h1
    · next b _ =>
      have h2 := h1.trans (foldl (fun w sc => checkWideBar w b.launch sc (w.barUnit sc slot)) [Scope.quad, .die, .pkg] _)
      split
      · exact h2
      · split
        · exact h2
        · exact h2.trans (checkPodBar ..)

/-! #### Iterators -/

theorem closeEp (w : Work) (k : Nat) : Winds w (w.closeEp k) := updGrp_thr w k fun _ => rfl

theorem askBoard (w : Work) (die obj : Nat) : Winds w (w.askBoard die obj) := by
  unfold Work.askBoard
  dsimp only
  split
  · exact refl w
  · exact (updDie ..).trans (updDie ..)

theorem addRing (w : Work) (home : Nat) (op : RingOp) : Winds w (w.addRing home op) := by
  have hask : ∀ v : Work, Winds v (match homeOf v.d op.obj with | .die h => v.askBoard h op.obj | _ => v) := fun v => by
    split
    · exact askBoard ..
    · exact refl v
  unfold Work.addRing
  dsimp only
  refine trans ?_ (hask _)
  split
  · next g _ =>
    split
    · refine then_core ?_ ..
      exact then_grp (updDie ..) g fun _ => rfl
    · exact updDie ..
  · exact updDie ..

theorem pinOp (w : Work) (slot gpa i : Nat) (up : Bool) : Winds w (w.pinOp slot gpa i up) := by
  have hcl : ∀ v : Work, Winds v (if up then v else v.closeEp slot) := fun v => by
    split
    · exact refl v
    · exact closeEp ..
  have hid : ∀ v : Work, Winds v v.newId.2 := fun v => of_eq rfl rfl rfl rfl rfl rfl
  unfold Work.pinOp
  exact (hcl w).trans ((hid _).trans ((addRing ..).trans (hcl _)))

theorem writeRegs (w : Work) (slot : Nat) (rs : List Reg) (ws : List Word) : Winds w (w.writeRegs slot rs ws) := by
  induction w, rs, ws using Work.writeRegs.induct slot with
  | case1 w l n t x xs ih =>
    rw [Work.writeRegs]
    refine trans ?_ ih
    exact updGrp_thr w slot fun _ => rfl
  | case2 w n t lo hi ws =>
    rw [Work.writeRegs]
    exact updGrp_thr w slot fun _ => rfl
  | case3 w n t lo hi ws g hg =>
    rw [Work.writeRegs, hg]
    exact updBlk w _ fun _ => rfl
  | case4 w n t lo hi ws hg =>
    rw [Work.writeRegs, hg]
    exact refl w
  | case5 w n h t a b c d xs ih =>
    rw [Work.writeRegs]
    refine trans ?_ ih
    exact updGrp_thr w slot fun _ => rfl
  | case6 =>
    rw [Work.writeRegs]
    · exact refl _
    all_goals assumption

theorem landT (w : Work) (slot : Nat) : Winds w (w.landT slot) := by
  unfold Work.landT
  refine foldl (fun w e => ?_) _ w
  split
  · exact then_grp (writeRegs ..) slot fun _ => rfl
  · exact refl w

theorem closeIter (w : Work) (slot : Nat) (r : TRec) : Winds w (w.closeIter slot r) := by
  unfold Work.closeIter
  dsimp only
  split
  · split
    · exact then_grp (pinOp ..) slot fun _ => rfl
    · exact refl w
  · exact refl w

theorem closeIters (w : Work) (slot : Nat) : Winds w (w.closeIters slot) := by
  unfold Work.closeIters
  dsimp only
  refine (landT w slot).trans ?_
  split
  · exact refl _
  · next g _ =>
    refine foldl (fun w t => ?_) _ _
    refine then_grp (closeIter ..) slot fun g => ?_
    split <;> rfl

/-! #### Threads -/

theorem joinExit (w : Work) (blk tno : Nat) : Winds w (w.joinExit blk tno) := by
  have horphan : ∀ (v : Work) (ls : List Nat), Winds v (v.orphan blk ls) := fun v ls => by
    unfold Work.orphan
    refine foldl (fun v t => updGrp v _ fun g l _ h => ?_) ls v
    rw [Group.thread_updThread]
    split
    · next hl => rw [← hl, h]; exact h
    · exact h
  unfold Work.joinExit
  refine foldl (fun w j => ?_) _ w
  split
  · exact refl w
  · dsimp only
    split
    · refine trans ?_ (horphan ..)
      exact updBlk w blk fun _ => rfl
    · exact refl w

theorem groupGone (w : Work) (slot : Nat) : Winds w (w.groupGone slot) := by
  unfold Work.groupGone
  split
  · exact refl w
  · split
    · refine trans ?_ (checkAllBars _ slot)
      refine then_blk ?_ _ fun _ => rfl
      exact then_grp (closeIters w slot) slot fun _ => rfl
    · exact refl w

end Winds

theorem endThread_thread (g : Group) (l k : Nat) : ((g.endThread l).thread k).st = if k = l then .exited else (g.thread k).st := by
  unfold Group.endThread
  rw [Group.thread_updThread]
  split
  · rfl
  · rfl

theorem endThreads_thread (ls : List Nat) (g : Group) (k : Nat) :
    ((ls.foldl Group.endThread g).thread k).st = if k ∈ ls then .exited else (g.thread k).st := by
  induction ls generalizing g with
  | nil => rfl
  | cons l ls ih =>
    rw [List.foldl_cons, ih, endThread_thread]
    by_cases h : k ∈ ls
    · rw [if_pos h, if_pos (List.mem_cons_of_mem _ h)]
    · by_cases hl : k = l
      · rw [if_neg h, if_pos hl, if_pos (hl ▸ List.mem_cons_self)]
      · rw [if_neg h, if_neg hl, if_neg (by simp [h, hl])]

/-- A thread that has exited takes no part in a meeting. -/
theorem meetings_exited {g : Group} {k : Nat} (hk : k < 32) (h : (g.thread k).st = .exited) : (g.meetings.thread k).st = .exited := by
  have hs : (g.thread k).stands = false := by unfold Thread.stands; simp [h]
  rw [meetings_thread_eq g hk, show g.cohortMet k = false by unfold Group.cohortMet; rw [hs]; rfl, if_neg Bool.false_ne_true,
    Thread.arrived_st, hs, if_neg Bool.false_ne_true, h]

theorem Winds.exitLanes (w : Work) (slot : Nat) (ls : List Nat) : Winds w (w.exitLanes slot ls) := by
  unfold Work.exitLanes
  split
  · exact refl w
  · next g _ =>
    refine trans (trans ?_ (foldl (fun w l => joinExit w g.blk (32 * g.gidx + l)) ls _)) (groupGone ..)
    refine updGrp w slot fun g l hl h => meetings_exited hl ?_
    rw [endThreads_thread]
    split
    · rfl
    · exact h

/-- All lanes of a group exit. -/
theorem exitLanes_gone {w : Work} {slot : Nat} {g : Group} (hg : w.grp? slot = some g) {ls : List Nat}
    (hls : ∀ l < 32, l ∉ ls → (g.thread l).st = .exited) {l : Nat} (hl : l < 32) : (w.exitLanes slot ls).Gone slot l := by
  have h1 : (w.updGrp slot fun g => (ls.foldl Group.endThread g).meetings).Gone slot l := by
    unfold Work.Gone
    rw [Work.grp?_updGrp, if_pos rfl, hg, Option.map_some, Option.getD_some]
    refine meetings_exited hl ?_
    rw [endThreads_thread]
    by_cases h : l ∈ ls
    · rw [if_pos h]
    · rw [if_neg h]
      exact hls l hl h
  unfold Work.exitLanes
  rw [hg]
  exact ((Winds.foldl (fun w l => Winds.joinExit w g.blk (32 * g.gidx + l)) ls _).trans (Winds.groupGone ..)).gone slot l hl h1

/-! ### Blocks end (R84, R346) -/

/-- One of the slots of a block ends. -/
def endSlot (w : Work) (q : Nat) : Work :=
  match w.grp? q with
  | none => w
  | some g => (w.updGrp q fun g => { g with hmix := none, pendFault := none, append := [] }).exitLanes q g.live

theorem endSlot_winds (w : Work) (q : Nat) : Winds w (endSlot w q) := by
  unfold endSlot
  split
  · exact Winds.refl w
  · refine Winds.trans ?_ (Winds.exitLanes ..)
    exact Winds.updGrp_thr w q fun _ => rfl

theorem not_live {g : Group} {l : Nat} (hl : l < 32) (h : l ∉ g.live) : (g.thread l).st = .exited := by
  unfold Group.live Group.lanesWith at h
  simpa [Thread.alive, hl] using h

theorem endSlot_gone (w : Work) (q : Nat) {l : Nat} (hl : l < 32) : (endSlot w q).Gone q l := by
  unfold endSlot
  cases hg : w.grp? q with
  | none =>
    unfold Work.Gone
    rw [hg]
    rfl
  | some g =>
    refine exitLanes_gone (g := { g with hmix := none, pendFault := none, append := [] }) ?_ (fun l hl h => not_live hl h) hl
    rw [Work.grp?_updGrp, if_pos rfl, hg]
    rfl

theorem endSlots_gone {qs : List Nat} (w : Work) {q l : Nat} (hq : q ∈ qs) (hl : l < 32) : (qs.foldl endSlot w).Gone q l := by
  induction qs generalizing w with
  | nil => exact absurd hq List.not_mem_nil
  | cons a qs ih =>
    rcases List.mem_cons.mp hq with rfl | h
    · exact (Winds.foldl endSlot_winds qs _).gone _ l hl (endSlot_gone w _ hl)
    · exact ih _ h

theorem endBlk_eq {w : Work} {k : Nat} {b : Block} (h : w.blk? k = some b) (code : Nat) :
    w.endBlk k code = ((b.slots k).foldl endSlot w).setStatus b.launch code := by
  unfold Work.endBlk
  rw [h]
  rfl

theorem endBlk_winds (w : Work) (k code : Nat) : Winds w (w.endBlk k code) := by
  cases h : w.blk? k with
  | none => unfold Work.endBlk; rw [h]; exact Winds.refl w
  | some b =>
    rw [endBlk_eq h]
    exact (Winds.foldl endSlot_winds _ w).trans (Winds.setStatus ..)

theorem endOne_after (w : Work) (k : Nat) : Winds (w.endBlk k cBLOCK_ENDED) (w.endOne k) := by
  have h : Winds (w.endBlk k cBLOCK_ENDED) ((w.endBlk k cBLOCK_ENDED).updBlk k fun b => { b with preq := none }) :=
    Winds.updBlk _ k fun _ => rfl
  unfold Work.endOne
  dsimp only
  split
  · unfold Work.setPstat
    exact h.then_core ..
  · exact h

theorem endOne_winds (w : Work) (k : Nat) : Winds w (w.endOne k) := (endBlk_winds ..).trans (endOne_after ..)

/-- Every thread of a block that ends has exited. -/
theorem endOne_gone {w : Work} {k : Nat} {b : Block} (h : w.blk? k = some b) {q l : Nat} (hq : q ∈ b.slots k) (hl : l < 32) :
    (w.endOne k).Gone q l := by
  refine (endOne_after w k).gone q l hl ?_
  rw [endBlk_eq h]
  exact (Winds.setStatus ..).gone q l hl (endSlots_gone w hq hl)

theorem endOnes_gone {ks : List Nat} {w : Work} {k : Nat} {b : Block} (hk : k ∈ ks) (h : w.blk? k = some b) {q l : Nat}
    (hq : q ∈ b.slots k) (hl : l < 32) : (ks.foldl (fun w k => w.endOne k) w).Gone q l := by
  induction ks generalizing w b with
  | nil => exact absurd hk List.not_mem_nil
  | cons a ks ih =>
    rcases List.mem_cons.mp hk with rfl | hk'
    · exact (Winds.foldl endOne_winds ks _).gone q l hl (endOne_gone h hq hl)
    · have hb := (endOne_winds w a).blk k
      rw [h] at hb
      obtain ⟨b', hb', e⟩ := Option.map_eq_some_iff.mp hb
      have hg : b'.gcnt = b.gcnt := congrArg Prod.snd e
      refine ih hk' hb' ?_
      rw [Block.mem_slots] at hq ⊢
      rwa [hg]

/-! ### A launch ends (END_LAUNCH) -/

/-- The blocks of a launch that were never created. -/
def neverCreated (ln : Launch) : List Nat := (List.range ln.rec_.nblk).filter fun i => !ln.created.contains i

/-- A launch that creates no block any more; those never created count as retired. -/
def Launch.over (ln : Launch) (l : Launch) : Launch :=
  { l with
    created := l.created ++ neverCreated ln
    retired := l.retired ++ neverCreated ln
    ending := true
    status := if l.status = 0 then cBLOCK_ENDED else l.status }

/-- The launch is over, and the bits of its blocks never created are set. -/
def overLaunch (w : Work) (id : Nat) (ln : Launch) : Work :=
  ((neverCreated ln).foldl (fun w i => w.setBit ln i []) w).withLaunches fun m => supd m id (Launch.over ln)

/-- Its blocks end, and their tickets are free. -/
def endBlocks (w : Work) (ks : List Nat) : Work :=
  (ks.foldl (fun w k => w.endOne k) w).updPkg fun p => { p with tickets := p.tickets.filter fun t => !ks.contains t.key }

/-- Its pod barriers are looked at again. -/
def lookPod (w : Work) (ln : Launch) : Work := if ln.pbid = 0 then w else w.checkPodBar ln.pbid ln.pbsys

theorem endLaunch_eq {w : Work} {id : Nat} {ln : Launch} (h : sget? w.d.launches id = some ln) : w.endLaunch id =
    (lookPod (endBlocks (overLaunch w id ln) ((overLaunch w id ln).launchBlocks id)) ln).finishLaunch id := by
  unfold Work.endLaunch
  rw [h]
  rfl

theorem overLaunch_nothing {ln : Launch} (h : ∀ i < ln.rec_.nblk, i ∈ ln.created) (w : Work) (id : Nat) :
    neverCreated ln = [] ∧ (overLaunch w id ln).log = w.log := by
  have h0 : neverCreated ln = [] := by
    unfold neverCreated
    rw [List.filter_eq_nil_iff]
    intro i hi
    simpa using h i (List.mem_range.mp hi)
  refine ⟨h0, ?_⟩
  unfold overLaunch
  rw [h0]
  rfl

theorem over_created (ln : Launch) {i : Nat} (hi : i < ln.rec_.nblk) : i ∈ (ln.over ln).created := by
  show i ∈ ln.created ++ neverCreated ln
  unfold neverCreated
  rw [List.mem_append, List.mem_filter, List.mem_range]
  by_cases h : i ∈ ln.created
  · exact .inl h
  · exact .inr ⟨hi, by simpa using h⟩

theorem over_status (ln : Launch) : (ln.over ln).status ≠ 0 := by
  show (if ln.status = 0 then cBLOCK_ENDED else ln.status) ≠ 0
  split
  · decide
  · assumption

theorem mem_launchBlocks {w : Work} {id k : Nat} {b : Block} (h : w.blk? k = some b) (hb : b.launch = id) :
    k ∈ w.launchBlocks id := by
  unfold Work.launchBlocks
  exact List.mem_map.mpr ⟨(k, b), List.mem_filter.mpr ⟨mem_of_sget? h, by simpa using hb⟩, rfl⟩

/-- What the end of a launch leaves before it is looked whether its last block has retired. -/
structure Over (s : State) (id : Nat) (ln : Launch) (w : Work) : Prop where
  log : (∀ i < ln.rec_.nblk, i ∈ ln.created) → w.log = []
  launch : ∃ ln', sget? w.d.launches id = some ln' ∧ ln'.still = (ln.over ln).still
  gone : ∀ k b, sget? s.d.blocks k = some b → b.launch = id → ∀ q ∈ b.slots k, ∀ l < 32, w.Gone q l
  tickets : ∀ tk ∈ w.d.pkg.tickets, tk ∈ s.d.pkg.tickets ∧ ∀ b, sget? s.d.blocks tk.key = some b → b.launch ≠ id

theorem lookPod_winds (w : Work) (ln : Launch) : Winds w (lookPod w ln) := by
  unfold lookPod
  split
  · exact Winds.refl w
  · exact Winds.checkPodBar ..

theorem endLaunch_over {s : State} {id : Nat} {ln : Launch} (h : sget? s.d.launches id = some ln) : Over s id ln
    (lookPod (endBlocks (overLaunch (begin_ s) id ln) ((overLaunch (begin_ s) id ln).launchBlocks id)) ln) := by
  have hrest : SameRest (begin_ s) ((neverCreated ln).foldl (fun w i => w.setBit ln i []) (begin_ s)) :=
    SameRest.foldl _ (fun w i => setBit_rest w ln i []) _ _
  have hlog := fun hc => (overLaunch_nothing (ln := ln) hc (begin_ s) id).2
  have hln : sget? (overLaunch (begin_ s) id ln).d.launches id = some (ln.over ln) := by
    show sget? (supd (Dev.launches (Work.d _)) id _) id = _
    rw [hrest.launches, sget?_supd, if_pos rfl, show sget? (begin_ s).d.launches id = some ln from h]
    rfl
  have hblk : ∀ k, (overLaunch (begin_ s) id ln).blk? k = sget? s.d.blocks k := fun k =>
    congrArg (sget? · k) (show (overLaunch (begin_ s) id ln).d.blocks = s.d.blocks from hrest.blocks)
  have htk : (overLaunch (begin_ s) id ln).d.pkg.tickets = s.d.pkg.tickets :=
    hrest.onDev (fun d => d.pkg.tickets) fun _ => rfl
  generalize overLaunch (begin_ s) id ln = w at hlog hln hblk htk ⊢
  have h1 : Winds w ((w.launchBlocks id).foldl (fun w k => w.endOne k) w) := Winds.foldl endOne_winds _ w
  have h2 := lookPod_winds (endBlocks w (w.launchBlocks id)) ln
  have h3 : ∀ k b, sget? s.d.blocks k = some b → b.launch = id → k ∈ w.launchBlocks id := fun k b hb hl =>
    mem_launchBlocks ((hblk k).trans hb) hl
  refine ⟨fun hc => (h2.log.trans h1.log).trans (hlog hc), ?_, fun k b hb hl q hq l hl32 => ?_, fun tk htk' => ?_⟩
  · obtain ⟨l1, e1, s1⟩ := h1.launch id _ hln (over_status ln)
    obtain ⟨l2, e2, s2⟩ := h2.launch id l1 e1 (by rw [still_status s1]; exact over_status ln)
    exact ⟨l2, e2, s2.trans s1⟩
  · exact h2.gone q l hl32 (endOnes_gone (h3 k b hb hl) ((hblk k).trans hb) hq hl32)
  · rw [h2.tickets] at htk'
    have hf : tk ∈ ((w.launchBlocks id).foldl (fun w k => w.endOne k) w).d.pkg.tickets.filter
      fun t => !(w.launchBlocks id).contains t.key := htk'
    rw [h1.tickets, htk, List.mem_filter] at hf
    refine ⟨hf.1, fun b hb hl => ?_⟩
    simpa [h3 tk.key b hb hl] using hf.2

theorem freePod_pkg (w : Work) (pbid : Nat) (sys : Bool) :
    (w.freePod pbid sys).d.groups = w.d.groups ∧ (w.freePod pbid sys).d.pkg.tickets = w.d.pkg.tickets ∧
      (w.freePod pbid sys).d.launches = w.d.launches := by
  unfold Work.freePod
  split
  · exact ⟨rfl, rfl, rfl⟩
  · split <;> exact ⟨rfl, rfl, rfl⟩

theorem dropLaunch_keeps (w : Work) (id : Nat) (ln : Launch) : (dropLaunch w id ln).d.groups = w.d.groups ∧
    (dropLaunch w id ln).d.pkg.tickets = w.d.pkg.tickets ∧ sget? (dropLaunch w id ln).d.launches id = none := by
  unfold dropLaunch
  split
  · exact ⟨rfl, rfl, sget?_sdel_same ..⟩
  · obtain ⟨hg, ht, hl⟩ := freePod_pkg (w.withLaunches fun m => sdel m id) ln.pbid ln.pbsys
    exact ⟨hg, ht, by rw [hl]; exact sget?_sdel_same ..⟩

/-- A launch all of whose blocks count as retired is gone; groups and tickets stay. -/
theorem finishLaunch_drops {w : Work} {id : Nat} {ln : Launch} (h : sget? w.d.launches id = some ln)
    (hn : ln.rec_.nblk ≤ ln.retired.length) : (w.finishLaunch id).d.groups = w.d.groups ∧
      (w.finishLaunch id).d.pkg.tickets = w.d.pkg.tickets ∧ sget? (w.finishLaunch id).d.launches id = none := by
  refine finishLaunch_of_onPlace (fun F => (F w id).d.groups = w.d.groups ∧ (F w id).d.pkg.tickets = w.d.pkg.tickets ∧
    sget? (F w id).d.launches id = none) ?_
  beta_reduce
  rw [h]
  dsimp only [Option.elim]
  rw [if_neg (Nat.not_lt.mpr hn)]
  have hrest : SameRest w (onPlace (lastHeader w ln) w (w.complPa ln 0)) := by
    cases w.complPa ln 0 with
    | none => exact SameRest.refl w
    | some pa => exact lastHeader_rest w ln pa
  obtain ⟨hg, ht, hl⟩ := dropLaunch_keeps (onPlace (lastHeader w ln) w (w.complPa ln 0)) id ln
  exact ⟨hg.trans hrest.groups, ht.trans (hrest.onDev (fun d => d.pkg.tickets) fun _ => rfl), hl⟩

section EndLaunch

variable {s : State} {core id : Nat} {c : Cmd} {ln : Launch}

theorem exec_endLaunch (hc : PcmdAt s core 7 c) (hat : (begin_ s).launchAt c.arg = some id) (hln : sget? s.d.launches id = some ln)
    (h0 : ((begin_ s).complPa ln 0).isSome = true)
    (hpages : ∀ i ≤ ln.rec_.nblk / 512, ((begin_ s).complPa ln (64 + 64 * i)).isSome = true) :
    exec (.endLaunch core) s = .next (commit s.mem (((begin_ s).endLaunch id).endCmd core c.id true)) := by
  refine congrArg (fun w => Host.Outcome.next (commit s.mem w)) ?_
  dsimp only
  rw [show (begin_ s).pcmd? core 7 = some c from hc]
  dsimp only
  rw [hat]
  dsimp only
  rw [show sget? (begin_ s).d.launches id = some ln from hln]
  refine if_pos ?_
  dsimp only
  rw [h0, Bool.true_and, List.all_eq_true]
  exact fun i hi => hpages i (Nat.le_of_lt_succ (List.mem_range.mp hi))

theorem pcmdIs_endCmd (m : Memory) (w : Work) (core id : Nat) : PcmdIs (commit m (w.endCmd core id true)) core id .done := by
  unfold PcmdIs Work.endCmd
  rw [commit_d, Work.core_updCore, if_pos rfl]
  intro c hc hid
  obtain ⟨c', -, rfl⟩ := List.mem_map.mp hc
  by_cases h : c'.id = id
  · rw [if_pos h]
    rfl
  · rw [if_neg h] at hid
    exact absurd hid h

/-- Ending a launch ends its blocks (END_LAUNCH). -/
theorem endLaunch_ends (hc : PcmdAt s core 7 c) (hat : (begin_ s).launchAt c.arg = some id) (hln : sget? s.d.launches id = some ln)
    (h0 : ((begin_ s).complPa ln 0).isSome = true)
    (hpages : ∀ i ≤ ln.rec_.nblk / 512, ((begin_ s).complPa ln (64 + 64 * i)).isSome = true) :
    Ends (.endLaunch core) s fun t => PcmdIs t core c.id .done ∧
      ((∀ i < ln.rec_.nblk, i ∈ ln.created) → ln.retired.length < ln.rec_.nblk → SameMem s t) ∧
      (∀ ln', sget? t.d.launches id = some ln' → ln'.ending = true ∧
        ln'.status = (if ln.status = 0 then cBLOCK_ENDED else ln.status) ∧ ∀ i < ln.rec_.nblk, i ∈ ln'.created) ∧
      (∀ k b, sget? s.d.blocks k = some b → b.launch = id → Ended t k b) ∧
      ∀ tk ∈ t.d.pkg.tickets, tk ∈ s.d.pkg.tickets ∧ ∀ b, sget? s.d.blocks tk.key = some b → b.launch ≠ id := by
  have hex := exec_endLaunch hc hat hln h0 hpages
  rw [endLaunch_eq (w := begin_ s) hln] at hex
  obtain ⟨log, ⟨ln', hln', hstill⟩, gone, tickets⟩ := endLaunch_over hln
  revert hex log gone tickets hln'
  generalize lookPod (endBlocks (overLaunch (begin_ s) id ln) ((overLaunch (begin_ s) id ln).launchBlocks id)) ln = w
  intro hex log gone tickets hln'
  have hover : ln'.ending = true ∧ ln'.status = (if ln.status = 0 then cBLOCK_ENDED else ln.status) ∧
      ∀ i < ln.rec_.nblk, i ∈ ln'.created := by
    refine ⟨?_, still_status hstill, fun i hi => ?_⟩
    · exact (congrArg Launch.ending hstill : ln'.still.ending = _)
    · rw [show ln'.created = (ln.over ln).created from (congrArg Launch.created hstill : ln'.still.created = _)]
      exact over_created ln hi
  have hnblk : ln'.rec_.nblk = ln.rec_.nblk := (congrArg (fun l : Launch => l.rec_.nblk) hstill : ln'.still.rec_.nblk = _)
  have hret : ln'.retired = ln.retired ++ neverCreated ln := (congrArg Launch.retired hstill : ln'.still.retired = _)
  have hdone := pcmdIs_endCmd s.mem (w.finishLaunch id) core c.id
  by_cases hn : ln'.retired.length < ln'.rec_.nblk
  · rw [finishLaunch_more hln' hn] at hex hdone
    refine ⟨_, hex, hdone, fun hcr _ => sameMem_of_log (log hcr), fun l hl => ?_, fun k b hb hl q hq l hl32 => gone k b hb hl q hq l hl32,
      tickets⟩
    rw [show l = ln' from Option.some.inj (hl.symm.trans hln')]
    exact hover
  · obtain ⟨hg, ht, hl⟩ := finishLaunch_drops hln' (Nat.le_of_not_lt hn)
    refine ⟨_, hex, hdone, fun hcr hlt => absurd ?_ hn, fun l hl' => ?_, fun k b hb hbl q hq l hl32 => ?_, fun tk htk => ?_⟩
    · rw [hnblk, hret, (overLaunch_nothing hcr (begin_ s) id).1, List.append_nil]
      exact hlt
    · rw [commit_d] at hl'
      exact absurd (hl'.symm.trans hl) (by simp)
    · unfold State.grp
      rw [commit_d]
      show ((Option.getD (sget? (w.finishLaunch id).d.groups q) Group.gone).thread l).st = .exited
      rw [hg]
      exact gone k b hb hbl q hq l hl32
    · rw [commit_d] at htk
      exact tickets tk (ht ▸ htk)

end EndLaunch

/-- Settles O57, clause by clause: a record is popped, a block is placed, a stagger ends, a block retires, a launch ends, and a
pending group takes its active place. -/
theorem launchesBlocks : Obligations.LaunchesBlocks := by
  unfold Obligations.LaunchesBlocks
  refine ⟨fun s q p head d i pa r => queuePop_ends, fun s id slot i is ln => blockPlace_ends, fun s k c b => staggerExpiry_ends,
    fun s k pa pa0 b ln => blockRetire_ends, fun s core id c ln => endLaunch_ends, fun s out in_ g => groupExchange_ends⟩

end Sys2Proof.Machine
end

section
/-! PROOFS. Special registers (O26): reading one into a destination, and the write of SRSEED. -/

namespace Sys2Proof.Machine

variable {s : State} {h : Hdr} {src dst : List Named} {x : List Nat} {d : Dst} {num : BitVec 10}

/-- A register that can be read is read into a destination of its width (R47, R188). -/
theorem dst_of_readOk {n : Nat} (hr : readOk d n = true) : dstPair d (regWide n) ∧ d ≠ .none ∧ (regInfo n).isSome = true := by
  unfold readOk at hr
  unfold regWide
  cases hi : regInfo n with
  | none => simp [hi] at hr
  | some i =>
    obtain ⟨w, r, wr⟩ := i
    simp only [hi, Bool.and_eq_true, Dst.intOk, Bool.or_eq_true, Bool.not_eq_true'] at hr ⊢
    obtain ⟨-, hnone, hpair⟩ := hr
    refine ⟨?_, fun hd => ?_, rfl⟩
    case refine_2 => subst hd; cases hnone
    cases d with
    | v n => exact fun hw => by simpa [hw, Dst.pairOk] using hpair
    | _ => trivial

/-- Below 0x40 only the fourteen registers of Table 2.4 have a number. -/
theorem user_number : ∀ n < 0x40, (regInfo n).isSome = true → n < 0x0E := by decide

theorem bool_toNat_ite (b : Bool) : BitVec.ofNat 64 b.toNat = if b then 1 else 0 := by cases b <;> rfl

/-- The user special registers, read as the effect of an instruction starts: the issue has changed of the group and its block
nothing that they give (Table 2.4). -/
theorem userReg_atIssue (hi : Issued s h src dst x) (ds : List Named) {n : Nat} (hn : n < 0x0E) (l : Nat) :
    (atIssue s ds).userReg l n = userVal s l n := by
  have hg : (startGroup s).core = s.here.core := startGroup_core
  have hb : (atIssue s ds).blk.core = s.myBlk.core := by rw [atIssue_blk ds hi, Block.take_core]
  simp only [Group.core, Group.mk.injEq, Block.core, Block.mk.injEq] at hg hb
  unfold Work.userReg userVal
  dsimp only
  rw [atIssue_g ds hi, startGroup_thread]
  have hnow : (atIssue s ds).d.now = s.d.now := rfl
  interval_cases n <;> simp [hg, hb, hnow, bool_toNat_ite]

/-- Reading a special register: its value is the destination's result. -/
theorem readSpecial_computes {i : Instr} {f : Nat → DWord}
    (he : exec i s = readSpecial s h d num.toNat) (hr : readOk d num.toNat = true)
    (hi : Issued s h [] (d.names (if regWide num.toNat then 2 else 1)) x)
    (hf : ∀ l, (atIssue s (d.names (if regWide num.toNat then 2 else 1))).specialReg l num.toNat = f l) :
    Computes i s x d (regWide num.toNat) true f := by
  obtain ⟨hp, hn, -⟩ := dst_of_readOk hr
  exact computes he hi hp hn (congrArg (fun f => Res.ok (Work.writeDst _ x d _ true f) []) (funext hf))

theorem specialReg_user (hi : Issued s h src dst x) (ds : List Named) {n : Nat} (hn : n < 0x40) (hr : readOk d n = true)
    (l : Nat) : (atIssue s ds).specialReg l n = userVal s l n :=
  (if_pos hn).trans (userReg_atIssue hi ds (user_number n hn (dst_of_readOk hr).2.2) l)

theorem specialReg_priv (hi : Issued s h src dst x) (ds : List Named) {n : Nat} (hn : 0x40 ≤ n) (l : Nat) :
    (atIssue s ds).specialReg l n = (begin_ s).privReg n :=
  (if_neg (Nat.not_lt.2 hn)).trans (privReg_congr (units_atIssue ds hi) n)

/-- A thread whose generator starts from an operand (R59). -/
def seeded (s : State) (a : Opnd) (l : Nat) (t : Thread) : Thread := { t with seed := s.op64 l a }

theorem writeSeed_eq (hi : Issued s h src dst x) (ds : List Named) (a : Opnd) :
    (atIssue s ds).writeSeed x a = (atIssue s ds).updG (onThreads x (seeded s a)) := by
  unfold Work.writeSeed onThreads
  simp only [List.foldl_map, atIssue_op64 ds hi]
  rfl

/-- Nothing of a thread but its generator follows from SRSEED. -/
theorem seeded_keeps (hi : Issued s h src dst x) (a : Opnd) {β : Type} (φ : Thread → β) (hφ : ∀ t y, φ { t with seed := y } = φ t)
    (l : Nat) : φ ((onThreads x (seeded s a) (startGroup s)).thread l) = φ (s.here.thread l) := by
  rw [onThreads_thread hi.lanes_nodup, startGroup_thread]
  split
  · exact hφ ..
  · rfl

/-- wrsp changes a thread's generator alone (R59, R213). -/
theorem wrsp_acts {a : Opnd} (hi : Issued s h (a.names 2) [] x) :
    Acts (.wrsp h 0x08 a) s id (fun l t => if l ∈ x then { t with seed := s.op64 l a } else t) id
      (fun _ => s.d.cur.next) s.ms := by
  have hn := hi.rise.imp Nat.ne_of_lt
  have hT : (fun l => if l ∈ x then seeded s a l else id) =
      fun l t => if l ∈ x then { t with seed := s.op64 l a } else t := by
    funext l t
    split <;> rfl
  obtain ⟨honly, hv, hs, hb, -⟩ := threads_after [] [] hi (seeded s a) (T := seeded s a) fun _ _ => rfl
  rw [hT] at honly
  refine ⟨afterG s [] (onThreads x (seeded s a)) [], issue_ok (body := fun w x => .ok (w.writeSeed x a) []) hi
    (congrArg (Res.ok · []) (writeSeed_eq hi [] a)), honly, afterG_stays hi (seeded_keeps hi a Thread.st fun _ _ => rfl)
    (seeded_keeps hi a Thread.pc fun _ _ => rfl), fun l => ?_, ⟨hv, hs, hb, fun l k => ?_⟩, fun l => ?_⟩
  · rw [State.ms, ← seeded_keeps hi a Thread.m (fun _ _ => rfl) l]
    exact afterG_meets [] [] _ hi l
  · rw [afterG_here [] [] _ hi, ends_thread_l _ _ _ _ hn]
    exact seeded_keeps hi a (fun t => t.readL k) (fun _ _ => rfl) l
  · rw [afterG_here [] [] _ hi, ends_thread_p _ _ _ _ hn]
    exact seeded_keeps hi a Thread.p (fun _ _ => rfl) l

/-- Settles O26: what the issue has changed of the units that the registers lie in is nothing they give (`userReg_atIssue`,
`units_atIssue`), and a read is one result per executing lane. -/
theorem specialRegisters : Obligations.SpecialRegisters := by
  unfold Obligations.SpecialRegisters
  intro s h x d num a n
  refine ⟨fun hn ⟨hwf, hr⟩ => ?_, fun hn ⟨hwf, hr⟩ => ?_, fun hn ⟨hwf, hr⟩ => ?_, fun hn ⟨hwf, hr⟩ => ?_,
    fun ⟨_, hr⟩ => wrsp_acts (issued_of hr)⟩
  all_goals
    simp only [Instr.wf, Bool.and_eq_true] at hwf
    have hi := issued_of hr
  · exact readSpecial_computes rfl hwf.2 hi (specialReg_user hi _ hn hwf.2)
  · exact readSpecial_computes rfl hwf.2 hi (specialReg_priv hi _ hn)
  · exact readSpecial_computes rfl hwf.2 hi (specialReg_priv hi _ hn)
  · exact readSpecial_computes rfl hwf.2 hi (specialReg_user hi _ hn hwf.2)

end Sys2Proof.Machine
end

section
/-! PROOFS. Results land, and weak loads take their home's bytes (O29): the group that a result is written to, what a load waits
for, and what taking its value from the home changes. -/

namespace Sys2Proof.Machine

/-! ### Numbers read as bytes (R8) -/

/-- The bytes from a key on, as a number, are what is loaded there. -/
theorem bytesNat_load (w : Work) (k n : Nat) : bytesNat ((List.range n).map fun i => w.byte (k + i)) = w.load k n := by
  induction n generalizing k with
  | zero => rfl
  | succ n ih =>
    rw [Work.load, ← ih, List.range_succ_eq_map, List.map_cons, List.map_map]
    exact congrArg (fun l => (w.byte k).toNat + 256 * bytesNat l) (List.map_congr_left fun i _ => congrArg w.byte (by omega))

/-- Bytes that do not ride the Carousel are read where they lie (R117). -/
theorem physByte_still {w : Work} {k : Nat} (h : w.d.rideOf k = none) : w.physByte k = w.byte k := by
  unfold Work.physByte
  rw [h]
  exact ite_self _

/-! ### A known value lands (R177) -/

section Ready

variable {s : State} {slot k : Nat} {src : LoadSrc} {g : Group} {e : Owed} {ws : List Word}

theorem exec_resultLand (s : State) (slot k : Nat) (src : LoadSrc) :
    exec (.resultLand slot k src) s = execResultLand slot k src s := rfl

theorem landOk_of (hw : ∀ p ∈ e.wins, p.2 = 0) (hl : ∀ o ∈ g.owed, e.id < o.id → ∀ r ∈ e.dst, r ∉ o.dst) :
    landOk g e = true := by
  simp only [landOk, Bool.and_eq_true, List.all_eq_true, beq_iff_eq, Bool.not_eq_true', List.any_eq_false,
    decide_eq_true_eq, List.any_eq_true, List.contains_iff_mem, not_and]
  exact ⟨hw, fun o ho hid ⟨r, hr, he⟩ => hl o ho hid r he hr⟩

/-- A group to which a result is owed no longer. -/
def Group.drops (id : Nat) (g : Group) : Group := { g with owed := g.owed.filter fun o => o.id != id }

/-- A result of the group in a slot has landed: it is owed no longer, `P` holds of the group, and nothing but registers has
changed. -/
def Landed (s : State) (slot : Nat) (g : Group) (e : Owed) (P : Group → Prop) (t : State) : Prop :=
  SameMem s t ∧ (∀ j, j ≠ slot → t.slot? j = s.slot? j) ∧ t.d.cores = s.d.cores ∧ t.d.dies = s.d.dies ∧
    ∃ g', t.slot? slot = some g' ∧ g'.owed = (g.owed.filter fun o => o.id != e.id) ∧ g'.thr = g.thr ∧ P g'

/-- A known result that may land, written by a change `G` of the group's registers. -/
theorem land_ends {P : Group → Prop} {G : Group → Group} (hg : s.slot? slot = some g) (hk : g.owed[k]? = some e)
    (hok : landOk g e = true) (hp : e.pay = .ready ws) (hG : (begin_ s).writeRegs slot e.dst ws = (begin_ s).updGrp slot G)
    (ho : (G g).owed = g.owed) (ht : (G g).thr = g.thr) (hP : P ((G g).drops e.id)) :
    Ends (.resultLand slot k src) s (Landed s slot g e P) := by
  have hgrp : (begin_ s).grp? slot = some g := hg
  have hw : ∀ j, ((((begin_ s).updGrp slot G).updGrp slot (Group.drops e.id)).grp? j) =
      if j = slot then some ((G g).drops e.id) else (begin_ s).grp? j := fun j => by
    rw [updGrp_updGrp, Work.grp?_updGrp, hgrp]
    rfl
  refine ⟨commit s.mem (((begin_ s).updGrp slot G).updGrp slot (Group.drops e.id)), ?_, fun a => rfl,
    fun j hj => (hw j).trans (if_neg hj), rfl, rfl, (G g).drops e.id, (hw slot).trans (if_pos rfl),
    congrArg (List.filter _) ho, ht, hP⟩
  rw [exec_resultLand]
  unfold execResultLand device
  simp only [hgrp, Option.bind_some, hk, hp, Option.getD_some, hok, hG, ↓reduceIte]
  rfl

theorem land_v {l n : Nat} {w : Word} (hg : s.slot? slot = some g) (hk : g.owed[k]? = some e) (hok : landOk g e = true)
    (hn : n < 256) (hd : e.dst = [.v l n]) (hp : e.pay = .ready [w]) :
    Ends (.resultLand slot k src) s (Landed s slot g e fun g' => g'.readV l n = w ∧ g'.sreg = g.sreg ∧
      ∀ l' m, m < 256 → ¬(l' = l ∧ m = n) → g'.readV l' m = g.readV l' m) := by
  have hread : ∀ l' m, ((g.writeV l n w).drops e.id).readV l' m = if 256 * l' + m = 256 * l + n then w else g.readV l' m :=
    fun l' m => g.readV_writeV l n l' m w
  exact land_ends (G := fun g => g.writeV l n w) hg hk hok hp (by rw [hd]; rfl) rfl rfl
    ⟨(hread l n).trans (if_pos rfl), rfl, fun l' m hm hne => (hread l' m).trans (if_neg (by omega))⟩

theorem land_s {n : Nat} {lo hi : Word} (hg : s.slot? slot = some g) (hk : g.owed[k]? = some e) (hok : landOk g e = true)
    (hd : e.dst = [.s n]) (hp : e.pay = .ready [lo, hi]) :
    Ends (.resultLand slot k src) s (Landed s slot g e fun g' => g'.readS n = hi ++ lo ∧ g'.v = g.v ∧
      ∀ m, m ≠ n → g'.readS m = g.readS m) := by
  have hread : ∀ m, ((g.writeS n (hi ++ lo)).drops e.id).readS m = if m = n then hi ++ lo else g.readS m :=
    fun m => g.readS_writeS n m _
  exact land_ends (G := fun g => g.writeS n (hi ++ lo)) hg hk hok hp (by rw [hd]; rfl) rfl rfl
    ⟨(hread n).trans (if_pos rfl), rfl, fun m hm => (hread m).trans (if_neg hm)⟩

end Ready

/-! ### What taking a value from the home changes -/

theorem fill_rest (w : Work) (core pa lease : Nat) : SameRest w (w.fill core pa lease) := by
  unfold Work.fill
  dsimp only
  split
  · split
    · split
      · exact .refl w
      · exact ⟨rfl, rfl⟩
    · split
      · exact .refl w
      · exact .updCore ..
  · exact .refl w

theorem fill_log (w : Work) (core pa lease : Nat) : (w.fill core pa lease).log = w.log := by
  unfold Work.fill
  dsimp only
  split
  · split <;> split <;> rfl
  · rfl

theorem homeTouch_rest (w : Work) (pa : Nat) : SameRest w (w.homeTouch pa) := by
  unfold Work.homeTouch
  split
  · exact .updDie ..
  · exact .refl w

theorem homeTouch_log (w : Work) (pa : Nat) : (w.homeTouch pa).log = w.log := by
  unfold Work.homeTouch
  split <;> rfl

/-- A fold of changes that write nothing writes nothing. -/
theorem foldl_log {α : Type} {f : Work → α → Work} (hf : ∀ w a, (f w a).log = w.log) (l : List α) (w : Work) :
    (l.foldl f w).log = w.log := by
  induction l generalizing w with
  | nil => rfl
  | cons a l ih => exact (ih _).trans (hf w a)

/-- A load that takes its value at its home fills copies and marks slots, and does no more. -/
theorem fromSrc_home (w : Work) (slot id : Nat) (p : LoadP) :
    SameRest w (w.fromSrc slot id p .home) ∧ (w.fromSrc slot id p .home).log = w.log := by
  have htouch := SameRest.foldl (fun w (q : Nat × Nat) => w.homeTouch q.1) (fun w q => homeTouch_rest w q.1) p.pieces w
  have hlog := foldl_log (f := fun w (q : Nat × Nat) => w.homeTouch q.1) (fun w q => homeTouch_log w q.1) p.pieces w
  unfold Work.fromSrc
  dsimp only
  split
  · refine ⟨htouch.trans (SameRest.foldl _ (fun w q => ?_) _ _), (foldl_log (fun w q => ?_) _ _).trans hlog⟩
    · split
      · exact fill_rest ..
      · exact .refl w
    · split
      · exact fill_log ..
      · rfl
  · exact ⟨htouch, hlog⟩

/-! ### A weak load takes its home's bytes (R86) -/

section Home

variable {s : State} {slot k : Nat} {g : Group} {e : Owed} {p : LoadP} {d : Nat}

theorem pieces_one (hm : p.more = []) : p.pieces = [(p.pa, p.n)] := by unfold LoadP.pieces; rw [hm]; rfl

theorem keys_one (hm : p.more = []) : p.keys = (List.range p.n).map (p.pa + ·) := by
  unfold LoadP.keys
  rw [pieces_one hm, List.flatMap_singleton]

/-- The home's bytes, as the load reads them. -/
theorem homeBytes_eq (hm : p.more = []) (hr : NoRide s p.pa p.n) :
    bytesNat (p.keys.map (begin_ s).physByte) = (begin_ s).load p.pa p.n := by
  rw [keys_one hm, List.map_map, ← bytesNat_load]
  exact congrArg bytesNat (List.map_congr_left fun i hi => physByte_still (hr i (List.mem_range.mp hi)))

/-- No access of its thread to its bytes comes before the load (R95). -/
theorem olderSame_none (hg : s.slot? slot = some g) (hm : p.more = [])
    (ho : ∀ o ∈ g.owed, ∀ q, o.pay = .load q → o.id < e.id → q.lane = p.lane → ∀ r ∈ q.pieces, p.meets r.1 r.2 = false)
    (hq : ∀ d ∈ s.d.dies, ∀ o ∈ d.2.ringQ, o.slot ≠ some slot) (hp : s.path (slotCore slot) = []) :
    (begin_ s).olderSame slot e.id p = false := by
  have hpath : ((begin_ s).d.core (slotCore slot)).path = [] := hp
  have hgrp : (begin_ s).grp? slot = some g := hg
  have hload : (begin_ s).loadBefore slot [p.lane] e.id p.pieces = false := by
    unfold Work.loadBefore
    rw [hgrp, Option.getD_some, List.any_eq_false]
    intro o hmem hb
    split at hb
    · next q hpay =>
      simp only [List.contains_iff_mem, List.mem_singleton, Bool.and_eq_true, decide_eq_true_eq, List.any_eq_true] at hb
      obtain ⟨⟨hlane, hid⟩, b, hb, hmeet⟩ := hb
      rw [pieces_one hm, List.mem_singleton] at hb
      subst hb
      simp only [LoadP.meets, List.any_eq_true] at hmeet
      obtain ⟨r, hr, hover⟩ := hmeet
      have hno := ho o hmem q hpay hid hlane r hr
      simp only [LoadP.meets, pieces_one hm, List.any_cons, List.any_nil, Bool.or_false] at hno
      simp only [overlap, Bool.and_eq_true, decide_eq_true_eq] at hover
      simp only [overlap, Bool.and_eq_false_iff, decide_eq_false_iff_not] at hno
      omega
    · cases hb
  have hring : ∀ pa, (begin_ s).ringBefore slot p.lane pa e.id = false := fun pa => by
    unfold Work.ringBefore
    rw [List.any_eq_false]
    intro d hd hb
    simp only [List.any_eq_true, Bool.and_eq_true, beq_iff_eq] at hb
    obtain ⟨o, hmem, ⟨⟨hslot, -⟩, -⟩, -⟩ := hb
    exact hq d hd o hmem hslot
  unfold Work.olderSame
  rw [hload, hpath, pieces_one hm]
  simp [hring]

/-- The value of a weak load whose home is ready and free. -/
theorem loadValue_home (hm : p.more = []) (hs : p.strong = false) (hn : 0 < p.n) (hold : (begin_ s).olderSame slot e.id p = false)
    (hp : s.path (slotCore slot) = [])
    (hl : (begin_ s).lateBefore [(p.pa, p.n)] false ((begin_ s).agentOf slot) none e.id p.passed = false)
    (hup : homeUp s.d p.pa = true) (hr : NoRide s p.pa p.n) :
    (begin_ s).loadValue slot e.id p .home = some ((begin_ s).load p.pa p.n) := by
  have hpath : ((begin_ s).d.core (slotCore slot)).path = [] := hp
  have hclear : (begin_ s).loadClear slot e.id p = true := by
    unfold Work.loadClear
    rw [hold, hs, pieces_one hm]
    simp [hl]
  have hwaits : (begin_ s).pathWaits slot e.id p = false := by unfold Work.pathWaits; rw [hpath]; rfl
  have hseen : (begin_ s).seen slot e.id p = [] := by unfold Work.seen; rw [hpath]; rfl
  have hgate : (begin_ s).gateNow p.pa = true := by
    have hride : (begin_ s).d.rideOf p.pa = none := hr 0 hn
    unfold Work.gateNow
    rw [hride]
    exact (Bool.and_true _).trans hup
  unfold Work.loadValue
  simp [hclear, hs, hwaits, hseen, hgate, pieces_one hm, pathByte, homeBytes_eq hm hr]

/-- A weak load's value from the home: what the group is owed, and nothing else of groups and memory, changes. -/
theorem fixLoad_home (hs : p.strong = false) (ha : p.acq = false) (x : Nat) :
    ((begin_ s).fixLoad slot e.id p .home x).log = [] ∧
      ∀ j, ((begin_ s).fixLoad slot e.id p .home x).grp? j = if j = slot then (s.slot? slot).map fun g =>
        { g with owed := g.owed.map fun o => if o.id = e.id then { o with pay := .ready (valWords p.wide p.n p.ext x) } else o }
        else s.slot? j := by
  obtain ⟨hrest, hlog⟩ := fromSrc_home (begin_ s) slot e.id p
  have hgrp : ∀ j, ((begin_ s).fromSrc slot e.id p .home).grp? j = s.slot? j := fun j =>
    congrArg (sget? · j) hrest.groups
  unfold Work.fixLoad Work.deliver
  simp only [hs, ha, Bool.false_eq_true, ↓reduceIte]
  exact ⟨hlog, fun j => by rw [Work.grp?_updGrp, hgrp, hgrp]⟩

theorem exec_loadHome {x : Nat} (hg : s.slot? slot = some g) (hk : g.owed[k]? = some e) (hpay : e.pay = .load p)
    (hm : p.more = []) (hd : homeOf s.d p.pa = .die d) (hfail : homeFailed s.d p.pa = false)
    (hpoison : (begin_ s).poisoned p.pa = false) (hx : (begin_ s).loadValue slot e.id p .home = some x) :
    exec (.resultLand slot k .home) s = .next (commit s.mem ((begin_ s).fixLoad slot e.id p .home x)) := by
  have hgrp : (begin_ s).grp? slot = some g := hg
  have hdead : (p.pieces.any fun q => (begin_ s).deadAt q.1 true) = false := by
    rw [pieces_one hm]
    simp [Work.deadAt, hfail, hpoison]
  rw [exec_resultLand]
  unfold execResultLand device
  simp only [hgrp, Option.bind_some, hk, hpay, hdead, hx, Bool.and_false, Bool.false_eq_true, ↓reduceIte]
  have hd' : homeOf (begin_ s).d p.pa = .die d := hd
  rw [hd']

end Home

/-- Settles O29: a known value is written to its registers and owed no longer (`land_ends`); a weak load that nothing holds back
takes its home's bytes (`loadValue_home`), which fills copies and gives the group the value (`fixLoad_home`). -/
theorem loadsLand : Obligations.LoadsLand := by
  unfold Obligations.LoadsLand
  refine ⟨fun s slot k src g e w lo hi hg hk hw hl => ⟨fun l n _ => land_v hg hk (landOk_of hw hl),
    fun n => land_s hg hk (landOk_of hw hl)⟩, ?_⟩
  intro s slot k g e p d hg hk hpay ho hq hp hl hm hs ha hn _ hd hup hfail hpoison hr
  have hx := loadValue_home hm hs hn (olderSame_none hg hm ho hq hp) hp hl hup hr
  obtain ⟨hlog, hgrp⟩ := fixLoad_home (s := s) (slot := slot) (e := e) hs ha ((begin_ s).load p.pa p.n)
  refine ⟨_, exec_loadHome hg hk hpay hm hd hfail hpoison hx, sameMem_of_log hlog, fun j hj => (hgrp j).trans (if_neg hj), _,
    (hgrp slot).trans ((if_pos rfl).trans (congrArg (Option.map _) hg)), rfl, rfl, rfl, ?_, fun o hmem hid => ?_⟩
  · rw [List.map_map]
    refine List.map_congr_left fun o _ => ?_
    dsimp only [Function.comp_apply]
    split <;> rfl
  · obtain ⟨o', -, rfl⟩ := List.mem_map.mp hmem
    by_cases h : o'.id = e.id
    · rw [if_pos h]
    · rw [if_neg h] at hid
      exact absurd hid h

end Sys2Proof.Machine
end


section
/-! PROOFS. Copies as they issue (O38): a state, which no run reaches, whose issuing slot lies beyond the package's, so that
its handle leaves the handle's field of a trap frame. -/

namespace Sys2Proof.Machine

/-- A slot of the lowest core, by its number modulo the package's 65536, whose group handle is `2 ^ 192`: Table 22.5 gives a
handle 64 bits, and no bit of this one is among them. -/
def farSlot : Nat := 8192 * 2 ^ 171

/-- One runnable thread in `farSlot`, with a KiB of scratchpad and T registers that hold zero, whose die has a frame area of
its own and a copy engine that is ready. -/
def farState : State :=
  { State.reset with d := { State.reset.d with
      cur := { slot := farSlot, lanes := [0], pc := 0x40000, len := 12, word := 0, stamped := false }
      groups := [(farSlot, { Group.gone with thr := [(0, { Thread.gone with st := .runnable })] })]
      blocks := [(0, { Block.gone with gcnt := 1, vbase := 8, spad := 1 })]
      dies := [(0, { Die.reset with frameBase := 2 ^ 22 })]
      pkg := { Pkg.reset with rdyEng := BitVec.ofNat 64 (2 ^ eCopy) } } }

def farHdr : Hdr := { neg := false, grd := 15, ver1 := true, ctl := 0 }

/-- copy.t of the tile at row V0, column V0 of the record in T0, to offset 0 of the scratchpad, with the token in S20. -/
def farOp : CopyOp := { bo := false, col := false, a := .v 0, b := .v 0, c := .v 0, tr := 0, tk := 20, ext := 0 }

theorem farRuns : Runs (.copyT farHdr farOp) farState farHdr (copySrc farOp) [.s farOp.tk.toNat] [0] := by
  constructor <;> decide +kernel

theorem farEngine : EngineOn farState eCopy := by
  refine ⟨⟨fun e he => (List.not_mem_nil he).elim, by decide +kernel, by decide +kernel, fun _ h => absurd rfl h⟩, by decide +kernel⟩

/-- Nothing rides where no slot of a die's rings is in use. -/
theorem rideOf_of_no_slots {d : Dev} (h : ∀ k, (d.die k).slots = []) (a : Nat) : d.rideOf a = none := by
  unfold Dev.rideOf
  cases homeOf d a with
  | die k => simp [h k]
  | _ => rfl

theorem farRides_none (a : Nat) : farState.d.rideOf a = none := rideOf_of_no_slots (fun k => by
  by_cases hk : k = 0
  · subst hk; rfl
  · exact congrArg Die.slots (show sget farState.d.dies k Die.reset = Die.reset by simp [farState, sget, sget?, Ne.symm hk])) a

/-- The byte of an answer's memory at a key. -/
def byteAfter (r : Host.Outcome State Fault Refusal) (k : Nat) : Byte := match r with | .next t => t.byte k | _ => 0

/-- The handle of `farSlot` sets a bit of the byte behind the frame's record. -/
theorem farFrame_spills :
    byteAfter (exec (.copyT farHdr farOp) farState) (farState.d.frameAddr farSlot + 64) = 1 := by decide +kernel

/-- Refutes O38: the trap of a bad record, taken in a slot beyond the package's, whose frame holds a byte that is not zero
behind the record of Table 22.5 (`farFrame_spills`). -/
theorem not_engineCopies : ¬ Obligations.EngineCopies := by
  unfold Obligations.EngineCopies
  intro hall
  obtain ⟨hbad, -⟩ := hall farState farHdr farOp [0] farEngine
  obtain ⟨htrap, -⟩ := hbad (by decide +kernel) (by decide +kernel) (by decide +kernel)
  obtain ⟨t, hexec, g, -, -, -, -, -, hframe, -⟩ := htrap farRuns
  have hzero := ((hframe fun k _ => farRides_none _).2 (by decide +kernel)).2 64 le_rfl (by decide)
  have hspill := farFrame_spills
  rw [hexec] at hspill
  exact absurd (hspill.symm.trans hzero) (by decide)

end Sys2Proof.Machine
end

section
/-! PROOFS. What an instruction reads as its effect starts (for O54 and O55): windows and owners apart the work is the state's, so
that memory, page tables and operands read the same. -/

namespace Sys2Proof.Machine

/-! ### Works that read alike -/

/-- The state without its groups and blocks. -/
def Dev.bare (d : Dev) : Dev := { d with groups := [], blocks := [] }

/-- `v` differs from `w` in groups and blocks alone, and not in the accesses that others have passed. -/
structure SameReads (w v : Work) : Prop where
  log : v.log = w.log
  base : v.base = w.base
  bare : v.d.bare = w.d.bare
  lates : ∀ y, y ∈ v.lates ↔ y ∈ w.lates

/-- The pages of a range depend on the translations alone. Its recursion is compared with these as one function, so that no check
has to compute a walk of unknown tables. -/
theorem pagesFrom_congr {w v : Work} (h : v.translate = w.translate) : v.pagesFrom = w.pagesFrom := by
  delta Work.pagesFrom Work.pagesFrom._f
  rw [h]

namespace SameReads

variable {w v : Work}

/-- What reads neither groups nor blocks reads the same. -/
theorem onDev {β : Type} (h : SameReads w v) (φ : Dev → β) (hφ : ∀ d, φ d.bare = φ d) : φ v.d = φ w.d := by
  rw [← hφ v.d, ← hφ w.d, h.bare]

theorem cur (h : SameReads w v) : v.d.cur = w.d.cur := h.onDev Dev.cur fun _ => rfl
theorem now (h : SameReads w v) : v.d.now = w.d.now := h.onDev Dev.now fun _ => rfl
theorem free (h : SameReads w v) : v.d.free = w.d.free := h.onDev Dev.free fun _ => rfl
theorem nextId (h : SameReads w v) : v.d.nextId = w.d.nextId := h.onDev Dev.nextId fun _ => rfl
theorem ops (h : SameReads w v) : v.d.ops = w.d.ops := h.onDev Dev.ops fun _ => rfl
theorem cores (h : SameReads w v) : v.d.cores = w.d.cores := h.onDev Dev.cores fun _ => rfl
theorem dies (h : SameReads w v) : v.d.dies = w.d.dies := h.onDev Dev.dies fun _ => rfl
theorem pkg (h : SameReads w v) : v.d.pkg = w.d.pkg := h.onDev Dev.pkg fun _ => rfl
theorem slot (h : SameReads w v) : v.slot = w.slot := congrArg Cur.slot h.cur
theorem dieNo (h : SameReads w v) : v.dieNo = w.dieNo := congrArg slotDie h.slot

theorem byte (h : SameReads w v) (k : Nat) : v.byte k = w.byte k := byte_congr h.log h.base k

theorem load (h : SameReads w v) (k n : Nat) : v.load k n = w.load k n := load_congr h.byte k n

theorem rideOf (h : SameReads w v) (a : Nat) : v.d.rideOf a = w.d.rideOf a :=
  rideOf_congr h.dies (congrArg Pkg.podId h.pkg) a

theorem homeOf (h : SameReads w v) (a : Nat) : homeOf v.d a = homeOf w.d a := homeOf_congr (congrArg Pkg.podId h.pkg) a

theorem homeUp (h : SameReads w v) (a : Nat) : homeUp v.d a = homeUp w.d a := h.onDev (Machine.homeUp · a) fun _ => rfl

theorem homeFailed (h : SameReads w v) (a : Nat) : homeFailed v.d a = homeFailed w.d a :=
  h.onDev (Machine.homeFailed · a) fun _ => rfl

theorem poisoned (h : SameReads w v) (a : Nat) : v.poisoned a = w.poisoned a := by unfold Work.poisoned; rw [h.pkg]

theorem deadAt (h : SameReads w v) (a : Nat) (reads : Bool) : v.deadAt a reads = w.deadAt a reads := by
  unfold Work.deadAt
  rw [h.homeFailed, h.poisoned]

theorem physByte (h : SameReads w v) (a : Nat) : v.physByte a = w.physByte a := by
  unfold Work.physByte
  rw [h.rideOf, h.byte]

theorem walkEntry (h : SameReads w v) (a : Nat) : v.walkEntry a = w.walkEntry a := by
  unfold Work.walkEntry Work.entry16 Work.physBytes
  simp only [h.physByte, h.pkg, h.now]

theorem lateBefore (h : SameReads w v) (bytes : List (Nat × Nat)) (writes : Bool) (who : Agent) (sc : Option Scope) (id : Nat)
    (passed : Option (Nat × Scope)) : v.lateBefore bytes writes who sc id passed = w.lateBefore bytes writes who sc id passed := by
  unfold Work.lateBefore
  rw [Bool.eq_iff_iff, List.any_eq_true, List.any_eq_true]
  exact exists_congr fun y => and_congr_left fun _ => h.lates y

theorem walk (h : SameReads w v) (va n lvl tbl : Nat) : walk v va n lvl tbl = Machine.walk w va n lvl tbl := by
  induction n generalizing lvl tbl with
  | zero => rfl
  | succ n ih =>
    rw [walk_succ, walk_succ, h.walkEntry, h.homeFailed, h.homeUp, h.lateBefore, h.poisoned, h.nextId,
      show Machine.walk v va n (lvl + 1) = Machine.walk w va n (lvl + 1) from funext fun tbl => ih (lvl + 1) tbl]

theorem translate (h : SameReads w v) (die va : Nat) (kind : XKind) (user : Bool) :
    v.translate die va kind user = w.translate die va kind user := by
  rw [Machine.translate_eq, Machine.translate_eq, show v.d.die die = w.d.die die from h.onDev (Dev.die · die) fun _ => rfl, h.walk,
    show reachable v.d die = reachable w.d die from h.onDev (reachable · die) fun _ => rfl]

theorem translate_eq (h : SameReads w v) : v.translate = w.translate :=
  funext fun die => funext fun va => funext fun kind => funext fun user => h.translate die va kind user

theorem mapPages (h : SameReads w v) (die : Nat) (kind : XKind) (user : Bool) (va n : Nat) :
    v.mapPages die kind user va n = w.mapPages die kind user va n := by
  unfold Work.mapPages
  rw [pagesFrom_congr h.translate_eq]

theorem gateNow (h : SameReads w v) (a : Nat) : v.gateNow a = w.gateNow a := by
  unfold Work.gateNow
  rw [h.homeUp, h.rideOf, h.now]

theorem leaseFree (h : SameReads w v) (a : Nat) : v.leaseFree a = w.leaseFree a := by
  unfold Work.leaseFree Work.pinned
  rw [h.homeOf, h.ops, h.now, show v.d.die = w.d.die from h.onDev Dev.die fun _ => rfl]

end SameReads

/-! ### The work at issue -/

theorem agentOf_atIssue (s : State) (k : Nat) : (atIssue s []).agentOf k = (begin_ s).agentOf k := by
  have hT := SameTeams.atIssue s
  have hg : (((atIssue s []).grp? k).getD Group.gone).blk = (((begin_ s).grp? k).getD Group.gone).blk ∧
      (((atIssue s []).grp? k).getD Group.gone).gidx = (((begin_ s).grp? k).getD Group.gone).gidx := by
    have h1 := hT.onGrp (fun g => (g.blk, g.gidx)) (fun _ => rfl) k
    revert h1
    cases (atIssue s []).grp? k <;> cases (begin_ s).grp? k <;> simp
  have hb : ∀ j, (((atIssue s []).blk? j).getD Block.gone).name = (((begin_ s).blk? j).getD Block.gone).name := fun j => by
    have h1 := hT.onBlk Block.name (fun _ => rfl) j
    revert h1
    cases (atIssue s []).blk? j <;> cases (begin_ s).blk? j <;> simp
  unfold Work.agentOf
  dsimp only
  rw [hg.1, hg.2, hb]

/-- The passed accesses among results owed, of a group as a list of names and payloads. -/
def latesOf (who : Agent) (os : List (Nat × Payload)) : List Late :=
  os.filterMap fun o =>
    match o.2 with
    | .load p => p.passed.map fun t => { who := who, bytes := p.pieces, writes := false, id := o.1, turn := t.1, scope := t.2 }
    | _ => none

/-- The names and payloads of what a group is owed. -/
def Group.pays (g : Group) : List (Nat × Payload) := g.owed.map fun o => (o.id, o.pay)

/-- The passed accesses of the cores' write paths. -/
def Work.pathLates (w : Work) : List Late :=
  w.d.cores.flatMap fun c => c.2.path.filterMap fun e => e.passed.map fun t =>
    { who := w.agentOf e.slot, bytes := [(e.pa, e.n)], writes := true, id := e.id, turn := t.1, scope := t.2 }

theorem mem_lates (w : Work) (y : Late) : y ∈ w.lates ↔ y ∈ w.pathLates ∨
    ∃ p ∈ w.d.groups.map (fun e => (e.1, e.2.pays)), y ∈ latesOf (w.agentOf p.1) p.2 := by
  unfold Work.lates Work.pathLates
  rw [List.mem_append, List.mem_flatMap (l := w.d.groups)]
  refine or_congr_right ?_
  simp only [List.mem_map, exists_exists_and_eq_and, latesOf, Group.pays, List.filterMap_map]
  rfl

/-- The effect of an instruction reads what the state holds (windows and owners apart). -/
theorem atIssue_reads (s : State) : SameReads (begin_ s) (atIssue s []) := by
  refine ⟨rfl, rfl, rfl, fun y => ?_⟩
  have hw : ∀ g : Group, (if s.d.cur.stamped then g else g.stepWins s.d.cur.lanes).pays = g.pays := fun g => by
    split
    · rfl
    · simp [Group.pays, Group.stepWins, Function.comp_def]
  have hmem : ∀ p, p ∈ (atIssue s []).d.groups.map (fun e => (e.1, e.2.pays)) ↔
      p ∈ (begin_ s).d.groups.map fun e => (e.1, e.2.pays) := fun p => mem_map_supd Group.pays hw _ _ p
  have hpath : (atIssue s []).pathLates = (begin_ s).pathLates := by
    unfold Work.pathLates
    simp only [agentOf_atIssue]
    rfl
  simp only [mem_lates, hmem, hpath, agentOf_atIssue]

end Sys2Proof.Machine
end


section
/-! PROOFS. Bytes and numbers (for O54 and O55): a number of several fields as the bytes of each, a list of bytes that lies in
another, and fields of a number read from its bytes. -/

namespace Sys2Proof.Machine

/-! ### Numbers and their bytes -/

@[simp] theorem length_natBytes (n x : Nat) : (natBytes n x).length = n := by simp [natBytes]

theorem natBytes_zero (x : Nat) : natBytes 0 x = [] := rfl

theorem natBytes_succ (n x : Nat) : natBytes (n + 1) x = BitVec.ofNat 8 x :: natBytes n (x / 256) := by
  unfold natBytes
  rw [List.range_succ_eq_map, List.map_cons, List.map_map, Nat.mul_zero, Nat.pow_zero, Nat.div_one]
  refine congrArg (BitVec.ofNat 8 x :: ·) (List.map_congr_left fun i _ => congrArg (BitVec.ofNat 8) ?_)
  rw [Nat.mul_succ, Nat.add_comm, Nat.pow_add, ← Nat.div_div_eq_div_mul]

/-- The bytes of a number are those of its low part and those of the rest. -/
theorem natBytes_add (m n : Nat) {x : Nat} (h : x < 256 ^ m) (y : Nat) :
    natBytes (m + n) (x + 256 ^ m * y) = natBytes m x ++ natBytes n y := by
  induction m generalizing x with
  | zero =>
    obtain rfl : x = 0 := by simpa using h
    simp [natBytes_zero]
  | succ m ih =>
    rw [pow_succ] at h
    have hq : (x + 256 ^ (m + 1) * y) / 256 = x / 256 + 256 ^ m * y := by
      rw [pow_succ, Nat.mul_right_comm, Nat.mul_comm _ 256, Nat.add_mul_div_left _ _ (by decide)]
    have hr : BitVec.ofNat 8 (x + 256 ^ (m + 1) * y) = BitVec.ofNat 8 x := by
      refine BitVec.eq_of_toNat_eq ?_
      rw [BitVec.toNat_ofNat, BitVec.toNat_ofNat, pow_succ, Nat.mul_right_comm, Nat.mul_comm _ 256]
      exact Nat.add_mul_mod_self_left _ _ _
    rw [Nat.add_right_comm, natBytes_succ, natBytes_succ, hq, hr, ih (by omega), List.cons_append]

/-- The bytes of a number's low field come first. -/
theorem natBytes_split {m n k : Nat} (hk : m + n = k) {x : Nat} (h : x < 256 ^ m) (y : Nat) :
    natBytes k (x + 256 ^ m * y) = natBytes m x ++ natBytes n y := hk ▸ natBytes_add m n h y

theorem bytesNat_lt (bs : List Byte) : bytesNat bs < 256 ^ bs.length := by
  induction bs with
  | nil => exact Nat.one_pos
  | cons b bs ih =>
    have hb := b.isLt
    rw [List.length_cons, pow_succ, show bytesNat (b :: bs) = b.toNat + 256 * bytesNat bs from rfl]
    omega

theorem bytesNat_append (a b : List Byte) : bytesNat (a ++ b) = bytesNat a + 256 ^ a.length * bytesNat b := by
  induction a with
  | nil => simp [bytesNat]
  | cons c a ih =>
    have h : ∀ l : List Byte, bytesNat (c :: l) = c.toNat + 256 * bytesNat l := fun _ => rfl
    rw [List.cons_append, h, h, ih, List.length_cons, pow_succ]
    ring

theorem bytesNat_natBytes (n x : Nat) : bytesNat (natBytes n x) = x % 256 ^ n := by
  induction n generalizing x with
  | zero => rw [pow_zero, Nat.mod_one]; rfl
  | succ n ih =>
    rw [natBytes_succ, pow_succ, show bytesNat (BitVec.ofNat 8 x :: natBytes n (x / 256)) =
      x % 256 + 256 * bytesNat (natBytes n (x / 256)) from rfl, ih, Nat.mul_comm _ 256, Nat.mod_mul]

theorem natBytes_bytesNat (bs : List Byte) : natBytes bs.length (bytesNat bs) = bs := by
  induction bs with
  | nil => rfl
  | cons b bs ih =>
    have hb := b.isLt
    rw [List.length_cons, natBytes_succ, show bytesNat (b :: bs) = b.toNat + 256 * bytesNat bs from rfl,
      show (b.toNat + 256 * bytesNat bs) / 256 = bytesNat bs by omega, ih]
    refine congrArg (· :: bs) (BitVec.eq_of_toNat_eq ?_)
    rw [BitVec.toNat_ofNat]
    omega

/-- A byte of the number that a list of bytes gives. -/
theorem byte_bytesNat (bs : List Byte) (j : Nat) : BitVec.ofNat 8 (bytesNat bs / 256 ^ j) = bs.getD j 0 := by
  induction bs generalizing j with
  | nil => simp [bytesNat]
  | cons b bs ih =>
    have hb := b.isLt
    have hc : bytesNat (b :: bs) = b.toNat + 256 * bytesNat bs := rfl
    cases j with
    | zero =>
      refine BitVec.eq_of_toNat_eq ?_
      rw [hc, BitVec.toNat_ofNat, pow_zero, Nat.div_one]
      show (b.toNat + 256 * bytesNat bs) % 256 = b.toNat
      omega
    | succ j =>
      rw [hc, pow_succ', ← Nat.div_div_eq_div_mul,
        show (b.toNat + 256 * bytesNat bs) / 256 = bytesNat bs by omega, ih]
      rfl

/-- The number of `c` bytes from byte `j` on. -/
theorem bytesNat_slice (bs : List Byte) (j c : Nat) : bytesNat ((bs.drop j).take c) = bytesNat bs / 256 ^ j % 256 ^ c := by
  have hd : bytesNat bs / 256 ^ j = bytesNat (bs.drop j) := by
    by_cases h : j ≤ bs.length
    · have hl : (bs.take j).length = j := List.length_take_of_le h
      have hlt := bytesNat_lt (bs.take j)
      conv_lhs => rw [← List.take_append_drop j bs, bytesNat_append]
      rw [hl] at hlt ⊢
      rw [Nat.add_mul_div_left _ _ (Nat.pow_pos (by decide)), Nat.div_eq_of_lt hlt, Nat.zero_add]
    · rw [List.drop_eq_nil_of_le (by omega), Nat.div_eq_of_lt]
      · rfl
      · exact (bytesNat_lt bs).trans_le (Nat.pow_le_pow_right (by decide) (by omega))
  rw [hd]
  generalize bs.drop j = l
  by_cases h : c ≤ l.length
  · have hl : (l.take c).length = c := List.length_take_of_le h
    have hlt := bytesNat_lt (l.take c)
    conv_rhs => rw [← List.take_append_drop c l, bytesNat_append]
    rw [hl] at hlt ⊢
    rw [Nat.add_mul_mod_self_left, Nat.mod_eq_of_lt hlt]
  · rw [List.take_of_length_le (by omega), Nat.mod_eq_of_lt]
    exact (bytesNat_lt l).trans_le (Nat.pow_le_pow_right (by decide) (by omega))

theorem pow_8 (j : Nat) : 2 ^ (8 * j) = 256 ^ j := by rw [Nat.pow_mul]

/-- A field of a number, from the bytes that hold it. -/
theorem bits_bytesNat (bs : List Byte) (j r : Nat) {n c : Nat} (h : r + n ≤ 8 * c) :
    bits (bytesNat bs) (8 * j + r) n = bytesNat ((bs.drop j).take c) / 2 ^ r % 2 ^ n := by
  rw [bytesNat_slice, bits, Nat.pow_add, ← Nat.div_div_eq_div_mul, pow_8]
  generalize bytesNat bs / 256 ^ j = x
  obtain ⟨k, hk⟩ := Nat.exists_eq_add_of_le h
  rw [← pow_8 c, hk, Nat.add_assoc, Nat.pow_add, Nat.mod_mul_right_div_self, Nat.pow_add, Nat.mod_mul_right_mod]

theorem sum_shift (b w n : Nat) (f : Nat → Nat) :
    ((List.range n).map fun i => 2 ^ (b + w * i) * f i).sum = 2 ^ b * ((List.range n).map fun i => 2 ^ (w * i) * f i).sum := by
  rw [← List.sum_map_mul_left]
  exact congrArg List.sum (List.map_congr_left fun i _ => by rw [Nat.pow_add, Nat.mul_assoc])

/-- Equally wide fields side by side are one field. -/
theorem sum_fields_lt {w n : Nat} {f : Nat → Nat} (h : ∀ i < n, f i < 2 ^ w) :
    ((List.range n).map fun i => 2 ^ (w * i) * f i).sum < 2 ^ (w * n) := by
  induction n with
  | zero => simp
  | succ n ih =>
    have hq := ih fun i hi => h i (Nat.lt_succ_of_lt hi)
    rw [List.range_succ, List.map_append, List.sum_append, List.map_singleton, List.sum_singleton, Nat.mul_succ, Nat.pow_add]
    generalize ((List.range n).map fun i => 2 ^ (w * i) * f i).sum = q at hq ⊢
    calc q + 2 ^ (w * n) * f n < 2 ^ (w * n) + 2 ^ (w * n) * f n := by omega
      _ = 2 ^ (w * n) * (f n + 1) := by ring
      _ ≤ 2 ^ (w * n) * 2 ^ w := Nat.mul_le_mul_left _ (h n (Nat.lt_succ_self n))

/-! ### A list of bytes in another -/

theorem length_flatMap_range {n c : Nat} {f : Nat → List Byte} (hf : ∀ i, (f i).length = c) :
    ((List.range n).flatMap f).length = c * n := by
  induction n with
  | zero => rfl
  | succ n ih => rw [List.range_succ, List.flatMap_append, List.length_append, ih, List.flatMap_singleton, hf, Nat.mul_succ]

/-- `p` stands in `l` at offset `o`. -/
def Has (l : List Byte) (o : Nat) (p : List Byte) : Prop := ∃ a b, l = a ++ p ++ b ∧ a.length = o

namespace Has

variable {l p q : List Byte} {o : Nat}

theorem refl (l : List Byte) : Has l 0 l := ⟨[], [], by simp, rfl⟩

theorem left (h : Has l o (p ++ q)) : Has l o p := by
  obtain ⟨a, b, rfl, ha⟩ := h
  exact ⟨a, q ++ b, by simp, ha⟩

theorem right (h : Has l o (p ++ q)) : Has l (o + p.length) q := by
  obtain ⟨a, b, rfl, ha⟩ := h
  exact ⟨a ++ p, b, by simp, by simp [ha]⟩

/-- One of equally long lists, one behind the other. -/
theorem chunk {n c i : Nat} {f : Nat → List Byte} (h : Has l o ((List.range n).flatMap f)) (hf : ∀ i, (f i).length = c)
    (hi : i < n) : Has l (o + c * i) (f i) := by
  have hs : (List.range n).flatMap f =
      (List.range i).flatMap f ++ (f i ++ ((List.range (n - (i + 1))).map (i + 1 + ·)).flatMap f) := by
    obtain ⟨k, rfl⟩ := Nat.exists_eq_add_of_le hi
    rw [Nat.add_sub_cancel_left, List.range_add, List.range_succ, List.flatMap_append, List.flatMap_append,
      List.flatMap_singleton, List.append_assoc]
  rw [hs] at h
  exact length_flatMap_range hf (n := i) ▸ h.right.left

theorem getD (h : Has l o p) {k : Nat} (hk : k < p.length) : l.getD (o + k) 0 = p.getD k 0 := by
  obtain ⟨a, b, rfl, rfl⟩ := h
  rw [List.append_assoc, List.getD_append_right _ _ _ _ (Nat.le_add_right ..), Nat.add_sub_cancel_left,
    List.getD_append _ _ _ _ hk]

/-- What stands behind `n` bytes. -/
theorem skip {n : Nat} (h : Has l o (p ++ q)) (hp : p.length = n) : Has l (o + n) q := hp ▸ h.right

theorem trans {o' : Nat} (h : Has l o p) (h' : Has p o' q) : Has l (o + o') q := by
  obtain ⟨a, b, rfl, rfl⟩ := h
  obtain ⟨c, d, rfl, rfl⟩ := h'
  exact ⟨a ++ c, d ++ b, by simp, by simp⟩

theorem length_le (h : Has l o p) : o + p.length ≤ l.length := by
  obtain ⟨a, b, rfl, rfl⟩ := h
  simp

end Has

end Sys2Proof.Machine
end


section
/-! PROOFS. A save or restore of one lane (for O54 and O55): its granules, what has been written once all have moved, what has
been read, and the end of the instruction. -/

namespace Sys2Proof.Machine

/-! ### The answer -/

section Answer

variable {s t t' : State} {h : Hdr} {src dst : List Named} {x : List Nat} {w : Work}

/-- Registers and predicates are those of the issuing group and its block. -/
theorem sameAll_of_here (hh : t'.here = t.here) (hb : t'.myBlk = t.myBlk) (h : SameAll s t) : SameAll s t' := by
  unfold SameAll SameRegs SameV SameS SameB SameL SameP at h ⊢
  rw [hh, hb]
  exact h

theorem advances_of_here (hh : t'.here = t.here) (h : Advances s t) : Advances s t' := by
  unfold Advances Jumps MeetsAt State.pc at h ⊢
  rw [hh]
  exact h

/-- An effect that changes neither the issuing group nor its block keeps all registers. -/
theorem leaves_keeps (hi : Issued s h src dst x) (hc : w.d.cur = s.d.cur)
    (hg : w.grp? s.d.cur.slot = (atIssue s []).grp? s.d.cur.slot)
    (hb : w.blk? s.here.blk = (atIssue s []).blk? s.here.blk) :
    SameAll s (leaves s w) ∧ Advances s (leaves s w) ∧ (leaves s w).myBlk.core = s.myBlk.core := by
  have hG := atIssue_grp? [] hi
  have hB := atIssue_blk? [] hi
  obtain ⟨-, hall, hadv⟩ := leaves_frame hi (SameTeams.atIssue s)
  have hmy0 := leaves_myBlk hi (SameTeams.atIssue s) hB
  have hh : (leaves s w).here = (leaves s (atIssue s [])).here := by
    rw [leaves_here hc (hg.trans hG), leaves_here rfl hG]
  have hmy : (leaves s w).myBlk = (leaves s (atIssue s [])).myBlk := by
    have h0 : (leaves s (atIssue s [])).here.blk = s.here.blk := by
      rw [leaves_here rfl hG, ends_blk, startGroup_blk]
    rw [hmy0, State.myBlk, State.blk, hh, h0, show sget? (leaves s w).d.blocks s.here.blk = _ from hb.trans hB]
    rfl
  refine ⟨sameAll_of_here hh hmy hall, advances_of_here hh hadv, ?_⟩
  rw [hmy, hmy0, Block.take_nil]

theorem leaves_slot? (hc : w.d.cur = s.d.cur) {k : Nat} (hk : k ≠ s.d.cur.slot) : (leaves s w).slot? k = w.grp? k :=
  Work.grp?_updG_ne w (Group.ends w.d.cur [] .hold []) (hk.trans_eq (congrArg Cur.slot hc).symm)

theorem leaves_byte (hm : memWf s.mem = true) (hb : w.base = s.mem) (a : Nat) : (leaves s w).byte a = w.byte a :=
  commit_byte hm hb a

theorem atIssue_slot? {k : Nat} (hk : k ≠ s.d.cur.slot) : (atIssue s []).grp? k = s.slot? k :=
  Work.grp?_updG_ne (begin_ s) _ hk

theorem atIssue_blk?_ne (hi : Issued s h src dst x) {k : Nat} (hk : k ≠ s.here.blk) :
    (atIssue s []).blk? k = sget? s.d.blocks k :=
  (afterG_blocks [] [] id hi k).trans (if_neg hk)

theorem accessesDone_of_met (hi : Issued s h src dst x) (hf : FenceMet s .blk) : (atIssue s []).accessesDone = true := by
  have hacq : (startGroup s).acq = [] := by
    unfold startGroup
    split <;> exact hf.2.2.1
  unfold Work.accessesDone
  rw [atIssue_g [] hi, hacq, atIssue_slot, fenceOk_of_met hi hf]
  rfl

/-- A save or restore of one lane that can move all its granules at once. -/
theorem slotOp_ends {slot handle : Opnd} {l : Nat} {reads : Bool} {start : Work → Nat → Nat → Except Fail Xfer}
    {one : Work → Xfer → Work × Xfer} {X : Xfer} {r : Work × Xfer}
    (hi : Issued s h (slot.names 2 ++ handle.names 2) [] [l]) (hst : s.d.cur.stamped = false) (hf : FenceMet s .blk)
    {va : Nat} (hva : (s.op64 l slot).toNat = va) (hs : start (atIssue s []) va (s.op64 l handle).toNat = .ok X)
    (hdead : ∀ p ∈ X.granules, (atIssue s []).deadAt p.1 reads = false) (hle : X.done ≤ X.granules.length)
    (hone : one (atIssue s []) X = r) (hr : X.granules.length < r.2.done) :
    slotOp s h slot handle reads start one = .next (leaves s r.1) := by
  refine issue_ok hi ?_
  dsimp only
  rw [atIssue_cur, hst, if_neg Bool.false_ne_true, List.map_singleton, atIssue_op64 [] hi, atIssue_op64 [] hi,
    show ((begin_ s).op64 l slot).toNat = va from hva,
    show start (atIssue s []) va ((begin_ s).op64 l handle).toNat = .ok X from hs]
  have hd : (X.granules.drop X.done).any (fun p => (atIssue s []).deadAt p.1 reads) = false :=
    List.any_eq_false.mpr fun p hp => Bool.not_eq_true _ ▸ hdead p (List.mem_of_mem_drop hp)
  have hmove : (atIssue s []).moveAll one [(l, X)] = (r.1, [(l, r.2)], true) := by
    unfold Work.moveAll
    rw [if_neg (Nat.not_lt.mpr hle), hone]
    dsimp only
    rw [if_pos hr]
    rfl
  simp only [collect, Except.map, accessesDone_of_met hi hf, Bool.not_true, Bool.and_false, Bool.false_eq_true, if_false,
    List.any_cons, List.any_nil, Bool.or_false, hd, List.zip_cons_cons, List.zip_nil_left, hmove, if_true]

end Answer

/-! ### Granules -/

section Granules

variable {ps : List Nat} {va : Nat}

/-- Granule `i` of a range: where it lies, and its bytes. -/
def granuleAt (ps : List Nat) (va i : Nat) : Nat × Nat := (rangeAt ps va (16 * i), 16)

theorem pageRun_aligned {n : Nat} (ps : List Nat) (hv : va % 16 = 0) (hn : n % 16 = 0) :
    pageRun ps va va n = (List.range (n / 16)).map (granuleAt ps va) := by
  unfold pageRun
  split
  · next h => subst h; rfl
  · rw [show (va % 16 + n + 15) / 16 = n / 16 by omega]
    refine List.map_congr_left fun i hi => ?_
    have hi := List.mem_range.mp hi
    have h1 : max va (va / 16 * 16 + 16 * i) = va + 16 * i := by omega
    have h2 : min (va + n) (va / 16 * 16 + 16 * (i + 1)) - (va + 16 * i) = 16 := by omega
    dsimp only
    rw [h1, h2]
    rfl

/-- A byte of a granule lies behind its first. -/
theorem rangeAt_add (hv : va % 16 = 0) (i : Nat) {j : Nat} (hj : j < 16) :
    rangeAt ps va (16 * i + j) = rangeAt ps va (16 * i) + j := by
  unfold rangeAt pageAt
  rw [show (va + (16 * i + j)) / 65536 = (va + 16 * i) / 65536 by omega,
    show (va + (16 * i + j)) % 65536 = (va + 16 * i) % 65536 + j by omega, Nat.add_assoc]

end Granules

/-! ### Writing -/

/-- `w'` comes from `w` by writes of bytes that do not ride. -/
structure Rewrites (w w' : Work) : Prop where
  rest : SameRest w w'
  dies : w'.d.dies = w.d.dies

namespace Rewrites

variable {w w' w'' : Work}

theorem refl (w : Work) : Rewrites w w := ⟨.refl w, rfl⟩

theorem trans (h : Rewrites w w') (h' : Rewrites w' w'') : Rewrites w w'' := ⟨h.rest.trans h'.rest, h'.dies.trans h.dies⟩

theorem homeWrite {a : Nat} (h : w.d.rideOf a = none) (n x : Nat) : Rewrites w (w.homeWrite a n x) :=
  ⟨.homeWrite w a n x, homeWrite_dies h n x⟩

theorem rideOf (h : Rewrites w w') (a : Nat) : w'.d.rideOf a = w.d.rideOf a := rideOf_congr h.dies h.rest.podId a

theorem gateNow (h : Rewrites w w') (a : Nat) : w'.gateNow a = w.gateNow a := by
  unfold Work.gateNow
  rw [h.rideOf, h.rest.onDev Dev.now fun _ => rfl, h.rest.onDev (homeUp · a) fun _ => rfl]

theorem leaseFree (h : Rewrites w w') (a : Nat) : w'.leaseFree a = w.leaseFree a := by
  unfold Work.leaseFree Work.pinned Dev.die
  rw [h.dies, homeOf_congr h.rest.podId, h.rest.onDev Dev.now fun _ => rfl, h.rest.onDev Dev.ops fun _ => rfl]

end Rewrites

/-- A byte that does not ride is read and written where it lies while its home is ready. -/
theorem gateNow_still {w : Work} {a : Nat} (hu : homeUp w.d a = true) (hr : w.d.rideOf a = none) : w.gateNow a = true := by
  unfold Work.gateNow
  rw [hu, hr]
  rfl

section Writing

variable {ps : List Nat} {va : Nat}

/-- Byte `i` of a range once the granules of `piece` are written. -/
def putByte (piece : Nat → Option (List Byte)) (old : Byte) (i : Nat) : Byte :=
  match piece (i / 16) with
  | some bs => bs.getD (i % 16) 0
  | none => old

/-- `w'` comes from `w` by writes of the granules `k` to `m - 1` of a range. -/
structure Puts (ps : List Nat) (va : Nat) (piece : Nat → Option (List Byte)) (k m : Nat) (w w' : Work) : Prop where
  rewrites : Rewrites w w'
  out : ∀ a, (∀ i, 16 * k ≤ i → i < 16 * m → a ≠ rangeAt ps va i) → w'.byte a = w.byte a
  inside : ∀ i, 16 * k ≤ i → i < 16 * m → w'.byte (rangeAt ps va i) = putByte piece (w.byte (rangeAt ps va i)) i

variable {piece : Nat → Option (List Byte)} {w : Work} {k : Nat}

theorem Puts.refl (k : Nat) (w : Work) : Puts ps va piece k k w w :=
  ⟨.refl w, fun _ _ => rfl, fun i h1 h2 => absurd h2 (by omega)⟩

theorem Puts.trans {m n : Nat} {v u : Work} (h : Puts ps va piece k m w v) (h' : Puts ps va piece m n v u) (hk : k ≤ m)
    (hm : m ≤ n) (hinj : ∀ i < 16 * n, ∀ j < 16 * n, rangeAt ps va i = rangeAt ps va j → i = j) :
    Puts ps va piece k n w u := by
  refine ⟨h.rewrites.trans h'.rewrites, fun a ha => ?_, fun i hlo hhi => ?_⟩
  · rw [h'.out a fun i h1 h2 => ha i (by omega) h2, h.out a fun i h1 h2 => ha i h1 (by omega)]
  · by_cases hi : i < 16 * m
    · rw [h'.out _ fun j h1 h2 he => absurd (hinj i hhi j h2 he) (by omega), h.inside i hlo hi]
    · rw [h'.inside i (by omega) hhi, h.out _ fun j h1 h2 he => absurd (hinj i hhi j (by omega) he) (by omega)]

/-- A granule that is not written. -/
theorem puts_none (hp : piece k = none) : Puts ps va piece k (k + 1) w w :=
  ⟨.refl w, fun _ _ => rfl, fun i h1 h2 => by rw [putByte, show i / 16 = k by omega, hp]⟩

/-- A granule written. -/
theorem puts_some {bs : List Byte} (hv : va % 16 = 0) (hr : w.d.rideOf (rangeAt ps va (16 * k)) = none)
    (hp : piece k = some bs) :
    Puts ps va piece k (k + 1) w (w.homeWrite (rangeAt ps va (16 * k)) 16 (bytesNat bs)) := by
  refine ⟨.homeWrite hr 16 _, fun a ha => ?_, fun i h1 h2 => ?_⟩
  · rw [homeWrite_byte hr]
    refine Work.byte_store_out _ _ _ _ _ ?_
    by_contra hc
    refine ha (16 * k + (a - rangeAt ps va (16 * k))) (by omega) (by omega) ?_
    rw [rangeAt_add hv k (by omega)]
    omega
  · obtain ⟨j, rfl⟩ := Nat.exists_eq_add_of_le h1
    rw [putByte, show (16 * k + j) / 16 = k by omega, hp, show (16 * k + j) % 16 = j by omega, homeWrite_byte hr,
      rangeAt_add hv k (by omega), Work.byte_store_in _ _ _ _ _ (by omega), byte_bytesNat]

/-- Granules that their homes take are all written. -/
theorem putMore_puts (hv : va % 16 = 0) {m : Nat}
    (hok : ∀ i, i < 16 * (k + m) → homeUp w.d (rangeAt ps va i) = true ∧ w.d.rideOf (rangeAt ps va i) = none ∧
      w.leaseFree (rangeAt ps va i) = true)
    (hinj : ∀ i < 16 * (k + m), ∀ j < 16 * (k + m), rangeAt ps va i = rangeAt ps va j → i = j) :
    ∃ w', w.putMore piece ((List.range' k m).map (granuleAt ps va)) k = (w', k + m) ∧ Puts ps va piece k (k + m) w w' := by
  induction m generalizing k w with
  | zero => exact ⟨w, rfl, .refl k w⟩
  | succ m ih =>
    have hkm : k + 1 + m = k + (m + 1) := by omega
    obtain ⟨hu, hr, hl⟩ := hok (16 * k) (by omega)
    have hrest : ∀ v, Puts ps va piece k (k + 1) w v →
        ∃ w', v.putMore piece ((List.range' (k + 1) m).map (granuleAt ps va)) (k + 1) = (w', k + (m + 1)) ∧
          Puts ps va piece k (k + (m + 1)) w w' := by
      intro v hv1
      have hwv := hv1.rewrites
      obtain ⟨w', he, hp⟩ := ih (w := v) (k := k + 1) (fun i hlt => by
        rw [hwv.rideOf, hwv.leaseFree, hwv.rest.onDev (homeUp · _) fun _ => rfl]
        exact hok i (hkm ▸ hlt)) (by rw [hkm]; exact hinj)
      rw [hkm] at he hp
      exact ⟨w', he, hv1.trans hp (by omega) (by omega) hinj⟩
    rw [List.range'_succ, List.map_cons, granuleAt, Work.putMore]
    cases hp : piece k with
    | none => exact hrest w (puts_none hp)
    | some bs =>
      dsimp only
      rw [hl, gateNow_still hu hr]
      exact hrest _ (puts_some hv hr hp)

end Writing

/-! ### Reading -/

section Reading

variable {ps : List Nat} {va : Nat} {w : Work}

/-- No write on its way meets the byte at a key. -/
def Work.quietAt (w : Work) (a : Nat) : Prop := ∀ e ∈ w.d.cores, ∀ q ∈ e.2.path, a < q.pa ∨ q.pa + q.n ≤ a

/-- A read that no write on its way meets sees the bytes at their home, and leaves everything as it was. -/
theorem raceRead_quiet {ks : List Nat} (h : ∀ a ∈ ks, w.quietAt a) : w.raceRead ks = (ks.map w.physByte, w) := by
  have hnone : ∀ c k, w.raceWith c k ks = none := fun c k => by
    unfold Work.raceWith
    cases hq : (w.d.core c).path[k]? with
    | none => rfl
    | some q =>
      have hmem : q ∈ (w.d.core c).path := List.mem_of_getElem? hq
      obtain ⟨e, he, hpath⟩ : ∃ e ∈ w.d.cores, e.2.path = (w.d.core c).path := by
        unfold Dev.core sget at hmem ⊢
        cases hc : sget? w.d.cores c with
        | none => rw [hc] at hmem; cases hmem
        | some v => exact ⟨_, mem_of_sget? hc, rfl⟩
      have hany : ks.any (fun a => decide (q.pa ≤ a) && decide (a < q.pa + q.n)) = false := by
        refine List.any_eq_false.mpr fun a ha => ?_
        have := h a ha e he q (hpath ▸ hmem)
        simp only [Bool.and_eq_true, decide_eq_true_eq]
        omega
      rw [Option.bind_some, hany, Bool.and_false]
      rfl
  have hr : w.raceable ks = [] := by
    unfold Work.raceable
    simp [hnone]
  unfold Work.raceRead Work.raceSeen
  rw [hr]
  rfl

theorem homeTouch_still {a : Nat} (h : w.d.rideOf a = none) : w.homeTouch a = w := by
  unfold Work.homeTouch
  rw [h]

/-- The bytes of a range as their homes read them. -/
def Work.rangeBytes (w : Work) (ps : List Nat) (va o n : Nat) : List Byte :=
  (List.range n).map fun i => w.byte (rangeAt ps va (o + i))

theorem Work.rangeBytes_add (w : Work) (ps : List Nat) (va o m n : Nat) :
    w.rangeBytes ps va o (m + n) = w.rangeBytes ps va o m ++ w.rangeBytes ps va (o + m) n := by
  unfold Work.rangeBytes
  rw [List.range_add, List.map_append, List.map_map]
  exact congrArg _ (List.map_congr_left fun i _ => by simp [Nat.add_assoc])

@[simp] theorem Work.length_rangeBytes (w : Work) (ps : List Nat) (va o n : Nat) : (w.rangeBytes ps va o n).length = n := by
  simp [Work.rangeBytes]

/-- Granules that their homes give are all read. -/
theorem getMore_gets (hv : va % 16 = 0) {k m acc : Nat}
    (hok : ∀ i, i < 16 * (k + m) → homeUp w.d (rangeAt ps va i) = true ∧ w.d.rideOf (rangeAt ps va i) = none ∧
      w.quietAt (rangeAt ps va i)) :
    w.getMore ((List.range' k m).map (granuleAt ps va)) (16 * k) k acc =
      (w, k + m, acc + bytesNat (w.rangeBytes ps va (16 * k) (16 * m)) * 256 ^ (16 * k)) := by
  induction m generalizing k acc with
  | zero => simp [Work.getMore, Work.rangeBytes, bytesNat]
  | succ m ih =>
    obtain ⟨hu, hr, -⟩ := hok (16 * k) (by omega)
    have hbytes : w.raceRead ((List.range 16).map (rangeAt ps va (16 * k) + ·)) = (w.rangeBytes ps va (16 * k) 16, w) := by
      have hmem : ∀ a ∈ (List.range 16).map (rangeAt ps va (16 * k) + ·), w.quietAt a ∧ w.d.rideOf a = none := by
        intro a ha
        obtain ⟨j, hj, rfl⟩ := List.mem_map.mp ha
        have hj := List.mem_range.mp hj
        rw [← rangeAt_add hv k hj]
        obtain ⟨-, h1, h2⟩ := hok (16 * k + j) (by omega)
        exact ⟨h2, h1⟩
      rw [raceRead_quiet fun a ha => (hmem a ha).1]
      refine congrArg (·, w) ?_
      unfold Work.rangeBytes
      rw [List.map_map]
      refine List.map_congr_left fun j hj => ?_
      rw [rangeAt_add hv k (List.mem_range.mp hj)]
      exact physByte_still (hmem _ (List.mem_map_of_mem hj)).2
    rw [List.range'_succ, List.map_cons, granuleAt, Work.getMore, if_pos (gateNow_still hu hr), hbytes]
    dsimp only
    rw [homeTouch_still hr, show 16 * k + 16 = 16 * (k + 1) by omega, ih fun i hi => hok i (by omega), pow_8,
      show 16 * (m + 1) = 16 + 16 * m by omega, Work.rangeBytes_add, bytesNat_append, Work.length_rangeBytes,
      show 16 * k + 16 = 16 * (k + 1) by omega, show k + 1 + m = k + (m + 1) by omega]
    refine congrArg (fun a => (w, k + (m + 1), a)) ?_
    rw [show 16 * (k + 1) = 16 * k + 16 by omega, Nat.pow_add]
    ring

end Reading

/-! ### The start of one lane's transfer, and a save of the whole image -/

/-- The transfer of `n` bytes of a slot whose pages are `ps`, before any has moved. -/
def slotXfer (t va id n : Nat) (ps : List Nat) : Xfer :=
  { t := t, va := va, id := id, n := n, tva := 0, tn := 0, done := 0, acc := 0, pages := ps }

@[simp] theorem slotXfer_t (t va id n : Nat) (ps : List Nat) : (slotXfer t va id n ps).t = t := rfl
@[simp] theorem slotXfer_done (t va id n : Nat) (ps : List Nat) : (slotXfer t va id n ps).done = 0 := rfl

theorem slotOf_ok {w : Work} {va t : Nat} {size : Nat → Nat} {kind : XKind} {ps : List Nat} (ha : va % 256 = 0)
    (hlt : va < 2 ^ 57) (hmap : w.mapPages w.dieNo kind false va (size t) = .ok ps) :
    w.slotOf va (some t) size kind = .ok (slotXfer t va w.d.nextId (size t) ps) := by
  unfold Work.slotOf
  rw [if_neg (by simp [ha]), if_neg (by omega)]
  dsimp only
  rw [hmap]
  rfl

theorem slotXfer_granules {t va id n : Nat} {ps : List Nat} (hv : va % 16 = 0) (hn : n % 16 = 0) (k acc : Nat) :
    ({ slotXfer t va id n ps with done := k, acc := acc } : Xfer).granules = (List.range (n / 16)).map (granuleAt ps va) :=
  pageRun_aligned ps hv hn

section Slot

variable {s : State} {ps : List Nat} {va n : Nat}

theorem atIssue_mapPages {kind : XKind} {va n : Nat} {r : Except (Nat × Nat) (List Nat)}
    (h : (begin_ s).mapPages (slotDie s.d.cur.slot) kind false va n = r) :
    (atIssue s []).mapPages (atIssue s []).dieNo kind false va n = r :=
  ((atIssue_reads s).mapPages ..).trans h

/-- Groups are as quiet when the effect starts. -/
theorem atIssue_groupQuiet {h : Hdr} {src dst : List Named} {x : List Nat} (hi : Issued s h src dst x) (k : Nat) :
    (atIssue s []).groupQuiet k = (begin_ s).groupQuiet k := by
  unfold Work.groupQuiet
  by_cases hk : k = s.d.cur.slot
  · subst hk
    have howed : (startGroup s).owed.isEmpty = s.here.owed.isEmpty := by
      unfold startGroup
      split
      · rfl
      · exact List.isEmpty_map
    have hcap : (startGroup s).cap = s.here.cap := by
      unfold startGroup
      split <;> rfl
    rw [atIssue_grp? [] hi, show (begin_ s).grp? s.d.cur.slot = some s.here from hi.grp]
    dsimp only
    rw [howed, hcap]
    rfl
  · rw [atIssue_slot? hk]
    rfl

/-- A byte of a range whose granules are those of an image's that are live. -/
theorem putByte_image {img : List Byte} {live : Nat → Bool} (old : Byte) (i : Nat) :
    putByte (fun k => if live (16 * k) then some ((img.drop (16 * k)).take 16) else none) old i =
      if live (16 * (i / 16)) then img.getD i 0 else old := by
  unfold putByte
  by_cases hl : live (16 * (i / 16)) = true
  · have hm : i % 16 < 16 := Nat.mod_lt _ (by decide)
    dsimp only
    rw [if_pos hl, if_pos hl]
    dsimp only
    rw [List.getD_eq_getElem?_getD, List.getD_eq_getElem?_getD, List.getElem?_take, if_pos hm, List.getElem?_drop,
      Nat.div_add_mod]
  · dsimp only
    rw [if_neg hl, if_neg hl]

/-- `v` is the work of the issue after an image has been written, where it is live, into a slot. -/
structure Saved (s : State) (ps : List Nat) (va n : Nat) (live : Nat → Bool) (img : List Byte) (v : Work) : Prop where
  dies : v.d.dies = s.d.dies
  base : v.base = s.mem
  rest : v.d.rest = { (atIssue s []).d.rest with free := s.d.free + 8192 }
  out : ∀ a, (∀ i < n, a ≠ rangeAt ps va i) → v.byte a = s.byte a
  inside : ∀ i < n, v.byte (rangeAt ps va i) = if live (16 * (i / 16)) then img.getD i 0 else s.byte (rangeAt ps va i)

namespace Saved

variable {live : Nat → Bool} {img : List Byte} {v : Work}

/-- What reads neither cores, dies nor what writes note, and no free values, reads what the issue has. -/
theorem onDev {β : Type} (h : Saved s ps va n live img v) (φ : Dev → β) (hr : ∀ d, φ d.rest = φ d)
    (hf : ∀ d f, φ { d with free := f } = φ d) : φ v.d = φ (atIssue s []).d := by
  rw [← hr v.d, h.rest, hf, hr]

theorem cur (h : Saved s ps va n live img v) : v.d.cur = s.d.cur := h.onDev Dev.cur (fun _ => rfl) fun _ _ => rfl

theorem grp? (h : Saved s ps va n live img v) (k : Nat) : v.grp? k = (atIssue s []).grp? k :=
  congrArg (sget? · k) (h.onDev Dev.groups (fun _ => rfl) fun _ _ => rfl)

theorem blk? (h : Saved s ps va n live img v) (k : Nat) : v.blk? k = (atIssue s []).blk? k :=
  congrArg (sget? · k) (h.onDev Dev.blocks (fun _ => rfl) fun _ _ => rfl)

end Saved

/-- A save whose groups are quiet and whose homes take everything writes the whole image at once. -/
theorem saveStep_puts {slots : Work → Nat → List Nat} {image : Work → Nat → List Byte} {live : Work → Nat → Nat → Bool}
    {t id : Nat} (hv : va % 16 = 0) (hn : n % 16 = 0) (hq : (slots (atIssue s []) t).all (atIssue s []).groupQuiet = true)
    (hr : RangeOk s ps va n) (hw : RangeWrites s ps va n) :
    ∃ v, saveStep slots image live (atIssue s []) (slotXfer t va id n ps) =
        (v, { slotXfer t va id n ps with done := n / 16 + 1 }) ∧
      Saved s ps va n (live (atIssue s []) t) (image (atIssue s []) t) v := by
  have hlen : 16 * (0 + n / 16) = n := by omega
  obtain ⟨v, he, hp⟩ := putMore_puts (piece := fun k => if live (atIssue s []) t (16 * k) then
      some (((image (atIssue s []) t).drop (16 * k)).take 16) else none)
    (w := (atIssue s []).updDev fun d => { d with free := d.free + 8192 }) (k := 0) (m := n / 16) hv
    (fun i hlt => by
      rw [hlen] at hlt
      exact ⟨(hr.1 i hlt).1, (hr.1 i hlt).2, ((atIssue_reads s).leaseFree _).trans (hw i hlt).1⟩)
    (by rw [hlen]; exact hr.2)
  rw [Nat.zero_add] at he hp
  have hlen : 16 * (n / 16) = n := by omega
  refine ⟨v, ?_, hp.rewrites.dies, hp.rewrites.rest.base, hp.rewrites.rest.rest,
    fun a ha => hp.out a fun i _ hlt => ha i (hlen ▸ hlt), fun i hlt => ?_⟩
  · unfold saveStep
    rw [slotXfer_t, hq, show (slotXfer t va id n ps).granules = _ from slotXfer_granules hv hn 0 0]
    dsimp only
    rw [slotXfer_done, slotXfer_t, List.drop_zero, List.range_eq_range', he]
    simp
  · rw [hp.inside i (Nat.zero_le _) (hlen.symm ▸ hlt), putByte_image]
    rfl

/-- A save of one lane that can be written at once. What the instruction does behind the
writes is `post`. -/
theorem save_ends {h : Hdr} {slot handle : Opnd} {l t : Nat} {target : Work → Nat → Option Nat} {size : Work → Nat → Nat}
    {slots : Work → Nat → List Nat} {image : Work → Nat → List Byte} {live : Work → Nat → Nat → Bool}
    {post : Work → Xfer → Work → Work}
    (hi : Issued s h (slot.names 2 ++ handle.names 2) [] [l]) (hst : s.d.cur.stamped = false) (hf : FenceMet s .blk)
    (hva : (s.op64 l slot).toNat = va) (ha : va % 256 = 0) (hlt : va < 2 ^ 57)
    (ht : target (atIssue s []) (s.op64 l handle).toNat = some t) (hs : size (atIssue s []) t = n) (hn : n % 16 = 0)
    (hq : ∀ q ∈ slots (atIssue s []) t, (begin_ s).groupQuiet q = true)
    (hr : RangeOk s ps va n) (hw : RangeWrites s ps va n)
    (hmap : (begin_ s).mapPages (slotDie s.d.cur.slot) .engW false va n = .ok ps) :
    ∃ v, slotOp s h slot handle false (fun w va x => w.slotOf va (target w x) (size w) .engW) (fun w x =>
          (post w x (saveStep slots image live w x).1, (saveStep slots image live w x).2)) =
        .next (leaves s (post (atIssue s []) (slotXfer t va s.d.nextId n ps) v)) ∧
      Saved s ps va n (live (atIssue s []) t) (image (atIssue s []) t) v := by
  have hv : va % 16 = 0 := by omega
  have hstart := slotOf_ok (w := atIssue s []) (t := t) (size := size (atIssue s [])) ha hlt
    (atIssue_mapPages (hs.symm ▸ hmap))
  rw [← ht, hs] at hstart
  obtain ⟨v, hstep, hfacts⟩ := saveStep_puts (slots := slots) (image := image) (live := live) (t := t) (id := s.d.nextId) hv hn
    (List.all_eq_true.mpr fun q hq' => (atIssue_groupQuiet hi q).trans (hq q hq')) hr hw
  have hgr := slotXfer_granules (t := t) (id := s.d.nextId) (ps := ps) hv hn 0 0
  have hex := slotOp_ends (reads := false) (start := fun w va x => w.slotOf va (target w x) (size w) .engW)
    (one := fun w x => (post w x (saveStep slots image live w x).1, (saveStep slots image live w x).2))
    hi hst hf hva hstart (fun p hp => ?_) (Nat.zero_le _) rfl ?_
  · have hex' := hex
    dsimp only at hex'
    rw [show saveStep slots image live (atIssue s []) (slotXfer t va (atIssue s []).d.nextId n ps) = _ from hstep] at hex'
    exact ⟨v, hex', hfacts⟩
  · obtain ⟨i, hi', rfl⟩ := List.mem_map.mp (hgr ▸ hp : p ∈ (List.range (n / 16)).map (granuleAt ps va))
    have hi' := List.mem_range.mp hi'
    rw [(atIssue_reads s).deadAt, Work.deadAt]
    exact Bool.or_eq_false_iff.mpr ⟨(hw (16 * i) (by omega)).2, rfl⟩
  · dsimp only
    rw [show saveStep slots image live (atIssue s []) (slotXfer t va (atIssue s []).d.nextId n ps) = _ from hstep,
      show (slotXfer t va (atIssue s []).d.nextId n ps).granules = _ from hgr, List.length_map, List.length_range]
    exact Nat.lt_succ_self _

/-- A number that stands in an image stands in the slot where the slot has the image's bytes. -/
theorem rangeNum_has_on {t : State} {img : List Byte} {o m x : Nat}
    (hbytes : ∀ i, o ≤ i → i < o + m → t.byte (rangeAt ps va i) = img.getD i 0) (h : Has img o (natBytes m x)) :
    t.rangeNum ps va o m = x % 256 ^ m := by
  rw [← bytesNat_natBytes, State.rangeNum]
  refine congrArg bytesNat (List.ext_getElem (by simp) fun k h1 h2 => ?_)
  have hk : k < m := by simpa using h1
  rw [List.getElem_map, List.getElem_range, hbytes _ (by omega) (by omega), h.getD (by simpa using hk),
    List.getD_eq_getElem _ _ (by simpa using hk)]

theorem rangeNum_has {t : State} {img : List Byte} {o m x : Nat}
    (hbytes : ∀ i < img.length, t.byte (rangeAt ps va i) = img.getD i 0)
    (h : Has img o (natBytes m x)) : t.rangeNum ps va o m = x % 256 ^ m := by
  have hle := h.length_le
  rw [length_natBytes] at hle
  exact rangeNum_has_on (fun i _ hi => hbytes i (by omega)) h

end Slot

end Sys2Proof.Machine
end


section
/-! PROOFS. The group image (for O54): where each field of Tables 2.6 and 2.7 stands in it, and the registers. -/

namespace Sys2Proof.Machine

/-! ### Fields of the header and of a thread record -/

/-- Table 2.6: EXTH and the waiting grow, VB, the issue counter and the horizon stand in bytes of their own. -/
theorem head0_bytes (g : Group) {vb : Nat} (hvb : vb ≤ 8) (hc : g.contTok < 64) : ∃ mid top,
    natBytes 64 (g.head0 vb) = natBytes 1 (g.extH.toNat + 2 * g.growW.isSome.toNat) ++ (natBytes 1 vb ++ (natBytes 6 0 ++
      (natBytes 8 (g.issue % 2 ^ 64) ++ (natBytes 16 mid ++ (natBytes 8 (g.horizon % 2 ^ 64) ++ natBytes 24 top))))) := by
  have he := Bool.toNat_lt g.extH
  have hw := Bool.toNat_lt g.growW.isSome
  have hv := Bool.toNat_lt g.cv
  have hp := g.contPc.isLt
  have hi : g.issue % 2 ^ 64 < 256 ^ 8 := Nat.mod_lt _ (by decide)
  have hh : g.horizon % 2 ^ 64 < 256 ^ 8 := Nat.mod_lt _ (by decide)
  obtain ⟨q, hx⟩ : ∃ q, g.head0 vb = (g.extH.toNat + 2 * g.growW.isSome.toNat) + 256 ^ 1 * (vb + 256 ^ 1 * (0 + 256 ^ 6 *
      (g.issue % 2 ^ 64 + 256 ^ 8 * ((g.contTok + 2 ^ 64 * g.contPc.toNat + 2 ^ 127 * g.cv.toNat) + 256 ^ 16 *
        (g.horizon % 2 ^ 64 + 256 ^ 8 * q))))) := by
    refine ⟨((List.range 6).map fun k => 2 ^ (32 * k) * (sget g.cnt k 0 % 2 ^ 32)).sum, ?_⟩
    unfold Group.head0
    rw [sum_shift 320 32]
    generalize g.issue % 2 ^ 64 = I
    generalize g.horizon % 2 ^ 64 = H
    generalize ((List.range 6).map fun k => 2 ^ (32 * k) * (sget g.cnt k 0 % 2 ^ 32)).sum = q
    omega
  refine ⟨g.contTok + 2 ^ 64 * g.contPc.toNat + 2 ^ 127 * g.cv.toNat, q, ?_⟩
  rw [hx, natBytes_split (n := 63) rfl (by omega), natBytes_split (n := 62) rfl (by omega),
    natBytes_split (n := 56) rfl (by decide), natBytes_split (n := 48) rfl hi, natBytes_split (n := 32) rfl (by omega),
    natBytes_split (n := 24) rfl hh]

theorem TState.code_le (t : TState) : t.code ≤ 4 := by cases t <;> decide

/-- The fields of Table 2.7 that stand in bytes of their own. -/
theorem thread_bytes (t : Thread) : ∃ q top, natBytes 64 t.image = natBytes 8 (t.pc.toNat + 2 ^ 61 * t.st.code) ++
      (natBytes 8 ((t.m.getD 0).toNat + 2 ^ 63 * t.m.isSome.toNat) ++ (natBytes 4 t.l0.toNat ++ (natBytes 4 t.l1.toNat ++
        (natBytes 4 t.l2.toNat ++ (natBytes 4 t.l3.toNat ++ (natBytes 2 t.p.toNat ++ (natBytes 2 q ++
          (natBytes 4 (t.stamp % 2 ^ 32) ++ (natBytes 8 t.seed.toNat ++ natBytes 16 top))))))))) := by
  have hpc := t.pc.isLt
  have hst := t.st.code_le
  have hm := (t.m.getD 0).isLt
  have hms := Bool.toNat_lt t.m.isSome
  have h0 := t.l0.isLt
  have h1 := t.l1.isLt
  have h2 := t.l2.isLt
  have h3 := t.l3.isLt
  have hp := t.p.isLt
  have hs := t.seed.isLt
  have hstamp : t.stamp % 2 ^ 32 < 256 ^ 4 := Nat.mod_lt _ (by decide)
  obtain ⟨q, r, hq, hx⟩ : ∃ q r, q < 2 ^ 16 ∧ t.image = (t.pc.toNat + 2 ^ 61 * t.st.code) + 256 ^ 8 *
      (((t.m.getD 0).toNat + 2 ^ 63 * t.m.isSome.toNat) + 256 ^ 8 * (t.l0.toNat + 256 ^ 4 * (t.l1.toNat + 256 ^ 4 *
        (t.l2.toNat + 256 ^ 4 * (t.l3.toNat + 256 ^ 4 * (t.p.toNat + 256 ^ 2 * (q + 256 ^ 2 *
          (t.stamp % 2 ^ 32 + 256 ^ 4 * (t.seed.toNat + 256 ^ 8 * r))))))))) := by
    refine ⟨((List.range 16).map fun i => 2 ^ (1 * i) * (t.qmap i).isSome.toNat).sum,
      ((List.range 16).map fun i => 2 ^ (8 * i) * (t.qmap i).getD 0).sum,
      sum_fields_lt fun _ _ => Bool.toNat_lt _, ?_⟩
    have hb := sum_shift 272 1 16 fun i => (t.qmap i).isSome.toNat
    simp only [Nat.one_mul] at hb ⊢
    unfold Thread.image
    rw [hb, sum_shift 384 8]
    generalize ((List.range 16).map fun i => 2 ^ i * (t.qmap i).isSome.toNat).sum = q
    generalize ((List.range 16).map fun i => 2 ^ (8 * i) * (t.qmap i).getD 0).sum = r
    generalize t.stamp % 2 ^ 32 = S
    generalize (t.m.getD 0).toNat = M
    omega
  refine ⟨q, r, ?_⟩
  rw [hx, natBytes_split (n := 56) rfl (by omega), natBytes_split (n := 48) rfl (by omega),
    natBytes_split (n := 44) rfl (by omega), natBytes_split (n := 40) rfl (by omega), natBytes_split (n := 36) rfl (by omega),
    natBytes_split (n := 32) rfl (by omega), natBytes_split (n := 30) rfl (by omega), natBytes_split (n := 28) rfl (by omega),
    natBytes_split (n := 24) rfl hstamp, natBytes_split (n := 16) rfl (by omega)]

/-! ### Where they stand in an image -/

/-- Table 2.5: where the parts of a group image stand. -/
theorem groupImage_has (w : Work) (g : Group) {vb : Nat} (hvb : vb ≤ 8) :
    let img := w.groupImage g vb
    img.length = imageSize vb g.extH ∧ Has img 0 (natBytes 64 (g.head0 vb)) ∧
      (∀ j < 32, Has img (0x100 + 64 * j) (natBytes 64 (g.thread j).image)) ∧
      (∀ j < 64, Has img (0x900 + 8 * j) (natBytes 8 (g.readS j).toNat)) ∧
      (∀ j < 16, Has img (0xB00 + 32 * j) (natBytes 32 (g.readT j).toNat)) ∧ Has img 0xD00 (w.vImage g 0 (8 * vb)) ∧
      (g.extH = true → Has img 0x2D00 (w.vImage g 64 256)) := by
  intro img
  obtain ⟨l, hl⟩ : ∃ l, l = img := ⟨_, rfl⟩
  rw [← hl]
  have hV : ∀ a b, (w.vImage g a b).length = 128 * (b - a) := fun a b =>
    length_flatMap_range fun i => length_flatMap_range (n := 32) fun l => length_natBytes 4 _
  have h0 : Has l 0 img := hl ▸ .refl l
  simp only [img, Work.groupImage, List.append_assoc] at h0
  have h1 := h0.skip (length_natBytes 64 _)
  have h2 := h1.skip (length_natBytes 64 _)
  have h3 := h2.skip (n := 128) List.length_replicate
  have h4 := h3.skip (length_flatMap_range (n := 32) fun l => length_natBytes 64 _)
  have h5 := h4.skip (length_flatMap_range (n := 64) fun l => length_natBytes 8 _)
  have h6 := h5.skip (length_flatMap_range (n := 16) fun l => length_natBytes 32 _)
  have h7 := h6.skip (hV 0 (8 * vb))
  refine ⟨?_, h0.left, fun j hj => h3.left.chunk (fun _ => length_natBytes ..) hj,
    fun j hj => h4.left.chunk (fun _ => length_natBytes ..) hj, fun j hj => h5.left.chunk (fun _ => length_natBytes ..) hj,
    h6.left, fun he => ?_⟩
  · have hlen := congrArg List.length hl
    simp only [img, Work.groupImage, List.length_append, length_natBytes, List.length_replicate, hV,
      length_flatMap_range (n := 32) fun l => length_natBytes 64 (g.thread l).image,
      length_flatMap_range (n := 64) fun n => length_natBytes 8 (g.readS n).toNat,
      length_flatMap_range (n := 16) fun n => length_natBytes 32 (g.readT n).toNat] at hlen
    rw [hlen]
    unfold imageSize
    cases g.extH with
    | false => rw [if_neg Bool.false_ne_true, if_neg Bool.false_ne_true, List.length_nil]; omega
    | true => rw [if_pos rfl, if_pos rfl, List.length_append, List.length_replicate, hV]; omega
  · rw [he, if_pos rfl] at h7
    have h8 := h7.skip (n := 1024 * (8 - vb)) List.length_replicate
    rwa [show 0 + 64 + 64 + 128 + 64 * 32 + 8 * 64 + 32 * 16 + 128 * (8 * vb - 0) + 1024 * (8 - vb) = 0x2D00 by omega] at h8

/-- A live V register in an image. -/
theorem vImage_has (w : Work) (g : Group) {a b j i : Nat} (hj : j < b - a) (hi : i < 32) (hl : g.vLive (a + j) = true) :
    Has (w.vImage g a b) (128 * j + 4 * i) (natBytes 4 (g.readV i (a + j)).toNat) := by
  have h1 := (Has.refl (w.vImage g a b)).chunk (c := 128) (fun _ => length_flatMap_range (n := 32) fun _ => length_natBytes 4 _) hj
  have h2 := h1.chunk (c := 4) (fun _ => length_natBytes 4 _) hi
  rw [Nat.zero_add] at h2
  simpa only [hl, if_true] using h2

end Sys2Proof.Machine
end


section
/-! PROOFS. save of a group (a clause of O54). -/

namespace Sys2Proof.Machine

section Stopped

variable {s : State} {h : Hdr} {src dst : List Named} {x : List Nat} {k v : Nat} {g : Group}

theorem stoppedGroup_of (hh : handleGroup v = some k) (hg : (atIssue s []).grp? k = some g) (hst : g.stop.isSome = true) :
    (atIssue s []).stoppedGroup v = some k := by
  unfold Work.stoppedGroup
  rw [hh, Option.bind_some, hg]
  exact if_pos hst

theorem atIssue_vbOf (hg : (atIssue s []).grp? k = some g) : (atIssue s []).vbOf k = (s.blk g.blk).vbase := by
  have hb := (SameTeams.atIssue s).onBlk Block.vbase (fun _ => rfl) g.blk
  unfold Work.vbOf
  rw [hg, Option.bind_some, hb, State.blk]
  show ((sget? s.d.blocks g.blk).map Block.vbase).getD 0 = _
  cases sget? s.d.blocks g.blk <;> rfl

theorem Group.whole_extH (g : Group) : g.whole.extH = (g.extH || g.extIn.isSome) := by
  unfold Group.whole
  cases g.extIn with
  | none => exact (Bool.or_false _).symm
  | some e => exact (Bool.or_true _).symm

theorem Group.whole_contTok (g : Group) : g.whole.contTok = g.contTok := by
  unfold Group.whole
  cases g.extIn <;> rfl

/-- The offset and bytes of a group's slot are whole granules. -/
theorem imageSize_granules (vb : Nat) (ext : Bool) : imageSize vb ext % 16 = 0 := by
  unfold imageSize
  split
  · rfl
  · omega

end Stopped

section Saving

variable {s : State} {h : Hdr} {slot handle : Opnd} {l k : Nat} {g : Group} {ps : List Nat}

/-- save writes the group's image into its slot, and no other byte. -/
theorem saveGroup_writes {va vb n : Nat} (hm : memWf s.mem = true) (hg : s.slot? k = some g) (hstop : g.stop.isSome = true)
    (hk : k ≠ s.d.cur.slot) (hva : (s.op64 l slot).toNat = va) (ha : va % 256 = 0) (hlt : va < 2 ^ 57)
    (hh : handleGroup (s.op64 l handle).toNat = some k) (hst : s.d.cur.stamped = false) (hf : FenceMet s .blk)
    (hq : (begin_ s).groupQuiet k = true) (hi : Issued s h (slot.names 2 ++ handle.names 2) [] [l])
    (hvb : (s.blk g.blk).vbase = vb) (hn : imageSize vb g.whole.extH = n) (hr : RangeOk s ps va n)
    (hw : RangeWrites s ps va n) (hmap : (begin_ s).mapPages (slotDie s.d.cur.slot) .engW false va n = .ok ps) :
    ∃ t, exec (.saveGroup h slot handle) s = .next t ∧ Kept s t ∧ OnlyRange s t ps va n ∧
      ∀ i < n, t.byte (rangeAt ps va i) = ((atIssue s []).groupImage g.whole vb).getD i 0 := by
  have hG : (atIssue s []).grp? k = some g := (atIssue_slot? hk).trans hg
  have hvb' : (atIssue s []).vbOf k = vb := (atIssue_vbOf hG).trans hvb
  have hext : (atIssue s []).extOf k = g.whole.extH := by
    unfold Work.extOf
    rw [hG, Group.whole_extH]
    rfl
  obtain ⟨v, hexec, hv⟩ := save_ends (target := Work.stoppedGroup) (size := fun w t => imageSize (w.vbOf t) (w.extOf t))
    (slots := fun _ t => [t]) (image := fun w t => ((w.grp? t).map fun g => w.groupImage g.whole (w.vbOf t)).getD [])
    (live := fun w t _ => (w.grp? t).isSome) (post := fun _ _ v => v) hi hst hf hva ha hlt (stoppedGroup_of hh hG hstop)
    (by rw [hvb', hext, hn]) (hn ▸ imageSize_granules ..) (by simpa using hq) hr hw hmap
  obtain ⟨hall, hadv, hcore⟩ := leaves_keeps hi hv.cur (hv.grp? _) (hv.blk? _)
  refine ⟨leaves s v, hexec, ⟨fun j hj => ?_, fun j hj => ?_, hcore, hv.dies, ?_, ?_, hall, hadv⟩,
    fun a hna => ?_, fun i hlti => ?_⟩
  · rw [leaves_slot? hv.cur hj, hv.grp?, atIssue_slot? hj]
  · exact (hv.blk? j).trans (atIssue_blk?_ne hi hj)
  · exact hv.onDev Dev.parts (fun _ => rfl) fun _ _ => rfl
  · exact hv.onDev Dev.launches (fun _ => rfl) fun _ _ => rfl
  · rw [leaves_byte hm hv.base, hv.out a hna]
  · rw [leaves_byte hm hv.base, hv.inside i hlti, hG, hvb']
    rfl

end Saving

/-! ### The numbers of the image -/

section Numbers

variable {t : State} {ps : List Nat} {va vb : Nat} {img : List Byte} {g : Group}

/-- The fields of the header stand in the slot. -/
theorem head0_nums (hb : ∀ i < img.length, t.byte (rangeAt ps va i) = img.getD i 0) (hvb : vb ≤ 8) (hc : g.contTok < 64)
    (h : Has img 0 (natBytes 64 (g.head0 vb))) :
    let num := t.rangeNum ps va
    num 0 1 = g.extH.toNat + 2 * g.growW.isSome.toNat ∧ num 1 1 = vb ∧ num 8 8 = g.issue % 2 ^ 64 ∧
      num 32 8 = g.horizon % 2 ^ 64 := by
  intro num
  obtain ⟨mid, top, hx⟩ := head0_bytes g hvb hc
  rw [hx] at h
  have h1 := h.skip (length_natBytes 1 _)
  have h8 := (h1.skip (length_natBytes 1 _)).skip (length_natBytes 6 _)
  have h32 := (h8.skip (length_natBytes 8 _)).skip (length_natBytes 16 _)
  have he := Bool.toNat_lt g.extH
  have hw := Bool.toNat_lt g.growW.isSome
  refine ⟨(rangeNum_has hb h.left).trans (Nat.mod_eq_of_lt (by omega)),
    (rangeNum_has hb h1.left).trans (Nat.mod_eq_of_lt (by omega)), (rangeNum_has hb h8.left).trans (Nat.mod_mod ..),
    (rangeNum_has hb h32.left).trans (Nat.mod_mod ..)⟩

/-- The fields of a thread record stand in the slot. -/
theorem thread_nums (hb : ∀ i < img.length, t.byte (rangeAt ps va i) = img.getD i 0) {th : Thread} {o : Nat}
    (h : Has img o (natBytes 64 th.image)) :
    let num := t.rangeNum ps va
    num o 8 = th.pc.toNat + 2 ^ 61 * th.st.code ∧ num (o + 16) 4 = th.l0.toNat ∧ num (o + 20) 4 = th.l1.toNat ∧
      num (o + 24) 4 = th.l2.toNat ∧ num (o + 28) 4 = th.l3.toNat ∧ num (o + 32) 2 % 2 ^ 15 = th.p.toNat ∧
      num (o + 36) 4 = th.stamp % 2 ^ 32 ∧ num (o + 40) 8 = th.seed.toNat ∧
      num (o + 8) 8 = (th.m.getD 0).toNat + 2 ^ 63 * th.m.isSome.toNat := by
  intro num
  obtain ⟨q, top, hx⟩ := thread_bytes th
  rw [hx] at h
  have h8 := h.skip (length_natBytes 8 _)
  have h16 := h8.skip (length_natBytes 8 _)
  have h20 := h16.skip (length_natBytes 4 _)
  have h24 := h20.skip (length_natBytes 4 _)
  have h28 := h24.skip (length_natBytes 4 _)
  have h32 := h28.skip (length_natBytes 4 _)
  have h36 := (h32.skip (length_natBytes 2 _)).skip (length_natBytes 2 _)
  have h40 := h36.skip (length_natBytes 4 _)
  have hpc := th.pc.isLt
  have hst := th.st.code_le
  have hm := (th.m.getD 0).isLt
  have hms := Bool.toNat_lt th.m.isSome
  have hp := th.p.isLt
  have hword : ∀ {a : Nat} {x : Word}, Has img a (natBytes 4 x.toNat) → num a 4 = x.toNat := fun hh =>
    (rangeNum_has hb hh).trans (Nat.mod_eq_of_lt (BitVec.isLt _))
  have hp2 : num (o + 32) 2 = th.p.toNat := (rangeNum_has hb h32.left).trans (Nat.mod_eq_of_lt (by omega))
  refine ⟨(rangeNum_has hb h.left).trans (Nat.mod_eq_of_lt (by omega)), hword h16.left, hword h20.left, hword h24.left,
    hword h28.left, ?_, (rangeNum_has hb h36.left).trans (Nat.mod_mod ..),
    (rangeNum_has hb h40.left).trans (Nat.mod_eq_of_lt (BitVec.isLt _)),
    (rangeNum_has hb h8.left).trans (Nat.mod_eq_of_lt (by omega))⟩
  rw [hp2]
  exact Nat.mod_eq_of_lt hp

end Numbers

/-- A live register of the base or of the extended set (R208). -/
theorem vLive_of_low {g : Group} {n : Nat} (hn : n < 64) (h : g.stop ≠ some .phint ∨ g.mBase.getLsbD (n / 8) = true) :
    g.vLive n = true := by
  unfold Group.vLive
  rw [if_pos hn]
  split
  · next hp => exact h.resolve_left fun hc => hc hp
  · rfl

theorem vLive_of_high {g : Group} {n : Nat} (h : g.stop ≠ some .phint ∨ g.mExt.getLsbD (n / 24) = true) :
    g.vLive (64 + n) = true := by
  unfold Group.vLive
  rw [if_neg (show ¬64 + n < 64 by omega), Nat.add_sub_cancel_left]
  split
  · next hp => exact h.resolve_left fun hc => hc hp
  · rfl

/-- The image of a group in a slot that holds it byte for byte (Tables 2.5 to 2.7). -/
theorem groupImage_nums {t : State} {ps : List Nat} {va vb : Nat} {w : Work} {g : Group} (hvb : vb ≤ 8) (hc : g.contTok < 64)
    (hb : ∀ i < imageSize vb g.extH, t.byte (rangeAt ps va i) = (w.groupImage g vb).getD i 0) :
    let num := t.rangeNum ps va
    num 0 1 = g.extH.toNat + 2 * g.growW.isSome.toNat ∧ num 1 1 = vb ∧ num 8 8 = g.issue % 2 ^ 64 ∧ num 32 8 = g.horizon % 2 ^ 64 ∧
       (∀ j < 32, let th := g.thread j
         let at_ := 0x100 + 64 * j
         num at_ 8 = th.pc.toNat + 2 ^ 61 * th.st.code ∧ num (at_ + 16) 4 = th.l0.toNat ∧ num (at_ + 20) 4 = th.l1.toNat ∧
           num (at_ + 24) 4 = th.l2.toNat ∧ num (at_ + 28) 4 = th.l3.toNat ∧ num (at_ + 32) 2 % 2 ^ 15 = th.p.toNat ∧
           num (at_ + 36) 4 = th.stamp % 2 ^ 32 ∧ num (at_ + 40) 8 = th.seed.toNat ∧
           num (at_ + 8) 8 = (th.m.getD 0).toNat + 2 ^ 63 * th.m.isSome.toNat) ∧
       (∀ j < 64, num (0x900 + 8 * j) 8 = (g.readS j).toNat) ∧ (∀ j < 16, num (0xB00 + 32 * j) 32 = (g.readT j).toNat) ∧
       (∀ j < 8 * vb, ∀ i < 32, g.stop ≠ some .phint ∨ g.mBase.getLsbD (j / 8) = true →
         num (0xD00 + 128 * j + 4 * i) 4 = (g.readV i j).toNat) ∧
       ∀ j < 192, ∀ i < 32, g.extH = true → g.stop ≠ some .phint ∨ g.mExt.getLsbD (j / 24) = true →
         num (0x2D00 + 128 * j + 4 * i) 4 = (g.readV i (64 + j)).toNat := by
  intro num
  obtain ⟨hlen, hhead, hthr, hS, hT, hV, hX⟩ := groupImage_has w g hvb
  rw [← hlen] at hb
  have hword : ∀ {a : Nat} {x : Word}, Has (w.groupImage g vb) a (natBytes 4 x.toNat) → num a 4 = x.toNat := fun hh =>
    (rangeNum_has hb hh).trans (Nat.mod_eq_of_lt (BitVec.isLt _))
  obtain ⟨h0, h1, h8, h32⟩ := head0_nums hb hvb hc hhead
  refine ⟨h0, h1, h8, h32, fun j hj => thread_nums hb (hthr j hj),
    fun j hj => (rangeNum_has hb (hS j hj)).trans (Nat.mod_eq_of_lt (BitVec.isLt _)),
    fun j hj => (rangeNum_has hb (hT j hj)).trans (Nat.mod_eq_of_lt (BitVec.isLt _)), fun j hj i hi hl => ?_,
    fun j hj i hi he hl => ?_⟩
  · have h := vImage_has w g (a := 0) (b := 8 * vb) hj hi (by rw [Nat.zero_add]; exact vLive_of_low (by omega) hl)
    rw [Nat.zero_add] at h
    rw [Nat.add_assoc]
    exact hword (hV.trans h)
  · rw [Nat.add_assoc]
    exact hword ((hX he).trans (vImage_has w g (b := 256) hj hi (vLive_of_high hl)))

end Sys2Proof.Machine
end


section
/-! PROOFS. A restore of one lane that can read its whole slot at once (for O54 and O55), and numbers read from an image. -/

namespace Sys2Proof.Machine

/-! ### Numbers of a range -/

theorem rangeNum_eq (s : State) (ps : List Nat) (va o n : Nat) :
    s.rangeNum ps va o n = bytesNat ((begin_ s).rangeBytes ps va o n) := rfl

/-- A part of a range's bytes. -/
theorem Work.rangeBytes_slice (w : Work) (ps : List Nat) (va : Nat) {n o m : Nat} (h : o + m ≤ n) :
    ((w.rangeBytes ps va 0 n).drop o).take m = w.rangeBytes ps va o m := by
  obtain ⟨k, rfl⟩ := Nat.exists_eq_add_of_le h
  rw [Work.rangeBytes_add, Work.rangeBytes_add, List.append_assoc, List.drop_append_of_le_length (by simp),
    List.drop_of_length_le (by simp), List.nil_append, Nat.zero_add, List.take_append_of_le_length (by simp),
    List.take_of_length_le (by simp)]

section Numbers

variable {s : State} {ps : List Nat} {va : Nat}

theorem rangeNum_slice {n o m : Nat} (h : o + m ≤ n) :
    bytesNat ((((begin_ s).rangeBytes ps va 0 n).drop o).take m) = s.rangeNum ps va o m := by
  rw [Work.rangeBytes_slice _ _ _ h]
  rfl

/-- A field of a number of a range, from the bytes that hold it. -/
theorem bits_rangeNum {o m j c r n : Nat} (h : r + n ≤ 8 * c) (hj : j + c ≤ m) :
    bits (s.rangeNum ps va o m) (8 * j + r) n = s.rangeNum ps va (o + j) c / 2 ^ r % 2 ^ n := by
  obtain ⟨k, rfl⟩ := Nat.exists_eq_add_of_le hj
  rw [rangeNum_eq, bits_bytesNat _ _ _ h, Work.rangeBytes_add, Work.rangeBytes_add, List.append_assoc,
    List.drop_append_of_le_length (by simp), List.drop_of_length_le (by simp), List.nil_append,
    List.take_append_of_le_length (by simp), List.take_of_length_le (by simp), ← rangeNum_eq]

theorem rangeNum_lt (o c : Nat) : s.rangeNum ps va o c < 256 ^ c := by
  have h := bytesNat_lt ((begin_ s).rangeBytes ps va o c)
  rwa [Work.length_rangeBytes] at h

/-- A field that fills its bytes. -/
theorem bits_rangeNum_full {o m j c : Nat} (hj : j + c ≤ m) :
    bits (s.rangeNum ps va o m) (8 * j) (8 * c) = s.rangeNum ps va (o + j) c := by
  have h := bits_rangeNum (s := s) (ps := ps) (va := va) (o := o) (m := m) (j := j) (r := 0) (n := 8 * c) (c := c) (by omega) hj
  rw [Nat.add_zero, Nat.pow_zero, Nat.div_one, pow_8, Nat.mod_eq_of_lt (rangeNum_lt ..)] at h
  exact h

/-- A number of one byte is that byte. -/
theorem rangeNum_one (o : Nat) : s.rangeNum ps va o 1 = (s.byte (rangeAt ps va o)).toNat := by
  simp [State.rangeNum, bytesNat]

end Numbers

/-! ### The whole slot is read -/

section Restore

variable {s : State} {ps : List Nat} {va n : Nat}

theorem atIssue_rangeBytes (o m : Nat) : (atIssue s []).rangeBytes ps va o m = (begin_ s).rangeBytes ps va o m := rfl

theorem sum_granules (k : Nat) : (((List.range k).map (granuleAt ps va)).map Prod.snd).sum = 16 * k := by
  rw [List.map_map, show Prod.snd ∘ granuleAt ps va = fun _ => 16 from rfl, List.map_const', List.sum_replicate,
    List.length_range, smul_eq_mul, Nat.mul_comm]

/-- The last step of a restore: what has been read, with the rest of the granules, is the whole slot. -/
theorem restoreStep_loads {act : Work → Xfer → List Byte → Option Work} {t id k : Nat} {w' : Work} (hv : va % 16 = 0)
    (hn : n % 16 = 0) (hk : 16 * k ≤ n) (hr : RangeOk s ps va n) (hq : RangeReads s ps va n)
    (hact : act (atIssue s []) { slotXfer t va id n ps with done := n / 16, acc := s.rangeNum ps va 0 n }
      ((begin_ s).rangeBytes ps va 0 n) = some w') :
    restoreStep act (atIssue s []) { slotXfer t va id n ps with done := k, acc := s.rangeNum ps va 0 (16 * k) } =
      (w', { slotXfer t va id n ps with done := n / 16 + 1, acc := s.rangeNum ps va 0 n }) := by
  obtain ⟨m, hm⟩ := Nat.exists_eq_add_of_le (show k ≤ n / 16 by omega)
  have hlen : 16 * (k + m) = n := by omega
  have hgs := slotXfer_granules (t := t) (id := id) (ps := ps) hv hn k (s.rangeNum ps va 0 (16 * k))
  have hdrop : ((List.range (n / 16)).map (granuleAt ps va)).drop k = (List.range' k m).map (granuleAt ps va) := by
    rw [← List.map_drop, List.range_eq_range', List.drop_range', hm, Nat.add_sub_cancel_left, Nat.zero_add, Nat.mul_one]
  have htake : ((List.range (n / 16)).map (granuleAt ps va)).take k = (List.range k).map (granuleAt ps va) := by
    rw [← List.map_take, List.take_range, Nat.min_eq_left (by omega)]
  have hget := getMore_gets (w := atIssue s []) (ps := ps) (k := k) (m := m) (acc := s.rangeNum ps va 0 (16 * k)) hv
    fun i hi => ⟨(hr.1 i (by omega)).1, (hr.1 i (by omega)).2, (hq i (by omega)).2⟩
  have hacc : s.rangeNum ps va 0 (16 * k) +
      bytesNat ((atIssue s []).rangeBytes ps va (16 * k) (16 * m)) * 256 ^ (16 * k) = s.rangeNum ps va 0 n := by
    rw [atIssue_rangeBytes, rangeNum_eq, rangeNum_eq, ← hlen, Nat.mul_add, Work.rangeBytes_add, bytesNat_append,
      Work.length_rangeBytes, Nat.zero_add, Nat.mul_comm (bytesNat _)]
  have hbytes : natBytes (16 * (n / 16)) (s.rangeNum ps va 0 n) = (begin_ s).rangeBytes ps va 0 n := by
    have h := natBytes_bytesNat ((begin_ s).rangeBytes ps va 0 n)
    rw [Work.length_rangeBytes] at h
    rwa [show 16 * (n / 16) = n by omega]
  unfold restoreStep
  rw [hgs]
  dsimp only
  rw [hdrop, htake, sum_granules, sum_granules, hget, hacc, ← hm, hbytes, hact, List.length_map, List.length_range,
    if_neg (Nat.lt_irrefl _)]

/-- A restore of one lane whose slot can be read at once. -/
theorem restore_ends {h : Hdr} {slot handle : Opnd} {l t id k : Nat} {start : Work → Nat → Nat → Except Fail Xfer}
    {act : Work → Xfer → List Byte → Option Work} {w' : Work}
    (hi : Issued s h (slot.names 2 ++ handle.names 2) [] [l]) (hst : s.d.cur.stamped = false) (hf : FenceMet s .blk)
    (hva : (s.op64 l slot).toNat = va) (ha : va % 256 = 0) (hn : n % 16 = 0) (hk : 16 * k ≤ n)
    (hs : start (atIssue s []) va (s.op64 l handle).toNat =
      .ok { slotXfer t va id n ps with done := k, acc := s.rangeNum ps va 0 (16 * k) })
    (hr : RangeOk s ps va n) (hq : RangeReads s ps va n)
    (hact : act (atIssue s []) { slotXfer t va id n ps with done := n / 16, acc := s.rangeNum ps va 0 n }
      ((begin_ s).rangeBytes ps va 0 n) = some w') :
    slotOp s h slot handle true start (restoreStep act) = .next (leaves s w') := by
  have hv : va % 16 = 0 := by omega
  have hgs := slotXfer_granules (t := t) (id := id) (ps := ps) hv hn k (s.rangeNum ps va 0 (16 * k))
  refine slotOp_ends hi hst hf hva hs (fun p hp => ?_) ?_ (restoreStep_loads hv hn hk hr hq hact) ?_
  · rw [hgs] at hp
    obtain ⟨i, hi', rfl⟩ := List.mem_map.mp hp
    have hi' := List.mem_range.mp hi'
    exact ((atIssue_reads s).deadAt ..).trans (hq (16 * i) (by omega)).1
  · rw [hgs, List.length_map, List.length_range]
    show k ≤ n / 16
    omega
  · rw [hgs, List.length_map, List.length_range]
    exact Nat.lt_succ_self _

end Restore

end Sys2Proof.Machine
end


section
/-! PROOFS. A group from its image (for O54): the fields that are read off it, and the group that is loaded. -/

namespace Sys2Proof.Machine

/-! ### Sparse lists by entry -/

theorem sget?_append {α : Type} (a b : Sparse α) (k : Nat) : sget? (a ++ b) k = (sget? a k).or (sget? b k) := by
  induction a with
  | nil => rfl
  | cons e a ih =>
    rw [List.cons_append, sget?, sget?]
    split
    · rfl
    · exact ih

/-- A list with an entry per number below `n`. -/
theorem sget?_map_range {α : Type} (f : Nat → α) (n k : Nat) :
    sget? ((List.range n).map fun i => (i, f i)) k = if k < n then some (f k) else none := by
  induction n with
  | zero => rfl
  | succ n ih =>
    rw [List.range_succ, List.map_append, sget?_append, ih, List.map_singleton, sget?, sget?]
    by_cases hk : k < n
    · rw [if_pos hk, if_pos (Nat.lt_succ_of_lt hk)]; rfl
    · rw [if_neg hk, Option.none_or]
      by_cases he : n = k
      · subst he; rw [if_pos rfl, if_pos (Nat.lt_succ_self _)]
      · rw [if_neg he, if_neg (show ¬k < n + 1 by omega)]

/-- The value at a key of entries set one after the other, where all entries of the key agree. -/
theorem sget?_foldl_sset {α : Type} {es : List (Nat × α)} {k : Nat} {v : α} (hm : (k, v) ∈ es)
    (hv : ∀ e ∈ es, e.1 = k → e.2 = v) (m : Sparse α) :
    sget? (es.foldl (fun m e => sset m e.1 e.2) m) k = some v := by
  induction es using List.reverseRecOn with
  | nil => cases hm
  | append_singleton es e ih =>
    rw [List.foldl_append, List.foldl_cons, List.foldl_nil, sget?_sset]
    by_cases hk : k = e.1
    · rw [if_pos hk, hv e (by simp) hk.symm]
    · rw [if_neg hk]
      refine ih ?_ fun e' he' => hv e' (List.mem_append_left _ he')
      rcases List.mem_append.mp hm with h | h
      · exact h
      · exact absurd (congrArg Prod.fst (List.mem_singleton.mp h)) hk

/-! ### The V registers of an image -/

/-- Register `j` of lane `l` of a register image. -/
def imageWord (bs : List Byte) (j l : Nat) : Word := BitVec.ofNat 32 (bytesNat ((bs.drop (128 * j + 4 * l)).take 4))

theorem mem_vEntries (bs : List Byte) (a b : Nat) (e : Nat × Word) :
    e ∈ vEntries bs a b ↔ ∃ l < 32, ∃ j < b - a, e = (256 * l + a + j, imageWord bs j l) := by
  unfold vEntries imageWord
  simp only [List.mem_flatMap, List.mem_map, List.mem_range]
  refine exists_congr fun l => and_congr_right fun hl => exists_congr fun j => and_congr_right fun hj => ?_
  have hlt : 32 * j + l < (b - a) * 32 := by omega
  rw [List.getD_eq_getElem _ _ (by simpa using hlt), List.getElem_map, List.getElem_range,
    show 4 * (32 * j + l) = 128 * j + 4 * l by omega]
  exact eq_comm

/-- The V registers of an image of `vb` eighths of the base set and, if `ext`, of the extended set. -/
def imageRegs (bs : List Byte) (vb : Nat) (ext : Bool) : Sparse Word :=
  (vEntries (bs.drop 0xD00) 0 (8 * vb) ++ (if ext then vEntries (bs.drop 0x2D00) 64 256 else [])).foldl
    (fun m e => sset m e.1 e.2) []

theorem imageRegs_base {bs : List Byte} {vb : Nat} {ext : Bool} (hvb : vb ≤ 8) {i j : Nat} (hi : i < 32) (hj : j < 8 * vb) :
    sget? (imageRegs bs vb ext) (256 * i + j) = some (imageWord (bs.drop 0xD00) j i) := by
  refine sget?_foldl_sset (List.mem_append_left _ ((mem_vEntries ..).mpr ⟨i, hi, j, by omega, rfl⟩)) (fun e he hk => ?_) []
  rcases List.mem_append.mp he with h | h
  · obtain ⟨l, hl, m, hm, rfl⟩ := (mem_vEntries ..).mp h
    obtain ⟨rfl, rfl⟩ : l = i ∧ m = j := by dsimp only at hk; omega
    rfl
  · cases ext with
    | false => cases h
    | true =>
      obtain ⟨l, hl, m, hm, rfl⟩ := (mem_vEntries ..).mp h
      dsimp only at hk
      omega

theorem imageRegs_ext {bs : List Byte} {vb : Nat} (hvb : vb ≤ 8) {i j : Nat} (hi : i < 32) (hj : j < 192) :
    sget? (imageRegs bs vb true) (256 * i + 64 + j) = some (imageWord (bs.drop 0x2D00) j i) := by
  refine sget?_foldl_sset (List.mem_append_right _ ((mem_vEntries _ 64 256 _).mpr ⟨i, hi, j, by omega, rfl⟩)) (fun e he hk => ?_) []
  rcases List.mem_append.mp he with h | h
  · obtain ⟨l, hl, m, hm, rfl⟩ := (mem_vEntries ..).mp h
    dsimp only at hk
    omega
  · obtain ⟨l, hl, m, hm, rfl⟩ := (mem_vEntries _ 64 256 _).mp h
    obtain ⟨rfl, rfl⟩ : l = i ∧ m = j := by dsimp only at hk; omega
    rfl

/-! ### The group of an image -/

section OfImage

variable {s : State} {ps : List Nat} {va vb n : Nat}

/-- A word of an image is one of the slot. -/
theorem imageWord_toNat {o j i : Nat} (h : o + (128 * j + 4 * i) + 4 ≤ n) :
    (imageWord (((begin_ s).rangeBytes ps va 0 n).drop o) j i).toNat = s.rangeNum ps va (o + 128 * j + 4 * i) 4 := by
  have hlt : s.rangeNum ps va (o + (128 * j + 4 * i)) 4 < 2 ^ 32 := rangeNum_lt ..
  unfold imageWord
  rw [List.drop_drop, rangeNum_slice h, BitVec.toNat_ofNat, Nat.mod_eq_of_lt hlt, Nat.add_assoc o]

theorem code_ofCode (c : Nat) : (TState.ofCode c).code = min 4 c := by
  match c with
  | 0 | 1 | 2 | 3 => rfl
  | c + 4 => exact (Nat.min_eq_left (Nat.le_add_left 4 c)).symm

/-- What a thread takes from its record of the slot (Table 2.7). -/
theorem thread_ofImage (old : Thread) (issue : Nat) (parked : Bool) (o : Nat) :
    let th := old.ofImage (s.rangeNum ps va o 64) issue parked
    let num := s.rangeNum ps va
    th.pc = BitVec.ofNat 57 (num o 8) ∧ th.st.code = min 4 (num (o + 7) 1 / 32) ∧
      th.l0.toNat = num (o + 16) 4 ∧ th.l1.toNat = num (o + 20) 4 ∧ th.l2.toNat = num (o + 24) 4 ∧
      th.l3.toNat = num (o + 28) 4 ∧ th.p.toNat = num (o + 32) 2 % 2 ^ 15 ∧
      th.seed.toNat = num (o + 40) 8 ∧ (th.m.isSome = true ↔ num (o + 15) 1 / 128 = 1) ∧
      ∀ m, th.m = some m → m = BitVec.ofNat 57 (num (o + 8) 8) := by
  intro th num
  have hb : ∀ c, num c 1 < 256 := fun c => rangeNum_lt c 1
  have hword : ∀ j, j + 4 ≤ 64 → (BitVec.ofNat 32 (bits (num o 64) (8 * j) 32)).toNat = num (o + j) 4 := fun j hj => by
    rw [show bits (num o 64) (8 * j) 32 = num (o + j) 4 from bits_rangeNum_full (c := 4) hj, BitVec.toNat_ofNat]
    exact Nat.mod_eq_of_lt (rangeNum_lt ..)
  have hpc : num o 64 % 2 ^ 57 = num o 8 % 2 ^ 57 := by
    simpa [bits] using bits_rangeNum (s := s) (ps := ps) (va := va) (o := o) (m := 64) (j := 0) (c := 8) (r := 0) (n := 57)
      (by decide) (by decide)
  have hst : bits (num o 64) 61 3 = num (o + 7) 1 / 32 % 8 := bits_rangeNum (j := 7) (r := 5) (c := 1) (by decide) (by decide)
  have hme : bits (num o 64) 127 1 = num (o + 15) 1 / 128 % 2 := bits_rangeNum (j := 15) (r := 7) (c := 1) (by decide) (by decide)
  have hm : bits (num o 64) 64 57 = num (o + 8) 8 / 2 ^ 0 % 2 ^ 57 := bits_rangeNum (j := 8) (r := 0) (c := 8) (by decide) (by decide)
  have hp : bits (num o 64) 256 15 = num (o + 32) 2 / 2 ^ 0 % 2 ^ 15 :=
    bits_rangeNum (j := 32) (r := 0) (c := 2) (by decide) (by decide)
  have hseed : bits (num o 64) 320 64 = num (o + 40) 8 := bits_rangeNum_full (j := 40) (c := 8) (by decide)
  rw [Nat.pow_zero, Nat.div_one] at hm hp
  have h7 := hb (o + 7)
  have h15 := hb (o + 15)
  have hcode : num (o + 7) 1 / 32 % 8 = num (o + 7) 1 / 32 := Nat.mod_eq_of_lt (by omega)
  have hM : th.m = if num (o + 15) 1 / 128 % 2 = 1 then some (BitVec.ofNat 57 (num (o + 8) 8 % 2 ^ 57)) else none := by
    rw [← hme, ← hm]; rfl
  refine ⟨BitVec.eq_of_toNat_eq hpc, ?_, hword 16 (by decide), hword 20 (by decide), hword 24 (by decide),
    hword 28 (by decide), ?_, ?_, ?_, fun m h => ?_⟩
  · show (TState.ofCode (bits (num o 64) 61 3)).code = _
    rw [code_ofCode, hst, hcode]
  · show (BitVec.ofNat 15 (bits (num o 64) 256 15)).toNat = _
    rw [hp, BitVec.toNat_ofNat, Nat.mod_mod]
  · show (BitVec.ofNat 64 (bits (num o 64) 320 64)).toNat = _
    rw [hseed, BitVec.toNat_ofNat]
    exact Nat.mod_eq_of_lt (rangeNum_lt ..)
  · rw [hM]
    split
    · next h => simp; omega
    · next h => simp; omega
  · rw [hM] at h
    split at h
    · rw [← Option.some.inj h]
      exact BitVec.eq_of_toNat_eq (Nat.mod_mod ..)
    · exact absurd h (Option.some_ne_none m).symm

end OfImage

/-! ### The group that is loaded -/

/-- The group of an image whose extended set, where it holds one that is not `free`, is to be granted to it. -/
def Group.loaded (g : Group) (bs : List Byte) (vb horizon now : Nat) (free : Bool) : Group :=
  let g' := g.ofImage bs vb horizon now
  if g'.extH && !free then g'.waitExt now else g'

/-- A group whose threads wait as `ws` says. -/
def Group.withWaits (ws : List (Nat × Wait)) (g : Group) : Group :=
  ws.foldl (fun g p => g.updThread p.1 fun th => { th with wait := some p.2 }) g

/-- A restore that loads an image changes the group alone. -/
theorem loadGroup_eq {w : Work} {t : Nat} {g : Group} (hg : w.grp? t = some g) (bs : List Byte) : ∃ ws,
    w.loadGroup t bs = some ((w.setGrp t (g.loaded bs (w.vbOf t) (coreCount w.d.now (slotCore t)) w.d.now
      (g.extH || w.setFree t w.d.now))).updGrp t (Group.withWaits ws)) := by
  unfold Work.loadGroup
  rw [hg]
  exact ⟨_, rfl⟩

section Loaded

variable {g : Group} {bs : List Byte} {vb horizon now : Nat} {free : Bool} {ws : List (Nat × Wait)}

theorem withWaits_keeps {β : Type} (φ : Group → β) (hφ : ∀ g l f, φ (Group.updThread g l f) = φ g) (g : Group) :
    φ (g.withWaits ws) = φ g :=
  foldl_keeps ws _ φ (fun g p => hφ g p.1 fun th => { th with wait := some p.2 }) g

theorem withWaits_thread {β : Type} (φ : Thread → β) (hφ : ∀ t w, φ { t with wait := some w } = φ t) (g : Group) (k : Nat) :
    φ ((g.withWaits ws).thread k) = φ (g.thread k) := by
  refine foldl_keeps ws _ (fun g => φ (g.thread k)) (fun g p => ?_) g
  rw [Group.thread_updThread]
  split
  · next h => rw [hφ, h]
  · rfl

theorem loaded_keeps {β : Type} (φ : Group → β) (hφ : ∀ g now, φ (Group.waitExt g now) = φ g) :
    φ (g.loaded bs vb horizon now free) = φ (g.ofImage bs vb horizon now) := by
  unfold Group.loaded
  dsimp only
  split
  · exact hφ ..
  · rfl

theorem loaded_extH : (g.loaded bs vb horizon now free).extH = ((g.ofImage bs vb horizon now).extH && free) := by
  unfold Group.loaded
  dsimp only
  cases hE : (g.ofImage bs vb horizon now).extH <;> cases free <;> simp [hE, Group.waitExt]

end Loaded

/-! ### What the loaded group holds -/

theorem sget_map_range {α : Type} (f : Nat → α) (d : α) {n k : Nat} (hk : k < n) :
    sget ((List.range n).map fun i => (i, f i)) k d = f k := by
  rw [sget, sget?_map_range, if_pos hk, Option.getD_some]

section Fields

variable (g : Group) (bs : List Byte) (vb horizon now : Nat)

theorem ofImage_thread {j : Nat} (hj : j < 32) : ∃ issue parked, (g.ofImage bs vb horizon now).thread j =
    (g.thread j).ofImage (bytesNat ((bs.drop (0x100 + 64 * j)).take 64)) issue parked :=
  ⟨_, _, sget_map_range (fun l => (g.thread l).ofImage (bytesNat ((bs.drop (0x100 + 64 * l)).take 64))
    (bits (bytesNat ((bs.drop 0).take 64)) 64 64)
    (decide (bits (bytesNat ((bs.drop 64).take 64)) (64 + l) 1 = 1))) Thread.gone hj⟩

theorem ofImage_readS {j : Nat} (hj : j < 64) : (g.ofImage bs vb horizon now).readS j =
    BitVec.ofNat 64 (bytesNat ((bs.drop (0x900 + 8 * j)).take 8)) :=
  sget_map_range (fun j => BitVec.ofNat 64 (bytesNat ((bs.drop (0x900 + 8 * j)).take 8))) 0 hj

theorem ofImage_readT {j : Nat} (hj : j < 16) : (g.ofImage bs vb horizon now).readT j =
    BitVec.ofNat 256 (bytesNat ((bs.drop (0xB00 + 32 * j)).take 32)) :=
  sget_map_range (fun j => BitVec.ofNat 256 (bytesNat ((bs.drop (0xB00 + 32 * j)).take 32))) 0 hj

theorem ofImage_v : (g.ofImage bs vb horizon now).v = imageRegs bs vb (bits (bytesNat ((bs.drop 0).take 64)) 0 1 == 1) := by
  unfold imageRegs
  simp only [beq_iff_eq]
  rfl

end Fields

section Holds

variable {s : State} {ps : List Nat} {va vb n : Nat} {ext : Bool} {g : Group} {horizon now : Nat}

/-- EXTH, the issue counter, the threads and the S and T registers of a slot (Tables 2.5 to 2.7). -/
theorem ofImage_holds (hn : 0xD00 ≤ n) (hext : s.rangeNum ps va 0 1 % 2 = ext.toNat) :
    let num := s.rangeNum ps va
    let g' := g.ofImage ((begin_ s).rangeBytes ps va 0 n) vb horizon now
    g'.extH = ext ∧ g'.issue = num 8 8 ∧ g'.v = imageRegs ((begin_ s).rangeBytes ps va 0 n) vb ext ∧
      (∀ j < 32, ∃ issue parked, g'.thread j = (g.thread j).ofImage (num (0x100 + 64 * j) 64) issue parked) ∧
      (∀ j < 64, (g'.readS j).toNat = num (0x900 + 8 * j) 8) ∧ ∀ j < 16, (g'.readT j).toNat = num (0xB00 + 32 * j) 32 := by
  intro num g'
  have hat : ∀ {o m}, o + m ≤ n → bytesNat ((((begin_ s).rangeBytes ps va 0 n).drop o).take m) = num o m := rangeNum_slice
  have h0 := hat (o := 0) (m := 64) (by omega)
  have hbit : bits (num 0 64) 0 1 = ext.toNat := by
    rw [← hext]
    simpa [bits] using bits_rangeNum (s := s) (ps := ps) (va := va) (o := 0) (m := 64) (j := 0) (c := 1) (r := 0) (n := 1)
      (by decide) (by decide)
  have hissue : bits (num 0 64) 64 64 = num 8 8 := bits_rangeNum_full (j := 8) (c := 8) (by decide)
  have hbeq : (bits (bytesNat ((((begin_ s).rangeBytes ps va 0 n).drop 0).take 64)) 0 1 == 1) = ext := by
    rw [h0, hbit]
    cases ext <;> rfl
  refine ⟨hbeq, ?_, ?_, fun j hj => ?_, fun j hj => ?_, fun j hj => ?_⟩
  · show bits (bytesNat ((((begin_ s).rangeBytes ps va 0 n).drop 0).take 64)) 64 64 = num 8 8
    rw [h0, hissue]
  · rw [ofImage_v, hbeq]
  · rw [← hat (show 0x100 + 64 * j + 64 ≤ n by omega)]
    exact ofImage_thread _ _ _ _ _ hj
  · rw [ofImage_readS _ _ _ _ _ hj, hat (by omega), BitVec.toNat_ofNat]
    exact Nat.mod_eq_of_lt (rangeNum_lt ..)
  · rw [ofImage_readT _ _ _ _ _ hj, hat (by omega), BitVec.toNat_ofNat]
    exact Nat.mod_eq_of_lt (rangeNum_lt ..)

end Holds

end Sys2Proof.Machine
end


section
/-! PROOFS. restore of a group (a clause of O54), and the obligation. -/

namespace Sys2Proof.Machine

/-! ### What the start reads -/

section Start

variable {s : State} {ps : List Nat} {va n : Nat}

/-- A slot's first bytes can be read at issue where all its bytes can. -/
theorem headFails_none (ha : va % 16 = 0) (hn : n % 16 = 0) (hr : RangeOk s ps va n) (hq : RangeReads s ps va n) (v : Nat)
    {gs : List (Nat × Nat)} (hgs : ∀ p ∈ gs, p ∈ pageRun ps va va n) : (atIssue s []).headFails v gs = none := by
  have hin : ∀ p ∈ gs, ∃ i < n, p.1 = rangeAt ps va i := fun p hp => by
    have hp := hgs p hp
    rw [pageRun_aligned ps ha hn] at hp
    obtain ⟨i, hi, rfl⟩ := List.mem_map.mp hp
    have hi := List.mem_range.mp hi
    exact ⟨16 * i, by omega, rfl⟩
  unfold Work.headFails
  rw [if_neg, if_neg]
  · simp only [List.any_eq_true, Bool.not_eq_true', not_exists, not_and, Bool.not_eq_false]
    intro p hp
    obtain ⟨i, hi, he⟩ := hin p hp
    rw [he]
    exact gateNow_still (hr.1 i hi).1 (hr.1 i hi).2
  · simp only [List.any_eq_true, not_exists, not_and, Bool.not_eq_true]
    intro p hp
    obtain ⟨i, hi, he⟩ := hin p hp
    rw [he, (atIssue_reads s).deadAt]
    exact (hq i hi).1

/-- A number read at issue. -/
theorem readRange_num (hr : RangeOk s ps va n) {o m : Nat} (h : o + m ≤ n) :
    bytesNat ((atIssue s []).readRange ps va (va + o) m) = s.rangeNum ps va o m := by
  unfold Work.readRange State.rangeNum
  refine congrArg bytesNat (List.map_congr_left fun i hi => ?_)
  have hi := List.mem_range.mp hi
  rw [Nat.add_assoc]
  exact physByte_still (hr.1 (o + i) (by omega)).2

/-- Like a range's pages (`pagesFrom_congr`), EXTH of an image depends on the translations as one function, and the definition
is compared with its body as a function, so that no check has to compute a walk. -/
theorem SameReads.headExt {w v : Work} (h : SameReads w v) (va : Nat) : v.headExt va = w.headExt va := by
  have hfun : ∀ H, H = Work.headExt → H v = H w := fun H hH => by
    delta Work.headExt at hH
    subst hH
    beta_reduce
    rw [h.dieNo, h.translate_eq, show v.physByte = w.physByte from funext h.physByte]
  exact congrFun (hfun _ rfl) va

theorem atIssue_setFree (k c : Nat) : (atIssue s []).setFree k c = (begin_ s).setFree k c := by
  have hT := SameTeams.atIssue s
  have hold : ∀ k, (atIssue s []).holdsExt k = (begin_ s).holdsExt k := fun k => by
    have h := hT.onGrp Group.extH (fun _ => rfl) k
    unfold Work.holdsExt
    revert h
    cases (atIssue s []).grp? k <;> cases (begin_ s).grp? k <;> simp
  have hwait := congrArg (Option.bind · id)
    (hT.onGrp (fun p => if p.stop.isNone || p.extIn.isSome then p.growW else none) (fun _ => rfl) (partner k))
  simp only [Option.bind_map, Function.id_comp] at hwait
  unfold Work.setFree Work.partnerFirst
  rw [hold, hwait]

end Start

/-! ### The instruction -/

section Restoring

variable {s : State} {h : Hdr} {slot handle : Opnd} {l k : Nat} {g : Group} {ps : List Nat} {va vb n : Nat} {ext : Bool}

/-- restore reads the slot and loads the group with what it holds. -/
theorem restoreGroup_loads (hg : s.slot? k = some g) (hstop : g.stop.isSome = true)
    (hk : k ≠ s.d.cur.slot) (hva : (s.op64 l slot).toNat = va) (ha : va % 256 = 0) (hlt : va < 2 ^ 57)
    (hh : handleGroup (s.op64 l handle).toNat = some k) (hst : s.d.cur.stamped = false) (hf : FenceMet s .blk)
    (hi : Issued s h (slot.names 2 ++ handle.names 2) [] [l])
    (hvb : (s.blk g.blk).vbase = vb) (hext : (begin_ s).headExt va = ext) (hn : imageSize vb ext = n)
    (hvb1 : s.rangeNum ps va 1 1 % 16 = vb) (hr : RangeOk s ps va n) (hq : RangeReads s ps va n)
    (hmap : (begin_ s).mapPages (slotDie s.d.cur.slot) .engR false va n = .ok ps) :
    ∃ ws, exec (.restoreGroup h slot handle) s = .next (leaves s (((atIssue s []).setGrp k
      (g.loaded ((begin_ s).rangeBytes ps va 0 n) vb (coreCount s.d.now (slotCore k)) s.d.now
        (g.extH || (begin_ s).setFree k s.d.now))).updGrp k (Group.withWaits ws))) := by
  have hG : (atIssue s []).grp? k = some g := (atIssue_slot? hk).trans hg
  have hvb' : (atIssue s []).vbOf k = vb := (atIssue_vbOf hG).trans hvb
  have hn16 : n % 16 = 0 := hn ▸ imageSize_granules ..
  have hn64 : 0xD00 ≤ n := by rw [← hn]; unfold imageSize; split <;> omega
  have hslot := slotOf_ok (w := atIssue s []) (t := k)
    (size := fun t => imageSize ((atIssue s []).vbOf t) ((atIssue s []).headExt va)) ha hlt (kind := .engR) (ps := ps)
    (by rw [hvb', (atIssue_reads s).headExt, hext, hn]; exact atIssue_mapPages hmap)
  rw [← stoppedGroup_of hh hG hstop] at hslot
  have hsize : imageSize ((atIssue s []).vbOf k) ((atIssue s []).headExt va) = n := by
    rw [hvb', (atIssue_reads s).headExt, hext, hn]
  obtain ⟨ws, hload⟩ := loadGroup_eq hG ((begin_ s).rangeBytes ps va 0 n)
  rw [hvb', atIssue_setFree] at hload
  refine ⟨ws, ?_⟩
  show execRestoreGroup h slot handle s = _
  unfold execRestoreGroup
  refine restore_ends (t := k) (id := s.d.nextId) (k := 4) hi hst hf hva ha hn16 (by omega) ?_ hr hq hload
  have hhdr : bytesNat ((atIssue s []).readRange ps va va 64) = s.rangeNum ps va 0 64 := readRange_num hr (o := 0) (by omega)
  have hb : bits (s.rangeNum ps va 0 64) 8 4 = vb := by
    rw [← hvb1]
    simpa using bits_rangeNum (s := s) (ps := ps) (va := va) (o := 0) (m := 64) (j := 1) (c := 1) (r := 0) (n := 4)
      (by decide) (by decide)
  dsimp only
  rw [hslot, hsize]
  dsimp only [slotXfer]
  rw [headFails_none (by omega) hn16 hr hq va fun p hp => List.mem_of_mem_take hp]
  dsimp only
  rw [hhdr, hb, hvb', if_pos rfl]
  rfl

end Restoring

/-! ### The state that a restore leaves -/

section Restored

variable {s : State} {h : Hdr} {src dst : List Named} {x : List Nat} {k : Nat} {G : Group} {ws : List (Nat × Wait)}

/-- The state once the group in slot `k` has been loaded. -/
def restored (s : State) (k : Nat) (G : Group) (ws : List (Nat × Wait)) : State :=
  leaves s (((atIssue s []).setGrp k G).updGrp k (Group.withWaits ws))

theorem restored_grp? (j : Nat) : (((atIssue s []).setGrp k G).updGrp k (Group.withWaits ws)).grp? j =
    if j = k then some (G.withWaits ws) else (atIssue s []).grp? j := by
  have hset : ∀ j, ((atIssue s []).setGrp k G).grp? j = if j = k then some G else (atIssue s []).grp? j :=
    fun j => sget?_sset _ k j G
  rw [Work.grp?_updGrp, hset, hset, if_pos rfl]
  split <;> rfl

/-- Memory, registers and every other group and block are as before. -/
theorem restored_frame (hi : Issued s h src dst x) (hm : memWf s.mem = true) (hk : k ≠ s.d.cur.slot)
    (hkb : sget? s.d.blocks s.here.blk = (atIssue s []).blk? s.here.blk) :
    SameMem s (restored s k G ws) ∧ SameAll s (restored s k G ws) ∧ Advances s (restored s k G ws) ∧
      (∀ j, j ≠ k → j ≠ s.d.cur.slot → (restored s k G ws).slot? j = s.slot? j) ∧
      (∀ j, sget? (restored s k G ws).d.blocks j = sget? s.d.blocks j) ∧
      (restored s k G ws).slot? k = some (G.withWaits ws) := by
  have hslot : ∀ j, j ≠ s.d.cur.slot → (restored s k G ws).slot? j = _ := fun j hj =>
    (leaves_slot? rfl hj).trans (restored_grp? j)
  obtain ⟨hall, hadv, -⟩ := leaves_keeps (w := ((atIssue s []).setGrp k G).updGrp k (Group.withWaits ws)) hi rfl
    ((restored_grp? _).trans (if_neg hk.symm)) rfl
  refine ⟨fun a => leaves_byte hm rfl a, hall, hadv, fun j hj hjc => ?_, fun j => ?_, (hslot k hk).trans (if_pos rfl)⟩
  · rw [hslot j hjc, if_neg hj, atIssue_slot? hjc]
  · by_cases hj : j = s.here.blk
    · subst hj; exact hkb.symm
    · exact atIssue_blk?_ne hi hj

/-- An instruction without a B register as its destination leaves its block as it is. -/
theorem atIssue_ownBlk (hi : Issued s h src dst x) : sget? s.d.blocks s.here.blk = (atIssue s []).blk? s.here.blk := by
  rw [atIssue_blk? [] hi, Block.take_nil, hi.blk]

end Restored

/-- What the restored group holds (Tables 2.5 to 2.7). -/
theorem restored_holds {s : State} {ps : List Nat} {va vb n : Nat} {ext free : Bool} {g : Group} {horizon now : Nat}
    {ws : List (Nat × Wait)} (hvb : vb ≤ 8) (hn : imageSize vb ext = n) (hext : s.rangeNum ps va 0 1 % 2 = ext.toNat) :
    let num := s.rangeNum ps va
    let g' := (g.loaded ((begin_ s).rangeBytes ps va 0 n) vb horizon now free).withWaits ws
    g'.stop = g.stop ∧ (g'.extH = true ↔ ext = true ∧ free = true) ∧ g'.issue = num 8 8 ∧ g'.owed = [] ∧
      (∀ j < 32, let th := g'.thread j
        let at_ := 0x100 + 64 * j
        th.pc = BitVec.ofNat 57 (num at_ 8) ∧ th.st.code = min 4 (num (at_ + 7) 1 / 32) ∧
          th.l0.toNat = num (at_ + 16) 4 ∧ th.l1.toNat = num (at_ + 20) 4 ∧ th.l2.toNat = num (at_ + 24) 4 ∧
          th.l3.toNat = num (at_ + 28) 4 ∧ th.p.toNat = num (at_ + 32) 2 % 2 ^ 15 ∧
          th.seed.toNat = num (at_ + 40) 8 ∧ (th.m.isSome = true ↔ num (at_ + 15) 1 / 128 = 1) ∧
          ∀ m, th.m = some m → m = BitVec.ofNat 57 (num (at_ + 8) 8)) ∧
      (∀ j < 64, (g'.readS j).toNat = num (0x900 + 8 * j) 8) ∧ (∀ j < 16, (g'.readT j).toNat = num (0xB00 + 32 * j) 32) ∧
      (∀ j < 8 * vb, ∀ i < 32, (g'.readV i j).toNat = num (0xD00 + 128 * j + 4 * i) 4) ∧
      (ext = true → free = true → ∀ j < 192, ∀ i < 32, (g'.readV i (64 + j)).toNat = num (0x2D00 + 128 * j + 4 * i) 4) ∧
      (ext = true → free = false → g'.growW = some now ∧ ∃ e, g'.extIn = some e ∧ e.go = false ∧
        ∀ j < 192, ∀ i < 32, (sget e.regs (256 * i + 64 + j) 0).toNat = num (0x2D00 + 128 * j + 4 * i) 4) := by
  intro num g'
  have hn1 : 0xD00 + 1024 * vb ≤ n := by rw [← hn]; unfold imageSize; split <;> omega
  have hn2 : ext = true → n = 0x8D00 := fun h => by rw [← hn, imageSize, if_pos h]
  obtain ⟨hE, hI, hV, hthr, hS, hT⟩ := ofImage_holds (ps := ps) (vb := vb) (g := g) (horizon := horizon) (now := now)
    (show 0xD00 ≤ n by omega) hext
  -- a field that neither waits nor the waiting for the extended set touch is the image's
  have hkeep : ∀ {β : Type} (φ : Group → β), (∀ g l f, φ (Group.updThread g l f) = φ g) →
      (∀ g now, φ (Group.waitExt g now) = φ g) → φ g' = φ (g.ofImage ((begin_ s).rangeBytes ps va 0 n) vb horizon now) :=
    fun φ h1 h2 => (withWaits_keeps φ h1 _).trans (loaded_keeps φ h2)
  have hv' : g'.v = (g.loaded ((begin_ s).rangeBytes ps va 0 n) vb horizon now free).v := withWaits_keeps Group.v (fun _ _ _ => rfl) _
  have hbase : ∀ j < 8 * vb, ∀ i < 32, sget? g'.v (256 * i + j) =
      some (imageWord (((begin_ s).rangeBytes ps va 0 n).drop 0xD00) j i) := fun j hj i hi => by
    rw [hv', Group.loaded]
    split
    · rw [Group.waitExt, hV]
      dsimp only
      rw [sget?_filter_key _ (fun k => decide (k % 256 < 64)), imageRegs_base hvb hi hj, if_pos (by simp; omega)]
    · rw [hV, imageRegs_base hvb hi hj]
  have hword : ∀ {j i : Nat}, ext = true → j < 192 → i < 32 →
      (imageWord (((begin_ s).rangeBytes ps va 0 n).drop 0x2D00) j i).toNat = num (0x2D00 + 128 * j + 4 * i) 4 :=
    fun he hj hi => imageWord_toNat (by rw [hn2 he]; omega)
  refine ⟨hkeep Group.stop (fun _ _ _ => rfl) fun _ _ => rfl, ?_, (hkeep Group.issue (fun _ _ _ => rfl) fun _ _ => rfl).trans hI,
    hkeep Group.owed (fun _ _ _ => rfl) fun _ _ => rfl, fun j hj => ?_, fun j hj => ?_, fun j hj => ?_, fun j hj i hi => ?_,
    fun he hf j hj i hi => ?_, fun he hf => ?_⟩
  · rw [show g'.extH = _ from withWaits_keeps Group.extH (fun _ _ _ => rfl) _, loaded_extH, hE, Bool.and_eq_true]
  · obtain ⟨issue, parked, ht⟩ := hthr j hj
    have hth : ∀ {β : Type} (φ : Thread → β), (∀ t w, φ { t with wait := some w } = φ t) →
        φ (g'.thread j) = φ ((g.thread j).ofImage (num (0x100 + 64 * j) 64) issue parked) := fun φ hφ => by
      rw [← ht]
      exact (withWaits_thread φ hφ _ j).trans (loaded_keeps (fun g => φ (g.thread j)) fun _ _ => rfl)
    have h := thread_ofImage (s := s) (ps := ps) (va := va) (g.thread j) issue parked (0x100 + 64 * j)
    intro th at_
    rw [hth Thread.pc fun _ _ => rfl, hth Thread.st fun _ _ => rfl, hth Thread.l0 fun _ _ => rfl, hth Thread.l1 fun _ _ => rfl,
      hth Thread.l2 fun _ _ => rfl, hth Thread.l3 fun _ _ => rfl, hth Thread.p fun _ _ => rfl, hth Thread.seed fun _ _ => rfl,
      hth Thread.m fun _ _ => rfl]
    exact h
  · rw [hkeep (fun g => g.readS j) (fun _ _ _ => rfl) fun _ _ => rfl]
    exact hS j hj
  · rw [hkeep (fun g => g.readT j) (fun _ _ _ => rfl) fun _ _ => rfl]
    exact hT j hj
  · rw [Group.readV, sget, hbase j hj i hi, Option.getD_some]
    exact imageWord_toNat (by omega)
  · rw [Group.readV, hv', Group.loaded]
    rw [hE, he, hf, if_neg (by decide), hV, he, ← Nat.add_assoc, sget, imageRegs_ext hvb hi hj, Option.getD_some]
    exact hword he hj hi
  · have hl : g.loaded ((begin_ s).rangeBytes ps va 0 n) vb horizon now free =
        (g.ofImage ((begin_ s).rangeBytes ps va 0 n) vb horizon now).waitExt now := by
      unfold Group.loaded
      dsimp only
      rw [hE, he, hf, if_pos (by decide)]
    have hX : g'.extIn = _ := withWaits_keeps Group.extIn (fun _ _ _ => rfl) _
    have hW : g'.growW = _ := withWaits_keeps Group.growW (fun _ _ _ => rfl) _
    rw [hl] at hX hW
    refine ⟨hW, _, hX, rfl, fun j hj i hi => ?_⟩
    dsimp only
    rw [hV, he, sget, sget?_filter_key _ (fun k => decide (64 ≤ k % 256)), imageRegs_ext hvb hi hj, if_pos (by simp; omega),
      Option.getD_some]
    exact hword he hj hi

/-! ### The obligation -/

/-- Settles O54: save writes the image byte for byte (`saveGroup_writes`), in which every field stands where its table says
(`groupImage_nums`); restore reads the slot and loads what it holds (`restoreGroup_loads`, `restored_holds`). -/
theorem saveRestoreGroup : Obligations.SaveRestoreGroup := by
  unfold Obligations.SaveRestoreGroup
  intro s h slot handle l k g ps va die vb hm hg hstop hk hvb hc ha hlt hh hst hf
  constructor
  · intro G n hq hr hw hmap hruns
    obtain ⟨t, hexec, hkept, honly, hbytes⟩ := saveGroup_writes hm hg hstop hk rfl ha hlt hh hst hf hq (issued_of hruns.2) rfl rfl
      hr hw hmap
    exact ⟨t, hexec, hkept, honly, groupImage_nums hvb (g.whole_contTok ▸ hc) hbytes⟩
  · intro ext n num free hext hnum hvb1 hr hq hmap hruns
    have hi := issued_of hruns.2
    obtain ⟨ws, hexec⟩ := restoreGroup_loads hg hstop hk rfl ha hlt hh hst hf hi rfl hext rfl hvb1 hr hq hmap
    obtain ⟨hmem, hall, hadv, hgrps, hblks, hslot⟩ := restored_frame hi hm hk (atIssue_ownBlk hi)
      (G := g.loaded ((begin_ s).rangeBytes ps va 0 n) vb (coreCount s.d.now (slotCore k)) s.d.now
        (g.extH || (begin_ s).setFree k s.d.now)) (ws := ws)
    have hfree : (g.extH || (begin_ s).setFree k s.d.now) = true ↔ free := Bool.or_eq_true _ _ ▸ Iff.rfl
    obtain ⟨h1, h2, h3, h4, h5, h6, h7, h8, h9, h10⟩ := restored_holds (g := g) (horizon := coreCount s.d.now (slotCore k))
      (now := s.d.now) (free := g.extH || (begin_ s).setFree k s.d.now) (ws := ws) hvb rfl hnum
    exact ⟨_, hexec, hmem, hall, hadv, hgrps, hblks, _, hslot, h1, h2.trans (and_congr_right fun _ => hfree), h3, h4, h5, h6, h7, h8,
      fun he hfr => h9 he (hfree.mpr hfr), fun he hnf => h10 he (Bool.eq_false_iff.mpr fun hc => hnf (hfree.mp hc))⟩

end Sys2Proof.Machine
end


section
/-! PROOFS. save of a block (a clause of O55): where the parts of its image stand, and which bytes of its slot are written. -/

namespace Sys2Proof.Machine

/-! ### The image of a block (Table 2.8) -/

/-- Where the window and the codebook record of a block's slot begin. -/
def bookOff (b : Block) : Nat := winOff b + 1024 * b.spad

/-- The parts of a block's slot that the statement names. -/
theorem blockSlot_has {w : Work} {k : Nat} {b : Block} (hb : w.blk? k = some b) :
    let img := w.blockSlot k
    (∀ j < 64, Has img (8 * j) (natBytes 8 (b.readB j).toNat)) ∧
      (∀ j < 64, img.getD (0x200 + j) 0 = BitVec.ofNat 8 ((sget? b.bown j).getD 0xFF)) ∧
      (∀ j < 16, Has img (0x240 + 8 * j) (natBytes 4 ((sget b.bars j Bar.zero).phase % 2 ^ 32))) ∧
      (∀ j < 4096 * b.acc, Has img (0xD00 + 4 * j) (natBytes 4 (sget b.accs j 0).toNat)) ∧
      (∀ j < 1024 * b.spad, img.getD (winOff b + j) 0 = w.byte (spadKey k j)) ∧
      Has img (bookOff b) (natBytes 16 (b.cbRec + 2 ^ 127 * b.cb.isSome.toNat)) := by
  intro img
  obtain ⟨l, hl⟩ : ∃ l, l = img := ⟨_, rfl⟩
  rw [← hl]
  have hjoin : ∀ j : Join, j.image.length = 320 := fun j => by simp [Join.image]
  have hbar : ∀ x y : Nat, natBytes 8 (x % 2 ^ 32 + 2 ^ 32 * y) = natBytes 4 (x % 2 ^ 32) ++ natBytes 4 y := fun x y => by
    rw [show (2 : Nat) ^ 32 = 256 ^ 4 by norm_num]
    exact natBytes_add 4 4 (Nat.mod_lt _ (by decide)) y
  have hacc : ∀ a, ((List.range 4096).flatMap fun i => natBytes 4 (sget b.accs (4096 * a + i) 0).toNat).length = 16384 := fun a =>
    length_flatMap_range fun i => length_natBytes 4 _
  have h0 : Has l 0 img := hl ▸ .refl l
  simp only [img, Work.blockSlot, hb, Work.blockImage, List.append_assoc, hbar, Block.cbImage] at h0
  have h1 := h0.skip (length_flatMap_range (n := 64) fun j => length_natBytes 8 _)
  have h2 := h1.skip (n := 64) (by rw [List.length_map, List.length_range])
  have h3 := h2.skip (length_flatMap_range (n := 16) (c := 8) fun j => by rw [List.length_append, length_natBytes, length_natBytes])
  have h4 := h3.skip (n := 64) List.length_replicate
  have h5 := h4.skip (length_flatMap_range (n := 8) fun j => hjoin _)
  have h6 := h5.skip (length_flatMap_range (n := b.acc) hacc)
  have h7 := h6.skip (n := 1024 * b.spad) (by rw [Work.loadBytes, List.length_map, List.length_range])
  have hwin : 0 + 8 * 64 + 64 + 8 * 16 + 64 + 320 * 8 + 16384 * b.acc = winOff b := by unfold winOff; omega
  rw [hwin] at h6 h7
  refine ⟨fun j hj => ?_, fun j hj => ?_, fun j hj => ?_, fun j hj => ?_, fun j hj => ?_, h7⟩
  · have := h0.left.chunk (c := 8) (fun _ => length_natBytes 8 _) hj
    rwa [Nat.zero_add] at this
  · rw [h1.left.getD (by simpa using hj), List.getD_eq_getElem _ _ (by simpa using hj), List.getElem_map, List.getElem_range]
  · exact (h2.left.chunk (c := 8) (fun _ => by rw [List.length_append, length_natBytes, length_natBytes]) hj).left
  · have hc := (h5.left.chunk hacc (show j / 4096 < b.acc by omega)).chunk (c := 4) (fun _ => length_natBytes 4 _)
      (show j % 4096 < 4096 from Nat.mod_lt _ (by decide))
    rwa [Nat.div_add_mod, show 0 + 8 * 64 + 64 + 8 * 16 + 64 + 320 * 8 + 16384 * (j / 4096) + 4 * (j % 4096) = 0xD00 + 4 * j
      by omega] at hc
  · rw [h6.left.getD (by simpa [Work.loadBytes] using hj), Work.loadBytes,
      List.getD_eq_getElem _ _ (by simpa using hj), List.getElem_map, List.getElem_range]
    exact congrArg w.byte (by unfold spadKey; omega)

/-! ### The bytes that are written -/

section Written

variable {s : State} {k : Nat} {b : Block}

/-- Everything outside the window is written. -/
theorem slotLive_outside {w : Work} (hb : w.blk? k = some b) {i : Nat} (hi : i < winOff b ∨ bookOff b ≤ i) :
    w.slotLive k (16 * (i / 16)) = true := by
  have h16 : winOff b % 16 = 0 ∧ bookOff b % 16 = 0 := by unfold bookOff winOff; omega
  unfold Work.slotLive
  rw [hb]
  simp only [Bool.or_eq_true, decide_eq_true_eq]
  refine .inl ?_
  rw [show winOff b + 1024 * b.spad = bookOff b from rfl]
  omega

/-- A part of the window that a group of the block holds live, or that a halted group makes live, is written (R208). -/
theorem savedMap_part (hb : (atIssue s []).blk? k = some b) {p q : Nat} (hp : p < 16) (hq : q ∈ b.slots k) {g : Group}
    (hg : s.slot? q = some g) (hl : g.stop = some .trap ∨ g.stop = some .halt ∨ g.mSpad.getLsbD p = true) :
    ((atIssue s []).savedMap k).testBit p = true := by
  obtain ⟨g', hg', hplain⟩ := (SameTeams.atIssue s).grp?_some (k := q) hg
  have hmem : g' ∈ (b.slots k).filterMap (atIssue s []).grp? := List.mem_filterMap.mpr ⟨q, hq, hg'⟩
  have hstop : g'.stop = g.stop := Group.of_plain Group.stop (fun _ => rfl) hplain
  have hspad : g'.mSpad = g.mSpad := Group.of_plain Group.mSpad (fun _ => rfl) hplain
  unfold Work.savedMap
  rw [hb]
  dsimp only
  split
  · exact (Nat.testBit_two_pow_sub_one 16 p).trans (decide_eq_true hp)
  · next hno =>
    have hbit : g.mSpad.getLsbD p = true := by
      rcases hl with h | h | h
      · exact absurd (List.any_eq_true.mpr ⟨g', hmem, by rw [hstop, h]; rfl⟩) hno
      · exact absurd (List.any_eq_true.mpr ⟨g', hmem, by rw [hstop, h]; rfl⟩) hno
      · exact h
    have hor : ∀ (gs : List Group) (m : BitVec 16), (m.getLsbD p = true ∨ ∃ g ∈ gs, g.mSpad.getLsbD p = true) →
        (gs.foldl (fun (m : BitVec 16) (g : Group) => m ||| g.mSpad) m).getLsbD p = true := fun gs => by
      induction gs with
      | nil => intro m h; simpa using h
      | cons a gs ih =>
        intro m h
        refine ih _ ?_
        simp only [BitVec.getLsbD_or, Bool.or_eq_true]
        simp only [List.mem_cons, exists_eq_or_imp] at h
        tauto
    rw [BitVec.testBit_toNat]
    exact hor _ _ (.inr ⟨g', hmem, hspad ▸ hbit⟩)

theorem slotLive_window (hb : (atIssue s []).blk? k = some b) {j q : Nat} (hj : j < 1024 * b.spad) (hq : q ∈ b.slots k)
    {g : Group} (hg : s.slot? q = some g)
    (hl : g.stop = some .trap ∨ g.stop = some .halt ∨ g.mSpad.getLsbD (j / (64 * b.spad)) = true) :
    (atIssue s []).slotLive k (16 * ((winOff b + j) / 16)) = true := by
  have h16 : winOff b % 16 = 0 := by unfold winOff; omega
  have hoff : 16 * ((winOff b + j) / 16) - winOff b = 16 * (j / 16) := by omega
  have hpart : 16 * (j / 16) / (64 * b.spad) = j / (64 * b.spad) := by
    rw [show 64 * b.spad = 16 * (4 * b.spad) by omega,
      Nat.mul_div_mul_left _ _ (by decide), Nat.div_div_eq_div_mul]
  have hp : j / (64 * b.spad) < 16 := Nat.div_lt_of_lt_mul (by omega)
  unfold Work.slotLive
  rw [hb]
  dsimp only
  rw [hoff, hpart, savedMap_part hb hp hq hg hl, Bool.or_true]

end Written

/-! ### The instruction -/

theorem atIssue_stoppedBlock {s : State} {x k : Nat} (h : (begin_ s).stoppedBlock x = some k) :
    (atIssue s []).stoppedBlock x = some k := by
  have hT := SameTeams.atIssue s
  have hstop : ∀ q, (((atIssue s []).grp? q).map fun g => g.stop.isSome).getD false =
      (((begin_ s).grp? q).map fun g => g.stop.isSome).getD false := fun q => by
    rw [hT.onGrp (fun g => g.stop.isSome) fun _ => rfl]
  have hblk : ∀ q, ((atIssue s []).blk? q).isSome = ((begin_ s).blk? q).isSome := fun q => by
    have h := congrArg Option.isSome (hT.blks q)
    rwa [Option.isSome_map, Option.isSome_map] at h
  rw [← h]
  unfold Work.stoppedBlock Work.handleBlk Work.blkStopped
  simp only [hT.blockMembers, hstop, hblk]

section Saving

variable {s : State} {h : Hdr} {slot handle : Opnd} {l k : Nat} {b : Block} {ps : List Nat}

/-- A block's slot is whole granules. -/
theorem bookOff_granules (b : Block) : (bookOff b + 16) % 16 = 0 := by unfold bookOff winOff; omega

/-- save of a block writes its image and the live part of its window. -/
theorem saveBlock_saves {va n : Nat} (hm : memWf s.mem = true)
    (ht : (begin_ s).stoppedBlock (s.op64 l handle).toNat = some k) (hb : sget? s.d.blocks k = some b) (hk : k ≠ s.here.blk)
    (hva : (s.op64 l slot).toNat = va) (ha : va % 256 = 0) (hlt : va < 2 ^ 57) (hst : s.d.cur.stamped = false)
    (hf : FenceMet s .blk) (hn : bookOff b + 16 = n) (hr : RangeOk s ps va n)
    (hq : ∀ q ∈ b.slots k, (begin_ s).groupQuiet q = true) (hw : RangeWrites s ps va n)
    (hmap : (begin_ s).mapPages (slotDie s.d.cur.slot) .engW false va n = .ok ps)
    (hi : Issued s h (slot.names 2 ++ handle.names 2) [] [l]) :
    Ends (.saveBlock h slot handle) s fun t => Goes s t ∧ OnlyRange s t ps va n ∧
      (∀ j, j ≠ k → j ≠ s.here.blk → sget? t.d.blocks j = sget? s.d.blocks j) ∧
      (∃ b', sget? t.d.blocks k = some b' ∧ { b' with saved := 0 } = { b with saved := 0 }) ∧
      ∀ i < n, (atIssue s []).slotLive k (16 * (i / 16)) = true →
        t.byte (rangeAt ps va i) = ((atIssue s []).blockSlot k).getD i 0 := by
  have hB : (atIssue s []).blk? k = some b := (atIssue_blk?_ne hi hk).trans hb
  obtain ⟨v, hexec, hv⟩ := save_ends (target := Work.stoppedBlock) (size := blockSize) (slots := Work.slotsOf)
    (image := Work.blockSlot) (live := Work.slotLive)
    (post := fun w x v => v.updBlk x.t fun b => { b with saved := w.savedMap x.t }) hi hst hf hva ha hlt
    (atIssue_stoppedBlock ht) (by unfold blockSize; rw [hB]; exact hn) (hn ▸ bookOff_granules b)
    (by unfold Work.slotsOf; rw [hB]; exact hq) hr hw hmap
  have hblk : ∀ j, (v.updBlk k fun b => { b with saved := (atIssue s []).savedMap k }).blk? j =
      if j = k then some { b with saved := (atIssue s []).savedMap k } else (atIssue s []).blk? j := fun j => by
    rw [Work.blk?_updBlk, hv.blk?, hv.blk?, hB]
    rfl
  obtain ⟨hall, hadv, -⟩ := leaves_keeps (w := v.updBlk k fun b => { b with saved := (atIssue s []).savedMap k }) hi hv.cur
    (hv.grp? _) ((hblk _).trans (if_neg hk.symm))
  refine ⟨_, hexec, ⟨hall, hadv, fun j hj => ?_⟩, fun a hna => ?_, fun j hj hjb => ?_, ⟨_, (hblk k).trans (if_pos rfl), rfl⟩,
    fun i hi' hl => ?_⟩
  · exact (leaves_slot? hv.cur hj).trans ((hv.grp? j).trans (atIssue_slot? hj))
  · exact (leaves_byte hm hv.base a).trans (hv.out a hna)
  · exact (hblk j).trans ((if_neg hj).trans (atIssue_blk?_ne hi hjb))
  · exact (leaves_byte hm hv.base _).trans ((hv.inside i hi').trans (if_pos hl))

end Saving

/-- The parts of a block in a slot that holds its image where it is written (Table 2.8). -/
theorem blockSlot_nums {s t : State} {ps : List Nat} {va k n : Nat} {b : Block} (hB : (atIssue s []).blk? k = some b)
    (hn : bookOff b + 16 = n)
    (hbytes : ∀ i < n, (atIssue s []).slotLive k (16 * (i / 16)) = true →
      t.byte (rangeAt ps va i) = ((atIssue s []).blockSlot k).getD i 0) :
    let num := t.rangeNum ps va
    (∀ j < 64, num (8 * j) 8 = (b.readB j).toNat ∧ num (0x200 + j) 1 = (sget? b.bown j).getD 0xFF % 256) ∧
      (∀ j < 16, num (0x240 + 8 * j) 4 = (sget b.bars j Bar.zero).phase % 2 ^ 32) ∧
      (∀ j < 4096 * b.acc, num (0xD00 + 4 * j) 4 = (sget b.accs j 0).toNat) ∧
      (∀ j < 1024 * b.spad, (∃ q ∈ b.slots k, ∃ g, s.slot? q = some g ∧ (g.stop = some .trap ∨ g.stop = some .halt ∨
          g.mSpad.getLsbD (j / (64 * b.spad)) = true)) →
        t.byte (rangeAt ps va (winOff b + j)) = s.byte (spadKey k j)) ∧
      num (bookOff b) 16 = (b.cbRec + 2 ^ 127 * b.cb.isSome.toNat) % 2 ^ 128 := by
  intro num
  obtain ⟨hBreg, hown, hbar, hacc, hwin, hbook⟩ := blockSlot_has hB
  have hwo : winOff b = 0xD00 + 16384 * b.acc := rfl
  have hbo : bookOff b = winOff b + 1024 * b.spad := rfl
  have hlow : ∀ i, i < winOff b → t.byte (rangeAt ps va i) = ((atIssue s []).blockSlot k).getD i 0 := fun i hi =>
    hbytes i (by omega) (slotLive_outside hB (.inl hi))
  refine ⟨fun j hj => ⟨?_, ?_⟩, fun j hj => ?_, fun j hj => ?_, fun j hj ⟨q, hq, g, hg, hl⟩ => ?_, ?_⟩
  · exact (rangeNum_has_on (fun i _ hi => hlow i (by omega)) (hBreg j hj)).trans (Nat.mod_eq_of_lt (BitVec.isLt _))
  · show t.rangeNum ps va (0x200 + j) 1 = _
    rw [rangeNum_one, hlow _ (by omega), hown j hj, BitVec.toNat_ofNat]
  · exact (rangeNum_has_on (fun i _ hi => hlow i (by omega)) (hbar j hj)).trans (Nat.mod_mod ..)
  · exact (rangeNum_has_on (fun i _ hi => hlow i (by omega)) (hacc j hj)).trans (Nat.mod_eq_of_lt (BitVec.isLt _))
  · rw [hbytes _ (by omega) (slotLive_window hB hj hq hg hl), hwin j hj]
    rfl
  · exact rangeNum_has_on (fun i hlo hi => hbytes i (by omega) (slotLive_outside hB (.inr hlo))) hbook

end Sys2Proof.Machine
end


section
/-! PROOFS. restore of a block (a clause of O55), and the obligation. -/

namespace Sys2Proof.Machine

/-! ### Bytes stored one behind the other -/

@[simp] theorem storeBytes_d (w : Work) (k : Nat) (bs : List Byte) : (w.storeBytes k bs).d = w.d := by
  induction bs generalizing w k with
  | nil => rfl
  | cons b bs ih => rw [Work.storeBytes, ih, Work.setByte_d]

@[simp] theorem storeBytes_base (w : Work) (k : Nat) (bs : List Byte) : (w.storeBytes k bs).base = w.base := by
  induction bs generalizing w k with
  | nil => rfl
  | cons b bs ih => rw [Work.storeBytes, ih, Work.setByte_base]

theorem byte_storeBytes (w : Work) (k : Nat) (bs : List Byte) (a : Nat) :
    (w.storeBytes k bs).byte a = if k ≤ a ∧ a < k + bs.length then bs.getD (a - k) 0 else w.byte a := by
  induction bs generalizing w k with
  | nil => rw [if_neg fun h => absurd h.2 (Nat.not_lt.mpr h.1)]; rfl
  | cons b bs ih =>
    rw [Work.storeBytes, ih, Work.byte_setByte, List.length_cons]
    by_cases ha : a = k
    · subst ha
      rw [if_neg (by omega), if_pos rfl, if_pos (by omega), Nat.sub_self, List.getD_cons_zero]
    · rw [if_neg ha]
      by_cases hin : k + 1 ≤ a ∧ a < k + 1 + bs.length
      · rw [if_pos hin, if_pos (by omega), show a - k = a - (k + 1) + 1 by omega, List.getD_cons_succ]
      · rw [if_neg hin, if_neg (by omega)]

/-- A list with an entry for each number below `n` that has a value. -/
theorem sget?_filterMap_range {α : Type} {f : Nat → Option (Nat × α)} (hf : ∀ i p, f i = some p → p.1 = i) (n k : Nat) :
    sget? ((List.range n).filterMap f) k = if k < n then (f k).map Prod.snd else none := by
  have hone : ∀ m, sget? ([m].filterMap f) k = if k = m then (f m).map Prod.snd else none := fun m => by
    rw [List.filterMap_cons, List.filterMap_nil]
    cases hm : f m with
    | none => exact (ite_self none).symm
    | some p =>
      have hp := hf m p hm
      dsimp only
      rw [sget?, hp]
      exact if_congr eq_comm rfl rfl
  induction n with
  | zero => rfl
  | succ n ih =>
    rw [List.range_succ, List.filterMap_append, sget?_append, ih, hone]
    rcases Nat.lt_trichotomy k n with hk | hk | hk
    · rw [if_pos hk, if_neg (Nat.ne_of_lt hk), if_pos (Nat.lt_succ_of_lt hk), Option.or_none]
    · subst hk
      rw [if_neg (Nat.lt_irrefl k), if_pos rfl, if_pos (Nat.lt_succ_self k), Option.none_or]
    · rw [if_neg (Nat.lt_asymm hk), if_neg (Nat.ne_of_gt hk), if_neg (Nat.not_lt.mpr hk), Option.none_or]

/-! ### The block that is loaded -/

/-- The block of a slot that names no codebook. -/
def Block.loaded (b : Block) (rec_ : Nat) (bs : List Byte) : Block :=
  { b with
    b := (List.range 64).map fun n => (n, BitVec.ofNat 64 (bytesNat ((bs.drop (8 * n)).take 8)))
    bown := (List.range 64).filterMap fun n =>
      if (bs.getD (0x200 + n) 0).toNat = 0xFF then none else some (n, (bs.getD (0x200 + n) 0).toNat)
    bars := (List.range 16).map fun n => (n, { Bar.zero with phase := bytesNat ((bs.drop (0x240 + 8 * n)).take 4) })
    joins := (List.range 8).map fun j => (j, Join.ofImage ((bs.drop (0x300 + 320 * j)).take 320))
    accs := (List.range (4096 * b.acc)).map fun i => (i, BitVec.ofNat 32 (bytesNat ((bs.drop (0xD00 + 4 * i)).take 4)))
    cb := none
    cbRec := rec_ % 2 ^ 75 }

/-- The bytes that its window takes: those that the save wrote, free values elsewhere. -/
def Block.window (b : Block) (free : Nat) (win : List Byte) : List Byte :=
  (win.zip (List.range (1024 * b.spad))).map fun p =>
    if b.saved.testBit (p.2 / (64 * b.spad)) then p.1 else Config.freeByte (free + p.2)

section Load

variable {w : Work} {k : Nat} {b : Block} {win : List Byte}

theorem length_window (hwin : win.length = 1024 * b.spad) (free : Nat) : (b.window free win).length = 1024 * b.spad := by
  rw [Block.window, List.length_map, List.length_zip, hwin, List.length_range, Nat.min_self]

theorem window_saved (hwin : win.length = 1024 * b.spad) (free : Nat) {j : Nat} (hj : j < 1024 * b.spad)
    (hs : b.saved.testBit (j / (64 * b.spad)) = true) : (b.window free win).getD j 0 = win.getD j 0 := by
  rw [List.getD_eq_getElem _ _ ((length_window hwin free).symm ▸ hj), List.getD_eq_getElem _ _ (hwin.symm ▸ hj)]
  simp only [Block.window, List.getElem_map, List.getElem_zip, List.getElem_range]
  exact if_pos hs

/-- A restore of a block that holds no codebook changes the block and its window alone. -/
theorem loadBlock_eq (hb : w.blk? k = some b) {rec_ : Nat} (hrec : bits rec_ 127 1 = 0) (bs win table : List Byte) :
    w.loadBlock k rec_ bs win table =
      ((w.updDev fun d => { d with free := w.d.free + 256 + 1024 * b.spad }).updBlk k fun b => b.loaded rec_ bs).storeBytes
        (spadKey k 0) (b.window (w.d.free + 256) win) := by
  unfold Work.loadBlock
  simp only [hb, hrec, if_true]
  rfl

theorem loadBlock_byte (hb : w.blk? k = some b) {rec_ : Nat} (hrec : bits rec_ 127 1 = 0) (bs table : List Byte)
    (hwin : win.length = 1024 * b.spad) :
    (∀ a, a < spadKey k 0 ∨ spadKey k (1024 * b.spad) ≤ a → (w.loadBlock k rec_ bs win table).byte a = w.byte a) ∧
      ∀ j < 1024 * b.spad, b.saved.testBit (j / (64 * b.spad)) = true →
        (w.loadBlock k rec_ bs win table).byte (spadKey k j) = win.getD j 0 := by
  have hkey : ∀ o, spadKey k o = spadKey k 0 + o := fun o => by unfold spadKey; omega
  rw [loadBlock_eq hb hrec]
  refine ⟨fun a ha => ?_, fun j hj hs => ?_⟩
  · rw [hkey (1024 * b.spad)] at ha
    rw [byte_storeBytes, length_window hwin, if_neg (by omega)]
    rfl
  · rw [byte_storeBytes, length_window hwin, hkey j, if_pos (by omega), Nat.add_sub_cancel_left, window_saved hwin _ hj hs]

/-- Outside memory, the block alone changes. -/
theorem loadBlock_rest (hb : w.blk? k = some b) {rec_ : Nat} (hrec : bits rec_ 127 1 = 0) (bs table : List Byte) :
    let v := w.loadBlock k rec_ bs win table
    v.d.cur = w.d.cur ∧ v.base = w.base ∧ (∀ j, v.grp? j = w.grp? j) ∧
      ∀ j, v.blk? j = if j = k then some (b.loaded rec_ bs) else w.blk? j := by
  intro v
  have hv : v = _ := loadBlock_eq hb hrec bs win table
  refine ⟨by rw [hv, storeBytes_d]; rfl, by rw [hv, storeBytes_base]; rfl, fun j => ?_, fun j => ?_⟩
  · rw [hv, Work.grp?, storeBytes_d]
    rfl
  · rw [hv, Work.blk?, storeBytes_d]
    refine (Work.blk?_updBlk _ k j _).trans ?_
    rw [show (w.updDev fun d => { d with free := w.d.free + 256 + 1024 * b.spad }).blk? = w.blk? from rfl, hb]
    rfl

end Load

section Fields

variable (b : Block) (rec_ : Nat) (bs : List Byte)

theorem loaded_readB {j : Nat} (hj : j < 64) :
    (b.loaded rec_ bs).readB j = BitVec.ofNat 64 (bytesNat ((bs.drop (8 * j)).take 8)) :=
  sget_map_range (fun n => BitVec.ofNat 64 (bytesNat ((bs.drop (8 * n)).take 8))) 0 hj

theorem loaded_bown {j : Nat} (hj : j < 64) : sget? (b.loaded rec_ bs).bown j =
    if (bs.getD (0x200 + j) 0).toNat = 0xFF then none else some (bs.getD (0x200 + j) 0).toNat := by
  have h : sget? (b.loaded rec_ bs).bown j = _ := sget?_filterMap_range (f := fun n =>
    if (bs.getD (0x200 + n) 0).toNat = 0xFF then none else some (n, (bs.getD (0x200 + n) 0).toNat)) (fun i p hp => by
      split at hp
      · cases hp
      · exact congrArg Prod.fst (Option.some.inj hp).symm) 64 j
  rw [h, if_pos hj, apply_ite (Option.map Prod.snd)]
  rfl

theorem loaded_bar {j : Nat} (hj : j < 16) :
    (sget (b.loaded rec_ bs).bars j Bar.zero).phase = bytesNat ((bs.drop (0x240 + 8 * j)).take 4) :=
  congrArg Bar.phase
    (sget_map_range (fun n => ({ Bar.zero with phase := bytesNat ((bs.drop (0x240 + 8 * n)).take 4) } : Bar)) Bar.zero hj)

theorem loaded_acc {j : Nat} (hj : j < 4096 * b.acc) :
    sget (b.loaded rec_ bs).accs j 0 = BitVec.ofNat 32 (bytesNat ((bs.drop (0xD00 + 4 * j)).take 4)) :=
  sget_map_range (fun i => BitVec.ofNat 32 (bytesNat ((bs.drop (0xD00 + 4 * i)).take 4))) 0 hj

end Fields

/-- What the loaded block holds (Table 2.8). -/
theorem loaded_holds {s : State} {ps : List Nat} {va n : Nat} {b : Block} (rec_ : Nat) (hn : bookOff b + 16 = n) :
    let num := s.rangeNum ps va
    let b' := b.loaded rec_ ((begin_ s).rangeBytes ps va 0 n)
    (∀ j < 64, (b'.readB j).toNat = num (8 * j) 8 ∧
      sget? b'.bown j = if num (0x200 + j) 1 = 0xFF then none else some (num (0x200 + j) 1)) ∧
      (∀ j < 16, (sget b'.bars j Bar.zero).phase = num (0x240 + 8 * j) 4) ∧
      ∀ j < 4096 * b.acc, (sget b'.accs j 0).toNat = num (0xD00 + 4 * j) 4 := by
  intro num b'
  have hat : ∀ {o m}, o + m ≤ n → bytesNat ((((begin_ s).rangeBytes ps va 0 n).drop o).take m) = num o m := rangeNum_slice
  have hlow : 0xD00 + 16384 * b.acc + 16 ≤ n := by unfold bookOff winOff at hn; omega
  have hbyte : ∀ {i}, i < n → ((begin_ s).rangeBytes ps va 0 n).getD i 0 = s.byte (rangeAt ps va i) := fun {i} hi => by
    rw [List.getD_eq_getElem _ _ (by simpa using hi)]
    simp only [Work.rangeBytes, List.getElem_map, List.getElem_range, Nat.zero_add]
    rfl
  refine ⟨fun j hj => ⟨?_, ?_⟩, fun j hj => (loaded_bar _ _ _ hj).trans (hat (by omega)), fun j hj => ?_⟩
  · rw [loaded_readB _ _ _ hj, hat (by omega), BitVec.toNat_ofNat]
    exact Nat.mod_eq_of_lt (rangeNum_lt ..)
  · rw [loaded_bown _ _ _ hj, hbyte (by omega), ← rangeNum_one]
  · rw [loaded_acc _ _ _ hj, hat (by omega), BitVec.toNat_ofNat]
    exact Nat.mod_eq_of_lt (rangeNum_lt ..)

section Restoring

variable {s : State} {h : Hdr} {slot handle : Opnd} {l k : Nat} {b : Block} {ps : List Nat}

/-- restore of a block whose slot names no codebook reads the slot and loads the block with what it holds. -/
theorem restoreBlock_loads {va n : Nat}
    (ht : (begin_ s).stoppedBlock (s.op64 l handle).toNat = some k) (hb : sget? s.d.blocks k = some b) (hk : k ≠ s.here.blk)
    (hva : (s.op64 l slot).toNat = va) (ha : va % 256 = 0) (hlt : va < 2 ^ 57) (hst : s.d.cur.stamped = false)
    (hf : FenceMet s .blk) (hn : bookOff b + 16 = n) (hr : RangeOk s ps va n) (hq : RangeReads s ps va n)
    (hmap : (begin_ s).mapPages (slotDie s.d.cur.slot) .engR false va n = .ok ps)
    (hrec : bits (s.rangeNum ps va (bookOff b) 16) 127 1 = 0)
    (hi : Issued s h (slot.names 2 ++ handle.names 2) [] [l]) :
    exec (.restoreBlock h slot handle) s = .next (leaves s ((atIssue s []).loadBlock k (s.rangeNum ps va (bookOff b) 16)
      ((begin_ s).rangeBytes ps va 0 n) ((begin_ s).rangeBytes ps va (winOff b) (1024 * b.spad)) [])) := by
  have hB : (atIssue s []).blk? k = some b := (atIssue_blk?_ne hi hk).trans hb
  have hn16 : n % 16 = 0 := hn ▸ bookOff_granules b
  have hsize : blockSize (atIssue s []) k = n := by unfold blockSize; rw [hB]; exact hn
  have hslot := slotOf_ok (w := atIssue s []) (t := k) (size := blockSize (atIssue s [])) ha hlt (kind := .engR) (ps := ps)
    (by rw [hsize]; exact atIssue_mapPages hmap)
  rw [← atIssue_stoppedBlock ht, hsize] at hslot
  show execRestoreBlock h slot handle s = _
  unfold execRestoreBlock
  refine restore_ends (t := k) (id := s.d.nextId) (k := 0) hi hst hf hva ha hn16 (Nat.zero_le _) ?_ hr hq ?_
  · have hbook : bytesNat ((atIssue s []).readRange ps va (va + n - 16) 16) = s.rangeNum ps va (bookOff b) 16 := by
      rw [show va + n - 16 = va + bookOff b by omega]
      exact readRange_num hr (by omega)
    dsimp only
    rw [hslot]
    dsimp only [slotXfer]
    rw [headFails_none (by omega) hn16 hr hq _ fun p hp => List.mem_of_mem_drop hp, hbook]
    have hrange : bookRange (s.rangeNum ps va (bookOff b) 16) = (0, 0) := by
      unfold bookRange
      rw [if_pos hrec]
    dsimp only
    rw [hrange]
    rfl
  · have hbook : bytesNat (((begin_ s).rangeBytes ps va 0 n).drop (n - 16)) = s.rangeNum ps va (bookOff b) 16 := by
      rw [← rangeNum_slice (show bookOff b + 16 ≤ n by omega), List.take_of_length_le (by simp; omega),
        show n - 16 = bookOff b by omega]
    have hwin : (((begin_ s).rangeBytes ps va 0 n).drop (winOff b)).take (1024 * b.spad) =
        (begin_ s).rangeBytes ps va (winOff b) (1024 * b.spad) := Work.rangeBytes_slice _ _ _ (by unfold bookOff at hn; omega)
    show some ((atIssue s []).loadBlock k (bytesNat (((begin_ s).rangeBytes ps va 0 n).drop (n - 16)))
      ((begin_ s).rangeBytes ps va 0 n) ((((begin_ s).rangeBytes ps va 0 n).drop
        (winOff (((atIssue s []).blk? k).getD Block.gone))).take (1024 * (((atIssue s []).blk? k).getD Block.gone).spad)) []) = _
    rw [hbook, hB, Option.getD_some, hwin]

end Restoring

/-! ### The obligation -/

/-- Settles O55: save writes the image where it is live (`saveBlock_saves`), in which every part stands where its table says
(`blockSlot_nums`); restore reads the slot and loads what it holds (`restoreBlock_loads`, `loaded_holds`). -/
theorem saveRestoreBlock : Obligations.SaveRestoreBlock := by
  unfold Obligations.SaveRestoreBlock
  intro s h slot handle l k b ps va die win n hm ht hb hk ha hlt hst hf hr
  constructor
  · intro hq hw hmap hruns
    have hi := issued_of hruns.2
    obtain ⟨t, hexec, hgoes, honly, hblks, hblk, hbytes⟩ := saveBlock_saves hm ht hb hk rfl ha hlt hst hf rfl hr hq hw hmap hi
    exact ⟨t, hexec, hgoes, honly, hblks, hblk, blockSlot_nums ((atIssue_blk?_ne hi hk).trans hb) rfl hbytes⟩
  · intro num hbook hq hmap hruns
    have hi := issued_of hruns.2
    have hB : (atIssue s []).blk? k = some b := (atIssue_blk?_ne hi hk).trans hb
    have h15 : s.rangeNum ps va (bookOff b + 15) 1 / 2 ^ 7 = 0 := Nat.div_eq_of_lt hbook
    have hrec : bits (s.rangeNum ps va (bookOff b) 16) 127 1 = 0 := by
      rw [show bits (s.rangeNum ps va (bookOff b) 16) 127 1 = s.rangeNum ps va (bookOff b + 15) 1 / 2 ^ 7 % 2 ^ 1 from
        bits_rangeNum (j := 15) (r := 7) (c := 1) (by decide) (by decide), h15, Nat.zero_mod]
    obtain ⟨hcur, hbase, hgrp, hblk⟩ := loadBlock_rest (win := (begin_ s).rangeBytes ps va (winOff b) (1024 * b.spad)) hB hrec
      ((begin_ s).rangeBytes ps va 0 n) []
    obtain ⟨hout, hin⟩ := loadBlock_byte hB hrec ((begin_ s).rangeBytes ps va 0 n) []
      (Work.length_rangeBytes (begin_ s) ps va (winOff b) (1024 * b.spad))
    obtain ⟨hall, hadv, -⟩ := leaves_keeps hi hcur (hgrp _) ((hblk _).trans (if_neg hk.symm))
    have hexec := restoreBlock_loads ht hb hk (va := va) (n := n) rfl ha hlt hst hf rfl hr hq hmap hrec hi
    refine ⟨_, hexec, ⟨hall, hadv, fun j hj => ?_⟩,
      fun j hj hjb => ?_, fun a ha => ?_, fun j hj hs => ?_, _, (hblk k).trans (if_pos rfl), rfl, rfl, rfl, loaded_holds _ rfl⟩
    · rw [leaves_slot? hcur hj, hgrp, atIssue_slot? hj]
    · exact (hblk j).trans ((if_neg hj).trans (atIssue_blk?_ne hi hjb))
    · exact (leaves_byte hm hbase a).trans (hout a ha)
    · rw [leaves_byte hm hbase, hin j hj hs, List.getD_eq_getElem _ _ (by simpa using hj)]
      simp only [Work.rangeBytes, List.getElem_map, List.getElem_range]
      rfl

end Sys2Proof.Machine
end

section
/-! PROOFS. Engine operations move their granules and retire, and the index engine takes its commands (clauses of O41). -/

namespace Sys2Proof.Machine

/-! ### The operation of a name -/

theorem id_of_op? {w : Work} {op : Nat} {e : EOp} (h : w.op? op = some e) : e.id = op := by
  simpa using List.find?_some h

theorem ops_updOp (w : Work) (id : Nat) (f : EOp → EOp) :
    (w.updOp id f).d.ops = w.d.ops.map fun o => if o.id = id then f o else o := rfl

/-- A change that keeps the name of an operation is what the name then finds. -/
theorem op?_updOp (w : Work) (id : Nat) {f : EOp → EOp} (hf : ∀ o, (f o).id = o.id) :
    (w.updOp id f).op? id = (w.op? id).map f := by
  have hid : ∀ o : EOp, (if o.id = id then f o else o).id = o.id := fun o => by split <;> simp [hf]
  unfold Work.op?
  rw [ops_updOp, List.find?_map, Function.comp_def]
  simp only [hid]
  cases h : w.d.ops.find? fun o => o.id == id with
  | none => rfl
  | some e => exact congrArg some (if_pos (id_of_op? h))

/-! ### ENGINE_WRITE_PERFORM at a granule -/

section Perform

variable {s : State} {op k : Nat} {e : EOp} {p : EPart}

/-- The step moves the granule it names where nothing is dead. -/
theorem exec_engineWritePerform (ho : (begin_ s).op? op = some e) (hp : e.parts[k]? = some p) (hc : ∀ fs, e.kind ≠ .comp fs)
    (hd : (begin_ s).partDead p = false) (hw : e.waits = false ∨ p.dst = .buf) :
    exec (.engineWritePerform op k) s = .next (commit s.mem ((begin_ s).movePart e k p)) := by
  refine congrArg (fun w => Host.Outcome.next (commit s.mem w)) ?_
  have hgo : (e.waits && p.dst != .buf && !e.early) = false := by rcases hw with h | h <;> simp [h]
  dsimp only
  rw [ho]
  dsimp only
  split
  · next fs hk => exact absurd hk (hc fs)
  · simp [hp, hd, hgo]

end Perform

/-! ### A granule is read (R87, R266) -/

/-- No write on its way meets a byte of the keys: none is raced. -/
theorem raceSeen_quiet {w : Work} {ks : List Nat} (h : ∀ a ∈ ks, w.quietAt a) :
    w.raceSeen ks = (ks.map w.physByte, [], w) := by
  have hnone : ∀ c k, w.raceWith c k ks = none := fun c k => by
    unfold Work.raceWith
    cases hq : (w.d.core c).path[k]? with
    | none => rfl
    | some q =>
      have hmem : q ∈ (w.d.core c).path := List.mem_of_getElem? hq
      have hmiss : ks.any (fun a => decide (q.pa ≤ a) && decide (a < q.pa + q.n)) = false := by
        unfold Dev.core sget at hmem
        cases hcore : sget? w.d.cores c with
        | none => rw [hcore] at hmem; cases hmem
        | some v =>
          rw [hcore] at hmem
          refine List.any_eq_false.mpr fun a ha => ?_
          have := h a ha _ (mem_of_sget? hcore) q hmem
          simp only [Bool.and_eq_true, decide_eq_true_eq]
          omega
      rw [Option.bind_some, hmiss, Bool.and_false]
      rfl
  have hr : w.raceable ks = [] := by simp [Work.raceable, hnone]
  unfold Work.raceSeen
  rw [hr]

/-- What a list of keys with a byte each gives for a key. -/
theorem find?_zip_map {β : Type} (ks : List Nat) (f : Nat → β) (a : Nat) :
    ((ks.zip (ks.map f)).find? fun q => q.1 == a).map (fun q => q.2) = if a ∈ ks then some (f a) else none := by
  induction ks with
  | nil => rfl
  | cons k ks ih =>
    rw [List.map_cons, List.zip_cons_cons, List.find?_cons]
    by_cases h : k = a
    · subst h; simp
    · rw [beq_false_of_ne h, ih]
      simp [Ne.symm h]

theorem map_range_zip {α β : Type} (l : List α) (f : α × Nat → β) :
    ((List.range l.length).zip l).map (fun q => f (q.2, q.1)) = l.zipIdx.map f := by
  rw [List.zipIdx_eq_zip_range', ← List.range_eq_range', ← List.zip_swap (List.range l.length), List.map_map]
  rfl

/-- A source that names the index of a codebook vector. -/
def BSrc.isIndex : BSrc → Bool
  | .cb _ _ => true
  | _ => false

/-- A granule once the bytes that `seen` gives for its sources are known: an own granule's all, another's indices alone. -/
def EPart.knows (o : EOp) (seen : BSrc → Option Byte) (own : Bool) (p : EPart) : EPart :=
  let src := p.src.map fun b => if own || b.isIndex then ((seen b).map fun x => b.take o.book x).getD b else b
  if p.val.isSome then p
  else { p with src := src, val := if src.all (fun b => b.key?.isNone) then some (src.map BSrc.byte) else none }

theorem learn_eq_knows (o : EOp) (at_ : Nat → Option Byte) (own : Bool) (p : EPart) :
    p.learn o at_ own = p.knows o (fun b => b.key?.bind at_) own := by
  have hsrc : ∀ b : BSrc, ((((b.key?.bind at_).filter fun _ => own || b.isIndex).map fun x => b.take o.book x).getD b) =
      if own || b.isIndex then ((b.key?.bind at_).map fun x => b.take o.book x).getD b else b := fun b => by
    cases own || b.isIndex <;> cases b.key?.bind at_ <;> rfl
  unfold EPart.knows
  simp only [← hsrc]
  rfl

/-- What is seen of a source when the bytes at some keys are read. -/
def Work.sees (w : Work) (keys : List Nat) (b : BSrc) : Option Byte := (b.key?.filter keys.contains).map w.physByte

/-- Indices out of range among what is seen of a granule's sources. -/
def EPart.misses (o : EOp) (seen : BSrc → Option Byte) (p : EPart) : Nat :=
  (p.src.map fun b => ((seen b).map fun x => b.out o.book x).getD 0).sum

/-- An operation that has read the bytes at the keys of its granule `k`. -/
def Work.hasRead (w : Work) (keys : List Nat) (k : Nat) (o : EOp) : EOp :=
  { o with
    parts := o.parts.zipIdx.map fun q => q.1.knows o (w.sees keys) (q.2 == k)
    word := addZrows o.word (o.parts.map (EPart.misses o (w.sees keys))).sum }

/-- Bytes that may be read now and that no write races are read, and nothing else changes. -/
theorem readPart_reads {w : Work} {e : EOp} {p : EPart} {k : Nat}
    (h : ∀ a ∈ p.src.filterMap BSrc.key?, w.readOk e a = true ∧ w.quietAt a) :
    ∃ v, w.readPart e k p = v.updOp e.id (w.hasRead (p.src.filterMap BSrc.key?) k) ∧ SameRest w v ∧ v.log = w.log := by
  generalize hkeys : p.src.filterMap BSrc.key? = keys at h
  have hmem : ∀ a, a ∈ keys.eraseDups ↔ a ∈ keys := fun a => List.mem_eraseDups
  have hks : keys.eraseDups.filter (w.readOk e) = keys.eraseDups :=
    List.filter_eq_self.mpr fun a ha => (h a ((hmem a).mp ha)).1
  have hrace := raceSeen_quiet (w := w) (ks := keys.eraseDups) fun a ha => (h a ((hmem a).mp ha)).2
  have hsee : ∀ b : BSrc, (b.key?.bind fun a => ((keys.eraseDups.zip (keys.eraseDups.map w.physByte)).find? fun q =>
      q.1 == a).map fun q => q.2) = w.sees keys b := fun b => by
    unfold Work.sees
    cases b.key? with
    | none => rfl
    | some a => simp only [Option.bind_some, find?_zip_map, hmem, Option.filter_some, List.contains_iff_mem]; split <;> rfl
  refine ⟨_, ?_, .foldl (fun w a => if a < 2 ^ 57 then w.homeTouch a else w) (fun w a => ?_) keys.eraseDups w,
    foldl_log (fun w a => ?_) keys.eraseDups w⟩
  · unfold Work.readPart
    simp only [hkeys, hks, hrace]
    refine congrArg (Work.updOp _ e.id) (funext fun o => ?_)
    unfold Work.hasRead EPart.outs EPart.misses
    simp only [learn_eq_knows, hsee, List.map_nil, List.append_nil]
    rw [map_range_zip o.parts fun q => q.1.knows o (w.sees keys) (q.2 == k)]
  · split
    · exact homeTouch_rest ..
    · exact .refl w
  · split
    · exact homeTouch_log ..
    · rfl

/-- A granule takes its bytes, and nothing but its operation changes. -/
theorem granule_reads {s : State} {op k : Nat} {e : EOp} {p : EPart} (ho : (begin_ s).op? op = some e) (hp : e.parts[k]? = some p)
    (hc : ∀ fs, e.kind ≠ .comp fs) (hd : (begin_ s).partDead p = false) (hv : p.val = none)
    (hw : e.waits = false ∨ p.dst = .buf) (h : ∀ a ∈ p.src.filterMap BSrc.key?, (begin_ s).readOk e a = true ∧ NoRace s a) :
    Ends (.engineWritePerform op k) s fun t => SameMem s t ∧ t.d.groups = s.d.groups ∧ t.d.blocks = s.d.blocks ∧
      t.d.ops = s.d.ops.map fun o => if o.id = op then (begin_ s).hasRead (p.src.filterMap BSrc.key?) k o else o := by
  obtain ⟨v, hmove, hrest, hlog⟩ := readPart_reads (w := begin_ s) (k := k) h
  have hex := exec_engineWritePerform ho hp hc hd hw
  rw [show (begin_ s).movePart e k p = (begin_ s).readPart e k p by unfold Work.movePart; rw [hv], hmove, id_of_op? ho] at hex
  refine ⟨_, hex, sameMem_of_log hlog, hrest.groups, hrest.blocks, ?_⟩
  exact congrArg (List.map _) (hrest.onDev Dev.ops fun _ => rfl)

/-! ### A granule is written (R87, R107) -/

/-- A write of scratchpad that no copy has still to read, and that meets no barrier object in use, is a store. -/
theorem spadWrite_free {s : State} {d n : Nat} (x : Nat) (hu : Unread s d n)
    (hb : ∀ b ∈ (begin_ s).busyObjs ((d - 2 ^ 57) / 2 ^ 19), overlap b 16 (d % 2 ^ 19) n = false) :
    (begin_ s).spadWrite d n x = (begin_ s).store d n x := by
  have hbusy : (((begin_ s).busyObjs ((d - 2 ^ 57) / 2 ^ 19)).eraseDups.filter fun o => overlap o 16 (d % 2 ^ 19) n) = [] :=
    List.filter_eq_nil_iff.mpr fun b hmem => by rw [hb b (List.mem_eraseDups.mp hmem)]; exact Bool.false_ne_true
  unfold Work.spadWrite
  dsimp only
  rw [hbusy]
  refine if_neg ?_
  simp only [Work.store_d, begin_d, List.any_eq_true, Bool.and_eq_true, beq_iff_eq, not_exists, not_and]
  intro o ho hcls q hq b hmem
  cases b with
  | key a =>
    have := hu o ho hcls q hq a hmem
    simp only [Bool.and_eq_true, decide_eq_true_eq]
    omega
  | _ => exact Bool.false_ne_true

theorem SameRest.making (w : Work) (on : Bool) (d : Nat) : SameRest w (w.making on d) := by
  unfold Work.making
  split
  · exact .updPkg w fun _ => rfl
  · exact .refl w

theorem making_byte (w : Work) (on : Bool) (d a : Nat) : (w.making on d).byte a = w.byte a := by
  unfold Work.making
  split <;> rfl

section Write

variable {s : State} {op k d : Nat} {e : EOp} {p : EPart} {bs : List Byte} (hv : p.val = some bs) (hd : p.dst = .key d)
  (hbo : e.bo = none) (hr : e.raced = []) (hz : ∀ r c ls, e.kind = .collStage r c ls → (begin_ s).zeroing c.gpa = false)
  (hs : 2 ^ 57 ≤ d → Unread s d bs.length ∧
    ∀ b ∈ (begin_ s).busyObjs ((d - 2 ^ 57) / 2 ^ 19), overlap b 16 (d % 2 ^ 19) bs.length = false)
  (hh : 2 ^ 57 ≤ d ∨ ((begin_ s).leaseFree d = true ∧ homeUp s.d d = true ∧ s.d.rideOf d = none))

include hv hd hbo hr hz hs hh

/-- A known granule is stored in the scratchpad, or at a home that takes it now, and leaves its operation. -/
theorem movePart_writes : ∃ v, (begin_ s).movePart e k p = v.updOp e.id (fun o => { o with parts := o.parts.eraseIdx k }) ∧
    SameRest (begin_ s) v ∧ ∀ a, v.byte a = ((begin_ s).store d bs.length (bytesNat bs)).byte a := by
  unfold Work.movePart
  rw [hv, hd]
  dsimp only
  rw [if_neg, hbo]
  swap
  · rw [hr]
    cases hk : e.kind with
    | collStage r c ls => exact Bool.eq_false_iff.mp (hz r c ls hk)
    | _ => exact Bool.false_ne_true
  by_cases hspad : 2 ^ 57 ≤ d
  · obtain ⟨hu, hb⟩ := hs hspad
    rw [if_pos hspad, spadWrite_free _ hu hb]
    exact ⟨_, rfl, .store .., fun _ => rfl⟩
  · obtain ⟨hl, hup, hride⟩ := hh.resolve_left hspad
    rw [if_neg hspad, hl, gateNow_still hup hride]
    exact ⟨_, rfl, (SameRest.homeWrite ..).trans (.making ..), fun a => (making_byte ..).trans (homeWrite_byte hride ..)⟩

/-- A granule's bytes stand where it goes, no other byte changes, and its operation has it no longer. -/
theorem granule_writes (ho : (begin_ s).op? op = some e) (hp : e.parts[k]? = some p) (hc : ∀ fs, e.kind ≠ .comp fs)
    (hdead : (begin_ s).partDead p = false) (hw : e.waits = false) (hm : memWf s.mem = true) :
    Ends (.engineWritePerform op k) s fun t => (t.d.groups = s.d.groups ∧ t.d.blocks = s.d.blocks ∧
      t.d.ops = s.d.ops.map fun o => if o.id = op then { o with parts := o.parts.eraseIdx k } else o) ∧
      (∀ j < bs.length, t.byte (d + j) = bs.getD j 0) ∧ ∀ a, a < d ∨ d + bs.length ≤ a → t.byte a = s.byte a := by
  obtain ⟨v, hmove, hrest, hbyte⟩ := movePart_writes (k := k) hv hd hbo hr hz hs hh
  have hex := exec_engineWritePerform ho hp hc hdead (.inl hw)
  rw [hmove, id_of_op? ho] at hex
  have hat : ∀ a, (commit s.mem (v.updOp op fun o => { o with parts := o.parts.eraseIdx k })).byte a =
      ((begin_ s).store d bs.length (bytesNat bs)).byte a := fun a => (commit_byte hm hrest.base a).trans (hbyte a)
  refine ⟨_, hex, ⟨hrest.groups, hrest.blocks, congrArg (List.map _) (hrest.onDev Dev.ops fun _ => rfl)⟩, fun j hj => ?_,
    fun a ha => ?_⟩
  · rw [hat, Work.byte_store_in _ _ _ _ _ hj, byte_bytesNat]
  · exact (hat a).trans (Work.byte_store_out _ _ _ _ _ ha)

end Write

/-! ### ENGINE_RETIRE (R104, R106) -/

/-- A group in which an operation of a class has retired: its counter is one less, and its token holds the status. -/
def Group.retires (c : Cls) (tk : Nat) (x : DWord) (g : Group) : Group :=
  { ({ g with cnt := sset g.cnt (Cls.code c) (g.count c - 1) } : Group).writeS tk x with
    spend := g.spend.filter fun k => k != tk }

theorem retires_holds (c : Cls) (tk : Nat) (x : DWord) (g : Group) :
    let g' := g.retires c tk x
    g'.count c = g.count c - 1 ∧ g'.readS tk = x ∧ tk ∉ g'.spend ∧ g'.v = g.v ∧ g'.thr = g.thr ∧
      ∀ n, n ≠ tk → g'.readS n = g.readS n :=
  ⟨(sget_sset ..).trans (if_pos rfl), (sget_sset ..).trans (if_pos rfl), by simp [Group.retires], rfl, rfl,
    fun _ hn => (sget_sset ..).trans (if_neg hn)⟩

/-- An operation is no longer among those on their way. -/
def Work.withoutOp (w : Work) (op : Nat) : Work := w.updDev fun d => { d with ops := d.ops.filter fun o => o.id != op }

section Retire

variable {s : State} {op slot tk : Nat} {e : EOp} (ho : (begin_ s).op? op = some e) (hf : e.finished = true)
  (hold : (begin_ s).olderOps e = false) (hs : e.slots = [slot]) (ht : e.tok = some tk)
  (hk : e.kind = .walk ∨ e.kind = .gather ∨ ∃ c, e.kind = .copy c)

include ho hf hold hs ht hk

/-- A copy or an index command leaves its counter and its token, and does nothing else. -/
theorem exec_engineRetire : exec (.engineRetire op) s =
    .next (commit s.mem (((begin_ s).withoutOp op).updGrp slot (Group.retires e.cls tk e.word))) := by
  refine congrArg (fun w => Host.Outcome.next (commit s.mem w)) ?_
  have hwalk : (begin_ s).gobjWalk e = 0 := by
    unfold Work.gobjWalk
    rcases hk with h | h | ⟨c, h⟩ <;> simp only [h]
  have hopen : (begin_ s).openDone e = (begin_ s, e) := by
    unfold Work.openDone
    rcases hk with h | h | ⟨c, h⟩ <;> simp only [h]
  have hkind : ∀ w : Work, w.retireKind e = w := fun w => by
    unfold Work.retireKind
    rcases hk with h | h | ⟨c, h⟩ <;> simp only [h]
  dsimp only
  rw [ho]
  dsimp only
  split
  · next h => rcases hk with h' | h' | ⟨c, h'⟩ <;> exact absurd (h.symm.trans h') (by simp)
  · rw [hf, hold, hwalk, hopen, hkind, hs, ht, if_neg (by decide), if_neg (by decide), if_neg (by decide)]
    exact updGrp_updGrp ..

theorem engineRetire_ends {g : Group} (hg : s.slot? slot = some g) :
    Ends (.engineRetire op) s fun t => SameMem s t ∧ t.d.ops = s.d.ops.filter (fun o => o.id != op) ∧
      t.d.blocks = s.d.blocks ∧ (∀ k, k ≠ slot → t.slot? k = s.slot? k) ∧
      ∃ g', t.slot? slot = some g' ∧ g'.count e.cls = g.count e.cls - 1 ∧ g'.readS tk = e.word ∧ tk ∉ g'.spend ∧
        g'.v = g.v ∧ g'.thr = g.thr ∧ ∀ n, n ≠ tk → g'.readS n = g.readS n := by
  have hget : ∀ j, (((begin_ s).withoutOp op).updGrp slot (Group.retires e.cls tk e.word)).grp? j =
      if j = slot then some (g.retires e.cls tk e.word) else s.slot? j := fun j => by
    rw [Work.grp?_updGrp]
    exact congrArg (fun o => if j = slot then Option.map _ o else s.slot? j) hg
  exact ⟨_, exec_engineRetire ho hf hold hs ht hk, sameMem_of_log rfl, rfl, rfl, fun j hj => (hget j).trans (if_neg hj), _,
    (hget slot).trans (if_pos rfl), retires_holds ..⟩

end Retire

/-! ### INDEX_COMMAND_START (R277) -/

section Index

variable {s : State} {die hd : Nat} {rest : List Nat} {e : EOp}

/-- The command at the head begins. -/
theorem indexCommandStart_begins (hq : (s.d.die die).idxQ = hd :: rest) (ho : (begin_ s).op? hd = some e) (hw : e.waits = true) :
    Ends (.indexCommandStart die) s fun t => SameMem s t ∧ t.d.groups = s.d.groups ∧
      t.d.ops = s.d.ops.map fun o => if o.id = hd then { o with waits := false } else o := by
  have hex : exec (.indexCommandStart die) s = .next (commit s.mem ((begin_ s).updOp hd fun o => { o with waits := false })) := by
    refine congrArg (fun w => Host.Outcome.next (commit s.mem w)) ?_
    dsimp only
    rw [show ((begin_ s).d.die die).idxQ = hd :: rest from hq]
    dsimp only
    rw [ho]
    exact if_pos hw
  exact ⟨_, hex, sameMem_of_log rfl, rfl, rfl⟩

/-- The command at the head has made its last write: it leaves, and the next begins. -/
theorem indexCommandStart_next {nx : Nat} {tl : List Nat} (hq : (s.d.die die).idxQ = hd :: nx :: tl)
    (ho : (begin_ s).op? hd = some e) (hw : e.waits = false) (hp : e.parts = []) :
    Ends (.indexCommandStart die) s fun t => SameMem s t ∧ t.d.groups = s.d.groups ∧ (t.d.die die).idxQ = nx :: tl ∧
      t.d.ops = s.d.ops.map fun o => if o.id = nx then { o with waits := false } else o := by
  have hex : exec (.indexCommandStart die) s = .next (commit s.mem
      (((begin_ s).updDie die fun d => { d with idxQ := nx :: tl }).updOp nx fun o => { o with waits := false })) := by
    refine congrArg (fun w => Host.Outcome.next (commit s.mem w)) ?_
    dsimp only
    rw [show ((begin_ s).d.die die).idxQ = hd :: nx :: tl from hq]
    dsimp only
    rw [ho]
    dsimp only
    rw [hw, hp]
    rfl
  refine ⟨_, hex, sameMem_of_log rfl, rfl, ?_, rfl⟩
  have hdie := Work.die_updDie (begin_ s) die die fun d => { d with idxQ := nx :: tl }
  exact congrArg Die.idxQ (hdie.trans (if_pos rfl))

end Index

end Sys2Proof.Machine
end

section
/-! PROOFS. A granted matrix operation (a clause of O41): accumulators, compressed operands, stored tiles. -/

namespace Sys2Proof.Machine

/-! ### Lists by index -/

theorem drop_take_map_range {α : Type} (f : Nat → α) {n o c : Nat} (h : o + c ≤ n) :
    (((List.range n).map f).drop o).take c = (List.range c).map fun m => f (o + m) := by
  refine List.ext_getElem (by simp; omega) fun i h1 h2 => ?_
  simp

/-- Lists of one length behind each other, by index. -/
theorem flatMap_range_eq_map {α : Type} (d : α) {c : Nat} {g : Nat → List α} (m : Nat) (hg : ∀ q < m, (g q).length = c) :
    (List.range m).flatMap g = (List.range (c * m)).map fun j => (g (j / c)).getD (j % c) d := by
  induction m with
  | zero => rfl
  | succ m ih =>
    have hm := hg m (Nat.lt_succ_self m)
    rw [List.range_succ, List.flatMap_append, ih fun q hq => hg q (Nat.lt_succ_of_lt hq), List.flatMap_singleton, Nat.mul_succ,
      List.range_add, List.map_append, List.map_map]
    refine congrArg _ (List.ext_getElem (by simp [hm]) fun i h1 h2 => ?_)
    have hi : i < c := hm ▸ h1
    simp [Nat.mul_add_div (Nat.zero_lt_of_lt hi), Nat.div_eq_of_lt hi, Nat.mod_eq_of_lt hi, h1]

/-! ### Accumulators -/

theorem accKey_inj {a a' i i' j j' : Nat} (hi : i < 64) (hi' : i' < 64) (hj : j < 64) (hj' : j' < 64)
    (h : accKey a i j = accKey a' i' j') : a = a' ∧ i = i' ∧ j = j' := by
  unfold accKey at h
  omega

/-- The entries of an accumulator, with their keys. -/
def accEntries (a : Nat) (f : Nat → Nat → Nat) : List (Nat × Word) :=
  (List.range 64).flatMap fun i => (List.range 64).map fun j => (accKey a i j, BitVec.ofNat 32 (f i j))

theorem mem_accEntries {a : Nat} {f : Nat → Nat → Nat} {e : Nat × Word} :
    e ∈ accEntries a f ↔ ∃ i < 64, ∃ j < 64, (accKey a i j, BitVec.ofNat 32 (f i j)) = e := by
  simp [accEntries]

theorem setAcc_accs (b : Block) (a : Nat) (f : Nat → Nat → Nat) :
    (b.setAcc a f).accs = (accEntries a f).foldl (fun m e => sset m e.1 e.2) b.accs := by
  unfold Block.setAcc accEntries
  simp only [List.foldl_flatMap, List.foldl_map]

/-- Keys that no entry has keep what they had. -/
theorem sget?_foldl_sset_ne {α : Type} {es : List (Nat × α)} {k : Nat} (h : ∀ e ∈ es, e.1 ≠ k) (m : Sparse α) :
    sget? (es.foldl (fun m e => sset m e.1 e.2) m) k = sget? m k := by
  induction es generalizing m with
  | nil => rfl
  | cons e es ih =>
    rw [List.foldl_cons, ih fun e' he' => h e' (List.mem_cons_of_mem _ he'), sget?_sset_ne _ _ (h e List.mem_cons_self).symm]

theorem setAcc_same (b : Block) (a : Nat) (f : Nat → Nat → Nat) {i j : Nat} (hi : i < 64) (hj : j < 64) :
    sget (b.setAcc a f).accs (accKey a i j) 0 = BitVec.ofNat 32 (f i j) := by
  unfold sget
  rw [setAcc_accs, sget?_foldl_sset (v := BitVec.ofNat 32 (f i j)) (mem_accEntries.mpr ⟨i, hi, j, hj, rfl⟩)]
  · rfl
  · intro e he hk
    obtain ⟨i', hi', j', hj', rfl⟩ := mem_accEntries.mp he
    obtain ⟨-, rfl, rfl⟩ := accKey_inj hi' hi hj' hj hk
    rfl

theorem setAcc_other (b : Block) {a a' : Nat} (f : Nat → Nat → Nat) {i j : Nat} (ha : a' ≠ a) (hi : i < 64) (hj : j < 64) :
    sget (b.setAcc a f).accs (accKey a' i j) 0 = sget b.accs (accKey a' i j) 0 := by
  unfold sget
  rw [setAcc_accs, sget?_foldl_sset_ne]
  intro e he hk
  obtain ⟨i', hi', j', hj', rfl⟩ := mem_accEntries.mp he
  exact ha (accKey_inj hi' hi hj' hj hk).1.symm

/-! ### A compressed operand (R271) -/

theorem length_mrows (t : Ty) (n r : Nat) (bs : List Byte) : (mrows t n r bs).length = r := by
  induction r generalizing bs with
  | zero => rfl
  | succ r ih => exact congrArg (· + 1) (ih _)

/-- A field of a field. -/
theorem bits_bits (x a n c m : Nat) (h : c + m ≤ n) : bits (bits x a n) c m = bits x (a + c) m := by
  obtain ⟨k, rfl⟩ := Nat.exists_eq_add_of_le h
  unfold bits
  rw [Nat.add_assoc, Nat.pow_add 2 c (m + k), Nat.mod_mul_right_div_self, Nat.pow_add 2 m k, Nat.mod_mul_right_mod,
    Nat.div_div_eq_div_mul, ← Nat.pow_add]

/-- Column `c` of a compressed row: the stored elements of its four whose position is the column's. -/
def expandAt (md : Nat) (r : MRow) (c : Nat) : FVal :=
  ([2 * (c / 4), 2 * (c / 4) + 1].filter fun e => bits md (2 * e) 2 = c % 4).foldl
    (fun v e => fsum [v, r.el.getD e (.fin false 0 0)] false) (.fin false 0 0)

theorem expand_el (n md : Nat) (r : MRow) (h : n % 4 = 0) : (expand n md r).el = (List.range n).map (expandAt md r) := by
  unfold expand
  dsimp only
  rw [flatMap_range_eq_map (.fin false 0 0) (c := 4) _ fun _ _ => by simp, show 4 * (n / 4) = n by omega]
  refine List.map_congr_left fun c _ => ?_
  have hc : c % 4 < 4 := Nat.mod_lt _ (by decide)
  rw [List.getD_eq_getElem _ _ (by simpa using hc), List.getElem_map, List.getElem_range]
  unfold expandAt
  rw [List.foldl_filter]
  simp only [decide_eq_true_eq]

/-- A row of a compressed operand has its positions among the metadata's. -/
theorem expandAt_row (md : Nat) (r : MRow) {n i c : Nat} (hc : c < n) (h : n % 4 = 0) :
    expandAt (bits md (i * (n / 2) * 2) (2 * (n / 2))) r c = ([2 * (c / 4), 2 * (c / 4) + 1].filter fun m =>
      md / 2 ^ (2 * (i * (n / 2) + m)) % 4 = c % 4).foldl (fun v m => fsum [v, r.el.getD m (.fin false 0 0)] false)
        (.fin false 0 0) := by
  unfold expandAt
  refine congrArg (List.foldl _ _) (List.filter_congr fun e he => ?_)
  have hle : 2 * e + 2 ≤ 2 * (n / 2) := by
    rcases List.mem_cons.mp he with rfl | he
    · omega
    · rw [List.mem_singleton.mp he]; omega
  rw [bits_bits _ _ _ _ _ hle, show i * (n / 2) * 2 + 2 * e = 2 * (i * (n / 2) + e) by ring]
  rfl

/-- The rows of a compressed operand, expanded. -/
theorem rowAt_expand (l : List MRow) (n md : Nat) {i : Nat} (hi : i < 64) (hl : l.length = 64) :
    rowAt (((List.range 64).zip l).map fun p => expand n (bits md (p.1 * (n / 2) * 2) (2 * (n / 2))) p.2) i =
      expand n (bits md (i * (n / 2) * 2) (2 * (n / 2))) (rowAt l i) := by
  unfold rowAt
  rw [List.getD_eq_getElem _ _ (by simpa [hl] using hi), List.getD_eq_getElem _ _ (by omega)]
  simp

theorem mulAcc_dense (b : Block) (a n : Nat) (ta tb : Ty) (ftz : Bool) (data : List Byte) {i j : Nat}
    (hi : i < 64) (hj : j < 64) :
    sget (b.mulAcc a n ta tb false ftz data).accs (accKey a i j) 0 = BitVec.ofNat 32 (dotAcc ftz (b.acc? a i j) n
      (rowAt (mrows ta n 64 data) i) (rowAt (mrows tb n 64 (data.drop (64 * rowLen ta n))) j)) := by
  unfold Block.mulAcc
  simp only [Bool.false_eq_true, if_false]
  exact setAcc_same _ _ _ hi hj

theorem mulAcc_other (b : Block) {a a' : Nat} (n : Nat) (ta tb : Ty) (sp ftz : Bool) (data : List Byte) {i j : Nat}
    (ha : a' ≠ a) (hi : i < 64) (hj : j < 64) :
    sget (b.mulAcc a n ta tb sp ftz data).accs (accKey a' i j) 0 = sget b.accs (accKey a' i j) 0 := by
  unfold Block.mulAcc
  exact setAcc_other _ _ ha hi hj

/-- Element by element, smma multiplies the operand that its metadata expand. -/
theorem mulAcc_sparse (b : Block) (a n : Nat) (ta tb : Ty) (ftz : Bool) (data : List Byte) (h : n % 4 = 0) {i j : Nat}
    (hi : i < 64) (hj : j < 64) :
    let ra := mrows ta (n / 2) 64 data
    let md := bytesNat (data.drop (64 * rowLen ta (n / 2) + 64 * rowLen tb n))
    sget (b.mulAcc a n ta tb true ftz data).accs (accKey a i j) 0 = BitVec.ofNat 32 (dotAcc ftz (b.acc? a i j) n
      { el := (List.range n).map fun c => ([2 * (c / 4), 2 * (c / 4) + 1].filter fun m =>
          md / 2 ^ (2 * (i * (n / 2) + m)) % 4 = c % 4).foldl
            (fun v m => fsum [v, (rowAt ra i).el.getD m (.fin false 0 0)] false) (.fin false 0 0)
        sc := (rowAt ra i).sc } (rowAt (mrows tb n 64 (data.drop (64 * rowLen ta (n / 2)))) j)) := by
  intro ra md
  unfold Block.mulAcc
  simp only [if_true]
  rw [setAcc_same _ _ _ hi hj, rowAt_expand _ _ _ hi (length_mrows ..)]
  refine congrArg (fun r => BitVec.ofNat 32 (dotAcc ftz (b.acc? a i j) n r _)) ?_
  have hel := (expand_el n (bits md (i * (n / 2) * 2) (2 * (n / 2))) (rowAt ra i) h).trans
    (List.map_congr_left fun c hc => expandAt_row md _ (List.mem_range.mp hc) h)
  exact congrArg (fun l => ({ el := l, sc := (rowAt ra i).sc } : MRow)) hel

/-! ### A stored row (R65, R66, R274) -/

theorem tileBits_tileOf (r : TRec) : (tileBits (tileOf r).ty).getD 8 = (tileOf r).b := by
  unfold tileOf rElem
  cases rTY r with
  | none => rfl
  | some t =>
    dsimp only [Option.bind_some]
    cases h : tileBits t with
    | none => rfl
    | some b => exact congrArg (Option.getD · 8) h

/-- A block has one code for each of its 32 elements. -/
theorem length_quantise (el : Elem) (rnd : Rnd) {xs : List FVal} (h : xs.length = 32) :
    (quantise el rnd (List.replicate 32 0) xs).2.length = 32 := by
  unfold quantise
  split
  · simp [h]
  · split <;> simp [h]

/-- Element codes side by side, as bytes. -/
theorem packed_range (n b : Nat) (code : Nat → Nat) :
    natBytes (((List.range n).map code).length * b / 8)
      (((List.range ((List.range n).map code).length).zip ((List.range n).map code)).map fun p => p.2 * 2 ^ (b * p.1)).sum =
    (List.range (n * b / 8)).map fun m => BitVec.ofNat 8 (((List.range n).map fun j => 2 ^ (b * j) * code j).sum / 256 ^ m) := by
  have hz : (List.range n).zip ((List.range n).map code) = (List.range n).map fun j => (j, code j) := by
    refine List.ext_getElem (by simp) fun i h1 h2 => ?_
    simp
  rw [List.length_map, List.length_range, hz, List.map_map]
  unfold natBytes
  simp only [pow_8, Function.comp_def, Nat.mul_comm (code _)]

/-- A stored element before it is rounded (R274). -/
def Block.scaled (b : Block) (a : Nat) (ta tb : TRec) (i j : Nat) : FVal :=
  (fF32.decode (b.acc? a i j)).mul ((scaleOf ta).mul (scaleOf tb))

/-- Block `c` of a stored row, quantised. -/
def Block.quantised (b : Block) (a : Nat) (el : Elem) (ta tb : TRec) (rnd : Rnd) (i c : Nat) : Nat × List Nat :=
  quantise el rnd (List.replicate 32 0) ((List.range 32).map fun m => b.scaled a ta tb i (32 * c + m))

/-- The blocks of a row of whole blocks. -/
theorem blocks_quantised (b : Block) (a : Nat) (el : Elem) (ta tb : TRec) (rnd : Rnd) (i n : Nat) :
    ((List.range (n / 32)).map fun c => quantise el rnd (List.replicate 32 0)
      ((((List.range n).map (b.scaled a ta tb i)).drop (32 * c)).take 32)) =
    (List.range (n / 32)).map (b.quantised a el ta tb rnd i) :=
  List.map_congr_left fun c hc => by
    have hc := List.mem_range.mp hc
    rw [drop_take_map_range _ (by omega)]
    rfl

theorem codes_quantised (b : Block) (a : Nat) (el : Elem) (ta tb : TRec) (rnd : Rnd) (i : Nat) {n : Nat} (hn : n % 32 = 0) :
    ((List.range (n / 32)).map (b.quantised a el ta tb rnd i)).flatMap (fun q => q.2) =
      (List.range n).map fun j => (b.quantised a el ta tb rnd i (j / 32)).2.getD (j % 32) 0 := by
  have hlen : ∀ c < n / 32, (b.quantised a el ta tb rnd i c).2.length = 32 := fun c _ => length_quantise el rnd (by simp)
  rw [List.flatMap_map, flatMap_range_eq_map 0 (n / 32) hlen, show 32 * (n / 32) = n by omega]

theorem tyElem_int8 {t : Ty} (h : tyElem t = .int8) : t.isMx = true := by
  cases t <;> cases h
  rfl

/-- What an mx.st stores of a row: its elements, then its scale codes. -/
theorem outRow_eq_storedRow (b : Block) (a : Nat) (r ta tb : TRec) (rnd : Rnd) (sat ftz : Bool) (i : Nat) {n : Nat}
    (hn : (tileOf r).ty.isMx = true → n % 32 = 0) :
    let p := storedRow b a (tileOf r) ta tb rnd sat ftz i n
    b.outRow a (tileOf r).ty ta tb rnd sat ftz i n = p.1 ++ p.2 := by
  intro p
  unfold Block.outRow
  simp only [tileBits_tileOf]
  by_cases hmx : (tileOf r).ty.isMx = true
  · have hp : p = ((List.range (n * (tileOf r).b / 8)).map fun m => BitVec.ofNat 8 (((List.range n).map fun j =>
          2 ^ ((tileOf r).b * j) * (b.quantised a (tyElem (tileOf r).ty) ta tb rnd i (j / 32)).2.getD (j % 32) 0).sum / 256 ^ m),
        (List.range (n / 32)).map fun c => BitVec.ofNat 8 (b.quantised a (tyElem (tileOf r).ty) ta tb rnd i c).1) := by
      show storedRow .. = _
      unfold storedRow
      simp only [hmx, if_true]
      rfl
    have hb := blocks_quantised b a (tyElem (tileOf r).ty) ta tb rnd i n
    have hc := codes_quantised b a (tyElem (tileOf r).ty) ta tb rnd i (hn hmx)
    rw [if_pos hmx, hp]
    unfold Block.scaled at hb
    rw [hb, hc, packed_range, List.map_map]
    rfl
  · cases hel : tyElem (tileOf r).ty with
    | int8 => exact absurd (tyElem_int8 hel) hmx
    | fl f =>
      have hp : p = ((List.range (n * (tileOf r).b / 8)).map fun m => BitVec.ofNat 8 (((List.range n).map fun j =>
          2 ^ ((tileOf r).b * j) * f.out rnd sat ftz 0 (b.scaled a ta tb i j)).sum / 256 ^ m), []) := by
        show storedRow .. = _
        unfold storedRow
        simp only [hmx, hel, Bool.false_eq_true, if_false]
        rfl
      rw [if_neg hmx, hp]
      dsimp only
      rw [List.map_map, List.append_nil]
      exact packed_range n _ fun j => f.out rnd sat ftz 0 (b.scaled a ta tb i j)

theorem length_storedRow (b : Block) (a : Nat) (f : TileF) (ta tb : TRec) (rnd : Rnd) (sat ftz : Bool) (i n : Nat) :
    (storedRow b a f ta tb rnd sat ftz i n).1.length = n * f.b / 8 := by simp [storedRow]

/-- The elements of all rows, then the scale codes of all rows. -/
theorem split_storedRows {rows : List (List Byte × List Byte)} {c : Nat} (h : ∀ p ∈ rows, p.1.length = c) :
    (rows.map fun p => p.1 ++ p.2).flatMap (fun r => r.take c) ++ (rows.map fun p => p.1 ++ p.2).flatMap (fun r => r.drop c) =
      rows.flatMap Prod.fst ++ rows.flatMap Prod.snd := by
  rw [List.flatMap_map, List.flatMap_map]
  exact congrArg₂ _ (List.flatMap_congr fun p hp => List.take_left' (h p hp))
    (List.flatMap_congr fun p hp => List.drop_left' (h p hp))

/-! ### The granules of an output -/

/-- Granules with the bytes of a list, one after the other. -/
def fillParts : List EPart → List Byte → List EPart
  | [], _ => []
  | p :: ps, bs => { p with val := some (bs.take p.src.length) } :: fillParts ps (bs.drop p.src.length)

theorem foldl_fillParts (ps acc : List EPart) (bs : List Byte) :
    (ps.foldl (fun (r : List EPart × List Byte) p =>
      (r.1 ++ [{ p with val := some (r.2.take p.src.length) }], r.2.drop p.src.length)) (acc, bs)).1 =
        acc ++ fillParts ps bs := by
  induction ps generalizing acc bs with
  | nil => exact (List.append_nil acc).symm
  | cons p ps ih => rw [List.foldl_cons, ih, fillParts, List.append_assoc, List.singleton_append]

theorem fillParts_places (ps : List EPart) (bs : List Byte) :
    ((fillParts ps bs).map fun p => (p.src, p.dst)) = ps.map fun p => (p.src, p.dst) := by
  induction ps generalizing bs with
  | nil => rfl
  | cons p ps ih => exact congrArg ((p.src, p.dst) :: ·) (ih _)

theorem fillParts_bytes (ps : List EPart) (bs : List Byte) :
    (fillParts ps bs).flatMap (fun p => p.val.getD []) = bs.take (ps.map fun p => p.src.length).sum := by
  induction ps generalizing bs with
  | nil => rfl
  | cons p ps ih => rw [fillParts, List.flatMap_cons, ih, List.map_cons, List.sum_cons, List.take_add]; rfl

/-- An operation that waits no longer, with its output in its granules. -/
def EOp.filled (bs : List Byte) (o : EOp) : EOp := { o with waits := false, parts := fillParts o.parts bs }

/-! ### MATRIX_GRANT (R332) -/

section Grant

variable {s : State} {quad k : Nat} {r : Resv} {e : EOp}

theorem op?_of_resvOps {w : Work} {die q : Nat} (h : (w.resvOps die q)[k]? = some (r, e)) : w.op? e.id = some e := by
  obtain ⟨r', -, hr⟩ := List.mem_filterMap.mp (List.mem_of_getElem? h)
  obtain ⟨e', he, heq⟩ := Option.map_eq_some_iff.mp hr
  cases heq
  rw [id_of_op? he, he]

/-- The table without its granted entry, the entries that could have been granted passed over once more. -/
def Work.passedOver (w : Work) (die q k : Nat) : List Resv :=
  ((List.range (w.resvOps die q).length).zip (w.resvOps die q)).filterMap fun p =>
    if p.1 = k then none
    else some (if (w.eligibles [] (w.resvOps die q) 0).any (fun c => c.1 == p.1) then { p.2.1 with passed := p.2.1.passed + 1 }
      else p.2.1)

theorem length_filterMap_ne {α β : Type} (l : List α) (f : Nat × α → β) {k : Nat} (hk : k < l.length) :
    (((List.range l.length).zip l).filterMap fun p => if p.1 = k then none else some (f p)).length = l.length - 1 := by
  have hsome : (fun p : Nat × α => (if p.1 = k then none else some (f p)).isSome) = (fun i => !(i == k)) ∘ Prod.fst :=
    funext fun p => by by_cases h : p.1 = k <;> simp [h]
  have hone : (List.range l.length).countP (· == k) = 1 :=
    List.count_eq_one_of_mem List.nodup_range (List.mem_range.mpr hk)
  have hall := List.length_eq_countP_add_countP (· == k) (l := List.range l.length)
  rw [List.length_range, hone] at hall
  rw [List.length_filterMap_eq_countP, hsome, ← List.countP_map, List.map_fst_zip (by simp)]
  simp only [Bool.not_eq_true, Bool.decide_eq_false] at hall
  omega

/-- The state of the tables after a grant. -/
def Work.ungranted (w : Work) (quad k : Nat) : Work :=
  w.updDie (quad / 16) fun d => { d with resv := sset d.resv (quad % 16) (w.passedOver (quad / 16) (quad % 16) k) }

theorem ungranted_length (hk : ((begin_ s).resvOps (quad / 16) (quad % 16))[k]? = some (r, e)) :
    ((((begin_ s).ungranted quad k).d.die (quad / 16)).resvOf (quad % 16)).length =
      ((begin_ s).resvOps (quad / 16) (quad % 16)).length - 1 := by
  unfold Work.ungranted
  rw [Work.die_updDie, if_pos rfl]
  unfold Die.resvOf
  rw [sget_sset, if_pos rfl]
  exact length_filterMap_ne _ _ (List.getElem?_eq_some_iff.mp hk).1

variable (hk : ((begin_ s).resvOps (quad / 16) (quad % 16))[k]? = some (r, e))
  (hb : bestEntry ((begin_ s).eligibles [] ((begin_ s).resvOps (quad / 16) (quad % 16)) 0) = some k)
  (hp : ∀ p ∈ e.parts, p.dst = .buf → p.val.isSome = true)

include hk hb hp in
theorem exec_matrixGrant : exec (.matrixGrant quad k) s =
    .next (commit s.mem (((begin_ s).ungranted quad k).grantOp e)) := by
  refine congrArg (fun w => Host.Outcome.next (commit s.mem w)) ?_
  have hread : (e.parts.all fun p => p.dst != .buf || p.val.isSome) = true := by
    simpa [Decidable.imp_iff_not_or] using hp
  dsimp only
  rw [hk]
  dsimp only
  rw [if_pos ⟨hb, hread⟩]
  rfl

include hk hb hp in
/-- A grant that sets the accumulator of its block: what it leaves. -/
theorem matrixGrant_sets {b : Block} {a : Nat} (hblk : sget? s.d.blocks e.blk = some b) {F : Block → Block}
    (hF : ∀ w : Work, w.grantOp e = (w.updBlk e.blk F).updOp e.id fun o => { o with waits := false })
    {f : Nat → Nat → Word} (hset : ∀ i < 64, ∀ j < 64, sget (F b).accs (accKey a i j) 0 = f i j)
    (hkeep : ∀ a' i j, a' ≠ a → i < 64 → j < 64 → sget (F b).accs (accKey a' i j) 0 = sget b.accs (accKey a' i j) 0) :
    Ends (.matrixGrant quad k) s fun t => SameMem s t ∧ t.d.groups = s.d.groups ∧
      (∀ i < 64, ∀ j < 64, sget (t.blk e.blk).accs (accKey a i j) 0 = f i j) ∧
      (∀ a' i j, a' ≠ a → i < 64 → j < 64 → sget (t.blk e.blk).accs (accKey a' i j) 0 = sget b.accs (accKey a' i j) 0) ∧
      (∀ c, c ≠ e.blk → sget? t.d.blocks c = sget? s.d.blocks c) ∧
      (∀ o ∈ t.d.ops, o.id = e.id → o.waits = false) ∧ k < ((begin_ s).resvOps (quad / 16) (quad % 16)).length ∧
      ((t.d.die (quad / 16)).resvOf (quad % 16)).length = ((begin_ s).resvOps (quad / 16) (quad % 16)).length - 1 := by
  have hex := exec_matrixGrant hk hb hp
  rw [hF] at hex
  have hget := fun c => Work.blk?_updBlk ((begin_ s).ungranted quad k) e.blk c F
  have hnow : (((begin_ s).ungranted quad k).updBlk e.blk F).blk? e.blk = some (F b) :=
    (hget _).trans ((if_pos rfl).trans (congrArg (Option.map F) hblk))
  have hacc : ∀ n, sget ((commit s.mem ((((begin_ s).ungranted quad k).updBlk e.blk F).updOp e.id fun o =>
      { o with waits := false })).blk e.blk).accs n 0 = sget (F b).accs n 0 := fun n =>
    congrArg (fun o : Option Block => sget (o.getD Block.gone).accs n 0) hnow
  refine ⟨_, hex, sameMem_of_log rfl, rfl, fun i hi j hj => (hacc _).trans (hset i hi j hj),
    fun a' i j ha hi hj => (hacc _).trans (hkeep a' i j ha hi hj), fun c hc => (hget c).trans (if_neg hc), fun o ho hid => ?_,
    (List.getElem?_eq_some_iff.mp hk).1, ungranted_length hk⟩
  obtain ⟨o', -, rfl⟩ := List.mem_map.mp ho
  by_cases h : o'.id = e.id
  · rw [if_pos h]
  · rw [if_neg h] at hid
    exact absurd hid h

theorem grantOp_mma (w : Work) {a n j : Nat} {ta tb : Ty} {sp ftz : Bool} (h : e.kind = .mma a n ta tb sp ftz j) :
    w.grantOp e = (w.updBlk e.blk fun b => b.mulAcc a n ta tb sp ftz e.data).updOp e.id fun o => { o with waits := false } := by
  unfold Work.grantOp; rw [h]

theorem grantOp_mxLd (w : Work) {a : Nat} (h : e.kind = .mxLd a) : w.grantOp e = (w.updBlk e.blk fun b =>
    b.setAcc a fun i j => bytesNat ((e.data.drop (4 * (64 * i + j))).take 4)).updOp e.id fun o => { o with waits := false } := by
  unfold Work.grantOp; rw [h]

theorem grantOp_mxZero (w : Work) {a : Nat} (h : e.kind = .mxZero a) :
    w.grantOp e = (w.updBlk e.blk fun b => b.setAcc a fun _ _ => 0).updOp e.id fun o => { o with waits := false } := by
  unfold Work.grantOp; rw [h]

/-- The bytes that an mx.st writes of an accumulator: the rows that lie in the tensor. -/
def outBytes (b : Block) (a : Nat) (o ta tb : TRec) (sp : Bool) (row col : Nat) (rnd : Rnd) (sat ftz : Bool) : List Byte :=
  let f := tileOf o
  let n := if sp then 64 else min 64 (f.cols - col)
  let rows := ((List.range 64).filter fun i => sp || decide (row + i < f.rows)).map fun i => storedRow b a f ta tb rnd sat ftz i n
  rows.flatMap Prod.fst ++ rows.flatMap Prod.snd

theorem grantOp_mxSt {w : Work} {b : Block} {a row col : Nat} {o ta tb : TRec} {sp sat ftz hlp : Bool} {rnd : Rnd}
    (hblk : w.blk? e.blk = some b) (hkind : e.kind = .mxSt a o sp row col ta tb rnd sat ftz hlp)
    (hn : (tileOf o).ty.isMx = true → (if sp then 64 else min 64 ((tileOf o).cols - col)) % 32 = 0) :
    w.grantOp e = w.updOp e.id (EOp.filled (outBytes b a o ta tb sp row col rnd sat ftz)) := by
  have hrows := fun i => outRow_eq_storedRow b a o ta tb rnd sat ftz i hn
  unfold Work.grantOp
  rw [hkind, hblk]
  simp only [Option.getD_some, foldl_fillParts, List.nil_append]
  refine congrArg (fun bs => w.updOp e.id (EOp.filled bs)) ?_
  unfold outBytes
  simp only [TileF.inCols, hrows]
  rw [← split_storedRows (c := (if sp then 64 else min 64 ((tileOf o).cols - col)) * (tileOf o).b / 8), List.map_map]
  · rfl
  · intro p hp
    obtain ⟨i, -, rfl⟩ := List.mem_map.mp hp
    exact length_storedRow ..

include hk hb hp in
/-- A granted mx.st has the bytes of its output in its granules. -/
theorem matrixGrant_stores {b : Block} {a row col : Nat} {o ta tb : TRec} {sp sat ftz hlp : Bool} {rnd : Rnd}
    (hblk : sget? s.d.blocks e.blk = some b)
    (hkind : e.kind = .mxSt a o sp row col ta tb rnd sat ftz hlp)
    (hn : (tileOf o).ty.isMx = true → (if sp then 64 else min 64 ((tileOf o).cols - col)) % 32 = 0) :
    Ends (.matrixGrant quad k) s fun t => SameMem s t ∧ t.d.groups = s.d.groups ∧ t.d.blocks = s.d.blocks ∧
      OpIs t e.id fun x => x.waits = false ∧ (x.parts.map fun p => (p.src, p.dst)) = e.parts.map (fun p => (p.src, p.dst)) ∧
        x.parts.flatMap (fun p => p.val.getD []) =
          (outBytes b a o ta tb sp row col rnd sat ftz).take (e.parts.map fun p => p.src.length).sum := by
  have hex := exec_matrixGrant hk hb hp
  rw [grantOp_mxSt (w := (begin_ s).ungranted quad k) hblk hkind hn] at hex
  have hop : (begin_ s).op? e.id = some e := op?_of_resvOps hk
  have hfilled := op?_updOp ((begin_ s).ungranted quad k) e.id
    (f := EOp.filled (outBytes b a o ta tb sp row col rnd sat ftz)) fun _ => rfl
  exact ⟨_, hex, sameMem_of_log rfl, rfl, rfl, _, hfilled.trans (congrArg (Option.map _) hop), rfl, fillParts_places ..,
    fillParts_bytes ..⟩

end Grant

end Sys2Proof.Machine
end

section
/-! PROOFS. Engine operations perform and retire (O41). -/

namespace Sys2Proof.Machine

/-- Settles O41: a granule takes the bytes that it may read and then stores them (`granule_reads`, `granule_writes`), a finished
operation retires (`engineRetire_ends`), a granted matrix operation sets its accumulator element by element or fills its output's
granules (`matrixGrant_sets`, `matrixGrant_stores`), and the index engine takes its commands in order. -/
theorem enginesPerform : Obligations.EnginesPerform := by
  unfold Obligations.EnginesPerform
  refine ⟨?_, ?_, ?_, ?_⟩
  · intro s op k e p ho hp hc hd moved
    refine ⟨fun hv hw h => ?_, fun bs d hv hdst hw hbo hr hm hz hs hh => ?_⟩
    · obtain ⟨t, hex, hmem, hgrp, hblk, hops⟩ := granule_reads ho hp hc hd hv hw h
      exact ⟨t, hex, hmem, hgrp, hblk, hops⟩
    · exact granule_writes hv hdst hbo hr hz hs hh ho hp hc hd hw hm
  · intro s op slot tk e g ho hf hold hs hg ht hk
    exact engineRetire_ends ho hf hold hs ht hk hg
  · intro s quad k a r e b w ops hk hb hp hblk hacc sets
    refine ⟨?_, fun hkind => ?_, fun hkind => ?_, ?_, ?_⟩
    · intro o ta tb sp row col rnd sat ftz hlp hkind f n hty hn rows
      exact matrixGrant_stores hk hb hp hblk hkind hn
    · exact matrixGrant_sets hk hb hp hblk (fun w => grantOp_mxZero w hkind) (fun i hi j hj => setAcc_same b a _ hi hj)
        fun a' i j ha hi hj => setAcc_other b _ ha hi hj
    · exact matrixGrant_sets hk hb hp hblk (fun w => grantOp_mxLd w hkind) (fun i hi j hj => setAcc_same b a _ hi hj)
        fun a' i j ha hi hj => setAcc_other b _ ha hi hj
    · intro n ta tb ftz j hkind ra rb
      exact matrixGrant_sets hk hb hp hblk (fun w => grantOp_mma w hkind)
        (fun i hi j hj => mulAcc_dense b a n ta tb ftz e.data hi hj)
        fun a' i j ha hi hj => mulAcc_other b n ta tb false ftz e.data ha hi hj
    · intro n ta tb ftz j hkind ra rb md at_ hn
      exact matrixGrant_sets hk hb hp hblk (fun w => grantOp_mma w hkind)
        (fun i hi j hj => mulAcc_sparse b a n ta tb ftz e.data hn hi hj)
        fun a' i j ha hi hj => mulAcc_other b n ta tb true ftz e.data ha hi hj
  · intro s die hd rest e hq ho starts
    refine ⟨indexCommandStart_begins hq ho, fun nx tl hrest hw hp => ?_⟩
    subst hrest
    exact indexCommandStart_next hq ho hw hp

end Sys2Proof.Machine
end

section
/-! PROOFS. Memory keeps its canonical form (O7): whatever a step answers, the memory it leaves is a commit onto the memory it found. -/

namespace Sys2Proof.Machine

/-! ### Answers that leave memory canonical -/

/-- Any next state of an answer has its memory in canonical form. -/
def LeavesCanonical (o : Host.Outcome State Fault Refusal) : Prop := ∀ t, o = .next t → memWf t.mem = true

theorem leavesCanonical_next {t : State} (h : memWf t.mem = true) : LeavesCanonical (.next t) := by
  rintro _ ⟨⟩
  exact h

theorem leavesCanonical_commit {m : Memory} (h : memWf m = true) (w : Work) : LeavesCanonical (.next (commit m w)) :=
  leavesCanonical_next (memWf_commit w h)

theorem leavesCanonical_settled {o : Host.Outcome State Fault Refusal} (h : LeavesCanonical o) : LeavesCanonical (settled o) := by
  cases o with
  | next t => exact leavesCanonical_next (t := settle t) (h t rfl)
  | fault _ => exact fun _ he => nomatch he
  | refused _ => exact fun _ he => nomatch he

/-! ### What an instruction leaves -/

theorem issue_leavesCanonical {s : State} (hs : memWf s.mem = true) (h : Hdr) (src dst : List Named)
    (body : Work → List Nat → Res) : LeavesCanonical (issue s h src dst body) := by
  unfold issue
  split
  · exact fun _ he => nomatch he
  · exact leavesCanonical_commit hs _

/-- A device step commits onto the memory that it found. -/
theorem exec_device_commits {i : Instr} (hi : i.hdr = none) (s : State) : ∃ w, exec i s = .next (commit s.mem w) := by
  cases i <;> cases hi <;> exact ⟨_, rfl⟩

/-- An instruction, encoded or not, keeps the form. -/
theorem exec_leavesCanonical {s : State} (hs : memWf s.mem = true) (i : Instr) : LeavesCanonical (exec i s) := by
  cases hh : i.hdr with
  | none =>
    obtain ⟨w, he⟩ := exec_device_commits hh s
    exact he ▸ leavesCanonical_commit hs w
  | some h =>
    obtain ⟨src, dst, body, he⟩ := exec_encoded hh s
    exact he ▸ issue_leavesCanonical hs h src dst body

/-! ### What a turn leaves -/

theorem groupTurn_leavesCanonical {s : State} (hs : memWf s.mem = true) (slot : Nat) : LeavesCanonical (groupTurn s slot) := by
  unfold groupTurn
  dsimp only
  split
  · exact leavesCanonical_next hs
  split
  · exact leavesCanonical_commit hs _
  split
  · exact leavesCanonical_next hs
  split
  · exact leavesCanonical_commit hs _
  split
  · exact leavesCanonical_next hs
  split
  iterate 5 exact leavesCanonical_commit hs _
  split
  · exact exec_leavesCanonical (memWf_commit _ hs) _
  · exact leavesCanonical_commit hs _

theorem wakeTurn_leavesCanonical {s : State} (hs : memWf s.mem = true) (slot lane : Nat) :
    LeavesCanonical (wakeTurn s slot lane) := by
  unfold wakeTurn
  dsimp only
  split
  · exact leavesCanonical_next hs
  split
  case h_2 => exact leavesCanonical_next hs
  split
  · exact leavesCanonical_commit hs _
  · split
    · exact leavesCanonical_next hs
    · split
      · exact exec_leavesCanonical (memWf_commit _ hs) _
      · exact leavesCanonical_next hs
  · split
    · split
      · exact leavesCanonical_commit hs _
      · split
        · exact leavesCanonical_commit hs _
        · exact leavesCanonical_next hs
    · exact leavesCanonical_next hs
  · exact leavesCanonical_next hs
  · exact leavesCanonical_next hs

theorem lookOnce_leavesCanonical {s : State} (hs : memWf s.mem = true) (slot lane : Nat) (g : Group) :
    LeavesCanonical (lookOnce s slot lane g) := by
  unfold lookOnce
  dsimp only
  split
  · split
    · exact exec_leavesCanonical (memWf_commit _ hs) _
    · exact wakeTurn_leavesCanonical hs slot lane
    · exact wakeTurn_leavesCanonical hs slot lane
    · exact leavesCanonical_next hs
  · exact leavesCanonical_next hs

/-- A look that is undone, or that ends a block, keeps the form. -/
theorem memWf_lookAgain {s : State} (hs : memWf s.mem = true) (slot lane : Nat) : memWf (lookAgain s slot lane).mem = true := by
  unfold lookAgain
  split
  · exact hs
  split
  · exact hs
  split
  next t ht =>
    have hlook := lookOnce_leavesCanonical hs slot lane _ t ht
    dsimp only
    split
    next u hu =>
      split
      · exact hs
      · split at hu
        · exact wakeTurn_leavesCanonical hlook slot lane u hu
        · exact leavesCanonical_next hlook u hu
    · exact hs
  · exact hs

theorem memWf_failLooks {s : State} (hs : memWf s.mem = true) : memWf (failLooks s).mem = true := by
  unfold failLooks
  refine List.foldlRecOn (motive := fun s : State => memWf s.mem = true) _ _ hs fun s hs e _ => ?_
  exact List.foldlRecOn (motive := fun s : State => memWf s.mem = true) _ _ hs fun s hs l _ => memWf_lookAgain hs e.1 l

theorem deviceTurn_leavesCanonical {s : State} (hs : memWf s.mem = true) (i : Instr) : LeavesCanonical (deviceTurn s i) := by
  have hexec := exec_leavesCanonical hs i
  unfold deviceTurn
  split
  next t ht => exact leavesCanonical_next (memWf_failLooks (hexec t ht))
  · exact hexec

theorem runWho_leavesCanonical {s : State} (hs : memWf s.mem = true) (who : Who) : LeavesCanonical (runWho s who) := by
  cases who with
  | group slot => exact groupTurn_leavesCanonical hs slot
  | wake slot lane => exact wakeTurn_leavesCanonical hs slot lane
  | device i =>
    show LeavesCanonical (if isDevice i then deviceTurn s i else .next s)
    split
    · exact deviceTurn_leavesCanonical hs i
    · exact leavesCanonical_next hs

theorem step_leavesCanonical {s : State} (hs : memWf s.mem = true) : LeavesCanonical (step s) := by
  unfold step oneStep
  refine leavesCanonical_settled ?_
  split
  · split
    · exact exec_leavesCanonical (s := atPassage s _ _) hs _
    · exact runWho_leavesCanonical (s := atTurn s _) hs _
  · exact runWho_leavesCanonical (s := atTurn s _) hs _

/-- Settles O7: each agent's move commits onto the memory it found (`step_leavesCanonical`), and a commit keeps the form
(`memWf_commit`). -/
theorem memoryCanonical : Obligations.MemoryCanonical := by
  unfold Obligations.MemoryCanonical
  exact fun s t hs ht => step_leavesCanonical hs t ht

end Sys2Proof.Machine
end

section
/-! PROOFS. An uncorrectable error ends its block (a clause of O60): the ends of threads leave pending interrupts, ECCLAST and the
status of launches as they were. -/

namespace Sys2Proof.Machine

/-! ### What the end of a thread leaves (R202)

`Winds` says what the ends of threads keep of memory, threads and blocks; here is what they keep of the units that report an
error. -/

/-- The interrupts pending at each core, ECCLAST of each die and the status of each launch. -/
def Work.alarms (w : Work) : (Nat → Word) × (Nat → DWord) × (Nat → Option Nat) :=
  (fun k => (w.d.core k).intPend, fun k => (w.d.die k).eccLast, fun id => (sget? w.d.launches id).map Launch.status)

/-- Nothing that the report of an error is read from has changed. -/
abbrev SameAlarms (w w' : Work) : Prop := w'.alarms = w.alarms

namespace SameAlarms

variable {w w' : Work}

theorem foldl {α : Type} {f : Work → α → Work} (hf : ∀ w a, SameAlarms w (f w a)) (ls : List α) (w : Work) :
    SameAlarms w (ls.foldl f w) := by
  induction ls generalizing w with
  | nil => rfl
  | cons a ls ih => exact (ih _).trans (hf w a)

theorem updGrp (w : Work) (k : Nat) (f : Group → Group) : SameAlarms w (w.updGrp k f) := rfl
theorem updBlk (w : Work) (k : Nat) (f : Block → Block) : SameAlarms w (w.updBlk k f) := rfl

theorem updCore (w : Work) (k : Nat) {f : Core → Core} (hf : ∀ c, (f c).intPend = c.intPend) : SameAlarms w (w.updCore k f) := by
  refine Prod.ext (funext fun j => ?_) rfl
  show ((w.updCore k f).d.core j).intPend = _
  rw [Work.core_updCore]
  split
  · next h => rw [hf, ← h]; rfl
  · rfl

theorem updDie (w : Work) (k : Nat) {f : Die → Die} (hf : ∀ e, (f e).eccLast = e.eccLast) : SameAlarms w (w.updDie k f) := by
  refine Prod.ext rfl (Prod.ext (funext fun j => ?_) rfl)
  show ((w.updDie k f).d.die j).eccLast = _
  rw [Work.die_updDie]
  split
  · next h => rw [hf, ← h]; rfl
  · rfl

/-- A launch changes, but not its status. -/
theorem setLaunch (w : Work) (id : Nat) {ln ln' : Launch} (h : sget? w.d.launches id = some ln) (hs : ln'.status = ln.status) :
    SameAlarms w (w.updDev fun d => { d with launches := sset d.launches id ln' }) := by
  refine Prod.ext rfl (Prod.ext rfl (funext fun j => ?_))
  show (sget? (sset w.d.launches id ln') j).map Launch.status = (sget? w.d.launches j).map Launch.status
  rw [sget?_sset]
  split
  · next hj => rw [hj, h, Option.map_some, Option.map_some, hs]
  · rfl

/-! #### Barriers -/

theorem clearArr (w : Work) (n : Nat) (ls : List Nat) : SameAlarms w (w.clearArr n ls) := by
  unfold Work.clearArr
  exact foldl (fun w k => updGrp w k _) ls w

theorem checkBlkBar (w : Work) (blk n : Nat) : SameAlarms w (w.checkBlkBar blk n) := by
  unfold Work.checkBlkBar
  split
  · rfl
  · dsimp only
    split
    · exact (clearArr ..).trans (updBlk ..)
    · rfl

theorem checkWideBar (w : Work) (launch : Nat) (sc : Scope) (u : Nat) : SameAlarms w (w.checkWideBar launch sc u) := by
  unfold Work.checkWideBar
  split
  · rfl
  · next ln h =>
    dsimp only
    split
    · exact (clearArr ..).trans (setLaunch w launch h rfl)
    · rfl

theorem checkPodBar (w : Work) (pbid : Nat) (sys : Bool) : SameAlarms w (w.checkPodBar pbid sys) := by
  unfold Work.checkPodBar
  dsimp only
  split
  · exact (clearArr ..).trans rfl
  · rfl

theorem checkAllBars (w : Work) (slot : Nat) : SameAlarms w (w.checkAllBars slot) := by
  unfold Work.checkAllBars
  split
  · rfl
  · next g _ =>
    have hblk : SameAlarms w ((List.range 16).foldl (fun w n => w.checkBlkBar g.blk n) w) :=
      foldl (fun w n => checkBlkBar w g.blk n) _ w
    dsimp only
    split
    · exact hblk
    · next b _ =>
      have hwide := (foldl (fun w sc => checkWideBar w b.launch sc (w.barUnit sc slot)) [Scope.quad, .die, .pkg] _).trans hblk
      split
      · exact hwide
      · split
        · exact hwide
        · exact (checkPodBar ..).trans hwide

/-! #### Iterators -/

theorem evictFrom_eccLast (now n : Nat) (bs : List Board) (e : Die) : (Die.evictFrom now e n bs).1.eccLast = e.eccLast := by
  induction bs generalizing e n with
  | nil => rfl
  | cons b t ih =>
    unfold Die.evictFrom
    split
    · exact ih ..
    · split
      · split
        · exact ih ..
        · exact ih ..
      · exact ih ..

theorem askBoard (w : Work) (die obj : Nat) : SameAlarms w (w.askBoard die obj) := by
  unfold Work.askBoard
  dsimp only
  split
  · rfl
  · refine (updDie _ die fun e => ?_).trans (updDie w die fun _ => rfl)
    split
    · rfl
    · exact evictFrom_eccLast ..

theorem dropLine (w : Work) (core pa : Nat) : SameAlarms w (w.dropLine core pa) := updCore w core fun _ => rfl

theorem addRing (w : Work) (home : Nat) (op : RingOp) : SameAlarms w (w.addRing home op) := by
  have hask : ∀ v : Work, SameAlarms v (match homeOf v.d op.obj with | .die h => v.askBoard h op.obj | _ => v) := fun v => by
    split
    · exact askBoard ..
    · rfl
  have hq : SameAlarms w (w.updDie home fun e => { e with ringQ := e.ringQ ++ [op] }) := updDie w home fun _ => rfl
  unfold Work.addRing
  dsimp only
  refine (hask _).trans ?_
  split
  · next g _ =>
    split
    · exact (dropLine ..).trans hq
    · exact hq
  · exact hq

theorem pinOp (w : Work) (slot gpa i : Nat) (up : Bool) : SameAlarms w (w.pinOp slot gpa i up) := by
  have hcl : ∀ v : Work, SameAlarms v (if up then v else v.closeEp slot) := fun v => by
    split <;> rfl
  unfold Work.pinOp
  exact (hcl _).trans ((addRing ..).trans (hcl w))

theorem writeRegs (w : Work) (slot : Nat) (rs : List Reg) (ws : List Word) : SameAlarms w (w.writeRegs slot rs ws) := by
  induction w, rs, ws using Work.writeRegs.induct slot with
  | case1 w l n t x xs ih => rw [Work.writeRegs]; exact ih
  | case2 w n t lo hi ws => rw [Work.writeRegs]; rfl
  | case3 w n t lo hi ws g hg => rw [Work.writeRegs, hg]; rfl
  | case4 w n t lo hi ws hg => rw [Work.writeRegs, hg]
  | case5 w n h t a b c d xs ih => rw [Work.writeRegs]; exact ih
  | case6 =>
    rw [Work.writeRegs]
    all_goals assumption

theorem landT (w : Work) (slot : Nat) : SameAlarms w (w.landT slot) := by
  unfold Work.landT
  refine foldl (fun w e => ?_) _ w
  split
  · exact writeRegs ..
  · rfl

theorem closeIter (w : Work) (slot : Nat) (r : TRec) : SameAlarms w (w.closeIter slot r) := by
  unfold Work.closeIter
  dsimp only
  split
  · split
    · exact pinOp ..
    · rfl
  · rfl

theorem closeIters (w : Work) (slot : Nat) : SameAlarms w (w.closeIters slot) := by
  unfold Work.closeIters
  dsimp only
  refine Eq.trans ?_ (landT w slot)
  split
  · rfl
  · exact foldl (fun w t => (updGrp ..).trans (closeIter ..)) _ _

/-! #### Threads and blocks -/

theorem orphan (w : Work) (blk : Nat) (ls : List Nat) : SameAlarms w (w.orphan blk ls) := by
  unfold Work.orphan
  exact foldl (fun w t => updGrp w _ _) ls w

theorem joinExit (w : Work) (blk tno : Nat) : SameAlarms w (w.joinExit blk tno) := by
  unfold Work.joinExit
  refine foldl (fun w j => ?_) _ w
  split
  · rfl
  · dsimp only
    split
    · exact (orphan ..).trans (updBlk ..)
    · rfl

theorem groupGone (w : Work) (slot : Nat) : SameAlarms w (w.groupGone slot) := by
  unfold Work.groupGone
  split
  · rfl
  · split
    · exact (checkAllBars _ slot).trans (closeIters w slot)
    · rfl

theorem endSlot (w : Work) (q : Nat) : SameAlarms w (Machine.endSlot w q) := by
  unfold Machine.endSlot
  split
  · rfl
  · unfold Work.exitLanes
    split
    · rfl
    · next g _ _ _ => exact (groupGone ..).trans (foldl (fun w l => joinExit ..) _ _)

end SameAlarms

/-! ### MEM_UNCORR (R84, R368) -/

/-- What the end of a block for an error reports: MEMERR pending on its core, and the launch's status where it had none. -/
theorem memEnd_reports {w : Work} {k : Nat} {b : Block} (h : w.blk? k = some b) :
    ((w.memEnd k).d.core (slotCore k)).intPend = (w.d.core (slotCore k)).intPend ||| (1#32 <<< 4) ∧
      (∀ j, ((w.memEnd k).d.die j).eccLast = (w.d.die j).eccLast) ∧
      ∀ ln, sget? w.d.launches b.launch = some ln → ∃ ln', sget? (w.memEnd k).d.launches b.launch = some ln' ∧
        ln'.status = if ln.status = 0 then cMEM_UNCORR else ln.status := by
  have hends : SameAlarms w ((b.slots k).foldl endSlot w) := SameAlarms.foldl SameAlarms.endSlot _ w
  have hw : w.memEnd k = (((b.slots k).foldl endSlot w).setStatus b.launch cMEM_UNCORR).raiseInt (slotCore k) 4 := by
    unfold Work.memEnd
    rw [endBlk_eq h]
  rw [hw]
  refine ⟨?_, congrFun (congrArg (fun a => a.2.1) hends), fun ln hln => ?_⟩
  · refine (congrArg Core.intPend (Work.core_updCore ..)).trans ?_
    rw [if_pos rfl]
    exact congrArg (· ||| (1#32 <<< 4)) (congrFun (congrArg Prod.fst hends) (slotCore k))
  · have hst : (sget? ((b.slots k).foldl endSlot w).d.launches b.launch).map Launch.status = some ln.status := by
      rw [← Option.map_some, ← hln]
      exact congrFun (congrArg (fun a => a.2.2) hends) b.launch
    obtain ⟨l, hl, hs⟩ := Option.map_eq_some_iff.mp hst
    refine ⟨{ l with status := if l.status = 0 then cMEM_UNCORR else l.status }, ?_, by rw [hs]⟩
    show sget? (supd ((b.slots k).foldl endSlot w).d.launches b.launch _) b.launch = _
    rw [sget?_supd, if_pos rfl, hl]
    rfl

/-- Every thread of the block has exited, and no memory is written. -/
theorem memEnd_ends {w : Work} {k : Nat} {b : Block} (h : w.blk? k = some b) :
    (w.memEnd k).log = w.log ∧ ∀ q ∈ b.slots k, ∀ l < 32, (w.memEnd k).Gone q l := by
  have hcore : Winds (w.endBlk k cMEM_UNCORR) (w.memEnd k) := by
    unfold Work.memEnd Work.raiseInt
    exact Winds.updCore ..
  refine ⟨((endBlk_winds w k cMEM_UNCORR).trans hcore).log, fun q hq l hl => ?_⟩
  refine hcore.gone q l hl ?_
  rw [endBlk_eq h]
  exact (Winds.setStatus ..).gone q l hl (endSlots_gone w hq hl)

/-- A line of the L2 with the error may have been written back, and its sector is then poisoned (assumption 24). -/
def Work.mayPoison (w : Work) (kind : BitVec 3) (pa : Addr) : Work :=
  if kind = 3 then
    if Config.choice w.fresh.1 % 2 = 1 then
      w.fresh.2.updPkg fun p => { p with poison := sset p.poison (sectorOf pa.toNat) (2 ^ 128 - 1) }
    else w.fresh.2
  else w

/-- All that may change is the record of poison and the counter of free values. -/
theorem mayPoison_rest (w : Work) (kind : BitVec 3) (pa : Addr) :
    { w.mayPoison kind pa with d := { (w.mayPoison kind pa).d with pkg := w.d.pkg, free := w.d.free } } = w := by
  unfold Work.mayPoison
  split_ifs <;> rfl

/-- The error has been noted in ECCLAST of the die whose storage it is. -/
def Work.uncorrNoted (w : Work) (block : Nat) (kind : BitVec 3) (pa : Addr) : Work :=
  w.eccNote (eccDie w.d kind.toNat block pa.toNat) kind.toNat (if kind.toNat ≤ 1 then 0 else pa.toNat)

theorem uncorrNoted_eccLast (w : Work) (block : Nat) (kind : BitVec 3) (pa : Addr) :
    ((w.uncorrNoted block kind pa).d.die (eccDie w.d kind.toNat block pa.toNat)).eccLast =
      BitVec.ofNat 64 (2 ^ 61 * kind.toNat + (if kind.toNat ≤ 1 then 0 else pa.toNat) / 512 * 512) :=
  congrArg Die.eccLast ((Work.die_updDie ..).trans (if_pos rfl))

theorem exec_memUncorr {s : State} {block : Nat} {b : Block} (hb : sget? s.d.blocks block = some b) (kind : BitVec 3) (pa : Addr) :
    exec (.memUncorr block kind pa) s =
      .next (commit s.mem ((((begin_ s).uncorrNoted block kind pa).mayPoison kind pa).memEnd block)) := by
  have hb' : (begin_ s).blk? block = some b := hb
  show execMemUncorr block kind pa s = _
  unfold execMemUncorr device
  beta_reduce
  rw [hb']
  rfl

/-- MEM_UNCORR on a resident block: what it reports, and that the block's threads have exited. -/
theorem memUncorr_reports {s : State} {block : Nat} {b : Block} (hb : sget? s.d.blocks block = some b) (kind : BitVec 3)
    (pa : Addr) : Ends (.memUncorr block kind pa) s fun t => SameMem s t ∧ Ended t block b ∧ StatusSet s t b.launch cMEM_UNCORR ∧
      Raised s t (slotCore block) 4 ∧ (t.d.die (eccDie s.d kind.toNat block pa.toNat)).eccLast =
        BitVec.ofNat 64 (2 ^ 61 * kind.toNat + (if kind.toNat ≤ 1 then 0 else pa.toNat) / 512 * 512) := by
  have hrest := mayPoison_rest ((begin_ s).uncorrNoted block kind pa) kind pa
  have hdev := congrArg Work.d hrest
  have hv : (((begin_ s).uncorrNoted block kind pa).mayPoison kind pa).blk? block = some b :=
    (congrArg (fun d : Dev => sget? d.blocks block) hdev).trans hb
  obtain ⟨hint, hlast, hstatus⟩ := memEnd_reports hv
  obtain ⟨hmem, hgone⟩ := memEnd_ends hv
  refine ⟨_, exec_memUncorr hb kind pa, fun a => ?_, hgone, fun ln hln => hstatus ln ?_, hint.trans ?_, (hlast _).trans ?_⟩
  · exact congrArg (mread · a) (commit_mem_nil _ _ (hmem.trans (congrArg Work.log hrest)))
  · exact (congrArg (fun d : Dev => sget? d.launches b.launch) hdev).trans hln
  · have hcore := congrArg (fun d : Dev => (d.core (slotCore block)).intPend ||| (1#32 <<< 4)) hdev
    exact hcore
  · exact (congrArg (fun d : Dev => (d.die _).eccLast) hdev).trans (uncorrNoted_eccLast (begin_ s) block kind pa)

end Sys2Proof.Machine
end

section
/-! PROOFS. Corrected errors, throttling and the thermal trip, and the clauses of O60 together. -/

namespace Sys2Proof.Machine

/-! ### A change of one die alone -/

/-- The dies may differ in one alone; groups, blocks, launches, partitions and memory are as before. -/
abbrev OnlyDie (s t : State) (die : Nat) : Prop :=
  Still s t ∧ t.d.parts = s.d.parts ∧ ∀ k, k ≠ die → t.d.die k = s.d.die k

/-- A device step that is a change of one die. -/
theorem updDie_onlyDie (s : State) (die : Nat) (f : Die → Die) : OnlyDie s (commit s.mem ((begin_ s).updDie die f)) die :=
  ⟨⟨fun _ => rfl, rfl, rfl, rfl⟩, rfl, fun _ hk => (Work.die_updDie ..).trans (if_neg hk)⟩

theorem updDie_die (s : State) (die : Nat) (f : Die → Die) :
    (commit s.mem ((begin_ s).updDie die f)).d.die die = f (s.d.die die) := (Work.die_updDie ..).trans (if_pos rfl)

/-! ### Corrected errors (R366) -/

theorem bankKey_some {kind unit bank : Nat} (hk : kind ≤ 4) (hb : bank < 64) (hu : unit < 64) (h3 : kind = 3 → unit < 32)
    (h4 : kind = 4 → unit = 0) : bankKey kind unit bank = some (4096 * kind + 64 * unit + bank) := by
  unfold bankKey
  rw [if_neg]
  omega

theorem spent_iff (e : Die) (k : Nat) : e.spent k = true ↔ ∃ c ∈ e.eccCnt, c.1 ≠ k ∧ c.1 / 64 = k / 64 ∧ c.2.2 = true := by
  simp [Die.spent, and_assoc]

/-- The count of a bank one higher, saturating, with LAST at the threshold. -/
def Die.countError (e : Die) (k : Nat) : Die :=
  let c := sget e.eccCnt k (0, false)
  let n := min 65535 (c.1 + 1)
  let thr := e.eccThr.toNat % 65536
  { e with eccCnt := sset e.eccCnt k (n, c.2 || (thr != 0 && decide (thr ≤ n))) }

theorem exec_correctedError {kind unit bank k : Nat} (hk : bankKey kind unit bank = some k) {die : Nat} (hd : die < 8) (s : State) :
    exec (.correctedError die kind unit bank) s = .next (commit s.mem (if (s.d.die die).spent k then begin_ s
      else (begin_ s).updDie die fun e => (e.eccRoll (s.d.now + 1)).countError k)) := by
  show execCorrectedError die kind unit bank s = _
  unfold execCorrectedError device
  rw [hk]
  have h8 : ¬ 8 ≤ die := Nat.not_le.2 hd
  simp only [h8, decide_false, Bool.false_or, begin_d]
  rfl

/-- Within a window no count is cleared. -/
theorem eccRoll_within {e : Die} {t : Nat} (h0 : 0 < e.eccWin.toNat % 65536 * 65536)
    (h : t < e.eccStart + e.eccWin.toNat % 65536 * 65536) : e.eccRoll t = e := by
  unfold Die.eccRoll
  dsimp only
  rw [if_neg (Nat.ne_of_gt h0), if_neg (Nat.not_le.2 h)]

theorem eccRoll_past {e : Die} {t : Nat} (h0 : 0 < e.eccWin.toNat % 65536 * 65536)
    (h : e.eccStart + e.eccWin.toNat % 65536 * 65536 ≤ t) : e.eccRoll t =
      e.eccClear (e.eccStart + (t - e.eccStart) / (e.eccWin.toNat % 65536 * 65536) * (e.eccWin.toNat % 65536 * 65536)) := by
  unfold Die.eccRoll
  dsimp only
  rw [if_neg (Nat.ne_of_gt h0), if_pos h]

/-- Clearing leaves a count of 0, and LAST, at each bank. -/
theorem sget_clear {m : Sparse (Nat × Bool)} (hm : (m.map Prod.fst).Nodup) (k : Nat) :
    sget ((m.map fun c => (c.1, (0, c.2.2))).filter fun c => c.2.2) k (0, false) = (0, (sget m k (0, false)).2) := by
  induction m with
  | nil => rfl
  | cons c m ih =>
    obtain ⟨j, n, b⟩ := c
    rw [List.map_cons, List.nodup_cons] at hm
    have hrest := ih hm.2
    unfold sget at hrest ⊢
    rw [List.map_cons, List.filter_cons]
    by_cases hj : j = k
    · cases b with
      | true => simp [sget?, hj]
      | false =>
        have hno : sget? m k = none := by
          cases hs : sget? m k with
          | none => rfl
          | some v => exact absurd (List.mem_map_of_mem (f := Prod.fst) (mem_of_sget? hs)) (hj ▸ hm.1)
        rw [hno] at hrest
        simpa [sget?, hj] using hrest
    · cases b with
      | true => simpa [sget?, hj] using hrest
      | false => simpa [sget?, hj] using hrest

theorem exec_eccWindowEnd {die : Nat} (hd : die < 8) (s : State) :
    exec (.eccWindowEnd die) s = .next (commit s.mem ((begin_ s).updDie die fun e => e.eccRoll s.d.now)) := by
  show execEccWindowEnd die s = _
  unfold execEccWindowEnd device
  beta_reduce
  rw [if_neg (Nat.not_le.2 hd)]
  rfl

/-! ### The throttle level (R329, R369) -/

theorem raisePwr_frame (w : Work) (die : Nat) (cs : List Nat) :
    (w.raisePwr die cs).d.launches = w.d.launches ∧ (w.raisePwr die cs).d.parts = w.d.parts ∧ (w.raisePwr die cs).d.pkg = w.d.pkg ∧
      (w.raisePwr die cs).d.free = w.d.free := by
  induction cs generalizing w with
  | nil => exact ⟨rfl, rfl, rfl, rfl⟩
  | cons c cs ih => exact ih (w.raiseInt (64 * die + c) 5)

theorem raisePwr_other (w : Work) (die : Nat) {cs : List Nat} {j : Nat} (h : ∀ c ∈ cs, j ≠ 64 * die + c) :
    (w.raisePwr die cs).d.core j = w.d.core j := by
  induction cs generalizing w with
  | nil => rfl
  | cons c cs ih =>
    refine (ih (w.raiseInt (64 * die + c) 5) fun c' hc' => h c' (List.mem_cons_of_mem _ hc')).trans ?_
    exact (Work.core_updCore ..).trans (if_neg (h c List.mem_cons_self))

theorem raisePwr_raises (w : Work) (die : Nat) {cs : List Nat} (hn : cs.Nodup) {c : Nat} (hc : c ∈ cs) :
    ((w.raisePwr die cs).d.core (64 * die + c)).intPend = (w.d.core (64 * die + c)).intPend ||| (1#32 <<< 5) := by
  induction cs generalizing w with
  | nil => exact absurd hc List.not_mem_nil
  | cons a cs ih =>
    rw [List.nodup_cons] at hn
    rcases List.mem_cons.mp hc with rfl | hc'
    · refine (congrArg Core.intPend (raisePwr_other (w.raiseInt (64 * die + c) 5) die fun c' hc' h => ?_)).trans ?_
      · exact hn.1 (by rwa [show c = c' by omega])
      · exact congrArg Core.intPend ((Work.core_updCore ..).trans (if_pos rfl))
    · refine (ih (w.raiseInt (64 * die + a) 5) hn.2 hc').trans ?_
      have hne : c ≠ a := fun h => hn.1 (h ▸ hc')
      exact congrArg (fun x : Core => x.intPend ||| (1#32 <<< 5)) ((Work.core_updCore ..).trans (if_neg (by omega)))

/-- PWR raised on the cores of a die leaves the dies, the package and memory. -/
theorem raisePwr_onlyDie {s : State} {v : Work} {die : Nat} (h : OnlyDie s (commit s.mem v) die) (cs : List Nat) :
    OnlyDie s (commit s.mem (v.raisePwr die cs)) die := by
  obtain ⟨⟨hmem, hgroups, hblocks, hlaunches⟩, hparts, hdies⟩ := h
  have hsame := raisePwr_sameGroups v die cs
  obtain ⟨hl, hp, -, -⟩ := raisePwr_frame v die cs
  have hm : (commit s.mem (v.raisePwr die cs)).mem = (commit s.mem v).mem := by
    unfold commit
    rw [hsame.log]
  refine ⟨⟨fun a => ?_, hsame.groups.trans hgroups, hsame.blocks.trans hblocks, hl.trans hlaunches⟩, hp.trans hparts,
    fun k hk => ?_⟩
  · exact (congrArg (mread · a) hm).trans (hmem a)
  · exact (congrArg (sget · k Die.reset) (raisePwr_dies v die cs)).trans (hdies k hk)

/-- The die after a change of its draw or temperature at a cycle. -/
def Die.changed (now : Nat) (f : Die → Die) (e : Die) : Die := (f (e.roll now)).settled

/-- What a change of a die's draw or temperature leaves: the die settles, and nothing else but INTPEND.PWR changes. -/
theorem power_frame (s : State) {die : Nat} (hd : die < 8) (f : Die → Die) :
    let t := commit s.mem ((begin_ s).power die f)
    OnlyDie s t die ∧ t.d.pkg = s.d.pkg ∧ t.d.die die = (s.d.die die).changed s.d.now f := by
  have hone := updDie_onlyDie s die fun _ => (s.d.die die).changed s.d.now f
  have hdie := updDie_die s die fun _ => (s.d.die die).changed s.d.now f
  rw [power_eq _ hd]
  dsimp only
  split
  · obtain ⟨-, -, hpkg, -⟩ := raisePwr_frame ((begin_ s).updDie die fun _ => (s.d.die die).changed s.d.now f) die (List.range 64)
    exact ⟨raisePwr_onlyDie hone _, hpkg, (congrArg (sget · die Die.reset) (raisePwr_dies ..)).trans hdie⟩
  · exact ⟨hone, rfl, hdie⟩

/-- Where HEADROOM falls below CRIT, PWR is raised on the die's cores and on no other (assumption 56). -/
theorem power_raises (s : State) {die : Nat} (hd : die < 8) (f : Die → Die)
    (hlow : ((s.d.die die).changed s.d.now f).headroom < ((s.d.die die).changed s.d.now f).crit)
    (hwas : ((s.d.die die).changed s.d.now f).crit ≤ ((s.d.die die).roll s.d.now).headroom) :
    let t := commit s.mem ((begin_ s).power die f)
    (∀ c < 64, Raised s t (64 * die + c) 5) ∧ ∀ c, (c < 64 * die ∨ 64 * die + 64 ≤ c) → t.d.core c = s.d.core c := by
  rw [power_eq _ hd]
  dsimp only
  rw [if_pos ⟨hlow, hwas⟩]
  refine ⟨fun c hc => raisePwr_raises _ die List.nodup_range (List.mem_range.2 hc), fun c hc => ?_⟩
  refine raisePwr_other _ die fun j hj => ?_
  rw [List.mem_range] at hj
  omega

theorem roll_within {e : Die} {now : Nat} (h : now / 4096 ≤ e.win) : e.roll now = e := by
  unfold Die.roll
  dsimp only
  rw [if_pos h]

/-- At the end of one window its record acts on the level, and the next begins. -/
theorem roll_next {e : Die} {now : Nat} (h : now / 4096 = e.win + 1) (ht : e.trip = false) (hl : e.level ≤ 7) :
    (e.roll now).level = levelAfter 1 e.winZero e.winHigh e.level ∧ (e.roll now).win = e.win + 1 := by
  have h7 : levelAfter 1 e.winZero e.winHigh e.level ≤ 7 := by
    unfold levelAfter
    split_ifs <;> omega
  have h0 : ∀ z hi l, l ≤ 7 → levelAfter 0 z hi l = l := fun z hi l hl => by
    unfold levelAfter
    split_ifs <;> omega
  unfold Die.roll
  dsimp only
  rw [if_neg (by omega), h, show e.win + 1 - e.win - 1 = 0 by omega, h0 _ _ _ h7, ht]
  exact ⟨rfl, rfl⟩

/-- Windows that end leave the readings, the marks and the trip. -/
theorem roll_readings (e : Die) (now : Nat) :
    (e.roll now).headroom = e.headroom ∧ (e.roll now).crit = e.crit ∧ (e.roll now).temp = e.temp ∧
      (e.roll now).tlimit = e.tlimit ∧ (e.roll now).trip = e.trip ∧ (e.roll now).pbudget = e.pbudget := by
  unfold Die.roll
  dsimp only
  split
  · exact ⟨rfl, rfl, rfl, rfl, rfl, rfl⟩
  · exact ⟨rfl, rfl, rfl, rfl, rfl, rfl⟩

theorem settled_quiet {e : Die} (ht : e.trip = false) (h : e.temp < e.tlimit.toNat % 65536 + 120) :
    e.settled.trip = false ∧ e.settled.level = e.level := by
  have htrip : e.settled.trip = false := by
    unfold Die.settled
    dsimp only
    rw [if_neg (Nat.not_le.2 h), ht, ite_self]
  refine ⟨htrip, ?_⟩
  show (if e.settled.trip = true then 7 else e.level) = e.level
  rw [htrip]
  rfl

/-! ### The steps -/

/-- A die's draw is measured: its windows' record, and the level after the windows that have ended. -/
theorem throttleStep_ends {s : State} {die : Nat} (hd : die < 8) (draw : Nat) :
    Ends (.throttleStep die draw) s fun t => OnlyDie s t die ∧ { t.d.pkg with pkgPwr := 0 } = { s.d.pkg with pkgPwr := 0 } ∧
      t.d.die die = (s.d.die die).changed s.d.now fun e => { e with draw := draw } := by
  obtain ⟨hone, hpkg, hdie⟩ := power_frame s hd fun e => { e with draw := draw }
  refine ⟨_, rfl, hone, ?_, hdie⟩
  exact congrArg (fun p : Pkg => { p with pkgPwr := 0 }) hpkg

/-- Below the trip a new draw leaves the trip off and the level as the windows have made it. -/
theorem changed_draw {e : Die} (ht : e.trip = false) (h : e.temp < e.tlimit.toNat % 65536 + 120) (now draw : Nat) :
    (e.changed now fun e => { e with draw := draw }).level = (e.roll now).level ∧
      (e.changed now fun e => { e with draw := draw }).win = (e.roll now).win := by
  obtain ⟨-, -, htemp, hlim, htrip, -⟩ := roll_readings e now
  have hq : { e.roll now with draw := draw }.temp < { e.roll now with draw := draw }.tlimit.toNat % 65536 + 120 := by
    show (e.roll now).temp < (e.roll now).tlimit.toNat % 65536 + 120
    rw [htemp, hlim]
    exact h
  exact ⟨(settled_quiet (htrip.trans ht) hq).2, rfl⟩

theorem changed_temp {e : Die} (now temp : Nat) :
    (e.changed now fun e => { e with temp := temp }).temp = temp ∧
      (e.changed now fun e => { e with temp := temp }).trip =
        (if e.tlimit.toNat % 65536 + 120 ≤ temp then true else if temp < e.tlimit.toNat % 65536 then false else e.trip) := by
  obtain ⟨-, -, -, hlim, htrip, -⟩ := roll_readings e now
  refine ⟨rfl, ?_⟩
  show (if (e.roll now).tlimit.toNat % 65536 + 120 ≤ temp then true
    else if temp < (e.roll now).tlimit.toNat % 65536 then false else (e.roll now).trip) = _
  rw [hlim, htrip]

/-- The level is held at 7 while the trip is on, and is otherwise what the windows have made it. -/
theorem changed_level (e : Die) (now temp : Nat) :
    (e.changed now fun e => { e with temp := temp }).level =
      if (e.changed now fun e => { e with temp := temp }).trip = true then 7 else (e.roll now).level := rfl

theorem thermal_ends {s : State} {die : Nat} (hd : die < 8) {i : Instr} {temp : Nat}
    (hi : exec i s = device s fun w => w.power die fun e => { e with temp := temp }) : Ends i s fun t => OnlyDie s t die ∧
      t.d.pkg = s.d.pkg ∧ t.d.die die = (s.d.die die).changed s.d.now fun e => { e with temp := temp } :=
  ⟨_, hi, power_frame s hd _⟩

/-- Settles O60: a corrected error is one count of its bank (`exec_correctedError`), an uncorrectable one ends its block and is
reported (`memUncorr_reports`), and a change of draw or temperature settles its die alone (`power_frame`), after the windows that
have ended (`roll_next`). -/
theorem powerErrors : Obligations.PowerErrors := by
  unfold Obligations.PowerErrors
  intro s die hd
  refine ⟨?_, ?_, ?_, ?_, ?_, ?_, ?_⟩
  · intro kind unit bank hk hb hu h3 h4
    have hexec := exec_correctedError (bankKey_some hk hb hu h3 h4) hd s
    refine ⟨fun hs => ?_, fun hs h0 hw => ?_⟩
    · rw [if_pos ((spent_iff ..).2 hs)] at hexec
      exact ⟨_, hexec, rfl⟩
    · rw [if_neg (mt (spent_iff ..).1 hs)] at hexec
      have hdie := updDie_die s die fun e => (e.eccRoll (s.d.now + 1)).countError (4096 * kind + 64 * unit + bank)
      rw [eccRoll_within h0 hw] at hdie
      refine ⟨_, hexec, ⟨updDie_onlyDie s die _, rfl⟩, rfl, ?_⟩
      rw [hdie]
      exact ⟨(sget_sset ..).trans (if_pos rfl), fun j hj => (sget_sset ..).trans (if_neg hj)⟩
  · intro h0 hw hn
    have hdie := updDie_die s die fun e => e.eccRoll s.d.now
    rw [eccRoll_past h0 hw] at hdie
    refine ⟨_, exec_eccWindowEnd hd s, ⟨updDie_onlyDie s die _, rfl⟩, rfl, ?_⟩
    rw [hdie]
    exact ⟨fun k => sget_clear hn k, rfl⟩
  · intro block b kind pa hb hdie
    obtain ⟨t, ht, hmem, hended, hstatus, hraised, hlast⟩ := memUncorr_reports hb kind pa
    refine ⟨t, ht, hmem, hended, hstatus, hraised, ?_⟩
    have hat : eccDie s.d kind.toNat block pa.toNat =
        match homeOf s.d pa.toNat with | .die h => if kind.toNat ≤ 2 then die else h | _ => die := by
      rw [← hdie]
      rfl
    have hpa : (if kind.toNat ≤ 1 then 0 else pa.toNat) / 512 * 512 = if kind.toNat ≤ 1 then 0 else pa.toNat / 512 * 512 := by
      split <;> rfl
    rw [hat, hpa] at hlast
    exact hlast
  · intro draw htrip htemp hlevel
    obtain ⟨t, ht, hone, hpkg, hdie⟩ := throttleStep_ends hd (s := s) draw
    obtain ⟨hl, hw⟩ := changed_draw htrip htemp s.d.now draw
    refine ⟨t, ht, hone, by rw [hdie]; rfl, hpkg, fun h => by rw [hdie, hl, roll_within h], fun h => ?_⟩
    obtain ⟨hnext, hwin⟩ := roll_next h htrip hlevel
    rw [hdie, hl, hw, hnext, hwin]
    refine ⟨rfl, fun hz hh => ?_, fun hz hh => ?_, fun hzh => ?_⟩
    · rw [hz, hh]; rfl
    · rw [hz, hh]; rfl
    · rw [hzh]
      cases (s.d.die die).winHigh <;> rfl
  · intro draw hlow hwas
    obtain ⟨hhead, hcrit, htemp, hlim, -, hbud⟩ := roll_readings (s.d.die die) s.d.now
    have hexec : exec (.headroomCrit die draw) s =
        .next (commit s.mem ((begin_ s).power die fun e => { e with draw := draw })) := by
      show execHeadroomCrit die draw s = _
      unfold execHeadroomCrit device
      exact congrArg (fun w => Host.Outcome.next (commit s.mem w)) (if_pos hlow)
    obtain ⟨hone, hpkg, hdie⟩ := power_frame s hd fun e => { e with draw := draw }
    refine ⟨_, hexec, ⟨hone, hpkg⟩, by rw [hdie]; rfl, power_raises s hd _ ?_ ?_⟩
    · show (if ((s.d.die die).roll s.d.now).tlimit.toNat % 65536 ≤ ((s.d.die die).roll s.d.now).temp then 0
        else ((s.d.die die).roll s.d.now).pbudget.toNat - draw) < ((s.d.die die).roll s.d.now).crit
      rw [hlim, htemp, hbud, hcrit]
      exact hlow
    · show ((s.d.die die).roll s.d.now).crit ≤ ((s.d.die die).roll s.d.now).headroom
      rw [hcrit, hhead]
      exact hwas
  · intro temp htemp
    obtain ⟨t, ht, hone, hpkg, hdie⟩ := thermal_ends (s := s) (i := .thermalTrip die temp) hd rfl
    obtain ⟨hnew, htrip⟩ := changed_temp (e := s.d.die die) s.d.now temp.toNat
    rw [if_pos htemp] at htrip
    refine ⟨t, ht, ⟨hone, hpkg⟩, hdie ▸ hnew, hdie ▸ htrip, ?_⟩
    rw [hdie, changed_level, htrip]
    rfl
  · intro temp htemp
    obtain ⟨t, ht, hone, hpkg, hdie⟩ := thermal_ends (s := s) (i := .thermalRelease die temp) hd rfl
    obtain ⟨hnew, htrip⟩ := changed_temp (e := s.d.die die) s.d.now temp.toNat
    rw [if_neg (by omega), if_pos htemp] at htrip
    refine ⟨t, ht, ⟨hone, hpkg⟩, hdie ▸ hnew, hdie ▸ htrip, fun h => ?_⟩
    rw [hdie, changed_level, htrip, roll_within h]
    rfl

end Sys2Proof.Machine
end

section
/-! PROOFS. Accesses that are misaligned (O34): the state of `farSlot`, which no run reaches, whose trap frame has a byte that is not
zero behind the record. -/

namespace Sys2Proof.Machine

/-- ld.s.b32 V8, [V0 + 1], whose address in `farState` is 1. -/
def oddOp : MemOp :=
  { ty := .b32, space := .s, strong := false, ord := .rlx, scope := .blk, disp := 1, d := .v 8, base := .v 0, off := .inl 0,
    data := .v 0 }

theorem oddRuns : Runs (.ld farHdr oddOp) farState farHdr (memSrc oddOp true) (memDst oddOp) [0] := by
  constructor <;> decide +kernel

theorem oddFails : FailsAs farState oddOp true 0 cMISALIGN := .inl ⟨rfl, by decide +kernel⟩

/-- The load traps, and the handle of `farSlot` sets a bit of the byte behind the frame's record (Table 22.5). -/
theorem oddFrame_spills :
    byteAfter (exec (.ld farHdr oddOp) farState) (farState.d.frameAddr farSlot + 64) = 1 := by decide +kernel

/-- Refutes O34: a misaligned load in a slot beyond the package's, whose trap frame holds a byte that is not zero behind the record
of Table 22.5 (`oddFrame_spills`). -/
theorem not_misalignedTraps : ¬ Obligations.MisalignedTraps := by
  unfold Obligations.MisalignedTraps
  intro hall
  obtain ⟨htraps, -⟩ := hall farState farHdr oddOp 0 cMISALIGN .add rfl (by decide +kernel) (by decide +kernel) (by decide +kernel)
  obtain ⟨hload, -⟩ := htraps oddFails
  obtain ⟨t, hexec, g, -, -, -, -, -, hframe, -⟩ := hload oddRuns
  have hzero := ((hframe fun k _ => farRides_none _).2 (by decide +kernel)).2 64 le_rfl (by decide)
  have hspill := oddFrame_spills
  rw [hexec] at hspill
  exact absurd (hspill.symm.trans hzero) (by decide)

end Sys2Proof.Machine
end

section
/-! PROOFS. Where the accesses of an instruction fall (R72, R237), for O30, O32 and O33: effective addresses, the checks of one lane,
and the places of all lanes, as they stand when the effect starts. -/

namespace Sys2Proof.Machine

/-! ### What the start of an effect reads, whatever registers it owns -/

theorem SameReads.symm {w v : Work} (h : SameReads w v) : SameReads v w :=
  ⟨h.log.symm, h.base.symm, h.bare.symm, fun y => (h.lates y).symm⟩

theorem SameReads.trans {w v u : Work} (h : SameReads w v) (h' : SameReads v u) : SameReads w u :=
  ⟨h'.log.trans h.log, h'.base.trans h.base, h'.bare.trans h.bare, fun y => (h'.lates y).trans (h.lates y)⟩

/-- A change of a block that keeps its name changes no agent. -/
theorem agentOf_updBlk (w : Work) (k : Nat) {f : Block → Block} (hf : ∀ b, (f b).name = b.name) (slot : Nat) :
    (w.updBlk k f).agentOf slot = w.agentOf slot := by
  have hname : ∀ j, (((w.updBlk k f).blk? j).getD Block.gone).name = ((w.blk? j).getD Block.gone).name := fun j => by
    rw [Work.blk?_updBlk]
    split
    · next h =>
      subst h
      cases w.blk? j with
      | none => rfl
      | some b => exact hf b
    · rfl
  unfold Work.agentOf
  dsimp only
  rw [Work.grp?_updBlk, hname]

theorem SameReads.updBlk (w : Work) (k : Nat) {f : Block → Block} (hf : ∀ b, (f b).name = b.name) :
    SameReads w (w.updBlk k f) := by
  refine ⟨rfl, rfl, rfl, fun y => ?_⟩
  have hl : (w.updBlk k f).lates = w.lates := by
    unfold Work.lates
    simp only [agentOf_updBlk w k hf]
    rfl
  rw [hl]

theorem take_name (b : Block) (k : Bool) (n i : Nat) (ds : List Named) : (b.take k n i ds).name = b.name :=
  show (b.take k n i ds).core.name = b.core.name by rw [Block.take_core]

/-- The effect of an instruction reads what the state holds, whatever B registers it owns. -/
theorem atIssue_reads_owning (s : State) (ds : List Named) : SameReads (begin_ s) (atIssue s ds) := by
  have hown : ∀ ds', SameReads (begin_ s).passed (atIssue s ds') := fun ds' =>
    SameReads.updBlk _ _ fun b => take_name b _ _ _ ds'
  exact (atIssue_reads s).trans ((hown []).symm.trans (hown ds))

theorem agentOf_atIssue_owning (s : State) (ds : List Named) (k : Nat) : (atIssue s ds).agentOf k = (begin_ s).agentOf k := by
  have hown : ∀ ds', (atIssue s ds').agentOf k = (begin_ s).passed.agentOf k := fun ds' =>
    agentOf_updBlk _ _ (fun b => take_name b _ _ _ ds') k
  rw [hown ds, ← hown [], agentOf_atIssue]

section Places

variable {s : State} {h : Hdr} {src dst : List Named} {x : List Nat} {o : MemOp} {u : Bool} {l : Nat} (ds : List Named)

theorem atIssue_block (hi : Issued s h src dst x) : (atIssue s ds).blk.core = s.myBlk.core := by
  rw [atIssue_blk ds hi, Block.take_core]

theorem atIssue_spad (hi : Issued s h src dst x) : (atIssue s ds).blk.spad = s.myBlk.spad :=
  show (atIssue s ds).blk.core.spad = s.myBlk.core.spad by rw [atIssue_block ds hi]

theorem atIssue_localKb (hi : Issued s h src dst x) : (atIssue s ds).blk.localKb = s.myBlk.localKb :=
  show (atIssue s ds).blk.core.localKb = s.myBlk.core.localKb by rw [atIssue_block ds hi]

theorem atIssue_priv (hi : Issued s h src dst x) : (atIssue s ds).blk.priv = s.myBlk.priv :=
  show (atIssue s ds).blk.core.priv = s.myBlk.core.priv by rw [atIssue_block ds hi]

/-- The effective address is that of the state (R237). -/
theorem atIssue_ea (hi : Issued s h src dst x) : (atIssue s ds).ea o u l = memEa s o u l := by
  unfold Work.ea memEa State.op32 State.op64
  simp only [atIssue_op32 ds hi, atIssue_op64 ds hi]
  cases o.space <;> simp

/-! ### The checks of one lane (R72) -/

variable {kind : XKind} {n : Nat}

theorem place_glob (hi : Issued s h src dst x) {lf : Leaf} (hsp : o.space = .g ∨ o.space = .c) (hal : memEa s o u l % n = 0)
    (hlt : memEa s o u l < 2 ^ 57) (hx : (begin_ s).translate (slotDie s.d.cur.slot) (memEa s o u l).toNat kind (!s.myBlk.priv) = .ok lf) :
    (atIssue s ds).place o.space ((atIssue s ds).ea o u l) n kind l = .ok (.glob lf) := by
  have hreads := atIssue_reads_owning s ds
  have htr : (atIssue s ds).translate (atIssue s ds).dieNo (memEa s o u l).toNat kind (!(atIssue s ds).blk.priv) = .ok lf := by
    rw [hreads.translate, atIssue_priv ds hi]
    exact hx
  rw [atIssue_ea ds hi]
  unfold Work.place
  rw [hal]
  rcases hsp with hsp | hsp <;>
  · rw [hsp]
    simp only [bne_self_eq_false, Bool.false_eq_true, if_false, if_neg (not_le.2 hlt), htr]

theorem place_spad (hi : Issued s h src dst x) (hok : SpadOk s o u l) :
    (atIssue s ds).place o.space ((atIssue s ds).ea o u l) o.ty.bytes kind l = .ok (.spad (spadAt s o u l)) := by
  obtain ⟨hsp, hal, h0, hle⟩ := hok
  have hin : ¬(memEa s o u l < 0 ∨ 1024 * ((atIssue s ds).blk.spad : Int) < memEa s o u l + o.ty.bytes) := by
    rw [atIssue_spad ds hi]
    omega
  rw [atIssue_ea ds hi]
  unfold Work.place
  rw [hal, hsp]
  simp only [bne_self_eq_false, Bool.false_eq_true, if_false, if_neg hin]
  rw [atIssue_g ds hi, startGroup_blk]
  rfl

/-- What the translation of a word adds to the words found behind it. -/
def wordFound (va : Nat) (rest : Except Fail (List Leaf)) : Except Nat Leaf → Except Fail (List Leaf)
  | .error c => .error { rank := 6, cause := c, addr := va }
  | .ok lf => rest.map fun ks => lf :: ks

/-- One step of `Work.localKeys` for any translation. -/
def keyStep (tr : Nat → Nat → XKind → Bool → Except Nat Leaf) (die : Nat) (va : Nat → Nat → Nat) (l : Nat) (kind : XKind) :
    (os : List Nat) → List.below (motive := fun _ => Except Fail (List Leaf)) os → Except Fail (List Leaf)
  | [], _ => .ok []
  | p :: _, f => wordFound (va l p % 2 ^ 57) f.1 (tr die (va l p % 2 ^ 57) kind true)

/-- The translation becomes a variable before the matches are compared, so that no check computes a walk of unknown tables (a
`generalize` would not do: the term it leaves is reduced away). -/
theorem localKeys_recursion (w : Work) : Work.localKeys._f w = keyStep w.translate w.dieNo w.localVa := by
  obtain ⟨tr, htr⟩ : ∃ tr, tr = w.translate := ⟨_, rfl⟩
  delta Work.localKeys._f
  rw [← htr]
  funext l kind os f
  cases os <;> rfl

theorem localKeys_cons (w : Work) (l p : Nat) (kind : XKind) (os : List Nat) : w.localKeys l kind (p :: os) =
    wordFound (w.localVa l p % 2 ^ 57) (w.localKeys l kind os) (w.translate w.dieNo (w.localVa l p % 2 ^ 57) kind true) := by
  have hrec : w.localKeys l kind = fun os => List.brecOn os (Work.localKeys._f w l kind) := by
    delta Work.localKeys
    rfl
  rw [hrec, localKeys_recursion]
  rfl

/-- The words of a local access are translated one by one (R341). -/
theorem localKeys_ok {w : Work} : ∀ {os : List Nat} {ws : List Leaf}, os.length = ws.length →
    (∀ (i p : Nat) (lf : Leaf), os[i]? = some p → ws[i]? = some lf → w.translate w.dieNo (w.localVa l p % 2 ^ 57) kind true = .ok lf) →
    w.localKeys l kind os = .ok ws := by
  intro os
  induction os with
  | nil => intro ws hlen _; rw [List.length_eq_zero_iff.mp hlen.symm]; rfl
  | cons p os ih =>
    intro ws hlen hok
    cases ws with
    | nil => cases hlen
    | cons lf ws =>
      have hrest := ih (ws := ws) (Nat.succ.inj hlen) fun i q lf' hq hlf => hok (i + 1) q lf' hq hlf
      rw [localKeys_cons, hok 0 p lf rfl rfl, hrest]
      rfl

theorem atIssue_localVa (i : Nat) : (atIssue s ds).localVa l i % 2 ^ 57 = localAt s l i := by
  have hdie : (atIssue s ds).d.die = s.d.die := (atIssue_reads_owning s ds).onDev Dev.die fun _ => rfl
  unfold Work.localVa localAt
  rw [hdie]
  rfl

theorem place_loc (hi : Issued s h src dst x) {ws : List Leaf} (hsp : o.space = .l) (hal : memEa s o true l % n = 0)
    (hle : memEa s o true l + n ≤ 1024 * s.myBlk.localKb) (hlen : ws.length = (n + 3) / 4)
    (hx : ∀ i lf, ws[i]? = some lf →
      (begin_ s).translate (slotDie s.d.cur.slot) (localAt s l ((memEa s o true l).toNat + 4 * i)) kind true = .ok lf) :
    (atIssue s ds).place o.space ((atIssue s ds).ea o true l) n kind l = .ok (.loc ws) := by
  have hin : ¬ 1024 * ((atIssue s ds).blk.localKb : Int) < memEa s o true l + n := by
    rw [atIssue_localKb ds hi]
    omega
  have hkeys : (atIssue s ds).localKeys l kind ((List.range ((n + 3) / 4)).map fun i => (memEa s o true l).toNat + 4 * i) =
      .ok ws := by
    refine localKeys_ok (by simp [hlen]) fun i p lf hp hlf => ?_
    have hp' : p = (memEa s o true l).toNat + 4 * i := by
      rw [List.getElem?_map] at hp
      obtain ⟨j, hj, rfl⟩ := Option.map_eq_some_iff.mp hp
      rw [(List.getElem?_eq_some_iff.mp hj).2.symm, List.getElem_range]
    rw [hp', atIssue_localVa, (atIssue_reads_owning s ds).translate]
    exact hx i lf hlf
  rw [atIssue_ea ds hi]
  unfold Work.place
  rw [hal, hsp]
  simp only [bne_self_eq_false, Bool.false_eq_true, if_false, if_neg hin, hkeys]
  rfl

end Places

/-! ### The places of all lanes (R237) -/

theorem firstFail_all_ok (ps : List Place) : firstFail (ps.map .ok) = none := by
  unfold firstFail
  induction ps with
  | nil => rfl
  | cons p ps ih => exact ih

theorem places_ok {w : Work} {o : MemOp} {u : Bool} {kind : XKind} {x : List Nat} {P : Nat → Place}
    (h : ∀ l ∈ x, w.place o.space (w.ea o u l) o.ty.bytes kind l = .ok (P l)) :
    w.places o u kind x = .ok (x.map fun l => (l, P l)) := by
  have hps : (x.map fun l => (l, w.place o.space (w.ea o u l) o.ty.bytes kind l)) =
      x.map fun l => (l, (.ok (P l) : Except Fail Place)) := List.map_congr_left fun l hl => by rw [h l hl]
  have hfail : firstFail ((x.map fun l => (l, (.ok (P l) : Except Fail Place))).map (·.2)) = none := by
    have hmap : (x.map fun l => (l, (.ok (P l) : Except Fail Place))).map (·.2) = (x.map P).map .ok := by
      simp only [List.map_map, Function.comp_def]
    rw [hmap]
    exact firstFail_all_ok (x.map P)
  unfold Work.places
  dsimp only
  rw [hps, hfail]
  dsimp only
  rw [List.filterMap_map]
  exact congrArg Except.ok (List.filterMap_eq_map (f := fun l => (l, P l)) ▸ rfl)

end Sys2Proof.Machine
end

section
/-! PROOFS. A sector taken into L1, copies that end, and a strong access that is reported (O33). -/

namespace Sys2Proof.Machine

/-! ### A sector lies in one home (Table 23.2) -/

/-- A die's bytes begin and end at sectors. -/
theorem localDie_sector {a b k : Nat} (h : a / 128 = b / 128) (hk : localDie a = some k) : localDie b = some k := by
  unfold localDie at hk ⊢
  split at hk
  · next ha =>
    rw [if_pos (by omega)]
    exact (congrArg some (show b / 0x600000000 = a / 0x600000000 by omega)).trans hk
  · next ha =>
    split at hk
    · next ha' =>
      rw [if_neg (by omega), if_pos (by omega)]
      exact (congrArg some (show (b - 0x10000000000) / 0x3000000000 = (a - 0x10000000000) / 0x3000000000 by omega)).trans hk
    · cases hk

/-- The addresses that lie on a die are those of the package's memory (Table 23.2). -/
theorem homeOf_die_iff {d : Dev} {a k : Nat} : homeOf d a = .die k ↔
    a < 2 ^ 56 ∧ a / 2 ^ 43 = d.pkg.podId.toNat % 2 ^ 13 ∧ localDie (a % 2 ^ 43) = some k := by
  unfold homeOf
  dsimp only
  by_cases hout : 2 ^ 56 ≤ a
  · rw [if_pos hout]
    exact ⟨Home.noConfusion, fun h => absurd h.1 (Nat.not_lt.mpr hout)⟩
  rw [if_neg hout]
  by_cases hpkg : a / 2 ^ 43 = d.pkg.podId.toNat % 2 ^ 13
  · have hand : ∀ p : Prop, (a < 2 ^ 56 ∧ a / 2 ^ 43 = d.pkg.podId.toNat % 2 ^ 13 ∧ p) ↔ p := fun p =>
      ⟨fun h => h.2.2, fun h => ⟨Nat.lt_of_not_le hout, hpkg, h⟩⟩
    rw [if_pos hpkg, hand]
    cases localDie (a % 2 ^ 43) with
    | some k' => simp
    | none =>
      dsimp only
      split_ifs <;> simp
  · have hno : ¬(a < 2 ^ 56 ∧ a / 2 ^ 43 = d.pkg.podId.toNat % 2 ^ 13 ∧ localDie (a % 2 ^ 43) = some k) := fun h => hpkg h.2.1
    rw [if_neg hpkg, iff_false_right hno]
    split_ifs <;> exact not_false

/-- The bytes of a sector have one home. -/
theorem homeOf_sector {d : Dev} {a b k : Nat} (h : a / 128 = b / 128) (hk : homeOf d a = .die k) : homeOf d b = .die k := by
  obtain ⟨hlt, hpkg, hdie⟩ := homeOf_die_iff.mp hk
  exact homeOf_die_iff.mpr ⟨by omega, by omega, localDie_sector (by omega) hdie⟩

/-- Nothing of a sector rides where the ring of its die is empty. -/
theorem rides_of_no_slots {d : Dev} {pa k : Nat} (hk : homeOf d pa = .die k) (hs : (d.die k).slots = []) :
    ([0, 64].any fun o => (d.rideOf (128 * sectorOf pa + o)).isSome) = false := by
  have hride : ∀ o < 128, d.rideOf (128 * sectorOf pa + o) = none := fun o ho => by
    unfold Dev.rideOf
    rw [homeOf_sector (a := pa) (by unfold sectorOf; omega) hk]
    simp [hs]
  rw [List.any_cons, List.any_cons, hride 0 (by decide), hride 64 (by decide)]
  rfl

/-! ### A sector filled under a lease (R91) -/

theorem SameReads.writeComing {w v : Work} (h : SameReads w v) (a : Nat) : v.writeComing a = w.writeComing a := by
  unfold Work.writeComing
  rw [h.cores, h.ops, h.dies]

theorem SameReads.peerCopies {w v : Work} (h : SameReads w v) (core a : Nat) : v.peerCopies core a = w.peerCopies core a := by
  unfold Work.peerCopies
  rw [h.cores, h.now]

/-- A copy of a sector of the core's own die, and its lease at the home. -/
def Work.leased (w : Work) (core pa lease : Nat) : Work :=
  let e := homeCount w.d.now + lease
  (w.updDie (coreDie core) fun d => { d with leases := sset d.leases (lineOf pa) (max e (sget d.leases (lineOf pa) 0)) }).updCore
    core fun c => { c with copies := c.copies ++ [{ sector := sectorOf pa, endRev := e, remote := false, hist := [] }] }

/-- The line of an address may be leased to a core of its home's die that holds no copy of the sector. -/
structure Leasable (w : Work) (core pa : Nat) : Prop where
  home : homeOf w.d pa = .die (coreDie core)
  quiet : w.writeComing pa = false
  slots : (w.d.die (coreDie core)).slots = []
  fresh : ∀ c ∈ (w.d.core core).copies, c.sector ≠ sectorOf pa

section Fills

variable {w v : Work} {core pa lease : Nat}

theorem Leasable.congr (h : Leasable w core pa) (hr : SameReads w v) : Leasable v core pa where
  home := (hr.homeOf pa).trans h.home
  quiet := (hr.writeComing pa).trans h.quiet
  slots := (hr.onDev (fun d => (d.die (coreDie core)).slots) fun _ => rfl).trans h.slots
  fresh := (hr.onDev (fun d => (d.core core).copies) fun _ => rfl) ▸ h.fresh

theorem fill_leased (h : Leasable w core pa) : w.fill core pa lease = w.leased core pa lease := by
  have hheld : ((w.d.core core).copies.any fun c =>
      !c.remote && c.sector == sectorOf pa && decide (coreCount w.d.now core < c.endRev)) = false := by
    rw [List.any_eq_false]
    intro c hc
    simp [h.fresh c hc]
  unfold Work.fill
  dsimp only
  rw [h.home]
  dsimp only
  rw [if_pos rfl, h.quiet, rides_of_no_slots h.home h.slots, hheld]
  rfl

/-- Where no peer offers the sector, it comes from home (R77). -/
theorem fillShared_leased (h : Leasable w core pa) (hp : w.peerCopies core pa = []) :
    w.fillShared core pa lease = w.leased core pa lease := by
  unfold Work.fillShared
  dsimp only
  rw [hp, ite_self]
  exact fill_leased h

theorem sameGroups_leased : SameGroups w (w.leased core pa lease) := ⟨rfl, rfl, rfl, rfl⟩

theorem leased_copies : ((w.leased core pa lease).d.core core).copies = (w.d.core core).copies ++
    [{ sector := sectorOf pa, endRev := homeCount w.d.now + lease, remote := false, hist := [] }] := by
  unfold Work.leased
  dsimp only
  rw [Work.core_updCore, if_pos rfl]
  rfl

theorem leased_path (c : Nat) : ((w.leased core pa lease).d.core c).path = (w.d.core c).path := by
  unfold Work.leased
  dsimp only
  rw [Work.core_updCore]
  split
  · next h => rw [h]; rfl
  · rfl

theorem leased_lease : homeCount w.d.now + lease ≤ sget ((w.leased core pa lease).d.die (coreDie core)).leases (lineOf pa) 0 := by
  have hdie := Work.die_updDie w (coreDie core) (coreDie core)
  unfold Work.leased
  dsimp only
  rw [show ∀ v : Work, ∀ f, (v.updCore core f).d.die = v.d.die from fun _ _ => rfl, hdie, if_pos rfl]
  dsimp only
  rw [sget_sset, if_pos rfl]
  exact le_max_left ..

end Fills

/-! ### pf (R244, R341) -/

theorem bytes_pos (t : Ty) : 0 < t.bytes := by cases t <;> decide

section Prefetch

variable {s : State} {h : Hdr} {o : MemOp} {l : Nat} {lf : Leaf}

/-- What a prefetch of one lane does behind its translation. -/
theorem exec_pf_leased (hok : GlobOk s o true .load l lf ∨ LocOk s o .load l [lf]) (hi : Issued s h (memSrc o true) [] [l])
    (hl : Leasable (begin_ s) (slotCore s.d.cur.slot) lf.pa)
    (hp : o.space = .c ∨ (o.space = .g ∧ lf.wr = false) → (begin_ s).peerCopies (slotCore s.d.cur.slot) lf.pa = []) :
    exec (.pf h o) s = .next (commit s.mem
      (((atIssue s []).leased (slotCore s.d.cur.slot) lf.pa lf.lease).finish [] .hold [])) := by
  have hreads := atIssue_reads_owning s []
  have hl' := hl.congr hreads
  refine issue_ok hi ?_
  rw [List.foldl_cons, List.foldl_nil]
  rcases hok with ⟨hsp, hal, hlt, htr⟩ | ⟨hsp, hal, hle, hlen, htr⟩
  · rw [place_glob [] hi hsp (n := 1) (Int.emod_one _) hlt htr]
    dsimp only
    split
    · next hc =>
      have hp' := hp (by
        rcases hsp with hg | hcst
        · exact hc.imp_right fun hw => ⟨hg, by simpa using hw⟩
        · exact .inl hcst)
      rw [show (atIssue s []).coreNo = slotCore s.d.cur.slot from rfl,
        fillShared_leased hl' ((hreads.peerCopies _ _).trans hp')]
    · rw [show (atIssue s []).coreNo = slotCore s.d.cur.slot from rfl, fill_leased hl']
  · have hpos := bytes_pos o.ty
    have hone : 1 = (o.ty.bytes + 3) / 4 := hlen
    rw [place_loc [] hi hsp (n := 1) (ws := [lf]) (Int.emod_one _) (by omega) rfl htr]
    dsimp only
    rw [List.foldl_cons, List.foldl_nil, show (atIssue s []).coreNo = slotCore s.d.cur.slot from rfl, fill_leased hl']

theorem pf_takesLease (hok : GlobOk s o true .load l lf ∨ LocOk s o .load l [lf]) (hr : Runs (.pf h o) s h (memSrc o true) [] [l])
    (hl : Leasable (begin_ s) (slotCore s.d.cur.slot) lf.pa)
    (hp : o.space = .c ∨ (o.space = .g ∧ lf.wr = false) → (begin_ s).peerCopies (slotCore s.d.cur.slot) lf.pa = []) :
    Ends (.pf h o) s fun t => SameMem s t ∧ SameAll s t ∧ Advances s t ∧ (∀ c, t.path c = s.path c) ∧
      (t.d.core (slotCore s.d.cur.slot)).copies = (s.d.core (slotCore s.d.cur.slot)).copies ++
        [{ sector := sectorOf lf.pa, endRev := homeCount s.d.now + lf.lease, remote := false, hist := [] }] ∧
      homeCount s.d.now + lf.lease ≤ sget (t.d.die (coreDie (slotCore s.d.cur.slot))).leases (lineOf lf.pa) 0 := by
  have hi := issued_of hr.2
  obtain ⟨hmem, hall, hadv, -⟩ := sameGroups_after hi
    (sameGroups_leased (w := atIssue s []) (core := slotCore s.d.cur.slot) (pa := lf.pa) (lease := lf.lease))
  refine ⟨_, exec_pf_leased hok hi hl hp, hmem, hall, hadv, fun c => ?_, ?_, ?_⟩
  · exact leased_path (w := atIssue s []) c
  · exact leased_copies (w := atIssue s [])
  · exact leased_lease (w := atIssue s [])

end Prefetch

/-! ### Copies end (R91, R94) -/

section Drops

variable {s : State} {core k : Nat} {c : L1Copy}

/-- Copy `k` of the core's L1 is gone and no other, and nothing else of groups, blocks, cores or memory has changed. -/
def Drops (s t : State) (core k : Nat) : Prop :=
  SameMem s t ∧ (t.d.core core).copies = (s.d.core core).copies.eraseIdx k ∧
    t.d.groups = s.d.groups ∧ t.d.blocks = s.d.blocks ∧ ∀ j, j ≠ core → t.d.core j = s.d.core j

theorem drops_eraseIdx : Drops s (commit s.mem ((begin_ s).updCore core fun e => { e with copies := e.copies.eraseIdx k })) core k := by
  have hcore := fun j => Work.core_updCore (begin_ s) core j fun e => { e with copies := e.copies.eraseIdx k }
  refine ⟨sameMem_of_log rfl, ?_, rfl, rfl, fun j hj => ?_⟩
  · exact congrArg Core.copies ((hcore core).trans (if_pos rfl))
  · exact (hcore j).trans (if_neg hj)

theorem leaseExpiry_drops (hc : (s.d.core core).copies[k]? = some c) (he : c.endRev ≤ coreCount s.d.now core)
    (hr : c.remote = false) : Ends (.leaseExpiry core k) s fun t => Drops s t core k := by
  refine ⟨_, congrArg (fun w => Host.Outcome.next (commit s.mem w)) ?_, drops_eraseIdx⟩
  dsimp only
  rw [begin_d, hc]
  dsimp only
  rw [hr, decide_eq_true he]
  rfl

theorem remoteCopyDrop_drops (hc : (s.d.core core).copies[k]? = some c) (he : c.endRev ≤ coreCount s.d.now core)
    (hr : c.remote = true) : Ends (.remoteCopyDrop core k) s fun t => Drops s t core k := by
  refine ⟨_, congrArg (fun w => Host.Outcome.next (commit s.mem w)) ?_, drops_eraseIdx⟩
  dsimp only
  rw [begin_d, hc]
  dsimp only
  rw [hr, decide_eq_true he]
  rfl

end Drops

/-! ### An access of another size is reported (R88, R370) -/

section Reports

variable {w : Work} {core : Nat} {e : WEntry} {g : Group}

/-- What a group keeps when an access of it is dropped, or when it waits for one access fewer. -/
def Group.bits (g : Group) : Sparse Word × Sparse DWord × Sparse Thread × Option HeldMix := (g.v, g.sreg, g.thr, g.hmix)

theorem bits_updGrp {f : Group → Group} (hf : ∀ g, (f g).bits = g.bits) (k j : Nat) :
    ((w.updGrp k f).grp? j).map Group.bits = (w.grp? j).map Group.bits := by
  rw [Work.grp?_updGrp]
  split
  · next h =>
    rw [h, Option.map_map]
    exact congrArg (Option.map · _) (funext hf)
  · rfl

theorem bits_unrace (id j : Nat) : ((w.unrace id).grp? j).map Group.bits = (w.grp? j).map Group.bits := by
  have hg : (w.unrace id).grp? j = _ := sget?_map (fun _ (g : Group) =>
    if g.acq.contains id then ({ g with acq := g.acq.filter fun a => a != id } : Group) else g) w.d.groups j
  rw [hg, Option.map_map]
  refine congrArg (Option.map · _) (funext fun g => ?_)
  dsimp only [Function.comp_apply]
  split <;> rfl

theorem bits_dropEntry (j : Nat) : ((w.dropEntry core e).grp? j).map Group.bits = (w.grp? j).map Group.bits := by
  unfold Work.dropEntry
  dsimp only
  have hacks : ∀ (p : Prop) [Decidable p] (v : Work),
      ((if p then v else v.updGrp e.slot fun g => { g with acks := g.acks - 1 }).grp? j).map Group.bits =
        (v.grp? j).map Group.bits := fun p _ v => by
    split
    · rfl
    · exact bits_updGrp (by intro _; rfl) _ _
  split
  · refine (bits_updGrp (by intro _; rfl) e.slot j).trans ?_
    exact (hacks _ _).trans (bits_unrace _ _)
  · refine (bits_updGrp (by intro _; rfl) e.slot j).trans ?_
    exact (hacks _ _).trans (bits_unrace _ _)

theorem cores_dropEntry : (w.dropEntry core e).d.cores =
    (w.updCore core fun c => { c with path := c.path.filter fun o => o.id != e.id }).d.cores := by
  unfold Work.dropEntry
  dsimp only
  have hacks : ∀ (p : Prop) [Decidable p] (v : Work),
      (if p then v else v.updGrp e.slot fun g => { g with acks := g.acks - 1 }).d.cores = v.d.cores := fun p _ v => by
    split <;> rfl
  split <;> exact hacks _ _

theorem log_dropEntry : (w.dropEntry core e).log = w.log := by
  unfold Work.dropEntry
  dsimp only
  have hacks : ∀ (p : Prop) [Decidable p] (v : Work),
      (if p then v else v.updGrp e.slot fun g => { g with acks := g.acks - 1 }).log = v.log := fun p _ v => by split <;> rfl
  split <;> exact hacks _ _

theorem holdMix_grp {slot : Nat} (hg : w.grp? slot = some g) (hn : g.hmix = none) (va : Addr) (instr : QWord) (lanes : Word) :
    (w.holdMix slot va instr lanes).grp? slot = some { g with hmix := some { addr := va, instr := instr, lanes := lanes } } := by
  unfold Work.holdMix
  rw [Work.grp?_updGrp, if_pos rfl, hg, Option.map_some, hn]
  rfl

/-- A strong access of the write path that is mixed is taken off it and held for its group. -/
theorem mixsizeReport_holds {s : State} {k : Nat} (he : ((s.path core).filter WEntry.strong)[k]? = some e)
    (hg : s.slot? e.slot = some g) (hn : g.hmix = none) (hm : (begin_ s).mixMode e.pa = true)
    (hx : (begin_ s).mixed e.pa e.n = true) :
    Ends (.mixsizeReport core k) s fun t => SameMem s t ∧ t.path core = (s.path core).filter (fun o => o.id != e.id) ∧
      ∃ g', t.slot? e.slot = some g' ∧ g'.hmix = some { addr := e.va, instr := e.instr, lanes := e.lanes } ∧
        g'.v = g.v ∧ g'.sreg = g.sreg ∧ g'.thr = g.thr := by
  have hexec : exec (.mixsizeReport core k) s =
      .next (commit s.mem (((begin_ s).dropEntry core e).holdMix e.slot e.va e.instr e.lanes)) := by
    refine congrArg (fun w => Host.Outcome.next (commit s.mem w)) ?_
    have he' : (((begin_ s).d.core core).path.filter WEntry.strong)[k]? = some e := he
    dsimp only
    rw [he']
    dsimp only
    rw [hm, hx]
    rfl
  have hbits := bits_dropEntry (w := begin_ s) (core := core) (e := e) e.slot
  rw [show (begin_ s).grp? e.slot = some g from hg] at hbits
  obtain ⟨g', hg', hb⟩ := Option.map_eq_some_iff.mp hbits
  obtain ⟨hv, hs, ht, hmix⟩ : g'.v = g.v ∧ g'.sreg = g.sreg ∧ g'.thr = g.thr ∧ g'.hmix = g.hmix := by
    simpa [Group.bits] using hb
  refine ⟨_, hexec, sameMem_of_log log_dropEntry, ?_, _, holdMix_grp hg' (hmix.trans hn) _ _ _, rfl, hv, hs, ht⟩
  have hcores := congrArg (fun cs => (sget cs core Core.reset).path) (cores_dropEntry (w := begin_ s) (core := core) (e := e))
  refine hcores.trans ?_
  refine (congrArg Core.path (Work.core_updCore (begin_ s) core core _)).trans ?_
  rw [if_pos rfl]
  rfl

end Reports

/-- Settles O33: a prefetched sector is leased to the core, copies end alone, and a mixed access is held as a report. -/
theorem copiesReports : Obligations.CopiesReports := by
  unfold Obligations.CopiesReports
  refine ⟨?_, ?_, ?_⟩
  · intro s h o l lf d hok hr hd hhome hdc hw hsl hcp hpeer
    rw [hdc] at hhome hsl ⊢
    exact pf_takesLease hok hr ⟨hhome, hw, hsl, hcp⟩ hpeer
  · intro s core k c hc he
    exact ⟨leaseExpiry_drops hc he, remoteCopyDrop_drops hc he⟩
  · intro s core k e g he hg hn hm hx
    exact mixsizeReport_holds he hg hn hm hx

end Sys2Proof.Machine
end

section
/-! PROOFS. Scratchpad beyond a block's window (O30, O32): a state, which no run reaches, whose block has more scratchpad than the
512 KiB of a window of keys, so that a store near its end falls in the keys of the next block and meets a barrier object there. -/

namespace Sys2Proof.Machine

/-! ### A write that meets a barrier object in use (R256) -/

/-- What an object becomes whose content is undefined. -/
def freed (n : Nat) : Nat := bytesNat ((List.range 16).map fun i => Config.freeByte (n + i))

/-- Where no copy is under way, a number written to scratchpad is a store. -/
theorem spadStore_of_no_copy {w : Work} (hc : ∀ e ∈ w.d.ops, e.cls ≠ .copy) (k n x : Nat) : w.spadStore k n x = w.store k n x := by
  unfold Work.spadStore
  dsimp only
  refine if_neg ?_
  simp only [Work.store_d, List.any_eq_true, Bool.and_eq_true, beq_iff_eq, not_exists, not_and]
  exact fun e he hcls => absurd hcls (hc e he)

theorem freeObj_byte {w : Work} (hc : ∀ e ∈ w.d.ops, e.cls ≠ .copy) (k : Nat) :
    (w.freeObj k).byte k = BitVec.ofNat 8 (freed w.d.free) := by
  have hbyte := Work.byte_store_in (w.updDev fun d => { d with free := w.d.free + 16 }) k 16 (freed w.d.free) 0 (by decide)
  rw [Nat.pow_zero, Nat.div_one, Nat.add_zero k] at hbyte
  unfold Work.freeObj
  dsimp only
  rw [spadStore_of_no_copy (by exact hc)]
  exact hbyte

/-- A write to scratchpad leaves the one object in use that it meets undefined, the bytes it has itself written there too. -/
theorem spadWrite_freed {w : Work} {k n o : Nat} (x : Nat) (hc : ∀ e ∈ w.d.ops, e.cls ≠ .copy)
    (hb : ((w.busyObjs ((k - 2 ^ 57) / 2 ^ 19)).eraseDups.filter fun o => overlap o 16 (k % 2 ^ 19) n) = [o])
    (hk : spadKey ((k - 2 ^ 57) / 2 ^ 19) o = k) :
    (w.spadWrite k n x).byte k = BitVec.ofNat 8 (freed w.d.free) := by
  have hd := Work.store_d w k n x
  unfold Work.spadWrite
  dsimp only
  rw [hb, List.map_cons, List.map_nil, hk, List.foldl_cons, List.foldl_nil, spadStore_of_no_copy hc,
    freeObj_byte (by rw [hd]; exact hc), hd]

/-- A field of the work that a store keeps, and the losses of copies and of objects in use, is kept by a write to scratchpad. -/
theorem spadWrite_keeps {β : Type} (φ : Work → β) (hs : ∀ w k n x, φ (Work.store w k n x) = φ w)
    (hd : ∀ (w : Work) f ops, φ (w.updDev fun d => { d with free := f, ops := ops }) = φ w) (w : Work) (k n x : Nat) :
    φ (w.spadWrite k n x) = φ w := by
  have hstore : ∀ (w : Work) (k n x : Nat), φ (w.spadStore k n x) = φ w := fun w k n x => by
    unfold Work.spadStore
    dsimp only
    split
    · exact (hd ..).trans (hs ..)
    · exact hs ..
  have hfold : ∀ (os : List Nat) (v : Work), φ (os.foldl Work.freeObj v) = φ v := fun os => by
    induction os with
    | nil => exact fun _ => rfl
    | cons o os ih => exact fun v => (ih _).trans ((hstore ..).trans (hd v (v.d.free + 16) v.d.ops))
  exact (hfold _ _).trans (hstore ..)

theorem spadWrite_base (w : Work) (k n x : Nat) : (w.spadWrite k n x).base = w.base :=
  spadWrite_keeps Work.base (fun _ _ _ _ => (SameRest.store ..).base) (fun _ _ _ => rfl) w k n x

theorem spadWrite_pkg (w : Work) (k n x : Nat) : (w.spadWrite k n x).d.pkg = w.d.pkg :=
  spadWrite_keeps (fun w => w.d.pkg) (fun _ _ _ _ => congrArg Dev.pkg (Work.store_d ..)) (fun _ _ _ => rfl) w k n x

/-- The first byte of a number read. -/
theorem byte_of_load (w : Work) (k n : Nat) : w.byte k = BitVec.ofNat 8 (w.load k (n + 1)) := by
  rw [Work.load]
  apply BitVec.eq_of_toNat_eq
  rw [BitVec.toNat_ofNat]
  have := (w.byte k).isLt
  omega

/-! ### The state -/

/-- The first byte behind the window of the block of slot 0, where the next block's window begins. -/
def crossKey : Nat := spadKey 0 (2 ^ 19)

/-- One runnable thread in slot 0, whose block has 513 KiB of scratchpad and whose V0 is `2 ^ 19`; an operation of the next block names
the barrier object at offset 0 of that block. -/
def crossState : State :=
  { State.reset with d := { State.reset.d with
      cur := { slot := 0, lanes := [0], pc := 0x40000, len := 12, word := 0, stamped := false }
      groups := [(0, { Group.gone with thr := [(0, { Thread.gone with st := .runnable })], v := [(0, 2 ^ 19)] })]
      blocks := [(0, { Block.gone with gcnt := 1, vbase := 8, spad := 513 })]
      ops := [{ id := 0, cls := .mtx, slots := [128], blk := 1, tok := none, word := 0, bo := some 0, parts := [], left := 0,
                waits := false, spr := [], spw := [], kind := .plain, raced := [] }] } }

/-- An access of 4 bytes at `[V0]` of the scratchpad with the data `x`, and no destination. -/
def crossOp (strong : Bool) (x : BitVec 6) : MemOp :=
  { ty := .b32, space := .s, strong := strong, ord := .rlx, scope := .blk, disp := 0, d := .none, base := .v 0, off := .inl 0,
    data := .inl x }

theorem cross_spadOk (strong : Bool) (x : BitVec 6) : SpadOk crossState (crossOp strong x) true 0 := by
  refine ⟨rfl, ?_, ?_, ?_⟩ <;> decide +kernel +revert

theorem cross_spadFree (strong : Bool) (x : BitVec 6) : SpadFree crossState (crossOp strong x) true 0 := by
  have hb : (begin_ crossState).busyObjs crossState.here.blk = [] := by decide +kernel
  rw [SpadFree, hb]
  exact fun b hb => absurd hb List.not_mem_nil

theorem cross_spadAt (strong : Bool) (x : BitVec 6) : spadAt crossState (crossOp strong x) true 0 = crossKey := rfl

/-- The work that an effect of `crossState` starts from meets the object of the next block. -/
theorem cross_busy : (((atIssue crossState []).busyObjs ((crossKey - 2 ^ 57) / 2 ^ 19)).eraseDups.filter
    fun o => overlap o 16 (crossKey % 2 ^ 19) 4) = [0] := by decide +kernel

theorem cross_byte (x : Nat) : ((atIssue crossState []).spadWrite crossKey 4 x).byte crossKey = BitVec.ofNat 8 (freed 0) :=
  spadWrite_freed x (by decide +kernel) cross_busy (by decide +kernel)

theorem cross_runs (x : BitVec 6) : Runs (.st farHdr (crossOp false x)) crossState farHdr
    (memSrc (crossOp false x) true ++ (crossOp false x).data.names (regCount (crossOp false x).ty.bytes)) [] [0] := by
  constructor <;> decide +kernel +revert

/-- What stands at a key as an instruction ends that has written memory: the finish writes none. -/
theorem finish_byte_commit {s : State} {w : Work} (hm : memWf s.mem = true) (hb : w.base = s.mem) (js : List (Nat × Addr)) (a : Nat) :
    (commit s.mem (w.finish [] .hold js)).byte a = w.byte a := commit_byte hm hb a

theorem spadDrop_byte (w : Work) (k n a : Nat) : (w.spadDrop k n).byte a = w.byte a := rfl

/-- The bytes that st.s has written are undefined as it ends. -/
theorem cross_store (x : BitVec 6) : ∃ t, exec (.st farHdr (crossOp false x)) crossState = .next t ∧
    t.byte crossKey = BitVec.ofNat 8 (freed 0) := by
  have hi := issued_of (cross_runs x).2
  have hplaces : (atIssue crossState []).places (crossOp false x) true .store [0] = .ok [(0, .spad crossKey)] :=
    places_ok (P := fun _ => .spad crossKey) fun l hl => by
      rw [List.mem_singleton.mp hl]
      exact place_spad [] hi (cross_spadOk false x)
  refine ⟨_, issue_ok hi (w := ((atIssue crossState []).spadWrite crossKey 4
    ((atIssue crossState []).opBytes 0 (crossOp false x).data 4)).spadDrop crossKey 4) (js := []) ?_, ?_⟩
  · have hacq : (atIssue crossState []).g.acq.isEmpty = true := by decide +kernel
    have hreal : (atIssue crossState []).notHelper [0] = [0] := by decide +kernel
    dsimp only
    rw [hacq, hreal, hplaces]
    rfl
  · rw [finish_byte_commit (s := crossState) rfl (spadWrite_base ..), spadDrop_byte, cross_byte]

/-- Refutes O30: a block with 513 KiB of scratchpad stores behind its window, where a barrier object of the next block is in use.
The bytes it has written are undefined then, whatever its data (`cross_store`), so they cannot be its data, 0 and 1. -/
theorem not_stores : ¬ Obligations.Stores := by
  unfold Obligations.Stores
  rintro ⟨hall, -⟩
  have hreal : realLanes crossState [0] = [0] := by decide +kernel
  have hlane : ∀ l ∈ realLanes crossState [0], l = 0 := fun l hl => List.mem_singleton.mp (hreal ▸ hl)
  have hbyte : ∀ x, BitVec.ofNat 8 (freed 0) = BitVec.ofNat 8 (memData crossState (crossOp false x) 0 % 256 ^ 4) := fun x => by
    have hlanes : ∀ l ∈ realLanes crossState [0], SpadOk crossState (crossOp false x) true l ∧
        SpadFree crossState (crossOp false x) true l := fun l hl => by
      rw [hlane l hl]
      exact ⟨cross_spadOk false x, cross_spadFree false x⟩
    obtain ⟨t, hexec, hfreed⟩ := cross_store x
    obtain ⟨t', hexec', -, -, -, -, -, -, hload, -⟩ := hall crossState farHdr (crossOp false x) [0] rfl rfl hlanes
      (fun k hk l hl hkl => absurd ((hlane k hk).trans (hlane l hl).symm) hkl) (fun h => by cases h) (fun h => by cases h)
      (cross_runs x)
    obtain rfl : t = t' := by simpa using hexec.symm.trans hexec'
    have hl := hload 0 (hreal ▸ List.mem_singleton.mpr rfl)
    rw [cross_spadAt] at hl
    exact hfreed.symm.trans ((byte_of_load (begin_ t) crossKey 3).trans (congrArg (BitVec.ofNat 8) hl))
  exact absurd ((hbyte 0).symm.trans (hbyte 1)) (by decide +kernel)

end Sys2Proof.Machine
end

section
/-! PROOFS. An atomic behind its block's window (O32), in the state of `crossKey`. -/

namespace Sys2Proof.Machine

/-- A strong access of a sector without earlier ones is recorded, and writes nothing. -/
theorem spadStrong_byte {w : Work} {o : MemOp} {k : Nat} (h : w.d.pkg.mix = []) (a : Nat) :
    (w.spadStrong o false false k).byte a = w.byte a ∧ (w.spadStrong o false false k).base = w.base := by
  have hnote := Work.noteStrong_apart w (a := w.strongOf w.slot k o.ty.bytes w.g.ep o.scope) (c := w.g.vc) (by
    rw [h]
    exact fun r hr => absurd hr List.not_mem_nil)
  unfold Work.spadStrong
  simp only [Bool.false_eq_true, if_false]
  rw [hnote]
  exact ⟨rfl, rfl⟩

theorem crossAtom_runs (x : BitVec 6) : Runs (.atom farHdr .xch (crossOp true x)) crossState farHdr
    (memSrc (crossOp true x) true ++ (crossOp true x).data.names (regCount (crossOp true x).ty.bytes)) (memDst (crossOp true x)) [0] := by
  constructor <;> decide +kernel +revert

/-- The bytes that atom.s has written are undefined as it ends. -/
theorem cross_atom (x : BitVec 6) : ∃ t, exec (.atom farHdr .xch (crossOp true x)) crossState = .next t ∧
    t.byte crossKey = BitVec.ofNat 8 (freed 0) := by
  have hi := issued_of (crossAtom_runs x).2
  have hplaces : (atIssue crossState []).places (crossOp true x) true .rmw [0] = .ok [(0, .spad crossKey)] :=
    places_ok (P := fun _ => .spad crossKey) fun l hl => by
      rw [List.mem_singleton.mp hl]
      exact place_spad [] hi (cross_spadOk true x)
  have hmix : ∀ n, ((atIssue crossState []).spadWrite crossKey 4 n).d.pkg.mix = [] := fun n =>
    (congrArg Pkg.mix (spadWrite_pkg ..)).trans rfl
  refine ⟨_, issue_ok hi (w := ((atIssue crossState []).spadWrite crossKey 4
    ((atIssue crossState []).opTyped 0 (crossOp true x).data .b32)).spadStrong (crossOp true x) false false crossKey) (js := []) ?_, ?_⟩
  · have hacq : (atIssue crossState []).g.acq.isEmpty = true := by decide +kernel
    have hreal : (atIssue crossState []).notHelper [0] = [0] := by decide +kernel
    have hbefore : (atIssue crossState []).strongBefore 0 [0] (atIssue crossState []).d.nextId = false := by decide +kernel
    rw [show memDst (crossOp true x) = [] from rfl]
    dsimp only
    rw [hacq, hreal, hplaces]
    dsimp only
    rw [show (atIssue crossState []).slot = 0 from rfl, hbefore]
    have howed : (atIssue crossState []).owedOf (atIssue crossState []).d.nextId 0 false [0] = none := by decide +kernel
    generalize atIssue crossState [] = w at howed
    simp only [show isRel (crossOp true x).ord = false from rfl, show isAcq (crossOp true x).ord = false from rfl,
      Bool.false_eq_true, if_false, and_false, Bool.false_and, Bool.not_true, Work.openSync_off, List.foldl_cons, List.foldl_nil]
    rw [show (w.owe farHdr [0] (crossOp true x).d (regCount (crossOp true x).ty.bytes) fun _ => .pend) = w from rfl,
      show Dst.isWide (crossOp true x).d = false from rfl, howed]
    rfl
  · rw [finish_byte_commit (s := crossState) rfl ((spadStrong_byte (hmix _) 0).2.trans (spadWrite_base ..)),
      (spadStrong_byte (hmix _) crossKey).1, cross_byte]

/-- Refutes O32: a block with 513 KiB of scratchpad exchanges a word behind its window, where a barrier object of the next block is
in use. The bytes it has written are undefined then, whatever its data (`cross_atom`), so they cannot be its data, 0 and 1. -/
theorem not_atomics : ¬ Obligations.Atomics := by
  unfold Obligations.Atomics
  rintro ⟨hall, -⟩
  have hreal : realLanes crossState [0] = [0] := by decide +kernel
  have hlane : ∀ l ∈ realLanes crossState [0], l = 0 := fun l hl => List.mem_singleton.mp (hreal ▸ hl)
  have hbyte : ∀ x, BitVec.ofNat 8 (freed 0) = BitVec.ofNat 8 (atomData crossState (crossOp true x) 0 % 256 ^ 4) := fun x => by
    have hlanes : ∀ l ∈ realLanes crossState [0], SpadOk crossState (crossOp true x) true l ∧
        SpadFree crossState (crossOp true x) true l ∧ SpadSizes crossState (crossOp true x) true l := fun l hl => by
      rw [hlane l hl]
      exact ⟨cross_spadOk true x, cross_spadFree true x, fun r hr => absurd hr List.not_mem_nil⟩
    obtain ⟨t, hexec, hfreed⟩ := cross_atom x
    obtain ⟨hatom, -⟩ := hall crossState farHdr (crossOp true x) [0] .xch rfl rfl (fun e he => absurd he List.not_mem_nil)
      (fun h => by rcases h with h | h <;> cases h) (by rw [hreal]; decide +kernel)
    obtain ⟨t', hexec', -, -, -, -, -, -, hload, -⟩ := hatom (by rw [hreal]; decide) hlanes
      (fun k hk l hl hkl => absurd ((hlane k hk).trans (hlane l hl).symm) hkl) (crossAtom_runs x)
    obtain rfl : t = t' := by simpa using hexec.symm.trans hexec'
    have hl := hload 0 (hreal ▸ List.mem_singleton.mpr rfl)
    rw [cross_spadAt] at hl
    exact hfreed.symm.trans ((byte_of_load (begin_ t) crossKey 3).trans (congrArg (BitVec.ofNat 8) hl))
  exact absurd ((hbyte 0).symm.trans (hbyte 1)) (by decide +kernel)

end Sys2Proof.Machine
end

section
/-! PROOFS. A weak store performs at its home (O31): what a write at a home leaves of the write paths, and how a performed entry is
settled. -/

namespace Sys2Proof.Machine

/-! ### What a write at a home leaves of the write paths -/

theorem path_noteSector (w : Work) (sec : Nat) (old now : List Byte) (c : Nat) :
    ((w.noteSector sec old now).d.core c).path = (w.d.core c).path := by
  have h : sget? (w.noteSector sec old now).d.cores c = (sget? w.d.cores c).map fun e => e.noted sec now :=
    sget?_map (fun _ (e : Core) => e.noted sec now) w.d.cores c
  unfold Dev.core sget
  rw [h]
  cases sget? w.d.cores c <;> rfl

theorem path_rewrite (w : Work) (pa n : Nat) (f : Work → Work) (c : Nat) :
    ((w.rewrite pa n f).d.core c).path = ((f w).d.core c).path := by
  unfold Work.rewrite
  dsimp only
  split
  · exact path_noteSector ..
  · rw [show ∀ (v : Work) (g : Pkg → Pkg), (v.updPkg g).d.core c = v.d.core c from fun _ _ => rfl]
    exact path_noteSector ..

theorem heal_cores (w : Work) (pa n : Nat) : (w.heal pa n).d.cores = w.d.cores := by
  unfold Work.heal; split <;> rfl

theorem path_homeWrite {w : Work} {pa : Nat} (h : w.d.rideOf pa = none) (n x c : Nat) :
    ((w.homeWrite pa n x).d.core c).path = (w.d.core c).path := by
  have hcores : ((w.store pa n x).heal pa n).d.cores = w.d.cores :=
    (heal_cores ..).trans (congrArg Dev.cores (Work.store_d ..))
  unfold Work.homeWrite
  rw [path_rewrite, h]
  exact congrArg (fun cs => (sget cs c Core.reset).path) hcores

/-! ### A weak store -/

section Performs

variable {w : Work} {core d : Nat} {e : WEntry}

/-- A weak store at a home of the package writes its data there. -/
theorem performAt_weakStore (hk : e.kind = .store) (hs : e.strong = false) (hh : homeOf w.d e.pa = .die d) :
    (w.performAt e).2 = w.homeWrite e.pa e.n e.data := by
  unfold Work.performAt WEntry.new
  rw [hh, hk, hs]
  rfl

/-- A release tells what comes before it; a weak access without one orders nothing. -/
theorem entryOrders_weak (hs : e.strong = false) (ha : e.acq = false) :
    w.entryOrders e = if e.iss.rel then w.tell e.pa e.n (w.agentOf e.slot) e.scope e.iss.ep e.iss.vc else w := by
  unfold Work.entryOrders
  rw [hs, ha]
  rfl

/-- A group whose store has completed: the revolution enters HORIZON where the home is `near`, on the core's die, else its
acknowledgement arrives (R93). -/
def Group.completed (g : Group) (near : Bool) (now : Nat) : Group :=
  if near then { g with horizon := max g.horizon (homeCount now) } else { g with acks := g.acks - 1 }

/-- A group that waits for one racing store fewer (R89). -/
def Group.unraced (g : Group) (id : Nat) : Group := { g with acq := g.acq.filter fun a => a != id }

theorem unrace_grp? (w : Work) (id j : Nat) : (w.unrace id).grp? j = (w.grp? j).map fun g => g.unraced id := by
  have hg : (w.unrace id).grp? j = _ := sget?_map (fun _ (g : Group) =>
    if g.acq.contains id then ({ g with acq := g.acq.filter fun a => a != id } : Group) else g) w.d.groups j
  have hf : ∀ g : Group, (if g.acq.contains id then ({ g with acq := g.acq.filter fun a => a != id } : Group) else g) =
      g.unraced id := fun g => by
    split
    · rfl
    · next hn =>
      have hall : g.acq.filter (fun a => a != id) = g.acq := List.filter_eq_self.mpr fun a ha => by
        rw [bne_iff_ne]
        rintro rfl
        exact hn (List.contains_iff_mem.mpr ha)
      unfold Group.unraced
      rw [hall]
  simp only [hf] at hg
  exact hg

/-- The work with an entry off a core's write path, and then with its data at its home. -/
def Work.offPath (w : Work) (core : Nat) (e : WEntry) : Work :=
  w.updCore core fun c => { c with path := c.path.filter fun o => o.id != e.id }

def written (w : Work) (core : Nat) (e : WEntry) : Work := (w.offPath core e).homeWrite e.pa e.n e.data

/-- How a weak store performs: it is written and ordered, its races are over, and it has completed. -/
theorem performEntry_weakStore (hk : e.kind = .store) (hs : e.strong = false) (ha : e.acq = false)
    (hh : homeOf w.d e.pa = .die d) :
    ∃ ws, w.performEntry core e = (((((written w core e).entryOrders e).unrace e.id).updGrp e.slot fun g =>
      g.completed (decide (d = coreDie core)) w.d.now).deliver e.slot e.owed ws) := by
  have hpod : ((written w core e).entryOrders e).d.pkg.podId = w.d.pkg.podId := by
    have hw : (written w core e).d.pkg.podId = w.d.pkg.podId := (SameRest.homeWrite _ _ _ _).podId
    rw [entryOrders_weak hs ha]
    split <;> exact hw
  have hnow : ((written w core e).entryOrders e).d.now = w.d.now := by
    have hw : (written w core e).d.now = w.d.now := (SameRest.homeWrite _ _ _ _).onDev Dev.now fun _ => rfl
    rw [entryOrders_weak hs ha]
    split <;> exact hw
  have hhome : homeOf (((written w core e).entryOrders e).unrace e.id).d e.pa = .die d := (homeOf_congr hpod _).trans hh
  have hnow' : (((written w core e).entryOrders e).unrace e.id).d.now = w.d.now := hnow
  have hperf : ((w.offPath core e).performAt e).2 = written w core e := performAt_weakStore hk hs hh
  refine ⟨valWords e.wide e.n (extOf e.ty) ((w.offPath core e).performAt e).1, ?_⟩
  unfold Work.performEntry
  rw [← Work.offPath]
  dsimp only
  rw [hperf, hhome, hnow', hk, ha]
  simp only [Home.die.injEq, WKind.isRed, Bool.false_eq_true, if_false]
  by_cases hd : d = coreDie core
  · simp only [hd, if_true, decide_true, Group.completed]
  · simp only [hd, if_false, decide_false, Group.completed, Bool.false_eq_true]

/-- What a result delivered leaves of the groups. -/
theorem deliver_keeps {β : Type} (φ : Group → β) (hφ : ∀ (g : Group) os, φ { g with owed := os } = φ g) (slot : Nat) (id : Option Nat)
    (ws : List Word) (j : Nat) : ((w.deliver slot id ws).grp? j).map φ = (w.grp? j).map φ := by
  cases id with
  | none => rfl
  | some k => exact get_supd φ (fun g => hφ g _) w.d.groups slot j

theorem deliver_grp?_ne {slot j : Nat} (hj : j ≠ slot) (id : Option Nat) (ws : List Word) :
    (w.deliver slot id ws).grp? j = w.grp? j := by
  cases id with
  | none => rfl
  | some k => exact (Work.grp?_updGrp ..).trans (if_neg hj)

theorem deliver_onWork {β : Type} (φ : Work → β) (hφ : ∀ (v : Work) k f, φ (v.updGrp k f) = φ v) (slot : Nat) (id : Option Nat)
    (ws : List Word) : φ (w.deliver slot id ws) = φ w := by
  cases id with
  | none => rfl
  | some k => exact hφ ..

/-- What a weak store leaves of what neither groups, orders nor races hold is what its write leaves. -/
theorem performEntry_onWork {β : Type} (φ : Work → β) (hg : ∀ (v : Work) k f, φ (v.updGrp k f) = φ v)
    (hu : ∀ (v : Work) id, φ (v.unrace id) = φ v) (hp : ∀ (v : Work) f, φ (v.updPkg f) = φ v) (hk : e.kind = .store)
    (hs : e.strong = false) (ha : e.acq = false) (hh : homeOf w.d e.pa = .die d) :
    φ (w.performEntry core e) = φ (written w core e) := by
  obtain ⟨ws, hperf⟩ := performEntry_weakStore (core := core) hk hs ha hh
  rw [hperf, deliver_onWork φ hg, hg, hu, entryOrders_weak hs ha]
  split
  · exact hp ..
  · rfl

theorem ordered_grp? (hs : e.strong = false) (ha : e.acq = false) (j : Nat) :
    (((written w core e).entryOrders e).unrace e.id).grp? j = (w.grp? j).map fun g => g.unraced e.id := by
  have hw : (written w core e).d.groups = w.d.groups := (SameRest.homeWrite _ _ _ _).groups
  have ho : ((written w core e).entryOrders e).d.groups = w.d.groups := by
    rw [entryOrders_weak hs ha]
    split <;> exact hw
  rw [unrace_grp?]
  exact congrArg (fun gs => (sget? gs j).map fun g => g.unraced e.id) ho

/-- The groups after a weak store has performed: the others wait for it no longer, and its own has completed it. -/
theorem performEntry_groups (hk : e.kind = .store) (hs : e.strong = false) (ha : e.acq = false) (hh : homeOf w.d e.pa = .die d)
    {g : Group} (hg : w.grp? e.slot = some g) :
    (∀ j, j ≠ e.slot → (w.performEntry core e).grp? j = (w.grp? j).map fun g => g.unraced e.id) ∧
      ∃ g', (w.performEntry core e).grp? e.slot = some g' ∧
        { g' with owed := [] } = { (g.unraced e.id).completed (decide (d = coreDie core)) w.d.now with owed := [] } := by
  obtain ⟨ws, hperf⟩ := performEntry_weakStore (core := core) hk hs ha hh
  rw [hperf]
  refine ⟨fun j hj => ?_, ?_⟩
  · rw [deliver_grp?_ne hj, Work.grp?_updGrp, if_neg hj, ordered_grp? hs ha]
  · have h := deliver_keeps (w := ((((written w core e).entryOrders e).unrace e.id).updGrp e.slot fun g =>
      g.completed (decide (d = coreDie core)) w.d.now)) (fun g => ({ g with owed := [] } : Group)) (fun _ _ => rfl) e.slot e.owed ws e.slot
    rw [Work.grp?_updGrp, if_pos rfl, ordered_grp? hs ha, hg] at h
    exact Option.map_eq_some_iff.mp h

end Performs

section Step

variable {s : State} {core k d : Nat} {e : WEntry}

/-- STORE_PERFORM of a store that may perform. -/
theorem exec_storePerform (he : (s.path core)[k]? = some e) (hk : e.kind = .store) (hf : homeFailed s.d e.pa = false)
    (hm : (begin_ s).mayPerform core k e = true) :
    exec (.storePerform core k) s = .next (commit s.mem ((begin_ s).performEntry core e)) := by
  have hpath : ((begin_ s).d.core core).path[k]? = some e := he
  have hdead : (begin_ s).deadAt e.pa (e.kind != .store) = false := by
    unfold Work.deadAt
    rw [begin_d, hf, hk]
    rfl
  refine congrArg (fun w => Host.Outcome.next (commit s.mem w)) ?_
  dsimp only
  rw [hpath]
  dsimp only
  rw [hdead, hm]
  rfl

theorem written_byte (hride : s.d.rideOf e.pa = none) (a : Nat) :
    (written (begin_ s) core e).byte a = (((begin_ s).offPath core e).store e.pa e.n e.data).byte a :=
  homeWrite_byte hride ..

theorem written_path (hride : s.d.rideOf e.pa = none) (c : Nat) :
    ((written (begin_ s) core e).d.core c).path =
      if c = core then (s.path core).filter (fun o => o.id != e.id) else s.path c := by
  refine (path_homeWrite hride ..).trans ?_
  rw [Work.offPath, Work.core_updCore]
  split <;> rfl

end Step

/-- Settles O31: a weak store is written at its home and ordered, its races are over, and it completes for its group
(`performEntry_weakStore`); of this only the write touches memory and the write paths (`performEntry_onWork`). -/
theorem storesPerform : Obligations.StoresPerform := by
  unfold Obligations.StoresPerform
  intro s core k d e g he hk hs ha hmem hh hride hf hm hg
  have hbase : ((begin_ s).performEntry core e).base = s.mem :=
    (performEntry_onWork Work.base (fun _ _ _ => rfl) (fun _ _ => rfl) (fun _ _ => rfl) hk hs ha hh).trans
      (SameRest.homeWrite _ _ _ _).base
  have hbyte : ∀ a, ((begin_ s).performEntry core e).byte a = (((begin_ s).offPath core e).store e.pa e.n e.data).byte a := fun a =>
    (performEntry_onWork (Work.byte · a) (fun _ _ _ => rfl) (fun _ _ => rfl) (fun _ _ => rfl) hk hs ha hh).trans
      (written_byte hride a)
  have hpath : ∀ c, (commit s.mem ((begin_ s).performEntry core e)).path c =
      if c = core then (s.path core).filter (fun o => o.id != e.id) else s.path c := fun c =>
    (performEntry_onWork (fun v => (v.d.core c).path) (fun _ _ _ => rfl) (fun _ _ => rfl) (fun _ _ => rfl) hk hs ha hh).trans
      (written_path hride c)
  obtain ⟨hothers, g', hg', heq⟩ := performEntry_groups (core := core) hk hs ha hh (w := begin_ s) hg
  refine ⟨_, exec_storePerform he hk hf hm, ?_, fun a hout => ?_, (hpath core).trans (if_pos rfl),
    fun c hc => (hpath c).trans (if_neg hc), hothers, g', hg', ?_⟩
  · rw [load_commit hmem hbase, load_congr hbyte, Work.load_store]
  · rw [commit_byte hmem hbase, hbyte, Work.byte_store_out _ _ _ _ _ hout]
    rfl
  · have hkeep : ∀ {β : Type} (φ : Group → β), (∀ g : Group, φ { g with owed := [] } = φ g) →
        φ g' = φ ((g.unraced e.id).completed (decide (d = coreDie core)) s.d.now) := fun φ hφ => by
      rw [← hφ, heq, hφ]
      rfl
    refine ⟨(hkeep Group.v fun _ => rfl).trans ?_, (hkeep Group.sreg fun _ => rfl).trans ?_, (hkeep Group.thr fun _ => rfl).trans ?_, ?_⟩
    · unfold Group.completed; split <;> rfl
    · unfold Group.completed; split <;> rfl
    · unfold Group.completed; split <;> rfl
    · rw [hkeep Group.horizon fun _ => rfl, hkeep Group.acks fun _ => rfl]
      by_cases hd : d = coreDie core
      · rw [if_pos hd, decide_eq_true hd]; exact ⟨rfl, rfl⟩
      · rw [if_neg hd, decide_eq_false hd]; exact ⟨rfl, rfl⟩

end Sys2Proof.Machine
end

section
/-! PROOFS. Fences and waits (O35): a state, which no run reaches, in which a lane waits on the scratchpad word whose key is
`noKey`, the key that stands for no word. -/

namespace Sys2Proof.Machine

/-- The handle of a block whose scratchpad begins at the key `noKey`. -/
def endBlk : Nat := 7 * 2 ^ 38

/-- One runnable thread in slot 0, in the block `endBlk` with a KiB of scratchpad, whose first word is 5. -/
def endState : State :=
  { State.reset with
    mem := [(noKey, 5)]
    d := { State.reset.d with
      cur := { slot := 0, lanes := [0], pc := 0x40000, len := 12, word := 0, stamped := false }
      groups := [(0, { Group.gone with blk := endBlk, thr := [(0, { Thread.gone with st := .runnable, pc := 0x40000 })] })]
      blocks := [(endBlk, { Block.gone with gcnt := 1, vbase := 8, spad := 1 })] } }

/-- wait.v.s.eq.blk.b32 [V0], 5 -/
def endOp : WaitVOp :=
  { cond := .eq, acq := false, shared := true, scope := .blk, ty := .b32, base := .v 0, a := .inl 5, disp := 0 }

theorem endRuns : Runs (.waitV farHdr endOp) endState farHdr
    (endOp.base.names (if endOp.shared then 1 else 2) ++ endOp.a.names (if endOp.ty.wide then 2 else 1)) [] [0] := by
  constructor <;> decide +kernel

theorem endSizes (n : Nat) : Sizes endState (spadKey endState.here.blk (waitEa endState endOp 0).toNat) n
    ((begin_ endState).agentOf 0) .blk endState.here.vc := fun _ hr => absurd hr List.not_mem_nil

/-- The word that the lane waits for stands in the scratchpad. -/
theorem endHolds : waitHolds endState endOp 0
    ((begin_ endState).load (spadKey endState.here.blk (waitEa endState endOp 0).toNat) 4) := by decide +kernel

/-- Where an answer's group has a lane. -/
def pcAfter (r : Host.Outcome State Fault Refusal) (l : Nat) : Addr := match r with | .next t => (t.here.thread l).pc | _ => 0

/-- The lane does not go on. -/
theorem endWaits : pcAfter (exec (.waitV farHdr endOp) endState) 0 = 0x40000 := by decide +kernel

/-- Refutes O35: the word of the scratchpad at `noKey`, which the step takes for no word and reads as 0, so that the lane waits
although its condition holds (`endHolds`, `endWaits`). -/
theorem not_fencesWaits : ¬ Obligations.FencesWaits := by
  unfold Obligations.FencesWaits
  rintro ⟨-, hall, -⟩
  have hx : ∀ {P : Nat → Prop}, P 0 → ∀ l ∈ [0], P l := fun h l hl => List.mem_singleton.mp hl ▸ h
  obtain ⟨hshared, -⟩ := hall endState farHdr endOp [0] (fun _ => ⟨0, 0, false, false, false, false, 0, 0⟩) rfl rfl (hx (by decide +kernel)) endRuns
  obtain ⟨hgoes, -⟩ := hshared rfl (hx (by decide +kernel)) (hx ⟨by decide +kernel, endSizes _⟩)
  obtain ⟨t, hexec, ⟨-, ⟨-, -, -, -, -, -, -, ⟨⟨hnext, -⟩, -⟩⟩, -⟩, -⟩ := hgoes (hx endHolds)
  have hwait := endWaits
  rw [hexec] at hwait
  exact absurd (hwait.symm.trans (hnext 0 (by decide +kernel) (by decide +kernel))) (by decide +kernel)

end Sys2Proof.Machine
end

section
/-! PROOFS. What an engine reads at issue (for O48): works of which neither bytes nor the order of accesses tells one from the other. -/

namespace Sys2Proof.Machine

/-! ### Works whose accesses are ordered alike -/

/-- `v` reads like `w`, and so do its agents, the blocks of its groups, and the names and payloads of what they are owed. -/
structure SameOrder (w v : Work) : Prop extends SameReads w v where
  agents : ∀ k, v.agentOf k = w.agentOf k
  blks : ∀ k, ((v.grp? k).getD Group.gone).blk = ((w.grp? k).getD Group.gone).blk
  pays : ∀ k, ((v.grp? k).getD Group.gone).pays = ((w.grp? k).getD Group.gone).pays

/-- The effect of an instruction starts so, whatever registers it owns. -/
theorem atIssue_order (s : State) (ds : List Named) : SameOrder (begin_ s) (atIssue s ds) := by
  have hgrp : ∀ {β : Type} (φ : Group → β), (∀ g ls, φ (Group.stepWins g ls) = φ g) → ∀ k,
      φ (((atIssue s ds).grp? k).getD Group.gone) = φ (((begin_ s).grp? k).getD Group.gone) := fun φ hφ k => by
    have h : ((atIssue s ds).grp? k).map φ = ((begin_ s).grp? k).map φ := get_supd φ (fun g => by
      split
      · rfl
      · exact hφ ..) s.d.groups s.d.cur.slot k
    revert h
    cases (atIssue s ds).grp? k <;> cases (begin_ s).grp? k <;> simp
  exact { atIssue_reads_owning s ds with
    agents := agentOf_atIssue_owning s ds
    blks := hgrp Group.blk fun _ _ => rfl
    pays := hgrp Group.pays fun g ls => by simp [Group.pays, Group.stepWins, Function.comp_def] }

theorem any_owed_congr {g g' : Group} (h : g'.pays = g.pays) {f f' : Nat → Payload → Bool} (hf : ∀ i p, f' i p = f i p) :
    (g'.owed.any fun o => f' o.id o.pay) = g.owed.any fun o => f o.id o.pay := by
  have key : ∀ (f : Nat → Payload → Bool) (g : Group), (g.owed.any fun o => f o.id o.pay) = g.pays.any fun p => f p.1 p.2 :=
    fun f g => by rw [Group.pays, List.any_map]; rfl
  rw [key, key, h]
  simp only [hf]

/-- Is a payload a load of one of the lanes, older than `id`, that is still to read some of the bytes? -/
def readsBefore (ls : List Nat) (id : Nat) (bytes : List (Nat × Nat)) (i : Nat) : Payload → Bool
  | .load q => ls.contains q.lane && decide (i < id) && bytes.any fun b => q.meets b.1 b.2
  | _ => false

/-- Is it a strong load of one of the lanes, older than `id`, that an access of scope `sc` waits for? -/
def Work.holdsBack (w : Work) (slot : Nat) (ls : List Nat) (id : Nat) (sc : Scope) (i : Nat) : Payload → Bool
  | .load p => ls.contains p.lane && p.strong && decide (i < id) && !passable sc p.scope p.passed (w.loadClear slot i p)
  | _ => false

namespace SameOrder

variable {w v : Work}

theorem path (h : SameOrder w v) (c : Nat) : (v.d.core c).path = (w.d.core c).path :=
  h.onDev (fun d => (d.core c).path) fun _ => rfl

theorem ringBefore (h : SameOrder w v) (slot l pa id : Nat) : v.ringBefore slot l pa id = w.ringBefore slot l pa id := by
  unfold Work.ringBefore
  rw [h.dies]

theorem loadBefore (h : SameOrder w v) (slot : Nat) (ls : List Nat) (id : Nat) (bytes : List (Nat × Nat)) :
    v.loadBefore slot ls id bytes = w.loadBefore slot ls id bytes :=
  any_owed_congr (h.pays slot) (f := readsBefore ls id bytes) (f' := readsBefore ls id bytes) fun _ _ => rfl

theorem synchronous (h : SameOrder w v) (slot sync : Nat) (e : WEntry) : v.synchronous slot sync e = w.synchronous slot sync e := by
  unfold Work.synchronous
  rw [h.blks, h.blks]

theorem olderSame (h : SameOrder w v) (slot id : Nat) (p : LoadP) : v.olderSame slot id p = w.olderSame slot id p := by
  unfold Work.olderSame
  rw [h.loadBefore, h.path]
  simp only [h.ringBefore]

theorem loadClear (h : SameOrder w v) (slot id : Nat) (p : LoadP) : v.loadClear slot id p = w.loadClear slot id p := by
  unfold Work.loadClear
  rw [h.olderSame, h.lateBefore, h.agents]

theorem wayClear (h : SameOrder w v) (core k : Nat) (e : WEntry) : v.wayClear core k e = w.wayClear core k e := by
  unfold Work.wayClear
  dsimp only
  rw [h.path, h.loadBefore, h.lateBefore, h.agents]
  simp only [h.ringBefore, h.synchronous]

theorem strongHeld (h : SameOrder w v) (slot : Nat) (ls : List Nat) (id : Nat) (sc : Scope) :
    v.strongHeld slot ls id sc = w.strongHeld slot ls id sc := by
  have hloads := any_owed_congr (h.pays slot) (f := w.holdsBack slot ls id sc) (f' := v.holdsBack slot ls id sc) fun i p => by
    cases p with
    | load q => simp only [Work.holdsBack, h.loadClear]
    | _ => rfl
  unfold Work.strongHeld
  dsimp only
  rw [h.path]
  simp only [h.wayClear]
  exact congrArg _ hloads

end SameOrder

/-! ### Tables read alike -/

namespace SameReads

variable {w v : Work}

theorem entry16 (h : SameReads w v) (a : Nat) : v.entry16 a = w.entry16 a := by
  unfold Work.entry16 Work.physBytes
  simp only [h.physByte]

theorem granules16 (h : SameReads w v) : v.granules16 = w.granules16 := by
  unfold Work.granules16
  rw [h.base, h.log, h.dies]

theorem tableVas (h : SameReads w v) (n tbl : Nat) : v.tableVas n tbl = w.tableVas n tbl := by
  induction n generalizing tbl with
  | zero =>
    unfold Work.tableVas
    rw [h.dies, show dieParts v.d = dieParts w.d from h.onDev dieParts fun _ => rfl]
  | succ n ih =>
    unfold Work.tableVas
    rw [h.granules16]
    simp only [h.entry16, ih]

theorem isEntry (h : SameReads w v) (a : Nat) : v.isEntry a = w.isEntry a := by
  unfold Work.isEntry
  simp only [h.tableVas]

theorem mixMode (h : SameReads w v) (pa : Nat) : v.mixMode pa = w.mixMode pa := h.onDev
  (fun d => ({ base := [], log := [], d := d } : Work).mixMode pa) fun _ => rfl

theorem mixed (h : SameReads w v) (pa n : Nat) : v.mixed pa n = w.mixed pa n := by
  unfold Work.mixed Work.strongs
  rw [h.pkg, show v.d.tick = w.d.tick from h.onDev Dev.tick fun _ => rfl]
  simp only [h.isEntry]

end SameReads

/-! ### Bytes that an engine reads (R87, R89) -/

namespace SameOrder

variable {w v : Work}

theorem mayPerform (h : SameOrder w v) (core k : Nat) (e : WEntry) : v.mayPerform core k e = w.mayPerform core k e := by
  unfold Work.mayPerform Work.inOrder
  rw [h.wayClear, h.strongHeld, h.leaseFree, h.gateNow, h.mixMode, h.mixed]

theorem raceable (h : SameOrder w v) (ks : List Nat) : v.raceable ks = w.raceable ks := by
  unfold Work.raceable Work.raceWith
  rw [h.cores]
  simp only [h.path, h.rideOf, h.mayPerform]

theorem raceByte (h : SameOrder w v) (es : List (WEntry × Nat)) (i a : Nat) : v.raceByte es i a = w.raceByte es i a := by
  unfold Work.raceByte
  rw [h.physByte]

theorem engineByte (h : SameOrder w v) (k : Nat) : v.engineByte k = w.engineByte k := by
  unfold Work.engineByte
  rw [h.raceable, h.physByte, show v.d.tick = w.d.tick from h.onDev Dev.tick fun _ => rfl]
  simp only [h.raceByte]

theorem engineBytes (h : SameOrder w v) (k n : Nat) : v.engineBytes k n = w.engineBytes k n := by
  unfold Work.engineBytes
  simp only [h.engineByte]

end SameOrder

/-! ### Descriptors of structures (R146, R147) -/

section Struct

variable {s : State} {h : Hdr} {src dst : List Named} {x : List Nat} (ds : List Named)

theorem descWaits_none {w v : Work} (h : SameReads w v) {pa : Nat} (hw : w.descWaits pa = none) : v.descWaits pa = none := by
  unfold Work.descWaits at hw ⊢
  rw [h.deadAt, h.gateNow]
  by_cases hd : w.deadAt pa true = true
  · rw [if_pos hd] at hw; cases hw
  · rw [if_neg hd] at hw ⊢
    by_cases hg : (!w.gateNow pa) = true
    · rw [if_pos hg] at hw; cases hw
    · rw [if_neg hg]

theorem rangeOf_atIssue (hi : Issued s h src dst x) (k : Option XKind) (va n : Nat) :
    (atIssue s ds).rangeOf k va n = (begin_ s).rangeOf k va n := by
  cases k with
  | none => rfl
  | some k =>
    unfold Work.rangeOf
    dsimp only
    rw [(atIssue_order s ds).mapPages, (atIssue_order s ds).dieNo, atIssue_priv ds hi, begin_blk hi]

theorem place_g_atIssue (hi : Issued s h src dst x) (va : Int) (n : Nat) (kind : XKind) (l : Nat) :
    (atIssue s ds).place .g va n kind l = (begin_ s).place .g va n kind l := by
  unfold Work.place
  dsimp only
  rw [(atIssue_order s ds).translate, (atIssue_order s ds).dieNo, atIssue_priv ds hi, begin_blk hi]

/-- A structure that one work finds another finds that reads the same on the way. What is read becomes a variable before the matches
are taken apart, so that no check computes a walk of unknown tables. -/
theorem structAt_of_reads {w v : Work} {va : Int} {l : Nat} {check : Bool} {arena : Option XKind} {prims : Bool} {r : Option PDesc}
    (hp : v.place .g va 64 .load l = w.place .g va 64 .load l) (hd : ∀ k, w.descWaits k = none → v.descWaits k = none)
    (hb : v.engineBytes = w.engineBytes) (ht : v.translate v.dieNo = w.translate w.dieNo) (hv : v.blk.priv = w.blk.priv)
    (hn : v.rangeOf = w.rangeOf) (hr : w.structAt va l check arena prims = .ok r) : v.structAt va l check arena prims = .ok r := by
  unfold Work.structAt at hr ⊢
  rw [hp, hb, ht, hv, hn]
  obtain ⟨P, hP⟩ : ∃ P, P = w.place .g va 64 .load l := ⟨_, rfl⟩
  obtain ⟨W, hW⟩ : ∃ W, W = w.descWaits := ⟨_, rfl⟩
  obtain ⟨V, hV⟩ : ∃ V, V = v.descWaits := ⟨_, rfl⟩
  obtain ⟨B, hB⟩ : ∃ B, B = w.engineBytes := ⟨_, rfl⟩
  obtain ⟨T, hT⟩ : ∃ T, T = w.translate w.dieNo := ⟨_, rfl⟩
  obtain ⟨N, hN⟩ : ∃ N, N = w.rangeOf := ⟨_, rfl⟩
  rw [← hW, ← hV] at hd
  rw [← hP, ← hW, ← hB, ← hT, ← hN] at hr
  rw [← hP, ← hV, ← hB, ← hT, ← hN]
  clear hP hW hV hB hT hN hp hb ht hn
  cases P with
  | error f => cases hr
  | ok pl =>
    dsimp only at hr ⊢
    cases hk : W (placeKey pl) with
    | some r' => rw [hk] at hr; cases hr
    | none =>
      rw [hk] at hr
      rw [hd _ hk]
      exact hr

/-- A structure found in the state is found as the effect starts. -/
theorem structAt_atIssue (hi : Issued s h src dst x) {va : Int} {l : Nat} {check : Bool} {arena : Option XKind} {prims : Bool}
    {r : Option PDesc} (hr : (begin_ s).structAt va l check arena prims = .ok r) :
    (atIssue s ds).structAt va l check arena prims = .ok r := by
  have ho := atIssue_order s ds
  refine structAt_of_reads (place_g_atIssue ds hi va 64 .load l) (fun k => descWaits_none ho.toSameReads) ?_ ?_ ?_ ?_ hr
  · exact funext fun k => funext fun n => ho.engineBytes k n
  · rw [ho.translate_eq, ho.dieNo]
  · rw [atIssue_priv ds hi, begin_blk hi]
  · exact funext fun k => funext fun va => funext fun n => rangeOf_atIssue ds hi k va n

end Struct

end Sys2Proof.Machine
end

section
/-! PROOFS. Operations as they enter (for O48): effects that leave registers and threads alone, one rule per step of such an effect. -/

namespace Sys2Proof.Machine

/-! ### Effects that leave registers and threads alone -/

/-- What registers and threads are read by: a group's block, its registers and its threads. -/
def Group.held (g : Group) : Nat × Sparse Word × Sparse DWord × Sparse Thread := (g.blk, g.v, g.sreg, g.thr)

/-- An effect on its way: no byte is written, the blocks and the other groups are as at issue, and the issuing group is `g`, with the
registers and threads of the state. -/
structure Opens (s : State) (ds : List Named) (w : Work) (g : Group) : Prop where
  log : w.log = []
  cur : w.d.cur = s.d.cur
  blocks : w.d.blocks = (atIssue s ds).d.blocks
  grp : w.grp? s.d.cur.slot = some g
  others : ∀ k, k ≠ s.d.cur.slot → w.grp? k = s.slot? k
  held : g.held = s.here.held

namespace Opens

variable {s : State} {h : Hdr} {src dst : List Named} {x : List Nat} {ds : List Named} {w w' : Work} {g : Group}

theorem atIssue (hi : Issued s h src dst x) : Opens s ds (atIssue s ds) (startGroup s) where
  log := rfl
  cur := rfl
  blocks := rfl
  grp := atIssue_grp? ds hi
  others := fun _ hk => Work.grp?_updG_ne (begin_ s) _ hk
  held := by simp [Group.held]

theorem slot (ho : Opens s ds w g) : w.slot = s.d.cur.slot := congrArg Cur.slot ho.cur

theorem grp_slot (ho : Opens s ds w g) : w.grp? w.slot = some g := ho.slot ▸ ho.grp

theorem g_eq (ho : Opens s ds w g) : w.g = g := by rw [Work.g, ho.grp_slot, Option.getD_some]

theorem thread (ho : Opens s ds w g) (l : Nat) : g.thread l = s.here.thread l :=
  congrArg (sget · l Thread.gone) (congrArg (fun q => q.2.2.2) ho.held)

theorem blk (ho : Opens s ds w g) : g.blk = s.here.blk := congrArg Prod.fst ho.held

/-- A change outside groups and blocks. -/
theorem of_eq (ho : Opens s ds w g) (hl : w'.log = w.log) (hc : w'.d.cur = w.d.cur) (hg : w'.d.groups = w.d.groups)
    (hb : w'.d.blocks = w.d.blocks) : Opens s ds w' g :=
  { log := hl.trans ho.log, cur := hc.trans ho.cur, blocks := hb.trans ho.blocks, held := ho.held
    grp := (congrArg (sget? · s.d.cur.slot) hg).trans ho.grp
    others := fun k hk => (congrArg (sget? · k) hg).trans (ho.others k hk) }

/-- A change of the issuing group that leaves registers and threads alone. -/
theorem updGrp (ho : Opens s ds w g) {f : Group → Group} (hf : (f g).held = g.held) : Opens s ds (w.updGrp s.d.cur.slot f) (f g) :=
  { log := ho.log, cur := ho.cur, blocks := ho.blocks, held := hf.trans ho.held
    grp := by rw [Work.grp?_updGrp, if_pos rfl, ho.grp]; rfl
    others := fun k hk => by rw [Work.grp?_updGrp, if_neg hk, ho.others k hk] }

theorem updG (ho : Opens s ds w g) {f : Group → Group} (hf : (f g).held = g.held) : Opens s ds (w.updG f) (f g) := by
  have h := ho.updGrp hf
  rwa [← ho.slot] at h

/-! #### What the instruction then leaves -/

theorem here (ho : Opens s ds w g) : (leaves s w).here = g.ends s.d.cur [] .hold [] := leaves_here ho.cur ho.grp

theorem here_afterG (hi : Issued s h src dst x) (ho : Opens s ds w g) :
    (leaves s w).here = (afterG s ds (fun _ => g) []).here := ho.here.trans (afterG_here ds [] (fun _ => g) hi).symm

theorem blk?_afterG (hi : Issued s h src dst x) (ho : Opens s ds w g) (k : Nat) : sget? (leaves s w).d.blocks k =
    if k = s.here.blk then some (s.myBlk.take s.d.cur.stamped s.d.now s.here.gidx ds) else sget? s.d.blocks k :=
  (congrArg (sget? · k) ho.blocks).trans (afterG_blocks ds [] (fun _ => g) hi k)

theorem myBlk_afterG (hi : Issued s h src dst x) (ho : Opens s ds w g) :
    (leaves s w).myBlk = s.myBlk.take s.d.cur.stamped s.d.now s.here.gidx ds := by
  rw [State.myBlk, State.blk, ho.here, ends_blk, ho.blk, ho.blk?_afterG hi, if_pos rfl]
  rfl

theorem myBlk (hi : Issued s h src dst x) (ho : Opens s ds w g) : (leaves s w).myBlk.core = s.myBlk.core := by
  rw [ho.myBlk_afterG hi, Block.take_core]

theorem slot? (ho : Opens s ds w g) {k : Nat} (hk : k ≠ s.d.cur.slot) : (leaves s w).slot? k = s.slot? k :=
  (leaves_slot? ho.cur hk).trans (ho.others k hk)

theorem blk? (hi : Issued s h src dst x) (ho : Opens s ds w g) {k : Nat} (hk : k ≠ s.here.blk) :
    sget? (leaves s w).d.blocks k = sget? s.d.blocks k := (ho.blk?_afterG hi k).trans (if_neg hk)

/-- Memory, registers and predicates are as before, and the issuing threads go on behind the instruction. -/
theorem frame (hi : Issued s h src dst x) (ho : Opens s ds w g) :
    SameMem s (leaves s w) ∧ SameAll s (leaves s w) ∧ Advances s (leaves s w) := by
  have hn := hi.rise.imp Nat.ne_of_lt
  have hh := ho.here
  refine ⟨sameMem_of_log ho.log, ⟨⟨fun l n => ?_, fun n => ?_, fun n => ?_, fun l i => ?_⟩, fun l => ?_⟩, ?_⟩
  · rw [hh, Group.readV, ends_v]
    exact congrArg (sget · _ 0) (congrArg (fun q => q.2.1) ho.held)
  · rw [hh, Group.readS, ends_sreg]
    exact congrArg (sget · n 0) (congrArg (fun q => q.2.2.1) ho.held)
  · rw [ho.myBlk_afterG hi]
    simp [Block.readB]
  · rw [hh, ends_thread_l _ _ _ _ hn, ho.thread]
  · rw [hh, ends_thread_p _ _ _ _ hn, ho.thread]
  · have hadv : Advances s (afterG s ds (fun _ => g) []) := afterG_advances ds _ hi fun l => by simp only [ho.thread, and_self]
    exact advances_of_here (ho.here_afterG hi) hadv

theorem owed (ho : Opens s ds w g) : owedOf (leaves s w).here = owedOf g := by rw [ho.here, ends_owed]

theorem spend (ho : Opens s ds w g) : (leaves s w).here.spend = g.spend := by
  rw [ho.here]
  exact ends_keeps _ _ _ _ Group.spend (fun _ _ _ => rfl) (fun _ _ => rfl) (fun _ _ => rfl) g

theorem count (ho : Opens s ds w g) (c : Cls) : (leaves s w).here.count c = g.count c := by
  rw [ho.here]
  exact ends_keeps _ _ _ _ (Group.count · c) (fun _ _ _ => rfl) (fun _ _ => rfl) (fun _ _ => rfl) g

theorem core (ho : Opens s ds w g) : (leaves s w).here.core = g.core := by rw [ho.here, ends_core]

end Opens

/-! ### An operation enters (R43, R104, R261) -/

theorem Cls.code_inj {c e : Cls} (h : Cls.code c = Cls.code e) : c = e := by
  revert h
  cases c <;> cases e <;> decide

/-- The group of an operation that has entered. -/
def Group.enters (g : Group) (e : EOp) : Group :=
  { g with cnt := if e.slots = [] then g.cnt else sset g.cnt (Cls.code e.cls) (g.count e.cls + 1), spend := e.tok.toList ++ g.spend }

theorem Group.count_enters (g : Group) (e : EOp) (c : Cls) :
    (g.enters e).count c = g.count c + if c = e.cls ∧ e.slots ≠ [] then 1 else 0 := by
  unfold Group.enters Group.count
  dsimp only
  by_cases hs : e.slots = []
  · rw [if_pos hs, if_neg fun hc => hc.2 hs]; rfl
  · rw [if_neg hs, sget_sset]
    by_cases hc : c = e.cls
    · rw [hc, if_pos rfl, if_pos ⟨rfl, hs⟩]
    · rw [if_neg fun h => hc (Cls.code_inj h), if_neg fun h => hc h.1]; rfl

/-- Groups, names and the operations' list are all that changes as an operation enters. -/
theorem enter_keeps {β : Type} (φ : Dev → β) (hg : ∀ d v, φ { d with groups := v } = φ d) (hn : ∀ d v, φ { d with nextId := v } = φ d)
    (w : Work) (e : EOp) : φ (w.enter e).d = φ { w.d with ops := w.d.ops ++ [e] } := by
  have hcount : ∀ (ls : List Nat) (c : Cls) (v : Work), φ (v.addCount ls c).d = φ v.d := fun ls c => by
    unfold Work.addCount
    induction ls with
    | nil => exact fun _ => rfl
    | cons k ls ih => exact fun v => (ih _).trans (hg ..)
  have hadd : φ ((w.newId.2).addOp e).d = φ { w.d with ops := w.d.ops ++ [e] } := (hcount ..).trans (hn { w.d with ops := _ } _)
  unfold Work.enter
  dsimp only
  split
  · exact (hg ..).trans hadd
  · exact hadd

theorem Opens.enter {s : State} {ds : List Named} {w : Work} {g : Group} (ho : Opens s ds w g) {e : EOp}
    (hs : e.slots = [s.d.cur.slot] ∨ e.slots = []) : Opens s ds (w.enter e) (g.enters e) := by
  have hadd : Opens s ds ((w.newId.2).addOp e) { g.enters e with spend := g.spend } := by
    have h0 : Opens s ds ((w.newId.2).updDev fun d => { d with ops := d.ops ++ [e] }) g := ho.of_eq rfl rfl rfl rfl
    unfold Work.addOp Work.addCount Group.enters
    rcases hs with hs | hs
    · rw [hs, if_neg (List.cons_ne_nil _ _)]
      exact h0.updGrp (f := fun g => { g with cnt := sset g.cnt (Cls.code e.cls) (g.count e.cls + 1) }) rfl
    · rw [hs, if_pos rfl]
      exact h0
  unfold Work.enter
  dsimp only
  unfold Group.enters at hadd ⊢
  cases e.tok with
  | some t => exact hadd.updG (f := fun g => { g with spend := t :: g.spend }) rfl
  | none => exact hadd

/-! ### A step at a generation object is issued (R129) -/

theorem evictFrom_ringQ (now n : Nat) (bs : List Board) (e : Die) : (Die.evictFrom now e n bs).1.ringQ = e.ringQ := by
  induction bs generalizing e n with
  | nil => rfl
  | cons b t ih =>
    unfold Die.evictFrom
    split
    · exact ih ..
    · split
      · split
        · exact ih ..
        · exact ih ..
      · exact ih ..

theorem askBoard_ringQ (w : Work) (die obj k : Nat) : ((w.askBoard die obj).d.die k).ringQ = (w.d.die k).ringQ := by
  unfold Work.askBoard
  dsimp only
  split
  · rfl
  · unfold Work.evict
    rw [Work.die_updDie]
    split
    · next hk =>
      subst hk
      rw [Work.die_updDie, if_pos rfl]
      split
      · rfl
      · exact evictFrom_ringQ ..
    · next hk => rw [Work.die_updDie, if_neg hk]

/-- A boarding is asked for in its die alone. -/
theorem askBoard_keeps {β : Type} (φ : Dev → β) (hd : ∀ d v, φ { d with dies := v } = φ d) (w : Work) (die obj : Nat) :
    φ (w.askBoard die obj).d = φ w.d := by
  unfold Work.askBoard
  dsimp only
  split
  · rfl
  · exact (hd ..).trans (hd ..)

/-- A ring operation enters with dies, groups and cores alone. -/
theorem addRing_keeps {β : Type} (φ : Dev → β) (hd : ∀ d v, φ { d with dies := v } = φ d) (hg : ∀ d v, φ { d with groups := v } = φ d)
    (hc : ∀ d v, φ { d with cores := v } = φ d) (w : Work) (home : Nat) (op : RingOp) : φ (w.addRing home op).d = φ w.d := by
  have hask : ∀ v : Work, φ (match homeOf v.d op.obj with | .die h => v.askBoard h op.obj | _ => v).d = φ v.d := fun v => by
    split
    · exact askBoard_keeps φ hd ..
    · rfl
  unfold Work.addRing
  dsimp only
  refine (hask _).trans ?_
  split
  · split
    · exact (hc ..).trans ((hg ..).trans (hd ..))
    · exact hd ..
  · exact hd ..

theorem addRing_ringQ (w : Work) (home : Nat) (op : RingOp) :
    ((w.addRing home op).d.die home).ringQ = (w.d.die home).ringQ ++ [op] := by
  have hask : ∀ v : Work, ((match homeOf v.d op.obj with | .die h => v.askBoard h op.obj | _ => v).d.die home).ringQ =
      (v.d.die home).ringQ := fun v => by
    split
    · exact askBoard_ringQ ..
    · rfl
  have hput : ((w.updDie home fun e => { e with ringQ := e.ringQ ++ [op] }).d.die home).ringQ = (w.d.die home).ringQ ++ [op] := by
    rw [Work.die_updDie, if_pos rfl]
  unfold Work.addRing
  dsimp only
  refine (hask _).trans ?_
  split
  · split
    · exact hput
    · exact hput
  · exact hput

theorem Opens.addRing {s : State} {ds : List Named} {w : Work} {g : Group} (ho : Opens s ds w g) (home : Nat) {op : RingOp}
    (hop : op.slot = some s.d.cur.slot) : ∃ a, Opens s ds (w.addRing home op) { g with acks := a } := by
  have hput : Opens s ds (w.updDie home fun e => { e with ringQ := e.ringQ ++ [op] }) g := ho.of_eq rfl rfl rfl rfl
  have hask : ∀ (v : Work) (g : Group), Opens s ds v g →
      Opens s ds (match homeOf v.d op.obj with | .die h => v.askBoard h op.obj | _ => v) g := fun v g hv => by
    split
    · refine hv.of_eq ?_ (askBoard_keeps Dev.cur (fun _ _ => rfl) ..) (askBoard_keeps Dev.groups (fun _ _ => rfl) ..)
        (askBoard_keeps Dev.blocks (fun _ _ => rfl) ..)
      unfold Work.askBoard; dsimp only; split <;> rfl
    · exact hv
  unfold Work.addRing
  rw [hop]
  dsimp only
  by_cases hr : op.remote = true
  · rw [if_pos hr]
    have hack := hput.updGrp (f := fun g => { g with acks := g.acks + 1 }) rfl
    exact ⟨g.acks + 1, hask _ _ (hack.of_eq rfl rfl rfl rfl)⟩
  · rw [if_neg hr]
    exact ⟨g.acks, hask _ _ hput⟩

/-- A step is about to be asked for: an acquiring one ends the group's epoch and is noted (R102). -/
def Work.asksGen (w : Work) (acq : Bool) : Work :=
  let r := (w.openSync acq).newId
  if acq then r.2.updG fun g => { g with acq := g.acq ++ [r.1] } else r.2

theorem asksGen_keeps {β : Type} (φ : Dev → β) (hg : ∀ d v, φ { d with groups := v } = φ d) (hn : ∀ d v, φ { d with nextId := v } = φ d)
    (w : Work) (acq : Bool) : φ (w.asksGen acq).d = φ w.d := by
  cases acq with
  | false => exact hn ..
  | true => exact (hg ..).trans ((hn ..).trans (hg ..))

theorem Opens.asksGen {s : State} {ds : List Named} {w : Work} {g : Group} (ho : Opens s ds w g) (acq : Bool) :
    ∃ a e v, Opens s ds (w.asksGen acq) { g with acq := a, ep := e, vc := v } := by
  cases acq with
  | false => exact ⟨g.acq, g.ep, g.vc, ho.of_eq rfl rfl rfl rfl⟩
  | true =>
    have hclose : Opens s ds (w.closeEp w.slot) _ := ho.updG (f := fun g => { g with
      ep := g.ep + 1, vc := sset g.vc (w.agentOf w.slot).uid (max (g.ep + 1) (sget g.vc (w.agentOf w.slot).uid 0)) }) rfl
    have hid : Opens s ds (w.closeEp w.slot).newId.2 _ := hclose.of_eq rfl rfl rfl rfl
    exact ⟨_, _, _, hid.updG (f := fun g => { g with acq := g.acq ++ [(w.closeEp w.slot).d.nextId] }) rfl⟩

/-- The step waits as one operation on the object, at its die. -/
theorem genStep_eq (w : Work) (gpa k : Nat) (acq : Bool) : ∃ r : RingOp, w.genStep gpa k acq =
    (w.asksGen acq).addRing ((w.asksGen acq).ringDie (w.asksGen acq).dieNo gpa) r ∧
    r.slot = some w.slot ∧ r.obj = objOf gpa ∧ r.act = .gen k := by
  refine ⟨_, rfl, ?_, rfl, rfl⟩
  exact congrArg some (asksGen_keeps (fun d => d.cur.slot) (fun _ _ => rfl) (fun _ _ => rfl) w acq)

/-- An instruction whose effect hands operation `e` over and asks for its step. -/
theorem steps_of_opens {i : Instr} {s : State} {h : Hdr} {src dst : List Named} {x : List Nat} {ds : List Named} {w : Work} {g : Group}
    {gpa : Nat} {new : List (Nat × List Reg × Payload)} {P : EOp → Prop} {e : EOp} {acq : Bool} (hi : Issued s h src dst x)
    (ho : Opens s ds w g) (hops : w.d.ops = s.d.ops) (hdies : w.d.dies = s.d.dies) (hpkg : w.d.pkg = s.d.pkg)
    (hcnt : g.cnt = s.here.cnt) (hspend : g.spend = s.here.spend) (howed : owedOf g = owedOf s.here ++ new)
    (hs : e.slots = [s.d.cur.slot] ∨ e.slots = []) (hP : P e)
    (hexec : exec i s = .next (leaves s ((w.enter e).genStep gpa e.id acq))) : Steps i s gpa new P := by
  obtain ⟨r, hr, hslot, hobj, hact⟩ := genStep_eq (w.enter e) gpa e.id acq
  have he := ho.enter hs
  obtain ⟨a, ep, vc, hask⟩ := he.asksGen acq
  obtain ⟨k, hring⟩ := hask.addRing (((w.enter e).asksGen acq).ringDie ((w.enter e).asksGen acq).dieNo gpa)
    (hslot.trans (congrArg some he.slot))
  have hkeep : ∀ {β : Type} (φ : Dev → β), (∀ d v, φ { d with groups := v } = φ d) → (∀ d v, φ { d with nextId := v } = φ d) →
      φ ((w.enter e).asksGen acq).d = φ { w.d with ops := w.d.ops ++ [e] } := fun φ hg hn =>
    (asksGen_keeps φ hg hn ..).trans (enter_keeps φ hg hn ..)
  have hdie : ((w.enter e).asksGen acq).ringDie ((w.enter e).asksGen acq).dieNo gpa =
      (begin_ s).ringDie (slotDie s.d.cur.slot) gpa := by
    unfold Work.ringDie
    rw [homeOf_congr (d := s.d) ((hkeep (fun d => d.pkg.podId) (fun _ _ => rfl) fun _ _ => rfl).trans (congrArg Pkg.podId hpkg)),
      show ((w.enter e).asksGen acq).dieNo = slotDie s.d.cur.slot from congrArg slotDie hask.slot]
    rfl
  rw [hr] at hexec
  obtain ⟨hmem, hall, hadv⟩ := hring.frame hi
  refine ⟨_, hexec, e, hP, hmem, hall, hadv, ?_, ?_, ?_, fun c => ?_, fun k hk => hring.slot? hk, hring.myBlk hi, r, ?_, ?_, hobj, hact⟩
  · calc (leaves s _).d.ops
        _ = ((w.enter e).asksGen acq).d.ops := addRing_keeps Dev.ops (fun _ _ => rfl) (fun _ _ => rfl) (fun _ _ => rfl) ..
        _ = w.d.ops ++ [e] := hkeep Dev.ops (fun _ _ => rfl) fun _ _ => rfl
        _ = s.d.ops ++ [e] := by rw [hops]
  · rw [hring.owed]; exact howed
  · rw [hring.spend, ← hspend]; rfl
  · rw [hring.count]
    refine (g.count_enters e c).trans ?_
    rw [Group.count, hcnt]; rfl
  · rw [← hdie]
    calc ((leaves s _).d.die _).ringQ
        _ = (((w.enter e).asksGen acq).d.die _).ringQ ++ [r] := addRing_ringQ ..
        _ = (s.d.die _).ringQ ++ [r] := by
          rw [Dev.die, hkeep Dev.dies (fun _ _ => rfl) fun _ _ => rfl, hdies]; rfl
  · exact hslot.trans (congrArg some he.slot)

/-! ### Results are owed (R177) -/

/-- One result is owed, with a window in each lane of `wins`. -/
def Work.oweOne (w : Work) (wins : List (Nat × Nat)) (d : Dst) (c : Nat) (pay : Nat → Payload) (l : Nat) : Work :=
  let r := w.newId
  r.2.updG fun g => { g with owed := g.owed ++ [{ id := r.1, wins := wins, dst := g.dstRegs d c l, pay := pay l }] }

theorem oweOne_keeps {β : Type} (φ : Dev → β) (hg : ∀ d v, φ { d with groups := v } = φ d) (hn : ∀ d v, φ { d with nextId := v } = φ d)
    (w : Work) (wins : List (Nat × Nat)) (d : Dst) (c : Nat) (pay : Nat → Payload) (l : Nat) :
    φ (w.oweOne wins d c pay l).d = φ w.d := (hg ..).trans (hn ..)

/-- Results are owed with groups and names alone. -/
theorem owe_keeps {β : Type} (φ : Dev → β) (hg : ∀ d v, φ { d with groups := v } = φ d) (hn : ∀ d v, φ { d with nextId := v } = φ d)
    (w : Work) (h : Hdr) (x : List Nat) (d : Dst) (c : Nat) (pay : Nat → Payload) : φ (w.owe h x d c pay).d = φ w.d := by
  have hlanes : ∀ (ls : List Nat) (v : Work), φ (ls.foldl (fun v l => v.oweOne [(l, h.window)] d c pay l) v).d = φ v.d := fun ls => by
    induction ls with
    | nil => exact fun _ => rfl
    | cons l ls ih => exact fun v => (ih _).trans (oweOne_keeps φ hg hn ..)
  have hone : φ (match x with | [] => w | l :: _ => w.oweOne (w.d.cur.lanes.map fun l => (l, h.window)) d c pay l).d = φ w.d := by
    cases x with
    | nil => rfl
    | cons l _ => exact oweOne_keeps φ hg hn ..
  cases d with
  | none => rfl
  | s _ => exact hone
  | b _ => exact hone
  | v _ => exact hlanes x w
  | q _ => exact hlanes x w

namespace Opens

variable {s : State} {ds : List Named} {w : Work} {g : Group}

theorem dstRegs (ho : Opens s ds w g) (d : Dst) (c l : Nat) : g.dstRegs d c l = s.here.dstRegs d c l := by
  cases d with
  | q n => unfold Group.dstRegs; rw [ho.thread]
  | _ => rfl

theorem oweOne (ho : Opens s ds w g) (wins : List (Nat × Nat)) (d : Dst) (c : Nat) (pay : Nat → Payload) (l : Nat) :
    Opens s ds (w.oweOne wins d c pay l) { g with
      owed := g.owed ++ [{ id := w.d.nextId, wins := wins, dst := s.here.dstRegs d c l, pay := pay l }] } := by
  have hid : Opens s ds w.newId.2 g := ho.of_eq rfl rfl rfl rfl
  rw [← ho.dstRegs d c l]
  exact hid.updG (f := fun g => { g with owed := g.owed ++ [⟨w.d.nextId, wins, g.dstRegs d c l, pay l⟩] }) rfl

theorem oweLanes {win : Nat} {d : Dst} {c : Nat} {pay : Nat → Payload} (ls : List Nat) : ∀ {w : Work} {g : Group}, Opens s ds w g →
    ∃ os, Opens s ds (ls.foldl (fun v l => v.oweOne [(l, win)] d c pay l) w) { g with owed := g.owed ++ os } ∧
      (os.map fun o => (o.id, o.dst, o.pay)) = (ls.zipIdx w.d.nextId).map fun p => (p.2, s.here.dstRegs d c p.1, pay p.1) := by
  induction ls with
  | nil => exact fun {w g} ho => ⟨[], by simpa using ho, rfl⟩
  | cons l ls ih =>
    intro w g ho
    obtain ⟨os, hos, hmap⟩ := ih (ho.oweOne [(l, win)] d c pay l)
    refine ⟨_ :: os, by simpa using hos, ?_⟩
    rw [List.map_cons, hmap]
    rfl

/-- What the executing lanes then are owed. -/
theorem owe (ho : Opens s ds w g) (hid : w.d.nextId = s.d.nextId) (h : Hdr) (x : List Nat) (d : Dst) (c : Nat) (pay : Nat → Payload) :
    ∃ os, Opens s ds (w.owe h x d c pay) { g with owed := g.owed ++ os } ∧
      (os.map fun o => (o.id, o.dst, o.pay)) = owes s x d c pay := by
  have hlanes : ∃ os, Opens s ds (x.foldl (fun v l => v.oweOne [(l, h.window)] d c pay l) w) { g with owed := g.owed ++ os } ∧
      (os.map fun o => (o.id, o.dst, o.pay)) = x.zipIdx.map fun p => (s.d.nextId + p.2, s.here.dstRegs d c p.1, pay p.1) := by
    obtain ⟨os, hos, hmap⟩ := oweLanes x ho
    refine ⟨os, hos, hmap.trans ?_⟩
    rw [hid, List.zipIdx_eq_map_add, List.map_map]
    rfl
  have hone : ∃ os, Opens s ds (match x with | [] => w | l :: _ => w.oweOne (w.d.cur.lanes.map fun l => (l, h.window)) d c pay l)
      { g with owed := g.owed ++ os } ∧
      (os.map fun o => (o.id, o.dst, o.pay)) = (x.take 1).map fun l => (s.d.nextId, s.here.dstRegs d c l, pay l) := by
    cases x with
    | nil => exact ⟨[], by simpa using ho, rfl⟩
    | cons l _ => exact ⟨_, ho.oweOne _ d c pay l, by rw [hid]; rfl⟩
  cases d with
  | none => exact ⟨[], by simpa [Work.owe] using ho, rfl⟩
  | s _ => exact hone
  | b _ => exact hone
  | v _ => exact hlanes
  | q _ => exact hlanes

end Opens

end Sys2Proof.Machine
end

section
/-! PROOFS. Pergola instructions as they issue (O48): commands, publication, statistics and traces, which are steps at a generation
object. -/

namespace Sys2Proof.Machine

section Ready

variable {s : State} {h : Hdr} {src dst : List Named} {x : List Nat} (ds : List Named)

/-! ### What an engine and the ring wait for -/

theorem startGroup_acq (s : State) : (startGroup s).acq = s.here.acq := by unfold startGroup; split <;> rfl
theorem startGroup_cnt (s : State) : (startGroup s).cnt = s.here.cnt := by unfold startGroup; split <;> rfl
theorem startGroup_spend (s : State) : (startGroup s).spend = s.here.spend := by unfold startGroup; split <;> rfl

theorem fenceOk_atIssue (hi : Issued s h src dst x) {sc : Scope} (hf : FenceMet s sc) :
    (atIssue s ds).fenceOk s.d.cur.slot sc = true := fenceOk_of_met hi hf

theorem engineReadyAt_atIssue (hi : Issued s h src dst x) {d e : Nat} (hon : EngineOnAt s d e) :
    (atIssue s ds).engineReadyAt d e = true := by
  unfold Work.engineReadyAt Work.accessesDone
  rw [atIssue_g ds hi, startGroup_acq, hon.1.2.2.1, atIssue_slot, fenceOk_atIssue ds hi hon.1]
  exact hon.2

theorem engineReady_atIssue (hi : Issued s h src dst x) {e : Nat} (hon : EngineOn s e) : (atIssue s ds).engineReady e = true :=
  engineReadyAt_atIssue ds hi hon

theorem ringReady_atIssue (hi : Issued s h src dst x) (hr : RingRoom s) {ord : Order} {sc : Scope}
    (hrel : isRel ord = true → FenceMet s sc) : (atIssue s ds).ringReady ord sc = true := by
  have hroom : (atIssue s ds).stopHolds (atIssue s ds).coreNo < 64 := hr.2
  unfold Work.ringReady
  rw [atIssue_g ds hi, startGroup_acq, hr.1, decide_eq_true hroom]
  cases ho : isRel ord with
  | false => rfl
  | true => rw [atIssue_slot, fenceOk_atIssue ds hi (hrel ho)]; rfl

theorem pgDie_atIssue (s : State) (p : PDesc) : (atIssue s ds).pgDie p = (begin_ s).pgDie p := rfl

theorem descVa_atIssue (hi : Issued s h src dst x) (y : List Nat) (a : Opnd) :
    (atIssue s ds).descVa y a = ((s.op64 (y.headD 0) a).toNat : Int) := by
  unfold Work.descVa
  rw [atIssue_op64 ds hi]
  rfl

end Ready

section Steps

variable {s : State} {h : Hdr} {x : List Nat} {a : Opnd} {tk : BitVec 6} {p : PDesc} {src dst : List Named}

theorem Opens.newOp {ds : List Named} {w : Work} {g : Group} (hi : Issued s h src dst x) (ho : Opens s ds w g)
    (hid : w.d.nextId = s.d.nextId) (cls : Cls) (kind : EKind) : w.newOp cls kind = s.newOp cls kind := by
  unfold State.newOp Work.newOp
  rw [ho.g_eq, begin_g hi, ho.blk, ho.slot, hid]
  rfl

theorem newOp_atIssue (hi : Issued s h src dst x) (ds : List Named) (cls : Cls) (kind : EKind) :
    (atIssue s ds).newOp cls kind = s.newOp cls kind := (Opens.atIssue hi).newOp hi rfl cls kind

theorem Opens.fenceDone {ds : List Named} {w : Work} {g : Group} (ho : Opens s ds w g) (sc : Scope) :
    ∃ y e v, Opens s ds (w.fenceDone s.d.cur.slot sc) { g with sync := y, ep := e, vc := v } := by
  obtain ⟨y, e, v, hg⟩ := fenceDone_grp?_same w sc ho.grp
  have hk : ∀ {β : Type} (φ : Dev → β), (∀ d v, φ { d with groups := v } = φ d) → (∀ d v, φ { d with cores := v } = φ d) →
      φ (w.fenceDone s.d.cur.slot sc).d = φ w.d := fun φ hg hc => fenceDone_keeps φ hg hc w s.d.cur.slot sc
  refine ⟨y, e, v, ?_, (hk Dev.cur (fun _ _ => rfl) fun _ _ => rfl).trans ho.cur,
    (hk Dev.blocks (fun _ _ => rfl) fun _ _ => rfl).trans ho.blocks, hg, fun k hk => ?_, ho.held⟩
  · unfold Work.fenceDone
    dsimp only
    split <;> exact ho.log
  · rw [fenceDone_grp?_ne w sc hk, ho.others k hk]

/-- What a structure is looked up by as the effect starts is what the state is asked for. -/
theorem structAt_issued (hi : Issued s h src dst x) {check : Bool} {arena : Option XKind} {prims : Bool} {r : Option PDesc}
    (hst : (begin_ s).structAt ((s.op64 (x.headD 0) a).toNat : Int) (x.headD 0) check arena prims = .ok r) :
    (atIssue s dst).structAt ((atIssue s dst).descVa x a) (x.headD 0) check arena prims = .ok r := by
  rw [descVa_atIssue dst hi]
  exact structAt_atIssue dst hi hst

/-- An operation of the Pergola class that carries the token and waits for its step. -/
def State.pgOp (s : State) (tk : BitVec 6) (kind : EKind) : EOp := { s.newOp .pg kind with tok := some tk.toNat, waits := true }

/-- An effect that hands an operation over as it starts, and asks for its step. -/
theorem steps_atIssue {i : Instr} {e : EOp} {P : EOp → Prop} (hi : Issued s h src dst x) {gpa : Nat}
    (hs : e.slots = [s.d.cur.slot]) (hP : P e)
    (hexec : exec i s = .next (leaves s (((atIssue s dst).enter e).genStep gpa e.id false))) : Steps i s gpa [] P :=
  steps_of_opens hi (Opens.atIssue hi) rfl rfl rfl (startGroup_cnt s) (startGroup_spend s)
    (startGroup_owed.trans (List.append_nil _).symm) (.inl hs) hP hexec

theorem buildOp_steps (hi : Issued s h (a.names 2) [.s tk.toNat] x) (hr : RingRoom s)
    (hon : EngineOnAt s ((begin_ s).pgDie p) ePergola) {i : Instr} {cmd : Nat} (hexec : exec i s = buildOp s h tk a cmd)
    (hst : (begin_ s).structAt ((s.op64 (x.headD 0) a).toNat : Int) (x.headD 0) true (some .engW) (cmd != 2) = .ok (some p)) :
    Steps i s p.gpa [] fun e => e = s.pgOp tk (.pgBuild cmd p false none) := by
  refine steps_atIssue (e := s.pgOp tk (.pgBuild cmd p false none)) hi rfl rfl (hexec.trans ?_)
  refine issue_ok hi (js := []) ?_
  dsimp only
  rw [structAt_issued hi hst, State.pgOp, ← newOp_atIssue hi [.s tk.toNat]]
  dsimp only
  rw [ringReady_atIssue _ hi hr (fun h => by cases h), pgDie_atIssue, engineReadyAt_atIssue _ hi hon]
  rfl

/-- An operation that enters as its effect starts, or behind results that come to be owed. -/
theorem handed_of_opens {ds : List Named} {w : Work} {g : Group} {e : EOp} {new : List (Nat × List Reg × Payload)}
    (hi : Issued s h src dst x) (ho : Opens s ds w g) (hops : w.d.ops = s.d.ops) (hparts : w.d.parts = s.d.parts)
    (hlaunches : w.d.launches = s.d.launches) (hcore : g.core = s.here.core) (howed : owedOf g = owedOf s.here ++ new)
    (hs : e.slots = [s.d.cur.slot]) : Handed s (leaves s (w.enter e)) e new := by
  have he := ho.enter (.inl hs)
  have hcnt : g.cnt = s.here.cnt := (congrArg Group.cnt hcore :)
  have hspend : g.spend = s.here.spend := (congrArg Group.spend hcore :)
  obtain ⟨hmem, hall, hadv⟩ := he.frame hi
  have hkeep : ∀ {β : Type} (φ : Dev → β), (∀ d v, φ { d with groups := v } = φ d) → (∀ d v, φ { d with nextId := v } = φ d) →
      φ (w.enter e).d = φ { w.d with ops := w.d.ops ++ [e] } := fun φ hg hn => enter_keeps φ hg hn ..
  refine ⟨hmem, hall, hadv, ?_, fun c => ?_, ?_, ?_, ?_, fun k hk => he.slot? hk, fun k hk => he.blk? hi hk, ?_, ?_⟩
  · exact (hkeep Dev.ops (fun _ _ => rfl) fun _ _ => rfl).trans (congrArg (· ++ [e]) hops)
  · rw [he.count, g.count_enters, hs, Group.count, hcnt]
    simp [Group.count]
  · rw [he.spend, ← hspend]; rfl
  · rw [he.owed]; exact howed
  · rw [he.core]
    exact congrArg (fun g : Group => { g with cnt := [], spend := [] }) hcore
  · exact (hkeep Dev.parts (fun _ _ => rfl) fun _ _ => rfl).trans hparts
  · exact (hkeep Dev.launches (fun _ _ => rfl) fun _ _ => rfl).trans hlaunches

/-- An effect that hands an operation over as it starts, and does no more. -/
theorem enters_atIssue {i : Instr} {e : EOp} (hi : Issued s h src dst x) (hs : e.slots = [s.d.cur.slot])
    (hexec : exec i s = .next (leaves s ((atIssue s dst).enter e))) : Enters i s e := by
  have hat := Opens.atIssue (ds := dst) hi
  refine ⟨_, hexec, ⟨handed_of_opens hi hat rfl rfl rfl startGroup_core ?_ hs, ?_⟩, (hat.enter (.inl hs)).myBlk hi, ?_⟩
  · exact startGroup_owed.trans (List.append_nil _).symm
  · exact enter_keeps Dev.cores (fun _ _ => rfl) (fun _ _ => rfl) ..
  · exact enter_keeps Dev.dies (fun _ _ => rfl) (fun _ _ => rfl) ..

theorem buildOp_refused (hi : Issued s h (a.names 2) [.s tk.toNat] x) (hr : RingRoom s) (hon : EngineOn s ePergola) {i : Instr}
    {cmd : Nat} (hexec : exec i s = buildOp s h tk a cmd)
    (hst : (begin_ s).structAt ((s.op64 (x.headD 0) a).toNat : Int) (x.headD 0) true (some .engW) (cmd != 2) = .ok none) :
    Enters i s { s.newOp .pg .plain with tok := some tk.toNat, word := 0x120 } := by
  refine enters_atIssue hi rfl (hexec.trans (issue_ok hi (js := []) ?_))
  dsimp only
  rw [structAt_issued hi hst, ← newOp_atIssue hi [.s tk.toNat]]
  dsimp only
  rw [ringReady_atIssue _ hi hr (fun h => by cases h), engineReady_atIssue _ hi hon]
  rfl

theorem pgPublish_steps (hi : Issued s h (a.names 2) [.s tk.toNat] x) (hr : RingRoom s)
    (hon : EngineOnAt s ((begin_ s).pgDie p) ePergola) (hf : FenceMet s .pkg)
    (hst : (begin_ s).structAt ((s.op64 (x.headD 0) a).toNat : Int) (x.headD 0) false (some .engR) false = .ok (some p)) :
    Steps (.pgPublish h tk a) s p.gpa [] fun e => e = s.pgOp tk (.pgPublish p) := by
  have hat := Opens.atIssue (ds := [.s tk.toNat]) hi
  obtain ⟨y, ep, vc, ho⟩ := hat.fenceDone .pkg
  have hk : ∀ {β : Type} (φ : Dev → β), (∀ d v, φ { d with groups := v } = φ d) → (∀ d v, φ { d with cores := v } = φ d) →
      φ ((atIssue s [.s tk.toNat]).fenceDone s.d.cur.slot .pkg).d = φ (atIssue s [.s tk.toNat]).d := fun φ hg hc =>
    fenceDone_keeps φ hg hc ..
  refine steps_of_opens (e := s.pgOp tk (.pgPublish p)) (acq := false) hi ho (hk Dev.ops (fun _ _ => rfl) fun _ _ => rfl)
    (hk Dev.dies (fun _ _ => rfl) fun _ _ => rfl) (hk Dev.pkg (fun _ _ => rfl) fun _ _ => rfl) ?_ ?_ ?_ (.inl rfl) rfl ?_
  · exact startGroup_cnt s
  · exact startGroup_spend s
  · exact startGroup_owed.trans (List.append_nil _).symm
  · refine issue_ok hi (js := []) ?_
    dsimp only
    rw [structAt_issued hi hst, State.pgOp, ← ho.newOp hi (hk Dev.nextId (fun _ _ => rfl) fun _ _ => rfl)]
    dsimp only
    rw [ringReady_atIssue _ hi hr (fun _ => hf), pgDie_atIssue, engineReadyAt_atIssue _ hi hon]
    rfl

/-- An effect that owes results, hands an operation over and asks for its step. -/
theorem steps_owing {i : Instr} {d : Dst} {c : Nat} {e : EOp} {P : EOp → Prop} (hi : Issued s h src dst x) {gpa : Nat}
    (hs : e.slots = [s.d.cur.slot] ∨ e.slots = []) (hP : P e)
    (hexec : exec i s =
      .next (leaves s ((((atIssue s dst).owe h x d c fun _ => .pend).enter e).genStep gpa e.id true))) :
    Steps i s gpa (owes s x d c fun _ => .pend) P := by
  obtain ⟨os, ho, hmap⟩ := (Opens.atIssue (ds := dst) hi).owe rfl h x d c fun _ => .pend
  have hk : ∀ {β : Type} (φ : Dev → β), (∀ d v, φ { d with groups := v } = φ d) → (∀ d v, φ { d with nextId := v } = φ d) →
      φ ((atIssue s dst).owe h x d c fun _ => .pend).d = φ (atIssue s dst).d := fun φ hg hn => owe_keeps φ hg hn ..
  refine steps_of_opens hi ho (hk Dev.ops (fun _ _ => rfl) fun _ _ => rfl) (hk Dev.dies (fun _ _ => rfl) fun _ _ => rfl)
    (hk Dev.pkg (fun _ _ => rfl) fun _ _ => rfl) (startGroup_cnt s) (startGroup_spend s) ?_ hs hP hexec
  rw [owedOf, List.map_append, hmap]
  exact congrArg (· ++ _) startGroup_owed

theorem pgStat_steps {d : Dst} (hi : Issued s h (a.names 2) (d.names 8) x) (hr : RingRoom s)
    (hon : EngineOnAt s ((begin_ s).pgDie p) ePergola)
    (hst : (begin_ s).structAt ((s.op64 (x.headD 0) a).toNat : Int) (x.headD 0) false (some .engR) false = .ok (some p)) :
    Steps (.pgStat h false d a) s p.gpa (owes s x d 8 fun _ => .pend) fun e =>
      e.slots = [] ∧ e.tok = none ∧ ∃ o, e.kind = .pgStat p o := by
  refine steps_owing (e := ((atIssue s (d.names 8)).owe h x d 8 fun _ => .pend).silentOp .pg (.pgStat p
    (x.filterMap fun l => ((atIssue s (d.names 8)).owe h x d 8 fun _ => .pend).owedOf s.d.nextId l false x))) hi (.inr rfl)
    ⟨rfl, rfl, _, rfl⟩ (issue_ok hi (js := []) ?_)
  dsimp only
  rw [structAt_issued hi hst, if_neg Bool.false_ne_true]
  dsimp only
  rw [ringReady_atIssue _ hi hr (fun h => by cases h), pgDie_atIssue, engineReadyAt_atIssue _ hi hon]
  rfl

/-- The rays of a trace, read in `w`, whose results are owed in `v`. -/
def raysOf (w v : Work) (x : List Nat) (ray : Opnd) : List Ray :=
  x.map fun l =>
    { lane := l, helper := (w.g.thread l).helper, vals := (List.range 8).map fun j => (w.opRun l ray j).toNat
      owed := v.owedOf w.d.nextId l false x }

/-- The operation that it hands over. -/
def traceOp (w v : Work) (any : Bool) (p : PDesc) (x : List Nat) (ray : Opnd) (tk : BitVec 6) : EOp :=
  { v.newOp .pg (.trace any p (raysOf w v x ray) none) with tok := some tk.toNat, waits := true }

theorem trace_steps {any : Bool} {d : Dst} {ray : Opnd} {c : Nat} {dst : List Named} (hc : c = if any then 1 else 5)
    (hdst : dst = d.names c ++ [.s tk.toNat]) (hi : Issued s h (a.names 2 ++ ray.names 8) dst x) (hr : RingRoom s)
    (hon : EngineOnAt s ((begin_ s).pgDie p) ePergola)
    (hst : (begin_ s).structAt ((s.op64 (x.headD 0) a).toNat : Int) (x.headD 0) false (some .engR) false = .ok (some p)) :
    Steps (.trace h any d tk a ray) s p.gpa (owes s x d c fun _ => .pend) fun e =>
      e.tok = some tk.toNat ∧ e.cls = .pg ∧ e.waits = true ∧ ∃ rs, e.kind = .trace any p rs none ∧
        rs.map (fun r => (r.lane, r.helper, r.vals)) = x.map fun k =>
          (k, (s.here.thread k).helper, (List.range 8).map fun j => ((begin_ s).opRun k ray j).toNat) := by
  refine steps_owing (e := traceOp (atIssue s dst) ((atIssue s dst).owe h x d c fun _ => .pend) any p x ray tk) hi (.inl ?_)
    ⟨rfl, rfl, rfl, _, rfl, ?_⟩ ?_
  · exact congrArg (fun k => [k]) (owe_keeps (fun d => d.cur.slot) (fun _ _ => rfl) (fun _ _ => rfl) ..)
  · simp only [raysOf, List.map_map, Function.comp_def, atIssue_thread _ hi, begin_g hi, atIssue_opRun _ hi]
  · subst hc hdst
    refine issue_ok hi (js := []) ?_
    dsimp only
    rw [structAt_issued hi hst]
    dsimp only
    rw [ringReady_atIssue _ hi hr (fun h => by cases h), pgDie_atIssue, engineReadyAt_atIssue _ hi hon]
    rfl

end Steps
end Sys2Proof.Machine
end

section
/-! PROOFS. pg.stat.hdr as it issues (O48): the words of a header that an engine reads. -/

namespace Sys2Proof.Machine

/-! ### The bytes of an object (R117) -/

/-- All bytes of an object have its slot. -/
theorem rideOf_object {d : Dev} {pa i : Nat} (hal : pa % 64 = 0) (hi : i < 64) : d.rideOf (pa + i) = d.rideOf pa := by
  have hobj : objOf (pa + i) = objOf pa := by unfold objOf; omega
  have hsec : (pa + i) / 128 = pa / 128 := by omega
  unfold Dev.rideOf
  rw [hobj]
  cases hp : homeOf d pa with
  | die k => rw [homeOf_sector hsec.symm hp]
  | _ =>
    cases hq : homeOf d (pa + i) with
    | die k => rw [homeOf_sector hsec hq] at hp; cases hp
    | _ => rfl

/-- An object that rides lies in the address space (Table 23.2). -/
theorem rideOf_low {d : Dev} {pa : Nat} {r : Nat × Nat × RSlot} (h : d.rideOf pa = some r) : pa < 2 ^ 57 := by
  unfold Dev.rideOf at h
  cases hp : homeOf d pa with
  | die k => exact (homeOf_die_iff.mp hp).1.trans (by decide)
  | _ => rw [hp] at h; cases h

/-- The bytes of an object, as the number that they write. -/
theorem bytesNat_physBytes (w : Work) {pa : Nat} (hal : pa % 64 = 0) : bytesNat (w.physBytes pa 64) % 256 ^ 64 = w.objData pa % 256 ^ 64 := by
  unfold Work.physBytes Work.objData
  cases hr : w.d.rideOf pa with
  | none =>
    have hbyte : ∀ i ∈ List.range 64, w.physByte (pa + i) = w.byte (pa + i) := fun i hi =>
      physByte_still ((rideOf_object hal (List.mem_range.mp hi)).trans hr)
    rw [List.map_congr_left hbyte, bytesNat_load]
  | some q =>
    obtain ⟨die, k, r⟩ := q
    have hbyte : ∀ i ∈ List.range 64, w.physByte (pa + i) = BitVec.ofNat 8 (r.data / 2 ^ (8 * i)) := fun i hi => by
      have hlt := List.mem_range.mp hi
      have hri := (rideOf_object hal hlt).trans hr
      unfold Work.physByte payGet
      rw [if_pos (rideOf_low hri), hri, show (pa + i) % 64 = i by omega]
      dsimp only
      rw [← BitVec.toNat_inj, BitVec.toNat_ofNat, BitVec.toNat_ofNat, Nat.mod_mod_of_dvd _ (by decide)]
    rw [List.map_congr_left hbyte]
    exact (congrArg (· % 256 ^ 64) (bytesNat_natBytes 64 r.data)).trans (Nat.mod_mod ..)

/-- What lies in a core's write path lies in an entry of the cores. -/
theorem exists_of_mem_path {d : Dev} {c : Nat} {q : WEntry} (h : q ∈ (d.core c).path) : ∃ e ∈ d.cores, q ∈ e.2.path := by
  unfold Dev.core sget at h
  cases hc : sget? d.cores c with
  | none => rw [hc] at h; cases h
  | some v => rw [hc] at h; exact ⟨(c, v), mem_of_sget? hc, h⟩

/-- A byte that no pending write meets is read as it lies (R89). -/
theorem engineByte_of_noRace {w : Work} {k : Nat} (h : ∀ e ∈ w.d.cores, ∀ q ∈ e.2.path, k < q.pa ∨ q.pa + q.n ≤ k) :
    w.engineByte k = w.physByte k := by
  have hr : w.raceable [k] = [] := by
    unfold Work.raceable
    rw [List.flatMap_eq_nil_iff]
    intro c hc
    rw [List.filterMap_eq_nil_iff]
    intro i _
    have hwith : w.raceWith c.1 i [k] = none := by
      unfold Work.raceWith
      cases hq : (w.d.core c.1).path[i]? with
      | none => rfl
      | some q =>
        obtain ⟨e, he, hqe⟩ := exists_of_mem_path (List.mem_of_getElem? hq)
        have hmiss : ([k].any fun a => decide (q.pa ≤ a) && decide (a < q.pa + q.n)) = false := by
          have := h e he q hqe
          simp only [List.any_cons, List.any_nil, Bool.or_false, Bool.and_eq_false_iff, decide_eq_false_iff_not]
          omega
        rw [Option.bind_some, hmiss, Bool.and_false]
        rfl
    rw [hwith]
    rfl
  unfold Work.engineByte
  rw [hr]
  rfl

theorem bits_mod (x lo n : Nat) (h : lo + n ≤ 512) : bits (x % 256 ^ 64) lo n = bits x lo n := by
  obtain ⟨k, hk⟩ := Nat.exists_eq_add_of_le h
  unfold bits
  rw [← pow_8, show 8 * 64 = lo + (n + k) by omega, Nat.pow_add, Nat.mod_mul_right_div_self, Nat.pow_add,
    Nat.mod_mul_right_mod]

/-! ### The words of a header (R297) -/

/-- Headers that works know alike. -/
theorem SameReads.hdrKnown {w v : Work} (h : SameReads w v) (pa : Nat) : v.hdrKnown pa = w.hdrKnown pa := by
  have hobj : ∀ a, v.objData a = w.objData a := fun a => by
    unfold Work.objData
    rw [h.rideOf, h.load]
  have hspoilt : ∀ ps a n, v.spoilt ps a n = w.spoilt ps a n := fun ps a n => by
    unfold Work.spoilt
    rw [h.pkg]
  unfold Work.hdrKnown
  rw [h.dies, h.ops]
  simp only [hobj, hspoilt]

theorem hdrWords_length (w : Work) (pa l : Nat) : (w.hdrWords pa l).length = 8 := by
  unfold Work.hdrWords
  split
  · rfl
  · rw [List.length_map, List.length_range]

/-- The words of a known header are fields of the object there. -/
theorem statWords_engineBytes {w : Work} {pa : Nat} (hal : pa % 64 = 0)
    (hrace : ∀ i < 64, ∀ e ∈ w.d.cores, ∀ q ∈ e.2.path, pa + i < q.pa ∨ q.pa + q.n ≤ pa + i) :
    statWords (bytesNat (w.engineBytes pa 64)) = statWords (w.objData pa) := by
  have hbytes : w.engineBytes pa 64 = w.physBytes pa 64 :=
    List.map_congr_left fun i hi => engineByte_of_noRace (hrace i (List.mem_range.mp hi))
  have hfield : ∀ lo n, lo + n ≤ 512 → bits (bytesNat (w.engineBytes pa 64)) lo n = bits (w.objData pa) lo n := fun lo n hn => by
    rw [← bits_mod _ lo n hn, hbytes, bytesNat_physBytes w hal, bits_mod _ lo n hn]
  unfold statWords hCOST hOVERLAP hNINC hNNODE hREFITS hEXCL hMAXD
  rw [hfield 352 32 (by decide), hfield 320 32 (by decide), hfield 448 32 (by decide), hfield 416 32 (by decide),
    hfield 288 32 (by decide), hfield 256 32 (by decide), hfield 0 6 (by decide)]

/-! ### The instruction -/

section Owing

variable {s : State} {h : Hdr} {src dst : List Named} {x : List Nat}

/-- An effect that owes results and changes no more than names and choices still to make. -/
theorem owes_of_opens {i : Instr} {w : Work} {g : Group} {d : Dst} {c : Nat} {pay : Nat → Payload} (hi : Issued s h src dst x)
    (ho : Opens s dst w g)
    (hrest : { w.d with groups := [], blocks := [], free := 0, nextId := 0 } = { s.d with groups := [], blocks := [], free := 0, nextId := 0 })
    (hcore : g.core = s.here.core) (howed : owedOf g = owedOf s.here ++ owes s x d c pay) (hexec : exec i s = .next (leaves s w)) :
    Owes i s x d c pay := by
  obtain ⟨hmem, hall, hadv⟩ := ho.frame hi
  refine ⟨_, hexec, ⟨hmem, ?_, fun k hk => ho.slot? hk, fun k hk => ho.blk? hi hk, ho.core.trans hcore, ho.owed.trans howed,
    ho.myBlk hi, fun l => ?_⟩, hadv, hall⟩
  · exact hrest
  · rw [ho.here, ends_thread_core _ _ _ _ (hi.rise.imp Nat.ne_of_lt), ho.thread]; rfl

/-- An aligned address of global memory that translates is a place. -/
theorem place_g_ok (ds : List Named) (hi : Issued s h src dst x) {va : Int} {n l : Nat} {lf : Leaf} {kind : XKind} (hal : va % n = 0)
    (hlt : va < 2 ^ 57) (ht : (begin_ s).translate (slotDie s.d.cur.slot) va.toNat kind (!s.myBlk.priv) = .ok lf) :
    (atIssue s ds).place .g va n kind l = .ok (.glob lf) := by
  have htr : (atIssue s ds).translate (atIssue s ds).dieNo va.toNat kind (!(atIssue s ds).blk.priv) = .ok lf := by
    rw [(atIssue_reads_owning s ds).translate, atIssue_priv ds hi]
    exact ht
  unfold Work.place
  rw [hal]
  simp only [bne_self_eq_false, Bool.false_eq_true, if_false, if_neg (not_le.2 hlt), htr]

/-- pg.stat.hdr owes the words that its engine reads as it issues. -/
theorem pgStatHdr_owes {d : Dst} {a : Opnd} {lf : Leaf} (hi : Issued s h (a.names 2) (d.names 8) x) (hacq : s.here.acq = [])
    (hal : ((s.op64 (x.headD 0) a).toNat : Int) % 64 = 0) (hlt : ((s.op64 (x.headD 0) a).toNat : Int) < 2 ^ 57)
    (ht : (begin_ s).translate (slotDie s.d.cur.slot) ((s.op64 (x.headD 0) a).toNat : Int).toNat .load (!s.myBlk.priv) = .ok lf)
    (hw : (begin_ s).descWaits lf.pa = none) : Owes (.pgStat h true d a) s x d 8 fun k =>
      .ready ((atIssue s (d.names 8)).hdrWords lf.pa k) := by
  obtain ⟨os, ho, hmap⟩ := (Opens.atIssue (ds := d.names 8) hi).owe rfl h x d 8 fun k => .ready ((atIssue s (d.names 8)).hdrWords lf.pa k)
  have hfree := ho.of_eq (w' := ((atIssue s (d.names 8)).owe h x d 8 fun k =>
    .ready ((atIssue s (d.names 8)).hdrWords lf.pa k)).updDev fun d => { d with free := d.free + 256 }) rfl rfl rfl rfl
  refine owes_of_opens hi hfree ?_ (startGroup_core (s := s)) ?_ (issue_ok hi (js := []) ?_)
  · exact owe_keeps (fun d => { d with groups := [], blocks := [], free := 0, nextId := 0 }) (fun _ _ => rfl) (fun _ _ => rfl) ..
  · rw [owedOf, List.map_append, hmap]
    exact congrArg (· ++ _) startGroup_owed
  · have hplace := place_g_ok (d.names 8) hi (n := 64) (l := x.headD 0) hal hlt ht
    have hwait := descWaits_none (atIssue_reads_owning s (d.names 8)) hw
    dsimp only
    rw [if_pos rfl, atIssue_g _ hi, startGroup_acq, hacq, descVa_atIssue _ hi, hplace]
    dsimp only [placeKey]
    rw [hwait]
    rfl

end Owing

end Sys2Proof.Machine
end

section
/-! PROOFS. comp as it issues (O48): its fragments in the order of their keys, and the copies of their lines that go. -/

namespace Sys2Proof.Machine

/-! ### The order of fragments (R300) -/

theorem fragIns_eq : fragIns = List.orderedInsert (fun f g : Frag => f.key ≤ g.key) := by
  funext f fs
  induction fs with
  | nil => rfl
  | cons g fs ih => rw [fragIns, List.orderedInsert, ih]

theorem sorted_fragIns (fs : List Frag) : (fs.foldr fragIns []).Pairwise fun f g => f.key ≤ g.key := by
  rw [fragIns_eq]
  have : Std.Total fun f g : Frag => f.key ≤ g.key := ⟨fun f g => Nat.le_total f.key g.key⟩
  have : IsTrans Frag fun f g : Frag => f.key ≤ g.key := ⟨fun _ _ _ => Nat.le_trans⟩
  exact List.pairwise_insertionSort (fun f g : Frag => f.key ≤ g.key) fs

theorem perm_fragIns (fs : List Frag) : (fs.foldr fragIns []).Perm fs := by
  rw [fragIns_eq]
  exact List.perm_insertionSort (fun f g : Frag => f.key ≤ g.key) fs

/-! ### Copies of the pixels' lines (R94) -/

/-- The core's remote-die copies of the fragments' lines go, where another die is their home. -/
def Work.dropPixels (w : Work) (fs : List Frag) : Work :=
  fs.foldl (fun w f => if homeOf w.d f.pa = .die w.dieNo then w else w.dropLine w.coreNo f.pa) w

/-- A copy stays that no fragment's line is, or only of lines whose home is the core's die. -/
def Work.staysAfter (w : Work) (fs : List Frag) (c : L1Copy) : Bool :=
  fs.all fun f => decide (homeOf w.d f.pa = .die w.dieNo) || !(c.remote && 128 * c.sector / 512 == lineOf f.pa)

theorem dropPixels_keeps {β : Type} (φ : Dev → β) (hc : ∀ d v, φ { d with cores := v } = φ d) (fs : List Frag) :
    ∀ w : Work, φ (w.dropPixels fs).d = φ w.d := by
  unfold Work.dropPixels
  induction fs with
  | nil => exact fun _ => rfl
  | cons f fs ih =>
    intro w
    rw [List.foldl_cons, ih]
    split
    · rfl
    · exact hc ..

theorem dropPixels_log (fs : List Frag) : ∀ w : Work, (w.dropPixels fs).log = w.log := by
  unfold Work.dropPixels
  induction fs with
  | nil => exact fun _ => rfl
  | cons f fs ih =>
    intro w
    rw [List.foldl_cons, ih]
    split <;> rfl

theorem dropPixels_core (fs : List Frag) : ∀ (w : Work) (k : Nat), (w.dropPixels fs).d.core k =
    if k = w.coreNo then { w.d.core k with copies := (w.d.core k).copies.filter (w.staysAfter fs) } else w.d.core k := by
  induction fs with
  | nil =>
    intro w k
    have hall : (w.d.core k).copies.filter (w.staysAfter []) = (w.d.core k).copies := List.filter_eq_self.mpr fun _ _ => rfl
    rw [hall]
    exact (ite_self _).symm
  | cons f fs ih =>
    intro w k
    have hstays : ∀ c, w.staysAfter (f :: fs) c =
        ((decide (homeOf w.d f.pa = .die w.dieNo) || !(c.remote && 128 * c.sector / 512 == lineOf f.pa)) && w.staysAfter fs c) :=
      fun _ => rfl
    rw [show w.dropPixels (f :: fs) =
      (if homeOf w.d f.pa = .die w.dieNo then w else w.dropLine w.coreNo f.pa).dropPixels fs from rfl]
    by_cases hh : homeOf w.d f.pa = .die w.dieNo
    · have hsame : w.staysAfter (f :: fs) = w.staysAfter fs := funext fun c => by
        rw [hstays, decide_eq_true hh, Bool.true_or, Bool.true_and]
      rw [if_pos hh, ih, hsame]
    · have hboth : w.staysAfter (f :: fs) = fun c => w.staysAfter fs c && !(c.remote && 128 * c.sector / 512 == lineOf f.pa) :=
        funext fun c => by rw [hstays, decide_eq_false hh, Bool.false_or, Bool.and_comm]
      rw [if_neg hh, ih, show (w.dropLine w.coreNo f.pa).coreNo = w.coreNo from rfl,
        show (w.dropLine w.coreNo f.pa).staysAfter fs = w.staysAfter fs from rfl]
      unfold Work.dropLine
      rw [Work.core_updCore]
      by_cases hk : k = w.coreNo
      · subst hk
        rw [if_pos rfl, if_pos rfl, if_pos rfl]
        dsimp only
        rw [List.filter_filter, hboth]
      · rw [if_neg hk, if_neg hk, if_neg hk]

/-- Which copies stay, said of the fragments' addresses. -/
theorem mem_filter_staysAfter {w : Work} {fs : List Frag} {cs : List L1Copy} {c : L1Copy} : c ∈ cs.filter (w.staysAfter fs) ↔
    c ∈ cs ∧ (c.remote = true → ∀ f ∈ fs, homeOf w.d f.pa = .die w.dieNo ∨ c.sector / 4 ≠ f.pa / 512) := by
  have hline : 128 * c.sector / 512 = c.sector / 4 := by omega
  rw [List.mem_filter]
  refine and_congr_right fun _ => ?_
  unfold Work.staysAfter lineOf
  rw [hline, List.all_eq_true]
  cases c.remote <;> simp

/-! ### Keys as the effect starts -/

/-- The keys of a run depend on the translations, on the die and on the block's privilege alone. Their recursion is compared as one
function, so that no check has to compute a walk of unknown tables. -/
theorem runKeys_congr {w v : Work} (ht : v.translate = w.translate) (hd : v.dieNo = w.dieNo) (hp : v.blk.priv = w.blk.priv) :
    v.runKeys = w.runKeys := by
  delta Work.runKeys Work.runKeys._f
  rw [ht, hd, hp]

section Comp

variable {s : State} {h : Hdr} {src dst : List Named} {x : List Nat} (ds : List Named)

theorem keysOf_atIssue (hi : Issued s h src dst x) (kind : XKind) (va : Int) (n : Nat) :
    (atIssue s ds).keysOf kind va n = (begin_ s).keysOf kind va n := by
  have ho := atIssue_reads_owning s ds
  have hp : (atIssue s ds).blk.priv = (begin_ s).blk.priv := by rw [atIssue_priv ds hi, begin_blk hi]
  unfold Work.keysOf
  rw [runKeys_congr ho.translate_eq ho.dieNo hp]

theorem notHelper_atIssue (hi : Issued s h src dst x) (y : List Nat) : (atIssue s ds).notHelper y = realLanes s y := by
  unfold Work.notHelper realLanes
  simp only [atIssue_thread ds hi, begin_g hi]

theorem readT_atIssue (hi : Issued s h src dst x) (n : Nat) : (atIssue s ds).g.readT n = s.here.readT n := by
  rw [atIssue_g ds hi, Group.readT, startGroup_t]
  rfl

/-! ### The instruction -/

theorem Opens.dropPixels {ds : List Named} {w : Work} {g : Group} (ho : Opens s ds w g) (fs : List Frag) : Opens s ds (w.dropPixels fs) g :=
  ho.of_eq (dropPixels_log fs w) (dropPixels_keeps Dev.cur (fun _ _ => rfl) fs w) (dropPixels_keeps Dev.groups (fun _ _ => rfl) fs w)
    (dropPixels_keeps Dev.blocks (fun _ _ => rfl) fs w)

/-- The lanes whose pixel lies in the target (R300). -/
def insideOf (s : State) (r : TRec) (x : List Nat) (xo yo : Opnd) : List Nat :=
  (realLanes s x).filter fun k => decide ((s.op32 k xo).toNat < rCOLS r / 4) && decide ((s.op32 k yo).toNat < rROWS r)

/-- The key of the pixel that a lane names, or why it has none. -/
def pixelKey (s : State) (r : TRec) (xo yo : Opnd) (k : Nat) : Except Fail (Nat × Nat) :=
  ((begin_ s).keysOf .rmw ((rBASE r + (s.op32 k yo).toNat * rSTRIDE r + 16 * (s.op32 k xo).toNat : Nat) : Int) 16).map fun ks =>
    (k, ks.headD 0)

/-- The fragments of lanes and the keys of their pixels. -/
def fragsOf (s : State) (key col : Opnd) (ps : List (Nat × Nat)) : List Frag :=
  ps.map fun q => Frag.mk q.2 (s.op32 q.1 key).toNat ((List.range 4).map fun i => ((begin_ s).opRun q.1 col i).toNat)

/-- The operation that comp hands over. -/
def compOp (s : State) (tk : BitVec 6) (fs : List Frag) (out : Nat) : EOp :=
  { s.newOp .gs (.comp fs) with tok := some tk.toNat, left := fs.length, word := BitVec.ofNat 64 (2 ^ 32 * out) }

theorem op32_atIssue (hi : Issued s h src dst x) (l : Nat) (o : Opnd) : (atIssue s ds).op32 l o = s.op32 l o := atIssue_op32 ds hi l o

theorem comp_exec {tr : BitVec 4} {tk : BitVec 6} {xo yo key col : Opnd} {ps : List (Nat × Nat)}
    (hi : Issued s h (xo.names 1 ++ yo.names 1 ++ key.names 1 ++ col.names 4 ++ tNames tr) [.s tk.toNat] x)
    (hon : EngineOn s ePergola) (hbad : targetBad (s.here.readT tr.toNat) = false)
    (hps : collect ((insideOf s (s.here.readT tr.toNat) x xo yo).map (pixelKey s (s.here.readT tr.toNat) xo yo)) = .ok ps) :
    let fs := (fragsOf s key col ps).foldr fragIns []
    exec (.comp h tr tk xo yo key col) s = .next (leaves s (((atIssue s [.s tk.toNat]).dropPixels fs).enter
      (compOp s tk fs (x.length - (insideOf s (s.here.readT tr.toNat) x xo yo).length)))) := by
  intro fs
  have hnew := ((Opens.atIssue (ds := [.s tk.toNat]) hi).dropPixels fs).newOp hi (dropPixels_keeps Dev.nextId (fun _ _ => rfl) fs _) .gs (.comp fs)
  refine issue_ok hi (js := []) ?_
  dsimp only
  rw [readT_atIssue _ hi, hbad, if_neg Bool.false_ne_true, notHelper_atIssue _ hi]
  simp only [op32_atIssue _ hi, keysOf_atIssue _ hi, atIssue_opRun _ hi]
  unfold compOp
  rw [← hnew]
  unfold insideOf
  unfold insideOf pixelKey at hps
  rw [hps]
  dsimp only
  rw [engineReady_atIssue _ hi hon]
  rfl

/-- What comp leaves of the cores: its own has dropped copies. -/
theorem comp_core (fs : List Frag) (e : EOp) (k : Nat) : (leaves s (((atIssue s ds).dropPixels fs).enter e)).d.core k =
    if k = slotCore s.d.cur.slot then
      { s.d.core k with copies := (s.d.core k).copies.filter ((atIssue s ds).staysAfter fs) } else s.d.core k :=
  (enter_keeps (Dev.core · k) (fun _ _ => rfl) (fun _ _ => rfl) _ e).trans (dropPixels_core fs (atIssue s ds) k)

theorem comp_hands {tr : BitVec 4} {tk : BitVec 6} {xo yo key col : Opnd} {ps : List (Nat × Nat)}
    (hi : Issued s h (xo.names 1 ++ yo.names 1 ++ key.names 1 ++ col.names 4 ++ tNames tr) [.s tk.toNat] x)
    (hon : EngineOn s ePergola) (hbad : targetBad (s.here.readT tr.toNat) = false)
    (hps : collect ((insideOf s (s.here.readT tr.toNat) x xo yo).map (pixelKey s (s.here.readT tr.toNat) xo yo)) = .ok ps) :
    let core := slotCore s.d.cur.slot
    ∃ fs, fs.Pairwise (fun f g => f.key ≤ g.key) ∧ fs.Perm (fragsOf s key col ps) ∧
      Ends (.comp h tr tk xo yo key col) s fun t =>
        Handed s t (compOp s tk fs (x.length - (insideOf s (s.here.readT tr.toNat) x xo yo).length)) [] ∧
        t.myBlk.core = s.myBlk.core ∧ t.d.dies = s.d.dies ∧ (∀ k, k ≠ core → t.d.core k = s.d.core k) ∧
        { t.d.core core with copies := [] } = { s.d.core core with copies := [] } ∧
        ∀ k, k ∈ (t.d.core core).copies ↔ k ∈ (s.d.core core).copies ∧
          (k.remote = true → ∀ q ∈ ps, homeOf s.d q.2 = .die (slotDie s.d.cur.slot) ∨ k.sector / 4 ≠ q.2 / 512) := by
  intro core
  have hperm := perm_fragIns (fragsOf s key col ps)
  have ho := (Opens.atIssue (ds := [.s tk.toNat]) hi).dropPixels ((fragsOf s key col ps).foldr fragIns [])
  have hk : ∀ {β : Type} (φ : Dev → β), (∀ d v, φ { d with cores := v } = φ d) →
      φ ((atIssue s [.s tk.toNat]).dropPixels ((fragsOf s key col ps).foldr fragIns [])).d = φ (atIssue s [.s tk.toNat]).d :=
    fun φ hc => dropPixels_keeps φ hc _ _
  refine ⟨_, sorted_fragIns _, hperm, _, comp_exec hi hon hbad hps, handed_of_opens hi ho (hk Dev.ops fun _ _ => rfl)
    (hk Dev.parts fun _ _ => rfl) (hk Dev.launches fun _ _ => rfl) startGroup_core (startGroup_owed.trans (List.append_nil _).symm) rfl,
    (ho.enter (.inl rfl)).myBlk hi, ?_, fun k hne => ?_, ?_, fun k => ?_⟩
  · exact (enter_keeps Dev.dies (fun _ _ => rfl) (fun _ _ => rfl) ..).trans (hk Dev.dies fun _ _ => rfl)
  · rw [comp_core, if_neg hne]
  · rw [comp_core, if_pos rfl]
  · rw [comp_core, if_pos rfl]
    refine mem_filter_staysAfter.trans (and_congr_right fun _ => forall_congr' fun _ => ?_)
    constructor
    · exact fun hall q hq => hall _ (hperm.mem_iff.mpr (List.mem_map_of_mem hq))
    · intro hall f hf
      obtain ⟨q, hq, rfl⟩ := List.mem_map.mp (hperm.mem_iff.mp hf)
      exact hall q hq

end Comp

/-- Settles O48: a command, a publication, statistics and a trace are one operation and its step (`steps_of_opens`), of the structure
that the state's tables and bytes give (`structAt_issued`); a refused command is one operation alone (`buildOp_refused`), the words of
a header are owed as its engine reads them (`pgStatHdr_owes`), and comp hands over its fragments by their keys (`comp_hands`). -/
theorem pergolaIssue : Obligations.PergolaIssue := by
  unfold Obligations.PergolaIssue
  intro s h x a tk p
  dsimp only
  refine ⟨fun hr => ⟨fun cmd i hcmd hrun => ?_, fun hon hst => ⟨fun hf hrun => ?_, fun d hrun => ?_, fun any d ray hrun => ?_⟩⟩,
    fun d lf hacq hal hlt ht hw hrun => ⟨fun hknown hal' hrace => ?_, fun _ => ?_⟩,
    fun tr xo yo key col ps hon hbad hrun hps => ?_⟩
  · have hexec : exec i s = buildOp s h tk a cmd := by
      rcases hcmd with ⟨rfl, rfl⟩ | ⟨rfl, rfl⟩ | ⟨rfl, rfl⟩ <;> rfl
    have hi := issued_of hrun.2
    exact ⟨fun hon hst => buildOp_steps hi hr hon hexec hst, fun hon hst => buildOp_refused hi hr hon hexec hst⟩
  · exact pgPublish_steps (issued_of hrun.2) hr hon hf hst
  · exact pgStat_steps (issued_of hrun.2) hr hon hst
  · exact trace_steps rfl rfl (issued_of hrun.2) hr hon hst
  · have howes := pgStatHdr_owes (issued_of hrun.2) hacq hal hlt ht hw
    have hreads := atIssue_order s (d.names 8)
    have hwords : ∀ k, (atIssue s (d.names 8)).hdrWords lf.pa k = statWords ((begin_ s).objData lf.pa) := fun k => by
      unfold Work.hdrWords
      rw [hreads.hdrKnown, hknown, if_pos rfl, hreads.engineBytes, statWords_engineBytes hal' hrace]
    simp only [hwords] at howes
    exact howes
  · exact ⟨fun k => (atIssue s (d.names 8)).hdrWords lf.pa k, fun k => hdrWords_length .., pgStatHdr_owes (issued_of hrun.2) hacq hal hlt ht hw⟩
  · exact comp_hands (issued_of hrun.2) hon hbad hps

end Sys2Proof.Machine
end
